-- ==== Sys2Proof/Word.lean ====
section
/-! DEFINITION. Words of the part: bytes, names, and indexed update of the fixed arrays (4 lines, 4 channels, 64 gauge
slots, 16 profiles). -/

namespace Sys2Proof

/-- One byte as it crosses a pin (R177, R200). -/
abbrev Byte := BitVec 8

/-- A coil name: its characters, in order (chapter The Genealogy Table, section 1.1). -/
abbrev Name := List Byte

/-- Replace entry `i` of a fixed array by `f` of it. -/
def updAt {α : Type} {n : Nat} (v : Vector α n) (i : Fin n) (f : α → α) : Vector α n :=
  v.set i.1 (f v[i]) i.2

/-- A `Nat` as an index below `n + 1`, by remainder; used only on values already checked to be in range. -/
def finOf (n k : Nat) : Fin (n + 1) := ⟨k % (n + 1), Nat.mod_lt _ (Nat.succ_pos n)⟩

end Sys2Proof
end

