-- ==== Sys2Proof/Syntax.lean ====
section
/-! DEFINITION. The commands of the part: one constructor of `Instr` for each row of spec/opcode_table.json, with the row's
operands. Numbers named R<n> are the rules of spec/. -/

namespace Sys2Proof

/-- A request frame as the Request Unit sees it: channel byte, tag and payload (R177). The kind is the constructor's. -/
structure Req where
  channel : Byte
  tag     : BitVec 16
  payload : List Byte
  deriving DecidableEq, Repr

/-- Orientation of an entry (codes of R200). -/
inductive Orientation where
  | headFirst
  | tailFirst
  deriving DecidableEq, Repr

/-- The fields of a well-formed station frame (chapter Line Ports, "Station frame kinds"). -/
inductive StationFrame where
  | position (feed delivery time : BitVec 32)
  | readings (gauge : Byte) (first : BitVec 32) (stride : BitVec 16) (raws : List (BitVec 16)) (time : BitVec 32)
  | entry    (feed : BitVec 32) (orient : Orientation) (declared : BitVec 32) (name : Name)
  | tail     (feed : BitVec 32)
  | cut      (cut next : BitVec 32) (names : List Name)
  deriving DecidableEq, Repr

/-- The raw values of a READINGS frame in order, and after how many of them its hand-over is cut, or none (R65, R96, log entry 12). -/
structure Raws where
  values : List (BitVec 16)
  handed : Option Nat
  deriving DecidableEq, Repr

/-- One of the nine condition instances of R185. -/
inductive Condition where
  | uncertain (line : Fin 4)
  | silent    (line : Fin 4)
  | exhausted
  deriving DecidableEq, Repr

/-- How the flash ended a PROGRAM or an ERASE (R106, R107, R108). -/
inductive FlashEnd where
  | good
  | failed
  deriving DecidableEq, Repr

/-- What a READ returned: the page as the array holds it, or other bytes the attached flash gave back (R115). -/
inductive ReadBack where
  | asStored
  | bytes (image : List Byte)
  deriving DecidableEq, Repr

/-- The commands, in the order of the opcode table. -/
inductive Instr where
  -- requests of the service link (chapter The Service Link, section 9.3)
  | identify        (r : Req)
  | defineLine      (r : Req)
  | defineGauge     (r : Req)
  | defineProfile   (r : Req)
  | readDefinition  (r : Req)
  | setNotices      (r : Req)
  | injectEntry     (r : Req)
  | injectTail      (r : Req)
  | injectCut       (r : Req)
  | resyncLine      (r : Req)
  | emptyLine       (r : Req)
  | importFrame     (r : Req)
  | retire          (r : Req) (removals : Option Nat)
  | lookup          (r : Req)
  | closeBlocks     (r : Req)
  | setTarget       (r : Req)
  | setRange        (r : Req)
  | setTraces       (r : Req)
  | setProfile      (r : Req)
  | setDepth        (r : Req)
  | resetChannel    (r : Req)
  | runPlayback     (r : Req)
  | runAncestry     (r : Req)
  | runDescent      (r : Req)
  | hold            (r : Req)
  | release         (r : Req)
  | cancel          (r : Req)
  | poll            (r : Req)
  | readCounters    (r : Req)
  | linkClear       (r : Req)
  | clearAllData    (r : Req)
  | unknownKind     (kind : Byte) (r : Req)
  -- the link itself
  | replyPlaced
  | linkByte        (b : Byte) (stopAtMark : Bool)
  | gapTimeout
  | frameTransmitted
  | noticeRepeat    (c : Condition)
  -- line ports
  | character       (line : Fin 4) (data : Byte) (flag parity stop : Bool) (changes : Nat)
  | idleEvent       (line : Fin 4)
  | silent          (line : Fin 4)
  -- items a line tracker takes
  | position        (line : Fin 4) (seq : Byte) (feed delivery time : BitVec 32)
  | readings        (line : Fin 4) (seq gauge : Byte) (first : BitVec 32) (stride : BitVec 16) (raws : Raws) (time : BitVec 32)
  | entry           (line : Fin 4) (seq : Byte) (feed : BitVec 32) (orient : Orientation) (declared : BitVec 32) (name : Name)
  | tail            (line : Fin 4) (seq : Byte) (feed : BitVec 32)
  | cut             (line : Fin 4) (seq : Byte) (cut next : BitVec 32) (names : List Name)
  | malformedItem   (line : Fin 4) (kind seq : Byte)
  | restartMark     (line : Fin 4)
  | injectedEvent   (line : Fin 4)
  | trackerClear    (line : Fin 4)
  -- genealogy operations, performed for the requester named
  | enterCoil       (line : Fin 4)
  | closeEntry      (line : Fin 4)
  | makeChild       (line : Fin 4)
  | finalizeLinks   (line : Fin 4)
  | dropPending     (line : Fin 4)
  | importCoil
  | importLink
  | planStep        (ch : Fin 4)
  | gtClear
  -- capture and archive
  | gaugeIdleExpiry (slot : Fin 64)
  | program         (result : FlashEnd)
  | erase           (result : FlashEnd)
  | read            (back : ReadBack)
  | streamFramePlaced (ch : Fin 4)
  -- start-up
  | resetAsserted   (removals : Nat)
  | resetReleased   (straps : Fin 4)
  | powerOn         (retentionLost : Bool) (straps : Fin 4)
  | coldStart       (badGroups : List (Fin 4096))
  | resume          (page : ReadBack) (failing : List (Fin 4096)) (updates : Option Nat)
  deriving DecidableEq, Repr

end Sys2Proof
end

