-- ==== Sys2Proof/Machine/State.lean ====
section
/-! DEFINITION. The whole state of the part as plain data, the reset state, and the outcome reasons. Each field cites the rule
of spec/ that names it. Retained fields (R192) and internal ones stand side by side; what a start keeps of them is in
Machine/Startup.lean. -/

namespace Sys2Proof.Machine

/-! ## Small alphabets (codes of R200) -/

inductive Parity where | none | odd
  deriving DecidableEq, Repr

inductive Side where | feed | delivery
  deriving DecidableEq, Repr

/-- Direction of a stage or link: SAME or REVERSED. -/
inductive Dir where | same | reversed
  deriving DecidableEq, Repr

/-- WHOLE, or a lane number from 0. -/
inductive Lane where | whole | num (n : Nat)
  deriving DecidableEq, Repr

inductive Reduction where | mean | min | max | last | count
  deriving DecidableEq, Repr

inductive Encoding where | s16 | u8
  deriving DecidableEq, Repr

inductive Markers where | all | gapsOnly | none
  deriving DecidableEq, Repr

inductive RunKind where | playback | ancestry | descent
  deriving DecidableEq, Repr

inductive GapReason where
  | inProcess | pending | noOrigin | notPassed | depth | retired | fragmented | noData | readFault
  deriving DecidableEq, Repr

inductive RunResult where | complete | cancelled | halted | targetRetired | truncated
  deriving DecidableEq, Repr

/-- Refusal codes of requests and import items (R200). -/
inductive Code where
  | unknownKind | badLength | badValue | badChannel | busy | notRunning | notStaged | notFound | noRoom | inUse
  | duplicate | order | overlap | noImport | starting
  deriving DecidableEq, Repr

/-- A span "from lo to hi": cells lo to hi - 1. -/
structure Ival where
  lo : Nat
  hi : Nat
  deriving DecidableEq, Repr

/-- A coil reference: handle with creation sequence (R11). -/
structure Ref where
  handle : Nat
  seq    : Nat
  deriving DecidableEq, Repr

/-! ## Genealogy Table (chapter 1) -/

inductive Origin where | tracked | imported | unknown
  deriving DecidableEq, Repr

inductive CoilState where | made | entered | consumed
  deriving DecidableEq, Repr

/-- Coil flags (R3). -/
structure CoilFlags where
  reentry       : Bool := false
  suspect       : Bool := false
  noMaterial    : Bool := false
  duplicateName : Bool := false
  clamped       : Bool := false
  deriving DecidableEq, Repr

/-- Made passage (R4): line, lane, delivery head H. -/
structure MadePassage where
  line : Nat
  lane : Lane
  head : Nat
  deriving DecidableEq, Repr

/-- Consumed passage (R4): line, orientation, feed head F_h, feed tail F_t (absent while ENTERED). -/
structure ConsumedPassage where
  line   : Nat
  orient : Orientation
  fh     : Nat
  ft     : Option Nat
  deriving DecidableEq, Repr

/-- A coil record (section 1.1). The two lists hold link handles in the order of R6. -/
structure Coil where
  handle   : Nat
  seq      : Nat
  name     : Name
  indexed  : Bool
  origin   : Origin
  state    : CoilState
  length   : Option Nat
  flags    : CoilFlags
  made     : Option MadePassage
  consumed : Option ConsumedPassage
  parents  : List Nat
  children : List Nat
  deriving DecidableEq, Repr

/-- Pending source of a link (section 1.2): segment identity and delivery span; the line is the link's own. -/
structure PendingSource where
  segment : Nat
  span    : Ival
  deriving DecidableEq, Repr

/-- A link record (section 1.2). FINAL exactly when the parent span is present. A scrap link has no child, and child span 0 to 0; a
link that is not scrap has scrap length 0. -/
structure Link where
  handle     : Nat
  child      : Option Nat
  childSpan  : Ival
  scrap      : Nat
  parent     : Nat
  parentSpan : Option Ival
  dir        : Dir
  lane       : Lane
  line       : Nat
  suspect    : Bool
  source     : Option PendingSource
  deriving DecidableEq, Repr

/-- An open import session (R21). -/
structure ImportSession where
  code     : Nat
  accepted : Nat
  refused  : Nat
  deriving DecidableEq, Repr

/-- The Genealogy Table: pools (occupied slots by rising handle), counter, import session, arbiter pointers (R10, R13, R21). -/
structure Genealogy where
  coils       : List Coil
  links       : List Link
  nextSeq     : Nat
  session     : Option ImportSession
  lastTracker : Fin 4
  lastPlanner : Fin 4
  deriving DecidableEq, Repr

/-- A link a tracker supplies to MAKE CHILD (R18): child span (unused for scrap), parent, lane, direction, suspect mark, scrap
length, and either a parent span (FINAL) or the delivery span of a pending source (PENDING). -/
structure NewLink where
  childSpan  : Ival
  scrap      : Nat
  parent     : Ref
  lane       : Lane
  dir        : Dir
  suspect    : Bool
  parentSpan : Option Ival
  source     : Ival
  deriving DecidableEq, Repr

/-- The child part of MAKE CHILD (R18). -/
structure ChildPart where
  name    : Name
  lane    : Lane
  head    : Nat
  length  : Nat
  suspect : Bool
  clamped : Bool
  links   : List NewLink
  deriving DecidableEq, Repr

/-- The readings of a READINGS frame not yet handed over (R65, R96): the frame, the slot with the definition sequence it was given, the
tracker's suspect mark, the coordinate of the next reading, and the raw values left. -/
structure Handing where
  seq     : Byte
  frame   : StationFrame
  slot    : Fin 64
  dseq    : Nat
  suspect : Bool
  stride  : Nat
  coord   : Nat
  raws    : List (BitVec 16)
  deriving DecidableEq, Repr

/-- What the item in hand of a Line Tracker waits on: one of the operations it presents to the Genealogy Table (section 1.6), each with
the figures it carries, the line being the tracker's; or the hand-over of its further readings, which is no operation of the table. -/
inductive TrackOp where
  | enterCoil  (name : Name) (orient : Orientation) (fh declared : Nat)
  | closeEntry (coil : Ref) (ft : Nat)
  | makeChild  (child : Option ChildPart) (scraps : List NewLink)
  | finalize   (coil : Ref) (orient : Orientation) (fh ft dh dt len : Nat) (suspect : Bool)
  | dropPending (coil : Ref)
  | hand       (h : Handing)
  deriving DecidableEq, Repr

/-- Resume position of a PLAN STEP (R27): a child span start; a parent span start and lane; a count of PENDING links. -/
inductive Resume where
  | start
  | childStart (pos : Nat)
  | parentStart (pos : Nat) (lane : Lane)
  | pendings (n : Nat)
  deriving DecidableEq, Repr

/-- PLAN STEP as presented (R27); `up` reads the parent-link list, otherwise the child-link list. -/
structure PlanOp where
  coil : Ref
  up   : Bool
  span : Ival
  from_ : Resume
  deriving DecidableEq, Repr

/-- A link copied by PLAN STEP: the link, and the name and reference of the coil at its other end (absent for SCRAP). -/
structure LinkCopy where
  link : Link
  far  : Option (Name × Ref)
  deriving DecidableEq, Repr

/-- The answer of PLAN STEP on a current reference (R27). `hasParents` is whether the coil's parent-link list is nonempty. -/
structure PlanCoil where
  coil       : Coil
  hasParents : Bool
  links      : List LinkCopy
  next       : Option Resume
  deriving DecidableEq, Repr

/-- RETIRED (none) or the copy. -/
abbrev PlanAnswer := Option PlanCoil

/-! ## Line ports (chapter 3) -/

/-- Receiver states of R49, and settling after a definition change (R60). -/
inductive RxState where | off | settling | hunt | take | pass
  deriving DecidableEq, Repr

/-- The frame in progress in TAKE (R51, R53, R55). The body keeps at most 255 bytes; `count` counts them all. -/
structure Filling where
  buffered : Bool
  body     : List Byte
  count    : Nat
  corrupt  : Bool
  deriving DecidableEq, Repr

/-- What the tracker takes from the hand-over order (R58). -/
inductive Item where
  | frame (seq : Byte) (f : StationFrame)
  | malformed (kind seq : Byte)
  | restart
  deriving DecidableEq, Repr

/-- The nine port counters, in the order of R59. -/
structure PortCounters where
  taken         : Nat := 0
  passed        : Nat := 0
  parityErrors  : Nat := 0
  framingErrors : Nat := 0
  overruns      : Nat := 0
  checkFailures : Nat := 0
  malformed     : Nat := 0
  missed        : Nat := 0
  breaks        : Nat := 0
  deriving DecidableEq, Repr

/-- One Line Port. `cuts` has one entry for each change of the port's settings, but for those made while it is not enabled, since a
character last completed or an idle event, newest first: the parity a character then in reception completes under, or none where the port counts no such character (R60, log entry
18). -/
structure Port where
  rx        : RxState
  cur       : Option Filling
  order     : List Item
  idleArmed : Bool
  cuts      : List (Option Parity)
  cnt       : PortCounters
  deriving DecidableEq, Repr

/-! ## Line trackers (chapter 4) -/

/-- The nine settings of a line (R47, R62); `rate` is the code of R200, `silence` in tenths of a second. -/
structure LineDef where
  enabled : Bool
  address : Nat
  rate    : Nat
  parity  : Parity
  pf      : Nat
  pd      : Nat
  lanes   : Nat
  jump    : Nat
  silence : Nat
  deriving DecidableEq, Repr

inductive LineState where | undefined | waiting | tracking | uncertain
  deriving DecidableEq, Repr

inductive SegFault where | none | trackFault | detached
  deriving DecidableEq, Repr

/-- A segment of the track map (section 4.4). -/
structure Segment where
  coil    : Option Ref
  orient  : Orientation
  length  : Option Nat
  fh      : Nat
  ft      : Option Nat
  dh      : Option Nat
  dt      : Option Nat
  suspect : Bool
  fault   : SegFault
  deriving DecidableEq, Repr

/-- The exit record (R82). -/
structure ExitRecord where
  head    : Option Nat
  names   : List Name
  suspect : Bool
  deriving DecidableEq, Repr

/-- The six tracker counters, in the order of R91. -/
structure TrackCounters where
  jumps       : Nat := 0
  holds       : Nat := 0
  uncertain   : Nat := 0
  trackFaults : Nat := 0
  detached    : Nat := 0
  lost        : Nat := 0
  deriving DecidableEq, Repr

/-- What remains of an item after the operation it waits on (R74, R90). -/
inductive Task where
  | closeLast (ft : Nat)
  | place (orient : Orientation) (fh declared : Nat) (name : Name)
  | make (child : Option ChildPart) (scraps : List NewLink)
  | setExit (head : Nat) (names : List Name)
  | crossHead (i : Nat)
  | crossTail (i : Nat)
  | drop (i : Nat)
  | removeLast
  | keepPair
  | leave
  | emptyMap
  deriving DecidableEq, Repr

/-- An item in hand: the operation it waits on and whether that stands at the arbiter already (a later operation of an item comes there
some time after the result before it, log entry 16), the segment it concerns, what is left, and whether the item came from the port (its
buffer is then in use, R53) or from the Request Unit (R88, R90). -/
structure Work where
  op       : TrackOp
  presented : Bool
  seg      : Nat
  todo     : List Task
  fromPort : Bool
  deriving DecidableEq, Repr

/-- One Line Tracker. -/
structure Tracker where
  defn     : LineDef
  state    : LineState
  silent   : Bool
  timer    : Bool
  feed     : Nat
  delivery : Nat
  feedBase     : Option Nat
  deliveryBase : Option Nat
  pair     : Option (Nat × Nat)
  lastSeq  : Option Nat
  map      : List Segment
  exit     : ExitRecord
  cnt      : TrackCounters
  work     : Option Work
  clear    : Bool
  deriving DecidableEq, Repr

/-- A tracking event from the host, resolved by the tracker (R88); `none` as a position means NOW. -/
inductive HostEvent where
  | entry (pos : Option Nat) (orient : Orientation) (declared : Nat) (name : Name)
  | tail (pos : Option Nat)
  | cut (pos next : Option Nat) (names : List Name)
  deriving DecidableEq, Repr

/-! ## Gauge capture (chapter 5) -/

/-- An open capture block (R98): entries are (delta, raw) in arrival order. -/
structure OpenBlock where
  first   : Nat
  last    : Nat
  entries : List (Nat × BitVec 16)
  suspect : Bool
  deriving DecidableEq, Repr

/-- One slot of the gauge table with its working state (section 5.1). The idle timer runs exactly while a block is open. -/
structure Slot where
  defined  : Bool
  dseq     : Nat
  line     : Nat
  gauge    : Nat
  side     : Side
  offset   : Int
  lane     : Lane
  quantity : Nat
  unit     : Nat
  idle     : Nat
  block    : Option OpenBlock
  mark     : Option Nat
  deriving DecidableEq, Repr

/-- The six capture counters, in the order of R117. -/
structure CaptureCounters where
  captured   : Nat := 0
  undefinedGauge : Nat := 0
  belowZero  : Nat := 0
  outOfOrder : Nat := 0
  closed     : Nat := 0
  queueFull  : Nat := 0
  deriving DecidableEq, Repr

structure Capture where
  slots : Vector Slot 64
  cnt   : CaptureCounters
  deriving DecidableEq, Repr

/-! ## Archive (chapter 5) -/

/-- A closed capture block with its header (R100). -/
structure Block where
  slot    : Fin 64
  dseq    : Nat
  line    : Nat
  side    : Side
  lane    : Lane
  bseq    : Nat
  first   : Nat
  last    : Nat
  entries : List (Nat × BitVec 16)
  suspect : Bool
  deriving DecidableEq, Repr

inductive GroupState where | erased | filling | full | failing | bad
  deriving DecidableEq, Repr

/-- An archive index entry (R111). -/
structure Entry where
  page    : Nat
  bseq    : Nat
  dseq    : Nat
  first   : Nat
  last    : Nat
  suspect : Bool
  deriving DecidableEq, Repr

/-- A page request (R114): channel, slot, the entry as found, and the line, side and lane the run captured. -/
structure ReadReq where
  ch    : Fin 4
  slot  : Fin 64
  entry : Entry
  line  : Nat
  side  : Side
  lane  : Lane
  deriving DecidableEq, Repr

/-- The flash operation in progress; a READ whose requester no longer wants it is not wanted (R114). -/
inductive FlashOp where
  | program
  | erase (group : Nat)
  | read (req : ReadReq) (wanted : Bool)
  deriving DecidableEq, Repr

inductive OpKind where | program | erase | read
  deriving DecidableEq, Repr

/-- The eleven archive counters, in the order of R118. -/
structure ArchiveCounters where
  stored     : Nat := 0
  unindexed  : Nat := 0
  dropped    : Nat := 0
  lost       : Nat := 0
  programFailures : Nat := 0
  erases     : Nat := 0
  eraseFailures : Nat := 0
  retired    : Nat := 0
  reads      : Nat := 0
  readFaults : Nat := 0
  readsRetired : Nat := 0
  deriving DecidableEq, Repr

/-- The Archive Controller. `groups` lists the groups that are not FULL, by rising number. -/
structure Archive where
  nextBlock  : Nat
  queue      : List Block
  headFailed : Bool
  occupancy  : Nat
  groups     : List (Nat × GroupState)
  marks      : List Nat
  group      : Nat
  page       : Nat
  exhausted  : Bool
  op         : Option FlashOp
  lastOp     : Option OpKind
  lastChan   : Fin 4
  index      : Vector (List Entry) 64
  requests   : List ReadReq
  clear      : Bool
  cnt        : ArchiveCounters
  deriving DecidableEq, Repr

/-! ## Profiles and channels (chapters 6 to 8) -/

/-- One output profile (section 7.4). -/
structure Profile where
  encoding : Encoding
  gain     : Int
  offset   : Int
  hold     : Nat
  halt     : Bool
  bins     : Nat
  markers  : Markers
  deriving DecidableEq, Repr

/-- A staged target (section 6.1). -/
inductive Target where
  | none
  | name (n : Name)
  | ref (r : Ref)
  | line (l : Fin 4)
  deriving DecidableEq, Repr

/-- The staged part of a channel context (section 6.1). -/
structure Staged where
  target     : Target
  from_      : Nat
  to_        : Nat
  resolution : Nat
  traces     : List (Fin 64 × Reduction)
  profile    : Fin 16
  depth      : Nat
  deriving DecidableEq, Repr

/-- A captured trace (R125), with the quantity code and unit step as they stood at RUN (R160). -/
structure Trace where
  slot      : Fin 64
  dseq      : Nat
  line      : Nat
  side      : Side
  lane      : Lane
  reduction : Reduction
  quantity  : Nat
  unit      : Nat
  deriving DecidableEq, Repr

/-- A stage (section 2.1). -/
structure Stage where
  child  : Ival
  parent : Ival
  dir    : Dir
  deriving DecidableEq, Repr

/-- Ancestor of a DATA span (R129): name, reference and position. -/
structure Ancestor where
  name : Name
  coil : Ref
  pos  : Nat
  deriving DecidableEq, Repr

/-- What a plan span says of its stretch (R129). -/
inductive SpanKind where
  | data (source : Ival) (chain : List Stage) (ancestor : Option Ancestor) (suspect : Bool)
  | gap (reason : GapReason)
  deriving DecidableEq, Repr

/-- A plan span (R129); `id` tells the spans of one window apart. -/
structure Span where
  id     : Nat
  trace  : Nat
  target : Ival
  kind   : SpanKind
  deriving DecidableEq, Repr

/-- The LAST candidate (R151). -/
structure LastReading where
  raw   : Int
  pos   : Nat
  bseq  : Nat
  entry : Nat
  deriving DecidableEq, Repr

/-- A bin accumulator (section 7.1). -/
structure Acc where
  count    : Nat := 0
  sum      : Int := 0
  min      : Option Int := none
  max      : Option Int := none
  last     : Option LastReading := none
  overflow : Bool := false
  suspect  : Bool := false
  deriving DecidableEq, Repr

inductive WinStage where | planning | fetching | ready
  deriving DecidableEq, Repr

/-- A window in a window buffer (R127, R128): bins bin0 to bin1 - 1 of the target interval, plan list in the order of R129, and
the accumulators that are not cleared, by (bin, trace). `lost` lists, for a fragmented window, the first removed start of each
trace that lost spans (R137). -/
structure Window where
  no     : Nat
  bin0   : Nat
  bin1   : Nat
  span   : Ival
  stage  : WinStage
  plan   : List Span
  nextId : Nat
  frag   : Bool
  lost   : List (Nat × Nat)
  accs   : List ((Nat × Nat) × Acc)
  deriving DecidableEq, Repr

/-- A level of the planner's walk (R131) or of a lineage walk (section 8.2): the coil, the interval followed, the link stages
from this coil up to the target (nearest first), the links above level 0, whether the stages are cumulatively REVERSED, whether
any link on the way was suspect, the links still to take, the continuation, for planning the first cell not yet dealt with
(counted from the end the walk began at), and for a lineage walk the link that led there with its target subrange. -/
structure Level where
  coil       : Ref
  span       : Ival
  stages     : List Stage
  depth      : Nat
  reversed   : Bool
  suspect    : Bool
  hasParents : Bool
  links      : List LinkCopy
  next       : Option Resume
  cursor     : Nat
  via        : Option (LinkCopy × Ival)
  deriving DecidableEq, Repr

/-- What the PLAN STEP in hand is for: a coil newly reached (its level as it will be pushed), or more links of the top level. -/
inductive StepFor where
  | visit (level : Level)
  | more
  deriving DecidableEq, Repr

/-- The planner of a playback run (R128, R131): the trace it walks, its stack, what its PLAN STEP is for. -/
structure Planner where
  trace : Nat
  stack : List Level
  await : Option StepFor
  deriving DecidableEq, Repr

/-- The fetch cursor (R138, R139): the window, the DATA span in hand, entries not yet asked for, the continuation of its last index lookup
(none when DONE, R112), DATA spans after it. -/
structure Fetch where
  win    : Nat
  span   : Option Span
  toRead : List Entry
  more   : Option Nat
  rest   : List Span
  deriving DecidableEq, Repr

/-- A block read back or reused by the binner: page, header figures and entries (R115, R139). -/
structure ReadBlock where
  page    : Nat
  bseq    : Nat
  dseq    : Nat
  first   : Nat
  suspect : Bool
  entries : List (Nat × BitVec 16)
  deriving DecidableEq, Repr

/-- Hold state of a trace (R155): held value with SUSPECT and SATURATED, and the held run. -/
structure Held where
  value : Option (Int × Bool × Bool)
  run   : Nat
  deriving DecidableEq, Repr

/-- A halt found (R146): fault position, its bin, its window. -/
structure Halt where
  pos : Nat
  bin : Nat
  win : Nat
  deriving DecidableEq, Repr

/-- Working part of a playback run. -/
structure Play where
  traces   : List Trace
  res      : Nat
  bins     : Nat
  depth    : Nat
  profile  : Fin 16
  wins     : List Window
  nextBin  : Nat
  nextWin  : Nat
  planner  : Option Planner
  stopped  : Bool
  fetch    : Option Fetch
  cache    : Option ReadBlock
  emitBin  : Nat
  held     : List Held
  prior    : List (Option Ref)
  halt     : Option Halt
  deriving DecidableEq, Repr

/-- Working part of a lineage run (section 8.2). -/
structure Walk where
  up      : Bool
  depth   : Nat
  perFrame : Nat
  stack   : List Level
  await   : Option StepFor
  records : Nat
  deriving DecidableEq, Repr

inductive RunBody where
  | play (p : Play)
  | walk (w : Walk)
  deriving DecidableEq, Repr

/-- A record the emitter wrote (R201), and whether it counts toward a frame's record limit (R163, R175). -/
structure Rec where
  bytes   : List Byte
  counted : Bool
  deriving DecidableEq, Repr

/-- Captured target of a run (section 6.1): a coil with its name (the name absent for a stale one), or a line. -/
inductive RunTarget where
  | coil (r : Ref) (name : Option Name)
  | line (l : Fin 4)
  deriving DecidableEq, Repr

/-- The working part of a channel context (sections 6.1, 8.2), with the records written and not yet in a closed frame, the frame
closed and not yet placed with whether it is the run's last (R143, R163), and the END REPORT's figures. `result` is present once the run's
end is decided. -/
structure Run where
  kind       : RunKind
  tag        : BitVec 16
  target     : RunTarget
  from_      : Nat
  end_       : Nat
  clamped    : Bool
  planOp     : Option PlanOp
  kept       : Option PlanAnswer
  recs       : List Rec
  closed     : Option (List Rec × Bool)
  frameNo    : Nat
  sentFrames : Nat
  sentRecs   : Nat
  gaps       : Vector Nat 9
  firstFault : Option Nat
  result     : Option RunResult
  body       : RunBody
  deriving DecidableEq, Repr

inductive ChanState where | idle | running | held | draining
  deriving DecidableEq, Repr

/-- One Playback Channel. -/
structure Channel where
  state  : ChanState
  staged : Staged
  run    : Option Run
  deriving DecidableEq, Repr

/-! ## Service link (chapter 9) -/

/-- A frame on the link: kind, channel byte, tag, payload (R177). -/
structure Frame where
  kind    : Byte
  channel : Byte
  tag     : BitVec 16
  payload : List Byte
  deriving DecidableEq, Repr

/-- A stream frame in a slot, with its number of counted records (R143, R164). -/
structure StreamFrame where
  frame : Frame
  recs  : Nat
  deriving DecidableEq, Repr

inductive LinkRx where
  | hunt (sawSync : Bool)
  | frame (got : List Byte)
  deriving DecidableEq, Repr

inductive NoticeClass where | line | coil | genealogy | archive | capture | start
  deriving DecidableEq, Repr

/-- A notice other than START: class, reason code and the fields of its reason (section 11.3, NOTICE). -/
structure Notice where
  cls     : NoticeClass
  reason  : Nat
  line    : Option Nat := none
  name    : Option Name := none
  coil    : Option Ref := none
  figure  : Option Nat := none
  detail  : Option Nat := none
  other   : Option Ref := none
  deriving DecidableEq, Repr

/-- A condition instance that holds (R185). -/
structure Inst where
  notice  : Notice
  repeats : Nat
  timer   : Bool
  deriving DecidableEq, Repr

/-- How LOOKUP finds its record (R26). -/
inductive LookKey where
  | name (n : Name)
  | ref (r : Ref)
  deriving DecidableEq, Repr

/-- An import item, its fields as received (section 11.3); R22 and R23 check them when it is applied. -/
inductive ImportItem where
  | coil (flags : Byte) (len : Nat) (name : Name)
  | link (dir lane : Byte) (child parent : Ival) (childName parentName : Name)
  deriving DecidableEq, Repr

/-- An IMPORT frame being applied (R21). -/
structure ImportJob where
  last      : Bool
  items     : List ImportItem
  at_       : Nat
  accepted  : Nat
  refused   : Nat
  first     : Option (Nat × Code)
  abandoned : Option (Nat × Nat)
  deriving DecidableEq, Repr

/-- What the Request Unit presents to the Genealogy Table (R14); a RETIRE goes on with the coils from sequence `next` on (R24). -/
inductive Job where
  | lookup (key : LookKey)
  | retire (bound next : Nat) (performing : Bool)
  | run (key : LookKey)
  | importing (j : ImportJob)
  deriving DecidableEq, Repr

/-- What the Request Unit passes to a tracker, to reach it between two items (R62, R88, R89, R90). -/
inductive LineJob where
  | define (d : LineDef)
  | event (e : HostEvent)
  | resync
  | empty
  deriving DecidableEq, Repr

/-- The Request Unit: free; a job at the arbiter; a job for a tracker; a tracker busy with its event; CLEAR ALL DATA in hand
(whether the Genealogy Table's part is done); complete with its reply waiting for room (R180). The frame is the request's. -/
inductive ReqUnit where
  | free
  | table (f : Frame) (j : Job)
  | line (f : Frame) (l : Fin 4) (j : LineJob)
  | event (f : Frame) (l : Fin 4)
  | clearing (f : Frame) (tableDone : Bool)
  | done (reply : Frame) (runOf : Option (Fin 4))
  deriving DecidableEq, Repr

/-- What the transmitter is sending. `live` tells whether the run the frame belongs to is still its channel's run. -/
inductive TxJob where
  | reply (f : Frame)
  | notice (f : Frame)
  | stream (ch : Fin 4) (f : Frame) (recs : Nat) (live : Bool)
  | endReport (ch : Fin 4) (f : Frame) (live : Bool)
  deriving DecidableEq, Repr

/-- The ten link counters, in the order of R191. -/
structure LinkCounters where
  received   : Nat := 0
  lengthErrors : Nat := 0
  gapTimeouts : Nat := 0
  charErrors : Nat := 0
  checkFailures : Nat := 0
  bufferFull : Nat := 0
  refusals   : Nat := 0
  repliesSent : Nat := 0
  noticesSent : Nat := 0
  streamsSent : Nat := 0
  deriving DecidableEq, Repr

/-- The seven notice settings (R184); a mode is REPEAT when true. -/
structure NoticeSettings where
  line      : Bool
  coil      : Bool
  genealogy : Bool
  archive   : Bool
  capture   : Bool
  lineRepeat    : Bool
  archiveRepeat : Bool
  deriving DecidableEq, Repr

/-- The Service Link Controller. -/
structure Slc where
  rx        : LinkRx
  buffer    : List Frame
  unit      : ReqUnit
  replies   : List Frame
  notices   : List Frame
  settings  : NoticeSettings
  masked    : Nat
  dropped   : Nat
  uncertain : Vector (Option Inst) 4
  silent    : Vector (Option Inst) 4
  exhausted : Option Inst
  slots     : Vector (List StreamFrame) 4
  tx        : Option TxJob
  lastChan  : Fin 4
  cnt       : LinkCounters
  deriving DecidableEq, Repr

/-! ## Start-up Control (chapter 10) -/

inductive ColdCause where | retentionLost | incomplete
  deriving DecidableEq, Repr

inductive StartKind where | cold | resume
  deriving DecidableEq, Repr

inductive Start where
  | cold (c : ColdCause)
  | resume
  deriving DecidableEq, Repr

/-- Start-up Control (R192 to R199): part state, RESET held, RETENTION LOST as a power-on under a held RESET found it (R193, R194), the
start under way, validity mark, straps, kind of the last start, and how far a resume has come, with the group whose re-erase it has begun
and the figures it has gathered (R197, R198). -/
structure StartUp where
  ready    : Bool
  held     : Bool
  lostAtPower : Bool
  start    : Option Start
  valid    : Bool
  straps   : Fin 4
  last     : StartKind
  checked  : Bool
  erasing  : Option Nat
  passed   : Nat
  reerased : Nat
  madeBad  : Nat
  lost     : Nat
  added    : Bool
  deriving DecidableEq, Repr

/-! ## The whole machine -/

/-- The state of the part. `flash` is the attached flash array: address = 516 × page + offset in the page image, bytes listed
where they differ from 0xFF. `pending` is the model's queue of waiting commands. -/
structure State where
  startUp  : StartUp
  ports    : Vector Port 4
  trackers : Vector Tracker 4
  capture  : Capture
  archive  : Archive
  flash    : List Host.Cell
  table    : Genealogy
  channels : Vector Channel 4
  profiles : Vector Profile 16
  slc      : Slc
  pending  : List Instr
  deriving DecidableEq, Repr

/-- Reasons a step stops with a fault. There are none: every condition of the part is a counter, a notice, a refusal code or a
gap (INVENTORY.md, Faults). -/
inductive Fault where
  deriving DecidableEq, Repr

/-- Reasons a step is refused by the model. -/
inductive Refusal where
  /-- Raised by a dispatch arm whose command has no meaning yet; safe, since the run stops there. No arm raises it. -/
  | notModelled (mnemonic : String)
  deriving DecidableEq, Repr

/-! ## Reset -/

/-- Line definition defaults (R47, R62). -/
def LineDef.initial (l : Nat) : LineDef :=
  { enabled := false, address := 16 + l, rate := 0, parity := .none, pf := 0, pd := 0, lanes := 1, jump := 50000, silence := 50 }

/-- A port after a start, its line not enabled (R61). -/
def Port.initial : Port :=
  { rx := .off, cur := none, order := [], idleArmed := false, cuts := [], cnt := {} }

/-- Exit record after a cold start (R82). -/
def ExitRecord.initial : ExitRecord := { head := none, names := [], suspect := false }

/-- A tracker after a cold start (R93). -/
def Tracker.initial (l : Nat) : Tracker :=
  { defn := LineDef.initial l, state := .undefined, silent := false, timer := false, feed := 0, delivery := 0, feedBase := none,
    deliveryBase := none, pair := none, lastSeq := none, map := [], exit := ExitRecord.initial, cnt := {}, work := none,
    clear := false }

/-- A gauge slot after a cold start (R121); the fields an undefined slot does not use are a DESIGN CHOICE (log entry 5). -/
def Slot.initial : Slot :=
  { defined := false, dseq := 0, line := 0, gauge := 0, side := .feed, offset := 0, lane := .whole, quantity := 0, unit := 0,
    idle := 0, block := none, mark := none }

/-- The Archive Controller after a cold start, before any group is found BAD (R121, R195). -/
def Archive.initial : Archive :=
  { nextBlock := 1, queue := [], headFailed := false, occupancy := 0, groups := [], marks := [], group := 0, page := 0,
    exhausted := false, op := none, lastOp := none, lastChan := 3, index := Vector.replicate 64 [], requests := [],
    clear := false, cnt := {} }

/-- The Genealogy Table after a cold start (R29). -/
def Genealogy.initial : Genealogy :=
  { coils := [], links := [], nextSeq := 1, session := none, lastTracker := 3, lastPlanner := 3 }

/-- Staged defaults (section 6.1). -/
def Staged.initial : Staged :=
  { target := .none, from_ := 0, to_ := 8000000, resolution := 1000, traces := [], profile := 0, depth := 6 }

/-- A channel after a cold start (R148). -/
def Channel.initial : Channel := { state := .idle, staged := Staged.initial, run := none }

/-- Profile defaults (section 7.4). -/
def Profile.initial : Profile :=
  { encoding := .s16, gain := 256, offset := 0, hold := 0, halt := false, bins := 32, markers := .all }

/-- Notice settings after a cold start (R184). -/
def NoticeSettings.initial : NoticeSettings :=
  { line := true, coil := true, genealogy := true, archive := true, capture := true, lineRepeat := false, archiveRepeat := false }

/-- The Service Link Controller after a cold start (R191). -/
def Slc.initial : Slc :=
  { rx := .hunt false, buffer := [], unit := .free, replies := [], notices := [], settings := NoticeSettings.initial,
    masked := 0, dropped := 0, uncertain := Vector.replicate 4 none, silent := Vector.replicate 4 none, exhausted := none,
    slots := Vector.replicate 4 [], tx := none, lastChan := 3, cnt := {} }

/-- Start-up Control right after power-on with RETENTION LOST asserted and the straps at 0: STARTING, a cold start under way,
its first step (clearing the validity mark) taken (R194, R195). Log entries 1, 2 and 3. -/
def StartUp.initial : StartUp :=
  { ready := false, held := false, lostAtPower := false, start := some (.cold .retentionLost), valid := false, straps := 0, last := .cold,
    checked := false, erasing := none, passed := 0, reerased := 0, madeBad := 0, lost := 0, added := false }

/-- The machine right after reset: power applied, STARTING, a cold start under way and every item at its cold-start value;
COLD_START completes it. -/
def State.reset : State :=
  { startUp := StartUp.initial,
    ports := Vector.replicate 4 Port.initial,
    trackers := #v[Tracker.initial 0, Tracker.initial 1, Tracker.initial 2, Tracker.initial 3],
    capture := { slots := Vector.replicate 64 Slot.initial, cnt := {} },
    archive := Archive.initial,
    flash := [],
    table := Genealogy.initial,
    channels := Vector.replicate 4 Channel.initial,
    profiles := Vector.replicate 16 Profile.initial,
    slc := Slc.initial,
    pending := [] }

end Sys2Proof.Machine
end

