-- ==== Sys2Proof/Machine/Codec.lean ====
section
/-! DEFINITION. Byte order, absent values, codes and checks of the wire (R55, R100, R200), and the frames of the service link
(R177). -/

namespace Sys2Proof.Machine

/-- The number of `n` bytes, most significant first (R200). -/
def beNat (l : List Byte) : Nat := l.foldl (fun a b => a * 256 + b.toNat) 0

/-- `n` bytes of `v`, most significant first (R200). -/
def beBytes : (n v : Nat) → List Byte
  | 0, _ => []
  | n + 1, v => BitVec.ofNat 8 (v / 256 ^ n) :: beBytes n v

/-- Two's complement of `v` in `n` bytes (R200). -/
def beInt (n : Nat) (v : Int) : List Byte := beBytes n (v % (256 ^ n : Nat)).toNat

/-- An unsigned field, every byte 0xFF when absent (R200). -/
def beOpt (n : Nat) : Option Nat → List Byte
  | some v => beBytes n v
  | none => List.replicate n 0xFF#8

/-- The unsigned number in `n` bytes at `off`. -/
def field (p : List Byte) (off n : Nat) : Nat := beNat ((p.drop off).take n)

/-- The signed number in `n` bytes at `off` (two's complement, R200). -/
def fieldInt (p : List Byte) (off n : Nat) : Int :=
  let v := field p off n
  if v < 256 ^ n / 2 then (v : Int) else (v : Int) - (256 ^ n : Nat)

def byteOf (n : Nat) : Byte := BitVec.ofNat 8 n

def boolByte (b : Bool) : Byte := if b then 1#8 else 0#8

/-- A count of 32 bits that stops at 4,294,967,295 (R59, R91, R117, R118, R183, R191). -/
def bump (n : Nat) (k : Nat := 1) : Nat := min (n + k) 4294967295

/-- One bit of the CRC-16 of R55: polynomial 0x1021, most significant bit first. -/
def crc16Bit (c : BitVec 16) (b : Bool) : BitVec 16 :=
  if c.msb != b then (c <<< 1) ^^^ 0x1021#16 else c <<< 1

def crc16Byte (c : BitVec 16) (b : Byte) : BitVec 16 :=
  [7, 6, 5, 4, 3, 2, 1, 0].foldl (fun c i => crc16Bit c (b.getLsbD i)) c

/-- CRC-16 (R55, R177): initial value 0xFFFF, result not inverted. -/
def crc16 (l : List Byte) : BitVec 16 := l.foldl crc16Byte 0xFFFF#16

/-- One bit of the CRC-32 of R100, least significant bit first (0xEDB88320 is 0x04C11DB7 with its bits reversed). -/
def crc32Bit (c : BitVec 32) (b : Bool) : BitVec 32 :=
  if c.getLsbD 0 != b then (c >>> 1) ^^^ 0xEDB88320#32 else c >>> 1

def crc32Byte (c : BitVec 32) (b : Byte) : BitVec 32 :=
  [0, 1, 2, 3, 4, 5, 6, 7].foldl (fun c i => crc32Bit c (b.getLsbD i)) c

/-- CRC-32 (R100): initial value 0xFFFFFFFF, result inverted. -/
def crc32 (l : List Byte) : BitVec 32 := ~~~ (l.foldl crc32Byte 0xFFFFFFFF#32)

/-! ## Names (R200) -/

/-- A character of a name lies from 0x21 to 0x7E. -/
def nameChar (b : Byte) : Bool := decide (0x21 ≤ b.toNat) && decide (b.toNat ≤ 0x7E)

/-- A name is 1 to 16 characters, each 0x21 to 0x7E (R22, R56, R123). -/
def nameOk (n : Name) : Bool := decide (1 ≤ n.length) && decide (n.length ≤ 16) && n.all nameChar

/-- The fixed field of 17 bytes for a name in sent frames; an absent name has length byte 0. -/
def nameField (n : Option Name) : List Byte :=
  let l := (n.getD []).take 16
  byteOf l.length :: (l ++ List.replicate (16 - l.length) 0#8)

/-- A received name at the front of `p`: length byte, characters, and what follows. -/
def takeName (p : List Byte) : Option (Name × List Byte) :=
  match p with
  | [] => none
  | k :: rest => if rest.length < k.toNat then none else some (rest.take k.toNat, rest.drop k.toNat)

/-- `m` received names back to back, and what follows. -/
def takeNames : (m : Nat) → List Byte → Option (List Name × List Byte)
  | 0, p => some ([], p)
  | m + 1, p =>
    match takeName p with
    | none => none
    | some (n, rest) =>
      match takeNames m rest with
      | none => none
      | some (ns, rest') => some (n :: ns, rest')

/-! ## Codes (R200) -/

def Lane.code : Lane → Nat
  | .whole => 255
  | .num n => n

def Lane.ofCode (n : Nat) : Option Lane :=
  if n = 255 then some .whole else if n < 16 then some (.num n) else none

def Side.code : Side → Nat
  | .feed => 0
  | .delivery => 1

def Dir.code : Dir → Nat
  | .same => 0
  | .reversed => 1

def orientCode : Orientation → Nat
  | .headFirst => 0
  | .tailFirst => 1

def orientOf (n : Nat) : Option Orientation :=
  match n with
  | 0 => some .headFirst
  | 1 => some .tailFirst
  | _ => none

/-- SAME for HEAD FIRST, REVERSED for TAIL FIRST (R5, R31). -/
def orientDir : Orientation → Dir
  | .headFirst => .same
  | .tailFirst => .reversed

def Reduction.code : Reduction → Nat
  | .mean => 0
  | .min => 1
  | .max => 2
  | .last => 3
  | .count => 4

def Reduction.ofCode (n : Nat) : Option Reduction :=
  match n with
  | 0 => some .mean
  | 1 => some .min
  | 2 => some .max
  | 3 => some .last
  | 4 => some .count
  | _ => none

def Encoding.code : Encoding → Nat
  | .s16 => 0
  | .u8 => 1

def Markers.code : Markers → Nat
  | .all => 0
  | .gapsOnly => 1
  | .none => 2

def Parity.code : Parity → Nat
  | .none => 0
  | .odd => 1

def LineState.code : LineState → Nat
  | .undefined => 0
  | .waiting => 1
  | .tracking => 2
  | .uncertain => 3

def ChanState.code : ChanState → Nat
  | .idle => 0
  | .running => 1
  | .held => 2
  | .draining => 3

def RunKind.code : RunKind → Nat
  | .playback => 1
  | .ancestry => 2
  | .descent => 3

def Origin.code : Origin → Nat
  | .tracked => 0
  | .imported => 1
  | .unknown => 2

def CoilState.code : CoilState → Nat
  | .made => 0
  | .entered => 1
  | .consumed => 2

def GapReason.code : GapReason → Nat
  | .inProcess => 1
  | .pending => 2
  | .noOrigin => 3
  | .notPassed => 4
  | .depth => 5
  | .retired => 6
  | .fragmented => 7
  | .noData => 8
  | .readFault => 9

def RunResult.code : RunResult → Nat
  | .complete => 0
  | .cancelled => 1
  | .halted => 2
  | .targetRetired => 3
  | .truncated => 4

def Code.number : Code → Nat
  | .unknownKind => 1
  | .badLength => 2
  | .badValue => 3
  | .badChannel => 4
  | .busy => 5
  | .notRunning => 6
  | .notStaged => 7
  | .notFound => 8
  | .noRoom => 9
  | .inUse => 10
  | .duplicate => 11
  | .order => 12
  | .overlap => 13
  | .noImport => 14
  | .starting => 15

def NoticeClass.code : NoticeClass → Nat
  | .line => 1
  | .coil => 2
  | .genealogy => 3
  | .archive => 4
  | .capture => 5
  | .start => 6

def StartKind.code : StartKind → Nat
  | .cold => 0
  | .resume => 1

/-- Flag byte of a coil: bit 0 REENTRY, 1 SUSPECT, 2 NO MATERIAL, 3 DUPLICATE NAME, 4 CLAMPED (section 11.3). -/
def CoilFlags.byte (f : CoilFlags) : Byte :=
  byteOf ((if f.reentry then 1 else 0) + (if f.suspect then 2 else 0) + (if f.noMaterial then 4 else 0)
    + (if f.duplicateName then 8 else 0) + (if f.clamped then 16 else 0))

/-! ## Frames of the service link (R177, section 11.3) -/

/-- The bytes of a frame on the wire: sync, body length, body, CRC-16. -/
def Frame.wire (f : Frame) : List Byte :=
  let body := f.kind :: f.channel :: (beBytes 2 f.tag.toNat ++ f.payload)
  [0xA5#8, 0x5A#8] ++ beBytes 2 (body.length + 2) ++ body ++ beBytes 2 (crc16 body).toNat

/-- A reply echoes the request's channel byte and tag (R179). -/
def replyTo (f : Frame) (kind : Byte) (payload : List Byte) : Frame :=
  { kind := kind, channel := f.channel, tag := f.tag, payload := payload }

/-- ACCEPTED: an empty payload. -/
def accepted (f : Frame) : Frame := replyTo f 0x81#8 []

/-- REFUSED: the refusal code and the refused kind. -/
def refusedWith (f : Frame) (c : Code) : Frame := replyTo f 0x82#8 [byteOf c.number, f.kind]

/-- A notice frame: channel 255, tag 0 (section 9.4). -/
def noticeFrame (payload : List Byte) : Frame := { kind := 0x90#8, channel := 0xFF#8, tag := 0#16, payload := payload }

/-- The NOTICE payload; `rep` is the repeat count of a repeat notice (R185, section 11.3). -/
def Notice.payload (n : Notice) (rep : Option Nat) : List Byte :=
  [byteOf n.cls.code, byteOf n.reason, boolByte rep.isSome] ++ beOpt 1 n.line ++ beBytes 4 (rep.getD 0) ++ nameField n.name
    ++ beOpt 2 (n.coil.map (·.handle)) ++ beOpt 4 (n.coil.map (·.seq)) ++ beOpt 6 n.figure ++ beOpt 1 n.detail
    ++ beOpt 2 (n.other.map (·.handle)) ++ beOpt 4 (n.other.map (·.seq))

end Sys2Proof.Machine
end

