-- ==== Sys2Proof/Machine/Flash.lean ====
section
/-! DEFINITION. The attached flash array as memory, and the page image of a capture block (R100, section 11.5). A byte lies at
address 516 × page + its offset in the image; an unlisted byte reads 0xFF, as an erased byte does (R115). -/

namespace Sys2Proof.Machine

/-- Bytes of a page image with its CRC-32 (section 11.5). -/
def pageSize : Nat := 516

/-- Pages of an erase group (section 5.4). -/
def groupPages : Nat := 64

def groupCount : Nat := 4096

/-- What an unlisted address reads as: the erased byte. Log entry 6. -/
def erasedByte : Byte := 0xFF#8

/-- Read one byte of the array. -/
def flashRead (m : List Host.Cell) (a : Nat) : Byte :=
  match m.find? (fun c => c.1 == a) with
  | some c => c.2
  | none => erasedByte

/-- Canonical form: addresses strictly rising, no listed byte equal to the erased one. -/
def Memory.wf (m : List Host.Cell) : Bool :=
  decide (m.Pairwise (fun c d => c.1 < d.1)) && m.all (fun c => c.2 != erasedByte)

/-- The cells of `bytes` laid out from address `a`, in canonical form. -/
def cellsFrom : (a : Nat) → List Byte → List Host.Cell
  | _, [] => []
  | a, b :: bs => if b = erasedByte then cellsFrom (a + 1) bs else (a, b) :: cellsFrom (a + 1) bs

/-- Write `bytes` at `a`. -/
def flashWrite (m : List Host.Cell) (a : Nat) (bytes : List Byte) : List Host.Cell :=
  m.filter (fun c => decide (c.1 < a)) ++ cellsFrom a bytes ++ m.filter (fun c => decide (a + bytes.length ≤ c.1))

/-- Erase the bytes from `a` to `b - 1`. -/
def flashErase (m : List Host.Cell) (a b : Nat) : List Host.Cell :=
  m.filter (fun c => decide (c.1 < a) || decide (b ≤ c.1))

/-- `n` bytes from address `a` of cells already past lower addresses. -/
def readRun : (n a : Nat) → List Host.Cell → List Byte
  | 0, _, _ => []
  | n + 1, a, [] => erasedByte :: readRun n (a + 1) []
  | n + 1, a, c :: cs => if c.1 = a then c.2 :: readRun n (a + 1) cs else erasedByte :: readRun n (a + 1) (c :: cs)

/-- The 516 bytes of a page. -/
def readPage (m : List Host.Cell) (page : Nat) : List Byte :=
  let a := pageSize * page
  readRun pageSize a (m.filter (fun c => decide (a ≤ c.1) && decide (c.1 < a + pageSize)))

/-- Erase a group: every byte of its 64 pages. -/
def eraseGroup (m : List Host.Cell) (g : Nat) : List Host.Cell :=
  flashErase m (pageSize * (groupPages * g)) (pageSize * (groupPages * (g + 1)))

/-- The page image of a block (section 11.5), without its CRC; of a coordinate above 2^48 - 1 it holds the low 48 bits (log entry 59). -/
def Block.image (b : Block) : List Byte :=
  [byteOf b.slot.1] ++ beBytes 4 b.dseq ++ [byteOf b.line, byteOf b.side.code, byteOf b.lane.code] ++ beBytes 6 b.bseq
    ++ beBytes 6 b.first ++ beBytes 6 b.last ++ beBytes 4 0 ++ [byteOf b.entries.length, boolByte b.suspect]
    ++ b.entries.flatMap (fun e => beBytes 2 e.1 ++ beBytes 2 e.2.toNat)
    ++ List.replicate (4 * (120 - b.entries.length)) 0xFF#8

/-- The page as programmed: the image, then its CRC-32 (R100). -/
def Block.bytes (b : Block) : List Byte := b.image ++ beBytes 4 (crc32 b.image).toNat

/-- Entries of an image: `n` pairs of delta and raw value from the front of `p`. -/
def imageEntries : (n : Nat) → List Byte → List (Nat × BitVec 16)
  | 0, _ => []
  | n + 1, p => (field p 0 2, BitVec.ofNat 16 (field p 2 2)) :: imageEntries n (p.drop 4)

/-- Outcome of a READ (R115). -/
inductive ReadOutcome where
  | good (b : ReadBlock)
  | readFault
  | retired
  deriving DecidableEq, Repr

/-- Verification of a page against its request (R115): erased, CRC-32, header, in that order. -/
def verifyPage (r : ReadReq) (p : List Byte) : ReadOutcome :=
  if p.all (· == erasedByte) then .retired
  else if (crc32 (p.take 512)).toNat ≠ field p 512 4 then .readFault
  else if field p 0 1 ≠ r.slot.1 ∨ field p 8 6 ≠ r.entry.bseq ∨ field p 1 4 ≠ r.entry.dseq ∨ field p 5 1 ≠ r.line
      ∨ field p 6 1 ≠ r.side.code ∨ field p 7 1 ≠ r.lane.code then .retired
  else .good { page := r.entry.page, bseq := r.entry.bseq, dseq := r.entry.dseq, first := field p 14 6,
               suspect := field p 31 1 % 2 == 1, entries := imageEntries (field p 30 1) (p.drop 32) }

end Sys2Proof.Machine
end

