-- ==== Sys2Proof/Machine/Maps.lean ====
section
/-! DEFINITION. Position Translation (chapter 2): point map, image interval, boundary map, stages of records, chains, crossing
interpolation and the parent span of a link at finalization. -/

namespace Sys2Proof.Machine

/-- Length of a span. -/
def Ival.len (i : Ival) : Nat := i.hi - i.lo

/-- A span with its ends equal, or crossed, holds no cell. -/
def Ival.empty (i : Ival) : Bool := decide (i.hi ≤ i.lo)

/-- Intersection of two spans. -/
def Ival.cut (i j : Ival) : Ival := { lo := max i.lo j.lo, hi := min i.hi j.hi }

/-- Two spans meet when they share a cell. -/
def Ival.meets (i j : Ival) : Bool := !(i.cut j).empty

/-- Quotient rounded up (R36). -/
def ceilDiv (a b : Nat) : Nat := (a + b - 1) / b

/-- The point map (R32): parent cell to child cell. -/
def Stage.point (s : Stage) (p : Nat) : Nat :=
  let v := match s.dir with
    | .same => p - s.parent.lo
    | .reversed => s.parent.hi - 1 - p
  s.child.lo + v * s.child.len / s.parent.len

/-- The image interval of a parent interval (R33), cut first to the parent span; none when that is empty. -/
def Stage.image (s : Stage) (x : Ival) : Option Ival :=
  let y := x.cut s.parent
  if y.empty then none
  else match s.dir with
    | .same => some { lo := s.point y.lo, hi := s.point (y.hi - 1) + 1 }
    | .reversed => some { lo := s.point (y.hi - 1), hi := s.point y.lo + 1 }

/-- The boundary map of a child interval (R34). An empty result has both ends at the value computed for the low end. -/
def Stage.boundary (s : Stage) (x : Ival) : Ival :=
  let y := x.cut s.child
  if y.empty then
    match s.dir with
    | .same => { lo := s.parent.lo, hi := s.parent.lo }
    | .reversed => { lo := s.parent.hi, hi := s.parent.hi }
  else
    let g0 := ceilDiv ((y.lo - s.child.lo) * s.parent.len) s.child.len
    let g1 := ceilDiv ((y.hi - s.child.lo) * s.parent.len) s.child.len
    match s.dir with
    | .same => { lo := s.parent.lo + g0, hi := s.parent.lo + g1 }
    | .reversed => { lo := s.parent.hi - g1, hi := s.parent.hi - g0 }

/-- The stage of a FINAL child link (R31); none for a pending or scrap link. -/
def Link.stage (l : Link) : Option Stage :=
  match l.child, l.parentSpan with
  | some _, some p => some { child := l.childSpan, parent := p, dir := l.dir }
  | _, _ => none

/-- The stage of a made passage of a coil of length `len` (R37). -/
def madeStage (m : MadePassage) (len : Nat) : Stage :=
  { child := { lo := 0, hi := len }, parent := { lo := m.head, hi := m.head + len }, dir := .same }

/-- The stage of a consumed passage (R38), when R31's conditions hold. -/
def consumedStage (c : ConsumedPassage) (len : Option Nat) : Option Stage :=
  match c.ft, len with
  | some ft, some l =>
    if c.fh < ft ∧ ft - c.fh ≤ 200000000 then
      some { child := { lo := 0, hi := l }, parent := { lo := c.fh, hi := ft }, dir := orientDir c.orient }
    else none
  | _, _ => none

/-- The identity stage of a LINE target (R39). -/
def identityStage (x : Ival) : Stage := { child := x, parent := x, dir := .same }

/-- Composition of directions: REVERSED when an odd number are (R41). -/
def flip (r : Bool) : Dir → Bool
  | .same => r
  | .reversed => !r

/-- Carry an interval of a coil up its link stages, nearest first, by image intervals (R133, R170). -/
def imageUp : List Stage → Ival → Option Ival
  | [], x => some x
  | s :: rest, x =>
    match s.image x with
    | none => none
    | some y => imageUp rest y

/-- Carry a target interval down a chain whose stages stand first to last, from the last to the first, by boundary maps (R40);
none when some stage gives the empty result. -/
def boundaryDown : List Stage → Ival → Option Ival
  | [], x => if x.empty then none else some x
  | s :: rest, x =>
    match boundaryDown rest x with
    | none => none
    | some y => let z := s.boundary y; if z.empty then none else some z

/-- Carry a source coordinate up a chain, first stage first, by point maps (R40). -/
def pointUp (chain : List Stage) (x : Nat) : Nat := chain.foldl (fun p s => s.point p) x

/-- Delivery crossing value D_x (R42): previous pair, current pair, crossing target. -/
def crossing (pair : Option (Nat × Nat)) (fc dc t : Nat) : Nat :=
  match pair with
  | none => dc
  | some (fp, dp) => if t ≤ fp then dp else dp + (dc - dp) * (t - fp) / (fc - fp)

/-- Parent span of a link at finalization (R44, R45) from the segment's figures and the link's delivery span; none when the
figures lie outside R44's bounds, the cut span is empty, or the parent span is empty. -/
def finalSpan (orient : Orientation) (fh ft dh dt len : Nat) (y : Ival) : Option Ival :=
  if fh < ft ∧ ft - fh ≤ 200000000 ∧ dh < dt ∧ dt - dh ≤ 200000000 ∧ 1 ≤ len ∧ len ≤ 8000000 then
    let z := y.cut { lo := dh, hi := dt }
    if z.empty then none
    else
      let f (d : Nat) : Nat := fh + ceilDiv ((d - dh) * (ft - fh)) (dt - dh)
      let k (x : Nat) : Nat := ceilDiv ((x - fh) * len) (ft - fh)
      let p : Ival := match orient with
        | .headFirst => { lo := k (f z.lo), hi := k (f z.hi) }
        | .tailFirst => { lo := len - k (f z.hi), hi := len - k (f z.lo) }
      if p.empty then none else some p
  else none

end Sys2Proof.Machine
end

