-- ==== Sys2Proof/Machine/Genealogy.lean ====
section
/-! DEFINITION. The Genealogy Table's own operations (chapter 1), on its pools alone: each returns the new table, its result and
the notices it raises. `held` is the list of references the four track maps hold (R24). -/

namespace Sys2Proof.Machine

/-- Slots of the coil pool and of the link pool (section 1.3). -/
def coilSlots : Nat := 16384
def linkSlots : Nat := 49152

/-- The last creation sequence (R10). -/
def lastSequence : Nat := 4294967295

/-- Longest coil (R2). -/
def maxLength : Nat := 8000000

/-! ## Reading the pools -/

def Genealogy.coilAt (g : Genealogy) (h : Nat) : Option Coil := g.coils.find? (fun c => c.handle == h)

def Genealogy.linkAt (g : Genealogy) (h : Nat) : Option Link := g.links.find? (fun l => l.handle == h)

/-- The record of a current reference; none when stale (R11). -/
def Genealogy.current (g : Genealogy) (r : Ref) : Option Coil := (g.coilAt r.handle).filter (fun c => c.seq == r.seq)

/-- The name index (R12): the indexed record of a name. -/
def Genealogy.named (g : Genealogy) (n : Name) : Option Coil := g.coils.find? (fun c => c.indexed && c.name == n)

def Coil.ref (c : Coil) : Ref := { handle := c.handle, seq := c.seq }

/-- The creation-sequence counter has no sequence left (R10). -/
def Genealogy.exhausted (g : Genealogy) : Bool := decide (lastSequence < g.nextSeq)

/-- The links of a list of handles, in its order. -/
def Genealogy.linksOf (g : Genealogy) (hs : List Nat) : List Link := hs.filterMap g.linkAt

/-- The lowest number from `n` on that is not used, looking at most `fuel` places on (R9). -/
def firstFree (used : List Nat) : (fuel : Nat) → (n : Nat) → Nat
  | 0, n => n
  | f + 1, n => if used.contains n then firstFree used f (n + 1) else n

def Genealogy.freeCoil (g : Genealogy) : Nat := firstFree (g.coils.map (·.handle)) g.coils.length 0

def Genealogy.freeLink (g : Genealogy) : Nat := firstFree (g.links.map (·.handle)) g.links.length 0

/-! ## Writing the pools -/

/-- Insert by a rising key, after equal keys. -/
def insertBy {α : Type} (key : α → Nat) (x : α) : List α → List α
  | [] => [x]
  | y :: ys => if key x < key y then x :: y :: ys else y :: insertBy key x ys

def Genealogy.addCoil (g : Genealogy) (c : Coil) : Genealogy := { g with coils := insertBy (·.handle) c g.coils }

/-- Change the record in slot `h`. -/
def Genealogy.updCoil (g : Genealogy) (h : Nat) (f : Coil → Coil) : Genealogy :=
  { g with coils := g.coils.map (fun c => if c.handle == h then f c else c) }

/-- Change the link in slot `h`. -/
def Genealogy.updLink (g : Genealogy) (h : Nat) (f : Link → Link) : Genealogy :=
  { g with links := g.links.map (fun l => if l.handle == h then f l else l) }

/-- Lane order of a child-link list: WHOLE before lanes 0 to 15 (R6). -/
def Lane.rank : Lane → Nat
  | .whole => 0
  | .num n => n + 1

/-- Order of two final links in a child-link list (R6). -/
def finalBefore (a : Ival) (la : Lane) (b : Ival) (lb : Lane) : Bool :=
  decide (a.lo < b.lo) || (a.lo == b.lo && decide (la.rank < lb.rank))

/-- Place of a link in its parent's child-link list (R6): final links in order, pending ones at the end. -/
def Genealogy.childPlace (g : Genealogy) (l : Link) : List Nat → List Nat
  | [] => [l.handle]
  | h :: hs =>
    match l.parentSpan with
    | none => h :: g.childPlace l hs
    | some p =>
      match g.linkAt h with
      | none => h :: g.childPlace l hs
      | some m =>
        match m.parentSpan with
        | none => l.handle :: h :: hs
        | some q => if finalBefore p l.lane q m.lane then l.handle :: h :: hs else h :: g.childPlace l hs

/-- Place of a link in its child's parent-link list (R6): by child span start. -/
def Genealogy.parentPlace (g : Genealogy) (l : Link) : List Nat → List Nat
  | [] => [l.handle]
  | h :: hs =>
    match g.linkAt h with
    | none => h :: g.parentPlace l hs
    | some m => if l.childSpan.lo < m.childSpan.lo then l.handle :: h :: hs else h :: g.parentPlace l hs

/-- Enter a link in the pool and in both lists, or only its parent's for a scrap link (R6). -/
def Genealogy.addLink (g : Genealogy) (l : Link) : Genealogy :=
  let g1 := { g with links := insertBy (·.handle) l g.links }
  let g2 := g1.updCoil l.parent (fun c => { c with children := g1.childPlace l c.children })
  match l.child with
  | none => g2
  | some h => g2.updCoil h (fun c => { c with parents := g2.parentPlace l c.parents })

/-- Remove a link from the pool and from both lists (R6). -/
def Genealogy.dropLink (g : Genealogy) (h : Nat) : Genealogy :=
  { g with
    links := g.links.filter (fun l => l.handle != h)
    coils := g.coils.map (fun c => { c with parents := c.parents.filter (· != h), children := c.children.filter (· != h) }) }

/-- Remove a coil with its links, its name and its slots (R24). -/
def Genealogy.dropCoil (g : Genealogy) (c : Coil) : Genealogy :=
  let g1 := (c.parents ++ c.children).foldl Genealogy.dropLink g
  { g1 with coils := g1.coils.filter (fun d => d.handle != c.handle) }

/-! ## Removal (section 1.8) -/

/-- A coil's child-link list holds a PENDING link. -/
def Genealogy.hasPending (g : Genealogy) (c : Coil) : Bool := (g.linksOf c.children).any (fun l => l.parentSpan.isNone)

/-- Eligible for removal (R24). -/
def Genealogy.eligible (g : Genealogy) (held : List Ref) (c : Coil) : Bool :=
  c.state != .entered && !held.contains c.ref && !g.hasPending c

/-- The record of lowest creation sequence in a list. -/
def oldest : List Coil → Option Coil
  | [] => none
  | c :: cs =>
    match oldest cs with
    | none => some c
    | some d => if c.seq ≤ d.seq then some c else some d

/-- Both pools have the free slots asked for (R9). -/
def Genealogy.fits (g : Genealogy) (nc nl : Nat) : Bool :=
  decide (g.coils.length + nc ≤ coilSlots) && decide (g.links.length + nl ≤ linkSlots)

/-- AUTO-RETIRE (R25): remove the eligible coil of lowest sequence, not one the operation names, until the allocation fits or
`fuel` removals are made; the count of removals grows. -/
def Genealogy.autoRetire (held : List Ref) (spare : List Nat) (nc nl : Nat) : (fuel : Nat) → Genealogy → Nat → Genealogy × Nat
  | 0, g, k => (g, k)
  | n + 1, g, k =>
    if g.fits nc nl then (g, k)
    else
      match oldest (g.coils.filter (fun c => g.eligible held c && !spare.contains c.handle)) with
      | none => (g, k)
      | some c => Genealogy.autoRetire held spare nc nl n (g.dropCoil c) (k + 1)

/-- RETIRE (R24): one pass in increasing sequence order over the coils from sequence `next` on and below the bound, each removed if it is
eligible when the pass comes to it, at most `fuel` of them; the table, and the sequence the pass goes on from. -/
def Genealogy.retireBelow (held : List Ref) (bound : Nat) : (fuel next : Nat) → Genealogy → Genealogy × Nat
  | 0, next, g => (g, next)
  | n + 1, next, g =>
    match oldest (g.coils.filter (fun c => g.eligible held c && decide (next ≤ c.seq) && decide (c.seq < bound))) with
    | none => (g, next)
    | some c => Genealogy.retireBelow held bound n c.seq (g.dropCoil c)

/-! ## Notices of the table (R28) -/

def coilNotice (reason : Nat) (line : Nat) (c : Coil) (figure detail : Option Nat) : Notice :=
  { cls := .coil, reason := reason, line := some line, name := some c.name, coil := some c.ref, figure := figure, detail := detail }

def genealogyNotice (reason : Nat) (line : Option Nat) (name : Option Name) : Notice :=
  { cls := .genealogy, reason := reason, line := line, name := name }

/-- Room for new slots (R9): AUTO-RETIRE runs, with its notice, when the slots are not free at once. -/
def Genealogy.makeRoom (g : Genealogy) (held : List Ref) (spare : List Nat) (nc nl : Nat) (line : Option Nat) :
    Genealogy × Bool × List Notice :=
  if g.fits nc nl then (g, true, [])
  else
    let r := Genealogy.autoRetire held spare nc nl g.coils.length g 0
    (r.1, r.1.fits nc nl, [{ genealogyNotice 5 line none with figure := some r.2 }])

/-! ## Operations of the trackers (section 1.6) -/

/-- ENTER COIL (R16): the entered record's reference and length, or none for NO ROOM. -/
def Genealogy.enterCoil (g : Genealogy) (held : List Ref) (line : Nat) (name : Name) (orient : Orientation) (fh declared : Nat) :
    Genealogy × Option (Ref × Option Nat) × List Notice :=
  let passage : ConsumedPassage := { line := line, orient := orient, fh := fh, ft := none }
  let create (found : Option Coil) : Genealogy × Option (Ref × Option Nat) × List Notice :=
    if g.exhausted then (g, none, [genealogyNotice 6 (some line) (some name)])
    else
      let room := g.makeRoom held (found.toList.map (·.handle)) 1 0 (some line)
      if room.2.1 then
        let excess := decide (maxLength < declared)
        let c : Coil :=
          { handle := room.1.freeCoil, seq := g.nextSeq, name := name, indexed := found.isNone, origin := .unknown,
            state := .entered, length := if declared = 0 then none else some (min declared maxLength),
            flags := { reentry := found.isSome, suspect := excess, clamped := excess }, made := none, consumed := some passage,
            parents := [], children := [] }
        ({ room.1.addCoil c with nextSeq := g.nextSeq + 1 }, some (c.ref, c.length),
          room.2.2 ++ (found.toList.map (fun d => { genealogyNotice 1 (some line) (some name) with
            coil := some c.ref, other := some d.ref })) ++ [coilNotice 1 line c none none])
      else (room.1, none, room.2.2 ++ [genealogyNotice 3 (some line) (some name)])
  match g.named name with
  | none => create none
  | some d =>
    if d.state = .made ∧ d.children = [] then
      (g.updCoil d.handle (fun c => { c with state := .entered, consumed := some passage }), some (d.ref, d.length),
        [coilNotice 1 line d none none])
    else create (some d)

/-- CLOSE ENTRY (R17): the record's length and whether NO MATERIAL was set; none for STALE or NOT ENTERED. An F_t below the record's F_h
counts as a feed span of 0 (log entry 52). The notice CONSUMED names the line whose tracker presents the operation, also where a new record of
equal handle and sequence is ENTERED on another line (log entry 71). -/
def Genealogy.closeEntry (g : Genealogy) (line : Nat) (r : Ref) (ft : Nat) :
    Genealogy × Option (Option Nat × Bool) × List Notice :=
  match g.current r with
  | none => (g, none, [])
  | some c =>
    match c.state, c.consumed with
    | .entered, some p =>
      let d := ft - p.fh
      let fresh := c.length.isNone && decide (d ≠ 0)
      let excess := fresh && decide (maxLength < d)
      let c' : Coil := { c with
        state := .consumed
        consumed := some { p with ft := some ft }
        length := if fresh then some (min d maxLength) else c.length
        flags := { c.flags with suspect := c.flags.suspect || excess, clamped := c.flags.clamped || excess,
                                noMaterial := c.flags.noMaterial || decide (d = 0) } }
      (g.updCoil c.handle (fun _ => c'), some (c'.length, decide (d = 0)), [coilNotice 2 line c' c'.length none])
    | _, _ => (g, none, [])

/-- Two lanes whose parent spans may overlap (L6): different, neither WHOLE. -/
def lanesApart (a b : Lane) : Bool := a != b && a != .whole && b != .whole

/-- Law L6 for a parent span and lane against the FINAL child links of a coil (R7). -/
def Genealogy.keepsL6 (g : Genealogy) (c : Coil) (p : Ival) (lane : Lane) : Bool :=
  (g.linksOf c.children).all (fun l =>
    match l.parentSpan with
    | none => true
    | some q => !p.meets q || lanesApart lane l.lane)

/-- Law L6 among the links of one MAKE CHILD. -/
def newKeepL6 : List NewLink → Bool
  | [] => true
  | n :: ns =>
    ns.all (fun m =>
      match n.parentSpan, m.parentSpan with
      | some p, some q => !(n.parent == m.parent) || !p.meets q || lanesApart n.lane m.lane
      | _, _ => true) && newKeepL6 ns

/-- Laws L4 and L6 for a supplied parent span (R7, R18). -/
def Genealogy.spanOk (g : Genealogy) (n : NewLink) : Bool :=
  match n.parentSpan with
  | none => true
  | some p =>
    match g.current n.parent with
    | none => false
    | some c => !p.empty && (match c.length with | none => false | some len => decide (p.hi ≤ len)) && g.keepsL6 c p n.lane

/-- Law L5 among the child spans of a new child (R7). -/
def spansApart : List Ival → Bool
  | [] => true
  | x :: xs => xs.all (fun y => !x.meets y) && spansApart xs

/-- Create the links of a MAKE CHILD, one after another (R18 step 3). -/
def Genealogy.addNewLinks (g : Genealogy) (line : Nat) (child : Option Nat) (ns : List NewLink) : Genealogy :=
  ns.foldl (fun g n => g.addLink
    { handle := g.freeLink, child := child, childSpan := if child.isSome then n.childSpan else { lo := 0, hi := 0 },
      scrap := if child.isSome then 0 else n.scrap, parent := n.parent.handle,
      parentSpan := n.parentSpan, dir := n.dir, lane := n.lane, line := line, suspect := n.suspect,
      source := if n.parentSpan.isSome then none else some { segment := n.parent.seq, span := n.source } }) g

/-- MAKE CHILD (R18): whether it was recorded. The notice of a failure names the child; without a child part it has no name (log entry
30). -/
def Genealogy.makeChild (g : Genealogy) (held : List Ref) (line : Nat) (child : Option ChildPart) (scraps : List NewLink) :
    Genealogy × Bool × List Notice :=
  let keep (ns : List NewLink) : List NewLink := ns.filter (fun n => (g.current n.parent).isSome)
  let cl := keep ((child.map (·.links)).getD [])
  let sl := keep scraps
  let name := child.map (·.name)
  let spans := cl.map (·.childSpan)
  let ok := (match child with
      | none => true
      | some p => spans.all (fun s => !s.empty && decide (s.hi ≤ p.length)) && spansApart spans)
    && (cl ++ sl).all g.spanOk && newKeepL6 (cl ++ sl)
  if !ok then (g, false, [genealogyNotice 4 (some line) name])
  else if child.isSome && g.exhausted then (g, false, [genealogyNotice 6 (some line) name])
  else
    let room := g.makeRoom held ((cl ++ sl).map (·.parent.handle)) child.toList.length (cl ++ sl).length (some line)
    if !room.2.1 then (room.1, false, room.2.2 ++ [genealogyNotice 3 (some line) name])
    else
      match child with
      | none => (room.1.addNewLinks line none sl, true, room.2.2)
      | some p =>
        let dup := (room.1.named p.name).isSome
        let c : Coil :=
          { handle := room.1.freeCoil, seq := g.nextSeq, name := p.name, indexed := !dup, origin := .tracked, state := .made,
            length := some p.length, flags := { suspect := p.suspect, clamped := p.clamped, duplicateName := dup },
            made := some { line := line, lane := p.lane, head := p.head }, consumed := none, parents := [], children := [] }
        let g1 := { room.1.addCoil c with nextSeq := g.nextSeq + 1 }
        ((g1.addNewLinks line (some c.handle) cl).addNewLinks line none sl, true,
          room.2.2 ++ (if dup then [{ genealogyNotice 2 (some line) (some p.name) with coil := some c.ref }] else [])
            ++ [coilNotice 3 line c c.length (some p.lane.code)])

/-- The pending links of one segment, oldest first (R19, R20). -/
def Genealogy.pendingOf (g : Genealogy) (c : Coil) (line : Nat) : List Link :=
  (g.linksOf c.children).filter (fun l =>
    l.parentSpan.isNone && l.line == line && (match l.source with | none => false | some s => s.segment == c.seq))

/-- FINALIZE LINKS (R19): true when the reference was current. -/
def Genealogy.finalizeLinks (g : Genealogy) (line : Nat) (r : Ref) (orient : Orientation) (fh ft dh dt len : Nat) (suspect : Bool) :
    Genealogy × Bool × List Notice :=
  match g.current r with
  | none => (g, false, [])
  | some c =>
    let res := (g.pendingOf c line).foldl (fun (acc : Genealogy × List Notice) l =>
      let y := match l.source with | none => ({ lo := 0, hi := 0 } : Ival) | some s => s.span
      match finalSpan orient fh ft dh dt len y with
      | none => (acc.1.dropLink l.handle, acc.2)
      | some p =>
        match acc.1.coilAt c.handle with
        | none => acc
        | some now =>
          if acc.1.keepsL6 now p l.lane then
            let l' : Link := { l with parentSpan := some p, dir := orientDir orient, suspect := l.suspect || suspect, source := none }
            let g1 := acc.1.updLink l.handle (fun _ => l')
            (g1.updCoil c.handle (fun d => { d with children := g1.childPlace l' (d.children.filter (· != l.handle)) }), acc.2)
          else (acc.1.dropLink l.handle, acc.2 ++ [genealogyNotice 4 (some line) (some c.name)])) (g, [])
    (res.1, true, res.2)

/-- DROP PENDING (R20): true when the reference was current. -/
def Genealogy.dropPending (g : Genealogy) (line : Nat) (r : Ref) : Genealogy × Bool :=
  match g.current r with
  | none => (g, false)
  | some c => (((g.pendingOf c line).map (·.handle)).foldl Genealogy.dropLink g, true)

/-! ## Import (section 1.7) -/

/-- IMPORT COIL (R22): the refusal code, if any. A flag byte has bit 1 SUSPECT and bit 4 CLAMPED. -/
def Genealogy.importCoil (g : Genealogy) (held : List Ref) (flags : Byte) (len : Nat) (name : Name) :
    Genealogy × Option Code × List Notice :=
  if !nameOk name || decide (len < 1) || decide (maxLength < len) || (flags &&& 0xED#8) != 0#8 then (g, some .badValue, [])
  else if (g.named name).isSome then (g, some .duplicate, [])
  else if g.exhausted then (g, some .noRoom, [genealogyNotice 6 none (some name)])
  else
    let room := g.makeRoom held [] 1 0 none
    if !room.2.1 then (room.1, some .noRoom, room.2.2)
    else
      let c : Coil :=
        { handle := room.1.freeCoil, seq := g.nextSeq, name := name, indexed := true, origin := .imported, state := .made,
          length := some len, flags := { suspect := flags.getLsbD 1, clamped := flags.getLsbD 4 }, made := none,
          consumed := none, parents := [], children := [] }
      ({ room.1.addCoil c with nextSeq := g.nextSeq + 1 }, none, room.2.2)

/-- IMPORT LINK (R23): the refusal code, if any; `code` is the session's origin line code. -/
def Genealogy.importLink (g : Genealogy) (held : List Ref) (code : Nat) (dir lane : Byte) (cs ps : Ival) (cn pn : Name) :
    Genealogy × Option Code × List Notice :=
  if cn.length = 0 ∨ 16 < cn.length ∨ pn.length = 0 ∨ 16 < pn.length then (g, some .badValue, [])
  else
    match g.named cn, g.named pn with
    | some c, some p =>
      match Lane.ofCode lane.toNat, c.length, p.length with
      | some ln, some cl, some pl =>
        if cs.empty || ps.empty || decide (cl < cs.hi) || decide (pl < ps.hi) then (g, some .badValue, [])
        else if c.seq ≤ p.seq then (g, some .order, [])
        else if (g.linksOf c.parents).any (fun l => l.childSpan.meets cs) || !g.keepsL6 p ps ln then (g, some .overlap, [])
        else if p.consumed.isSome then (g, some .inUse, [])
        else
          let room := g.makeRoom held [c.handle, p.handle] 0 1 none
          if !room.2.1 then (room.1, some .noRoom, room.2.2)
          else
            (room.1.addLink
              { handle := room.1.freeLink, child := some c.handle, childSpan := cs, scrap := 0, parent := p.handle,
                parentSpan := some ps, dir := if dir = 0#8 then .same else .reversed, lane := ln, line := code,
                suspect := c.flags.suspect || p.flags.suspect, source := none }, none, room.2.2)
      | _, _, _ => (g, some .badValue, [])
    | _, _ => (g, some .notFound, [])

/-! ## Reading the table (section 1.9) -/

/-- LOOKUP (R26). -/
def Genealogy.lookup (g : Genealogy) : LookKey → Option Coil
  | .name n => g.named n
  | .ref r => g.current r

/-- The COIL SUMMARY payload (R26, section 11.3). -/
def Genealogy.summary (g : Genealogy) (c : Coil) : List Byte :=
  let kids := g.linksOf c.children
  let finals := kids.filter (fun l => l.parentSpan.isSome)
  beBytes 2 c.handle ++ beBytes 4 c.seq ++ nameField (some c.name)
    ++ [boolByte c.indexed, byteOf c.origin.code, byteOf c.state.code] ++ beOpt 4 c.length
    ++ [c.flags.byte, byteOf ((if c.made.isSome then 1 else 0) + (if c.consumed.isSome then 2 else 0))]
    ++ beOpt 1 (c.made.map (·.line)) ++ beOpt 1 (c.made.map (·.lane.code)) ++ beOpt 6 (c.made.map (·.head))
    ++ beOpt 1 (c.consumed.map (·.line)) ++ beOpt 1 (c.consumed.map (fun p => orientCode p.orient))
    ++ beOpt 6 (c.consumed.map (·.fh)) ++ beOpt 6 (c.consumed.bind (·.ft))
    ++ beBytes 2 c.parents.length ++ beBytes 2 (finals.filter (fun l => l.child.isSome)).length
    ++ beBytes 2 (finals.filter (fun l => l.child.isNone)).length
    ++ beBytes 2 (kids.filter (fun l => l.parentSpan.isNone)).length

/-- A link at or after a resume position (R27). -/
def atOrAfter (r : Resume) (l : Link) : Bool :=
  match r with
  | .start => true
  | .childStart p => decide (p ≤ l.childSpan.lo)
  | .parentStart p lane =>
    match l.parentSpan with
    | none => true
    | some q => !finalBefore q l.lane { lo := p, hi := p } lane
  | .pendings _ => l.parentSpan.isNone

/-- The copy of a link for a planner (R27): the far coil is the parent when reading UP, otherwise the child. -/
def Genealogy.copyLink (g : Genealogy) (up : Bool) (l : Link) : LinkCopy :=
  let far := if up then some l.parent else l.child
  { link := l, far := (far.bind g.coilAt).map (fun c => (c.name, c.ref)) }

/-- PLAN STEP (R27): RETIRED, or the coil with up to 16 links and the continuation. -/
def Genealogy.planStep (g : Genealogy) (op : PlanOp) : PlanAnswer :=
  match g.current op.coil with
  | none => none
  | some c =>
    if op.up then
      let ls := (g.linksOf c.parents).filter (fun l => l.childSpan.meets op.span && atOrAfter op.from_ l)
      some { coil := c, hasParents := !c.parents.isEmpty, links := (ls.take 16).map (g.copyLink true),
             next := (ls.drop 16).head?.map (fun l => .childStart l.childSpan.lo) }
    else
      let kids := g.linksOf c.children
      let done := match op.from_ with | .pendings n => n | _ => 0
      let finals := kids.filter (fun l => (match l.parentSpan with | none => false | some p => p.meets op.span) && atOrAfter op.from_ l)
      let pend := (kids.filter (fun l => l.parentSpan.isNone)).drop done
      let room := 16 - finals.length
      some { coil := c, hasParents := !c.parents.isEmpty,
             links := (finals.take 16 ++ pend.take room).map (g.copyLink false),
             next := match (finals.drop 16).head?.bind (fun l => l.parentSpan.map (fun p => (p, l.lane))) with
               | some (p, lane) => some (.parentStart p.lo lane)
               | none => if pend.length ≤ room then none else some (.pendings (done + room)) }

end Sys2Proof.Machine
end

