-- ==== Sys2Proof/Machine/Ops.lean ====
section
/-! DEFINITION. Operations every block shares: indexed access to the blocks, raising a notice (R183, R185), placing a reply
(R180), the transmit scheduler (R186), the arbiter of the Genealogy Table (R13), and the end of a meaning. A part with no exception
entry has nothing to take or return from; a condition is raised as a notice. -/

namespace Sys2Proof.Machine

/-! ## Access to one block -/

def State.updPort (s : State) (l : Fin 4) (f : Port → Port) : State := { s with ports := updAt s.ports l f }

def State.updTracker (s : State) (l : Fin 4) (f : Tracker → Tracker) : State := { s with trackers := updAt s.trackers l f }

def State.updChannel (s : State) (c : Fin 4) (f : Channel → Channel) : State := { s with channels := updAt s.channels c f }

def State.updSlc (s : State) (f : Slc → Slc) : State := { s with slc := f s.slc }

def State.updPortCnt (s : State) (l : Fin 4) (f : PortCounters → PortCounters) : State :=
  s.updPort l (fun p => { p with cnt := f p.cnt })

def State.updTrackCnt (s : State) (l : Fin 4) (f : TrackCounters → TrackCounters) : State :=
  s.updTracker l (fun t => { t with cnt := f t.cnt })

/-- The four lines, and the four channels, in order. -/
def four : List (Fin 4) := [0, 1, 2, 3]

/-- The four places after `i`, in ring order: i + 1, i + 2, i + 3, i (R13, R110, R186). -/
def ringAfter (i : Fin 4) : List (Fin 4) := [i + 1, i + 2, i + 3, i]

/-! ## The notice unit (R183 to R185) -/

def NoticeSettings.enabled (n : NoticeSettings) : NoticeClass → Bool
  | .line => n.line
  | .coil => n.coil
  | .genealogy => n.genealogy
  | .archive => n.archive
  | .capture => n.capture
  | .start => true

/-- Take a raised notice: masked, dropped or queued (R183 cases 2 to 4). -/
def Slc.takeNotice (c : Slc) (cls : NoticeClass) (f : Frame) : Slc :=
  if c.settings.enabled cls then
    if c.notices.length < 8 then { c with notices := c.notices ++ [f] } else { c with dropped := bump c.dropped }
  else { c with masked := bump c.masked }

/-- The condition instance a notice enters, if any (R92, R119, R185). -/
def Notice.condition (n : Notice) : Option Condition :=
  match n.cls, n.reason, n.line with
  | .line, 1, some l => some (.uncertain (finOf 3 l))
  | .line, 4, some l => some (.silent (finOf 3 l))
  | .archive, 4, _ => some .exhausted
  | _, _, _ => none

/-- Whether the class of a condition is in mode REPEAT (R184). -/
def NoticeSettings.repeats (n : NoticeSettings) : Condition → Bool
  | .exhausted => n.archiveRepeat
  | _ => n.lineRepeat

def Slc.inst (c : Slc) : Condition → Option Inst
  | .uncertain l => c.uncertain[l]
  | .silent l => c.silent[l]
  | .exhausted => c.exhausted

def Slc.setInst (c : Slc) (k : Condition) (i : Option Inst) : Slc :=
  match k with
  | .uncertain l => { c with uncertain := updAt c.uncertain l (fun _ => i) }
  | .silent l => { c with silent := updAt c.silent l (fun _ => i) }
  | .exhausted => { c with exhausted := i }

/-- Enter the instance of a condition notice; under REPEAT its timer starts (R185). -/
def Slc.enterInst (c : Slc) (n : Notice) : Slc :=
  match n.condition with
  | none => c
  | some k => c.setInst k (some { notice := n, repeats := 0, timer := c.settings.repeats k })

/-- Raise a notice. While the part is STARTING the notice unit takes none (R194). -/
def State.raise (s : State) (n : Notice) : State :=
  if s.startUp.ready then s.updSlc (fun c => (c.enterInst n).takeNotice n.cls (noticeFrame (n.payload none))) else s

/-- Raise a notice of a condition that holds already: in mode ONCE nothing further is raised; in mode REPEAT it is taken like any notice,
and the instance holds on as it was entered (R185, log entry 19). -/
def State.raiseHeld (s : State) (k : Condition) (n : Notice) : State :=
  if s.startUp.ready && s.slc.settings.repeats k then s.updSlc (fun c => c.takeNotice n.cls (noticeFrame (n.payload none))) else s

def State.raiseAll (s : State) (ns : List Notice) : State := ns.foldl State.raise s

/-- The end of a condition instance: its timer stops (R185). -/
def State.endCondition (s : State) (k : Condition) : State := s.updSlc (fun c => c.setInst k none)

/-- A LINE notice (R92). -/
def lineNotice (l : Fin 4) (reason : Nat) (cause : Option Nat) : Notice :=
  { cls := .line, reason := reason, line := some l.1, detail := cause }

/-- An ARCHIVE notice (R119). -/
def archiveNotice (reason : Nat) (figure detail : Option Nat) : Notice :=
  { cls := .archive, reason := reason, figure := figure, detail := detail }

/-! ## Replies (R180) -/

/-- Put a reply in the reply queue; a REFUSED counts under refusals (R191). -/
def Slc.place (c : Slc) (f : Frame) : Slc :=
  { c with replies := c.replies ++ [f], cnt := if f.kind = 0x82#8 then { c.cnt with refusals := bump c.cnt.refusals } else c.cnt }

/-- Complete the request in hand: its reply is placed and the Request Unit is free, or the unit waits for room (R180). -/
def State.finish (s : State) (reply : Frame) (runOf : Option (Fin 4)) : State :=
  s.updSlc (fun c =>
    if c.replies.length < 8 then { c.place reply with unit := .free } else { c with unit := .done reply runOf })

def State.accept (s : State) (f : Frame) : State := s.finish (accepted f) none

def State.refuse (s : State) (f : Frame) (c : Code) : State := s.finish (refusedWith f c) none

/-! ## The transmit scheduler (R186) -/

/-- The END REPORT of a run (R164, section 11.4). -/
def endReport (ch : Fin 4) (r : Run) : Frame :=
  { kind := 0xA1#8, channel := byteOf ch.1, tag := r.tag,
    payload := [byteOf r.kind.code, byteOf ((r.result.getD .complete).code),
        byteOf ((if r.clamped then 1 else 0) + (if r.firstFault.isSome then 2 else 0)), 0#8]
      ++ beBytes 4 r.sentRecs ++ beBytes 4 r.sentFrames ++ r.gaps.toList.flatMap (beBytes 4) ++ beOpt 6 r.firstFault }

/-- What a channel offers the scheduler: its oldest stream frame when not HELD, or its END REPORT when DRAINING with both slots
empty. -/
def State.offer (s : State) (ch : Fin 4) : Option TxJob :=
  let c := s.channels[ch]
  match s.slc.slots[ch] with
  | f :: _ => if c.state = .held then none else some (.stream ch f.frame f.recs true)
  | [] =>
    match c.state, c.run with
    | .draining, some r => some (.endReport ch (endReport ch r) true)
    | _, _ => none

/-- The first channel after the last served that offers a frame. -/
def State.nextOffer (s : State) : Option (Fin 4 × TxJob) :=
  (ringAfter s.slc.lastChan).findSome? (fun ch => (s.offer ch).map (fun j => (ch, j)))

/-- The scheduler's choice at a free transmitter: oldest reply, oldest notice, next channel (R186). -/
def State.kick (s : State) : State :=
  if s.slc.tx.isSome || s.startUp.held then s
  else
    match s.slc.replies with
    | f :: rest => s.updSlc (fun c => { c with replies := rest, tx := some (.reply f) })
    | [] =>
      match s.slc.notices with
      | f :: rest => s.updSlc (fun c => { c with notices := rest, tx := some (.notice f) })
      | [] =>
        match s.nextOffer with
        | none => s
        | some (ch, j) =>
          s.updSlc (fun c => { c with slots := updAt c.slots ch (fun q => q.drop 1), lastChan := ch, tx := some j })

/-! ## The arbiter (R13) -/

/-- Whose operation the arbiter serves. -/
inductive Grant where
  | tracker (l : Fin 4)
  | unit
  | planner (c : Fin 4)
  deriving DecidableEq, Repr

/-- The Request Unit has an operation waiting. A later item of an import frame comes to the arbiter some time after the result of the
item before it, so that nothing need wait for it (R14, log entry 16). -/
def ReqUnit.waits : ReqUnit → Bool
  | .table _ (.importing j) => j.at_ == 0
  | .table _ _ => true
  | .clearing _ tableDone => !tableDone
  | _ => false

/-- A RETIRE is being performed: the table serves nobody else until it is complete. -/
def ReqUnit.performing : ReqUnit → Bool
  | .table _ (.retire _ _ p) => p
  | _ => false

/-- A tracker has an operation waiting at the arbiter. -/
def Tracker.waits (t : Tracker) : Bool :=
  match t.work with
  | none => false
  | some w => w.presented

/-- The operation of the Genealogy Table in a tracker's work: readings being handed over are none. -/
def Tracker.tableOp (t : Tracker) : Option TrackOp :=
  match t.work with
  | none => none
  | some w =>
    match w.op with
    | .hand _ => none
    | op => some op

/-- A planner has a PLAN STEP waiting. -/
def Channel.waits (c : Channel) : Bool :=
  match c.run with
  | none => false
  | some r => r.planOp.isSome

/-- The arbiter's choice (R13): the next waiting tracker, else the Request Unit, else the next waiting planner. -/
def State.grant (s : State) : Option Grant :=
  if s.slc.unit.performing then some .unit
  else
    match (ringAfter s.table.lastTracker).find? (fun l => s.trackers[l].waits) with
    | some l => some (.tracker l)
    | none =>
      if s.slc.unit.waits then some .unit
      else ((ringAfter s.table.lastPlanner).find? (fun c => s.channels[c].waits)).map .planner

/-- The references the four track maps hold (R24). -/
def State.heldRefs (s : State) : List Ref := s.trackers.toList.flatMap (fun t => t.map.filterMap (·.coil))

/-! ## The end of a meaning -/

/-- Every meaning ends here: the scheduler takes a waiting frame if the transmitter is free (R186), and the state is the next. It chooses
once, among all that the command made ready (log entry 63). -/
def settle (s : State) : Host.Outcome State Fault Refusal := .next s.kick

/-- A command that names a step the part cannot take in this state: nothing happens. Log entry 8. -/
def still (s : State) : Host.Outcome State Fault Refusal := .next s

end Sys2Proof.Machine
end

