-- ==== Sys2Proof/Machine/Archive.lean ====
section
/-! DEFINITION. The Archive Controller (sections 5.3 to 5.7): the flash ring, the write queue, the choice of the flash operation,
the archive index, and what the completion of an operation does. The inner operations work on the `Archive` alone and return the
notices they raise; those on `State` raise them. -/

namespace Sys2Proof.Machine

/-- What an archive operation leaves and the notices it raises, in order. -/
abbrev Arch := Archive × List Notice

/-! ## The group table and the ring (R104, R105) -/

def Archive.groupState (a : Archive) (g : Nat) : GroupState :=
  match a.groups.find? (fun p => p.1 == g) with
  | some p => p.2
  | none => .full

def Archive.setGroup (a : Archive) (g : Nat) (st : GroupState) : Archive :=
  let rest := a.groups.filter (fun p => p.1 != g)
  { a with groups := if st = .full then rest else insertBy (·.1) (g, st) rest }

/-- Groups that are not BAD (R104). -/
def Archive.usable (a : Archive) : Nat := groupCount - (a.groups.filter (fun p => p.2 == .bad)).length

/-- Remove from the index every entry whose page lies in a group (R113). -/
def Archive.unindex (a : Archive) (g : Nat) : Archive :=
  { a with index := a.index.map (fun es => es.filter (fun e => e.page / groupPages != g)) }

/-- Test EXHAUSTED when a group has become BAD; on entering it the notice is raised and the write queue is dropped, but for a block
whose PROGRAM is in progress (R109). The queue occupancy falls by the blocks dropped: at a resume, where the queue is empty, what it
retains is left to step 1 of R197. -/
def Archive.testExhausted (a : Archive) : Arch :=
  if !a.exhausted && decide (a.usable < 64) then
    let keep := if a.op = some .program then a.queue.take 1 else []
    ({ a with exhausted := true, queue := keep, occupancy := a.occupancy - (a.queue.length - keep.length), headFailed := a.headFailed && !keep.isEmpty,
              cnt := { a.cnt with dropped := bump a.cnt.dropped (a.queue.length - keep.length) } },
      [archiveNotice 4 (some a.usable) none])
  else (a, [])

/-- A FAILING group the ring meets becomes BAD and its entries are removed (R104, R105, R113). -/
def Archive.retireGroup (a : Archive) (g : Nat) : Arch :=
  let a1 := (a.setGroup g .bad).unindex g
  let r := Archive.testExhausted { a1 with cnt := { a1.cnt with retired := bump a1.cnt.retired } }
  (r.1, archiveNotice 2 (some g) (some 1) :: r.2)

/-- The ring walk from group `g` on (R105): past BAD groups, retiring FAILING ones, to the first ERASED or FULL group. -/
def Archive.ring : (fuel : Nat) → Archive → (g : Nat) → Arch × Option Nat
  | 0, a, _ => ((a, []), none)
  | n + 1, a, g =>
    match a.groupState g with
    | .erased => ((a, []), some g)
    | .full => ((a, []), some g)
    | .failing =>
      let r := a.retireGroup g
      let w := Archive.ring n r.1 ((g + 1) % groupCount)
      ((w.1.1, r.2 ++ w.1.2), w.2)
    | _ => Archive.ring n a ((g + 1) % groupCount)

/-- Put the write point at page 0 of what a ring walk from `g` finds; it stays where it stands when the walk finds none. -/
def Archive.place (a : Archive) (g : Nat) : Arch :=
  let w := Archive.ring groupCount a g
  match w.2 with
  | some h => ({ w.1.1 with group := h, page := 0 }, w.1.2)
  | none => w.1

/-- The write point advances (R105): the walk begins at the next group. -/
def Archive.advance (a : Archive) : Arch := a.place ((a.group + 1) % groupCount)

/-- A page is ready (R105). -/
def Archive.pageReady (a : Archive) : Bool :=
  match a.groupState a.group with
  | .erased => true
  | .filling => true
  | _ => false

/-- The write point moves past its page (R107 step 3): the group becomes FILLING, or FULL after page 63, and then the write point
advances. -/
def Archive.stepPoint (a : Archive) : Arch :=
  if a.page = 63 then (a.setGroup a.group .full).advance
  else ({ a.setGroup a.group .filling with page := a.page + 1 }, [])

/-! ## The choice of the flash operation (R106, R110) -/

/-- The start of an ERASE (R106). -/
def Archive.startErase (a : Archive) (g : Nat) : Archive :=
  let a1 := a.unindex g
  { a1 with marks := insertBy id g (a1.marks.filter (· != g)), op := some (.erase g), lastOp := some .erase,
            cnt := { a1.cnt with erases := bump a1.cnt.erases } }

/-- A write step (R110): PROGRAM when a page is ready, otherwise the ERASE of the group at the write point. -/
def Archive.writeStep (a : Archive) : Archive :=
  if a.pageReady then { a with op := some .program, lastOp := some .program }
  else if a.groupState a.group = .full then a.startErase a.group
  else a

/-- A READ for the first channel after the last served that has a request waiting, its oldest (R110 step 3). -/
def Archive.startRead (a : Archive) : Archive :=
  match (ringAfter a.lastChan).findSome? (fun ch => a.requests.find? (fun r => r.ch == ch)) with
  | none => a
  | some r => { a with requests := a.requests.erase r, lastChan := r.ch, op := some (.read r true), lastOp := some .read }

/-- Erase-ahead (R106): due when the write point's group is FILLING with 8 or fewer pages left and the next usable group is FULL. -/
def Archive.eraseAhead (a : Archive) : Arch :=
  if a.groupState a.group = .filling ∧ 56 ≤ a.page then
    let w := Archive.ring groupCount a ((a.group + 1) % groupCount)
    match w.2 with
    | none => w.1
    | some g => if w.1.1.groupState g = .full ∧ !w.1.1.exhausted then (w.1.1.startErase g, w.1.2) else w.1
  else (a, [])

/-- The choice at an idle flash, by the steps of R110. -/
def Archive.choose (a : Archive) : Arch :=
  if a.op.isSome || a.clear then (a, [])
  else
    let writes := !a.exhausted && !a.queue.isEmpty
    if writes && decide (12 ≤ a.queue.length) then (a.writeStep, [])
    else if writes && a.lastOp == some .read then (a.writeStep, [])
    else if !a.requests.isEmpty then (a.startRead, [])
    else if writes then (a.writeStep, [])
    else if !a.exhausted then a.eraseAhead
    else (a, [])

/-! ## Completions -/

/-- The head block leaves the write queue (R107, R108). -/
def Archive.popHead (a : Archive) : Archive :=
  { a with queue := a.queue.drop 1, occupancy := a.occupancy - 1, headFailed := false }

/-- A PROGRAM that ended well (R107); `indexed` tells whether an entry is made. -/
def Archive.programmed (a : Archive) (b : Block) (indexed : Bool) : Arch :=
  let e : Entry := { page := groupPages * a.group + a.page, bseq := b.bseq, dseq := b.dseq, first := b.first, last := b.last,
                     suspect := b.suspect }
  let a1 := a.popHead
  let a2 : Archive := { a1 with
    op := none
    index := if indexed then updAt a1.index b.slot (fun es => es ++ [e]) else a1.index
    cnt := { a1.cnt with stored := bump a1.cnt.stored, unindexed := if indexed then a1.cnt.unindexed else bump a1.cnt.unindexed } }
  a2.stepPoint

/-- A PROGRAM that failed (R108, R109). -/
def Archive.programFailed (a : Archive) (b : Block) : Arch :=
  let a1 := a.setGroup a.group .failing
  let w := Archive.advance { a1 with cnt := { a1.cnt with programFailures := bump a1.cnt.programFailures } }
  let ns := archiveNotice 1 (some a.group) none :: w.2
  let a2 := { w.1 with op := none }
  if a.headFailed then
    ({ a2.popHead with cnt := { a2.cnt with lost := bump a2.cnt.lost } }, ns ++ [archiveNotice 3 (some b.bseq) (some b.slot.1)])
  else if a2.exhausted then ({ a2.popHead with cnt := { a2.cnt with dropped := bump a2.cnt.dropped } }, ns)
  else ({ a2 with headFailed := true }, ns)

/-- The completion of an ERASE of group `g` (R106). -/
def Archive.erased (a : Archive) (g : Nat) (r : FlashEnd) : Arch :=
  let a1 := { a with op := none, marks := a.marks.filter (· != g) }
  match r with
  | .good => (a1.setGroup g .erased, [])
  | .failed =>
    let a2 := a1.setGroup g .bad
    let a3 := { a2 with cnt := { a2.cnt with eraseFailures := bump a2.cnt.eraseFailures } }
    let w := if a3.group = g then a3.advance else (a3, [])
    let x := w.1.testExhausted
    (x.1, archiveNotice 2 (some g) (some 0) :: w.2 ++ x.2)

/-- The counts of a READ's outcome (R115). -/
def ArchiveCounters.afterRead (c : ArchiveCounters) : ReadOutcome → ArchiveCounters
  | .good _ => { c with reads := bump c.reads }
  | .readFault => { c with reads := bump c.reads, readFaults := bump c.readFaults }
  | .retired => { c with reads := bump c.reads, readsRetired := bump c.readsRetired }

/-! ## CLEAR ALL DATA and lookups -/

/-- CLEAR ALL DATA in the archive, the flash being idle (R121, R104). -/
def Archive.cleared (a : Archive) : Arch :=
  Archive.place { a with
    nextBlock := 1, queue := [], headFailed := false, occupancy := 0, clear := false, requests := [],
    groups := a.groups.filter (fun p => p.2 == .bad || p.2 == .failing)
    group := 0, page := 0, index := Vector.replicate 64 []
    cnt := { a.cnt with dropped := bump a.cnt.dropped a.queue.length } } 0

/-- An index lookup (R112): up to 8 entries and the continuation, none meaning DONE. -/
def indexLookup (es : List Entry) (dseq : Nat) (s : Ival) (after : Nat) : List Entry × Option Nat :=
  let hits := es.filter (fun e => decide (after < e.bseq) && e.dseq == dseq && decide (e.first < s.hi) && decide (s.lo ≤ e.last))
  let got := hits.take 8
  (got, if hits.length ≤ 8 then none else (got.getLast?).map (·.bseq))

/-! ## On the whole state -/

def State.withArch (s : State) (r : Arch) : State := State.raiseAll { s with archive := r.1 } r.2

/-- The Archive Controller chooses when the flash is idle and work waits (R110). -/
def State.flashKick (s : State) : State := s.withArch s.archive.choose

/-- A closed block is handed to the archive (R100, R101). -/
def State.handBlock (s : State) (b : Block) : State :=
  let a := s.archive
  if a.exhausted then { s with archive := { a with cnt := { a.cnt with dropped := bump a.cnt.dropped } } }
  else if 16 ≤ a.queue.length then
    ({ s with capture := { s.capture with cnt := { s.capture.cnt with queueFull := bump s.capture.cnt.queueFull } } } : State).raise
      { cls := .capture, reason := 1, figure := some b.bseq, detail := some b.slot.1 }
  else { s with archive := { a with queue := a.queue ++ [b], occupancy := a.occupancy + 1 } }

end Sys2Proof.Machine
end

