-- ==== Sys2Proof/Machine/Capture.lean ====
section
/-! DEFINITION. The Gauge Capture Unit (sections 5.1 to 5.3): attribution, reference coordinates, open blocks and their closing,
and the commands GAUGE_IDLE_EXPIRY, PROGRAM and ERASE. -/

namespace Sys2Proof.Machine

/-- The last block sequence (R101). -/
def lastBlock : Nat := 281474976710655

def State.updSlot (s : State) (i : Fin 64) (f : Slot → Slot) : State :=
  { s with capture := { s.capture with slots := updAt s.capture.slots i f } }

def State.updCaptureCnt (s : State) (f : CaptureCounters → CaptureCounters) : State :=
  { s with capture := { s.capture with cnt := f s.capture.cnt } }

/-- Close the open block of a slot, if it has one: header, block sequence, hand-over (R99, R100, R101). -/
def State.closeSlot (s : State) (i : Fin 64) : State :=
  let sl := s.capture.slots[i]
  match sl.block with
  | none => s
  | some b =>
    let s1 := (s.updSlot i (fun sl => { sl with block := none, mark := some b.last })).updCaptureCnt
      (fun c => { c with closed := bump c.closed })
    let a := s1.archive
    if lastBlock < a.nextBlock then
      { s1 with archive := { a with cnt := { a.cnt with dropped := bump a.cnt.dropped } } }
    else
      State.handBlock { s1 with archive := { a with nextBlock := a.nextBlock + 1 } }
        { slot := i, dseq := sl.dseq, line := sl.line, side := sl.side, lane := sl.lane, bseq := a.nextBlock, first := b.first,
          last := b.last, entries := b.entries, suspect := b.suspect }

/-- The 64 slot numbers in order. -/
def slotNumbers : List (Fin 64) := List.finRange 64

/-- The defined slots of a line (R99, R102). -/
def State.slotsOf (s : State) (l : Fin 4) : List (Fin 64) :=
  slotNumbers.filter (fun i => s.capture.slots[i].defined && s.capture.slots[i].line == l.1)

def State.closeSlots (s : State) (is : List (Fin 64)) : State := is.foldl State.closeSlot s

/-- The slot of a line and station gauge number (R96). -/
def State.slotFor (s : State) (l : Fin 4) (gauge : Nat) : Option (Fin 64) :=
  slotNumbers.find? (fun i =>
    s.capture.slots[i].defined && s.capture.slots[i].line == l.1 && s.capture.slots[i].gauge == gauge)

/-- Open a block with one reading (R98). -/
def openBlock (x : Nat) (raw : BitVec 16) (suspect : Bool) : OpenBlock :=
  { first := x, last := x, entries := [(0, raw)], suspect := suspect }

/-- Append a reading (R98). -/
def OpenBlock.append (b : OpenBlock) (x : Nat) (raw : BitVec 16) (suspect : Bool) : OpenBlock :=
  { b with last := x, entries := b.entries ++ [(x - b.first, raw)], suspect := b.suspect || suspect }

/-- A reading with reference coordinate `x` is taken into its slot (R98). -/
def State.takeReading (s : State) (i : Fin 64) (x : Nat) (raw : BitVec 16) (suspect : Bool) : State :=
  let sl := s.capture.slots[i]
  let mark := match sl.block with | some b => some b.last | none => sl.mark
  if mark.any (fun m => decide (x < m)) then s.updCaptureCnt (fun c => { c with outOfOrder := bump c.outOfOrder })
  else
    let s1 := s.updCaptureCnt (fun c => { c with captured := bump c.captured })
    match sl.block with
    | none => s1.updSlot i (fun sl => { sl with block := some (openBlock x raw suspect) })
    | some b =>
      if 65535 < x - b.first then
        (s1.closeSlot i).updSlot i (fun sl => { sl with block := some (openBlock x raw suspect) })
      else
        let b' := b.append x raw suspect
        let s2 := s1.updSlot i (fun sl => { sl with block := some b' })
        if b'.entries.length = 120 then s2.closeSlot i else s2

/-- One reading handed over with its slot and definition sequence (R96, R97). A coordinate above 2^48 - 1 is accepted (log entry 59). -/
def State.handReading (s : State) (i : Fin 64) (dseq coord : Nat) (raw : BitVec 16) (suspect : Bool) : State :=
  let sl := s.capture.slots[i]
  if sl.dseq ≠ dseq then s.updCaptureCnt (fun c => { c with undefinedGauge := bump c.undefinedGauge })
  else
    let x : Int := (coord : Int) - sl.offset
    if x < 0 then s.updCaptureCnt (fun c => { c with belowZero := bump c.belowZero })
    else s.takeReading i x.toNat raw suspect

/-- The readings of a frame in its order, coordinates `stride` apart (R65). -/
def State.handReadings (s : State) (i : Fin 64) (dseq : Nat) (suspect : Bool) (stride : Nat) :
    (coord : Nat) → List (BitVec 16) → State
  | _, [] => s
  | x, r :: rs => State.handReadings (s.handReading i dseq x r suspect) i dseq suspect stride (x + stride) rs

/-- CLEAR ALL DATA in the Gauge Capture Unit (R121). -/
def Capture.cleared (c : Capture) : Capture :=
  { c with slots := c.slots.map (fun sl => { sl with block := none, mark := none }) }

/-- GAUGE_IDLE_EXPIRY (R99): the slot's idle timer expires and its open block closes with cause IDLE; the timer runs only while a
block is open. -/
def execGaugeIdleExpiry (slot : Fin 64) (s : State) : Host.Outcome State Fault Refusal :=
  if s.capture.slots[slot].block.isNone then still s else settle (s.closeSlot slot).flashKick

/-- CLEAR ALL DATA reaches capture and archive once the flash is idle (R121). -/
def State.storeClear (s : State) : State :=
  if s.archive.clear && s.archive.op.isNone then
    State.withArch { s with capture := s.capture.cleared } s.archive.cleared
  else s

/-- CLEAR ALL DATA is answered when the table, the trackers and the archive have each applied their part (R190). -/
def State.clearAnswer (s : State) : State :=
  match s.slc.unit with
  | .clearing f true => if s.archive.clear || s.trackers.toList.any (·.clear) then s else s.accept f
  | _ => s

/-- The slot is defined under the block's definition sequence (R107), and no clear is waiting (R121). -/
def State.indexes (s : State) (b : Block) : Bool :=
  let sl := s.capture.slots[b.slot]
  sl.defined && sl.dseq == b.dseq && !s.archive.clear

/-- PROGRAM (R107, R108): the flash ends the PROGRAM of the head block. -/
def execProgram (result : FlashEnd) (s : State) : Host.Outcome State Fault Refusal :=
  match s.archive.op, s.archive.queue with
  | some .program, b :: _ =>
    match result with
    | .good =>
      let a := pageSize * (groupPages * s.archive.group + s.archive.page)
      let s1 := { s with flash := flashWrite s.flash a b.bytes }
      settle (s1.withArch (s.archive.programmed b (s.indexes b))).storeClear.clearAnswer.flashKick
    | .failed => settle (s.withArch (s.archive.programFailed b)).storeClear.clearAnswer.flashKick
  | _, _ => still s

/-- ERASE (R106): the flash ends the ERASE of a group. -/
def execErase (result : FlashEnd) (s : State) : Host.Outcome State Fault Refusal :=
  match s.archive.op with
  | some (.erase g) =>
    let s1 := match result with
      | .good => { s with flash := eraseGroup s.flash g }
      | .failed => s
    settle (s1.withArch (s.archive.erased g result)).storeClear.clearAnswer.flashKick
  | _ => still s

end Sys2Proof.Machine
end

