-- ==== Sys2Proof/Machine/Flags.lean ====
section
/-! DEFINITION. Every value and flag computation of the output path (sections 7.1 to 7.3): accumulators, reductions, scaling,
encodings, the flags VALUE, HELD and EMPTY, the markers SUSPECT and SATURATED, and the hold state. -/

namespace Sys2Proof.Machine

/-- Whether reading `a` wins over candidate `b` for LAST (R151): target position, then block sequence, then entry index. -/
def LastReading.wins (a b : LastReading) : Bool :=
  decide (b.pos < a.pos) || (a.pos == b.pos && (decide (b.bseq < a.bseq) || (a.bseq == b.bseq && decide (b.entry < a.entry))))

/-- The LAST candidate after a reading is offered (R151). -/
def offerLast (cur : Option LastReading) (r : LastReading) : Option LastReading :=
  match cur with
  | none => some r
  | some b => if r.wins b then some r else some b

/-- Add a reading to an accumulator (R150); `suspect` is the block's or the span's mark. -/
def Acc.add (a : Acc) (r : LastReading) (suspect : Bool) : Acc :=
  if a.count < 65535 then
    { a with
      count := a.count + 1
      sum := a.sum + r.raw
      min := some (match a.min with | none => r.raw | some m => if r.raw < m then r.raw else m)
      max := some (match a.max with | none => r.raw | some m => if m < r.raw then r.raw else m)
      last := offerLast a.last r
      suspect := a.suspect || suspect }
  else { a with overflow := true, last := offerLast a.last r, suspect := a.suspect || suspect }

/-- Quotient rounded half away from zero: the sign of `n`, the magnitude (|n| + floor(d / 2)) div d (R152, R153). -/
def roundAway (n : Int) (d : Nat) : Int :=
  let q : Int := ((n.natAbs + d / 2) / d : Nat)
  if n < 0 then -q else q

/-- The raw-unit result of a trace (R152): none when the reduction gives no result. -/
def reduce (r : Reduction) (a : Acc) : Option Int :=
  match r with
  | .count => some a.count
  | .mean => if a.count = 0 then none else some (roundAway a.sum a.count)
  | .min => if a.count = 0 then none else a.min
  | .max => if a.count = 0 then none else a.max
  | .last => if a.count = 0 then none else a.last.map (·.raw)

/-- Scaling by the profile's gain in 256ths and offset (R153). -/
def scale (p : Profile) (v : Int) : Int := roundAway (v * p.gain) 256 + p.offset

/-- Value range of an encoding (R154). -/
def Encoding.lowest : Encoding → Int
  | .s16 => -32767
  | .u8 => 0

def Encoding.highest : Encoding → Int
  | .s16 => 32767
  | .u8 => 254

/-- The EMPTY code of an encoding (R154). -/
def Encoding.emptyCode : Encoding → Int
  | .s16 => -32768
  | .u8 => 255

/-- Encode a value: what is sent, and whether it saturated (R154). -/
def Encoding.encode (e : Encoding) (w : Int) : Int × Bool :=
  if w < e.lowest then (e.lowest, true) else if e.highest < w then (e.highest, true) else (w, false)

inductive ValueFlag where | value | held | empty
  deriving DecidableEq, Repr

def ValueFlag.code : ValueFlag → Nat
  | .value => 0
  | .held => 1
  | .empty => 2

/-- What a trace sends in a bin (R157). -/
structure Sent where
  value     : Int
  flag      : ValueFlag
  suspect   : Bool
  saturated : Bool
  deriving DecidableEq, Repr

/-- The hold state at acceptance and after a gap (R155, R156). -/
def Held.cleared : Held := { value := none, run := 0 }

/-- The value, flag and markers a trace sends in a bin, and its hold state afterwards (R152 to R157). A COUNT trace with readings stores a
held value, which none of its bins reads (log entry 56). -/
def settleBin (p : Profile) (r : Reduction) (a : Acc) (h : Held) : Sent × Held :=
  match reduce r a with
  | some v =>
    let w := p.encoding.encode (match r with | .count => v | _ => scale p v)
    let sat := w.2 || (a.overflow && r != .last)
    ({ value := w.1, flag := .value, suspect := a.suspect, saturated := sat },
      if a.count = 0 then h else { value := some (w.1, a.suspect, sat), run := 0 })
  | none =>
    let empty : Sent := { value := p.encoding.emptyCode, flag := .empty, suspect := false, saturated := false }
    match h.value with
    | none => (empty, h)
    | some (v, su, sa) =>
      if h.run < p.hold then ({ value := v, flag := .held, suspect := su, saturated := sa }, { h with run := h.run + 1 })
      else (empty, h)

/-- The flag byte of a value in a bin record (R157, section 11.4). -/
def Sent.flagByte (s : Sent) : Byte :=
  byteOf (s.flag.code + (if s.suspect then 4 else 0) + (if s.saturated then 8 else 0))

/-- A value's bytes in a bin record: value, then flag byte. -/
def Sent.bytes (e : Encoding) (s : Sent) : List Byte :=
  (match e with | .s16 => beInt 2 s.value | .u8 => beInt 1 s.value) ++ [s.flagByte]

end Sys2Proof.Machine
end

