-- ==== Sys2Proof/Machine/Playback.lean ====
section
/-! DEFINITION. Playback runs (sections 6.3 and 6.4): the plan list and its shortening, the planner's walk, the fetcher and the
binner, halting, and the records a run header and markers make. -/

namespace Sys2Proof.Machine

/-! ## Bins and windows (R126, R127) -/

/-- Number of bins from `from` to the clamped end (R126). -/
def binCount (from_ end_ res : Nat) : Nat := (end_ - from_ + res - 1) / res

/-- Target positions of bins `b0` to `b1 - 1` (R126, R127). -/
def binSpan (r : Run) (p : Play) (b0 b1 : Nat) : Ival := { lo := r.from_ + b0 * p.res, hi := min (r.from_ + b1 * p.res) r.end_ }

/-- The bin of a target position (R141). -/
def binOf (r : Run) (p : Play) (t : Nat) : Nat := (t - r.from_) / p.res

/-! ## The plan list (R129, R132, R136, R137) -/

/-- Order of a plan list: target subrange start, then trace (R129). -/
def spanBefore (a b : Span) : Bool := decide (a.target.lo < b.target.lo) || (a.target.lo == b.target.lo && decide (a.trace < b.trace))

/-- Put a span in its place, after the spans it does not come before. -/
def insertSpan (x : Span) : List Span → List Span
  | [] => [x]
  | y :: ys => if spanBefore x y then x :: y :: ys else y :: insertSpan x ys

/-- A span cut to end at `hi` (R136): none when nothing of it, or of its source range, is left. -/
def cutSpan (hi : Nat) (x : Span) : Option Span :=
  if hi ≤ x.target.lo then none
  else if x.target.hi ≤ hi then some x
  else
    let t : Ival := { x.target with hi := hi }
    match x.kind with
    | .gap g => some { x with target := t, kind := .gap g }
    | .data _ chain anc sus =>
      match boundaryDown chain t with
      | none => none
      | some src => some { x with target := t, kind := .data src chain anc sus }

/-- Two GAP spans of one trace with one reason that abut or overlap are one span (R132). -/
def joins (x y : Span) : Bool :=
  match x.kind, y.kind with
  | .gap a, .gap b => a == b && x.trace == y.trace && decide (x.target.lo ≤ y.target.hi) && decide (y.target.lo ≤ x.target.hi)
  | _, _ => false

/-- One GAP span covering both. -/
def joinSpans (x : Span) (ys : List Span) : Span :=
  { x with target := { lo := ys.foldl (fun m y => min m y.target.lo) x.target.lo,
                       hi := ys.foldl (fun m y => max m y.target.hi) x.target.hi } }

/-- Starts of the spans a fragmented window loses, the first of each trace (R137). -/
def loseSpans (lost : List (Nat × Nat)) (ys : List Span) : List (Nat × Nat) :=
  ys.foldl (fun acc y => if acc.any (fun q => q.1 == y.trace) then
      acc.map (fun q => if q.1 = y.trace then (q.1, min q.2 y.target.lo) else q)
    else acc ++ [(y.trace, y.target.lo)]) lost

/-- The first 64 - T spans of a fragmented window, T the number of traces (R137). -/
def keepFragment (traces : Nat) (w : Window) : Window :=
  { w with plan := w.plan.take (64 - traces), lost := loseSpans w.lost (w.plan.drop (64 - traces)) }

/-- More than 64 spans: the window is shortened to a bin boundary, or cut to its first bin and fragmented (R136, R137); the
first 64 - T spans are those of the list as the cut leaves it (log entry 65). -/
def limitPlan (r : Run) (p : Play) (w : Window) : Window :=
  if w.frag then keepFragment p.traces.length w
  else
    match w.plan[64]? with
    | none => w
    | some x =>
      let k := binOf r p x.target.lo
      let cutTo (b1 : Nat) : Window :=
        let sp := binSpan r p w.bin0 b1
        { w with bin1 := b1, span := sp, plan := w.plan.filterMap (cutSpan sp.hi) }
      if w.bin0 < k then cutTo k else keepFragment p.traces.length { cutTo (w.bin0 + 1) with frag := true }

/-- The planner records a span (R129 to R137). A span joined with others stands after those of its trace and start (log entry 62). -/
def addSpan (r : Run) (p : Play) (w : Window) (trace : Nat) (target : Ival) (kind : SpanKind) : Window :=
  match cutSpan w.span.hi { id := w.nextId, trace := trace, target := target, kind := kind } with
  | none => w
  | some x =>
    let ys := w.plan.filter (joins x)
    limitPlan r p { w with plan := insertSpan (joinSpans x ys) (w.plan.filter (fun y => !joins x y)), nextId := w.nextId + 1 }

/-- The window's plan is final: the FRAGMENTED gaps join it (R137), each after the kept spans of its trace with the same start (log entry 74),
and it is fetched next (R128). -/
def finishPlan (w : Window) : Window :=
  let ls := w.lost
  { w with
    stage := .fetching
    nextId := w.nextId + ls.length
    plan := ls.foldl (fun acc q =>
      insertSpan { id := w.nextId + acc.length, trace := q.1, target := { lo := q.2, hi := w.span.hi }, kind := .gap .fragmented } acc)
      w.plan }

/-! ## The walk (R130 to R135) -/

/-- The level of a coil newly answered: its links, a REVERSED level's in reverse once all are read (R132). -/
def Level.fill (lv : Level) (a : PlanCoil) : Level :=
  let ls := lv.links ++ a.links
  { lv with hasParents := a.hasParents, links := if lv.reversed && a.next.isNone then ls.reverse else ls, next := a.next }

/-- The PLAN STEP that reads a level from a resume position. -/
def Level.step (lv : Level) (up : Bool) (from_ : Resume) : PlanOp := { coil := lv.coil, up := up, span := lv.span, from_ := from_ }

/-- More links must be read before the next is taken: none left, or a level that needs its whole list (R132, R168). -/
def Level.needsMore (lv : Level) : Option Resume := if lv.links.isEmpty || lv.reversed then lv.next else none

/-- Level 0: the target over an interval. -/
def targetLevel (c : Ref) (x : Ival) : Level :=
  { coil := c, span := x, stages := [], depth := 0, reversed := false, suspect := false, hasParents := false, links := [],
    next := none, cursor := x.lo, via := none }

/-- The level one link further, over an interval of the far coil. -/
def Level.below (lv : Level) (link : Link) (st : Stage) (far : Ref) (x : Ival) : Level :=
  let rev := flip lv.reversed link.dir
  { coil := far, span := x, stages := st :: lv.stages, depth := lv.depth + 1, reversed := rev, suspect := lv.suspect || link.suspect,
    hasParents := false, links := [], next := none, cursor := if rev then x.hi else x.lo, via := none }

/-- Record a gap over a part of a level's coil (R133). -/
def gapAt (r : Run) (p : Play) (w : Window) (trace : Nat) (lv : Level) (x : Ival) (g : GapReason) : Window :=
  if x.empty then w
  else
    match imageUp lv.stages x with
    | none => w
    | some t => addSpan r p w trace t (.gap g)

/-- What is left of a level's interval, counted in the direction it is walked. -/
def Level.remainder (lv : Level) : Ival :=
  if lv.reversed then { lo := lv.span.lo, hi := lv.cursor } else { lo := lv.cursor, hi := lv.span.hi }

/-- The passage of a coil that matches a captured trace (R130): its stage; or the coil is still ENTERED on the gauge's line. -/
inductive Passage where
  | stage (st : Stage)
  | inProcess
  | absent
  deriving DecidableEq, Repr

def passageFor (t : Trace) (c : Coil) : Passage :=
  match t.side with
  | .delivery =>
    match c.made, c.length with
    | some m, some len =>
      if m.line = t.line ∧ (m.lane = t.lane ∨ t.lane = .whole) then .stage (madeStage m len) else .absent
    | _, _ => .absent
  | .feed =>
    match c.consumed with
    | none => .absent
    | some q =>
      if q.line ≠ t.line then .absent
      else if q.ft.isNone then .inProcess
      else match consumedStage q c.length with
        | some st => .stage st
        | none => .absent

/-- Record the DATA span of a coil whose passage matches (R130, R133). -/
def dataAt (r : Run) (p : Play) (w : Window) (trace : Nat) (lv : Level) (c : Coil) (st : Stage) : Window :=
  match imageUp lv.stages lv.span with
  | none => w
  | some t =>
    match boundaryDown (st :: lv.stages) t, boundaryDown lv.stages t with
    | some src, some anc =>
      addSpan r p w trace t (.data src (st :: lv.stages)
        (some { name := c.name, coil := c.ref, pos := if lv.reversed then anc.hi - 1 else anc.lo })
        (lv.suspect || c.flags.suspect))
    | _, _ => w

/-- The answer for a coil newly reached: a passage, a gap, or a level to go on with (R130, R131). A parent list that became empty when its
only, pending, link was deleted is NOT PASSED like any other empty one (R147, log entry 60). -/
def visited (r : Run) (p : Play) (w : Window) (trace : Nat) (lv : Level) (a : PlanCoil) : Window × Option Level :=
  match p.traces[trace]? with
  | none => (w, none)
  | some t =>
    match passageFor t a.coil with
    | .stage st => (dataAt r p w trace lv a.coil st, none)
    | .inProcess => (gapAt r p w trace lv lv.span .inProcess, none)
    | .absent => if a.hasParents then (w, some (lv.fill a)) else (gapAt r p w trace lv lv.span .notPassed, none)

/-- Take the next link of a level (R131): the uncovered stretch before it is GAP NO ORIGIN, then DEPTH, PENDING, or the level below
to visit. -/
def takeLink (r : Run) (p : Play) (w : Window) (trace : Nat) (lv : Level) (lc : LinkCopy) : Window × Level × Option Level :=
  let x := lc.link.childSpan.cut lv.remainder
  if x.empty then (w, lv, none)
  else
    let before : Ival := if lv.reversed then { lo := x.hi, hi := lv.cursor } else { lo := lv.cursor, hi := x.lo }
    let w1 := gapAt r p w trace lv before .noOrigin
    let lv1 := { lv with cursor := if lv.reversed then x.lo else x.hi }
    match lc.link.stage, lc.far with
    | some st, some far =>
      if p.depth ≤ lv.depth then (gapAt r p w1 trace lv x .depth, lv1, none)
      else
        let y := st.boundary x
        if y.empty then (w1, lv1, none) else (w1, lv1, some (lv.below lc.link st far.2 y))
    | _, _ => (gapAt r p w1 trace lv x .pending, lv1, none)

/-- What is left of a level begins at or beyond the window's end, so that the trace need not be walked further (R136). -/
def beyond (w : Window) (lv : Level) : Bool :=
  !lv.remainder.empty && (match imageUp lv.stages lv.remainder with
    | none => false
    | some t => decide (w.span.hi ≤ t.lo))

/-- Go on planning until a PLAN STEP is needed or the last trace is walked: the window, the planner (absent when the plan is
complete) and the step presented. What no link of a level covers is GAP NO ORIGIN, by case 4 of R131: whether the coil has parent links was
decided when the walk reached it, and a list that a later step of the same coil finds empty does not make the rest NOT PASSED by case 5 (the
model's choice, log entry 72). -/
def planGo (r : Run) (p : Play) (c : Ref) : (fuel : Nat) → Window → Planner → Window × Option Planner × Option PlanOp
  | 0, w, pl => (w, some pl, none)
  | n + 1, w, pl =>
    match pl.stack with
    | [] =>
      if pl.trace + 1 < p.traces.length then
        let lv := targetLevel c w.span
        (w, some { trace := pl.trace + 1, stack := [], await := some (.visit lv) }, some (lv.step true .start))
      else (finishPlan w, none, none)
    | lv :: rest =>
      if beyond w lv then planGo r p c n w { pl with stack := [] }
      else
        match lv.needsMore with
        | some pos => (w, some { pl with await := some .more }, some (lv.step true pos))
        | none =>
          match lv.links with
          | [] => planGo r p c n (gapAt r p w pl.trace lv lv.remainder .noOrigin) { pl with stack := rest }
          | lc :: ls =>
            let q := takeLink r p w pl.trace lv lc
            let lv1 := { q.2.1 with links := ls }
            match q.2.2 with
            | none => planGo r p c n q.1 { pl with stack := lv1 :: rest }
            | some below =>
              if beyond q.1 below then planGo r p c n q.1 { pl with stack := [] }
              else (q.1, some { pl with stack := lv1 :: rest, await := some (.visit below) }, some (below.step true .start))

/-- Steps enough for `planGo` to come to its next PLAN STEP: one for each link and level in hand. -/
def stackFuel (ls : List Level) : Nat := (ls.map (fun l => l.links.length + 1)).sum + 2

/-- The answer of the PLAN STEP in hand: the target found retired (none), or the plan so far with the stack to go on from. A coil found
retired by a later step of its own is RETIRED in all that is left of its interval (log entry 61). -/
def planAnswer (r : Run) (p : Play) (w : Window) (pl : Planner) (a : PlanAnswer) : Option (Window × Planner) :=
  let on (w : Window) (st : List Level) : Option (Window × Planner) := some (w, { pl with stack := st, await := none })
  match pl.await, a with
  | some (.visit lv), none =>
    if lv.depth = 0 then none else on (gapAt r p w pl.trace lv lv.span .retired) pl.stack
  | some (.visit lv), some pc =>
    let q := visited r p w pl.trace lv pc
    on q.1 (q.2.toList ++ pl.stack)
  | some .more, none =>
    match pl.stack with
    | lv :: rest => if lv.depth = 0 then none else on (gapAt r p w pl.trace lv lv.remainder .retired) rest
    | [] => on w []
  | some .more, some pc =>
    match pl.stack with
    | lv :: rest => on w (lv.fill pc :: rest)
    | [] => on w []
  | none, _ => on w pl.stack

/-! ## The run header (R160, section 11.4) -/

/-- A record: type, size, contents (R201). -/
def record (type : Nat) (counted : Bool) (body : List Byte) : Rec :=
  { bytes := byteOf type :: byteOf (body.length + 2) :: body, counted := counted }

/-- Target handle and creation sequence of a run, absent for a line. -/
def RunTarget.ref : RunTarget → Option Ref
  | .coil r _ => some r
  | .line _ => none

def RunTarget.name : RunTarget → Option Name
  | .coil _ n => n
  | .line _ => none

/-- Target kind of a run header: 0 COIL, 1 COIL stale, 2 LINE. -/
def RunTarget.kind : RunTarget → Nat
  | .coil _ (some _) => 0
  | .coil _ none => 1
  | .line _ => 2

def runHeader (ch : Fin 4) (r : Run) (p : Play) (pr : Profile) : Rec :=
  record 1 false (
    [byteOf ch.1, byteOf r.kind.code, byteOf r.target.kind] ++ beOpt 1 (match r.target with | .line l => some l.1 | _ => none)
      ++ beOpt 2 (r.target.ref.map (·.handle)) ++ beOpt 4 (r.target.ref.map (·.seq)) ++ nameField r.target.name
      ++ beBytes 6 r.from_ ++ beBytes 6 r.end_ ++ beBytes 2 p.res ++ beBytes 4 p.bins ++ [boolByte r.clamped, byteOf p.profile.1,
        byteOf pr.encoding.code] ++ beInt 2 pr.gain ++ beInt 4 pr.offset ++ [byteOf pr.hold, byteOf p.traces.length]
      ++ p.traces.flatMap (fun t => [byteOf t.slot.1] ++ beBytes 4 t.dseq ++ [byteOf t.line, byteOf t.side.code, byteOf t.lane.code,
        byteOf t.reduction.code, byteOf t.quantity] ++ beBytes 4 t.unit))

/-! ## Halting (R146) -/

/-- Waiting read requests of a channel are withdrawn, and the outcome of a READ in progress for it is not wanted (R114). -/
def Archive.withdraw (a : Archive) (ch : Fin 4) (unwant : Bool) : Archive :=
  { a with
    requests := a.requests.filter (fun q => q.ch != ch)
    op := match a.op with
      | some (.read q b) => some (.read q (b && !(unwant && q.ch == ch)))
      | o => o }

/-- The profile of a playback run. -/
def State.profileOf (s : State) (p : Play) : Profile := s.profiles[p.profile]

def State.updRun (s : State) (ch : Fin 4) (f : Run → Run) : State := s.updChannel ch (fun c => { c with run := c.run.map f })

/-- Change the working part of a playback run. -/
def State.updPlay (s : State) (ch : Fin 4) (f : Play → Play) : State :=
  s.updRun ch (fun r => match r.body with | .play p => { r with body := .play (f p) } | _ => r)

/-- A halt takes the place of the one found before when its window or, in that window, its position is lower (R146 step 2). -/
def Halt.better (a : Halt) : Option Halt → Bool
  | none => true
  | some b => decide (a.win < b.win) || (a.win == b.win && decide (a.pos < b.pos))

/-- The spans of a window the fetcher still takes: all, or under a halt in that window those that start in a bin below it. -/
def fetchable (r : Run) (p : Play) (win : Nat) (x : Span) : Bool :=
  match p.halt with
  | some h => if h.win = win then decide (binOf r p x.target.lo < h.bin) else true
  | none => true

/-- What a halt leaves of a playback run (R146 steps 1 and 2). -/
def haltPlay (r : Run) (p : Play) (h : Halt) : Play :=
  let p1 := { p with halt := some h, planner := none, stopped := true, wins := p.wins.filter (fun w => decide (w.no ≤ h.win)) }
  { p1 with fetch := p.fetch.map (fun f =>
    if f.win = h.win then
      let keeps := match f.span with | some x => fetchable r p1 f.win x | none => true
      { f with span := if keeps then f.span else none, toRead := if keeps then f.toRead else [],
               more := if keeps then f.more else none, rest := f.rest.filter (fetchable r p1 f.win) }
    else f) }

/-- The span in hand is given up by a halt. -/
def haltDrops (r : Run) (p : Play) (h : Halt) : Bool :=
  match p.fetch with
  | some f => f.win == h.win && (match f.span with | some x => decide (h.bin ≤ binOf r p x.target.lo) | none => false)
  | none => false

/-- A HALT fault at position `pos` of window `win` (R146): under HALT the run halts, under CONTINUE the lowest position is kept,
one already set being lowered (log entry 64). A run that was to end TARGET RETIRED then ends HALTED (log entry 57). -/
def State.fault (s : State) (ch : Fin 4) (pos win : Nat) : State :=
  match s.channels[ch].run with
  | none => s
  | some r =>
    match r.body with
    | .walk _ => s
    | .play p =>
      let h : Halt := { pos := pos, bin := binOf r p pos, win := win }
      if !(s.profileOf p).halt then
        s.updRun ch (fun r => { r with firstFault := some (match r.firstFault with | none => pos | some q => min q pos) })
      else if h.better p.halt then
        let s1 := s.updRun ch (fun r => { r with
          firstFault := some pos, result := some .halted, planOp := none, kept := none, body := .play (haltPlay r p h) })
        if haltDrops r p h then { s1 with archive := s1.archive.withdraw ch true } else s1
      else s

/-! ## Fetching and binning (R138 to R141) -/

/-- Change the accumulator of a bin and trace; an accumulator not listed is cleared (R149). -/
def updAcc (k : Nat × Nat) (f : Acc → Acc) : List ((Nat × Nat) × Acc) → List ((Nat × Nat) × Acc)
  | [] => [(k, f {})]
  | (j, a) :: rest => if j = k then (j, f a) :: rest else (j, a) :: updAcc k f rest

def accAt (as : List ((Nat × Nat) × Acc)) (k : Nat × Nat) : Acc :=
  match as.find? (fun q => q.1 == k) with
  | some q => q.2
  | none => {}

/-- Bin the entries of a block for a DATA span (R141): `i` is the index of the next entry. -/
def binEntries (r : Run) (p : Play) (trace : Nat) (src : Ival) (chain : List Stage) (suspect : Bool) (b : ReadBlock) :
    (i : Nat) → List (Nat × BitVec 16) → List ((Nat × Nat) × Acc) → List ((Nat × Nat) × Acc)
  | _, [], as => as
  | i, e :: es, as =>
    let x := b.first + e.1
    let as1 :=
      if src.lo ≤ x ∧ x < src.hi then
        let t := pointUp chain x
        updAcc (binOf r p t, trace)
          (fun a => a.add { raw := e.2.toInt, pos := t, bseq := b.bseq, entry := i } (b.suspect || suspect)) as
      else as
    binEntries r p trace src chain suspect b (i + 1) es as1

def Play.updWin (p : Play) (no : Nat) (f : Window → Window) : Play :=
  { p with wins := p.wins.map (fun w => if w.no = no then f w else w) }

/-- Bin a block for the span in hand, and keep it in the reuse cache (R139, R140). -/
def Play.binBlock (r : Run) (p : Play) (win : Nat) (x : Span) (b : ReadBlock) : Play :=
  match x.kind with
  | .gap _ => p
  | .data src chain _ sus =>
    { p.updWin win (fun w => { w with accs := binEntries r p x.trace src chain sus b 0 b.entries w.accs }) with cache := some b }

/-- A gap the fetcher adds beside a span (R140): the image of the entry's coordinates. -/
def addedGap (x : Span) (e : Entry) : Option Ival :=
  match x.kind with
  | .gap _ => none
  | .data src chain _ _ => imageUp chain (src.cut { lo := e.first, hi := e.last + 1 })

/-- The gap joins the plan list after the spans of its trace and start (R140, R129, log entry 67). -/
def Play.addGap (p : Play) (win : Nat) (trace : Nat) (t : Ival) (g : GapReason) : Play :=
  p.updWin win (fun w => { w with
    plan := insertSpan { id := w.nextId, trace := trace, target := t, kind := .gap g } w.plan, nextId := w.nextId + 1 })

/-- The outcome of a READ the run still wants (R140). -/
def State.onOutcome (s : State) (ch : Fin 4) (e : Entry) (o : ReadOutcome) : State :=
  match s.channels[ch].run with
  | none => s
  | some r =>
    match r.body with
    | .walk _ => s
    | .play p =>
      match p.fetch with
      | none => s
      | some f =>
        match f.span with
        | none => s
        | some x =>
          match o with
          | .good b => s.updPlay ch (fun p => p.binBlock r f.win x b)
          | .readFault =>
            match addedGap x e with
            | none => s
            | some t => (s.updPlay ch (fun p => p.addGap f.win x.trace t .readFault)).fault ch t.lo f.win
          | .retired =>
            match addedGap x e with
            | none => s
            | some t => s.updPlay ch (fun p => p.addGap f.win x.trace t .noData)

/-- Requests of a channel waiting or being read (R114). -/
def Archive.inFlight (a : Archive) (ch : Fin 4) : Nat :=
  (a.requests.filter (fun q => q.ch == ch)).length
    + (match a.op with | some (.read q _) => if q.ch = ch then 1 else 0 | _ => 0)

/-- Some request of a channel is waiting or being read for its run. -/
def Archive.awaited (a : Archive) (ch : Fin 4) : Bool :=
  a.requests.any (fun q => q.ch == ch) || (match a.op with | some (.read q w) => w && q.ch == ch | _ => false)

/-- A fresh window over the bins from `nextBin` on (R127, R149). -/
def Play.newWindow (r : Run) (p : Play) : Window :=
  let b1 := min (p.nextBin + 256) p.bins
  { no := p.nextWin, bin0 := p.nextBin, bin1 := b1, span := binSpan r p p.nextBin b1, stage := .planning, plan := [], nextId := 0,
    frag := false, lost := [], accs := [] }

/-- The plan of a window for a LINE target (R134): one identity span for each trace. -/
def linePlan (p : Play) (w : Window) : Window :=
  finishPlan ((List.range p.traces.length).foldl (fun w t => { w with
    plan := w.plan ++ [{ id := w.nextId, trace := t, target := w.span, kind := .data w.span [identityStage w.span] none false }]
    nextId := w.nextId + 1 }) w)

/-- A final plan is put in place: the next window begins after it; its FRAGMENTED gaps are faults, found now
and at the lowest of their starts (R136, R137, R146, log entry 66). -/
def State.planDone (s : State) (ch : Fin 4) (w : Window) : State :=
  let s1 := s.updPlay ch (fun p => { p.updWin w.no (fun _ => w) with planner := none, nextBin := w.bin1, nextWin := w.no + 1 })
  match (w.lost.map (·.2)).min? with
  | none => s1
  | some f => s1.fault ch f w.no

/-- Begin the next window when a buffer is free and the window before has left PLANNING (R128). -/
def State.beginWindow (s : State) (ch : Fin 4) (r : Run) (p : Play) : Option State :=
  if p.planner.isSome || p.stopped || decide (p.bins ≤ p.nextBin) || decide (2 ≤ p.wins.length) then none
  else
    let w := p.newWindow r
    let s1 := s.updPlay ch (fun p => { p with wins := p.wins ++ [w] })
    match r.target with
    | .line _ => some (s1.planDone ch (linePlan p w))
    | .coil c _ =>
      let lv := targetLevel c w.span
      some ((s1.updPlay ch (fun p => { p with planner := some { trace := 0, stack := [], await := some (.visit lv) } })).updRun
        ch (fun r => { r with planOp := some (lv.step true .start) }))

/-- An index lookup of a run for a captured trace (R112), on the index as it stands: a slot of another definition sequence answers with no
entry and DONE. -/
def State.lookUp (s : State) (t : Trace) (src : Ival) (after : Nat) : List Entry × Option Nat :=
  if s.capture.slots[t.slot].dseq = t.dseq then indexLookup s.archive.index[t.slot] t.dseq src after else ([], none)

/-- One action of the fetcher (R128, R138, R139); none when it must wait. The next lookup of a span is made when every entry of those
before it has been asked for or taken from the cache (log entry 47). -/
def State.fetchStep (s : State) (ch : Fin 4) (r : Run) (p : Play) : Option State :=
  match p.fetch with
  | none =>
    match p.wins.find? (fun w => w.stage == .fetching) with
    | none => none
    | some w =>
      let data := w.plan.filter (fun x => match x.kind with | .data _ _ _ _ => fetchable r p w.no x | .gap _ => false)
      some (s.updPlay ch (fun p => { p with fetch := some { win := w.no, span := none, toRead := [], more := none, rest := data } }))
  | some f =>
    match f.span with
    | none =>
      match f.rest with
      | [] =>
        let s1 := s.updPlay ch (fun p => { p.updWin f.win (fun w => { w with stage := .ready }) with fetch := none })
        some (if f.win = 0 then s1.updRun ch (fun r => { r with recs := r.recs ++ [runHeader ch r p (s.profileOf p)] }) else s1)
      | x :: rest =>
        match x.kind, p.traces[x.trace]? with
        | .data src _ _ _, some t =>
          match s.lookUp t src 0 with
          | ([], _) => some (s.updPlay ch (fun p => { p.updWin f.win (fun w => { w with
              plan := w.plan.map (fun y => if y.id = x.id then { y with kind := .gap .noData } else y) }) with
              fetch := some { f with rest := rest } }))
          | (es, k) => some (s.updPlay ch (fun p => { p with fetch := some { f with span := some x, toRead := es, more := k, rest := rest } }))
        | _, _ => some (s.updPlay ch (fun p => { p with fetch := some { f with rest := rest } }))
    | some x =>
      match f.toRead, p.traces[x.trace]? with
      | [], some t =>
        match f.more, x.kind with
        | some k, .data src _ _ _ =>
          let q := s.lookUp t src k
          some (s.updPlay ch (fun p => { p with fetch := some { f with toRead := q.1, more := q.2 } }))
        | _, _ => spanRead s ch f
      | e :: es, some t =>
        match p.cache with
        | some b =>
          if b.page = e.page ∧ b.bseq = e.bseq ∧ b.dseq = e.dseq then
            some (s.updPlay ch (fun p => { p.binBlock r f.win x b with fetch := some { f with toRead := es } }))
          else ask s ch f t e es
        | none => ask s ch f t e es
      | _, none => spanRead s ch f
where
  /-- The span in hand is done when none of its reads is awaited (R138). -/
  spanRead (s : State) (ch : Fin 4) (f : Fetch) : Option State :=
    if s.archive.awaited ch then none
    else some (s.updPlay ch (fun p => { p with fetch := some { f with span := none, toRead := [], more := none } }))
  /-- Present the request for an entry, when the channel has fewer than two in hand (R114, R139). -/
  ask (s : State) (ch : Fin 4) (f : Fetch) (t : Trace) (e : Entry) (es : List Entry) : Option State :=
    if 2 ≤ s.archive.inFlight ch then none
    else
      let s1 := s.updPlay ch (fun p => { p with fetch := some { f with toRead := es } })
      some { s1 with archive := { s1.archive with requests := s1.archive.requests ++
        [{ ch := ch, slot := t.slot, entry := e, line := t.line, side := t.side, lane := t.lane }] } }

/-- Work a RUNNING playback run goes on with by itself: windows begun, spans fetched, until it must wait. -/
def State.playGo (ch : Fin 4) : (fuel : Nat) → State → State
  | 0, s => s
  | n + 1, s =>
    if s.channels[ch].state ≠ .running then s
    else
      match s.channels[ch].run with
      | none => s
      | some r =>
        match r.body with
        | .walk _ => s
        | .play p =>
          match s.beginWindow ch r p with
          | some s1 => State.playGo ch n s1
          | none =>
            match s.fetchStep ch r p with
            | some s1 => State.playGo ch n s1
            | none => s

/-- The target of a playback run found retired (R135): the window being planned is discarded, no later one is planned; at window 0
the header is the only record (R160). -/
def State.targetRetired (s : State) (ch : Fin 4) (r : Run) (p : Play) : State :=
  s.updRun ch (fun _ => { r with
    result := some .targetRetired
    recs := if p.nextWin = 0 then r.recs ++ [runHeader ch r p (s.profileOf p)] else r.recs
    body := .play { p with planner := none, stopped := true, wins := p.wins.filter (fun w => w.stage != .planning) } })

/-- The planner goes on from the answer of its PLAN STEP. -/
def State.planOn (s : State) (ch : Fin 4) (r : Run) (p : Play) (a : PlanAnswer) : State :=
  match r.target, p.planner, p.wins.find? (fun w => w.stage == .planning) with
  | .coil c _, some pl, some w =>
    match planAnswer r p w pl a with
    | none => s.targetRetired ch r p
    | some q =>
      let g := planGo r p c (stackFuel q.2.stack) q.1 q.2
      match g.2.1 with
      | none => s.planDone ch g.1
      | some pl' =>
        (s.updPlay ch (fun p => { p.updWin w.no (fun _ => g.1) with planner := some pl' })).updRun ch
          (fun r => { r with planOp := g.2.2 })
  | _, _, _ => s

end Sys2Proof.Machine
end

