-- ==== Sys2Proof/Machine/Emit.lean ====
section
/-! DEFINITION. The emitter (sections 6.5, 7.5, 7.6): markers, bin records, and the packing of records into stream frames. -/

namespace Sys2Proof.Machine

/-- Bytes of a frame's record area (R163). -/
def recordArea : Nat := 1000

/-! ## Bins (R142, R155 to R162) -/

/-- The counts of gaps by reason after one more (R164). -/
def tallyGap (gaps : Vector Nat 9) (g : GapReason) : Vector Nat 9 := updAt gaps (finOf 8 (g.code - 1)) (fun n => bump n)

/-- A GAP record (R161, section 11.4). -/
def gapRecord (trace : Nat) (g : GapReason) (x : Ival) : Rec :=
  record 3 false ([byteOf trace, byteOf g.code] ++ beBytes 6 x.lo ++ beBytes 6 x.hi)

/-- An ORIGIN record (R161, section 11.4). -/
def originRecord (trace : Nat) (a : Ancestor) : Rec :=
  record 4 false ([byteOf trace, 0#8] ++ nameField (some a.name) ++ beBytes 2 a.coil.handle ++ beBytes 4 a.coil.seq
    ++ beBytes 4 a.pos)

/-- What the emitter carries from marker to marker of one trace: records, gap counts, hold state, previous ancestor. -/
structure Marking where
  recs  : List Rec
  gaps  : Vector Nat 9
  held  : Held
  prior : Option Ref

/-- The marker of one span (R142, R156, R161). -/
def markSpan (m : Markers) (k : Marking) (x : Span) : Marking :=
  match x.kind with
  | .gap g =>
    { k with recs := if m = .none then k.recs else k.recs ++ [gapRecord x.trace g x.target], gaps := tallyGap k.gaps g,
             held := Held.cleared }
  | .data _ _ none _ => k
  | .data _ _ (some a) _ =>
    if k.prior = some a.coil then k
    else { k with recs := if m = .all then k.recs ++ [originRecord x.trace a] else k.recs, prior := some a.coil }

/-- The spans of a window that start in bin `b`, of one trace, in position order (R142). -/
def binSpans (r : Run) (p : Play) (w : Window) (b trace : Nat) : List Span :=
  w.plan.filter (fun x => x.trace == trace && binOf r p x.target.lo == b)

/-- A bin of one trace: its markers, then its value and the hold state after it. -/
def traceBin (pr : Profile) (r : Run) (p : Play) (w : Window) (gaps : Vector Nat 9) (trace : Nat) (t : Trace) : Marking × Sent :=
  let k := (binSpans r p w p.emitBin trace).foldl (markSpan pr.markers)
    { recs := [], gaps := gaps, held := p.held.getD trace Held.cleared, prior := p.prior.getD trace none }
  let v := settleBin pr t.reduction (accAt w.accs (p.emitBin, trace)) k.held
  ({ k with held := v.2 }, v.1)

/-- What the traces of a bin give together: markers, value bytes, gap counts, hold states, previous ancestors. -/
structure BinPart where
  marks  : List Rec
  values : List Byte
  gaps   : Vector Nat 9
  held   : List Held
  prior  : List (Option Ref)

/-- The traces of a bin in trace order, from trace `i` on. -/
def binTraces (pr : Profile) (r : Run) (p : Play) (w : Window) : (i : Nat) → List Trace → BinPart → BinPart
  | _, [], b => b
  | i, t :: ts, b =>
    let q := traceBin pr r p w b.gaps i t
    binTraces pr r p w (i + 1) ts
      { marks := b.marks ++ q.1.recs, values := b.values ++ q.2.bytes pr.encoding, gaps := q.1.gaps, held := b.held ++ [q.1.held],
        prior := b.prior ++ [q.1.prior] }

/-- The bin after the last the run emits: the halt's bin (R146), the end of what was planned when planning stopped (R135), or the
bin count. -/
def Play.endBin (p : Play) : Nat :=
  match p.halt with
  | some h => h.bin
  | none => if p.stopped then p.nextBin else p.bins

/-- Write the next bin of a READY window: its markers, then its record (R142, R162). -/
def formBin (pr : Profile) (r : Run) (p : Play) : Option Run :=
  if p.endBin ≤ p.emitBin then none
  else
    match p.wins.find? (fun w => w.stage == .ready && decide (w.bin0 ≤ p.emitBin) && decide (p.emitBin < w.bin1)) with
    | none => none
    | some w =>
      let b := binTraces pr r p w 0 p.traces { marks := [], values := [], gaps := r.gaps, held := [], prior := [] }
      some { r with
        recs := r.recs ++ b.marks ++ [record 2 true (beBytes 4 p.emitBin ++ b.values)]
        gaps := b.gaps
        body := .play { p with emitBin := p.emitBin + 1, held := b.held, prior := b.prior } }

/-! ## Packing (R163, R175) -/

/-- The frame the records at hand close by count or by size: its records and those after it. -/
def splitFrame (limit : Nat) : List Rec → (size count : Nat) → Option (List Rec × List Rec)
  | [], _, _ => none
  | x :: xs, size, count =>
    if recordArea < size + x.bytes.length then some ([], x :: xs)
    else
      let count' := if x.counted then count + 1 else count
      if x.counted && decide (limit ≤ count') then some ([x], xs)
      else (splitFrame limit xs (size + x.bytes.length) count').map (fun q => (x :: q.1, q.2))

/-- Records one frame may count: the profile's bins per frame, or the captured records per frame (R163, R175). -/
def Run.frameLimit (r : Run) (pr : Profile) : Nat :=
  match r.body with
  | .play _ => pr.bins
  | .walk w => w.perFrame

/-- The run writes no record after those at hand. -/
def Run.written (r : Run) : Bool :=
  match r.body with
  | .play p => decide (p.endBin ≤ p.emitBin)
  | .walk _ => r.result.isSome

/-- Records a frame holds at most, so that `fillFrame` has fuel for every one of them: a record has 8 bytes or more. -/
def frameFuel : Nat := 256

/-- The emitter writes bins as long as it can, until a frame closes (R142, R143, R163): on its count or its size, then the run's last if its
last record is in it and the run's end is known; or on the run's last record, or, when that is in a frame closed before, with no records. A
closed frame keeps its mark, and the emitter waits for it to be placed. -/
def fillFrame (pr : Profile) : (fuel : Nat) → Run → Run
  | 0, r => r
  | n + 1, r =>
    if r.closed.isSome then r
    else
      match splitFrame (r.frameLimit pr) r.recs 0 0 with
      | some (f, rest) => { r with recs := rest, closed := some (f, rest.isEmpty && r.written) }
      | none =>
        match (match r.body with | .play p => formBin pr r p | .walk _ => none) with
        | some r1 => fillFrame pr n r1
        | none =>
          if r.written && (!r.recs.isEmpty || decide (0 < r.frameNo)) then { r with recs := [], closed := some (r.recs, true) } else r

/-- The mark of a frame (R163): 0 FIRST, 1 MIDDLE, 2 LAST, 3 ONLY. -/
def frameMark (no : Nat) (last : Bool) : Nat :=
  if last then (if no = 0 then 3 else 2) else (if no = 0 then 0 else 1)

/-- A stream frame (section 11.4). -/
def streamFrame (ch : Fin 4) (r : Run) (recs : List Rec) (last : Bool) : StreamFrame :=
  { frame := { kind := 0xA0#8, channel := byteOf ch.1, tag := r.tag,
               payload := beBytes 4 r.frameNo ++ [byteOf (frameMark r.frameNo last), 0#8] ++ recs.flatMap (·.bytes) },
    recs := (recs.filter (·.counted)).length }

/-- The bins whose records are in placed frames. -/
def placedBins (r : Run) (p : Play) : Nat := p.emitBin - (r.recs.filter (·.counted)).length

/-- The windows whose last bin record is in a placed frame are done, and their buffers free (R128). Two windows whose bins together do not
close a frame keep both buffers, and the run goes no further (log entry 68). -/
def Run.freeWindows (r : Run) : Run :=
  match r.body with
  | .play p => { r with body := .play { p with wins := p.wins.filter (fun w => decide (placedBins r p < w.bin1)) } }
  | .walk _ => r

/-- The profile a run's frames are packed by; a lineage run reads none. -/
def State.packProfile (s : State) (r : Run) : Profile :=
  match r.body with
  | .play p => s.profileOf p
  | .walk _ => Profile.initial

/-- The emitter of a RUNNING channel writes the bins of its READY windows and closes its next frame. -/
def State.emitGo (s : State) (ch : Fin 4) : State := s.updRun ch (fun r => fillFrame (s.packProfile r) frameFuel r)

/-- Place a closed frame in its channel's slot; after the last one the channel is DRAINING (R122, R143). -/
def State.placeFrame (s : State) (ch : Fin 4) (r : Run) (recs : List Rec) (last : Bool) : State :=
  let f := streamFrame ch r recs last
  let s1 := s.updSlc (fun c => { c with slots := updAt c.slots ch (fun q => q ++ [f]) })
  let r1 := ({ r with frameNo := r.frameNo + 1, closed := none } : Run).freeWindows
  s1.updChannel ch (fun c =>
    if last then { c with state := .draining, run := some { r1 with result := some (r1.result.getD .complete) } }
    else { c with run := some r1 })

end Sys2Proof.Machine
end

