-- ==== Sys2Proof/Machine/Lineage.lean ====
section
/-! DEFINITION. Lineage runs (chapter 8): the walk, its records, and the commands PLAN_STEP, READ and STREAM_FRAME_PLACED, which
move a run of either sort on. -/

namespace Sys2Proof.Machine

/-- LINEAGE records a run writes at most (R174). -/
def lineageLimit : Nat := 4096

/-! ## Records (R165, R167) -/

/-- The lineage run header (R165, section 11.4). -/
def lineageHeader (ch : Fin 4) (r : Run) (w : Walk) : Rec :=
  record 5 false (
    [byteOf ch.1, byteOf r.kind.code, byteOf ((if r.target.name.isNone then 1 else 0) + (if r.clamped then 2 else 0)), byteOf w.depth]
      ++ beOpt 2 (r.target.ref.map (·.handle)) ++ beOpt 4 (r.target.ref.map (·.seq)) ++ nameField r.target.name
      ++ beBytes 6 r.from_ ++ beBytes 6 r.end_ ++ [byteOf w.perFrame])

inductive LineageKind where | link | scrap | retired
  deriving DecidableEq, Repr

def LineageKind.code : LineageKind → Nat
  | .link => 0
  | .scrap => 1
  | .retired => 2

/-- The fields of a LINEAGE record (R167). -/
structure Lineage where
  kind     : LineageKind
  depth    : Nat
  lane     : Lane
  line     : Nat
  reversed : Bool
  pending  : Bool
  suspect  : Bool
  deeper   : Bool := false
  far      : Option (Name × Ref)
  scrap    : Option Nat := none
  target   : Option Ival
  span     : Option Ival

/-- A LINEAGE record (section 11.4). -/
def Lineage.record (x : Lineage) : Rec :=
  Sys2Proof.Machine.record 6 true (
    [byteOf x.kind.code, byteOf x.depth, byteOf x.lane.code, byteOf x.line,
      byteOf ((if x.reversed then 1 else 0) + (if x.pending then 2 else 0) + (if x.suspect then 4 else 0)
        + (if x.deeper then 8 else 0)), 0#8]
      ++ nameField (x.far.map (·.1)) ++ beOpt 2 (x.far.map (·.2.handle)) ++ beOpt 4 (x.far.map (·.2.seq)) ++ beOpt 4 x.scrap
      ++ beOpt 6 (x.target.map (·.lo)) ++ beOpt 6 (x.target.map (·.hi)) ++ beOpt 4 (x.span.map (·.lo)) ++ beOpt 4 (x.span.map (·.hi)))

/-- A walk in hand: the run with its working part. -/
abbrev Walking := Run × Walk

/-- The walk ends with a result: nothing of it is left to do (R166, R174). -/
def endWalk (k : Walking) (res : RunResult) : Walking :=
  ({ k.1 with result := some res, planOp := none, kept := none }, { k.2 with stack := [], await := none })

/-- Write a LINEAGE record, counting PENDING and RETIRED ones (R175); past the limit the run ends TRUNCATED (R174). -/
def writeLineage (k : Walking) (x : Lineage) : Walking :=
  if lineageLimit ≤ k.2.records then endWalk k .truncated
  else
    let g1 := if x.pending then tallyGap k.1.gaps .pending else k.1.gaps
    let g2 := if x.kind = .retired then tallyGap g1 .retired else g1
    ({ k.1 with recs := k.1.recs ++ [x.record], gaps := g2 }, { k.2 with records := k.2.records + 1 })

/-! ## The walk (R166 to R173) -/

/-- More links of a level must be read before the next is taken: none left, or a REVERSED level of ANCESTRY (R166, R168). -/
def Walk.needsMore (w : Walk) (lv : Level) : Option Resume :=
  if lv.links.isEmpty || (w.up && lv.reversed) then lv.next else none

/-- A level with the links of an answer: DESCENT keeps the list order whatever the direction (R168, R171). -/
def Walk.fill (w : Walk) (lv : Level) (a : PlanCoil) : Level :=
  if w.up then lv.fill a else { lv with hasParents := a.hasParents, links := lv.links ++ a.links, next := a.next }

/-- Carry a part of a level of DESCENT up to the target by boundary maps, cut at each stage to the interval held at the coil above
(R172); `above` are the levels above, nearest first. -/
def descentTarget : (stages : List Stage) → (above : List Level) → Ival → Option Ival
  | st :: sts, lv :: lvs, x =>
    let y := (st.boundary x).cut lv.span
    if y.empty then none else descentTarget sts lvs y
  | _, _, x => if x.empty then none else some x

/-- The record of a link taken at a level, before any step. -/
def Level.linkRecord (lv : Level) (lc : LinkCopy) (kind : LineageKind) (target : Option Ival) : Lineage :=
  { kind := kind, depth := lv.depth + 1, lane := lc.link.lane, line := lc.link.line, reversed := flip lv.reversed lc.link.dir,
    pending := lc.link.parentSpan.isNone, suspect := lv.suspect || lc.link.suspect, far := lc.far, target := target, span := none }

/-- The record of a coil reached (R167, R169, R172): LINK or RETIRED, from its level as it will be pushed. -/
def Level.farRecord (lv : Level) (lc : LinkCopy) (kind : LineageKind) (target span : Option Ival) (suspect deeper : Bool) : Lineage :=
  { kind := kind, depth := lv.depth, lane := lc.link.lane, line := lc.link.line, reversed := lv.reversed, pending := false,
    suspect := suspect, deeper := deeper, far := lc.far, target := target, span := span }

/-- Go on below a FINAL link over an interval of the far coil: a PLAN STEP for it is presented (R169, R172), or the run ends
TRUNCATED, since every answer would give one more record (R174). -/
def goBelow (k : Walking) (lv : Level) (lc : LinkCopy) (st : Stage) (far : Ref) (x target : Ival) : Walking :=
  if lineageLimit ≤ k.2.records then endWalk k .truncated
  else
  let below := { lv.below lc.link st far x with via := some (lc, target) }
  ({ k.1 with planOp := some (below.step k.2.up .start) }, { k.2 with await := some (.visit below) })

/-- Take a link of ANCESTRY (R168). -/
def takeUp (k : Walking) (lv : Level) (lc : LinkCopy) : Walking :=
  let x := lc.link.childSpan.cut lv.span
  if x.empty then k
  else
    match imageUp lv.stages x with
    | none => k
    | some t =>
      match lc.link.stage, lc.far with
      | some st, some far =>
        let y := st.boundary x
        if y.empty then k else goBelow k lv lc st far.2 y t
      | _, _ => writeLineage k (lv.linkRecord lc .link (some t))

/-- Take a link of DESCENT (R171, R172); `above` are the levels above. -/
def takeDown (k : Walking) (lv : Level) (above : List Level) (lc : LinkCopy) : Walking :=
  let l := lc.link
  match l.parentSpan with
  | none =>
    if l.child.isNone then writeLineage k { lv.linkRecord lc .scrap none with scrap := some l.scrap }
    else writeLineage k { lv.linkRecord lc .link none with span := some l.childSpan }
  | some p =>
    let x := p.cut lv.span
    if x.empty then k
    else
      match descentTarget lv.stages above x with
      | none => k
      | some t =>
        match l.stage, lc.far with
        | some st, some far =>
          match st.image x with
          | none => k
          | some y => goBelow k lv lc st far.2 y t
        | _, _ => writeLineage k { lv.linkRecord lc .scrap (some t) with scrap := some l.scrap }

/-- Go on with the walk until a PLAN STEP is presented, a frame closes, or the walk ends. -/
def walkGo : (fuel : Nat) → Walking → Walking
  | 0, k => k
  | n + 1, k =>
    if k.1.planOp.isSome || k.1.result.isSome || k.1.closed.isSome || (splitFrame k.2.perFrame k.1.recs 0 0).isSome then k
    else
      match k.2.stack with
      | [] => endWalk k .complete
      | lv :: rest =>
        match k.2.needsMore lv with
        | some pos => ({ k.1 with planOp := some (lv.step k.2.up pos) }, { k.2 with await := some .more })
        | none =>
          match lv.links with
          | [] => walkGo n (k.1, { k.2 with stack := rest })
          | lc :: ls =>
            let k1 := (k.1, { k.2 with stack := { lv with links := ls } :: rest })
            walkGo n (if k.2.up then takeUp k1 lv lc else takeDown k1 lv rest lc)

/-- The record of a coil found retired (R166, R167): in DESCENT with its descendant span. -/
def Walk.retiredRecord (w : Walk) (lv : Level) : Option Lineage :=
  lv.via.map (fun v => lv.farRecord v.1 .retired (some v.2) (if w.up then none else some lv.span) lv.suspect false)

/-- The answer of a walk's PLAN STEP (R166, R169, R172). -/
def walkAnswer (k : Walking) (a : PlanAnswer) : Walking :=
  let k0 : Walking := (k.1, { k.2 with await := none })
  let retired (lv : Level) (k1 : Walking) : Walking :=
    match k.2.retiredRecord lv with
    | none => endWalk k1 .targetRetired
    | some x => writeLineage k1 x
  match k.2.await, a with
  | some (.visit lv), none => retired lv k0
  | some (.visit lv), some pc =>
    match lv.via with
    | none => (k.1, { k0.2 with stack := [k.2.fill lv pc] })
    | some v =>
      let limit := decide (k.2.depth ≤ lv.depth)
      let k1 := writeLineage k0 (lv.farRecord v.1 .link (some v.2) (some lv.span) (lv.suspect || pc.coil.flags.suspect)
        (limit && !pc.links.isEmpty))
      if limit || k1.1.result.isSome then k1 else (k1.1, { k1.2 with stack := k.2.fill lv pc :: k1.2.stack })
  | some .more, none =>
    match k.2.stack with
    | lv :: rest => retired lv (k.1, { k0.2 with stack := rest })
    | [] => k0
  | some .more, some pc =>
    match k.2.stack with
    | lv :: rest => (k.1, { k0.2 with stack := k.2.fill lv pc :: rest })
    | [] => k0
  | none, _ => k0

/-! ## Runs of either sort go on -/

/-- Work a RUNNING channel goes on with by itself. -/
def State.channelGo (s : State) (ch : Fin 4) : State :=
  if s.channels[ch].state ≠ .running then s
  else
    match s.channels[ch].run with
    | none => s
    | some r =>
      match r.body with
      | .play _ => (State.playGo ch 1024 s).emitGo ch
      | .walk w =>
        let k := walkGo (stackFuel w.stack) (r, w)
        (s.updRun ch (fun _ => { k.1 with body := .walk k.2 })).emitGo ch

/-- The answer of a PLAN STEP reaches its run. -/
def State.deliver (s : State) (ch : Fin 4) (a : PlanAnswer) : State :=
  match s.channels[ch].run with
  | none => s
  | some r =>
    match r.body with
    | .play p => s.planOn ch r p a
    | .walk w =>
      let k := walkAnswer (r, w) a
      s.updRun ch (fun _ => { k.1 with body := .walk k.2 })

/-- PLAN_STEP (R27, R135, R166): the arbiter performs the step a channel's planner presented; under HOLD the result is kept
(R144). -/
def execPlanStep (ch : Fin 4) (s : State) : Host.Outcome State Fault Refusal :=
  if s.grant ≠ some (.planner ch) then still s
  else
    match s.channels[ch].run.bind (·.planOp) with
    | none => still s
    | some op =>
      let a := s.table.planStep op
      let s1 := ({ s with table := { s.table with lastPlanner := ch } } : State).updRun ch (fun r => { r with planOp := none })
      if s.channels[ch].state = .held then settle (s1.updRun ch (fun r => { r with kept := some a }))
      else settle ((s1.deliver ch a).channelGo ch).flashKick

/-- READ (R114 to R116, R140): the flash ends the READ; its outcome is handled for the span that asked for it, or discarded. The channel
then presents its next request before the flash operation that follows is chosen (log entry 55). -/
def execRead (back : ReadBack) (s : State) : Host.Outcome State Fault Refusal :=
  match s.archive.op with
  | some (.read q wanted) =>
    let image := match back with
      | .asStored => readPage s.flash q.entry.page
      | .bytes b => b
    let o := verifyPage q image
    let s1 := { s with archive := { s.archive with op := none, cnt := s.archive.cnt.afterRead o } }
    let s2 := if wanted then s1.onOutcome q.ch q.entry o else s1
    settle (s2.channelGo q.ch).storeClear.clearAnswer.flashKick
  | _ => still s

/-- The Request Unit still holds the ACCEPTED of this channel's RUN (R180). -/
def ReqUnit.runWaits (u : ReqUnit) (ch : Fin 4) : Bool :=
  match u with
  | .done _ (some k) => k == ch
  | _ => false

/-- STREAM_FRAME_PLACED (R142, R143, R163): the emitter places the frame it has closed in a free stream slot, and goes on with the next. -/
def execStreamFramePlaced (ch : Fin 4) (s : State) : Host.Outcome State Fault Refusal :=
  if s.channels[ch].state ≠ .running ∨ 2 ≤ (s.slc.slots[ch]).length ∨ s.slc.unit.runWaits ch then still s
  else
    match s.channels[ch].run with
    | none => still s
    | some r =>
      match r.closed with
      | none => still s
      | some (recs, last) => settle ((s.placeFrame ch r recs last).channelGo ch).flashKick

end Sys2Proof.Machine
end

