-- ==== Sys2Proof/Machine/Operands.lean ====
section
/-! DEFINITION. The operand forms of the requests (section 11.3): the length each payload must have, and the values it carries, none
where a value lies outside its range (BAD VALUE). -/

namespace Sys2Proof.Machine

/-! ## Import items (section 11.3) -/

/-- One import item at the front of `p`, and what follows; none for an unknown type or a short payload. -/
def takeItemBytes (p : List Byte) : Option (ImportItem × List Byte) :=
  match field p 0 1 with
  | 1 =>
    if p.length < 7 then none
    else (takeName (p.drop 6)).map (fun q => (.coil (byteOf (field p 1 1)) (field p 2 4) q.1, q.2))
  | 2 =>
    if p.length < 20 then none
    else
      match takeNames 2 (p.drop 20) with
      | some ([c, d], rest) =>
        some (.link (byteOf (field p 1 1)) (byteOf (field p 2 1)) { lo := field p 4 4, hi := field p 8 4 }
          { lo := field p 12 4, hi := field p 16 4 } c d, rest)
      | _ => none
  | _ => none

/-- `n` import items that end exactly at the payload's end. -/
def takeItems : (n : Nat) → List Byte → Option (List ImportItem)
  | 0, p => if p.isEmpty then some [] else none
  | n + 1, p =>
    match takeItemBytes p with
    | none => none
    | some (i, rest) => (takeItems n rest).map (fun is => i :: is)

def importItems (p : List Byte) : Option (List ImportItem) := if p.length < 3 then none else takeItems (field p 2 1) (p.drop 3)

/-! ## Lengths (R179, section 11.3) -/

/-- The names from offset `off` on, their count `m` before them, end exactly at the payload's end. -/
def namesEnd (p : List Byte) (off m : Nat) : Bool :=
  match takeNames m (p.drop off) with
  | some (_, []) => true
  | _ => false

/-- LOOKUP and the COIL forms of SET TARGET: by name, by handle. -/
def coilFormLength (p : List Byte) : Bool :=
  match field p 0 1 with
  | 0 => decide (2 ≤ p.length) && p.length == 2 + field p 1 1
  | 1 => p.length == 7
  | _ => false

/-- The payload has the length its kind calls for, given its selecting codes and counts. -/
def lengthOk (kind : Byte) (p : List Byte) : Bool :=
  match kind.toNat with
  | 0x02 => p.length == 19
  | 0x03 => match field p 1 1 with
    | 0 => p.length == 3
    | 1 => p.length == 17
    | _ => false
  | 0x04 => p.length == 12
  | 0x05 => p.length == 2
  | 0x06 => p.length == 7
  | 0x07 => decide (14 ≤ p.length) && p.length == 14 + field p 13 1
  | 0x08 => p.length == 8
  | 0x09 => decide (16 ≤ p.length) && namesEnd p 16 (field p 15 1)
  | 0x0A => p.length == 1
  | 0x0B => p.length == 1
  | 0x0C => (importItems p).isSome
  | 0x0D => p.length == 4
  | 0x0E => decide (1 ≤ p.length) && coilFormLength p
  | 0x0F => p.length == 1
  | 0x10 => decide (1 ≤ p.length) && (if field p 0 1 = 2 then p.length == 2 else coilFormLength p)
  | 0x11 => p.length == 14
  | 0x12 => decide (1 ≤ p.length) && p.length == 1 + 2 * field p 0 1
  | 0x13 => p.length == 1
  | 0x14 => p.length == 1
  | 0x1D => p.length == 2
  | _ => p.isEmpty

/-- Requests of a channel carry 0 to 3, every other request 255 (section 9.3). -/
def channelOk (kind channel : Byte) : Bool :=
  let k := kind.toNat
  if 0x10 ≤ k ∧ k ≤ 0x1B then decide (channel.toNat ≤ 3) else channel == 0xFF#8

/-- The kinds of the request table (section 11.3). -/
def kindKnown (kind : Byte) : Bool := decide (1 ≤ kind.toNat) && decide (kind.toNat ≤ 0x1F)

/-! ## Values -/

/-- A number below `n + 1`. -/
def finAt (n k : Nat) : Option (Fin (n + 1)) := if k ≤ n then some (finOf n k) else none

/-- A setting of two values. -/
def flagAt (p : List Byte) (off : Nat) : Option Bool :=
  match field p off 1 with
  | 0 => some false
  | 1 => some true
  | _ => none

/-- DEFINE LINE (R47, R62). -/
def lineOf (p : List Byte) : Option (Fin 4 × LineDef) :=
  match finAt 3 (field p 0 1), flagAt p 1, flagAt p 4 with
  | some l, some en, some odd =>
    let d : LineDef :=
      { enabled := en, address := field p 2 1, rate := field p 3 1, parity := if odd then .odd else .none, pf := field p 5 4,
        pd := field p 9 4, lanes := field p 13 1, jump := field p 14 4, silence := field p 18 1 }
    if d.address ≤ 253 ∧ d.rate ≤ 3 ∧ d.pf ≤ 400000 ∧ d.pd ≤ 400000 ∧ 1 ≤ d.lanes ∧ d.lanes ≤ 16 ∧ 1000 ≤ d.jump
        ∧ d.jump ≤ 1000000 ∧ 5 ≤ d.silence then
      some (l, d)
    else none
  | _, _, _ => none

/-- What DEFINE GAUGE carries: the slot, DISCARD, and the fields when the slot becomes defined (R94). -/
structure GaugeForm where
  slot    : Fin 64
  discard : Bool
  fields  : Option Slot

/-- DEFINE GAUGE (R94 test 1, but for the lane against the line's lane count). Bits 1 to 7 of its flag byte are disregarded (log entry 42). -/
def gaugeOf (p : List Byte) : Option GaugeForm :=
  match finAt 63 (field p 0 1) with
  | none => none
  | some slot =>
    let discard := field p 2 1 % 2 == 1
    if field p 1 1 = 0 then some { slot := slot, discard := discard, fields := none }
    else
      match flagAt p 5, Lane.ofCode (field p 10 1) with
      | some dl, some lane =>
        let s : Slot :=
          { defined := true, dseq := 0, line := field p 3 1, gauge := field p 4 1, side := if dl then .delivery else .feed,
            offset := fieldInt p 6 4, lane := lane, quantity := field p 11 1, unit := field p 12 4, idle := field p 16 1,
            block := none, mark := none }
        if s.line ≤ 3 ∧ s.gauge ≤ 15 ∧ -400000 ≤ s.offset ∧ s.offset ≤ 400000 ∧ (s.side = .feed → s.lane = .whole)
            ∧ s.quantity ≤ 15 ∧ 1 ≤ s.idle then
          some { slot := slot, discard := discard, fields := some s }
        else none
      | _, _ => none

/-- DEFINE PROFILE (R159 test 1). -/
def profileOf (p : List Byte) : Option (Fin 16 × Profile) :=
  match finAt 15 (field p 0 1), flagAt p 1, flagAt p 9, finAt 2 (field p 11 1) with
  | some n, some u8, some halt, some m =>
    let bins := field p 10 1
    if 8 ≤ bins ∧ bins ≤ 64 then
      some (n, { encoding := if u8 then .u8 else .s16, gain := fieldInt p 2 2, offset := fieldInt p 4 4, hold := field p 8 1,
                 halt := halt, bins := bins, markers := match m with | 0 => .all | 1 => .gapsOnly | _ => .none })
    else none
  | _, _, _, _ => none

/-- SET NOTICES (R184). -/
def noticesOf (p : List Byte) : Option NoticeSettings :=
  match flagAt p 0, flagAt p 1, flagAt p 2, flagAt p 3, flagAt p 4, flagAt p 5, flagAt p 6 with
  | some a, some b, some c, some d, some e, some f, some g =>
    some { line := a, coil := b, genealogy := c, archive := d, capture := e, lineRepeat := f, archiveRepeat := g }
  | _, _, _, _, _, _, _ => none

/-- A position of an injected event: explicit, or NOW (none) with its field reserved (R88). -/
def positionAt (p : List Byte) (off : Nat) : Option (Option Nat) :=
  match flagAt p off with
  | some false => some (some (field p (off + 1) 6))
  | some true => some none
  | none => none

/-- INJECT ENTRY (R88). -/
def injectEntryOf (p : List Byte) : Option (Fin 4 × HostEvent) :=
  match finAt 3 (field p 0 1), positionAt p 1, orientOf (field p 8 1) with
  | some l, some pos, some o =>
    let name := p.drop 14
    if nameOk name then some (l, .entry pos o (field p 9 4) name) else none
  | _, _, _ => none

/-- INJECT TAIL (R88). -/
def injectTailOf (p : List Byte) : Option (Fin 4 × HostEvent) :=
  match finAt 3 (field p 0 1), positionAt p 1 with
  | some l, some pos => some (l, .tail pos)
  | _, _ => none

/-- INJECT CUT (R88), but for the next head against the cut. -/
def injectCutOf (p : List Byte) : Option (Fin 4 × HostEvent) :=
  match finAt 3 (field p 0 1), positionAt p 1, positionAt p 8, takeNames (field p 15 1) (p.drop 16) with
  | some l, some cut, some next, some (names, _) =>
    if names.length ≤ 16 ∧ names.all nameOk then some (l, .cut cut next names) else none
  | _, _, _, _ => none

/-- A coil named or referred to (R26, R123). -/
def lookKeyOf (p : List Byte) : Option LookKey :=
  if field p 0 1 = 0 then
    let name := p.drop 2
    if nameOk name then some (.name name) else none
  else
    let h := field p 1 2
    if h ≤ 16383 then some (.ref { handle := h, seq := field p 3 4 }) else none

/-- SET TARGET (R123). -/
def targetOf (p : List Byte) : Option Target :=
  if field p 0 1 = 2 then (finAt 3 (field p 1 1)).map .line
  else (lookKeyOf p).map (fun k => match k with | .name n => .name n | .ref r => .ref r)

/-- SET RANGE (R123): from, to, resolution. -/
def rangeOf (p : List Byte) : Option (Nat × Nat × Nat) :=
  let a := field p 0 6
  let b := field p 6 6
  let r := field p 12 2
  if a < b ∧ b - a ≤ 200000000 ∧ 1 ≤ r then some (a, b, r) else none

/-- One trace of SET TRACES at an offset. -/
def traceAt (p : List Byte) (off : Nat) : Option (Fin 64 × Reduction) :=
  match finAt 63 (field p off 1), Reduction.ofCode (field p (off + 1) 1) with
  | some s, some r => some (s, r)
  | _, _ => none

/-- SET TRACES (R123). -/
def tracesOf (p : List Byte) : Option (List (Fin 64 × Reduction)) :=
  let n := field p 0 1
  if 1 ≤ n ∧ n ≤ 4 then
    let ts := (List.range n).filterMap (fun i => traceAt p (1 + 2 * i))
    if ts.length = n then some ts else none
  else none

/-- The objects of READ DEFINITION (R182). -/
inductive DefObject where
  | line (l : Fin 4)
  | gauge (s : Fin 64)
  | profile (n : Fin 16)
  | channel (c : Fin 4)
  | notices
  deriving DecidableEq, Repr

def objectOf (p : List Byte) : Option DefObject :=
  let n := field p 1 1
  match field p 0 1 with
  | 0 => (finAt 3 n).map .line
  | 1 => (finAt 63 n).map .gauge
  | 2 => (finAt 15 n).map .profile
  | 3 => (finAt 3 n).map .channel
  | 4 => some .notices
  | _ => none

/-- The counter groups (R188). -/
inductive CounterGroup where
  | line (l : Fin 4)
  | capture
  | archive
  | link
  deriving DecidableEq, Repr

def groupOf (p : List Byte) : Option (CounterGroup × Bool) :=
  let g : Option CounterGroup := match field p 0 1 with
    | 4 => some .capture
    | 5 => some .archive
    | 6 => some .link
    | k => (finAt 3 k).map .line
  match g, flagAt p 1 with
  | some g, some z => some (g, z)
  | _, _ => none

end Sys2Proof.Machine
end

