-- ==== Sys2Proof/Machine/Link.lean ====
section
/-! DEFINITION. The Service Link Controller (chapter 9): the receiver, the transmitter, the notice timers, how the Request Unit takes
and checks a request, and the requests the link itself answers. -/

namespace Sys2Proof.Machine

/-! ## Receiver (R178) -/

/-- The receiver and the Request Unit work: from the moment start-up begins (R193, R194). -/
def State.linkUp (s : State) : Bool := !s.startUp.held && (s.startUp.ready || s.startUp.start.isSome)

def Slc.count (c : Slc) (f : LinkCounters → LinkCounters) : Slc := { c with cnt := f c.cnt }

/-- A body taken whole: CRC-16, then room in the receive buffer (R178). -/
def Slc.endBody (c : Slc) (body : List Byte) : Slc :=
  let n := body.length - 2
  let c1 := { c with rx := .hunt false }
  if (crc16 (body.take n)).toNat ≠ field body n 2 then c1.count (fun k => { k with checkFailures := bump k.checkFailures })
  else if 4 ≤ c.buffer.length then c1.count (fun k => { k with bufferFull := bump k.bufferFull })
  else
    { c1.count (fun k => { k with received := bump k.received }) with
      buffer := c.buffer ++ [{ kind := byteOf (field body 0 1), channel := byteOf (field body 1 1),
                               tag := BitVec.ofNat 16 (field body 2 2), payload := (body.take n).drop 4 }] }

/-- A byte in FRAME: the two length bytes, then the body (R178). -/
def Slc.frameByte (c : Slc) (got : List Byte) : Slc :=
  if got.length < 2 then { c with rx := .frame got }
  else
    let len := field got 0 2
    if len < 6 ∨ 1030 < len then
      ({ c with rx := .hunt false } : Slc).count (fun k => { k with lengthErrors := bump k.lengthErrors })
    else if got.length < 2 + len then { c with rx := .frame got }
    else c.endBody (got.drop 2)

/-- A byte at the receiver (R178). -/
def Slc.rxByte (c : Slc) (b : Byte) (stop : Bool) : Slc :=
  if !stop then ({ c with rx := .hunt false } : Slc).count (fun k => { k with charErrors := bump k.charErrors })
  else
    match c.rx with
    | .hunt saw => if saw && b == 0x5A#8 then { c with rx := .frame [] } else { c with rx := .hunt (b == 0xA5#8) }
    | .frame got => c.frameByte (got ++ [b])

/-- LINK_BYTE (R178). -/
def execLinkByte (b : Byte) (stopAtMark : Bool) (s : State) : Host.Outcome State Fault Refusal :=
  if s.linkUp then settle (s.updSlc (fun c => c.rxByte b stopAtMark)) else still s

/-- GAP_TIMEOUT (R178): more than 5 ms of idle line inside a frame. -/
def execGapTimeout (s : State) : Host.Outcome State Fault Refusal :=
  match s.slc.rx with
  | .frame _ =>
    if s.linkUp then
      settle (s.updSlc (fun c => ({ c with rx := .hunt false } : Slc).count (fun k => { k with gapTimeouts := bump k.gapTimeouts })))
    else still s
  | .hunt _ => still s

/-! ## Transmitter (R186, R191) -/

/-- What the end of a transmission counts, and the end of a run with its END REPORT (R164, R186, R191). -/
def State.sent (s : State) (j : TxJob) : State :=
  match j with
  | .reply _ => s.updSlc (fun c => c.count (fun k => { k with repliesSent := bump k.repliesSent }))
  | .notice _ => s.updSlc (fun c => c.count (fun k => { k with noticesSent := bump k.noticesSent }))
  | .stream ch _ n live =>
    let s1 := s.updSlc (fun c => c.count (fun k => { k with streamsSent := bump k.streamsSent }))
    if live then s1.updRun ch (fun r => { r with sentFrames := r.sentFrames + 1, sentRecs := r.sentRecs + n }) else s1
  | .endReport ch _ live =>
    let s1 := s.updSlc (fun c => c.count (fun k => { k with streamsSent := bump k.streamsSent }))
    if live then s1.updChannel ch (fun c => { c with state := .idle, run := none }) else s1

/-- FRAME_TRANSMITTED (R186): the transmitter is free, and the scheduler chooses the next frame. -/
def execFrameTransmitted (s : State) : Host.Outcome State Fault Refusal :=
  match s.slc.tx with
  | none => still s
  | some j => settle ((s.updSlc (fun c => { c with tx := none })).sent j)

/-! ## Notice timers (R184, R185) -/

/-- NOTICE_REPEAT (R185): the timer of an instance that holds expires; the repeat notice goes through R183. Its count has
no bound, and the notice carries its low 32 bits (log entry 69). -/
def execNoticeRepeat (k : Condition) (s : State) : Host.Outcome State Fault Refusal :=
  match s.slc.inst k with
  | none => still s
  | some i =>
    if i.timer && s.startUp.ready then
      let n := i.repeats + 1
      settle (s.updSlc (fun c =>
        (c.setInst k (some { i with repeats := n })).takeNotice i.notice.cls (noticeFrame (i.notice.payload (some n)))))
    else still s

/-- A mode of a condition class starts or stops the timer of an instance that holds (R185). -/
def Inst.withMode (rep : Bool) (i : Inst) : Inst := { i with timer := rep }

/-- SET NOTICES replaces the seven settings (R184, R185). -/
def Slc.setNotices (c : Slc) (n : NoticeSettings) : Slc :=
  { c with
    settings := n
    uncertain := c.uncertain.map (fun i => i.map (Inst.withMode n.lineRepeat))
    silent := c.silent.map (fun i => i.map (Inst.withMode n.lineRepeat))
    exhausted := c.exhausted.map (Inst.withMode n.archiveRepeat) }

/-! ## Taking a request (R178 to R180) -/

/-- The frame of a request. -/
def reqFrame (kind : Byte) (r : Req) : Frame := { kind := kind, channel := r.channel, tag := r.tag, payload := r.payload }

/-- The Request Unit takes the oldest frame of the receive buffer; with the buffer empty, one that arrives whole in this step (log
entry 14). None when the unit is not free or the frame is not the oldest. -/
def State.takeRequest (s : State) (f : Frame) : Option State :=
  if !s.linkUp || s.slc.unit != .free then none
  else
    match s.slc.buffer with
    | head :: rest => if head = f then some (s.updSlc (fun c => { c with buffer := rest })) else none
    | [] =>
      if f.payload.length ≤ 1024 then some (s.updSlc (fun c => c.count (fun k => { k with received := bump k.received })))
      else none

/-- The checks every request meets (R179). -/
def State.failedCheck (s : State) (f : Frame) : Option Code :=
  if !s.startUp.ready then some .starting
  else if !kindKnown f.kind then some .unknownKind
  else if !lengthOk f.kind f.payload then some .badLength
  else if !channelOk f.kind f.channel then some .badChannel
  else none

/-- Take a request, check it, and let its owning rule act (R179). -/
def State.request (s : State) (kind : Byte) (r : Req) (own : Frame → State → State) : Host.Outcome State Fault Refusal :=
  let f := reqFrame kind r
  match s.takeRequest f with
  | none => still s
  | some s1 =>
    match s1.failedCheck f with
    | some c => settle (s1.refuse f c)
    | none => settle (own f s1)

/-- Act on a value the payload carries, or refuse BAD VALUE. -/
def withValue {α : Type} (v : Option α) (f : Frame) (s : State) (act : α → State) : State :=
  match v with
  | none => s.refuse f .badValue
  | some a => act a

/-- UNKNOWN_KIND (R179). -/
def execUnknownKind (kind : Byte) (r : Req) (s : State) : Host.Outcome State Fault Refusal :=
  if kindKnown kind then still s else s.request kind r (fun _ s => s)

/-- REPLY_PLACED (R180): the reply that waited for room is placed, and the Request Unit is free. -/
def execReplyPlaced (s : State) : Host.Outcome State Fault Refusal :=
  match s.slc.unit with
  | .done reply _ =>
    if s.slc.replies.length < 8 then settle (s.updSlc (fun c => { c.place reply with unit := .free })) else still s
  | _ => still s

/-! ## IDENTIFY, SET NOTICES, POLL, READ COUNTERS (R181, R184, R187, R188) -/

/-- The family name. -/
def familyName : Name := [0x43#8, 0x61#8, 0x73#8, 0x76#8, 0x65#8, 0x6C#8]

/-- The IDENTITY payload (R181, section 11.3). -/
def identity (u : StartUp) : List Byte :=
  nameField (some familyName) ++ beBytes 2 4820 ++ [0x42#8, 4#8, 64#8, 4#8, 16#8] ++ beBytes 2 coilSlots ++ beBytes 2 linkSlots
    ++ beBytes 2 groupCount ++ [byteOf groupPages, byteOf u.straps.1, byteOf u.last.code]

/-- IDENTIFY (R181). -/
def execIdentify (r : Req) (s : State) : Host.Outcome State Fault Refusal :=
  s.request 0x01#8 r (fun f s => s.finish (replyTo f 0x83#8 (identity s.startUp)) none)

/-- SET_NOTICES (R184). -/
def execSetNotices (r : Req) (s : State) : Host.Outcome State Fault Refusal :=
  s.request 0x06#8 r (fun f s =>
    withValue (noticesOf f.payload) f s (fun n => (s.updSlc (fun c => c.setNotices n)).accept f))

/-- Status of a line in a POLL SUMMARY. -/
def Tracker.poll (t : Tracker) : List Byte :=
  [byteOf t.state.code, boolByte t.silent, byteOf t.map.length, byteOf t.exit.names.length]

/-- Status of a channel in a POLL SUMMARY. -/
def Channel.poll (c : Channel) : List Byte :=
  [byteOf c.state.code, byteOf (match c.run with | some r => r.kind.code | none => 0)]

/-- The POLL SUMMARY payload (R187, section 11.3). -/
def State.pollSummary (s : State) : List Byte :=
  boolByte s.startUp.ready :: (s.trackers.toList.flatMap Tracker.poll ++ s.channels.toList.flatMap Channel.poll
    ++ [byteOf ((if s.archive.exhausted then 1 else 0) + (if s.table.session.isSome then 2 else 0))]
    ++ beBytes 2 s.archive.usable ++ [byteOf s.archive.queue.length] ++ beBytes 2 s.table.coils.length
    ++ beBytes 2 s.table.links.length ++ beBytes 4 s.slc.masked ++ beBytes 4 s.slc.dropped)

/-- POLL (R187). -/
def execPoll (r : Req) (s : State) : Host.Outcome State Fault Refusal :=
  s.request 0x1C#8 r (fun f s =>
    (s.updSlc (fun c => { c with masked := 0, dropped := 0 })).finish (replyTo f 0x87#8 s.pollSummary) none)

def PortCounters.list (c : PortCounters) : List Nat :=
  [c.taken, c.passed, c.parityErrors, c.framingErrors, c.overruns, c.checkFailures, c.malformed, c.missed, c.breaks]

def TrackCounters.list (c : TrackCounters) : List Nat := [c.jumps, c.holds, c.uncertain, c.trackFaults, c.detached, c.lost]

def CaptureCounters.list (c : CaptureCounters) : List Nat :=
  [c.captured, c.undefinedGauge, c.belowZero, c.outOfOrder, c.closed, c.queueFull]

def ArchiveCounters.list (c : ArchiveCounters) : List Nat :=
  [c.stored, c.unindexed, c.dropped, c.lost, c.programFailures, c.erases, c.eraseFailures, c.retired, c.reads, c.readFaults,
    c.readsRetired]

def LinkCounters.list (c : LinkCounters) : List Nat :=
  [c.received, c.lengthErrors, c.gapTimeouts, c.charErrors, c.checkFailures, c.bufferFull, c.refusals, c.repliesSent,
    c.noticesSent, c.streamsSent]

/-- The counters of a group, in the order of R188. -/
def State.groupCounters (s : State) : CounterGroup → List Nat
  | .line l => s.ports[l].cnt.list ++ s.trackers[l].cnt.list
  | .capture => s.capture.cnt.list
  | .archive => s.archive.cnt.list
  | .link => s.slc.cnt.list

/-- Zero a group (R188). -/
def State.zeroGroup (s : State) : CounterGroup → State
  | .line l => (s.updPort l (fun p => { p with cnt := {} })).updTracker l (fun t => { t with cnt := {} })
  | .capture => { s with capture := { s.capture with cnt := {} } }
  | .archive => { s with archive := { s.archive with cnt := {} } }
  | .link => s.updSlc (fun c => { c with cnt := {} })

/-- READ_COUNTERS (R188). -/
def execReadCounters (r : Req) (s : State) : Host.Outcome State Fault Refusal :=
  s.request 0x1D#8 r (fun f s =>
    withValue (groupOf f.payload) f s (fun q =>
      let cs := s.groupCounters q.1
      let s1 := if q.2 then s.zeroGroup q.1 else s
      s1.finish (replyTo f 0x88#8 ([byteOf (field f.payload 0 1), byteOf cs.length] ++ cs.flatMap (beBytes 4))) none))

/-! ## Clearing (R148, R189, R190) -/

/-- The frame in transmission goes on, but its run is not its channel's any more. -/
def TxJob.orphan : TxJob → TxJob
  | .stream ch f n _ => .stream ch f n false
  | .endReport ch f _ => .endReport ch f false
  | j => j

/-- A channel ends its run without an END REPORT and takes default staged fields (R148). -/
def State.endRun (s : State) (ch : Fin 4) : State :=
  { s.updChannel ch (fun _ => Channel.initial) with archive := s.archive.withdraw ch true }

/-- Every channel is cleared, its slots emptied (R148, R189, R190). -/
def State.endRuns (s : State) : State :=
  (four.foldl State.endRun s).updSlc (fun c => { c with slots := Vector.replicate 4 [], tx := c.tx.map TxJob.orphan })

/-- LINK_CLEAR (R189). -/
def execLinkClear (r : Req) (s : State) : Host.Outcome State Fault Refusal :=
  s.request 0x1E#8 r (fun f s =>
    let s1 := s.endRuns
    let s2 := { s1 with table := { s1.table with session := none } }
    (s2.updSlc (fun c => { c with replies := [], notices := [], dropped := bump c.dropped c.notices.length })).accept f)

/-- CLEAR_ALL_DATA (R190): handed to the table, the trackers, the archive with capture, and the channels; answered when all have
applied it. -/
def execClearAllData (r : Req) (s : State) : Host.Outcome State Fault Refusal :=
  s.request 0x1F#8 r (fun f s =>
    let s1 := s.endRuns
    let s2 := { s1 with
      trackers := s1.trackers.map (fun (t : Tracker) => ({ t with clear := true } : Tracker))
      archive := { s1.archive with clear := true } }
    ((s2.updSlc (fun c => { c with unit := .clearing f false })).storeClear).flashKick)

/-- GT_CLEAR (R29): the Genealogy Table's part, one operation; the arbiter's pointers stay. -/
def execGtClear (s : State) : Host.Outcome State Fault Refusal :=
  match s.slc.unit with
  | .clearing f false =>
    if s.grant ≠ some .unit then still s
    else
      let t : Genealogy := { s.table with coils := [], links := [], nextSeq := 1, session := none }
      settle (State.updSlc { s with table := t } (fun c => { c with unit := .clearing f true })).clearAnswer
  | _ => still s

end Sys2Proof.Machine
end

