-- ==== Sys2Proof/Config.lean ====
section
/-! DEFINITION. What the manual leaves open as a value: constants without a body, of which nothing can be proved. -/

namespace Sys2Proof

/-- Where an odometer of 48 bits would be carried past 2^48 - 1 by an advance (R64 states no result there): the raw free
value, a function of the odometer before and of the advance. `Machine.advance` keeps of it only what law L1 allows, a
value not below the old odometer. Log entry 9. -/
opaque Config.odometerPast : Nat → Nat → Nat

end Sys2Proof
end

