-- ==== Sys2Proof/Machine/Ports.lean ====
section
/-! DEFINITION. The Line Ports (chapter 3): characters, idle events, frame checking, the hand-over order, and the commands
CHARACTER, IDLE_EVENT and SILENT. -/

namespace Sys2Proof.Machine

/-! ## Characters (R47, R48) -/

inductive CharClass where | break_ | framing | parity | good
  deriving DecidableEq, Repr

/-- Ones among the data bits, the flag and the parity bit. -/
def onesOf (data : Byte) (flag parity : Bool) : Nat :=
  ([0, 1, 2, 3, 4, 5, 6, 7].filter (fun i => data.getLsbD i)).length + flag.toNat + parity.toNat

/-- Class of a completed character, tested in the order of R48. -/
def classify (p : Parity) (data : Byte) (flag parity stop : Bool) : CharClass :=
  if data = 0#8 ∧ !flag ∧ (p = .none ∨ !parity) ∧ !stop then .break_
  else if !stop then .framing
  else if p = .odd ∧ onesOf data flag parity % 2 = 0 then .parity
  else .good

/-! ## Form of a frame (R55, R56) -/

/-- The fields of a well-formed frame lie in the ranges of R56 and section 11.2. -/
def frameFormOk : StationFrame → Bool
  | .position _ _ _ => true
  | .readings g _ st raws _ =>
    decide (g.toNat ≤ 15) && decide (1 ≤ raws.length) && decide (raws.length ≤ 8) && decide (1 ≤ st.toNat)
  | .entry _ _ _ name => nameOk name
  | .tail _ => true
  | .cut _ _ names =>
    decide (names.length ≤ 16) && names.all nameOk && decide (9 + names.length + (names.map List.length).sum ≤ 250)

/-- Read the payload of a frame kind; none when malformed (R56, section 11.2). -/
def parseStation (kind : Nat) (p : List Byte) : Option StationFrame :=
  let w (off : Nat) : BitVec 32 := BitVec.ofNat 32 (field p off 4)
  let checked (f : StationFrame) : Option StationFrame := if frameFormOk f then some f else none
  match kind with
  | 1 => if p.length = 12 then some (.position (w 0) (w 4) (w 8)) else none
  | 2 =>
    let n := field p 1 1
    if 2 ≤ p.length ∧ p.length = 12 + 2 * n then
      checked (.readings (byteOf (field p 0 1)) (w 2) (BitVec.ofNat 16 (field p 6 2))
        ((List.range n).map (fun i => BitVec.ofNat 16 (field p (8 + 2 * i) 2))) (w (8 + 2 * n)))
    else none
  | 3 =>
    match orientOf (field p 4 1), takeName (p.drop 9) with
    | some o, some (n, []) => checked (.entry (w 0) o (w 5) n)
    | _, _ => none
  | 4 => if p.length = 4 then some (.tail (w 0)) else none
  | 5 =>
    if p.length < 9 then none
    else
      match takeNames (field p 8 1) (p.drop 9) with
      | some (ns, []) => checked (.cut (w 0) (w 4) ns)
      | _ => none
  | _ => none

/-- Length and CRC-16 checks of R55 on a body of `count` characters. -/
def bodyOk (body : List Byte) (count : Nat) : Bool :=
  let len := field body 2 1
  decide (count ≤ 255) && decide (5 ≤ count) && decide (len ≤ 250) && count == len + 5
    && (crc16 (body.take (3 + len))).toNat == field body (3 + len) 2

/-- The item a good body becomes: a frame, or a malformed one with its kind and sequence number (R56). -/
def itemOf (body : List Byte) : Item :=
  let seq := byteOf (field body 1 1)
  match parseStation (field body 0 1) ((body.drop 3).take (field body 2 1)) with
  | some f => .frame seq f
  | none => .malformed (byteOf (field body 0 1)) seq

/-! ## Buffers and hand-over order (R53, R54) -/

def Item.isFrame : Item → Bool
  | .restart => false
  | _ => true

/-- Buffers that are not free: filling, waiting, in use (R53). -/
def State.buffersUsed (s : State) (l : Fin 4) : Nat :=
  let p := s.ports[l]
  (match p.cur with | some f => f.buffered.toNat | none => 0) + (p.order.filter Item.isFrame).length
    + (match s.trackers[l].work with | some w => w.fromPort.toNat | none => 0)

/-- A frame joins the hand-over order (R54): frames taken, the silence timer, and the end of SILENT (R71). -/
def State.join (s : State) (l : Fin 4) (it : Item) : State :=
  let s1 := s.updPort l (fun p => { p with order := p.order ++ [it], cnt :=
    { p.cnt with taken := bump p.cnt.taken,
                 malformed := (match it with | .malformed _ _ => bump p.cnt.malformed | _ => p.cnt.malformed) } })
  let s2 := s1.updTracker l (fun t => { t with silent := false, timer := true })
  if s.trackers[l].silent then (s2.endCondition (.silent l)).raise (lineNotice l 5 none) else s2

/-- Frames up to and including the restart mark of an order. -/
def upToMark : List Item → List Item
  | [] => []
  | it :: rest => if it = .restart then [it] else it :: upToMark rest

/-- The restart mark a break places: at the end, or, when one stands already, every frame behind it removed (R54). -/
def placeMark (order : List Item) : List Item :=
  if order.contains .restart then upToMark order else order ++ [.restart]

/-- A break in HUNT, TAKE or PASS (R52). -/
def Port.break_ (p : Port) : Port :=
  { p with rx := .hunt, cur := none, order := placeMark p.order, cnt := { p.cnt with breaks := bump p.cnt.breaks } }

/-- End of the frame in progress by a further address character (R49, R55): truncated. -/
def Port.truncate (p : Port) : Port :=
  match p.cur with
  | some f =>
    if f.buffered && !f.corrupt then { p with cur := none, cnt := { p.cnt with checkFailures := bump p.cnt.checkFailures } }
    else { p with cur := none }
  | none => p

/-- A good address character (R49): the frame in progress ends truncated; an own address begins a frame, which claims a buffer or
is an overrun (R53); another address is passed. -/
def State.addressChar (s : State) (l : Fin 4) (a : Byte) : State :=
  let s1 := s.updPort l Port.truncate
  if a.toNat = s.trackers[l].defn.address ∨ a = 255#8 then
    let free := decide (s1.buffersUsed l < 2)
    s1.updPort l (fun p => { p with
      rx := .take
      cur := some { buffered := free, body := [], count := 0, corrupt := false }
      cnt := if free then p.cnt else { p.cnt with overruns := bump p.cnt.overruns } })
  else s1.updPort l (fun p => { p with rx := .pass, cnt := { p.cnt with passed := bump p.cnt.passed } })

/-- Append a character to the frame in progress; beyond the 255th it is counted but not stored (R55). -/
def Filling.push (f : Filling) (b : Byte) (bad : Bool) : Filling :=
  if f.buffered then
    { f with body := if f.count < 255 then f.body ++ [b] else f.body, count := f.count + 1, corrupt := f.corrupt || bad }
  else f

def PortCounters.error (c : PortCounters) : CharClass → PortCounters
  | .parity => { c with parityErrors := bump c.parityErrors }
  | .framing => { c with framingErrors := bump c.framingErrors }
  | _ => c

/-- A character with a parity or framing error (R51, R53): counted, and in TAKE with a buffer appended as corrupt. -/
def Port.errored (p : Port) (k : CharClass) (b : Byte) : Port :=
  match p.rx, p.cur with
  | .take, some f => if f.buffered then { p with cur := some (f.push b true), cnt := p.cnt.error k } else p
  | _, _ => { p with cnt := p.cnt.error k }

/-- A character that completes at an open receiver, by its class (R49, R51, R52). -/
def State.classed (s : State) (l : Fin 4) (k : CharClass) (data : Byte) (flag : Bool) : State :=
  match k with
  | .break_ => s.updPort l Port.break_
  | .good =>
    if flag then s.addressChar l data
    else s.updPort l (fun p => match p.rx with
      | .take => { p with cur := p.cur.map (fun f => f.push data false) }
      | _ => p)
  | k => s.updPort l (fun p => p.errored k data)

/-- A character has completed: the bus is not idle, and one that begins after it meets no earlier change of settings. -/
def State.completed (s : State) (l : Fin 4) : State := s.updPort l (fun p => { p with idleArmed := true, cuts := [] })

/-- A character in whose reception no setting of the port changed, at the receiver as it stands (R48, R49). -/
def State.wholeChar (s : State) (l : Fin 4) (data : Byte) (flag parity stop : Bool) : State :=
  match s.ports[l].rx with
  | .off => s
  | .settling => s
  | _ => s.classed l (classify s.trackers[l].defn.parity data flag parity stop) data flag

/-- CHARACTER (R48, R49, R51 to R53). `changes` tells how many changes of the port's settings, but for those made while it is not enabled, fell in
the character's reception; one that began before a change completes under the parity it began under and is only counted, where its port counted characters then (R60). -/
def execCharacter (line : Fin 4) (data : Byte) (flag parity stop : Bool) (changes : Nat) (s : State) :
    Host.Outcome State Fault Refusal :=
  if !s.startUp.ready then still s
  else
    match changes with
    | 0 => settle ((s.wholeChar line data flag parity stop).completed line)
    | n + 1 =>
      match (s.ports[line]).cuts[n]? with
      | none => still s
      | some none => settle (s.completed line)
      | some (some par) =>
        settle ((s.updPort line (fun p => { p with cnt := p.cnt.error (classify par data flag parity stop) })).completed line)

/-- The frame in progress ends by an idle event: the checks of R55 and R56, and the hand-over order. -/
def State.endFrame (s : State) (l : Fin 4) : State :=
  let s1 := s.updPort l (fun p => { p with cur := none, rx := .hunt })
  match s.ports[l].cur with
  | none => s1
  | some f =>
    if !f.buffered || f.corrupt then s1
    else if bodyOk f.body f.count then s1.join l (itemOf f.body)
    else s1.updPortCnt l (fun c => { c with checkFailures := bump c.checkFailures })

/-- IDLE_EVENT (R50, R60): once for each idle period; it settles a port, ends a frame, or changes nothing. -/
def execIdleEvent (line : Fin 4) (s : State) : Host.Outcome State Fault Refusal :=
  let p := s.ports[line]
  if !s.startUp.ready || !p.idleArmed || p.rx = .off then still s
  else
    let s1 := s.updPort line (fun p => { p with idleArmed := false, cuts := [] })
    match p.rx with
    | .take => settle (s1.endFrame line)
    | .hunt => settle s1
    | _ => settle (s1.updPort line (fun p => { p with rx := .hunt }))

/-- SILENT (R71, R92): the silence timer expires, the line is SILENT, and the notice SILENT is raised. On a line that is SILENT already the
condition holds on: the notice is raised again under REPEAT, and under ONCE nothing further is raised (R185, log entry 19). -/
def execSilent (line : Fin 4) (s : State) : Host.Outcome State Fault Refusal :=
  if s.startUp.ready && s.trackers[line].timer then
    let s1 := s.updTracker line (fun t => { t with silent := true, timer := false })
    settle (if s.trackers[line].silent then s1.raiseHeld (.silent line) (lineNotice line 4 none) else s1.raise (lineNotice line 4 none))
  else still s

/-! ## What a tracker takes (R54, R58) -/

/-- The Request Unit waits for this line's tracker to be between items; it comes before the next port item (R88). -/
def ReqUnit.wants (u : ReqUnit) (l : Fin 4) : Bool :=
  match u with
  | .line _ k _ => k == l
  | _ => false

/-- The tracker is between two items. -/
def State.between (s : State) (l : Fin 4) : Bool := s.startUp.ready && s.trackers[l].work.isNone && !s.trackers[l].clear

/-- The tracker takes an item from its port: the oldest of the hand-over order, or, when the order is empty and the receiver is in
HUNT, one that arrives whole in this step (log entry 14). None when it cannot be taken. -/
def State.takeItem (s : State) (l : Fin 4) (it : Item) : Option State :=
  if !s.between l || s.slc.unit.wants l || s.trackers[l].state = .undefined then none
  else
    let arrives : Bool := match it with | .frame _ f => frameFormOk f | _ => true
    match s.ports[l].order with
    | head :: rest => if head = it then some (s.updPort l (fun p => { p with order := rest })) else none
    | [] =>
      if s.ports[l].rx = .hunt ∧ arrives then
        let s1 := match it with
          | .restart => s.updPort l Port.break_
          | _ => s.join l it
        some (s1.updPort l (fun p => { p with order := [] }))
      else none

end Sys2Proof.Machine
end

