-- ==== Sys2Proof/Machine/Tracker.lean ====
section
/-! DEFINITION. The Line Trackers (chapter 4): odometers, line states, the track map, crossings, cuts, the results of genealogy
operations, and the commands a tracker takes. An item that must wait at the arbiter leaves its remaining steps in `Work`. -/

namespace Sys2Proof.Machine

/-! ## Counts and coordinates (R64, R65) -/

/-- 2^32, the modulus of station counts. -/
def countMod : Nat := 4294967296

/-- Forward distance from `b` to `c` (R64). -/
def countGap (b c : Nat) : Nat := (c + countMod - b) % countMod

/-- An odometer advance (R64). Past 2^48 - 1 the result is a free value not below the old odometer (law L1, log entry 9). -/
def advance (o d : Nat) : Nat :=
  if o + d < 2 ^ 48 then o + d else o + Config.odometerPast o d % (2 ^ 48 - o)

inductive CountEffect where | based | same | moved | jump | hold
  deriving DecidableEq, Repr

/-- The odometer rule (R64), and the setting of an absent base (R66): new odometer, new base, effect. -/
def applyCount (o : Nat) (base : Option Nat) (limit c : Nat) : Nat × Nat × CountEffect :=
  match base with
  | none => (o, c, .based)
  | some b =>
    let d := countGap b c
    if d = 0 then (o, b, .same)
    else if d < 2147483648 then (if d ≤ limit then (advance o d, c, .moved) else (o, c, .jump))
    else (o, b, .hold)

/-- The coordinate of a count against the odometer and base after it was applied (R65). -/
def coordOf (o b c : Nat) : Nat :=
  let d := countGap b c
  if d < 2147483648 then o + d else o - countGap c b

def Tracker.odo (t : Tracker) : Side → Nat
  | .feed => t.feed
  | .delivery => t.delivery

def Tracker.base (t : Tracker) : Side → Option Nat
  | .feed => t.feedBase
  | .delivery => t.deliveryBase

/-- The coordinate a count would have once applied; used to check an item before any count of it is applied (R72). -/
def Tracker.preview (t : Tracker) (sd : Side) (c : Nat) : Nat :=
  let r := applyCount (t.odo sd) (t.base sd) t.defn.jump c
  coordOf r.1 r.2.1 c

/-! ## Discontinuities and line states (R66 to R70) -/

/-- Suspect marks of a discontinuity (R68). -/
def Tracker.suspectAll (t : Tracker) : Tracker :=
  { t with map := t.map.map (fun g => { g with suspect := true }),
           exit := { t.exit with suspect := t.exit.suspect || !t.exit.names.isEmpty } }

/-- The marks and the notice of a discontinuity that leaves the line's state as it is (R68): its reason is DISCONTINUITY. -/
def State.discontinuityHere (s : State) (l : Fin 4) (cause : Nat) : State :=
  (s.updTracker l Tracker.suspectAll).raise (lineNotice l 2 (some cause))

/-- A discontinuity (R68); the cause is coded 0 GAP, 1 JUMP, 2 MALFORMED, 3 RESTART. -/
def State.discontinuity (s : State) (l : Fin 4) (cause : Nat) : State :=
  let was := s.trackers[l].state
  let s1 := s.updTracker l (fun t => { t.suspectAll with state := .uncertain })
  if was = .uncertain then s1.raise (lineNotice l 2 (some cause))
  else (s1.updTrackCnt l (fun c => { c with uncertain := bump c.uncertain })).raise (lineNotice l 1 (some cause))

/-- Counts of the line are trusted or suspect, that is the line is TRACKING or UNCERTAIN. -/
def Tracker.counting (t : Tracker) : Bool := t.state == .tracking || t.state == .uncertain

/-- A discontinuity that arises only in TRACKING and UNCERTAIN (R72). -/
def State.discontinuityIf (s : State) (l : Fin 4) (cause : Nat) : State :=
  if s.trackers[l].counting then s.discontinuity l cause else s

/-- A sequence gap (R57, R68). One met in WAITING makes its marks and raises its notice, and the line stays WAITING, as R67 gives (log
entry 53). -/
def State.gapFound (s : State) (l : Fin 4) : State :=
  if s.trackers[l].state = .waiting then s.discontinuityHere l 0 else s.discontinuityIf l 0

/-- The sequence check (R57). -/
def State.seqCheck (s : State) (l : Fin 4) (seq : Byte) : State :=
  let last := s.trackers[l].lastSeq
  let s1 := s.updTracker l (fun t => { t with lastSeq := some seq.toNat })
  match last with
  | none => s1
  | some n =>
    let missed := (seq.toNat + 512 - n - 1) % 256
    if missed = 0 then s1
    else (s1.updPortCnt l (fun c => { c with missed := bump c.missed missed })).gapFound l

/-- Apply one count of an item (R64, R66). -/
def State.takeCount (s : State) (l : Fin 4) (sd : Side) (c : Nat) : State :=
  let t := s.trackers[l]
  let r := applyCount (t.odo sd) (t.base sd) t.defn.jump c
  let s1 := s.updTracker l (fun t => match sd with
    | .feed => { t with feed := r.1, feedBase := some r.2.1 }
    | .delivery => { t with delivery := r.1, deliveryBase := some r.2.1 })
  match r.2.2 with
  | .jump => (s1.updTrackCnt l (fun c => { c with jumps := bump c.jumps })).discontinuityIf l 1
  | .hold => s1.updTrackCnt l (fun c => { c with holds := bump c.holds })
  | _ => s1

/-- The first item carrying a count ends WAITING (R66). -/
def State.leaveWaiting (s : State) (l : Fin 4) : State :=
  let t := s.trackers[l]
  if t.state = .waiting then
    if t.map.isEmpty && t.exit.names.isEmpty then s.updTracker l (fun t => { t with state := .tracking })
    else s.discontinuity l 3
  else s

/-- Return from UNCERTAIN to TRACKING (R69). -/
def State.restore (s : State) (l : Fin 4) : State :=
  if s.trackers[l].state = .uncertain then
    ((s.updTracker l (fun t => { t with state := .tracking })).endCondition (.uncertain l)).raise (lineNotice l 3 none)
  else s

/-- The line restart (R70): bases, pair and last sequence cleared, WAITING, the line's open blocks closed. -/
def State.lineRestart (s : State) (l : Fin 4) : State :=
  let s1 := s.updTracker l (fun t => { t with
    feedBase := none, deliveryBase := none, pair := none, lastSeq := none, state := .waiting })
  (s1.endCondition (.uncertain l)).closeSlots (s1.slotsOf l)

/-! ## The track map and its steps (R73 to R81) -/

/-- Change segment `i` of the map. -/
def State.updSeg (s : State) (l : Fin 4) (i : Nat) (f : Segment → Segment) : State :=
  s.updTracker l (fun t => { t with map := t.map.modify i f })

/-- A segment with no coil record to speak for (R73, R76). -/
def State.detach (s : State) (l : Fin 4) (i : Nat) : State :=
  (s.updSeg l i (fun g => { g with fault := .detached, coil := none })).updTrackCnt l (fun c => { c with detached := bump c.detached })

/-- Index of the last segment. -/
def Tracker.lastIx (t : Tracker) : Nat := t.map.length - 1

/-- The leaving check (R81). -/
def leaving (hx : Nat) : List Segment → List Segment
  | [] => []
  | g :: gs =>
    match g.dt with
    | some d => if d ≤ hx then leaving hx gs else g :: gs
    | none => g :: gs

/-- The tracker after the leaving check, which follows every item (R74, R81). -/
def Tracker.left (t : Tracker) : Tracker :=
  match t.exit.head with
  | none => t
  | some hx => { t with map := leaving hx t.map }

/-- A head due to cross (R78). -/
def Tracker.headDue (t : Tracker) (g : Segment) : Bool := g.dh.isNone && decide (g.fh + t.defn.pf ≤ t.feed)

/-- A tail due to cross (R78). -/
def Tracker.tailDue (t : Tracker) (g : Segment) : Bool :=
  g.dt.isNone && (match g.ft with | none => false | some f => decide (f + t.defn.pf ≤ t.feed))

/-- The crossing coordinate of a feed coordinate (R42, R43, R78), the sum whole also above 2^48 - 1 (log entry 73). -/
def Tracker.crossAt (t : Tracker) (f : Nat) : Nat := crossing t.pair t.feed t.delivery (f + t.defn.pf) + t.defn.pd

/-- The LINE notice TRACK FAULT, naming the coil from its record (R80, R92; log entry 15); with no coil to name, name and coil are absent
(log entry 54). -/
def State.trackFaultNotice (s : State) (l : Fin 4) (r : Option Ref) : Notice :=
  { lineNotice l 6 none with name := (r.bind s.table.current).map (·.name), coil := r }

/-- Steps 4 and 5 of R74: crossings of the eight possible segments in map order, head before tail; then the pair, then leaving. -/
def crossTasks : List Task :=
  [.crossHead 0, .crossTail 0, .crossHead 1, .crossTail 1, .crossHead 2, .crossTail 2, .crossHead 3, .crossTail 3,
   .crossHead 4, .crossTail 4, .crossHead 5, .crossTail 5, .crossHead 6, .crossTail 6, .crossHead 7, .crossTail 7]

/-- The last steps of an item: crossings when the feed odometer moved or a feed mark was set (R78), the previous pair when the item
carried counts, the leaving check. -/
def lastTasks (moved counts : Bool) : List Task :=
  (if moved then crossTasks else []) ++ (if counts then [.keepPair] else []) ++ [.leave]

/-- What a step of an item leaves of its tracker, the operation it presents with the segment concerned, and the TRACK FAULT it finds,
with the segment's coil when it has one. -/
structure Stepped where
  tracker : Tracker
  op      : Option (TrackOp × Nat)
  fault   : Option (Option Ref)

/-- A step that presents nothing. -/
def Tracker.plain (t : Tracker) : Stepped := { tracker := t, op := none, fault := none }

def Tracker.modSeg (t : Tracker) (i : Nat) (f : Segment → Segment) : Tracker := { t with map := t.map.modify i f }

/-- A segment whose figures lie outside R80's bounds at its tail crossing: TRACK FAULT, and DROP PENDING for its coil; a segment that
never had a coil has no link to drop (log entry 54). -/
def Tracker.trackFault (t : Tracker) (i : Nat) (r : Option Ref) : Stepped :=
  { tracker := { t.modSeg i (fun g => { g with fault := .trackFault }) with
      cnt := { t.cnt with trackFaults := bump t.cnt.trackFaults } }
    op := r.map (fun q => (.dropPending q, i))
    fault := some r }

/-- Segment `i` with feed tail `ft` crosses with its tail (R78, R79, R80). One without fault takes its D_t with the result of FINALIZE
LINKS, so that a crossing whose FINALIZE LINKS is lost is still due (R93). One that a RESET left without a coil has no length either, and is
a track fault. -/
def Tracker.crossTail (t : Tracker) (i : Nat) (g : Segment) (ft : Nat) : Stepped :=
  let dt := t.crossAt ft
  let dh := g.dh.getD dt
  let t1 := t.modSeg i (fun g => { g with dt := some dt })
  match g.fault with
  | .none =>
    match g.coil, g.length with
    | some r, some len =>
      if dt = dh ∨ 200000000 < dt - dh ∨ 200000000 < ft - g.fh then t1.trackFault i (some r)
      else { t.plain with op := some (.finalize r g.orient g.fh ft dh dt len g.suspect, i) }
    | r, _ => t1.trackFault i r
  | _ => t1.plain

/-- A step of an item at its tracker. A last segment without a coil, DETACHED or left so by a RESET, is closed with no operation (R76, log
entry 54). -/
def Tracker.task (t : Tracker) (k : Task) : Stepped :=
  match k with
  | .closeLast ft =>
    let i := t.lastIx
    match t.map[i]? with
    | none => t.plain
    | some g =>
      let t1 := t.modSeg i (fun g => { g with ft := some ft })
      match g.coil with
      | some r => { t1.plain with op := some (.closeEntry r ft, i) }
      | none => (if ft = g.fh then { t1 with map := t1.map.dropLast } else t1).plain
  | .place orient fh declared name =>
    { ({ t with map := t.map ++
          [{ coil := none, orient := orient, length := none, fh := fh, ft := none, dh := none, dt := none, suspect := false,
             fault := .none }] } : Tracker).plain with
      op := some (.enterCoil name orient fh declared, t.map.length) }
  | .make child scraps => { t.plain with op := some (.makeChild child scraps, 0) }
  | .setExit head names =>
    ({ t with exit := { head := some head, names := names, suspect := t.state == .uncertain } } : Tracker).plain
  | .crossHead i =>
    match t.map[i]? with
    | none => t.plain
    | some g => (if t.headDue g then t.modSeg i (fun g => { g with dh := some (t.crossAt g.fh) }) else t).plain
  | .crossTail i =>
    match t.map[i]? with
    | none => t.plain
    | some g =>
      match g.ft with
      | none => t.plain
      | some ft => if t.tailDue g then t.crossTail i g ft else t.plain
  | .drop i =>
    match t.map[i]? with
    | none => t.plain
    | some g =>
      match g.coil, g.fault, g.dh, g.dt with
      | some r, .none, some _, none => { t.plain with op := some (.dropPending r, i) }
      | _, _, _, _ => t.plain
  | .removeLast => ({ t with map := t.map.dropLast } : Tracker).plain
  | .keepPair => ({ t with pair := some (t.feed, t.delivery) } : Tracker).plain
  | .leave => t.left.plain
  | .emptyMap =>
    ({ t with map := [], exit := { head := some t.delivery, names := [], suspect := false } } : Tracker).plain

/-- A step of an item: the state after it, with the notice of a TRACK FAULT, and the operation it presents. -/
def State.task (s : State) (l : Fin 4) (k : Task) : State × Option (TrackOp × Nat) :=
  let r := s.trackers[l].task k
  let s1 := s.updTracker l (fun _ => r.tracker)
  (match r.fault with
    | none => s1
    | some q => s1.raise (s.trackFaultNotice l q), r.op)

/-- The item is finished: its buffer is free, and a request that waited for it is answered ACCEPTED (R88, R90). -/
def State.itemDone (s : State) (l : Fin 4) (fromPort : Bool) : State :=
  let s1 := s.updTracker l (fun t => { t with work := none })
  if fromPort then s1
  else
    match s1.slc.unit with
    | .event f k => if k = l then s1.accept f else s1
    | _ => s1

/-- Run the steps of an item until one presents an operation, which then waits at the arbiter (R74). -/
def State.runTasks (s : State) (l : Fin 4) (fromPort : Bool) : List Task → State
  | [] => s.itemDone l fromPort
  | k :: ks =>
    let r := s.task l k
    match r.2 with
    | none => State.runTasks r.1 l fromPort ks
    | some (op, i) => r.1.updTracker l (fun t => { t with work := some { op := op, presented := true, seg := i, todo := ks, fromPort := fromPort } })

/-! ## Tracking events (R75, R77, R83 to R87) -/

/-- What an ENTRY at feed coordinate `f` does to the map (R75): the steps before the new segment is placed, or the refusal code. -/
def entryCheck (map : List Segment) (f : Nat) : Except Code (List Task) :=
  match map.getLast? with
  | none => .ok []
  | some g =>
    match g.ft with
    | none =>
      if f = g.fh then .ok [.closeLast f]
      else if f < g.fh then .error .order
      else if map.length < 8 then .ok [.closeLast f] else .error .noRoom
    | some ft => if f < ft then .error .order else if map.length < 8 then .ok [] else .error .noRoom

/-- A TAIL at feed coordinate `f` (R77). -/
def tailCheck (map : List Segment) (f : Nat) : Except Code (List Task) :=
  match map.getLast? with
  | none => .error .order
  | some g => if g.ft.isSome ∨ f < g.fh then .error .order else .ok [.closeLast f]

/-- A CUT at `c` with next head `n` (R83); `ahead` is n - c as the item gives it. -/
def cutCheck (t : Tracker) (c ahead : Nat) (names : List Name) : Except Code Unit :=
  if 200000000 < ahead then .error .badValue
  else if names.length ≠ 0 ∧ names.length ≠ t.defn.lanes then .error .badValue
  else
    match t.exit.head with
    | none => .ok ()
    | some hx => if c < hx then .error .order else .ok ()

/-- The link of a cut's material from `lo` to `hi` to one segment (R85, R86). -/
def segmentLink (g : Segment) (lo hi : Nat) (lane : Lane) (winding scrap : Bool) : Option NewLink :=
  match g.fault, g.coil, g.dh with
  | .none, some r, some dh =>
    let o0 := max lo dh
    match g.dt with
    | none =>
      let o1 := if scrap then min hi (o0 + 200000000) else hi
      if o1 ≤ o0 then none
      else some { childSpan := { lo := o0 - lo, hi := o1 - lo }, scrap := o1 - o0, parent := r, lane := lane,
                  dir := orientDir g.orient, suspect := g.suspect || winding, parentSpan := none,
                  source := { lo := o0, hi := o1 } }
    | some dt =>
      let o1 := min hi dt
      if o1 ≤ o0 then none
      else
        match g.ft, g.length with
        | some ft, some len =>
          match finalSpan g.orient g.fh ft dh dt len { lo := o0, hi := o1 } with
          | none => none
          | some p => some { childSpan := { lo := o0 - lo, hi := o1 - lo }, scrap := o1 - o0, parent := r, lane := lane,
                             dir := orientDir g.orient, suspect := g.suspect || winding, parentSpan := some p,
                             source := { lo := o0, hi := o1 } }
        | _, _ => none
  | _, _, _ => none

/-- Lane of the child at a place of the name list (R84). -/
def cutLane (lanes i : Nat) : Lane := if lanes = 1 then .whole else .num i

/-- The children of a cut at `c` (R84, R85), in lane order from place `i`. -/
def cutChildren (t : Tracker) (hx c : Nat) : (i : Nat) → List Name → List ChildPart
  | _, [] => []
  | i, n :: ns =>
    let e := min c (hx + maxLength)
    let excess := decide (hx + maxLength < c)
    { name := n, lane := cutLane t.defn.lanes i, head := hx, length := e - hx, suspect := excess || t.exit.suspect, clamped := excess,
      links := t.map.filterMap (fun g => segmentLink g hx e (cutLane t.defn.lanes i) t.exit.suspect false) }
      :: cutChildren t hx c (i + 1) ns

/-- Scrap start of a cut (R84). -/
def scrapStart (x : ExitRecord) (c : Nat) : Nat :=
  match x.head with
  | none => c
  | some hx => if x.names.isEmpty then hx else min c (hx + maxLength)

/-- The MAKE CHILD operations of a cut, in lane order, the first with the scrap links (R86, R87). -/
def cutTasks (t : Tracker) (c n : Nat) : List Task :=
  let children := match t.exit.head with
    | none => []
    | some hx => if hx < c then cutChildren t hx c 0 t.exit.names else []
  let scraps := t.map.filterMap (fun g => segmentLink g (scrapStart t.exit c) n .whole t.exit.suspect true)
  match children with
  | [] => if scraps.isEmpty then [] else [.make none scraps]
  | p :: ps => .make (some p) scraps :: ps.map (fun q => .make (some q) [])

/-- A malformed item found by the tracker (R72): counted at the port, a discontinuity in TRACKING and UNCERTAIN, nothing applied. -/
def State.malformedHere (s : State) (l : Fin 4) : State :=
  ((s.updPortCnt l (fun c => { c with malformed := bump c.malformed })).discontinuityIf l 2).runTasks l true [.leave]

/-- After the counts of an item: WAITING is left (R66) and the steps run; `before` is the feed odometer before the item. -/
def State.runItem (s : State) (l : Fin 4) (before : Nat) (set : Bool) (tasks : List Task) : State :=
  s.runTasks l true (tasks ++ lastTasks (set || decide (before < s.trackers[l].feed)) true)

/-! ## The commands -/

/-- POSITION (R64, R66, R74): the feed count, then the delivery count. -/
def execPosition (line : Fin 4) (seq : Byte) (feed delivery time : BitVec 32) (s : State) : Host.Outcome State Fault Refusal :=
  match s.takeItem line (.frame seq (.position feed delivery time)) with
  | none => still s
  | some s1 =>
    let s2 := (((s1.seqCheck line seq).takeCount line .feed feed.toNat).takeCount line .delivery delivery.toNat).leaveWaiting line
    settle (s2.runItem line s.trackers[line].feed false [])

/-- Hand readings over, all that are left or the next `handed` of them; the item then runs its last steps, or stays in hand with the
readings left (R96, log entry 12). -/
def State.handOn (s : State) (l : Fin 4) (h : Handing) (tasks : List Task) (handed : Option Nat) : State :=
  let n := handed.getD h.raws.length
  let s1 := s.handReadings h.slot h.dseq h.suspect h.stride h.coord (h.raws.take n)
  match h.raws.drop n with
  | [] => s1.runTasks l true tasks
  | left => s1.updTracker l (fun t => { t with work := some {
      op := .hand { h with coord := h.coord + n * h.stride, raws := left }
      presented := false, seg := 0, todo := tasks, fromPort := true } })

/-- A READINGS frame whose slot is known, past its sequence check: its first count on the slot's side, then its readings. -/
def State.readingsItem (s : State) (l : Fin 4) (before : Nat) (i : Fin 64) (seq : Byte) (f : StationFrame) (first stride : Nat)
    (raws : List (BitVec 16)) (handed : Option Nat) : State :=
  let sl := s.capture.slots[i]
  let s1 := (s.takeCount l sl.side first).leaveWaiting l
  let t := s1.trackers[l]
  s1.handOn l
    { seq := seq, frame := f, slot := i, dseq := sl.dseq, suspect := t.state == .uncertain, stride := stride,
      coord := coordOf (t.odo sl.side) ((t.base sl.side).getD 0) first, raws := raws }
    (lastTasks (decide (before < t.feed)) true) handed

/-- The readings a tracker has still to hand over of the frame it works on. -/
def Tracker.handing (t : Tracker) (seq : Byte) (f : StationFrame) : Option (Handing × List Task) :=
  match t.work with
  | some w =>
    match w.op with
    | .hand h => if h.seq = seq ∧ h.frame = f then some (h, w.todo) else none
    | _ => none
  | none => none

/-- READINGS (R65, R96): the first count on the gauge's side, each reading to capture; with no slot no count is applied. The
hand-over may be cut after some readings, and the same frame given again goes on with it. -/
def execReadings (line : Fin 4) (seq gauge : Byte) (first : BitVec 32) (stride : BitVec 16) (raws : Raws) (time : BitVec 32)
    (s : State) : Host.Outcome State Fault Refusal :=
  let f : StationFrame := .readings gauge first stride raws.values time
  match s.trackers[line].handing seq f with
  | some (h, tasks) => settle (s.handOn line h tasks raws.handed).flashKick
  | none =>
    match s.takeItem line (.frame seq f) with
    | none => still s
    | some s1 =>
      let s2 := s1.seqCheck line seq
      match s2.slotFor line gauge.toNat with
      | none =>
        settle ((s2.updCaptureCnt (fun c => { c with undefinedGauge := bump c.undefinedGauge raws.values.length })).runTasks line true [.leave])
      | some i =>
        settle (s2.readingsItem line s.trackers[line].feed i seq f first.toNat stride.toNat raws.values raws.handed).flashKick

/-- An ENTRY item past its sequence check, its feed coordinate `f`: the feed count is applied, the last segment closed or replaced,
the new one placed. -/
def State.entryItem (s : State) (l : Fin 4) (before count f : Nat) (orient : Orientation) (declared : Nat) (name : Name) : State :=
  match entryCheck s.trackers[l].map f with
  | .error _ => s.malformedHere l
  | .ok tasks =>
    (((s.takeCount l .feed count).leaveWaiting l).restore l).runItem l before true (tasks ++ [.place orient f declared name])

/-- ENTRY (R75, R76). -/
def execEntry (line : Fin 4) (seq : Byte) (feed : BitVec 32) (orient : Orientation) (declared : BitVec 32) (name : Name)
    (s : State) : Host.Outcome State Fault Refusal :=
  match s.takeItem line (.frame seq (.entry feed orient declared name)) with
  | none => still s
  | some s1 =>
    let s2 := s1.seqCheck line seq
    settle (s2.entryItem line s.trackers[line].feed feed.toNat (s2.trackers[line].preview .feed feed.toNat) orient declared.toNat name)

/-- A TAIL item past its sequence check, its feed coordinate `f`. -/
def State.tailItem (s : State) (l : Fin 4) (before count f : Nat) : State :=
  match tailCheck s.trackers[l].map f with
  | .error _ => s.malformedHere l
  | .ok tasks => ((s.takeCount l .feed count).leaveWaiting l).runItem l before true tasks

/-- TAIL (R77). -/
def execTail (line : Fin 4) (seq : Byte) (feed : BitVec 32) (s : State) : Host.Outcome State Fault Refusal :=
  match s.takeItem line (.frame seq (.tail feed)) with
  | none => still s
  | some s1 =>
    let s2 := s1.seqCheck line seq
    settle (s2.tailItem line s.trackers[line].feed feed.toNat (s2.trackers[line].preview .feed feed.toNat))

/-- A CUT item past its sequence check: its cut lies at delivery coordinate `c`, its next head `ahead` beyond it, the sum whole also
above 2^48 - 1 (log entry 73); the cut count is applied on the delivery side, the next-head count is not. -/
def State.cutItem (s : State) (l : Fin 4) (before count c ahead : Nat) (names : List Name) : State :=
  match cutCheck s.trackers[l] c ahead names with
  | .error _ => s.malformedHere l
  | .ok _ =>
    let s1 := (s.takeCount l .delivery count).leaveWaiting l
    s1.runItem l before false (cutTasks s1.trackers[l] c (c + ahead) ++ [.setExit (c + ahead) names])

/-- CUT (R83 to R87). -/
def execCut (line : Fin 4) (seq : Byte) (cut next : BitVec 32) (names : List Name) (s : State) :
    Host.Outcome State Fault Refusal :=
  match s.takeItem line (.frame seq (.cut cut next names)) with
  | none => still s
  | some s1 =>
    let s2 := s1.seqCheck line seq
    settle (s2.cutItem line s.trackers[line].feed cut.toNat (s2.trackers[line].preview .delivery cut.toNat)
      (countGap cut.toNat next.toNat) names)

/-- MALFORMED_ITEM (R72): the port has counted it; ENTRY, TAIL, CUT and unknown kinds make a discontinuity, POSITION and READINGS
none. -/
def execMalformedItem (line : Fin 4) (kind seq : Byte) (s : State) : Host.Outcome State Fault Refusal :=
  match s.takeItem line (.malformed kind seq) with
  | none => still s
  | some s1 =>
    let s2 := s1.seqCheck line seq
    let s3 := if kind = 1#8 ∨ kind = 2#8 then s2 else s2.discontinuityIf line 2
    settle (s3.runTasks line true [.leave])

/-- RESTART_MARK (R70), with the leaving check that follows every item (R81). -/
def execRestartMark (line : Fin 4) (s : State) : Host.Outcome State Fault Refusal :=
  match s.takeItem line .restart with
  | none => still s
  | some s1 => settle ((s1.lineRestart line).updTracker line Tracker.left).flashKick

/-- A malformed injected event (R88): a discontinuity in TRACKING and UNCERTAIN, the leaving check (R81), and the refusal. -/
def State.refuseEvent (s : State) (l : Fin 4) (f : Frame) (c : Code) : State :=
  ((s.discontinuityIf l 2).updTracker l Tracker.left).refuse f c

/-- INJECTED_EVENT (R88): no sequence check, no count; the explicit position or the current odometer. -/
def execInjectedEvent (line : Fin 4) (s : State) : Host.Outcome State Fault Refusal :=
  if !s.between line then still s
  else
    let t := s.trackers[line]
    match s.slc.unit with
    | .line f l (.event e) =>
      if l ≠ line then still s
      else
        let s1 := s.updSlc (fun c => { c with unit := .event f line })
        match e with
        | .entry pos orient declared name =>
          let x := pos.getD t.feed
          match entryCheck t.map x with
          | .error c => settle (s1.refuseEvent line f c)
          | .ok tasks =>
            settle ((s1.restore line).runTasks line false (tasks ++ [.place orient x declared name] ++ lastTasks true false))
        | .tail pos =>
          match tailCheck t.map (pos.getD t.feed) with
          | .error c => settle (s1.refuseEvent line f c)
          | .ok tasks => settle (s1.runTasks line false (tasks ++ lastTasks true false))
        | .cut pos next names =>
          let c := pos.getD t.delivery
          let n := next.getD t.delivery
          match (if n < c then .error .badValue else cutCheck t c (n - c) names : Except Code Unit) with
          | .error k => settle (s1.refuseEvent line f k)
          | .ok _ => settle (s1.runTasks line false (cutTasks t c n ++ [.setExit n names] ++ lastTasks false false))
    | _ => still s

/-- TRACKER_CLEAR (R93): CLEAR ALL DATA reaches the tracker between two items. -/
def execTrackerClear (line : Fin 4) (s : State) : Host.Outcome State Fault Refusal :=
  let t := s.trackers[line]
  if t.clear && t.work.isNone && s.startUp.ready then
    let s1 := s.updTracker line (fun t => { t with
      state := if t.defn.enabled then .waiting else .undefined
      feed := 0, delivery := 0, feedBase := none, deliveryBase := none, pair := none, lastSeq := none, map := [],
      exit := ExitRecord.initial, silent := false, timer := t.defn.enabled, clear := false })
    settle ((s1.endCondition (.uncertain line)).endCondition (.silent line)).clearAnswer
  else still s

/-! ## Results of genealogy operations (R76, R79, R87) -/

/-- The operation comes to the arbiter; a hand-over does not. -/
def Work.reach (w : Work) : Work :=
  match w.op with
  | .hand _ => w
  | _ => { w with presented := true }

/-- A later operation of a tracker's item comes to the arbiter. -/
def State.reachArbiter (s : State) (l : Fin 4) : State := s.updTracker l (fun t => { t with work := t.work.map Work.reach })

/-- The operation in hand of a tracker whose turn it is at the arbiter; one that is not there yet comes there now (log entry 16). -/
def State.turnOf (s : State) (l : Fin 4) : Option Work :=
  if (s.reachArbiter l).grant = some (.tracker l) then s.trackers[l].work else none

/-- The table after an operation of a tracker: the arbiter's pointer and the notices (R13, R28). -/
def State.served (s : State) (l : Fin 4) (g : Genealogy) (ns : List Notice) : State :=
  State.raiseAll { s with table := { g with lastTracker := l } } ns

/-- Go on with the item after a result; an operation it presents then comes to the arbiter some time later, so that another may be
performed before it (R14, R93). -/
def State.resumeItem (s : State) (l : Fin 4) (w : Work) (first : List Task) : State :=
  ((s.updTracker l (fun t => { t with work := none })).runTasks l w.fromPort (first ++ w.todo)).updTracker l
    (fun t => { t with work := t.work.map (fun x => { x with presented := false }) })

/-- ENTER_COIL (R16, R76). -/
def execEnterCoil (line : Fin 4) (s : State) : Host.Outcome State Fault Refusal :=
  match s.turnOf line with
  | some w =>
    match w.op with
    | .enterCoil name orient fh declared =>
      let r := s.table.enterCoil s.heldRefs line.1 name orient fh declared
      let s1 := s.served line r.1 r.2.2
      let s2 := match r.2.1 with
        | some (ref, len) => s1.updSeg line w.seg (fun g => { g with coil := some ref, length := len })
        | none => s1.detach line w.seg
      settle (s2.resumeItem line w [])
    | _ => still s
  | none => still s

/-- CLOSE_ENTRY (R17, R76). -/
def execCloseEntry (line : Fin 4) (s : State) : Host.Outcome State Fault Refusal :=
  match s.turnOf line with
  | some w =>
    match w.op with
    | .closeEntry ref ft =>
      let r := s.table.closeEntry line.1 ref ft
      let s1 := s.served line r.1 r.2.2
      match r.2.1 with
      | some (_, true) => settle (s1.resumeItem line w [.drop w.seg, .removeLast])
      | some (len, false) => settle ((s1.updSeg line w.seg (fun g => { g with length := len })).resumeItem line w [])
      | none =>
        let gone := (s.trackers[line].map[w.seg]?).any (fun g => g.fh == ft)
        settle ((s1.detach line w.seg).resumeItem line w (if gone then [.removeLast] else []))
    | _ => still s
  | none => still s

/-- MAKE_CHILD (R18, R87). -/
def execMakeChild (line : Fin 4) (s : State) : Host.Outcome State Fault Refusal :=
  match s.turnOf line with
  | some w =>
    match w.op with
    | .makeChild child scraps =>
      let r := s.table.makeChild s.heldRefs line.1 child scraps
      let s1 := s.served line r.1 r.2.2
      let s2 := if r.2.1 then s1 else s1.updTrackCnt line (fun c => { c with lost := bump c.lost })
      settle (s2.resumeItem line w [])
    | _ => still s
  | none => still s

/-- FINALIZE_LINKS (R19, R79): with the result the segment takes its D_t. -/
def execFinalizeLinks (line : Fin 4) (s : State) : Host.Outcome State Fault Refusal :=
  match s.turnOf line with
  | some w =>
    match w.op with
    | .finalize ref orient fh ft dh dt len suspect =>
      let r := s.table.finalizeLinks line.1 ref orient fh ft dh dt len suspect
      let s1 := (s.served line r.1 r.2.2).updSeg line w.seg (fun g => { g with dt := some dt })
      settle ((if r.2.1 then s1 else s1.detach line w.seg).resumeItem line w [])
    | _ => still s
  | none => still s

/-- DROP_PENDING (R20, R76). -/
def execDropPending (line : Fin 4) (s : State) : Host.Outcome State Fault Refusal :=
  match s.turnOf line with
  | some w =>
    match w.op with
    | .dropPending ref =>
      let r := s.table.dropPending line.1 ref
      let s1 := s.served line r.1 []
      settle ((if r.2 then s1 else s1.detach line w.seg).resumeItem line w [])
    | _ => still s
  | none => still s

end Sys2Proof.Machine
end

