-- ==== Sys2Proof/Machine/Requests.lean ====
section
/-! DEFINITION. The requests that define, that act on a line, and that act on the Genealogy Table (R62, R88 to R90, R94, R95, R102,
R159, R182, R21 to R26). -/

namespace Sys2Proof.Machine

/-! ## Definitions (R94, R95, R102, R159, R182) -/

/-- The lane check of R94: a numbered lane stands below a lane count above 1. -/
def laneFits (lanes : Nat) : Lane → Bool
  | .whole => true
  | .num n => decide (1 < lanes) && decide (n < lanes)

/-- Tests 1 to 3 of R94. -/
def State.gaugeCheck (s : State) (g : GaugeForm) : Option Code :=
  let inUse := !g.discard && !(s.archive.index[g.slot]).isEmpty
  match g.fields with
  | none => if inUse then some .inUse else none
  | some d =>
    if !laneFits (s.trackers[finOf 3 d.line]).defn.lanes d.lane then some .badValue
    else if slotNumbers.any (fun i => i != g.slot && s.capture.slots[i].defined && s.capture.slots[i].line == d.line
        && s.capture.slots[i].gauge == d.gauge) then some .inUse
    else if inUse then some .inUse
    else none

/-- The definition sequence after one redefinition (R95). -/
def nextDefinition (n : Nat) : Nat := if n = 4294967295 then 1 else n + 1

/-- The four steps of an accepted DEFINE GAUGE (R95). -/
def State.defineGauge (s : State) (g : GaugeForm) : State :=
  let s1 := s.closeSlot g.slot
  let s2 := if g.discard then { s1 with archive := { s1.archive with index := updAt s1.archive.index g.slot (fun _ => []) } } else s1
  s2.updSlot g.slot (fun old => { g.fields.getD Slot.initial with dseq := nextDefinition old.dseq, block := none, mark := none })

/-- DEFINE_GAUGE (R94, R95). -/
def execDefineGauge (r : Req) (s : State) : Host.Outcome State Fault Refusal :=
  s.request 0x03#8 r (fun f s =>
    withValue (gaugeOf f.payload) f s (fun g =>
      match s.gaugeCheck g with
      | some c => s.refuse f c
      | none => ((s.defineGauge g).accept f).flashKick))

/-- A channel in RUNNING or HELD runs a playback run under a profile (R159). -/
def Channel.uses (c : Channel) (n : Fin 16) : Bool :=
  (c.state == .running || c.state == .held) && (match c.run with
    | some r => (match r.body with | .play p => p.profile == n | .walk _ => false)
    | none => false)

/-- DEFINE_PROFILE (R159). -/
def execDefineProfile (r : Req) (s : State) : Host.Outcome State Fault Refusal :=
  s.request 0x04#8 r (fun f s =>
    withValue (profileOf f.payload) f s (fun q =>
      if s.channels.toList.any (fun c => c.uses q.1) then s.refuse f .inUse
      else ({ s with profiles := updAt s.profiles q.1 (fun _ => q.2) } : State).accept f))

def LineDef.bytes (d : LineDef) : List Byte :=
  [boolByte d.enabled, byteOf d.address, byteOf d.rate, byteOf d.parity.code] ++ beBytes 4 d.pf ++ beBytes 4 d.pd
    ++ [byteOf d.lanes] ++ beBytes 4 d.jump ++ [byteOf d.silence]

def Slot.bytes (d : Slot) : List Byte :=
  [byteOf d.line, byteOf d.gauge, byteOf d.side.code] ++ beInt 4 d.offset ++ [byteOf d.lane.code, byteOf d.quantity]
    ++ beBytes 4 d.unit ++ [byteOf d.idle]

def Profile.bytes (p : Profile) : List Byte :=
  [byteOf p.encoding.code] ++ beInt 2 p.gain ++ beInt 4 p.offset ++ [byteOf p.hold, boolByte p.halt, byteOf p.bins,
    byteOf p.markers.code]

def NoticeSettings.bytes (n : NoticeSettings) : List Byte :=
  [boolByte n.line, boolByte n.coil, boolByte n.genealogy, boolByte n.archive, boolByte n.capture, boolByte n.lineRepeat,
    boolByte n.archiveRepeat]

/-- The staged target in a DEFINITION: kind, name, handle, sequence, line, absent where the target carries none. -/
def Target.bytes : Target → List Byte
  | .none => [0xFF#8] ++ nameField Option.none ++ beOpt 2 Option.none ++ beOpt 4 Option.none ++ beOpt 1 Option.none
  | .name n => [0#8] ++ nameField (some n) ++ beOpt 2 Option.none ++ beOpt 4 Option.none ++ beOpt 1 Option.none
  | .ref r => [1#8] ++ nameField Option.none ++ beBytes 2 r.handle ++ beBytes 4 r.seq ++ beOpt 1 Option.none
  | .line l => [2#8] ++ nameField Option.none ++ beOpt 2 Option.none ++ beOpt 4 Option.none ++ [byteOf l.1]

def Staged.bytes (t : Staged) : List Byte :=
  t.target.bytes ++ beBytes 6 t.from_ ++ beBytes 6 t.to_ ++ beBytes 2 t.resolution ++ [byteOf t.traces.length]
    ++ t.traces.flatMap (fun q => [byteOf q.1.1, byteOf q.2.code]) ++ List.replicate (2 * (4 - t.traces.length)) 0xFF#8
    ++ [byteOf t.profile.1, byteOf t.depth]

/-- The contents of a DEFINITION (R182, section 11.3). -/
def State.definition (s : State) : DefObject → List Byte
  | .line l => s.trackers[l].defn.bytes
  | .gauge i =>
    let d := s.capture.slots[i]
    boolByte d.defined :: (beBytes 4 d.dseq ++ if d.defined then d.bytes else [])
  | .profile n => s.profiles[n].bytes
  | .channel c => byteOf s.channels[c].state.code :: s.channels[c].staged.bytes
  | .notices => s.slc.settings.bytes

/-- READ_DEFINITION (R182). -/
def execReadDefinition (r : Req) (s : State) : Host.Outcome State Fault Refusal :=
  s.request 0x05#8 r (fun f s =>
    withValue (objectOf f.payload) f s (fun o => s.finish (replyTo f 0x84#8 (f.payload.take 2 ++ s.definition o)) none))

/-- CLOSE_BLOCKS (R102). -/
def execCloseBlocks (r : Req) (s : State) : Host.Outcome State Fault Refusal :=
  s.request 0x0F#8 r (fun f s =>
    if field f.payload 0 1 = 255 then ((s.closeSlots slotNumbers).accept f).flashKick
    else withValue (finAt 3 (field f.payload 0 1)) f s (fun l => ((s.closeSlots (s.slotsOf l)).accept f).flashKick))

/-! ## Lines (R60, R62, R63, R88 to R90) -/

/-- Pass a request to a tracker: the Request Unit waits until it is between two items. -/
def State.handLine (s : State) (f : Frame) (l : Fin 4) (j : LineJob) : State := s.updSlc (fun c => { c with unit := .line f l j })

/-- A port setting changes (R47, R60). -/
def portChanges (a b : LineDef) : Bool :=
  a.enabled != b.enabled || a.address != b.address || a.rate != b.rate || a.parity != b.parity

/-- The parity under which a character in reception completes and is counted (R60): none at a port that counts nothing, and within a
frame without a buffer (R53). -/
def Port.cutParity (p : Port) (old : Parity) : Option Parity :=
  match p.rx with
  | .off => none
  | .settling => none
  | _ => if p.cur.any (fun f => !f.buffered) then none else some old

/-- A change that reaches the receiver meets whatever character is in reception (R60, log entry 18). -/
def Port.cut (p : Port) (old : Parity) : Port := { p with cuts := p.cutParity old :: p.cuts }

/-- The effect of DEFINE LINE on the port (R60). -/
def Port.redefine (p : Port) (old new : LineDef) : Port :=
  if !portChanges old new then p
  else
    match old.enabled, new.enabled with
    | false, false => p
    | false, true => { p.cut old.parity with rx := .settling, idleArmed := true }
    | true, false => { p.cut old.parity with rx := .off, cur := none, order := [] }
    | true, true => { p.cut old.parity with rx := .settling, cur := none, idleArmed := true }

/-- The effect of DEFINE LINE on the tracker (R62, R63, R71). -/
def Tracker.redefine (t : Tracker) (new : LineDef) : Tracker :=
  let t1 := { t with defn := new }
  match t.defn.enabled, new.enabled with
  | false, true => { t1 with state := .waiting, timer := true }
  | true, false =>
    { t1 with state := .undefined, feedBase := none, deliveryBase := none, pair := none, lastSeq := none, silent := false,
              timer := false }
  | true, true => if t.defn.silence = new.silence then t1 else { t1 with timer := true }
  | false, false => t1

/-- DEFINE LINE takes effect, the tracker being between two items (R60, R62, R63). -/
def State.defineLine (s : State) (l : Fin 4) (new : LineDef) : State :=
  let old := s.trackers[l].defn
  let s1 := (s.updPort l (fun p => p.redefine old new)).updTracker l (fun t => t.redefine new)
  if old.enabled && !new.enabled then
    ((s1.endCondition (.uncertain l)).endCondition (.silent l)).closeSlots (s1.slotsOf l)
  else s1

/-- The IN USE test of R62. -/
def Tracker.definitionHeld (t : Tracker) (new : LineDef) : Bool :=
  (t.defn.pf != new.pf || t.defn.pd != new.pd || t.defn.lanes != new.lanes) && (!t.map.isEmpty || !t.exit.names.isEmpty)

/-- RESYNC LINE takes effect (R69, R89). -/
def State.resync (s : State) (f : Frame) (l : Fin 4) : State :=
  match s.trackers[l].state with
  | .uncertain => (s.restore l).accept f
  | .tracking => s.accept f
  | _ => s.refuse f .badValue

/-- The steps of EMPTY LINE (R90). -/
def Tracker.emptyTasks (t : Tracker) : List Task :=
  (match t.map.getLast? with
    | some g => if g.ft.isNone then [.closeLast (max g.fh t.feed)] else []
    | none => [])
  ++ [.drop 0, .drop 1, .drop 2, .drop 3, .drop 4, .drop 5, .drop 6, .drop 7, .emptyMap]

/-- What the Request Unit passed to a tracker takes effect when the tracker is between two items (R62, R89, R90). An injected event
waits for INJECTED_EVENT. -/
def State.lineGo (s : State) (l : Fin 4) : State :=
  if !s.between l then s
  else
    match s.slc.unit with
    | .line f k j =>
      if k ≠ l then s
      else
        match j with
        | .define d => ((s.defineLine l d).accept f).flashKick
        | .resync => s.resync f l
        | .empty => (s.updSlc (fun c => { c with unit := .event f l })).runTasks l false (s.trackers[l].emptyTasks)
        | .event _ => s
    | _ => s

/-- A request for a line is given again: if it is the one the Request Unit has in hand, it goes on when its tracker is free. -/
def State.lineRequest (s : State) (kind : Byte) (r : Req) (own : Frame → State → State) : Host.Outcome State Fault Refusal :=
  match s.slc.unit with
  | .line f l _ => if f = reqFrame kind r then settle (s.lineGo l) else still s
  | _ => s.request kind r own

/-- DEFINE_LINE (R60, R62, R63). -/
def execDefineLine (r : Req) (s : State) : Host.Outcome State Fault Refusal :=
  s.lineRequest 0x02#8 r (fun f s =>
    withValue (lineOf f.payload) f s (fun q =>
      if s.trackers[q.1].definitionHeld q.2 then s.refuse f .inUse
      else (s.handLine f q.1 (.define q.2)).lineGo q.1))

/-- RESYNC_LINE (R89). -/
def execResyncLine (r : Req) (s : State) : Host.Outcome State Fault Refusal :=
  s.lineRequest 0x0A#8 r (fun f s =>
    withValue (finAt 3 (field f.payload 0 1)) f s (fun l => (s.handLine f l .resync).lineGo l))

/-- EMPTY_LINE (R90). -/
def execEmptyLine (r : Req) (s : State) : Host.Outcome State Fault Refusal :=
  s.lineRequest 0x0B#8 r (fun f s =>
    withValue (finAt 3 (field f.payload 0 1)) f s (fun l => (s.handLine f l .empty).lineGo l))

/-- INJECT_ENTRY (R88). -/
def execInjectEntry (r : Req) (s : State) : Host.Outcome State Fault Refusal :=
  s.request 0x07#8 r (fun f s => withValue (injectEntryOf f.payload) f s (fun q => s.handLine f q.1 (.event q.2)))

/-- INJECT_TAIL (R88). -/
def execInjectTail (r : Req) (s : State) : Host.Outcome State Fault Refusal :=
  s.request 0x08#8 r (fun f s => withValue (injectTailOf f.payload) f s (fun q => s.handLine f q.1 (.event q.2)))

/-- The next head of an injected CUT lies before the cut, or more than 200,000,000 beyond it (R88); NOW stands for the delivery
odometer. -/
def Tracker.cutOutside (t : Tracker) : HostEvent → Bool
  | .cut pos next _ =>
    let c := pos.getD t.delivery
    let n := next.getD t.delivery
    decide (n < c) || decide (200000000 < n - c)
  | _ => false

/-- INJECT_CUT (R88). -/
def execInjectCut (r : Req) (s : State) : Host.Outcome State Fault Refusal :=
  s.request 0x09#8 r (fun f s => withValue (injectCutOf f.payload) f s (fun q =>
    if s.trackers[q.1].cutOutside q.2 then s.refuse f .badValue else s.handLine f q.1 (.event q.2)))

/-! ## The Genealogy Table (R13, R21 to R26) -/

/-- The Request Unit's operation at the arbiter, when it is its turn. -/
def State.unitJob (s : State) : Option (Frame × Job) :=
  if s.grant = some .unit then (match s.slc.unit with | .table f j => some (f, j) | _ => none) else none

/-- Put an operation at the arbiter (R13). -/
def State.present (s : State) (f : Frame) (j : Job) : State := s.updSlc (fun c => { c with unit := .table f j })

/-- A request that waits at the arbiter is given again: if it is the one in hand, it goes on when its turn comes. -/
def State.tableRequest (s : State) (kind : Byte) (r : Req) (go : State → State) (own : Frame → State → State) :
    Host.Outcome State Fault Refusal :=
  match s.slc.unit with
  | .table f _ => if f = reqFrame kind r then settle (go s) else still s
  | _ => s.request kind r (fun f s => go (own f s))

/-- LOOKUP is performed (R26). -/
def State.lookupGo (s : State) : State :=
  match s.unitJob with
  | some (f, .lookup key) =>
    match s.table.lookup key with
    | none => s.refuse f .notFound
    | some c => s.finish (replyTo f 0x85#8 (s.table.summary c)) none
  | _ => s

/-- LOOKUP (R26). -/
def execLookup (r : Req) (s : State) : Host.Outcome State Fault Refusal :=
  s.tableRequest 0x0E#8 r State.lookupGo (fun f s => withValue (lookKeyOf f.payload) f s (fun k => s.present f (.lookup k)))

/-- RETIRE is performed: to its end, or for the next `k` removals when it is cut there (R15, R24). -/
def State.retireGo (removals : Option Nat) (s : State) : State :=
  match s.unitJob with
  | some (f, .retire bound next _) =>
    let r := Genealogy.retireBelow s.heldRefs bound (removals.getD s.table.coils.length) next s.table
    let s1 : State := { s with table := r.1 }
    match removals with
    | none => s1.accept f
    | some _ => s1.present f (.retire bound r.2 true)
  | _ => s

/-- RETIRE (R24); `removals` cuts it after that many (log entry 12). -/
def execRetire (r : Req) (removals : Option Nat) (s : State) : Host.Outcome State Fault Refusal :=
  s.tableRequest 0x0D#8 r (State.retireGo removals) (fun f s => s.present f (.retire (field f.payload 0 4) 0 false))

/-- The IMPORT RESULT payload (R21, section 11.3); `closed` are the totals of the session the frame closes. Of a total above 4,294,967,295 its
4 bytes carry the low 32 bits (log entry 70). -/
def importResult (j : ImportJob) (closed : Option (Nat × Nat)) : List Byte :=
  [byteOf ((if j.abandoned.isSome then 1 else 0) + (if closed.isSome then 2 else 0)), byteOf j.accepted, byteOf j.refused]
    ++ beOpt 1 (j.first.map (·.1)) ++ [byteOf ((j.first.map (·.2.number)).getD 0)]
    ++ beOpt 4 (j.abandoned.map (·.1)) ++ beOpt 4 (j.abandoned.map (·.2))
    ++ beOpt 4 (closed.map (·.1)) ++ beOpt 4 (closed.map (·.2))

/-- The frame's items are all applied: the totals grow, LAST and ONLY close the session, the reply goes out (R21). The totals grow without bound,
above 4,294,967,295 too (log entry 70). -/
def State.importDone (s : State) (f : Frame) (j : ImportJob) : State :=
  match s.table.session with
  | none => s.finish (replyTo f 0x86#8 (importResult j none)) none
  | some q =>
    let q1 : ImportSession := { q with accepted := q.accepted + j.accepted, refused := q.refused + j.refused }
    let s1 := { s with table := { s.table with session := if j.last then none else some q1 } }
    s1.finish (replyTo f 0x86#8 (importResult j (if j.last then some (q1.accepted, q1.refused) else none))) none

/-- The import frame goes on: its next item comes to the arbiter, or it is done. -/
def State.importGo (s : State) (f : Frame) (j : ImportJob) : State :=
  if j.at_ < j.items.length then s.present f (.importing j) else s.importDone f j

/-- A fresh import job. -/
def importJob (pos : Nat) (items : List ImportItem) (abandoned : Option (Nat × Nat)) : ImportJob :=
  { last := decide (2 ≤ pos), items := items, at_ := 0, accepted := 0, refused := 0, first := none, abandoned := abandoned }

/-- An item with a direction code outside its list (R200). -/
def ImportItem.misdirected : ImportItem → Bool
  | .link dir _ _ _ _ _ => decide (1 < dir.toNat)
  | .coil _ _ _ => false

/-- IMPORT (R21): the session and the frame; its items are IMPORT_COIL and IMPORT_LINK. A direction code outside its list makes the whole
request BAD VALUE (R200; before NO IMPORT, log entry 51). -/
def execImportFrame (r : Req) (s : State) : Host.Outcome State Fault Refusal :=
  s.request 0x0C#8 r (fun f s =>
    let pos := field f.payload 0 1
    let code := field f.payload 1 1
    let items := (importItems f.payload).getD []
    if 3 < pos || items.any ImportItem.misdirected then s.refuse f .badValue
    else if pos = 0 ∨ pos = 3 then
      if code < 4 ∨ 15 < code then s.refuse f .badValue
      else
        let s1 := { s with table := { s.table with session := some { code := code, accepted := 0, refused := 0 } } }
        s1.importGo f (importJob pos items (s.table.session.map (fun q => (q.accepted, q.refused))))
    else if s.table.session.isNone then s.refuse f .noImport
    else s.importGo f (importJob pos items none))

/-- The count of an item's result in its job (R21). -/
def ImportJob.count (j : ImportJob) (res : Option Code) : ImportJob :=
  match res with
  | none => { j with at_ := j.at_ + 1, accepted := j.accepted + 1 }
  | some c => { j with at_ := j.at_ + 1, refused := j.refused + 1, first := match j.first with | none => some (j.at_, c) | x => x }

/-- The table and notices after an item, and the frame goes on. -/
def State.importItem (s : State) (f : Frame) (j : ImportJob) (r : Genealogy × Option Code × List Notice) : State :=
  (State.raiseAll { s with table := r.1 } r.2.2).importGo f (j.count r.2.1)

/-- The import item whose turn it is at the arbiter: no tracker waits there. -/
def State.importTurn (s : State) : Option (Frame × ImportJob × ImportItem) :=
  match s.grant, s.slc.unit with
  | some (.tracker _), _ => none
  | _, .table f (.importing j) => (j.items[j.at_]?).map (fun i => (f, j, i))
  | _, _ => none

/-- IMPORT_COIL (R22). -/
def execImportCoil (s : State) : Host.Outcome State Fault Refusal :=
  match s.importTurn with
  | some (f, j, .coil flags len name) => settle (s.importItem f j (s.table.importCoil s.heldRefs flags len name))
  | _ => still s

/-- IMPORT_LINK (R23). -/
def execImportLink (s : State) : Host.Outcome State Fault Refusal :=
  match s.importTurn with
  | some (f, j, .link dir lane cs ps cn pn) =>
    settle (s.importItem f j
      (s.table.importLink s.heldRefs ((s.table.session.map (·.code)).getD 0) dir lane cs ps cn pn))
  | _ => still s

end Sys2Proof.Machine
end

