-- ==== Sys2Proof/Machine/Channels.lean ====
section
/-! DEFINITION. The requests of a channel (R122 to R126, R144, R145, R165, R176): the staged fields, starting a run, HOLD, RELEASE and
CANCEL. -/

namespace Sys2Proof.Machine

/-- The channel a request names, its channel byte already checked (R179). -/
def Frame.chan (f : Frame) : Fin 4 := finOf 3 f.channel.toNat

/-! ## Staged fields (R123, R124) -/

/-- Change the staged part of an IDLE channel; otherwise BUSY (R123, R124). -/
def State.stage {α : Type} (s : State) (f : Frame) (v : Option α) (set : α → Staged → Staged) : State :=
  if s.channels[f.chan].state ≠ .idle then s.refuse f .busy
  else withValue v f s (fun a => (s.updChannel f.chan (fun c => { c with staged := set a c.staged })).accept f)

/-- SET_TARGET (R123). -/
def execSetTarget (r : Req) (s : State) : Host.Outcome State Fault Refusal :=
  s.request 0x10#8 r (fun f s => s.stage f (targetOf f.payload) (fun t g => { g with target := t }))

/-- SET_RANGE (R123). -/
def execSetRange (r : Req) (s : State) : Host.Outcome State Fault Refusal :=
  s.request 0x11#8 r (fun f s =>
    s.stage f (rangeOf f.payload) (fun q g => { g with from_ := q.1, to_ := q.2.1, resolution := q.2.2 }))

/-- SET_TRACES (R123). -/
def execSetTraces (r : Req) (s : State) : Host.Outcome State Fault Refusal :=
  s.request 0x12#8 r (fun f s => s.stage f (tracesOf f.payload) (fun ts g => { g with traces := ts }))

/-- SET_PROFILE (R123). -/
def execSetProfile (r : Req) (s : State) : Host.Outcome State Fault Refusal :=
  s.request 0x13#8 r (fun f s => s.stage f (finAt 15 (field f.payload 0 1)) (fun n g => { g with profile := n }))

/-- SET_DEPTH (R123). -/
def execSetDepth (r : Req) (s : State) : Host.Outcome State Fault Refusal :=
  s.request 0x14#8 r (fun f s =>
    let d := field f.payload 0 1
    s.stage f (if 1 ≤ d ∧ d ≤ 6 then some d else none) (fun d g => { g with depth := d }))

/-- RESET_CHANNEL (R124). -/
def execResetChannel (r : Req) (s : State) : Host.Outcome State Fault Refusal :=
  s.request 0x15#8 r (fun f s => s.stage f (some ()) (fun _ _ => Staged.initial))

/-! ## Starting a run (R125, R126, R165) -/

/-- The lookup key of a staged target, none for no target or a line. -/
def Target.key : Target → Option LookKey
  | .name n => some (.name n)
  | .ref r => some (.ref r)
  | _ => Option.none

/-- Clamped end, CLAMPED, whether the run has no bins or walk, and its result then (R126, R165): `len` is the outer none for a stale
target, and for a record its length or the absence of one. -/
structure Clamp where
  end_    : Nat
  clamped : Bool
  result  : Option RunResult

/-- The table of R126. -/
def clampTo (from_ to_ : Nat) (len : Option (Option Nat)) : Clamp :=
  match len with
  | none => { end_ := from_, clamped := false, result := some .targetRetired }
  | some none => { end_ := from_, clamped := false, result := some .complete }
  | some (some l) =>
    if to_ ≤ l then { end_ := to_, clamped := false, result := none }
    else if from_ < l then { end_ := l, clamped := true, result := none }
    else { end_ := from_, clamped := true, result := some .complete }

/-- The target a run captures: the coil found, or the stale reference as staged. -/
def captured (key : LookKey) (found : Option Coil) : RunTarget :=
  match found, key with
  | some c, _ => .coil c.ref (some c.name)
  | none, .ref r => .coil r none
  | none, .name _ => .coil { handle := 0, seq := 0 } none

/-- The traces a playback run captures (R125, R160). -/
def State.captureTraces (s : State) (ts : List (Fin 64 × Reduction)) : List Trace :=
  ts.map (fun q =>
    let d := s.capture.slots[q.1]
    { slot := q.1, dseq := d.dseq, line := d.line, side := d.side, lane := d.lane, reduction := q.2, quantity := d.quantity,
      unit := d.unit })

/-- A run just accepted, with the working part given. -/
def newRun (kind : RunKind) (tag : BitVec 16) (target : RunTarget) (from_ : Nat) (c : Clamp) (body : RunBody) : Run :=
  { kind := kind, tag := tag, target := target, from_ := from_, end_ := c.end_, clamped := c.clamped, planOp := none, kept := none,
    recs := [], closed := none, frameNo := 0, sentFrames := 0, sentRecs := 0, gaps := Vector.replicate 9 0, firstFault := none, result := c.result,
    body := body }

/-- Working part of a playback run at its acceptance (R126 to R128, R155). -/
def newPlay (g : Staged) (traces : List Trace) (c : Clamp) : Play :=
  { traces := traces, res := g.resolution, bins := if c.result.isSome then 0 else binCount g.from_ c.end_ g.resolution,
    depth := g.depth, profile := g.profile, wins := [], nextBin := 0, nextWin := 0, planner := none, stopped := false, fetch := none,
    cache := none, emitBin := 0, held := traces.map (fun _ => Held.cleared), prior := traces.map (fun _ => none), halt := none }

/-- The channel becomes RUNNING with its run, ACCEPTED is queued, and the run's own work begins (R125, R165). -/
def State.launch (s : State) (f : Frame) (r : Run) : State :=
  (((s.updChannel f.chan (fun c => { c with state := .running, run := some r })).finish (accepted f) (some f.chan)).channelGo
    f.chan).flashKick

/-- Start a playback run (R125, R126); a run with no bins writes its header at once (R160). -/
def State.startPlayback (s : State) (f : Frame) (target : RunTarget) (c : Clamp) : State :=
  let g := s.channels[f.chan].staged
  let p := newPlay g (s.captureTraces g.traces) c
  let r := newRun .playback f.tag target g.from_ c (.play p)
  s.launch f (if c.result.isSome then { r with recs := [runHeader f.chan r p (s.profileOf p)] } else r)

/-- Start a lineage run (R165): the header at once, and the first PLAN STEP, for the target over the walk interval (R166). -/
def State.startWalk (s : State) (f : Frame) (up : Bool) (target : RunTarget) (c : Clamp) : State :=
  let g := s.channels[f.chan].staged
  let lv := targetLevel (target.ref.getD { handle := 0, seq := 0 }) { lo := g.from_, hi := c.end_ }
  let walks := c.result.isNone
  let w : Walk :=
    { up := up, depth := g.depth, perFrame := s.profiles[g.profile].bins, stack := [],
      await := if walks then some (.visit lv) else none, records := 0 }
  let r := newRun (if up then .ancestry else .descent) f.tag target g.from_ c (.walk w)
  s.launch f { r with recs := [lineageHeader f.chan r w], planOp := if walks then some (lv.step up .start) else none }

/-- The LOOKUP of a RUN is performed (R125, R126, R165): NOT FOUND for a name, a stale mark for a reference. -/
def State.runGo (start : State → Frame → RunTarget → Clamp → State) (s : State) : State :=
  match s.unitJob with
  | some (f, .run key) =>
    let g := s.channels[f.chan].staged
    match s.table.lookup key, key with
    | none, .name _ => s.refuse f .notFound
    | found, _ => start s f (captured key found) (clampTo g.from_ g.to_ (found.map (·.length)))
  | _ => s

/-- The slots of a trace list are defined, and for a LINE target on that line (R125 test 3). -/
def State.tracesOk (s : State) (g : Staged) : Bool :=
  g.traces.all (fun q =>
    let d := s.capture.slots[q.1]
    d.defined && (match g.target with | .line l => d.line == l.1 | _ => true))

/-- Tests 1 to 3 of R125, then the LINE run at once or the LOOKUP at the arbiter. -/
def State.ownPlayback (f : Frame) (s : State) : State :=
  let c := s.channels[f.chan]
  let g := c.staged
  if c.state ≠ .idle then s.refuse f .busy
  else if g.target = .none ∨ g.traces = [] then s.refuse f .notStaged
  else if !s.tracesOk g then s.refuse f .badValue
  else
    match g.target with
    | .line l => s.startPlayback f (.line l) { end_ := g.to_, clamped := false, result := none }
    | t =>
      match t.key with
      | some k => s.present f (.run k)
      | none => s

/-- RUN_PLAYBACK (R125, R126). -/
def execRunPlayback (r : Req) (s : State) : Host.Outcome State Fault Refusal :=
  s.tableRequest 0x16#8 r (State.runGo State.startPlayback) State.ownPlayback

/-- Tests 1 to 3 of R165, then the LOOKUP at the arbiter. -/
def State.ownWalk (f : Frame) (s : State) : State :=
  let c := s.channels[f.chan]
  if c.state ≠ .idle then s.refuse f .busy
  else
    match c.staged.target with
    | .none => s.refuse f .notStaged
    | .line _ => s.refuse f .badValue
    | t =>
      match t.key with
      | some k => s.present f (.run k)
      | none => s

/-- RUN_ANCESTRY (R165). -/
def execRunAncestry (r : Req) (s : State) : Host.Outcome State Fault Refusal :=
  s.tableRequest 0x17#8 r (State.runGo (fun s f => s.startWalk f true)) State.ownWalk

/-- RUN_DESCENT (R165). -/
def execRunDescent (r : Req) (s : State) : Host.Outcome State Fault Refusal :=
  s.tableRequest 0x18#8 r (State.runGo (fun s f => s.startWalk f false)) State.ownWalk

/-! ## HOLD, RELEASE, CANCEL (R144, R145, R176) -/

/-- Waiting read requests of a channel go back to its fetcher, which will ask for them again (R144). -/
def State.withdrawReads (s : State) (ch : Fin 4) : State :=
  let back := (s.archive.requests.filter (fun q => q.ch == ch)).map (·.entry)
  let s1 := s.updPlay ch (fun p => { p with fetch := p.fetch.map (fun f => { f with toRead := back ++ f.toRead }) })
  { s1 with archive := s1.archive.withdraw ch false }

/-- HOLD (R144). -/
def execHold (r : Req) (s : State) : Host.Outcome State Fault Refusal :=
  s.request 0x19#8 r (fun f s =>
    if s.channels[f.chan].state ≠ .running then s.refuse f .notRunning
    else ((s.withdrawReads f.chan).updChannel f.chan (fun c => { c with state := .held })).accept f)

/-- The result kept under HOLD reaches its run (R144). -/
def State.deliverKept (s : State) (ch : Fin 4) : State :=
  match s.channels[ch].run.bind (·.kept) with
  | none => s
  | some a => (s.updRun ch (fun r => { r with kept := none })).deliver ch a

/-- RELEASE (R144): planner, walk and fetcher go on. -/
def execRelease (r : Req) (s : State) : Host.Outcome State Fault Refusal :=
  s.request 0x1A#8 r (fun f s =>
    if s.channels[f.chan].state ≠ .held then s.refuse f .notRunning
    else
      let s1 := (s.updChannel f.chan (fun c => { c with state := .running })).accept f
      ((s1.deliverKept f.chan).channelGo f.chan).flashKick)

/-- What CANCEL leaves of a run: its result and the END REPORT's figures (R145, R176). -/
def Run.cancelled (r : Run) : Run :=
  { r with
    result := some .cancelled, planOp := none, kept := none, recs := [], closed := none
    body := match r.body with
      | .play p => .play { p with wins := [], planner := none, fetch := none, cache := none, stopped := true }
      | .walk w => .walk { w with stack := [], await := none } }

/-- CANCEL (R145). -/
def execCancel (r : Req) (s : State) : Host.Outcome State Fault Refusal :=
  s.request 0x1B#8 r (fun f s =>
    let c := s.channels[f.chan]
    if c.state ≠ .running ∧ c.state ≠ .held then s.refuse f .notRunning
    else
      let s1 := s.updChannel f.chan (fun c => { c with state := .draining, run := c.run.map Run.cancelled })
      let s2 := { s1 with archive := s1.archive.withdraw f.chan true }
      (s2.updSlc (fun c => { c with slots := updAt c.slots f.chan (fun _ => []) })).accept f)

end Sys2Proof.Machine
end

