-- ==== Sys2Proof/Machine/Startup.lean ====
section
/-! DEFINITION. Start-up and retention (chapter 10): entry to STARTING, the choice of the start, the cold start, the resume with its
retention updates, and READY. -/

namespace Sys2Proof.Machine

/-! ## What every start loses (R192, R193) -/

/-- A tracker's internal memory is lost; definition, map, exit record and odometers are retained, and with the map what an item cut short had
written into it (log entry 54). -/
def Tracker.loseInternal (t : Tracker) : Tracker :=
  { t with state := .undefined, silent := false, timer := false, feedBase := none, deliveryBase := none, pair := none,
           lastSeq := none, cnt := {}, work := none, clear := false }

/-- Open blocks, idle timers and closed marks are lost; the gauge table is retained. -/
def Capture.loseInternal (c : Capture) : Capture := { c.cleared with cnt := {} }

/-- The write queue's contents, the read requests, the operation in progress, the last operation and the last channel served are
lost. -/
def Archive.loseInternal (a : Archive) : Archive :=
  { a with queue := [], headFailed := false, op := none, lastOp := none, lastChan := 3, requests := [], clear := false }

/-- The import session and the arbiter's pointers are lost (R15, R29). -/
def Genealogy.loseInternal (g : Genealogy) : Genealogy := { g with session := none, lastTracker := 3, lastPlanner := 3 }

/-- The figures a resume gathers for its START notice begin afresh. -/
def StartUp.fresh (u : StartUp) : StartUp :=
  { u with checked := false, erasing := none, passed := 0, reerased := 0, madeBad := 0, lost := 0, added := false }

/-- The part enters STARTING (R193): every block stops and internal memory is lost. The link counters become 0 here, and what the link
counts while STARTING stands at READY (log entry 58). -/
def State.enterStarting (s : State) : State :=
  { s with
    startUp := { s.startUp.fresh with ready := false, start := none }
    ports := Vector.replicate 4 Port.initial
    trackers := s.trackers.map Tracker.loseInternal
    capture := s.capture.loseInternal
    archive := s.archive.loseInternal
    table := s.table.loseInternal
    channels := s.channels.map (fun (c : Channel) => ({ c with state := .idle, run := none } : Channel))
    slc := { Slc.initial with settings := s.slc.settings } }

/-! ## RESET and power (R193, R194, R198) -/

/-- Removals of an AUTO-RETIRE that a RESET cuts (R15): the first `k` of those the operation being performed would make, when it
would run one; its own update does not happen. -/
def Genealogy.cutAutoRetire (g : Genealogy) (held : List Ref) (spare : List Nat) (nc nl k : Nat) (ns : List Notice) : Genealogy :=
  if ns.any (fun n => n.cls == .genealogy && n.reason == 5) then (Genealogy.autoRetire held spare nc nl k g 0).1 else g

/-- The table as a RESET leaves an operation of a tracker, after `k` removals of its AUTO-RETIRE (R15). -/
def State.cutTracker (s : State) (k : Nat) (l : Fin 4) (op : TrackOp) : Genealogy :=
  let g := s.table
  match op with
  | .enterCoil name orient fh declared =>
    g.cutAutoRetire s.heldRefs ((g.named name).toList.map (·.handle)) 1 0 k
      (g.enterCoil s.heldRefs l.1 name orient fh declared).2.2
  | .makeChild child scraps =>
    let links := ((child.map (·.links)).getD [] ++ scraps).filter (fun n => (g.current n.parent).isSome)
    g.cutAutoRetire s.heldRefs (links.map (·.parent.handle)) child.toList.length links.length k
      (g.makeChild s.heldRefs l.1 child scraps).2.2
  | _ => g

/-- The table as a RESET leaves an import item, after `k` removals of its AUTO-RETIRE (R15). -/
def State.cutImport (s : State) (k : Nat) (i : ImportItem) : Genealogy :=
  let g := s.table
  match i with
  | .coil flags len name => g.cutAutoRetire s.heldRefs [] 1 0 k (g.importCoil s.heldRefs flags len name).2.2
  | .link dir lane cs ps cn pn =>
    g.cutAutoRetire s.heldRefs ([g.named cn, g.named pn].flatMap (fun c => c.toList.map (·.handle))) 0 1 k
      (g.importLink s.heldRefs ((g.session.map (·.code)).getD 0) dir lane cs ps cn pn).2.2

/-- The tracker operation a RESET finds in hand: that of the tracker whose turn it is, else the first in ring order of those that come to
the arbiter later (log entry 12). While a RETIRE is being performed there is none: the others only wait (R13, R15). -/
def State.trackerInHand (s : State) : Option (Fin 4 × TrackOp) :=
  if s.slc.unit.performing then none else
  let opOf (l : Fin 4) : Option (Fin 4 × TrackOp) := (s.trackers[l]).tableOp.map (fun op => (l, op))
  match s.grant with
  | some (.tracker l) => opOf l
  | _ => (ringAfter s.table.lastTracker).findSome? opOf

/-- The table as a RESET leaves the operation being performed, after `k` removals of its AUTO-RETIRE (R15, log entry 12): that of
the import item whose turn it is, else that of a tracker. -/
def State.cutOperation (s : State) (k : Nat) : Genealogy :=
  match s.importTurn, s.trackerInHand with
  | some q, _ => s.cutImport k q.2.2
  | none, some q => s.cutTracker k q.1 q.2
  | none, none => s.table

/-- RESET_ASSERTED (R15, R193): every block stops and the part stays in STARTING while RESET is held; `removals` of an AUTO-RETIRE
in progress were committed. -/
def execResetAsserted (removals : Nat) (s : State) : Host.Outcome State Fault Refusal :=
  if s.startUp.held then still s
  else
    let s1 := State.enterStarting { s with table := s.cutOperation removals }
    .next { s1 with startUp := { s1.startUp with held := true } }

/-- Start-up begins with the kind chosen (R194, R198); a cold start's first step clears the validity mark (R195). -/
def State.beginStart (s : State) (lost : Bool) (straps : Fin 4) : State :=
  let k : Start := if !s.startUp.valid then .cold .incomplete else if lost then .cold .retentionLost else .resume
  { s with startUp := { s.startUp with
      held := false, lostAtPower := false, start := some k, straps := straps, valid := s.startUp.valid && k == .resume } }

/-- RESET_RELEASED (R193): the straps are sampled and start-up begins; when power was applied while RESET was held, it is the start of
that power-on (log entry 43). -/
def execResetReleased (straps : Fin 4) (s : State) : Host.Outcome State Fault Refusal :=
  if s.startUp.held then .next (s.beginStart s.startUp.lostAtPower straps) else still s

/-- POWER_ON (R193, R194): what internal memory held is lost and RETENTION LOST is read; start-up begins, the straps sampled, unless RESET
is asserted, when the part waits for its release. -/
def execPowerOn (retentionLost : Bool) (straps : Fin 4) (s : State) : Host.Outcome State Fault Refusal :=
  let s1 := s.enterStarting
  if s.startUp.held then .next { s1 with startUp := { s1.startUp with lostAtPower := retentionLost } }
  else .next (s1.beginStart retentionLost straps)

/-! ## READY (R199) -/

/-- The START notice payload (R199, section 11.3). -/
def startPayload (k : StartKind) (cause : Option ColdCause) (u : StartUp) (a : Archive) (madeBad : Nat) : List Byte :=
  [byteOf NoticeClass.start.code, 1#8, 0#8, 0xFF#8] ++ beBytes 4 0 ++ [byteOf k.code]
    ++ beOpt 1 (cause.map (fun c => match c with | .retentionLost => 0 | .incomplete => 1))
    ++ beBytes 2 a.usable ++ beBytes 2 madeBad ++ beBytes 2 u.reerased ++ [byteOf u.passed, boolByte a.exhausted] ++ beBytes 4 u.lost

/-- An enabled line's port settles; its tracker WAITS and its silence timer starts (R61, R71, R93). -/
def State.openLine (s : State) (l : Fin 4) : State :=
  if s.trackers[l].defn.enabled then
    (s.updPort l (fun p => { p with rx := .settling, idleArmed := true })).updTracker l
      (fun t => { t with state := .waiting, timer := true })
  else s

/-- The part becomes READY (R199). -/
def State.becomeReady (s : State) (k : StartKind) (cause : Option ColdCause) (madeBad : Nat) : State :=
  let note := noticeFrame (startPayload k cause s.startUp s.archive madeBad)
  let s1 : State := { s with
    startUp := { s.startUp with ready := true, start := none, valid := true, last := k }
    slc := { s.slc with notices := s.slc.notices ++ [note] } }
  let s2 := if s1.archive.exhausted then s1.raise (archiveNotice 4 (some s1.archive.usable) none) else s1
  (four.foldl State.openLine s2).flashKick

/-! ## Cold start (R195, R196) -/

/-- The Archive Controller after the group table is rebuilt (R121, R196). -/
def Archive.rebuilt (bad : List (Fin 4096)) : Archive :=
  let groups := (List.range groupCount).filterMap (fun g => if bad.any (fun b => b.1 == g) then some (g, GroupState.bad) else none)
  let a : Archive := { Archive.initial with groups := if bad.isEmpty then [] else groups }
  let a1 := (a.place 0).1
  { a1 with exhausted := decide (a1.usable < 64) }

/-- COLD_START (R195, R196): every retained item takes its starting value, the group table is rebuilt from the marks of the groups
named bad, and the part becomes READY; the figures of a resume are 0 (R199). -/
def execColdStart (badGroups : List (Fin 4096)) (s : State) : Host.Outcome State Fault Refusal :=
  match s.startUp.start with
  | some (.cold cause) =>
    let a := Archive.rebuilt badGroups
    let s1 : State := { State.reset with
      startUp := s.startUp.fresh, archive := a, flash := s.flash, pending := s.pending
      slc := { s.slc with settings := NoticeSettings.initial } }
    settle (s1.becomeReady .cold (some cause) (groupCount - a.usable))
  | _ => still s

/-! ## Resume (R120, R197) -/

/-- A retention update of step 1 of the resume (R197); the re-erase of a group is two, its start and its completion (R106, R120). -/
inductive ResumeUpdate where
  | check
  | again (group : Nat)
  | erased (group : Nat)
  | occupancy
  deriving DecidableEq, Repr

/-- The updates of step 1 not yet made, in order. -/
def State.resumeUpdates (s : State) : List ResumeUpdate :=
  (if s.startUp.checked then [] else [.check])
    ++ s.archive.marks.flatMap (fun g => if s.startUp.erasing = some g then [.erased g] else [.again g, .erased g])
    ++ (if s.startUp.added then [] else [.occupancy])

/-- The write-point check (R120): in an ERASED or FILLING group, a page that does not read as erased is passed. -/
def State.checkPoint (s : State) (page : ReadBack) : State :=
  let a := s.archive
  let image := match page with
    | .asStored => readPage s.flash (groupPages * a.group + a.page)
    | .bytes b => b
  let u := { s.startUp with checked := true }
  if a.pageReady && !image.all (· == erasedByte) then
    { s with archive := a.stepPoint.1, startUp := { u with passed := s.startUp.passed + 1 } }
  else { s with startUp := u }

/-- The re-erase of a marked group begins (R106, R120): the group keeps its mark until the erase completes, so that one cut short is
begun again by the next start (R198). -/
def State.beginReerase (s : State) (g : Nat) : State :=
  { s with
    archive := { s.archive.startErase g with op := none, lastOp := none }
    startUp := { s.startUp with erasing := some g } }

/-- The re-erase of a marked group completes, with the outcomes of R106 (R120). -/
def State.endReerase (s : State) (failing : List (Fin 4096)) (g : Nat) : State :=
  let bad := failing.any (fun b => b.1 == g)
  { s with
    archive := (s.archive.erased g (if bad then .failed else .good)).1
    flash := if bad then s.flash else eraseGroup s.flash g
    startUp := { s.startUp with
      erasing := none, reerased := s.startUp.reerased + 1, madeBad := s.startUp.madeBad + if bad then 1 else 0 } }

/-- The queue occupancy is added to blocks dropped and set to 0 (R120). -/
def State.addOccupancy (s : State) : State :=
  let a := s.archive
  { s with
    archive := { a with occupancy := 0, cnt := { a.cnt with dropped := bump a.cnt.dropped a.occupancy } }
    startUp := { s.startUp with lost := s.startUp.lost + a.occupancy, added := true } }

/-- One update of step 1. -/
def State.resumeUpdate (page : ReadBack) (failing : List (Fin 4096)) (s : State) : ResumeUpdate → State
  | .check => s.checkPoint page
  | .again g => s.beginReerase g
  | .erased g => s.endReerase failing g
  | .occupancy => s.addOccupancy

/-- The closed mark of a slot from the index (R120): the last coordinate of the last entry of the slot's own definition. -/
def markFromIndex (sl : Slot) (es : List Entry) : Option Nat :=
  if sl.defined then ((es.filter (fun e => e.dseq == sl.dseq)).getLast?).map (·.last) else none

/-- Step 2 of the resume (R197). -/
def State.marksFromIndex (s : State) : State :=
  slotNumbers.foldl (fun s i => s.updSlot i (fun sl => { sl with mark := markFromIndex sl s.archive.index[i] })) s

/-- RESUME (R197, R198): the updates of step 1, all of them or the first `k` where an interruption falls; then the internal state is
formed and the part becomes READY. -/
def execResume (page : ReadBack) (failing : List (Fin 4096)) (updates : Option Nat) (s : State) :
    Host.Outcome State Fault Refusal :=
  match s.startUp.start with
  | some .resume =>
    match updates with
    | some k => settle ((s.resumeUpdates.take k).foldl (State.resumeUpdate page failing) s)
    | none =>
      let s1 := s.resumeUpdates.foldl (State.resumeUpdate page failing) s
      settle (s1.marksFromIndex.becomeReady .resume none s1.startUp.madeBad)
  | _ => still s

end Sys2Proof.Machine
end

