-- ==== Sys2Proof/Machine/Dispatch.lean ====
section
/-! DEFINITION. The meaning of each command: one arm per constructor of Instr. -/

namespace Sys2Proof.Machine

def exec (i : Instr) (s : State) : Host.Outcome State Fault Refusal :=
  match i with
  | .identify r => Sys2Proof.Machine.execIdentify r s
  | .defineLine r => Sys2Proof.Machine.execDefineLine r s
  | .defineGauge r => Sys2Proof.Machine.execDefineGauge r s
  | .defineProfile r => Sys2Proof.Machine.execDefineProfile r s
  | .readDefinition r => Sys2Proof.Machine.execReadDefinition r s
  | .setNotices r => Sys2Proof.Machine.execSetNotices r s
  | .injectEntry r => Sys2Proof.Machine.execInjectEntry r s
  | .injectTail r => Sys2Proof.Machine.execInjectTail r s
  | .injectCut r => Sys2Proof.Machine.execInjectCut r s
  | .resyncLine r => Sys2Proof.Machine.execResyncLine r s
  | .emptyLine r => Sys2Proof.Machine.execEmptyLine r s
  | .importFrame r => Sys2Proof.Machine.execImportFrame r s
  | .retire r removals => Sys2Proof.Machine.execRetire r removals s
  | .lookup r => Sys2Proof.Machine.execLookup r s
  | .closeBlocks r => Sys2Proof.Machine.execCloseBlocks r s
  | .setTarget r => Sys2Proof.Machine.execSetTarget r s
  | .setRange r => Sys2Proof.Machine.execSetRange r s
  | .setTraces r => Sys2Proof.Machine.execSetTraces r s
  | .setProfile r => Sys2Proof.Machine.execSetProfile r s
  | .setDepth r => Sys2Proof.Machine.execSetDepth r s
  | .resetChannel r => Sys2Proof.Machine.execResetChannel r s
  | .runPlayback r => Sys2Proof.Machine.execRunPlayback r s
  | .runAncestry r => Sys2Proof.Machine.execRunAncestry r s
  | .runDescent r => Sys2Proof.Machine.execRunDescent r s
  | .hold r => Sys2Proof.Machine.execHold r s
  | .release r => Sys2Proof.Machine.execRelease r s
  | .cancel r => Sys2Proof.Machine.execCancel r s
  | .poll r => Sys2Proof.Machine.execPoll r s
  | .readCounters r => Sys2Proof.Machine.execReadCounters r s
  | .linkClear r => Sys2Proof.Machine.execLinkClear r s
  | .clearAllData r => Sys2Proof.Machine.execClearAllData r s
  | .unknownKind kind r => Sys2Proof.Machine.execUnknownKind kind r s
  | .replyPlaced => Sys2Proof.Machine.execReplyPlaced s
  | .linkByte b stopAtMark => Sys2Proof.Machine.execLinkByte b stopAtMark s
  | .gapTimeout => Sys2Proof.Machine.execGapTimeout s
  | .frameTransmitted => Sys2Proof.Machine.execFrameTransmitted s
  | .noticeRepeat c => Sys2Proof.Machine.execNoticeRepeat c s
  | .character line data flag parity stop changes => Sys2Proof.Machine.execCharacter line data flag parity stop changes s
  | .idleEvent line => Sys2Proof.Machine.execIdleEvent line s
  | .silent line => Sys2Proof.Machine.execSilent line s
  | .position line seq feed delivery time => Sys2Proof.Machine.execPosition line seq feed delivery time s
  | .readings line seq gauge first stride raws time => Sys2Proof.Machine.execReadings line seq gauge first stride raws time s
  | .entry line seq feed orient declared name => Sys2Proof.Machine.execEntry line seq feed orient declared name s
  | .tail line seq feed => Sys2Proof.Machine.execTail line seq feed s
  | .cut line seq cut next names => Sys2Proof.Machine.execCut line seq cut next names s
  | .malformedItem line kind seq => Sys2Proof.Machine.execMalformedItem line kind seq s
  | .restartMark line => Sys2Proof.Machine.execRestartMark line s
  | .injectedEvent line => Sys2Proof.Machine.execInjectedEvent line s
  | .trackerClear line => Sys2Proof.Machine.execTrackerClear line s
  | .enterCoil line => Sys2Proof.Machine.execEnterCoil line s
  | .closeEntry line => Sys2Proof.Machine.execCloseEntry line s
  | .makeChild line => Sys2Proof.Machine.execMakeChild line s
  | .finalizeLinks line => Sys2Proof.Machine.execFinalizeLinks line s
  | .dropPending line => Sys2Proof.Machine.execDropPending line s
  | .importCoil => Sys2Proof.Machine.execImportCoil s
  | .importLink => Sys2Proof.Machine.execImportLink s
  | .planStep ch => Sys2Proof.Machine.execPlanStep ch s
  | .gtClear => Sys2Proof.Machine.execGtClear s
  | .gaugeIdleExpiry slot => Sys2Proof.Machine.execGaugeIdleExpiry slot s
  | .program result => Sys2Proof.Machine.execProgram result s
  | .erase result => Sys2Proof.Machine.execErase result s
  | .read back => Sys2Proof.Machine.execRead back s
  | .streamFramePlaced ch => Sys2Proof.Machine.execStreamFramePlaced ch s
  | .resetAsserted removals => Sys2Proof.Machine.execResetAsserted removals s
  | .resetReleased straps => Sys2Proof.Machine.execResetReleased straps s
  | .powerOn retentionLost straps => Sys2Proof.Machine.execPowerOn retentionLost straps s
  | .coldStart badGroups => Sys2Proof.Machine.execColdStart badGroups s
  | .resume page failing updates => Sys2Proof.Machine.execResume page failing updates s

end Sys2Proof.Machine
end

