-- ==== Sys2Proof/Safety.lean ====
section
/-! DEFINITION. What a safe run is, and the words the statements use: which blocks a command may touch, what it means that a request
is at hand and answered, how an item of a line goes on after a result of the Genealogy Table, and the invariants of the state. -/

namespace Sys2Proof.Machine

/-! ## Safe steps -/

/-- A step is safe when it answers a next state: the part has no stopping fault (INVENTORY.md, Faults), and no row is left without a
meaning. -/
def Safe : Host.Outcome State Fault Refusal → Prop
  | .next _ => True
  | .fault _ => False
  | .refused _ => False

/-! ## What a command may touch -/

/-- The blocks of the state. -/
inductive Part where
  | startUp | ports | trackers | capture | archive | flash | table | channels | profiles | slc | pending
  deriving DecidableEq, Repr

/-- A block reads the same in two states. -/
def Part.same (s t : State) : Part → Prop
  | .startUp => t.startUp = s.startUp
  | .ports => t.ports = s.ports
  | .trackers => t.trackers = s.trackers
  | .capture => t.capture = s.capture
  | .archive => t.archive = s.archive
  | .flash => t.flash = s.flash
  | .table => t.table = s.table
  | .channels => t.channels = s.channels
  | .profiles => t.profiles = s.profiles
  | .slc => t.slc = s.slc
  | .pending => t.pending = s.pending

/-- From `s` to `t` at most the blocks listed have changed. -/
def Touches (ps : List Part) (s t : State) : Prop := ∀ p : Part, ps.contains p = false → p.same s t

/-- The blocks each command may change, from the rules that own it. Every command may also start a transmission (R186). -/
def touched : Instr → List Part
  | .identify _ => [.slc]
  | .defineLine _ => [.ports, .trackers, .capture, .archive, .slc]
  | .defineGauge _ => [.capture, .archive, .slc]
  | .defineProfile _ => [.profiles, .slc]
  | .readDefinition _ => [.slc]
  | .setNotices _ => [.slc]
  | .injectEntry _ => [.slc]
  | .injectTail _ => [.slc]
  | .injectCut _ => [.slc]
  | .resyncLine _ => [.ports, .trackers, .capture, .archive, .slc]
  | .emptyLine _ => [.ports, .trackers, .capture, .archive, .slc]
  | .importFrame _ => [.table, .slc]
  | .retire _ _ => [.table, .slc]
  | .lookup _ => [.slc]
  | .closeBlocks _ => [.capture, .archive, .slc]
  | .setTarget _ => [.channels, .slc]
  | .setRange _ => [.channels, .slc]
  | .setTraces _ => [.channels, .slc]
  | .setProfile _ => [.channels, .slc]
  | .setDepth _ => [.channels, .slc]
  | .resetChannel _ => [.channels, .slc]
  | .runPlayback _ => [.archive, .channels, .slc]
  | .runAncestry _ => [.archive, .channels, .slc]
  | .runDescent _ => [.archive, .channels, .slc]
  | .hold _ => [.archive, .channels, .slc]
  | .release _ => [.archive, .channels, .slc]
  | .cancel _ => [.archive, .channels, .slc]
  | .poll _ => [.slc]
  | .readCounters _ => [.ports, .trackers, .capture, .archive, .slc]
  | .linkClear _ => [.archive, .table, .channels, .slc]
  | .clearAllData _ => [.trackers, .capture, .archive, .channels, .slc]
  | .unknownKind _ _ => [.slc]
  | .replyPlaced => [.slc]
  | .linkByte _ _ => [.slc]
  | .gapTimeout => [.slc]
  | .frameTransmitted => [.channels, .slc]
  | .noticeRepeat _ => [.slc]
  | .character _ _ _ _ _ _ => [.ports, .slc]
  | .idleEvent _ => [.ports, .trackers, .slc]
  | .silent _ => [.trackers, .slc]
  | .position _ _ _ _ _ => [.ports, .trackers, .slc]
  | .readings _ _ _ _ _ _ _ => [.ports, .trackers, .capture, .archive, .slc]
  | .entry _ _ _ _ _ _ => [.ports, .trackers, .slc]
  | .tail _ _ _ => [.ports, .trackers, .slc]
  | .cut _ _ _ _ _ => [.ports, .trackers, .slc]
  | .malformedItem _ _ _ => [.ports, .trackers, .slc]
  | .restartMark _ => [.ports, .trackers, .capture, .archive, .slc]
  | .injectedEvent _ => [.trackers, .slc]
  | .trackerClear _ => [.trackers, .slc]
  | .enterCoil _ => [.table, .trackers, .slc]
  | .closeEntry _ => [.table, .trackers, .slc]
  | .makeChild _ => [.table, .trackers, .slc]
  | .finalizeLinks _ => [.table, .trackers, .slc]
  | .dropPending _ => [.table, .trackers, .slc]
  | .importCoil => [.table, .slc]
  | .importLink => [.table, .slc]
  | .planStep _ => [.table, .archive, .channels, .slc]
  | .gtClear => [.table, .slc]
  | .gaugeIdleExpiry _ => [.capture, .archive, .slc]
  | .program _ => [.flash, .capture, .archive, .slc]
  | .erase _ => [.flash, .capture, .archive, .slc]
  | .read _ => [.capture, .archive, .channels, .slc]
  | .streamFramePlaced _ => [.archive, .channels, .slc]
  | .resetAsserted _ => [.startUp, .ports, .trackers, .capture, .archive, .table, .channels, .slc]
  | .resetReleased _ => [.startUp]
  | .powerOn _ _ => [.startUp, .ports, .trackers, .capture, .archive, .table, .channels, .slc]
  | .coldStart _ => [.startUp, .ports, .trackers, .capture, .archive, .table, .channels, .profiles, .slc]
  | .resume _ _ _ => [.startUp, .ports, .trackers, .capture, .archive, .flash, .slc]

/-! ## Requests -/

/-- The kind byte and operands of a request command; none for the other commands. -/
def requestOf : Instr → Option (Byte × Req)
  | .identify r => some (0x01#8, r)
  | .defineLine r => some (0x02#8, r)
  | .defineGauge r => some (0x03#8, r)
  | .defineProfile r => some (0x04#8, r)
  | .readDefinition r => some (0x05#8, r)
  | .setNotices r => some (0x06#8, r)
  | .injectEntry r => some (0x07#8, r)
  | .injectTail r => some (0x08#8, r)
  | .injectCut r => some (0x09#8, r)
  | .resyncLine r => some (0x0A#8, r)
  | .emptyLine r => some (0x0B#8, r)
  | .importFrame r => some (0x0C#8, r)
  | .retire r _ => some (0x0D#8, r)
  | .lookup r => some (0x0E#8, r)
  | .closeBlocks r => some (0x0F#8, r)
  | .setTarget r => some (0x10#8, r)
  | .setRange r => some (0x11#8, r)
  | .setTraces r => some (0x12#8, r)
  | .setProfile r => some (0x13#8, r)
  | .setDepth r => some (0x14#8, r)
  | .resetChannel r => some (0x15#8, r)
  | .runPlayback r => some (0x16#8, r)
  | .runAncestry r => some (0x17#8, r)
  | .runDescent r => some (0x18#8, r)
  | .hold r => some (0x19#8, r)
  | .release r => some (0x1A#8, r)
  | .cancel r => some (0x1B#8, r)
  | .poll r => some (0x1C#8, r)
  | .readCounters r => some (0x1D#8, r)
  | .linkClear r => some (0x1E#8, r)
  | .clearAllData r => some (0x1F#8, r)
  | .unknownKind k r => some (k, r)
  | _ => none

/-- The Request Unit, free and its link working, finds the request as the oldest frame of the receive buffer, or finds the buffer
empty and the request arriving whole in this step (log entry 14). -/
def Handed (s : State) (kind : Byte) (r : Req) : Prop :=
  s.linkUp = true ∧ s.slc.unit = .free ∧
    (s.slc.buffer.head? = some (reqFrame kind r) ∨ s.slc.buffer = [] ∧ r.payload.length ≤ 1024)

/-- A request at hand that passes checks 1 to 4 of R179, its kind being one of the table. -/
def Admitted (s : State) (kind : Byte) (r : Req) : Prop :=
  Handed s kind r ∧ s.startUp.ready = true ∧ lengthOk kind r.payload = true ∧ channelOk kind r.channel = true

/-- A request whose frame is the oldest of the receive buffer, the Request Unit being free and its link working, that passes checks 1 to 4
of R179. -/
def FrameAtHand (s : State) (kind : Byte) (r : Req) : Prop :=
  s.linkUp = true ∧ s.slc.unit = .free ∧ s.slc.buffer.head? = some (reqFrame kind r) ∧
  s.startUp.ready = true ∧ lengthOk kind r.payload = true ∧ channelOk kind r.channel = true

/-- A frame has just joined the receive buffer, counted among frames received. -/
def State.withFrame (s : State) (f : Frame) : State :=
  s.updSlc (fun c => { c with buffer := c.buffer ++ [f], cnt := { c.cnt with received := bump c.cnt.received } })

/-- The replies the part has placed and not finished sending: the one in transmission, then the reply queue. -/
def State.outgoing (s : State) : List Frame :=
  (match s.slc.tx with | some (.reply f) => [f] | _ => []) ++ s.slc.replies

/-- The notices the part has queued and not finished sending: the one in transmission, then the notice queue. -/
def State.announced (s : State) : List Frame :=
  (match s.slc.tx with | some (.notice f) => [f] | _ => []) ++ s.slc.notices

/-- The request at hand in `s` is complete in `t`, and its reply is placed behind those before it, or, when 8 replies wait, the
Request Unit waits with it (R180). -/
def Answered (s t : State) (reply : Frame) (runOf : Option (Fin 4)) : Prop :=
  (s.slc.replies.length < 8 → t.slc.unit = .free ∧ t.outgoing = s.outgoing ++ [reply]) ∧
  (8 ≤ s.slc.replies.length → t.slc.unit = .done reply runOf ∧ t.outgoing = s.outgoing)

/-- The state once the Request Unit has taken the request at hand: it left the receive buffer, or it was received in this step. -/
def State.taken (s : State) : State :=
  match s.slc.buffer with
  | _ :: rest => s.updSlc (fun c => { c with buffer := rest })
  | [] => s.updSlc (fun c => c.count (fun k => { k with received := bump k.received }))

/-- What a request that only answers leaves alone in the Service Link Controller: the receiver, the notice settings and counts, the
condition instances, the notices, the stream slots but for the frame the scheduler may take, and the counters but for refusals and for frames
received, which read `received`. The request itself has left the receive buffer. -/
def LinkKeptBut (received : Nat) (s t : State) : Prop :=
  t.slc.rx = s.slc.rx ∧ t.slc.buffer = s.slc.buffer.tail ∧ t.slc.settings = s.slc.settings ∧ t.slc.masked = s.slc.masked ∧
  t.slc.dropped = s.slc.dropped ∧ t.slc.uncertain = s.slc.uncertain ∧ t.slc.silent = s.slc.silent ∧
  t.slc.exhausted = s.slc.exhausted ∧ t.announced = s.announced ∧
  (∀ ch : Fin 4, t.slc.slots[ch] = s.slc.slots[ch] ∨ t.slc.slots[ch] = (s.slc.slots[ch]).drop 1) ∧
  t.slc.cnt = { s.slc.cnt with received := received, refusals := t.slc.cnt.refusals }

/-- The same of a request that may arrive whole in the step, and is then counted among frames received. -/
def LinkKept (s t : State) : Prop := LinkKeptBut s.taken.slc.cnt.received s t

/-- The command answers a next state in which the request at hand has the reply, and nothing but the link's queues has changed. -/
def OnlyReplies (c : Instr) (s : State) (reply : Frame) : Prop :=
  ∃ t, exec c s = .next t ∧ Answered s t reply none ∧ LinkKept s t ∧ Touches [.slc] s t

/-- The reply REFUSED with a code. -/
def refusal (kind : Byte) (r : Req) (c : Code) : Frame :=
  { kind := 0x82#8, channel := r.channel, tag := r.tag, payload := [byteOf c.number, kind] }

/-- The reply ACCEPTED. -/
def acceptance (r : Req) : Frame := { kind := 0x81#8, channel := r.channel, tag := r.tag, payload := [] }

/-! ## Items of a line -/

/-- A tracker between two items finds the item as the oldest of its hand-over order, or finds the order empty and the item arriving whole
in this step (log entry 14). -/
def ItemHanded (s : State) (l : Fin 4) (it : Item) : Prop :=
  s.between l = true ∧ s.slc.unit.wants l = false ∧ s.trackers[l].state ≠ .undefined ∧
    ((s.ports[l]).order.head? = some it ∨
      ((s.ports[l]).order = [] ∧ (s.ports[l]).rx = .hunt ∧ match it with | .frame _ f => frameFormOk f = true | _ => True))

/-- What R64 and R66 make of a count `c` against an odometer `o` and its base: the odometer and base after it. Past 2^48 - 1 the
odometer is a free value not below the old one (log entry 9). -/
def CountTaken (limit o : Nat) (base : Option Nat) (c o' : Nat) (base' : Option Nat) : Prop :=
  match base with
  | none => o' = o ∧ base' = some c
  | some b =>
    let d := (c + 4294967296 - b) % 4294967296
    (d = 0 → o' = o ∧ base' = some b) ∧
    (0 < d → d < 2147483648 → d ≤ limit → base' = some c ∧ o ≤ o' ∧ (o + d < 281474976710656 → o' = o + d)) ∧
    (d < 2147483648 → limit < d → o' = o ∧ base' = some c) ∧
    (2147483648 ≤ d → o' = o ∧ base' = some b)

/-- The count lies beyond the jump limit, ahead of its base (R64). -/
def JumpCount (limit : Nat) (base : Option Nat) (c : Nat) : Prop :=
  match base with
  | none => False
  | some b => limit < (c + 4294967296 - b) % 4294967296 ∧ (c + 4294967296 - b) % 4294967296 < 2147483648

/-- Frames passed over since the last sequence number (R57). -/
def Missed (last : Option Nat) (seq : Nat) : Nat :=
  match last with
  | none => 0
  | some n => (seq + 512 - n - 1) % 256

/-- The lines other than `l` read as before. -/
def OtherTrackers (l : Fin 4) (s t : State) : Prop := ∀ k : Fin 4, k ≠ l → t.trackers[k] = s.trackers[k]

/-- The lines and ports other than `l` read as before. -/
def OtherLines (l : Fin 4) (s t : State) : Prop :=
  ∀ k : Fin 4, k ≠ l → t.trackers[k] = s.trackers[k] ∧ t.ports[k] = s.ports[k]

/-- The channels other than `ch` read as before. -/
def OtherChannels (ch : Fin 4) (s t : State) : Prop := ∀ k : Fin 4, k ≠ ch → t.channels[k] = s.channels[k]

/-- A segment with its suspect mark put aside, for statements that say where a mark changes otherwise. -/
def Segment.plain (g : Segment) : Segment := { g with suspect := false }

/-- A line differs at most in its state, its counters and the suspect marks of its map and exit record. -/
def Marked (a b : Tracker) : Prop :=
  b = { a with state := b.state, map := b.map, exit := b.exit, cnt := b.cnt } ∧ b.map.map Segment.plain = a.map.map Segment.plain ∧
  b.exit.head = a.exit.head ∧ b.exit.names = a.exit.names

/-- What the steps of an item leave of a line: all but its pair, map, exit record, counters and work in hand. -/
def LineKept (a b : Tracker) : Prop := b = { a with pair := b.pair, map := b.map, exit := b.exit, cnt := b.cnt, work := b.work }

/-- A 32-bit count after `n` increments, one at a time. -/
def bumpTimes : (n k : Nat) → Nat
  | 0, k => k
  | n + 1, k => bumpTimes n (bump k)

/-- The NOTICE payload byte by byte (section 11.3): class, reason, the repeat mark, line, repeat count, name, handle and sequence, figure,
detail, and the handle and sequence of the indexed record; an absent field reads 0xFF (R200). -/
def noticeBytes (n : Notice) (rep : Option Nat) : List Byte :=
  let name := (n.name.getD []).take 16
  [match n.cls with | .line => 1#8 | .coil => 2#8 | .genealogy => 3#8 | .archive => 4#8 | .capture => 5#8 | .start => 6#8,
   BitVec.ofNat 8 n.reason, if rep = none then 0#8 else 1#8]
  ++ beOpt 1 n.line ++ beBytes 4 (rep.getD 0) ++ (BitVec.ofNat 8 name.length :: (name ++ List.replicate (16 - name.length) 0#8))
  ++ beOpt 2 (n.coil.map (·.handle)) ++ beOpt 4 (n.coil.map (·.seq)) ++ beOpt 6 n.figure ++ beOpt 1 n.detail
  ++ beOpt 2 (n.other.map (·.handle)) ++ beOpt 4 (n.other.map (·.seq))

/-- What R183 makes of a notice of a class that is raised: masked, queued, or dropped because 8 wait. -/
def NoticeTaken (s t : State) (cls : NoticeClass) (f : Frame) : Prop :=
  (s.slc.settings.enabled cls = false → t.slc.masked = bump s.slc.masked ∧ t.slc.dropped = s.slc.dropped ∧ t.announced = s.announced) ∧
  (s.slc.settings.enabled cls = true → s.slc.notices.length < 8 →
    t.slc.masked = s.slc.masked ∧ t.slc.dropped = s.slc.dropped ∧ t.announced = s.announced ++ [f]) ∧
  (s.slc.settings.enabled cls = true → 8 ≤ s.slc.notices.length →
    t.slc.masked = s.slc.masked ∧ t.slc.dropped = bump s.slc.dropped ∧ t.announced = s.announced)

/-- One more notice raised, where `waiting` waited before the first (R183): the masked count, the dropped count and the notices queued since. -/
def noticeTake (settings : NoticeSettings) (waiting : Nat) (q : Nat × Nat × List Frame) (n : Notice) : Nat × Nat × List Frame :=
  if settings.enabled n.cls = false then (bump q.1, q.2.1, q.2.2)
  else if waiting + q.2.2.length < 8 then (q.1, q.2.1, q.2.2 ++ [noticeFrame (noticeBytes n none)])
  else (q.1, bump q.2.1, q.2.2)

/-- What R183 makes of notices raised one after another, each of the class it names: masked, queued, or dropped because 8 wait. While the
part is STARTING none is taken (R194). -/
def NoticesTaken (ns : List Notice) (s t : State) : Prop :=
  let q := (if s.startUp.ready then ns else []).foldl (noticeTake s.slc.settings s.slc.notices.length) (s.slc.masked, s.slc.dropped, [])
  t.slc.masked = q.1 ∧ t.slc.dropped = q.2.1 ∧ t.announced = s.announced ++ q.2.2

/-- The LINE notice TRACK FAULT of a segment whose coil, if it has one, is `r` (R80, R92). Its name is the record's (log entry 15). -/
def faultNotice (l : Fin 4) (g : Genealogy) (r : Option Ref) : Notice :=
  { cls := .line, reason := 6, line := some l.1, name := (r.bind g.current).map (·.name), coil := r }

/-- The notices an item of line `l` raises: those listed, then one for each track fault its last steps find, counted as they are. -/
def ItemRaised (ns : List Notice) (l : Fin 4) (s t : State) : Prop :=
  ∃ faults : List (Option Ref), NoticesTaken (ns ++ faults.map (faultNotice l t.table)) s t ∧
    (t.trackers[l]).cnt.trackFaults = bumpTimes faults.length (s.trackers[l]).cnt.trackFaults

/-! ## Discontinuities -/

/-- The count lies beyond the jump limit, ahead of its base (R64). -/
def jumpCauses (limit : Nat) (base : Option Nat) (c : Nat) : List Nat :=
  if base.any (fun b => decide (limit < (c + 4294967296 - b) % 4294967296) && decide ((c + 4294967296 - b) % 4294967296 < 2147483648))
  then [1] else []

/-- How many of the counts lie behind their base (R64), a count beside its base. -/
def holdsOf (counts : List (Option Nat × Nat)) : Nat :=
  (counts.filter (fun q => q.1.any (fun b => decide (2147483648 ≤ (q.2 + 4294967296 - b) % 4294967296)))).length

/-- The cause of the sequence check, if it misses a frame (R57). -/
def gapCauses (last : Option Nat) (seq : Nat) : List Nat := if Missed last seq = 0 then [] else [0]

/-- The cause of leaving WAITING with a nonempty map or winding (R66). -/
def restartCauses (a : Tracker) : List Nat := if a.state = .waiting ∧ (a.map ≠ [] ∨ a.exit.names ≠ []) then [3] else []

/-- A LINE notice with its cause. -/
def breakNotice (l : Fin 4) (reason cause : Nat) : Notice := { cls := .line, reason := reason, line := some l.1, detail := some cause }

/-- The LINE notices of discontinuities met one after another on a line in a state, by their causes, 0 GAP, 1 JUMP, 2 MALFORMED, 3 RESTART
(R67, R68): UNCERTAIN (1) when the line becomes so, DISCONTINUITY (2) when it is UNCERTAIN. A line in WAITING meets RESTART, and a GAP that
leaves it WAITING (log entry 53); a jump or a malformed item is no discontinuity there (R72). -/
def lineBreaks (l : Fin 4) : LineState → List Nat → List Notice
  | _, [] => []
  | .tracking, c :: cs => breakNotice l 1 c :: lineBreaks l .uncertain cs
  | .uncertain, c :: cs => breakNotice l 2 c :: lineBreaks l .uncertain cs
  | .waiting, c :: cs =>
    if c = 0 then breakNotice l 2 0 :: lineBreaks l .waiting cs
    else if c = 3 then breakNotice l 1 3 :: lineBreaks l .uncertain cs
    else lineBreaks l .waiting cs
  | .undefined, _ :: cs => lineBreaks l .undefined cs

/-- Whether one of the causes is a discontinuity on the line. -/
def breaksLine (l : Fin 4) (a : Tracker) (causes : List Nat) : Bool := !(lineBreaks l a.state causes).isEmpty

/-- The line becomes UNCERTAIN by one of the causes. -/
def becomesUncertain (l : Fin 4) (a : Tracker) (causes : List Nat) : Bool := (lineBreaks l a.state causes).any (fun n => n.reason == 1)

/-- A segment after an item that met a discontinuity, or none (R68). -/
def Segment.mark (broke : Bool) (g : Segment) : Segment := { g with suspect := g.suspect || broke }

/-- The exit record after an item that met a discontinuity, or none: the winding is marked when the record holds names (R68). -/
def ExitRecord.mark (broke : Bool) (x : ExitRecord) : ExitRecord := { x with suspect := x.suspect || broke && !x.names.isEmpty }

/-- What discontinuities of an item leave beside its marks (R68, R183, R185): the item's notices, those before them among them, and after
them what the last steps raise; the count of uncertain entries; and the condition instance UNCERTAIN, entered when the line becomes so. -/
def Discontinued (l : Fin 4) (before : List Notice) (causes : List Nat) (after : List Notice) (s t : State) : Prop :=
  let a := s.trackers[l]
  NoticesTaken (before ++ lineBreaks l a.state causes ++ after) s t ∧
  (t.trackers[l]).cnt.uncertain = (if becomesUncertain l a causes then bump a.cnt.uncertain else a.cnt.uncertain) ∧
  (becomesUncertain l a causes = false → t.slc.uncertain[l] = s.slc.uncertain[l]) ∧
  ∀ n ∈ lineBreaks l a.state causes, n.reason = 1 →
    t.slc.uncertain[l] = some { notice := n, repeats := 0, timer := s.slc.settings.lineRepeat }

/-- The notice of an item that arrives whole in this step on a SILENT line (R71, log entry 14). -/
def arrivalNotices (l : Fin 4) (s : State) : List Notice :=
  if (s.ports[l]).order = [] ∧ (s.trackers[l]).silent = true then [{ cls := .line, reason := 5, line := some l.1 }] else []

/-- The port once its tracker has taken an item: the item has left the hand-over order, or has arrived whole (log entry 14), and the frames it
misses (R57) and a malformed one (R72) are counted. -/
def Port.afterItem (p : Port) (missed : Nat) (malformed : Bool) : Port :=
  { p with
    order := p.order.tail
    cnt := { p.cnt with
      taken := if p.order = [] then bump p.cnt.taken else p.cnt.taken
      missed := if missed = 0 then p.cnt.missed else bump p.cnt.missed missed
      malformed := if malformed then bump p.cnt.malformed else p.cnt.malformed } }

/-- The item, its sequence number `seq`, is found malformed (R72): it changes no odometer, base or exit record, it is counted, and it is a
discontinuity of cause MALFORMED, behind a sequence gap if there is one, with the marks, counts and notices of R68; the leaving check of R81
follows. -/
def ItemRejected (c : Instr) (l : Fin 4) (seq : Byte) (s : State) : Prop :=
  let a := s.trackers[l]
  let causes := gapCauses a.lastSeq seq.toNat ++ [2]
  ∃ t, exec c s = .next t ∧ Touches [.ports, .trackers, .slc] s t ∧ OtherLines l s t ∧
    (t.trackers[l]).feed = a.feed ∧ (t.trackers[l]).feedBase = a.feedBase ∧
    (t.trackers[l]).delivery = a.delivery ∧ (t.trackers[l]).deliveryBase = a.deliveryBase ∧
    (t.trackers[l]).pair = a.pair ∧ (t.trackers[l]).exit = a.exit.mark (breaksLine l a causes) ∧
    (t.trackers[l]).map = a.left.map.map (Segment.mark (breaksLine l a causes)) ∧
    (t.trackers[l]).work = none ∧ (t.trackers[l]).lastSeq = some seq.toNat ∧
    t.ports[l] = (s.ports[l]).afterItem (Missed a.lastSeq seq.toNat) true ∧
    Discontinued l (arrivalNotices l s) causes [] s t ∧
    (t.trackers[l]).cnt = { a.cnt with uncertain := (t.trackers[l]).cnt.uncertain } ∧
    (a.state = .tracking ∨ a.state = .uncertain → (t.trackers[l]).state = .uncertain) ∧
    (a.state = .waiting → (t.trackers[l]).state = .waiting)

/-! ## Readings at a slot -/

/-- A gauge slot after some readings, with how many of them were captured, lay below 0, came out of order, and the blocks closed. -/
structure SlotFilled where
  slot       : Slot
  captured   : Nat := 0
  belowZero  : Nat := 0
  outOfOrder : Nat := 0
  closed     : Nat := 0

/-- One reading at reference coordinate `x` (R97, R98, R99): its place in the slot's block, or why it is dropped. -/
def SlotFilled.take (q : SlotFilled) (x : Int) (raw : BitVec 16) (suspect : Bool) : SlotFilled :=
  let g := q.slot
  let last := match g.block with | some b => some b.last | none => g.mark
  let n := x.toNat
  let fresh : OpenBlock := { first := n, last := n, entries := [(0, raw)], suspect := suspect }
  if x < 0 then { q with belowZero := q.belowZero + 1 }
  else if last.any (fun m => decide (n < m)) then { q with outOfOrder := q.outOfOrder + 1 }
  else
    match g.block with
    | none => { q with captured := q.captured + 1, slot := { g with block := some fresh } }
    | some b =>
      if 65535 < n - b.first then
        { q with captured := q.captured + 1, closed := q.closed + 1, slot := { g with block := some fresh, mark := some b.last } }
      else if b.entries.length = 119 then
        { q with captured := q.captured + 1, closed := q.closed + 1, slot := { g with block := none, mark := some n } }
      else
        let more : OpenBlock :=
          { first := b.first, last := n, entries := b.entries ++ [(n - b.first, raw)], suspect := b.suspect || suspect }
        { q with captured := q.captured + 1, slot := { g with block := some more } }

/-- The readings of a frame one after another, the first at coordinate `x`, `stride` apart, less the gauge offset (R65, R97). -/
def fillSlot (suspect : Bool) (stride : Nat) : (x : Nat) → List (BitVec 16) → SlotFilled → SlotFilled
  | _, [], q => q
  | x, r :: rs, q => fillSlot suspect stride (x + stride) rs (q.take ((x : Int) - q.slot.offset) r suspect)

/-! ## The rest of an item -/

/-- The crossings of the eight possible segments in map order, head before tail, from those of segment `i` on (R74). -/
def crossingsFrom (i : Nat) : List Task := ((List.range 8).drop i).flatMap (fun k => [.crossHead k, .crossTail k])

/-- The steps are the last of an item: crossings, the keeping of the pair, the leaving check (R74). -/
def LastSteps (ks : List Task) : Prop :=
  ∀ k ∈ ks, (∃ i, k = .crossHead i ∨ k = .crossTail i) ∨ k = .keepPair ∨ k = .leave

/-- No head and no tail of the line's map is due to cross (R78). -/
def NoneDue (a : Tracker) : Prop :=
  ∀ x ∈ a.map, (x.dh = none → a.feed < x.fh + a.defn.pf) ∧ ∀ f, x.ft = some f → x.dt = none → a.feed < f + a.defn.pf

/-- What crossings can make of a segment (R78 to R80): a delivery mark it lacks is set, D_t only behind an F_t, and at its tail a segment
without fault may become a TRACK FAULT. -/
def Crossed (x y : Segment) : Prop :=
  y = { x with dh := y.dh, dt := y.dt, fault := y.fault } ∧ (x.dh ≠ none → y.dh = x.dh) ∧ (x.dt ≠ none → y.dt = x.dt) ∧
  (x.ft = none → y.dt = x.dt ∧ y.fault = x.fault) ∧ (y.fault = x.fault ∨ x.fault = .none ∧ y.fault = .trackFault)

/-- What the last steps of an item make of line `a` (R74, R78 to R81). Segments leave from the front of the map only, each with its tail
marked and its D_t, if it had one before, at or below the exit head; every other stands at its place from the end, changed by crossings at
most. The item then waits on FINALIZE LINKS of a segment in bounds or DROP PENDING of a TRACK FAULT, its segment named by its place, or it is
over, and the pair is the odometers if it was to be kept. Nothing else of the line changes but the count of track faults. -/
def RanLast (ks : List Task) (fromPort : Bool) (a b : Tracker) : Prop :=
  b = { a with pair := b.pair, map := b.map, cnt := { a.cnt with trackFaults := b.cnt.trackFaults }, work := b.work } ∧
  (∃ n, b.map.length + n = a.map.length ∧
    (∀ k x, k < n → a.map[k]? = some x → (x.ft ≠ none ∨ x.dt ≠ none) ∧
      ∃ e, a.exit.head = some e ∧ ∀ d, x.dt = some d → d ≤ e) ∧
    ∀ k x, a.map[k + n]? = some x → ∃ y, b.map[k]? = some y ∧ Crossed x y) ∧
  (b.work = none → b.pair = if .keepPair ∈ ks then some (a.feed, a.delivery) else a.pair) ∧
  ∀ v, b.work = some v → v.presented = false ∧ v.fromPort = fromPort ∧ LastSteps v.todo ∧
    ∃ x q, b.map[v.seg]? = some x ∧ x.coil = some q ∧
      (v.op = .dropPending q ∧ x.fault = .trackFault ∨
        ∃ ft dh dt len, v.op = .finalize q x.orient x.fh ft dh dt len x.suspect ∧ x.ft = some ft ∧ x.dh = some dh ∧ x.length = some len ∧
          x.fault = .none)

/-- How an item goes on from line `a`, where the result of its operation has been acted on, with the steps `ks` left, to line `b`.
R76: a segment removed for NO MATERIAL leaves the end of the map. R87: the exit record takes the CUT's next head and names, and the next MAKE
CHILD of the cut is presented after the one before. R75: an ENTRY places its segment at the end of the map and presents ENTER COIL for it. R90:
EMPTY LINE presents DROP PENDING for a segment whose head has crossed and whose tail has not, then empties the map and ends the winding at the
delivery odometer. R74: the last steps run, and where none of them makes a crossing, since none is left or none falls due, they keep the pair
and make the leaving check, and change nothing else. A later operation comes to the arbiter some time after (log entry 16). -/
def ItemGoesOn : List Task → Bool → Tracker → Tracker → Prop
  | .removeLast :: ks, fromPort, a, b => ItemGoesOn ks fromPort { a with map := a.map.dropLast } b
  | .setExit head names :: ks, fromPort, a, b =>
    ItemGoesOn ks fromPort { a with exit := { head := some head, names := names, suspect := a.state == .uncertain } } b
  | .make child scraps :: ks, fromPort, a, b =>
    b = { a with work := some { op := .makeChild child scraps, presented := false, seg := 0, todo := ks, fromPort := fromPort } }
  | .place orient fh declared name :: ks, fromPort, a, b =>
    b = { a with
      map := a.map ++ [{ coil := none, orient := orient, length := none, fh := fh, ft := none, dh := none, dt := none, suspect := false,
                         fault := .none }]
      work := some { op := .enterCoil name orient fh declared, presented := false, seg := a.map.length, todo := ks, fromPort := fromPort } }
  | .drop i :: ks, fromPort, a, b =>
    (∀ x q, a.map[i]? = some x → x.coil = some q → x.fault = .none → x.dh ≠ none → x.dt = none →
      b = { a with work := some { op := .dropPending q, presented := false, seg := i, todo := ks, fromPort := fromPort } }) ∧
    ((∀ x, a.map[i]? = some x → x.coil = none ∨ x.fault ≠ .none ∨ x.dh = none ∨ x.dt ≠ none) → ItemGoesOn ks fromPort a b)
  | .emptyMap :: ks, fromPort, a, b =>
    ItemGoesOn ks fromPort { a with map := [], exit := { head := some a.delivery, names := [], suspect := false } } b
  | ks, fromPort, a, b => LastSteps ks →
    RanLast ks fromPort a b ∧
    ((∀ k ∈ ks, k = .keepPair ∨ k = .leave) ∨ NoneDue a →
      let c : Tracker := { a with pair := if .keepPair ∈ ks then some (a.feed, a.delivery) else a.pair, work := none }
      b = if .leave ∈ ks then c.left else c)

/-- Segment `i` of line `a`, its tail not marked on the delivery side, stands after the last steps of its item at its place from the end of the
map, changed by `f` and with its head crossed at most, if its feed tail is absent or no crossing falls due (R74, R78, R81). -/
def Stands (ks : List Task) (i : Nat) (f : Segment → Segment) (a b : Tracker) : Prop :=
  LastSteps ks → ∀ x, a.map[i]? = some x → x.dt = none → x.ft = none ∨ NoneDue a →
    ∃ n y, b.map.length + n = a.map.length ∧ n ≤ i ∧ b.map[i - n]? = some y ∧ y = { f x with dh := y.dh }

/-- The item whose operation was performed goes on, and when it is over, an event of the host is answered ACCEPTED (R88, R90); until then,
and for an item of the port, the link's replies and Request Unit are as they were. -/
def ItemAnswered (s t : State) (l : Fin 4) (w : Work) : Prop :=
  (∀ f, w.fromPort = false → s.slc.unit = .event f l → (t.trackers[l]).work = none → Answered s t (accepted f) none) ∧
  (w.fromPort = true ∨ (t.trackers[l]).work ≠ none → t.slc.unit = s.slc.unit ∧ t.outgoing = s.outgoing)

/-! ## CLEAR ALL DATA at capture and archive -/

/-- The group table names each group once, by rising number. -/
def GroupsInv (a : Archive) : Prop := a.groups.Pairwise (fun p q => p.1 < q.1)

/-- What a waiting CLEAR ALL DATA makes of capture and archive as soon as a flash operation has ended (R121, R190), where `usable` are the
groups then ERASED, FILLING or FULL: the block sequence is 1, queue, index and requests are empty, no block is open and no mark stands; each
usable group is FULL and the write point is at page 0 of the first of them; one that is not usable is BAD or FAILING, and BAD where it was BAD or
the walk to the write point meets it (log entry 45). Last operation, last channel served and gauge table are kept. The request is answered when
table and trackers have applied their part too. -/
def StoreCleared (usable : Nat → Prop) (s t : State) : Prop :=
  let k := s.archive
  let new := t.archive
  new = { groups := new.groups, group := new.group, exhausted := new.exhausted, nextBlock := 1, queue := [], headFailed := false,
          occupancy := 0, marks := new.marks, page := 0, op := none, lastOp := k.lastOp, lastChan := k.lastChan,
          index := Vector.replicate 64 [], requests := [], clear := false, cnt := new.cnt } ∧
  (GroupsInv k →
    (∀ g, usable g → (∀ j < g, ¬usable j) → new.group = g) ∧ ((∀ g, ¬usable g) → new.group = 0) ∧
    ∀ g < 4096, (usable g → new.groupState g = .full) ∧
      (¬usable g → (new.groupState g = .bad ∨ new.groupState g = .failing) ∧
        (k.groupState g = .bad ∧ (k.op = some .program → g ≠ k.group) ∨ (∀ j < g, ¬usable j) → new.groupState g = .bad))) ∧
  t.capture = { s.capture with slots := t.capture.slots } ∧
  (∀ i : Fin 64, t.capture.slots[i] = { s.capture.slots[i] with block := none, mark := none }) ∧
  (∀ f, s.slc.unit = .clearing f true → (∀ l : Fin 4, (s.trackers[l]).clear = false) → Answered s t (accepted f) none) ∧
  ∀ f d, s.slc.unit = .clearing f d → d = false ∨ (∃ l : Fin 4, (s.trackers[l]).clear = true) →
    t.slc.unit = s.slc.unit ∧ t.outgoing = s.outgoing

/-! ## Sequences of commands -/

/-- The commands one after another; none when one of them does not answer a next state. -/
def performAll : List Instr → State → Option State
  | [], s => some s
  | c :: cs, s => match exec c s with
    | .next t => performAll cs t
    | _ => none

/-! ## Operations of the Genealogy Table -/

/-- No tracker has an operation waiting at the arbiter. -/
def TrackersQuiet (s : State) : Prop := ∀ l : Fin 4, ∀ w, (s.trackers[l]).work = some w → w.presented = false

/-- The turn of the operation the tracker of line `l` has in hand: it is at the arbiter, or comes there now, and the arbiter chooses it. -/
def Turn (s : State) (l : Fin 4) (w : Work) : Prop :=
  (s.reachArbiter l).grant = some (.tracker l) ∧ (s.trackers[l]).work = some w

/-- A number no slot of the list bears, and the lowest such (R9). -/
def LowestFree (used : List Nat) (h : Nat) : Prop := h ∉ used ∧ ∀ k < h, k ∈ used

/-- Coil record `d` is `c` but for its link lists. -/
def SameCoil (c d : Coil) : Prop := d = { c with parents := d.parents, children := d.children }

/-- The pending link `m` belongs to the segment of coil `c` on line `l` (R19, R20). -/
def PendingFor (c : Coil) (l : Nat) (m : Link) : Prop :=
  m.handle ∈ c.children ∧ m.parentSpan = none ∧ m.line = l ∧ ∃ q, m.source = some q ∧ q.segment = c.seq

/-! ## Invariants -/

/-- The flash array is in canonical form. -/
def FlashInv (s : State) : Prop := Memory.wf s.flash = true

/-- Every queue of the link holds no more than its places: 4 frames received (R178), 8 replies (R180), 8 notices (R183), 2 stream
frames a channel (R143). What the START notice needs is part of it: no notice waits while the part is STARTING, a READY part has no start
under way, and RESET is not held while one is (R193, R194, R199). -/
def LinkInv (s : State) : Prop :=
  s.slc.buffer.length ≤ 4 ∧ s.slc.replies.length ≤ 8 ∧ s.slc.notices.length ≤ 8 ∧ (∀ ch : Fin 4, (s.slc.slots[ch]).length ≤ 2) ∧
  (s.startUp.ready = false → s.slc.notices = []) ∧ (s.startUp.ready = true → s.startUp.start = none ∧ s.startUp.held = false) ∧
  (s.startUp.start ≠ none → s.startUp.held = false)

/-- The coil pool and the link pool hold their records in distinct slots, each within the pool (section 1.3, R9), and every handle in a
coil's two link lists is that of a link in the pool, listed once (R6). -/
def PoolInv (g : Genealogy) : Prop :=
  g.coils.Pairwise (fun c d => c.handle < d.handle) ∧ (∀ c ∈ g.coils, c.handle < coilSlots) ∧
  g.links.Pairwise (fun l m => l.handle < m.handle) ∧ (∀ l ∈ g.links, l.handle < linkSlots) ∧
  ∀ c ∈ g.coils, c.parents.Nodup ∧ c.children.Nodup ∧ ∀ h ∈ c.parents ++ c.children, ∃ m ∈ g.links, m.handle = h

/-- Law L8: no two indexed coil records share a name (R12). -/
def NameInv (g : Genealogy) : Prop :=
  ∀ c ∈ g.coils, ∀ d ∈ g.coils, c.indexed = true → d.indexed = true → c.name = d.name → c.handle = d.handle

end Sys2Proof.Machine
end

