-- ==== Sys2Proof/WellFormed.lean ====
section
/-! DEFINITION. When a command is well formed: its operands are values the rules let the outside world send. Every other bound on an
operand is in its type. -/

namespace Sys2Proof

open Sys2Proof.Machine

/-- A payload holds 0 to 1,024 bytes (R177). -/
def Req.wf (r : Req) : Bool := decide (r.payload.length ≤ 1024)

/-- A READ gives the bytes of a page image with its CRC (section 11.5). -/
def ReadBack.wf : ReadBack → Bool
  | .asStored => true
  | .bytes b => b.length == pageSize

/-- Well-formed commands. -/
def Instr.wf : Instr → Bool
  | .identify r => r.wf
  | .defineLine r => r.wf
  | .defineGauge r => r.wf
  | .defineProfile r => r.wf
  | .readDefinition r => r.wf
  | .setNotices r => r.wf
  | .injectEntry r => r.wf
  | .injectTail r => r.wf
  | .injectCut r => r.wf
  | .resyncLine r => r.wf
  | .emptyLine r => r.wf
  | .importFrame r => r.wf
  | .retire r _ => r.wf
  | .lookup r => r.wf
  | .closeBlocks r => r.wf
  | .setTarget r => r.wf
  | .setRange r => r.wf
  | .setTraces r => r.wf
  | .setProfile r => r.wf
  | .setDepth r => r.wf
  | .resetChannel r => r.wf
  | .runPlayback r => r.wf
  | .runAncestry r => r.wf
  | .runDescent r => r.wf
  | .hold r => r.wf
  | .release r => r.wf
  | .cancel r => r.wf
  | .poll r => r.wf
  | .readCounters r => r.wf
  | .linkClear r => r.wf
  | .clearAllData r => r.wf
  | .unknownKind k r => r.wf && !kindKnown k
  | .replyPlaced => true
  | .linkByte _ _ => true
  | .gapTimeout => true
  | .frameTransmitted => true
  | .noticeRepeat _ => true
  | .character _ _ _ _ _ _ => true
  | .idleEvent _ => true
  | .silent _ => true
  | .position _ _ _ _ _ => true
  | .readings _ _ g first st raws time => frameFormOk (.readings g first st raws.values time)
  | .entry _ _ feed o d name => frameFormOk (.entry feed o d name)
  | .tail _ _ _ => true
  | .cut _ _ c n names => frameFormOk (.cut c n names)
  | .malformedItem _ _ _ => true
  | .restartMark _ => true
  | .injectedEvent _ => true
  | .trackerClear _ => true
  | .enterCoil _ => true
  | .closeEntry _ => true
  | .makeChild _ => true
  | .finalizeLinks _ => true
  | .dropPending _ => true
  | .importCoil => true
  | .importLink => true
  | .planStep _ => true
  | .gtClear => true
  | .gaugeIdleExpiry _ => true
  | .program _ => true
  | .erase _ => true
  | .read b => b.wf
  | .streamFramePlaced _ => true
  | .resetAsserted _ => true
  | .resetReleased _ => true
  | .powerOn _ _ => true
  | .coldStart _ => true
  | .resume p _ _ => p.wf

end Sys2Proof
end

