-- ==== Sys2Proof/Certificates/Slice0/Obligations.lean ====
section
/-! DEFINITION. The statements for the provers, from the numbered rules of spec/. Each is a proposition about the model; none is proved
here. Words such as `Admitted`, `Answered`, `Touches` are those of Sys2Proof/Safety.lean. -/

open Sys2Proof Sys2Proof.Machine

/-! ## The machine as a whole -/

/-- One step takes the command at the front of the queue and performs it with the queue's rest; with no command waiting the part idles.
The queue and the idling are the model's own (log entry 7). -/
def Obligations.StepRunsFrontCommand : Prop :=
  (∀ (c : Instr) (rest : List Instr) (s : State), s.pending = c :: rest → step s = exec c { s with pending := rest }) ∧
  ∀ s : State, s.pending = [] → step s = .next s

/-- Every command, in every state, answers a next state, and changes at most the blocks that `touched` lists for it: no command faults or is refused
by the model, the queue of commands and every block not listed read as before. The flash array is among the blocks of PROGRAM, ERASE and RESUME
only; that RESET ASSERTED and POWER ON leave it as it is also while a PROGRAM or an ERASE is abandoned, is the model's choice, since R193 leaves the
flash to end it as it may (log entry 10). That a command not enabled leaves the state as it is, is the model's choice (log entry 8). -/
def Obligations.EveryCommandTouchesOnlyItsBlocks : Prop :=
  ∀ (c : Instr) (s : State), ∃ t, exec c s = .next t ∧ Touches (touched c) s t

/-- R179: a request at hand meets the checks STARTING, UNKNOWN KIND, BAD LENGTH, BAD CHANNEL in that order; the first that fails gives
REFUSED with its code, and the request changes nothing. For every request command, a frame of unknown kind among them. A request given with
the receive buffer empty has the effect it has with its frame, of at most 1,024 payload bytes, just received (the model's, log entry 14). -/
def Obligations.RequestChecksInOrder : Prop :=
  (∀ (c : Instr) (kind : Byte) (r : Req) (s : State), requestOf c = some (kind, r) → c.wf = true → s.linkUp = true →
    s.slc.unit = .free → s.slc.buffer = [] → r.payload.length ≤ 1024 → exec c s = exec c (s.withFrame (reqFrame kind r))) ∧
  ∀ (c : Instr) (kind : Byte) (r : Req) (s : State) (code : Code),
    requestOf c = some (kind, r) → c.wf = true → Handed s kind r →
    (s.startUp.ready = false ∧ code = .starting ∨
      s.startUp.ready = true ∧ kindKnown kind = false ∧ code = .unknownKind ∨
      s.startUp.ready = true ∧ kindKnown kind = true ∧ lengthOk kind r.payload = false ∧ code = .badLength ∨
      s.startUp.ready = true ∧ kindKnown kind = true ∧ lengthOk kind r.payload = true ∧ channelOk kind r.channel = false ∧
        code = .badChannel) →
    OnlyReplies c s (refusal kind r code)

/-! ## Requests the link answers -/

/-- R181: IDENTIFY is answered with the family, the part number, the revision letter, the capacities, the link rate of the straps and the
kind of the last start; it changes nothing, but that its frame has left the receive buffer. -/
def Obligations.IdentifyAnswersIdentity : Prop :=
  ∀ (r : Req) (s : State), FrameAtHand s 0x01#8 r →
    ∃ t, exec (.identify r) s = .next t ∧ Touches [.slc] s t ∧ LinkKeptBut s.slc.cnt.received s t ∧
      t.slc.cnt.refusals = s.slc.cnt.refusals ∧
      Answered s t { kind := 0x83#8, channel := r.channel, tag := r.tag, payload :=
        [6#8, 0x43#8, 0x61#8, 0x73#8, 0x76#8, 0x65#8, 0x6C#8, 0#8, 0#8, 0#8, 0#8, 0#8, 0#8, 0#8, 0#8, 0#8, 0#8,
          0x12#8, 0xD4#8, 0x42#8, 4#8, 64#8, 4#8, 16#8, 0x40#8, 0x00#8, 0xC0#8, 0x00#8, 0x10#8, 0x00#8, 64#8,
          BitVec.ofNat 8 s.startUp.straps.1, match s.startUp.last with | .cold => 0#8 | .resume => 1#8] } none

/-- R182: READ DEFINITION returns the object as it stands and changes nothing; a number outside its range, or no object, is BAD VALUE.
That the request may arrive whole in the same step is the model's (log entry 14). -/
def Obligations.ReadDefinitionReturnsObject : Prop :=
  ∀ (r : Req) (s : State) (kind n : Nat), Admitted s 0x05#8 r → field r.payload 0 1 = kind → field r.payload 1 1 = n →
    let answer (contents : List Byte) : Prop :=
      OnlyReplies (.readDefinition r) s { kind := 0x84#8, channel := r.channel, tag := r.tag, payload := r.payload.take 2 ++ contents }
    (kind = 0 → ∀ h : n < 4, answer (s.trackers[n].defn.bytes)) ∧
    (kind = 1 → ∀ h : n < 64, answer
      (boolByte s.capture.slots[n].defined :: (beBytes 4 s.capture.slots[n].dseq
        ++ if s.capture.slots[n].defined then s.capture.slots[n].bytes else []))) ∧
    (kind = 2 → ∀ h : n < 16, answer (s.profiles[n].bytes)) ∧
    (kind = 3 → ∀ h : n < 4, answer (byteOf s.channels[n].state.code :: s.channels[n].staged.bytes)) ∧
    (kind = 4 → answer (s.slc.settings.bytes)) ∧
    (4 < kind ∨ (kind = 0 ∨ kind = 3) ∧ 4 ≤ n ∨ kind = 1 ∧ 64 ≤ n ∨ kind = 2 ∧ 16 ≤ n →
      OnlyReplies (.readDefinition r) s (refusal 0x05#8 r .badValue))

/-- What DEFINE LINE, DEFINE GAUGE, DEFINE PROFILE and SET NOTICES carry, READ DEFINITION gives back byte for byte: the contents formed
from the settings a request was read as are the request's own bytes (R62, R94, R159, R184, R182). -/
def Obligations.DefinitionsReadBackAsSent : Prop :=
  (∀ (p : List Byte) (l : Fin 4) (d : LineDef), p.length = 19 → lineOf p = some (l, d) → d.bytes = p.drop 1) ∧
  (∀ (p : List Byte) (g : GaugeForm) (d : Slot), p.length = 17 → gaugeOf p = some g → g.fields = some d → d.bytes = p.drop 3) ∧
  (∀ (p : List Byte) (n : Fin 16) (d : Profile), p.length = 12 → profileOf p = some (n, d) → d.bytes = p.drop 1) ∧
  ∀ (p : List Byte) (n : NoticeSettings), p.length = 7 → noticesOf p = some n → n.bytes = p

/-- R184, R185: SET NOTICES replaces the seven settings at once; under REPEAT the timers of the class's instances that hold run, under
ONCE they stop; a value that is neither yes nor no, ONCE nor REPEAT is BAD VALUE. -/
def Obligations.SetNoticesReplacesSettings : Prop :=
  ∀ (r : Req) (s : State), Admitted s 0x06#8 r →
    (∀ n : NoticeSettings, noticesOf r.payload = some n →
      ∃ t, exec (.setNotices r) s = .next t ∧ Answered s t (acceptance r) none ∧ Touches [.slc] s t ∧
        t.slc.settings = n ∧ t.slc.masked = s.slc.masked ∧ t.slc.dropped = s.slc.dropped ∧ t.announced = s.announced ∧
        (∀ l : Fin 4, t.slc.uncertain[l] = (s.slc.uncertain[l]).map (fun i => { i with timer := n.lineRepeat }) ∧
          t.slc.silent[l] = (s.slc.silent[l]).map (fun i => { i with timer := n.lineRepeat })) ∧
        t.slc.exhausted = s.slc.exhausted.map (fun i => { i with timer := n.archiveRepeat })) ∧
    ((∃ i, ∃ h : i < r.payload.length, 1 < (r.payload[i]).toNat) → OnlyReplies (.setNotices r) s (refusal 0x06#8 r .badValue))

/-- R187: POLL is answered with the status of every block as it stands, and then the masked and dropped counts are 0; nothing else is
changed, but that its frame has left the receive buffer. -/
def Obligations.PollAnswersSummary : Prop :=
  ∀ (r : Req) (s : State), FrameAtHand s 0x1C#8 r →
    ∃ t, exec (.poll r) s = .next t ∧ Touches [.slc] s t ∧
      Answered s t { kind := 0x87#8, channel := r.channel, tag := r.tag, payload :=
        1#8 :: (s.trackers.toList.flatMap (fun k => [byteOf k.state.code, boolByte k.silent, byteOf k.map.length,
              byteOf k.exit.names.length])
          ++ s.channels.toList.flatMap (fun c => [byteOf c.state.code, byteOf (match c.run with | some q => q.kind.code | none => 0)])
          ++ [byteOf ((if s.archive.exhausted then 1 else 0) + (if s.table.session.isSome then 2 else 0))]
          ++ beBytes 2 s.archive.usable ++ [byteOf s.archive.queue.length] ++ beBytes 2 s.table.coils.length
          ++ beBytes 2 s.table.links.length ++ beBytes 4 s.slc.masked ++ beBytes 4 s.slc.dropped) } none ∧
      t.slc.masked = 0 ∧ t.slc.dropped = 0 ∧ t.slc.settings = s.slc.settings ∧ t.slc.uncertain = s.slc.uncertain ∧
      t.slc.silent = s.slc.silent ∧ t.slc.exhausted = s.slc.exhausted ∧ t.announced = s.announced ∧
      t.slc.rx = s.slc.rx ∧ t.slc.buffer = s.slc.buffer.tail ∧ t.slc.slots = s.slc.slots ∧ t.slc.lastChan = s.slc.lastChan ∧
      t.slc.cnt = s.slc.cnt

/-- R188: READ COUNTERS returns the group's counters as they stand, in their order, and with the option yes every counter of the group is
0 afterwards, while with no nothing is zeroed; another group or option is BAD VALUE. The link group counts the request itself among
frames received when it arrives whole in this step (log entry 14). -/
def Obligations.ReadCountersReturnsGroup : Prop :=
  ∀ (r : Req) (s : State) (zero : Bool), Admitted s 0x1D#8 r →
    let answer (t : State) (cs : List Nat) : Prop :=
      Answered s t { kind := 0x88#8, channel := r.channel, tag := r.tag,
                     payload := [byteOf (field r.payload 0 1), byteOf cs.length] ++ cs.flatMap (beBytes 4) } none
    (field r.payload 1 1 = (if zero then 1 else 0) →
      (∀ l : Fin 4, field r.payload 0 1 = l.1 → ∃ t, exec (.readCounters r) s = .next t ∧
        (let a := (s.ports[l]).cnt
         let b := (s.trackers[l]).cnt
         answer t [a.taken, a.passed, a.parityErrors, a.framingErrors, a.overruns, a.checkFailures, a.malformed, a.missed, a.breaks,
           b.jumps, b.holds, b.uncertain, b.trackFaults, b.detached, b.lost]) ∧
        (zero = false → Touches [.slc] s t ∧ LinkKept s t) ∧
        (zero = true → Touches [.ports, .trackers, .slc] s t ∧ LinkKept s t ∧ OtherLines l s t ∧
          t.ports[l] = { s.ports[l] with cnt := {} } ∧ t.trackers[l] = { s.trackers[l] with cnt := {} })) ∧
      (field r.payload 0 1 = 4 → ∃ t, exec (.readCounters r) s = .next t ∧
        (let c := s.capture.cnt
         answer t [c.captured, c.undefinedGauge, c.belowZero, c.outOfOrder, c.closed, c.queueFull]) ∧
        Touches [.capture, .slc] s t ∧ LinkKept s t ∧ t.capture = (if zero then { s.capture with cnt := {} } else s.capture)) ∧
      (field r.payload 0 1 = 5 → ∃ t, exec (.readCounters r) s = .next t ∧
        (let c := s.archive.cnt
         answer t [c.stored, c.unindexed, c.dropped, c.lost, c.programFailures, c.erases, c.eraseFailures, c.retired, c.reads,
           c.readFaults, c.readsRetired]) ∧
        Touches [.archive, .slc] s t ∧ LinkKept s t ∧ t.archive = (if zero then { s.archive with cnt := {} } else s.archive)) ∧
      (field r.payload 0 1 = 6 → ∃ t, exec (.readCounters r) s = .next t ∧
        (let c := s.taken.slc.cnt
         answer t [c.received, c.lengthErrors, c.gapTimeouts, c.charErrors, c.checkFailures, c.bufferFull, c.refusals, c.repliesSent,
           c.noticesSent, c.streamsSent]) ∧
        Touches [.slc] s t ∧ (zero = false → LinkKept s t) ∧ (zero = true → t.slc.cnt = {}))) ∧
    (6 < field r.payload 0 1 ∨ 1 < field r.payload 1 1 → OnlyReplies (.readCounters r) s (refusal 0x1D#8 r .badValue))

/-! ## Definitions -/

/-- R159: DEFINE PROFILE with a value outside its range is BAD VALUE; while a RUNNING or HELD channel runs a playback run under the
profile it is IN USE; otherwise the profile's seven fields are replaced, the other profiles kept, and the reply is ACCEPTED. -/
def Obligations.DefineProfileReplacesFields : Prop :=
  ∀ (r : Req) (s : State), Admitted s 0x04#8 r →
    (profileOf r.payload = none → OnlyReplies (.defineProfile r) s (refusal 0x04#8 r .badValue)) ∧
    ∀ (n : Fin 16) (p : Profile), profileOf r.payload = some (n, p) →
      let used : Prop := ∃ ch : Fin 4, ((s.channels[ch]).state = .running ∨ (s.channels[ch]).state = .held) ∧
        ∃ q w, (s.channels[ch]).run = some q ∧ q.body = .play w ∧ w.profile = n
      (used → OnlyReplies (.defineProfile r) s (refusal 0x04#8 r .inUse)) ∧
      (¬used → ∃ t, exec (.defineProfile r) s = .next t ∧ Answered s t (acceptance r) none ∧ LinkKept s t ∧
        Touches [.profiles, .slc] s t ∧ t.profiles[n] = p ∧ ∀ m : Fin 16, m ≠ n → t.profiles[m] = s.profiles[m])

/-- R94, R95: the tests of DEFINE GAUGE in their order, each with its refusal; an accepted request closes the slot's open block, with DISCARD
empties the slot's index list, replaces the definition under the next definition sequence (1 after 4,294,967,295) with no closed mark, and leaves
every other slot; no index list gains an entry. What a slot set to not defined holds in its other fields is the model's choice (log entry 5). So is
that a request with defined no is BAD VALUE for a slot above 63, its other fields not examined, and that bits 1 to 7 of the flag byte are
disregarded (log entry 42). -/
def Obligations.DefineGaugeRedefinesSlot : Prop :=
  ∀ (r : Req) (s : State), Admitted s 0x03#8 r →
    (gaugeOf r.payload = none → OnlyReplies (.defineGauge r) s (refusal 0x03#8 r .badValue)) ∧
    ∀ g : GaugeForm, gaugeOf r.payload = some g →
      let laneBad : Prop := ∃ d n, g.fields = some d ∧ d.lane = .num n ∧
        ((s.trackers[finOf 3 d.line]).defn.lanes ≤ 1 ∨ (s.trackers[finOf 3 d.line]).defn.lanes ≤ n)
      let pairTaken : Prop := ∃ d, g.fields = some d ∧ ∃ i : Fin 64, i ≠ g.slot ∧ (s.capture.slots[i]).defined = true ∧
        (s.capture.slots[i]).line = d.line ∧ (s.capture.slots[i]).gauge = d.gauge
      let stored : Prop := g.discard = false ∧ s.archive.index[g.slot] ≠ []
      (laneBad → OnlyReplies (.defineGauge r) s (refusal 0x03#8 r .badValue)) ∧
      (¬laneBad → pairTaken → OnlyReplies (.defineGauge r) s (refusal 0x03#8 r .inUse)) ∧
      (¬laneBad → ¬pairTaken → stored → OnlyReplies (.defineGauge r) s (refusal 0x03#8 r .inUse)) ∧
      (¬laneBad → ¬pairTaken → ¬stored → ∃ t, exec (.defineGauge r) s = .next t ∧
        Touches [.capture, .archive, .slc] s t ∧
        (let old := s.capture.slots[g.slot]
         let seq := if old.dseq = 4294967295 then 1 else old.dseq + 1
         (∀ d, g.fields = some d → t.capture.slots[g.slot] = { d with dseq := seq, block := none, mark := none }) ∧
         (g.fields = none → (t.capture.slots[g.slot]).defined = false ∧ (t.capture.slots[g.slot]).dseq = seq ∧
           (t.capture.slots[g.slot]).block = none ∧ (t.capture.slots[g.slot]).mark = none)) ∧
        (∀ i : Fin 64, i ≠ g.slot → t.capture.slots[i] = s.capture.slots[i]) ∧
        ((s.capture.slots[g.slot]).block.isSome = true → t.capture.cnt.closed = bump s.capture.cnt.closed) ∧
        (g.discard = true → t.archive.index[g.slot] = []) ∧
        (∀ (i : Fin 64) (e : Entry), e ∈ t.archive.index[i] → e ∈ s.archive.index[i]) ∧
        Answered s t (acceptance r) none)

/-- R60, R62, R63: DEFINE LINE with a value outside its range is BAD VALUE; a change of P_f, P_d or the lane count is IN USE while the track map
holds a segment or the exit record holds winding names. An accepted DEFINE LINE that finds the line's tracker between two items takes effect and is
answered ACCEPTED. An enabled line's tracker goes from UNDEFINED to WAITING with its silence timer running and its port settles; a disabled one goes
to UNDEFINED with bases, pair, sequence number and SILENT cleared and its port OFF with nothing in its hand-over order, its two conditions end, and
the open blocks of its slots are closed, each slot's mark the last coordinate of its block; no other slot, and no slot otherwise, changes. Map, exit
record and odometers stay, and the other lines are untouched. A changed silence time of a line that stays enabled restarts its silence timer; that
it does so on a SILENT line, which stays SILENT, is the model's reading (log entry 19). A request that finds the tracker in the middle of an item
waits (R88). -/
def Obligations.DefineLineTakesEffect : Prop :=
  (∀ (r : Req) (s : State), Admitted s 0x02#8 r → lineOf r.payload = none →
    OnlyReplies (.defineLine r) s (refusal 0x02#8 r .badValue)) ∧
  ∀ (r : Req) (s : State) (l : Fin 4) (d : LineDef), Admitted s 0x02#8 r → lineOf r.payload = some (l, d) →
    let old := (s.trackers[l]).defn
    let locked : Prop := ((s.trackers[l]).map ≠ [] ∨ (s.trackers[l]).exit.names ≠ []) ∧
      (d.pf ≠ old.pf ∨ d.pd ≠ old.pd ∨ d.lanes ≠ old.lanes)
    (locked → OnlyReplies (.defineLine r) s (refusal 0x02#8 r .inUse)) ∧ (¬locked →
    (s.between l = true → ∃ t, exec (.defineLine r) s = .next t ∧ OtherLines l s t ∧
      Touches [.ports, .trackers, .capture, .archive, .slc] s t ∧
      Answered s t (acceptance r) none ∧
      (t.trackers[l]).defn = d ∧ (t.trackers[l]).map = (s.trackers[l]).map ∧ (t.trackers[l]).exit = (s.trackers[l]).exit ∧
      (t.trackers[l]).feed = (s.trackers[l]).feed ∧ (t.trackers[l]).delivery = (s.trackers[l]).delivery ∧
      (t.trackers[l]).cnt = (s.trackers[l]).cnt ∧ (t.ports[l]).cnt = (s.ports[l]).cnt ∧
      (old.enabled = false → d.enabled = true → (t.trackers[l]).state = .waiting ∧ (t.trackers[l]).timer = true ∧
        (t.ports[l]).rx = .settling) ∧
      (old.enabled = true → d.enabled = false → (t.trackers[l]).state = .undefined ∧ (t.trackers[l]).feedBase = none ∧
        (t.trackers[l]).deliveryBase = none ∧ (t.trackers[l]).pair = none ∧ (t.trackers[l]).lastSeq = none ∧
        (t.trackers[l]).silent = false ∧ (t.trackers[l]).timer = false ∧ (t.ports[l]).rx = .off ∧ (t.ports[l]).order = [] ∧
        t.slc.uncertain[l] = none ∧ t.slc.silent[l] = none ∧
        ∀ i : Fin 64,
          let mine : Prop := (s.capture.slots[i]).defined = true ∧ (s.capture.slots[i]).line = l.1
          (¬mine ∨ (s.capture.slots[i]).block = none → t.capture.slots[i] = s.capture.slots[i]) ∧
          ∀ b, mine → (s.capture.slots[i]).block = some b →
            t.capture.slots[i] = { s.capture.slots[i] with block := none, mark := some b.last }) ∧
      (old.enabled = false ∨ d.enabled = true → t.capture = s.capture) ∧
      (old.enabled = true → d.enabled = true → (t.trackers[l]).state = (s.trackers[l]).state ∧
        (t.trackers[l]).silent = (s.trackers[l]).silent ∧
        (t.trackers[l]).timer = (if old.silence = d.silence then (s.trackers[l]).timer else true) ∧
        (t.ports[l]).order = (s.ports[l]).order ∧
        (old.address ≠ d.address ∨ old.rate ≠ d.rate ∨ old.parity ≠ d.parity → (t.ports[l]).rx = .settling ∧ (t.ports[l]).cur = none) ∧
        (old.address = d.address → old.rate = d.rate → old.parity = d.parity → t.ports[l] = s.ports[l])) ∧
      (old.enabled = d.enabled → d.enabled = false → t.ports[l] = s.ports[l] ∧ (t.trackers[l]).state = (s.trackers[l]).state)) ∧
    (s.between l = false → ∃ t, exec (.defineLine r) s = .next t ∧ Touches [.slc] s t ∧
      t.slc.unit = .line { kind := 0x02#8, channel := r.channel, tag := r.tag, payload := r.payload } l (.define d) ∧
      t.outgoing = s.outgoing))

/-- R89, R69: RESYNC LINE at a tracker between two items returns an UNCERTAIN line to TRACKING with the LINE notice RESTORED, changes
nothing in TRACKING, and is BAD VALUE in WAITING and UNDEFINED and for a line that does not exist. A request that finds the tracker in the
middle of an item waits.
That the request may arrive whole in the same step is the model's (log entry 14). -/
def Obligations.ResyncLineRestoresTracking : Prop :=
  ∀ (r : Req) (s : State), Admitted s 0x0A#8 r →
    (3 < field r.payload 0 1 → OnlyReplies (.resyncLine r) s (refusal 0x0A#8 r .badValue)) ∧
    ∀ l : Fin 4, field r.payload 0 1 = l.1 →
      (s.between l = true →
        ((s.trackers[l]).state = .uncertain → ∃ t, exec (.resyncLine r) s = .next t ∧ Answered s t (acceptance r) none ∧
          Touches [.trackers, .slc] s t ∧ OtherLines l s t ∧ t.trackers[l] = { s.trackers[l] with state := .tracking } ∧
          t.slc.uncertain[l] = none ∧
          NoticeTaken s t .line (noticeFrame (noticeBytes { cls := .line, reason := 3, line := some l.1 } none))) ∧
        ((s.trackers[l]).state = .tracking → OnlyReplies (.resyncLine r) s (acceptance r)) ∧
        ((s.trackers[l]).state = .waiting ∨ (s.trackers[l]).state = .undefined →
          OnlyReplies (.resyncLine r) s (refusal 0x0A#8 r .badValue))) ∧
      (s.between l = false → ∃ t, exec (.resyncLine r) s = .next t ∧ Touches [.slc] s t ∧ t.outgoing = s.outgoing ∧
        t.slc.unit = .line { kind := 0x0A#8, channel := r.channel, tag := r.tag, payload := r.payload } l .resync)

/-- R90: EMPTY LINE that finds the tracker between two items, or one that waited for it and is given again then. When no segment calls for a
genealogy operation, the map is emptied, the exit record becomes the delivery odometer with no winding names, and the reply is ACCEPTED. An OPEN
last segment of a coil is closed at the later of its feed head and the feed odometer, with CLOSE ENTRY presented first; the drops of all eight
possible segments and the emptying of the map are the steps left. Otherwise DROP PENDING is presented for the first segment whose head has crossed
and whose tail has not, with the drops of the segments behind it and the emptying left. R88: a request that finds the tracker in the middle of an
item is handed to it and waits, also when given again, and changes nothing of the line. A line number above 3 is BAD VALUE. That a request that
waits is carried on by being given again, and that it may arrive whole in the step, are the model's (log entries 12, 14). -/
def Obligations.EmptyLineEmptiesMap : Prop :=
  ∀ (r : Req) (s : State),
    let f : Frame := { kind := 0x0B#8, channel := r.channel, tag := r.tag, payload := r.payload }
    (Admitted s 0x0B#8 r → 3 < field r.payload 0 1 → OnlyReplies (.emptyLine r) s (refusal 0x0B#8 r .badValue)) ∧
    ∀ l : Fin 4, Admitted s 0x0B#8 r ∧ field r.payload 0 1 = l.1 ∨ s.slc.unit = .line f l .empty →
      let crossed (g : Segment) : Prop := g.coil ≠ none ∧ g.fault = .none ∧ g.dh ≠ none ∧ g.dt = none
      let closing : Prop := ∃ gs g, (s.trackers[l]).map = gs ++ [g] ∧ g.ft = none ∧ g.coil ≠ none
      let waits (t : State) : Prop :=
        t.slc.unit = .event f l ∧ t.outgoing = s.outgoing ∧
        (t.trackers[l]).feed = (s.trackers[l]).feed ∧ (t.trackers[l]).delivery = (s.trackers[l]).delivery ∧
        Touches [.trackers, .slc] s t ∧ OtherLines l s t
      (s.between l = true →
        (¬closing → (∀ g ∈ (s.trackers[l]).map, ¬crossed g) → ∃ t, exec (.emptyLine r) s = .next t ∧
          Answered s t (acceptance r) none ∧ Touches [.trackers, .slc] s t ∧ OtherLines l s t ∧
          t.trackers[l] = { s.trackers[l] with
            map := [], exit := { head := some (s.trackers[l]).delivery, names := [], suspect := false } }) ∧
        (∀ (gs : List Segment) (g : Segment) (q : Ref), (s.trackers[l]).map = gs ++ [g] → g.ft = none → g.coil = some q →
          ∃ t, exec (.emptyLine r) s = .next t ∧ waits t ∧
            (t.trackers[l]).map = gs ++ [{ g with ft := some (max g.fh (s.trackers[l]).feed) }] ∧
            (t.trackers[l]).work = some
              { op := .closeEntry q (max g.fh (s.trackers[l]).feed), presented := true, seg := gs.length,
                todo := (List.range 8).map .drop ++ [.emptyMap], fromPort := false }) ∧
        (∀ (gs hs : List Segment) (g : Segment) (q : Ref), ¬closing → (s.trackers[l]).map = gs ++ g :: hs → gs.length < 8 →
          (∀ x ∈ gs, ¬crossed x) → crossed g → g.coil = some q →
          ∃ t, exec (.emptyLine r) s = .next t ∧ waits t ∧ (t.trackers[l]).work = some
            { op := .dropPending q, presented := true, seg := gs.length,
              todo := ((List.range 8).drop (gs.length + 1)).map .drop ++ [.emptyMap], fromPort := false })) ∧
      (s.between l = false → ∃ t, exec (.emptyLine r) s = .next t ∧ Touches [.slc] s t ∧ t.slc.unit = .line f l .empty ∧
        t.outgoing = s.outgoing)

/-- R88: an INJECT request of values in range is passed to the line's tracker and the Request Unit waits for it; a value outside its
range is BAD VALUE, and so is an INJECT CUT whose next head lies before its cut or more than 200,000,000 mm beyond it. -/
def Obligations.InjectRequestsReachTracker : Prop :=
  ∀ (c : Instr) (kind : Byte) (r : Req) (s : State) (form : Option (Fin 4 × HostEvent)), Admitted s kind r →
    (c = .injectEntry r ∧ kind = 0x07#8 ∧ form = injectEntryOf r.payload ∨
      c = .injectTail r ∧ kind = 0x08#8 ∧ form = injectTailOf r.payload ∨
      c = .injectCut r ∧ kind = 0x09#8 ∧ form = injectCutOf r.payload) →
    (form = none → OnlyReplies c s (refusal kind r .badValue)) ∧
    ∀ (l : Fin 4) (e : HostEvent), form = some (l, e) →
      let outside : Prop := ∃ pos next names, e = .cut pos next names ∧
        (next.getD (s.trackers[l]).delivery < pos.getD (s.trackers[l]).delivery ∨
          pos.getD (s.trackers[l]).delivery + 200000000 < next.getD (s.trackers[l]).delivery)
      (outside → OnlyReplies c s (refusal kind r .badValue)) ∧
      (¬outside → ∃ t, exec c s = .next t ∧ LinkKept s t ∧ Touches [.slc] s t ∧ t.outgoing = s.outgoing ∧
        t.slc.unit = .line { kind := kind, channel := r.channel, tag := r.tag, payload := r.payload } l (.event e))

/-- R102: CLOSE BLOCKS closes the open block of every defined slot of the line, or of all 64 slots for 255, leaves the other slots, and is
answered ACCEPTED; a closed slot's mark is the last coordinate of its block. -/
def Obligations.CloseBlocksClosesSlots : Prop :=
  ∀ (r : Req) (s : State), Admitted s 0x0F#8 r →
    let n := field r.payload 0 1
    let addressed (i : Fin 64) : Prop := n = 255 ∨ (s.capture.slots[i]).defined = true ∧ (s.capture.slots[i]).line = n
    (n ≤ 3 ∨ n = 255 → ∃ t, exec (.closeBlocks r) s = .next t ∧ Touches [.capture, .archive, .slc] s t ∧
      Answered s t (acceptance r) none ∧
      ∀ i : Fin 64, ((¬addressed i ∨ (s.capture.slots[i]).block = none) → t.capture.slots[i] = s.capture.slots[i]) ∧
        ∀ b, addressed i → (s.capture.slots[i]).block = some b →
          t.capture.slots[i] = { s.capture.slots[i] with block := none, mark := some b.last }) ∧
    (3 < n ∧ n ≠ 255 → OnlyReplies (.closeBlocks r) s (refusal 0x0F#8 r .badValue))

/-! ## Requests of the Genealogy Table -/

/-- R13, R15, R24: RETIRE takes the coils below its bound once, by increasing creation sequence, and removes each that is then eligible. One that is
not ENTERED, that no track map refers to and that has no PENDING child link goes; one that is ENTERED, or referred to, or has a PENDING child link
that no coil taken before it shares, stays, and so does every coil from the bound on. R5, R24: exactly the links of removed coils go; every other
link stays as it is, and what stays keeps every field but its link lists, which lose those links and keep their order. The reply is ACCEPTED. With a
tracker's operation waiting it waits at the arbiter and removes nothing. One that is cut after some removals stays the operation being performed, at
most that many coils gone, and goes on from the sequence of the last coil removed, or from where it stood when none was; every coil below that was
to go is gone. That a RETIRE may be cut so, and is carried on by being given again, cut again or not, is the model's (log entry 12). -/
def Obligations.RetireRemovesEligibleCoils : Prop :=
  ∀ (r : Req) (s : State), PoolInv s.table →
    let g := s.table
    let f : Frame := { kind := 0x0D#8, channel := r.channel, tag := r.tag, payload := r.payload }
    let barred (bound next : Nat) (c : Coil) : Prop := c.seq < next ∨ bound ≤ c.seq ∨ c.state = .entered ∨
      ∃ l : Fin 4, ∃ x ∈ (s.trackers[l]).map, x.coil = some c.ref
    let pending (c : Coil) (m : Link) : Prop := m ∈ g.links ∧ m.handle ∈ c.children ∧ m.parentSpan = none
    let gone (t : State) (c : Coil) : Prop := ∀ d ∈ t.table.coils, d.handle ≠ c.handle
    let there (t : State) (h : Nat) : Bool := t.table.links.any (fun m => m.handle == h)
    let kept (bound next : Nat) (t : State) : Prop :=
      t.table = { g with coils := t.table.coils, links := t.table.links } ∧ (∀ m ∈ t.table.links, m ∈ g.links) ∧
      (∀ m ∈ g.links, m ∈ t.table.links ↔ ∀ c ∈ g.coils, m.handle ∈ c.parents ++ c.children → ¬gone t c) ∧
      (∀ d ∈ t.table.coils, ∃ c ∈ g.coils, SameCoil c d ∧ d.parents = c.parents.filter (there t) ∧ d.children = c.children.filter (there t)) ∧
      ∀ c ∈ g.coils, barred bound next c ∨ (∃ m, pending c m ∧ ∀ e ∈ g.coils, e.handle ≠ c.handle →
          m.handle ∈ e.parents ++ e.children → c.seq < e.seq ∨ barred bound next e) →
        ∃ d ∈ t.table.coils, SameCoil c d
    let whole (bound next : Nat) (t : State) : Prop := Answered s t (acceptance r) none ∧ Touches [.table, .slc] s t ∧
      kept bound next t ∧ ∀ c ∈ g.coils, ¬barred bound next c → (∀ m, ¬pending c m) → gone t c
    let cut (bound next n : Nat) (t : State) : Prop := exec (.retire r (some n)) s = .next t ∧ Touches [.table, .slc] s t ∧
      t.outgoing = s.outgoing ∧ kept bound next t ∧ g.coils.length ≤ t.table.coils.length + n ∧
      ∃ on, t.slc.unit = .table f (.retire bound on true) ∧ ((∀ c ∈ g.coils, ¬gone t c) → on = next) ∧
        (∀ c ∈ g.coils, gone t c → c.seq ≤ on ∧ ∃ d ∈ g.coils, gone t d ∧ d.seq = on) ∧
        ∀ c ∈ g.coils, ¬barred bound next c → (∀ m, ¬pending c m) → c.seq < on ∨ g.coils.length < t.table.coils.length + n → gone t c
    (Admitted s 0x0D#8 r →
      let bound := field r.payload 0 4
      (TrackersQuiet s → ∃ t, exec (.retire r none) s = .next t ∧ LinkKept s t ∧ whole bound 0 t) ∧
      (∀ n, TrackersQuiet s → ∃ t, cut bound 0 n t) ∧
      ∀ k, ¬TrackersQuiet s → ∃ t, exec (.retire r k) s = .next t ∧ Touches [.slc] s t ∧ LinkKept s t ∧ t.outgoing = s.outgoing ∧
        t.slc.unit = .table f (.retire bound 0 false)) ∧
    ∀ bound next, s.slc.unit = .table f (.retire bound next true) →
      (∃ t, exec (.retire r none) s = .next t ∧ whole bound next t) ∧ ∀ n, ∃ t, cut bound next n t

/-- R26: LOOKUP, no tracker's operation waiting, answers the COIL SUMMARY of the indexed record of the name, or of the record a current
handle and sequence name, and NOT FOUND when there is none; it changes nothing. A malformed name or handle is BAD VALUE. The summary holds, at
the offsets of section 11.3, handle, sequence, name, indexed, origin, state, length, flags, the two passages, and the counts of parent links,
of FINAL child links that are not scrap, of FINAL scrap links and of PENDING links; what is absent reads 0xFF (R200). -/
def Obligations.LookupAnswersSummary : Prop :=
  ∀ (r : Req) (s : State), Admitted s 0x0E#8 r →
    (lookKeyOf r.payload = none → OnlyReplies (.lookup r) s (refusal 0x0E#8 r .badValue)) ∧
    ∀ key, lookKeyOf r.payload = some key → TrackersQuiet s →
      let fits (c : Coil) : Prop := match key with
        | .name n => c.indexed = true ∧ c.name = n
        | .ref q => c.handle = q.handle ∧ c.seq = q.seq
      let counted (c : Coil) (p : Link → Bool) : List Byte :=
        beBytes 2 (c.children.filter (fun h => s.table.links.any (fun m => m.handle == h && p m))).length
      let shown (c : Coil) : List Byte :=
        beBytes 2 c.handle ++ beBytes 4 c.seq ++ nameField (some c.name)
          ++ [if c.indexed then 1#8 else 0#8, (match c.origin with | .tracked => 0#8 | .imported => 1#8 | .unknown => 2#8),
              (match c.state with | .made => 0#8 | .entered => 1#8 | .consumed => 2#8)]
          ++ beOpt 4 c.length
          ++ [byteOf ((if c.flags.reentry then 1 else 0) + (if c.flags.suspect then 2 else 0) + (if c.flags.noMaterial then 4 else 0)
                + (if c.flags.duplicateName then 8 else 0) + (if c.flags.clamped then 16 else 0)),
              byteOf ((if c.made = none then 0 else 1) + (if c.consumed = none then 0 else 2))]
          ++ (match c.made with
              | none => List.replicate 8 0xFF#8
              | some p => [byteOf p.line, byteOf (match p.lane with | .whole => 255 | .num n => n)] ++ beBytes 6 p.head)
          ++ (match c.consumed with
              | none => List.replicate 14 0xFF#8
              | some p => [byteOf p.line, (match p.orient with | .headFirst => 0#8 | .tailFirst => 1#8)] ++ beBytes 6 p.fh ++ beOpt 6 p.ft)
          ++ beBytes 2 c.parents.length ++ counted c (fun m => m.parentSpan.isSome && m.child.isSome)
          ++ counted c (fun m => m.parentSpan.isSome && m.child.isNone) ++ counted c (fun m => m.parentSpan.isNone)
      ((∀ c ∈ s.table.coils, ¬fits c) → OnlyReplies (.lookup r) s (refusal 0x0E#8 r .notFound)) ∧
      (PoolInv s.table → (∃ c ∈ s.table.coils, fits c) → ∃ c ∈ s.table.coils, fits c ∧
        OnlyReplies (.lookup r) s { kind := 0x85#8, channel := r.channel, tag := r.tag, payload := shown c })

/-- R21: an IMPORT frame FIRST or ONLY with a line code from 4 to 15 opens a session with totals 0, abandoning an open one, whose totals its result
gives; MIDDLE and LAST need an open session and are else refused NO IMPORT. The frame's first item is then presented to the table, with nothing of
it counted; or, with no items, the IMPORT RESULT is placed, with no item accepted or refused, the totals of an abandoned session, and, when LAST or
ONLY closes the session, its totals. MIDDLE leaves the session as it is. That of totals above 4,294,967,295 the low 32 bits are sent, is the model's
choice (log entry 70); that the reply has its 21 bytes always, an absent total as four bytes 0xFF and an absent first refusal as 0xFF with code 0,
is the model's reading (log entry 24). Another position or code is BAD VALUE, and so is a direction code above 1 in any item (R200), tested before
NO IMPORT (log entry 51). -/
def Obligations.ImportFrameOpensSession : Prop :=
  ∀ (r : Req) (s : State), Admitted s 0x0C#8 r →
    let pos := field r.payload 0 1
    let code := field r.payload 1 1
    let astray : Prop := ∃ items, importItems r.payload = some items ∧
      ∃ dir lane cs ps cn pn, .link dir lane cs ps cn pn ∈ items ∧ 1 < dir.toNat
    let opens : Prop := ¬astray ∧ (pos = 0 ∨ pos = 3) ∧ 4 ≤ code ∧ code ≤ 15
    let goesOn : Prop := ¬astray ∧ (pos = 1 ∨ pos = 2) ∧ s.table.session ≠ none
    let f : Frame := { kind := 0x0C#8, channel := r.channel, tag := r.tag, payload := r.payload }
    let before := s.table.session.map (fun q => (q.accepted, q.refused))
    let gone := if pos = 0 ∨ pos = 3 then before else none
    let closed := if pos = 3 then some (0, 0) else if pos = 2 then before else none
    (astray ∨ 3 < pos ∨ (pos = 0 ∨ pos = 3) ∧ (code < 4 ∨ 15 < code) →
      OnlyReplies (.importFrame r) s (refusal 0x0C#8 r .badValue)) ∧
    (¬astray → (pos = 1 ∨ pos = 2) → s.table.session = none → OnlyReplies (.importFrame r) s (refusal 0x0C#8 r .noImport)) ∧
    (opens ∨ goesOn → ∃ items, importItems r.payload = some items ∧ ∃ t, exec (.importFrame r) s = .next t ∧
      Touches [.table, .slc] s t ∧ LinkKept s t ∧ t.table = { s.table with session := t.table.session } ∧
      (items ≠ [] → t.outgoing = s.outgoing ∧ (opens → t.table.session = some { code := code, accepted := 0, refused := 0 }) ∧
        (goesOn → t.table.session = s.table.session) ∧
        t.slc.unit = .table f (.importing
          { last := decide (2 ≤ pos), items := items, at_ := 0, accepted := 0, refused := 0, first := none, abandoned := gone })) ∧
      (items = [] → (2 ≤ pos → t.table.session = none) ∧
        (pos = 0 → t.table.session = some { code := code, accepted := 0, refused := 0 }) ∧
        (pos = 1 → t.table.session = s.table.session) ∧
        Answered s t
          { kind := 0x86#8, channel := r.channel, tag := r.tag, payload :=
              [byteOf ((if gone = none then 0 else 1) + (if closed = none then 0 else 2)), 0#8, 0#8, 0xFF#8, 0#8]
                ++ beOpt 4 (gone.map (·.1)) ++ beOpt 4 (gone.map (·.2)) ++ beOpt 4 (closed.map (·.1)) ++ beOpt 4 (closed.map (·.2)) }
          none))

/-! ## Channels -/

/-- R123, R124: the five SET requests and RESET CHANNEL replace their staged fields of an IDLE channel, leaving the other channels, and are
answered ACCEPTED; on a channel that is not IDLE they are BUSY; a value outside its range is BAD VALUE. That BUSY comes before BAD VALUE is
the model's choice (log entry 41).
That the request may arrive whole in the same step is the model's (log entry 14). -/
def Obligations.StagedFieldsAreSet : Prop :=
  ∀ (c : Instr) (kind : Byte) (r : Req) (s : State) (ch : Fin 4) (new : Option Staged), Admitted s kind r → r.channel.toNat = ch.1 →
    let old := (s.channels[ch]).staged
    (c = .setTarget r ∧ kind = 0x10#8 ∧ new = (targetOf r.payload).map (fun x => { old with target := x }) ∨
      c = .setRange r ∧ kind = 0x11#8 ∧ new = (if field r.payload 0 6 < field r.payload 6 6
          ∧ field r.payload 6 6 ≤ field r.payload 0 6 + 200000000 ∧ 1 ≤ field r.payload 12 2
        then some { old with from_ := field r.payload 0 6, to_ := field r.payload 6 6, resolution := field r.payload 12 2 } else none) ∨
      c = .setTraces r ∧ kind = 0x12#8 ∧ new = (tracesOf r.payload).map (fun x => { old with traces := x }) ∨
      c = .setProfile r ∧ kind = 0x13#8 ∧
        new = (if h : field r.payload 0 1 < 16 then some { old with profile := ⟨field r.payload 0 1, h⟩ } else none) ∨
      c = .setDepth r ∧ kind = 0x14#8 ∧ new = (if 1 ≤ field r.payload 0 1 ∧ field r.payload 0 1 ≤ 6
        then some { old with depth := field r.payload 0 1 } else none) ∨
      c = .resetChannel r ∧ kind = 0x15#8 ∧ new = some
        { target := .none, from_ := 0, to_ := 8000000, resolution := 1000, traces := [], profile := 0, depth := 6 }) →
    ((s.channels[ch]).state ≠ .idle → OnlyReplies c s (refusal kind r .busy)) ∧
    ((s.channels[ch]).state = .idle → new = none → OnlyReplies c s (refusal kind r .badValue)) ∧
    ∀ g, (s.channels[ch]).state = .idle → new = some g → ∃ t, exec c s = .next t ∧ Answered s t (acceptance r) none ∧ LinkKept s t ∧
      Touches [.channels, .slc] s t ∧ t.channels[ch] = { s.channels[ch] with staged := g } ∧ OtherChannels ch s t

/-- R125, R126: the tests of RUN PLAYBACK in their order: BUSY on a channel that is not IDLE, NOT STAGED with no target or no trace, BAD VALUE for a
slot that is not defined or, under a LINE target, not on that line; a refused request leaves the channel as it was. An accepted RUN PLAYBACK makes
the channel RUNNING, its reply ACCEPTED placed, with the working part captured: the kind, tag, target, traces with the slots' definitions as they
stand, the range's start, the clamped end and CLAMPED, and the bin count. A LINE target is not clamped; a coil target of length L is clamped to L,
gives no bins when the range starts at or beyond L, when the length is absent, or when the reference is stale. The LOOKUP of a coil target needs its
turn at the arbiter; a name not found is NOT FOUND. R127, R128: with bins, a run on a coil has window 0 over its first 256 bins at most, and the
first PLAN STEP presented for the target over it; without bins, its header is its only record, in a closed last frame. A window over up to 256 of
the bins left is begun when none is being planned, bins are left, the run plans on and fewer than two windows hold buffers; for a LINE it is planned
at once. A buffer is free when the window's last bin lies in a placed frame, so that two windows whose bins together close no frame keep both and
the run goes no further: the model's choice (log entry 68). R160: the run header has the fields of section 11.4 in their order, absent ones 0xFF. -/
def Obligations.RunPlaybackCapturesRun : Prop :=
  (∀ (r : Req) (s : State) (ch : Fin 4), Admitted s 0x16#8 r → r.channel.toNat = ch.1 →
    let g := (s.channels[ch]).staged
    let unstaged : Prop := g.target = .none ∨ g.traces = []
    let unfit : Prop := ∃ x ∈ g.traces, (s.capture.slots[x.1]).defined = false ∨
      ∃ l : Fin 4, g.target = .line l ∧ (s.capture.slots[x.1]).line ≠ l.1
    ((s.channels[ch]).state ≠ .idle → OnlyReplies (.runPlayback r) s (refusal 0x16#8 r .busy)) ∧
    ((s.channels[ch]).state = .idle → unstaged → OnlyReplies (.runPlayback r) s (refusal 0x16#8 r .notStaged)) ∧
    ((s.channels[ch]).state = .idle → ¬unstaged → unfit → OnlyReplies (.runPlayback r) s (refusal 0x16#8 r .badValue)) ∧
    ((s.channels[ch]).state = .idle → ¬unstaged → ¬unfit →
    let started (target : RunTarget) (end_ : Nat) (clamped bins : Bool) (result : RunResult) : Prop :=
      ∃ t, exec (.runPlayback r) s = .next t ∧ Answered s t (acceptance r) (some ch) ∧ OtherChannels ch s t ∧
        Touches [.archive, .channels, .slc] s t ∧ (t.channels[ch]).state = .running ∧ (t.channels[ch]).staged = g ∧
        ∃ q p, (t.channels[ch]).run = some q ∧ q.kind = .playback ∧ q.tag = r.tag ∧ q.target = target ∧ q.from_ = g.from_ ∧
          q.end_ = end_ ∧ q.clamped = clamped ∧ q.frameNo = 0 ∧ q.sentFrames = 0 ∧ q.sentRecs = 0 ∧ q.body = .play p ∧
          p.res = g.resolution ∧ p.depth = g.depth ∧ p.profile = g.profile ∧
          p.bins = (if bins then (end_ - g.from_ + g.resolution - 1) / g.resolution else 0) ∧
          p.traces = g.traces.map (fun x =>
            { slot := x.1
              dseq := (s.capture.slots[x.1]).dseq
              line := (s.capture.slots[x.1]).line
              side := (s.capture.slots[x.1]).side
              lane := (s.capture.slots[x.1]).lane
              reduction := x.2
              quantity := (s.capture.slots[x.1]).quantity
              unit := (s.capture.slots[x.1]).unit }) ∧
          (bins = false → g.traces.length ≤ 4 → q.result = some result ∧ q.recs = [] ∧ q.closed = some ([runHeader ch q p s.profiles[g.profile]], true) ∧
            p.wins = [] ∧ q.planOp = none) ∧
          (0 < p.bins → ∀ c n, target = .coil c n →
            let b1 := min 256 p.bins
            let span : Ival := { lo := g.from_, hi := min (g.from_ + b1 * g.resolution) end_ }
            q.result = none ∧ q.recs = [] ∧ q.closed = none ∧
            q.planOp = some { coil := c, up := true, span := span, from_ := .start } ∧
            p.wins = [{ no := 0, bin0 := 0, bin1 := b1, span := span, stage := .planning, plan := [], nextId := 0, frag := false, lost := [],
                        accs := [] }])
    (∀ l : Fin 4, g.target = .line l → started (.line l) g.to_ false true .complete) ∧
    ((∃ n, g.target = .name n) ∨ (∃ q, g.target = .ref q) → TrackersQuiet s →
      let found : Option Coil := match g.target with
        | .name n => s.table.named n
        | .ref q => s.table.current q
        | _ => none
      (∀ n, g.target = .name n → found = none → OnlyReplies (.runPlayback r) s (refusal 0x16#8 r .notFound)) ∧
      (∀ q, g.target = .ref q → found = none → started (.coil q none) g.from_ false false .targetRetired) ∧
      ∀ c, found = some c →
        (c.length = none → started (.coil c.ref (some c.name)) g.from_ false false .complete) ∧
        ∀ n, c.length = some n →
          (g.to_ ≤ n → started (.coil c.ref (some c.name)) g.to_ false true .complete) ∧
          (n < g.to_ → g.from_ < n → started (.coil c.ref (some c.name)) n true true .complete) ∧
          (n < g.to_ → n ≤ g.from_ → started (.coil c.ref (some c.name)) g.from_ true false .complete)))) ∧
  (∀ (ch : Fin 4) (r : Run) (p : Play) (prof : Profile), r.kind = .playback →
    let target : List Byte := match r.target with
      | .coil q (some n) => [0#8, 0xFF#8] ++ beBytes 2 q.handle ++ beBytes 4 q.seq ++ nameField (some n)
      | .coil q none => [1#8, 0xFF#8] ++ beBytes 2 q.handle ++ beBytes 4 q.seq ++ nameField none
      | .line l => [2#8, BitVec.ofNat 8 l.1] ++ List.replicate 6 0xFF#8 ++ nameField none
    let laneCode (n : Lane) : Byte := match n with | .whole => 0xFF#8 | .num k => BitVec.ofNat 8 k
    let sideCode (d : Side) : Byte := match d with | .feed => 0#8 | .delivery => 1#8
    let reductionCode (k : Reduction) : Byte := match k with | .mean => 0#8 | .min => 1#8 | .max => 2#8 | .last => 3#8 | .count => 4#8
    (runHeader ch r p prof).counted = false ∧
    (runHeader ch r p prof).bytes = [1#8, BitVec.ofNat 8 (58 + 14 * p.traces.length), BitVec.ofNat 8 ch.1, 1#8] ++ target
      ++ beBytes 6 r.from_ ++ beBytes 6 r.end_ ++ beBytes 2 p.res ++ beBytes 4 p.bins
      ++ [if r.clamped then 1#8 else 0#8, BitVec.ofNat 8 p.profile.1, match prof.encoding with | .s16 => 0#8 | .u8 => 1#8]
      ++ beInt 2 prof.gain ++ beInt 4 prof.offset ++ [BitVec.ofNat 8 prof.hold, BitVec.ofNat 8 p.traces.length]
      ++ p.traces.flatMap (fun t => [BitVec.ofNat 8 t.slot.1] ++ beBytes 4 t.dseq
        ++ [BitVec.ofNat 8 t.line, sideCode t.side, laneCode t.lane, reductionCode t.reduction, BitVec.ofNat 8 t.quantity]
        ++ beBytes 4 t.unit)) ∧
  ∀ (ch : Fin 4) (s : State) (r : Run) (p : Play), (s.channels[ch]).run = some r → r.body = .play p →
    let b1 := min (p.nextBin + 256) p.bins
    let span : Ival := { lo := r.from_ + p.nextBin * p.res, hi := min (r.from_ + b1 * p.res) r.end_ }
    let w : Window := { no := p.nextWin, bin0 := p.nextBin, bin1 := b1, span := span, stage := .planning, plan := [], nextId := 0,
                        frag := false, lost := [], accs := [] }
    let first : PlanOp → Level → Prop := fun op lv => op = { coil := lv.coil, up := true, span := span, from_ := .start } ∧
      lv = { coil := lv.coil, span := span, stages := [], depth := 0, reversed := false, suspect := false, hasParents := false,
             links := [], next := none, cursor := span.lo, via := none }
    let free : Prop := p.planner = none ∧ p.stopped = false ∧ p.nextBin < p.bins ∧ p.wins.length < 2
    (¬free → s.beginWindow ch r p = none) ∧
    (free → ∀ c n, r.target = .coil c n → ∃ t op lv, s.beginWindow ch r p = some t ∧ lv.coil = c ∧ first op lv ∧
      Touches [.channels] s t ∧ OtherChannels ch s t ∧ t.channels[ch] = { s.channels[ch] with run := some { r with
        planOp := some op
        body := .play { p with wins := p.wins ++ [w], planner := some { trace := 0, stack := [], await := some (.visit lv) } } } }) ∧
    (free → ∀ l, r.target = .line l → (∀ x ∈ p.wins, x.no ≠ p.nextWin) → ∃ t v, s.beginWindow ch r p = some t ∧
      v = { w with stage := .fetching, plan := v.plan, nextId := v.nextId } ∧
      Touches [.channels] s t ∧ OtherChannels ch s t ∧ t.channels[ch] = { s.channels[ch] with run := some { r with
        body := .play { p with wins := p.wins ++ [v], nextBin := b1, nextWin := p.nextWin + 1 } } }) ∧
    r.freeWindows = { r with body := .play { p with
      wins := p.wins.filter (fun x => decide (p.emitBin - (r.recs.filter (·.counted)).length < x.bin1)) } }

/-- R165, R166, R126, R163, R175: RUN ANCESTRY and RUN DESCENT are BUSY on a channel that is not IDLE, NOT STAGED with no target, BAD VALUE
on a LINE target, and NOT FOUND for a name the index does not hold. Accepted, they make the channel RUNNING with a run of their kind. When the
walk has an interval, the header is the one record at hand, and PLAN STEP is presented for the target over it, UP for ANCESTRY and DOWN for
DESCENT. With no walk the run has its result, TARGET RETIRED for a stale reference, COMPLETE for an absent length or one at or below from, and
the header is its only record, in a frame closed as its last. With a tracker's operation at the arbiter the request waits, and given again when
none waits it goes on (log entry 16); it may arrive whole in the step (log entry 14). The walk, of the functions by which exec of PLAN STEP moves
a RUNNING one on: R166: links are taken from the level on top of the stack in order, more are read when none is left, and a walk with no level
left is COMPLETE. R167: a LINEAGE record is the 55 bytes of section 11.4. R168, R171: a PENDING link gives a LINK record without the far span in
ANCESTRY, without the target subrange in DESCENT; a scrap link gives a SCRAP record; a FINAL link whose intervals hold cells presents PLAN STEP for
its far coil, and one whose intervals do not gives nothing. R169, R170, R172: the answer gives a RETIRED record, with the span in DESCENT only; or
a LINK record, and a level below the depth limit, or deeper at it when links follow. R174: no walk has more than 4,096 records, what is written
stays, and with 4,096 written the next record or step ends the run TRUNCATED. Three clauses are the model's own: a level retired at a later
step of its own gives a RETIRED record too (log entry 34); with 4,096 written a FINAL link with material ends the run without its PLAN STEP (log
entry 33); a PENDING scrap link in a DESCENT gives a SCRAP record with the pending flag and no target subrange (log entry 35). -/
def Obligations.RunWalkStarts : Prop :=
  (∀ (c : Instr) (kind : Byte) (up : Bool) (r : Req) (s : State) (ch : Fin 4), r.channel.toNat = ch.1 →
    (c = .runAncestry r ∧ kind = 0x17#8 ∧ up = true ∨ c = .runDescent r ∧ kind = 0x18#8 ∧ up = false) →
    let g := (s.channels[ch]).staged
    let f : Frame := { kind := kind, channel := r.channel, tag := r.tag, payload := r.payload }
    let looksUp (key : LookKey) : Prop := (∃ n, g.target = .name n ∧ key = .name n) ∨ ∃ q, g.target = .ref q ∧ key = .ref q
    let started (target : RunTarget) (end_ : Nat) (clamped : Bool) (result : Option RunResult) (ok : Run → Walk → Prop) : Prop :=
      ∃ t, exec c s = .next t ∧ Answered s t (acceptance r) (some ch) ∧ OtherChannels ch s t ∧
        Touches [.archive, .channels, .slc] s t ∧ (t.channels[ch]).state = .running ∧ (t.channels[ch]).staged = g ∧
        ∃ q w, (t.channels[ch]).run = some q ∧ q.kind = (if up then .ancestry else .descent) ∧ q.tag = r.tag ∧ q.target = target ∧
          q.from_ = g.from_ ∧ q.end_ = end_ ∧ q.clamped = clamped ∧ q.result = result ∧ q.body = .walk w ∧ w.up = up ∧
          w.depth = g.depth ∧ w.perFrame = (s.profiles[g.profile]).bins ∧ w.records = 0 ∧ ok q w
    let walks (target : RunTarget) (end_ : Nat) (clamped : Bool) (coil : Ref) : Prop :=
      started target end_ clamped none (fun q w => q.recs = [lineageHeader ch q w] ∧ q.closed = none ∧
        q.planOp = some { coil := coil, up := up, span := { lo := g.from_, hi := end_ }, from_ := .start })
    let ends (target : RunTarget) (clamped : Bool) (result : RunResult) : Prop :=
      started target g.from_ clamped (some result) (fun q w =>
        q.recs = [] ∧ q.closed = some ([lineageHeader ch q w], true) ∧ q.planOp = none)
    let runs : Prop :=
      (∀ q, g.target = .ref q → s.table.current q = none → ends (.coil q none) false .targetRetired) ∧
      ∀ x, (∃ n, g.target = .name n ∧ s.table.named n = some x) ∨ (∃ q, g.target = .ref q ∧ s.table.current q = some x) →
        let target : RunTarget := .coil x.ref (some x.name)
        (x.length = none → ends target false .complete) ∧
        ∀ n, x.length = some n →
          (g.to_ ≤ n → walks target g.to_ false x.ref) ∧
          (n < g.to_ → g.from_ < n → walks target n true x.ref) ∧
          (n < g.to_ → n ≤ g.from_ → ends target true .complete)
    (Admitted s kind r →
      ((s.channels[ch]).state ≠ .idle → OnlyReplies c s (refusal kind r .busy)) ∧
      ((s.channels[ch]).state = .idle → g.target = .none → OnlyReplies c s (refusal kind r .notStaged)) ∧
      (∀ l, (s.channels[ch]).state = .idle → g.target = .line l → OnlyReplies c s (refusal kind r .badValue)) ∧
      ((s.channels[ch]).state = .idle → TrackersQuiet s → runs ∧
        ∀ n, g.target = .name n → s.table.named n = none → OnlyReplies c s (refusal kind r .notFound)) ∧
      ∀ key, (s.channels[ch]).state = .idle → ¬TrackersQuiet s → looksUp key →
        ∃ t, exec c s = .next t ∧ Touches [.slc] s t ∧ LinkKept s t ∧ t.outgoing = s.outgoing ∧ t.slc.unit = .table f (.run key)) ∧
    ∀ key, s.slc.unit = .table f (.run key) → looksUp key → TrackersQuiet s → runs ∧
      ∀ n, g.target = .name n → s.table.named n = none →
        ∃ t, exec c s = .next t ∧ Answered s t (refusal kind r .notFound) none ∧ Touches [.slc] s t) ∧
  (∀ (ch : Fin 4) (s : State) (r : Run) (w : Walk) (op : PlanOp), s.grant = some (.planner ch) → (s.channels[ch]).state = .running →
    (s.channels[ch]).run = some r → r.body = .walk w → r.planOp = some op → r.closed = none →
    let k0 := walkAnswer ({ r with planOp := none }, w) (s.table.planStep op)
    let k := walkGo (stackFuel k0.2.stack) ({ k0.1 with body := .walk k0.2 }, k0.2)
    ∃ t q, exec (.planStep ch) s = .next t ∧ (t.channels[ch]).run = some q ∧ q.body = .walk k.2 ∧ q.result = k.1.result ∧
      q.planOp = k.1.planOp ∧ q.gaps = k.1.gaps ∧ ((q.closed.map (·.1)).getD []) ++ q.recs = k.1.recs) ∧
  (let lineage (kind : Byte) (depth : Nat) (m : Link) (reversed pending suspect deeper : Bool) (far : Option (Name × Ref)) (scrap : Option Nat)
      (target span : Option Ival) : Rec :=
    { counted := true
      bytes := [0x06#8, 55#8, kind, byteOf depth, byteOf m.lane.code, byteOf m.line,
          byteOf ((if reversed then 1 else 0) + (if pending then 2 else 0) + (if suspect then 4 else 0) + (if deeper then 8 else 0)), 0#8]
        ++ nameField (far.map (·.1)) ++ beOpt 2 (far.map (·.2.handle)) ++ beOpt 4 (far.map (·.2.seq)) ++ beOpt 4 scrap
        ++ beOpt 6 (target.map (·.lo)) ++ beOpt 6 (target.map (·.hi)) ++ beOpt 4 (span.map (·.lo)) ++ beOpt 4 (span.map (·.hi)) }
  let wrote (k : Walking) (x : Rec) (gaps : Vector Nat 9) : Walking :=
    ({ k.1 with recs := k.1.recs ++ [x], gaps := gaps }, { k.2 with records := k.2.records + 1 })
  let pendings (k : Walking) : Vector Nat 9 := k.1.gaps.set 1 (bump k.1.gaps[1])
  let retireds (k : Walking) : Vector Nat 9 := k.1.gaps.set 5 (bump k.1.gaps[5])
  let ended (k : Walking) (res : RunResult) : Walking :=
    ({ k.1 with result := some res, planOp := none, kept := none }, { k.2 with stack := [], await := none })
  let part (a b : Ival) : Ival := { lo := max a.lo b.lo, hi := min a.hi b.hi }
  let turned (lv : Level) (m : Link) : Bool := if m.dir = .same then lv.reversed else !lv.reversed
  let steps (k k' : Walking) (lv : Level) (lc : LinkCopy) (p : Ival) (far : Name × Ref) (y t : Ival) : Prop :=
    ∃ cursor, k' = ({ k.1 with planOp := some { coil := far.2, up := k.2.up, span := y, from_ := .start } },
      { k.2 with await := some (.visit
        { coil := far.2, span := y, stages := { child := lc.link.childSpan, parent := p, dir := lc.link.dir } :: lv.stages,
          depth := lv.depth + 1, reversed := turned lv lc.link, suspect := lv.suspect || lc.link.suspect, hasParents := false,
          links := [], next := none, cursor := cursor, via := some (lc, t) }) })
  let filled (up : Bool) (lv v : Level) (pc : PlanCoil) : Prop :=
    v = { lv with hasParents := pc.hasParents, next := pc.next, links := v.links } ∧
    (up = false ∨ lv.reversed = false → v.links = lv.links ++ pc.links) ∧
    (up = true → lv.reversed = true → pc.next = none → v.links = (lv.links ++ pc.links).reverse)
  (∀ (k : Walking) (lv : Level) (lc : LinkCopy),
    let m := lc.link
    let x := part m.childSpan lv.span
    (x.hi ≤ x.lo → takeUp k lv lc = k) ∧
    ∀ t, x.lo < x.hi → imageUp lv.stages x = some t →
      (m.parentSpan = none →
        (k.2.records < 4096 → takeUp k lv lc = wrote k
          (lineage 0 (lv.depth + 1) m (turned lv m) true (lv.suspect || m.suspect) false lc.far none (some t) none) (pendings k)) ∧
        (4096 ≤ k.2.records → takeUp k lv lc = ended k .truncated)) ∧
      ∀ p c far, m.parentSpan = some p → m.child = some c → lc.far = some far →
        let y := ({ child := m.childSpan, parent := p, dir := m.dir } : Stage).boundary x
        (y.hi ≤ y.lo → takeUp k lv lc = k) ∧
        (y.lo < y.hi → k.2.records < 4096 → steps k (takeUp k lv lc) lv lc p far y t) ∧
        (y.lo < y.hi → 4096 ≤ k.2.records → takeUp k lv lc = ended k .truncated)) ∧
  (∀ (k : Walking) (lv : Level) (above : List Level) (lc : LinkCopy),
    let m := lc.link
    let v := takeDown k lv above lc
    (m.parentSpan = none →
      (k.2.records < 4096 → m.child = none → lc.far = none → v = wrote k
        (lineage 1 (lv.depth + 1) m (turned lv m) true (lv.suspect || m.suspect) false none (some m.scrap) none none) (pendings k)) ∧
      (∀ c, k.2.records < 4096 → m.child = some c → v = wrote k
        (lineage 0 (lv.depth + 1) m (turned lv m) true (lv.suspect || m.suspect) false lc.far none none (some m.childSpan)) (pendings k)) ∧
      (4096 ≤ k.2.records → v = ended k .truncated)) ∧
    ∀ p, m.parentSpan = some p →
      let x := part p lv.span
      (x.hi ≤ x.lo → v = k) ∧ (descentTarget lv.stages above x = none → v = k) ∧
      ∀ t, x.lo < x.hi → descentTarget lv.stages above x = some t →
        (k.2.records < 4096 → m.child = none → lc.far = none → v = wrote k
          (lineage 1 (lv.depth + 1) m (turned lv m) false (lv.suspect || m.suspect) false none (some m.scrap) (some t) none) k.1.gaps) ∧
        (∀ c far y, k.2.records < 4096 → m.child = some c → lc.far = some far →
          ({ child := m.childSpan, parent := p, dir := m.dir } : Stage).image x = some y → steps k v lv lc p far y t) ∧
        (4096 ≤ k.2.records → (m.child ≠ none → lc.far ≠ none) → v = ended k .truncated)) ∧
  (∀ (k : Walking) (lv : Level) (lc : LinkCopy) (t : Ival), lv.via = some (lc, t) →
    let gone := lineage 2 lv.depth lc.link lv.reversed false lv.suspect false lc.far none (some t) (if k.2.up then none else some lv.span)
    (k.2.await = some (.visit lv) →
      (k.2.records < 4096 →
        walkAnswer k none = wrote (k.1, { k.2 with await := none }) gone (retireds k) ∧
        ∀ pc, k.1.result = none →
          let reached (deeper : Bool) : Rec :=
            lineage 0 lv.depth lc.link lv.reversed false (lv.suspect || pc.coil.flags.suspect) deeper lc.far none (some t) (some lv.span)
          (k.2.depth ≤ lv.depth →
            walkAnswer k (some pc) = wrote (k.1, { k.2 with await := none }) (reached (decide (pc.links ≠ []))) k.1.gaps) ∧
          (lv.depth < k.2.depth → ∃ v, filled k.2.up lv v pc ∧
            walkAnswer k (some pc) = wrote (k.1, { k.2 with await := none, stack := v :: k.2.stack }) (reached false) k.1.gaps)) ∧
      (4096 ≤ k.2.records → ∀ a, walkAnswer k a = ended k .truncated)) ∧
    ∀ rest, k.2.await = some .more → k.2.stack = lv :: rest →
      (k.2.records < 4096 → walkAnswer k none = wrote (k.1, { k.2 with await := none, stack := rest }) gone (retireds k)) ∧
      (4096 ≤ k.2.records → walkAnswer k none = ended k .truncated)) ∧
  (∀ (k : Walking) (lv : Level) (rest : List Level) (pc : PlanCoil),
    (k.2.await = some .more → k.2.stack = lv :: rest →
      (∃ v, filled k.2.up lv v pc ∧ walkAnswer k (some pc) = (k.1, { k.2 with await := none, stack := v :: rest })) ∧
      (lv.via = none → walkAnswer k none = ended k .targetRetired)) ∧
    (k.2.await = some (.visit lv) → lv.via = none →
      (∃ v, filled k.2.up lv v pc ∧ walkAnswer k (some pc) = (k.1, { k.2 with await := none, stack := [v] })) ∧
      walkAnswer k none = ended k .targetRetired)) ∧
  (∀ (n : Nat) (k : Walking), k.1.planOp = none → k.1.result = none → k.1.closed = none → splitFrame k.2.perFrame k.1.recs 0 0 = none →
    (k.2.stack = [] → walkGo (n + 1) k = ended k .complete) ∧
    ∀ lv rest, k.2.stack = lv :: rest →
      (∀ pos, lv.next = some pos → lv.links = [] ∨ k.2.up = true ∧ lv.reversed = true →
        walkGo (n + 1) k = ({ k.1 with planOp := some { coil := lv.coil, up := k.2.up, span := lv.span, from_ := pos } },
          { k.2 with await := some .more })) ∧
      (lv.next = none → lv.links = [] → walkGo (n + 1) k = walkGo n (k.1, { k.2 with stack := rest })) ∧
      ∀ lc ls, lv.links = lc :: ls → lv.next = none ∨ k.2.up = false ∨ lv.reversed = false →
        let k' : Walking := (k.1, { k.2 with stack := { lv with links := ls } :: rest })
        walkGo (n + 1) k = walkGo n (if k.2.up then takeUp k' lv lc else takeDown k' lv rest lc)) ∧
  ∀ (k j : Walking), k.2.records ≤ 4096 → (∃ n, j = walkGo n k) ∨ (∃ a, j = walkAnswer k a) →
    j.2.records ≤ 4096 ∧ ∃ xs, j.1.recs = k.1.recs ++ xs ∧ j.2.records = k.2.records + xs.length ∧
      ∀ x ∈ xs, x.counted = true ∧ x.bytes.length = 55)

/-- R144: HOLD makes a RUNNING channel HELD, its waiting read requests withdrawn, and RELEASE makes a HELD channel RUNNING; either is
NOT RUNNING in any other state. The staged fields, the run's identity and the other channels stay. -/
def Obligations.HoldAndReleaseSwitchChannel : Prop :=
  ∀ (r : Req) (s : State) (ch : Fin 4), r.channel.toNat = ch.1 →
    let same (t : State) : Prop := OtherChannels ch s t ∧ Touches [.archive, .channels, .slc] s t ∧
      (t.channels[ch]).staged = (s.channels[ch]).staged ∧
      ((s.channels[ch]).run.map (fun q => (q.kind, q.tag, q.target, q.from_, q.end_, q.clamped, q.frameNo, q.sentFrames, q.sentRecs))
        = (t.channels[ch]).run.map (fun q => (q.kind, q.tag, q.target, q.from_, q.end_, q.clamped, q.frameNo, q.sentFrames, q.sentRecs)))
    (Admitted s 0x19#8 r →
      ((s.channels[ch]).state ≠ .running → OnlyReplies (.hold r) s (refusal 0x19#8 r .notRunning)) ∧
      ((s.channels[ch]).state = .running → ∃ t, exec (.hold r) s = .next t ∧ Answered s t (acceptance r) none ∧ same t ∧
        (t.channels[ch]).state = .held ∧ t.archive.requests = s.archive.requests.filter (fun q => q.ch != ch) ∧
        t.archive.op = s.archive.op)) ∧
    (Admitted s 0x1A#8 r →
      ((s.channels[ch]).state ≠ .held → OnlyReplies (.release r) s (refusal 0x1A#8 r .notRunning)) ∧
      ((s.channels[ch]).state = .held → ∃ t, exec (.release r) s = .next t ∧ Answered s t (acceptance r) none ∧ same t ∧
        (t.channels[ch]).state = .running))

/-- R145, R14: CANCEL on a RUNNING or HELD channel ends the run: the channel is DRAINING, with result CANCELLED; its windows, planner, fetcher
and reuse cache, or its walk, are gone, and so are the records and the closed frame that wait and the operation presented; its read requests are
withdrawn, the outcome of a READ in progress for it is not wanted, and its stream slots are emptied. All else of the run stays for the END
REPORT. In IDLE or DRAINING it is NOT RUNNING. -/
def Obligations.CancelEndsRun : Prop :=
  ∀ (r : Req) (s : State) (ch : Fin 4), Admitted s 0x1B#8 r → r.channel.toNat = ch.1 →
    ((s.channels[ch]).state = .idle ∨ (s.channels[ch]).state = .draining → OnlyReplies (.cancel r) s (refusal 0x1B#8 r .notRunning)) ∧
    ∀ q, ((s.channels[ch]).state = .running ∨ (s.channels[ch]).state = .held) → (s.channels[ch]).run = some q →
      ∃ t, exec (.cancel r) s = .next t ∧ Answered s t (acceptance r) none ∧ OtherChannels ch s t ∧
        Touches [.archive, .channels, .slc] s t ∧ t.slc.slots[ch] = [] ∧ (∀ k : Fin 4, k ≠ ch → t.slc.slots[k] = s.slc.slots[k]) ∧
        t.slc.rx = s.slc.rx ∧ t.slc.buffer = s.slc.buffer.tail ∧ t.announced = s.announced ∧ t.slc.settings = s.slc.settings ∧
        t.archive = { s.archive with requests := s.archive.requests.filter (fun x => x.ch != ch), op := t.archive.op } ∧
        (∀ x wanted, s.archive.op = some (.read x wanted) → x.ch = ch → t.archive.op = some (.read x false)) ∧
        ((∀ x wanted, s.archive.op = some (.read x wanted) → x.ch ≠ ch) → t.archive.op = s.archive.op) ∧
        let ended (body : RunBody) : Prop := t.channels[ch] =
          { state := .draining
            staged := (s.channels[ch]).staged
            run := some { q with result := some .cancelled, planOp := none, kept := none, recs := [], closed := none, body := body } }
        (∀ p, q.body = .play p → ended (.play { p with wins := [], planner := none, fetch := none, cache := none, stopped := true })) ∧
        ∀ w, q.body = .walk w → ended (.walk { w with stack := [], await := none })

/-! ## Clearing -/

/-- R189: LINK CLEAR returns every channel to IDLE with default staged fields, closes the import session, empties the reply queue, the
notice queue and every stream slot, adds the notices removed to the dropped count, and is the one reply waiting; the material, records,
definitions, notice settings and link counters stay. -/
def Obligations.LinkClearCleansLinkAndChannels : Prop :=
  ∀ (r : Req) (s : State), Admitted s 0x1E#8 r →
    ∃ t, exec (.linkClear r) s = .next t ∧ Touches [.archive, .table, .channels, .slc] s t ∧
      (∀ ch : Fin 4, (t.channels[ch]).state = .idle ∧ (t.channels[ch]).run = none ∧
        (t.channels[ch]).staged =
          { target := .none, from_ := 0, to_ := 8000000, resolution := 1000, traces := [], profile := 0, depth := 6 } ∧
        t.slc.slots[ch] = []) ∧
      t.table = { s.table with session := none } ∧ t.archive.requests = [] ∧
      t.archive = { s.archive with requests := [], op := t.archive.op } ∧
      t.slc.notices = [] ∧ t.slc.dropped = bump s.slc.dropped s.slc.notices.length ∧ t.slc.masked = s.slc.masked ∧
      t.slc.settings = s.slc.settings ∧ t.slc.unit = .free ∧
      t.slc.cnt = { s.slc.cnt with received := s.taken.slc.cnt.received } ∧
      (s.slc.tx = none → t.slc.tx = some (.reply (acceptance r)) ∧ t.slc.replies = []) ∧
      (s.slc.tx ≠ none → t.slc.tx = s.slc.tx.map TxJob.orphan ∧ t.slc.replies = [acceptance r])

/-- R190, R93, R148, R121: CLEAR ALL DATA ends every run, gives every channel its default staged fields, empties every stream slot, withdraws every
read request, hands the clear to every tracker and, with no flash operation in progress, applies it to capture and archive at once: no open block,
no closed mark, the gauge table and the capture counters kept; an empty index, the block sequence at 1, the write queue empty with its blocks
counted in blocks dropped; every ERASED, FILLING and FULL group FULL and every BAD one BAD, and the write point at page 0 of the first of them that
is not BAD; erase marks, last operation, last channel served and the other counters kept. While a flash operation is in progress the archive keeps
the clear waiting. The Genealogy Table's part waits at the arbiter, and no reply is placed. That the ring walk of R105 places the write point,
making the FAILING groups it meets BAD, is the model's reading (log entry 45), and so is that capture stays as it is while the archive waits (log
entry 38). -/
def Obligations.ClearAllDataHandsClear : Prop :=
  ∀ (r : Req) (s : State), Admitted s 0x1F#8 r →
    ∃ t, exec (.clearAllData r) s = .next t ∧ Touches [.trackers, .capture, .archive, .channels, .slc] s t ∧
      t.slc.unit = .clearing { kind := 0x1F#8, channel := r.channel, tag := r.tag, payload := r.payload } false ∧
      t.outgoing = s.outgoing ∧
      (∀ l : Fin 4, t.trackers[l] = { s.trackers[l] with clear := true }) ∧
      (∀ ch : Fin 4, t.slc.slots[ch] = [] ∧ t.channels[ch] = { state := .idle, run := none, staged :=
        { target := .none, from_ := 0, to_ := 8000000, resolution := 1000, traces := [], profile := 0, depth := 6 } }) ∧
      t.capture.cnt = s.capture.cnt ∧
      (let old := s.archive
       let new := t.archive
       (old.op = none →
         new = { groups := new.groups, group := new.group, exhausted := new.exhausted, nextBlock := 1, queue := [], headFailed := false,
                 occupancy := 0, marks := old.marks, page := 0, op := none, lastOp := old.lastOp, lastChan := old.lastChan,
                 index := Vector.replicate 64 [], requests := [], clear := false,
                 cnt := { old.cnt with dropped := bump old.cnt.dropped old.queue.length, retired := new.cnt.retired } } ∧
         (∀ i : Fin 64, t.capture.slots[i] = { s.capture.slots[i] with block := none, mark := none }) ∧
         (GroupsInv old →
           let usable (g : Nat) : Prop := g < 4096 ∧ old.groupState g ≠ .bad ∧ old.groupState g ≠ .failing
           (∀ g, usable g → (∀ k < g, ¬usable k) → new.group = g) ∧ ((∀ g, ¬usable g) → new.group = 0) ∧
           (∀ g < 4096, (old.groupState g = .bad → new.groupState g = .bad) ∧ (usable g → new.groupState g = .full) ∧
             (old.groupState g = .failing → ((∀ k < g, ¬usable k) → new.groupState g = .bad) ∧
               ((∃ k < g, usable k) → new.groupState g = .failing))) ∧
           ((∀ g < 4096, old.groupState g ≠ .failing) → new.exhausted = old.exhausted ∧ new.cnt.retired = old.cnt.retired))) ∧
       (old.op ≠ none → t.capture = s.capture ∧
         new = { old with clear := true, requests := [], op := match old.op with | some (.read q _) => some (.read q false) | o => o }))

/-! ## The link itself -/

/-- R178: what the receiver makes of each byte and of the gap limit, by its state: the sync pair, the two length bytes, the length check,
the body with its CRC-16, and the room in the receive buffer. A byte with its stop bit not at mark, and a gap inside a frame, end the frame.
Each error is counted, and a gap outside a frame changes nothing. -/
def Obligations.ReceiverTakesBytes : Prop :=
  ∀ s : State, s.linkUp = true →
    let after (c : Instr) (rx : LinkRx) (buffer : List Frame) (cnt : LinkCounters) : Prop :=
      ∃ t, exec c s = .next t ∧ Touches [.slc] s t ∧ t.slc.unit = s.slc.unit ∧ t.outgoing = s.outgoing ∧ t.announced = s.announced ∧
        t.slc.rx = rx ∧ t.slc.buffer = buffer ∧ t.slc.cnt = cnt
    let k := s.slc.cnt
    (∀ b, after (.linkByte b false) (.hunt false) s.slc.buffer { k with charErrors := bump k.charErrors }) ∧
    (∀ (b : Byte) (saw : Bool), s.slc.rx = .hunt saw →
      (saw = true → b = 0x5A#8 → after (.linkByte b true) (.frame []) s.slc.buffer k) ∧
      (saw = false ∨ b ≠ 0x5A#8 → after (.linkByte b true) (.hunt (b == 0xA5#8)) s.slc.buffer k)) ∧
    (∀ (b : Byte) (got : List Byte), s.slc.rx = .frame got →
      let g := got ++ [b]
      let len := field g 0 2
      let legal : Prop := 6 ≤ len ∧ len ≤ 1030
      let body := g.drop 2
      let n := body.length - 2
      let sound : Prop := (crc16 (body.take n)).toNat = field body n 2
      (g.length < 2 ∨ 2 ≤ g.length ∧ legal ∧ g.length < 2 + len → after (.linkByte b true) (.frame g) s.slc.buffer k) ∧
      (2 ≤ g.length → ¬legal →
        after (.linkByte b true) (.hunt false) s.slc.buffer { k with lengthErrors := bump k.lengthErrors }) ∧
      (2 ≤ g.length → legal → 2 + len ≤ g.length →
        (¬sound → after (.linkByte b true) (.hunt false) s.slc.buffer { k with checkFailures := bump k.checkFailures }) ∧
        (sound → 4 ≤ s.slc.buffer.length →
          after (.linkByte b true) (.hunt false) s.slc.buffer { k with bufferFull := bump k.bufferFull }) ∧
        (sound → s.slc.buffer.length < 4 → after (.linkByte b true) (.hunt false)
          (s.slc.buffer ++ [{ kind := byteOf (field body 0 1), channel := byteOf (field body 1 1),
                              tag := BitVec.ofNat 16 (field body 2 2), payload := (body.take n).drop 4 }])
          { k with received := bump k.received }))) ∧
    (∀ got, s.slc.rx = .frame got → after .gapTimeout (.hunt false) s.slc.buffer { k with gapTimeouts := bump k.gapTimeouts }) ∧
    ∀ saw, s.slc.rx = .hunt saw → exec .gapTimeout s = .next s

/-- R177, R178: the bytes of any frame of up to 1,024 payload bytes, sent one after another to a receiver in HUNT with room in its buffer,
are received as that very frame, whatever the frame's bytes are. -/
def Obligations.LinkFrameRoundTrip : Prop :=
  ∀ (f : Frame) (s : State) (saw : Bool), f.payload.length ≤ 1024 → s.linkUp = true → s.slc.rx = .hunt saw → s.slc.buffer.length < 4 →
    ∃ t, performAll (f.wire.map (fun b => .linkByte b true)) s = some t ∧ Touches [.slc] s t ∧ t.slc.rx = .hunt false ∧
      t.slc.buffer = s.slc.buffer ++ [f] ∧ t.slc.cnt = { s.slc.cnt with received := bump s.slc.cnt.received } ∧
      t.outgoing = s.outgoing ∧ t.announced = s.announced

/-- R186, R164, R180: at the end of a transmission the frame is counted, a stream frame of a channel's run counts toward its END REPORT, an
END REPORT ends the run, and the transmitter takes the next frame: the oldest reply, else the oldest notice, else the oldest stream frame of
the next channel after the last served that is not HELD, or the END REPORT of one that is DRAINING with both slots empty; a HELD channel is
passed over. The END REPORT carries the run's kind, its result, CLAMPED and whether it has a first fault, the counts of what was sent, the nine
gap counts and the first fault position. A reply that waited for room is placed, and the Request Unit is free. That with no frame being sent
nothing happens, is the model's choice (log entry 8). -/
def Obligations.TransmitterServesInOrder : Prop :=
  (∀ s : State, s.slc.tx = none → exec .frameTransmitted s = .next s) ∧
  (∀ (s : State) (j : TxJob), s.slc.tx = some j → s.startUp.held = false →
    ∃ t, exec .frameTransmitted s = .next t ∧ Touches [.channels, .slc] s t ∧
      (let k := s.slc.cnt
       t.slc.cnt = match j with
         | .reply _ => { k with repliesSent := bump k.repliesSent }
         | .notice _ => { k with noticesSent := bump k.noticesSent }
         | .stream _ _ _ _ => { k with streamsSent := bump k.streamsSent }
         | .endReport _ _ _ => { k with streamsSent := bump k.streamsSent }) ∧
      (∀ ch : Fin 4, (∀ f n, j ≠ .stream ch f n true) → (∀ f, j ≠ .endReport ch f true) → t.channels[ch] = s.channels[ch]) ∧
      (∀ (ch : Fin 4) f n, j = .stream ch f n true → t.channels[ch] = { s.channels[ch] with
        run := (s.channels[ch]).run.map (fun r => { r with sentFrames := r.sentFrames + 1, sentRecs := r.sentRecs + n }) }) ∧
      (∀ (ch : Fin 4) f, j = .endReport ch f true → t.channels[ch] = { s.channels[ch] with state := .idle, run := none }) ∧
      (∀ f rest, s.slc.replies = f :: rest → t.slc.tx = some (.reply f) ∧ t.slc.replies = rest ∧ t.slc.notices = s.slc.notices ∧
        t.slc.slots = s.slc.slots) ∧
      (∀ f rest, s.slc.replies = [] → s.slc.notices = f :: rest → t.slc.tx = some (.notice f) ∧ t.slc.notices = rest ∧
        t.slc.slots = s.slc.slots) ∧
      (s.slc.replies = [] → s.slc.notices = [] →
        let quiet (k : Fin 4) : Prop :=
          (t.channels[k]).state = .held ∨ s.slc.slots[k] = [] ∧ (t.channels[k]).state ≠ .draining
        let first (ch : Fin 4) : Prop := ∀ k : Fin 4, k - s.slc.lastChan - 1 < ch - s.slc.lastChan - 1 → quiet k
        (∀ (ch : Fin 4) f rest, first ch → s.slc.slots[ch] = f :: rest → (t.channels[ch]).state ≠ .held →
          t.slc.tx = some (.stream ch f.frame f.recs true) ∧ t.slc.slots[ch] = rest ∧ t.slc.lastChan = ch) ∧
        (∀ (ch : Fin 4) r, first ch → s.slc.slots[ch] = [] → (t.channels[ch]).state = .draining → (t.channels[ch]).run = some r →
          t.slc.lastChan = ch ∧ t.slc.tx = some (.endReport ch
            { kind := 0xA1#8, channel := BitVec.ofNat 8 ch.1, tag := r.tag, payload :=
                [match r.kind with | .playback => 1#8 | .ancestry => 2#8 | .descent => 3#8,
                 match r.result with
                   | some .cancelled => 1#8 | some .halted => 2#8 | some .targetRetired => 3#8 | some .truncated => 4#8 | _ => 0#8,
                 BitVec.ofNat 8 ((if r.clamped then 1 else 0) + (if r.firstFault = none then 0 else 2)), 0#8]
                ++ beBytes 4 r.sentRecs ++ beBytes 4 r.sentFrames ++ r.gaps.toList.flatMap (beBytes 4) ++ beOpt 6 r.firstFault } true)) ∧
        ((∀ k : Fin 4, quiet k) → t.slc.tx = none))) ∧
  ∀ (s : State) (reply : Frame) (k : Option (Fin 4)), s.slc.unit = .done reply k →
    (s.slc.replies.length < 8 → ∃ t, exec .replyPlaced s = .next t ∧ Touches [.slc] s t ∧ t.slc.unit = .free ∧
      t.outgoing = s.outgoing ++ [reply] ∧ t.announced = s.announced ∧
      t.slc.cnt = if reply.kind = 0x82#8 then { s.slc.cnt with refusals := bump s.slc.cnt.refusals } else s.slc.cnt) ∧
    (8 ≤ s.slc.replies.length → exec .replyPlaced s = .next s)

/-- R185, R71, R183: when the timer of a condition that holds expires, its repeat count goes up and its notice is raised again with that
count; a condition that does not hold, or has no timer, repeats nothing. That the count grows without bound, and the notice carries its low 32
bits, is the model's choice (log entry 69). When a line's silence timer expires the line is SILENT, its condition is entered, and the LINE notice
SILENT is raised. On a line SILENT already, whose timer a new silence time has restarted (R62), mode ONCE raises nothing further, and mode REPEAT
raises the notice again; that the condition holds on as it was entered is the model's choice (log entry 19). That a timer which does not run
changes nothing, is the model's choice (log entry 8). -/
def Obligations.TimersRaiseNotices : Prop :=
  (∀ (k : Condition) (s : State) (i : Inst), s.slc.inst k = some i → i.timer = true → s.startUp.ready = true →
    ∃ t, exec (.noticeRepeat k) s = .next t ∧ Touches [.slc] s t ∧ t.outgoing = s.outgoing ∧
      t.slc.inst k = some { i with repeats := i.repeats + 1 } ∧
      NoticeTaken s t i.notice.cls (noticeFrame (noticeBytes i.notice (some (i.repeats + 1))))) ∧
  (∀ (k : Condition) (s : State), (∀ i, s.slc.inst k = some i → i.timer = false) → exec (.noticeRepeat k) s = .next s) ∧
  (∀ (l : Fin 4) (s : State), s.startUp.ready = true → (s.trackers[l]).timer = true →
    let n : Notice := { cls := .line, reason := 4, line := some l.1 }
    ∃ t, exec (.silent l) s = .next t ∧ Touches [.trackers, .slc] s t ∧ OtherLines l s t ∧
      t.trackers[l] = { s.trackers[l] with silent := true, timer := false } ∧
      ((s.trackers[l]).silent = false →
        t.slc.silent[l] = some { notice := n, repeats := 0, timer := s.slc.settings.lineRepeat } ∧
        NoticeTaken s t .line (noticeFrame (noticeBytes n none))) ∧
      ((s.trackers[l]).silent = true → t.slc.silent = s.slc.silent ∧
        (s.slc.settings.lineRepeat = false →
          t.announced = s.announced ∧ t.slc.masked = s.slc.masked ∧ t.slc.dropped = s.slc.dropped) ∧
        (s.slc.settings.lineRepeat = true → NoticeTaken s t .line (noticeFrame (noticeBytes n none))))) ∧
  ∀ (l : Fin 4) (s : State), (s.trackers[l]).timer = false → exec (.silent l) s = .next s

/-- R13: the arbiter's choice. A RETIRE being performed keeps the table. Otherwise a tracker that has an operation waiting comes before all
others, the first in ring order after the tracker last served; then the Request Unit; then a planner, the first in ring order after the
planner last served. A later operation of a tracker's item, and a later item of an import frame, come to the arbiter some time after the
result of the one before, and do not wait there until then (log entry 16). -/
def Obligations.ArbiterServesInOrder : Prop :=
  ∀ s : State,
    let waitsT (l : Fin 4) : Prop := ∃ w, (s.trackers[l]).work = some w ∧ w.presented = true
    let waitsU : Prop := (∃ f j, s.slc.unit = .table f j ∧ ∀ k, j = .importing k → k.at_ = 0) ∨ ∃ f, s.slc.unit = .clearing f false
    let waitsP (ch : Fin 4) : Prop := ∃ r, (s.channels[ch]).run = some r ∧ r.planOp ≠ none
    let retiring : Prop := ∃ f n m, s.slc.unit = .table f (.retire n m true)
    (retiring → s.grant = some .unit) ∧
    (¬retiring →
      (∀ l : Fin 4, waitsT l → (∀ k : Fin 4, k - s.table.lastTracker - 1 < l - s.table.lastTracker - 1 → ¬waitsT k) →
        s.grant = some (.tracker l)) ∧
      ((∀ l : Fin 4, ¬waitsT l) →
        (waitsU → s.grant = some .unit) ∧
        (¬waitsU →
          (∀ ch : Fin 4, waitsP ch → (∀ k : Fin 4, k - s.table.lastPlanner - 1 < ch - s.table.lastPlanner - 1 → ¬waitsP k) →
            s.grant = some (.planner ch)) ∧
          ((∀ ch : Fin 4, ¬waitsP ch) → s.grant = none))))

/-! ## Line ports -/

/-- R48, R49, R51, R52, R53: a character completed at an open receiver is a break, has a framing or a parity error, or is good, in that
order of tests, and the receiver moves as the tables say: a break ends the frame and places or keeps one restart mark; an errored character
is counted and corrupts a frame that has a buffer; an own address begins a frame, with a buffer when fewer than two are taken and else as an
overrun, and any address ends the frame in progress truncated; a data character joins the frame. A port OFF ignores characters, and one that
settles only waits. R60: a character in whose reception the port was redefined completes under the parity it began under and is only counted,
where its port counted it; `cuts` holds what each redefinition since the last character met, newest first (log entry 18). That an address
character with an error in an overrun frame changes nothing is the model's reading (log entry 20), and so is a count of changes beyond those
made (log entry 8). -/
def Obligations.CharacterMovesReceiver : Prop :=
  ∀ (l : Fin 4) (data : Byte) (flag par stop : Bool) (s : State), s.startUp.ready = true →
    let p := s.ports[l]
    let q := { p with idleArmed := true, cuts := [] }
    let odd : Prop := (s.trackers[l]).defn.parity = .odd
    let broken : Prop := data = 0#8 ∧ flag = false ∧ (¬odd ∨ par = false) ∧ stop = false
    let oddOnes : Prop := onesOf data flag par % 2 = 1
    let good : Prop := stop = true ∧ (odd → oddOnes)
    let after (changes : Nat) (x : Port) : Prop := ∃ t, exec (.character l data flag par stop changes) s = .next t ∧
      Touches [.ports, .slc] s t ∧ OtherLines l s t ∧ t.ports[l] = x
    let becomes (x : Port) : Prop := after 0 x
    let grown (f : Filling) (bad : Bool) : Filling :=
      if f.buffered then { f with body := if f.count < 255 then f.body ++ [data] else f.body, count := f.count + 1,
                                  corrupt := f.corrupt || bad } else f
    (∀ n, (p.cuts.length ≤ n → exec (.character l data flag par stop (n + 1)) s = .next s) ∧
      ∀ h : n < p.cuts.length,
        (p.cuts[n] = none → after (n + 1) q) ∧
        ∀ old, p.cuts[n] = some old →
          let nothing : Prop := data = 0#8 ∧ flag = false ∧ (old = .none ∨ par = false) ∧ stop = false
          let framing : Prop := ¬nothing ∧ stop = false
          let parity : Prop := stop = true ∧ old = .odd ∧ ¬oddOnes
          (framing → after (n + 1) { q with cnt := { p.cnt with framingErrors := bump p.cnt.framingErrors } }) ∧
          (parity → after (n + 1) { q with cnt := { p.cnt with parityErrors := bump p.cnt.parityErrors } }) ∧
          (¬framing → ¬parity → after (n + 1) q)) ∧
    (p.rx = .off ∨ p.rx = .settling → becomes q) ∧
    (p.rx ≠ .off → p.rx ≠ .settling →
      (broken →
        (.restart ∉ p.order → becomes { q with rx := .hunt, cur := none, order := p.order ++ [.restart],
                                               cnt := { p.cnt with breaks := bump p.cnt.breaks } }) ∧
        (∀ a b, p.order = a ++ .restart :: b → .restart ∉ a →
          becomes { q with rx := .hunt, cur := none, order := a ++ [.restart], cnt := { p.cnt with breaks := bump p.cnt.breaks } })) ∧
      (∀ cnt, (¬broken ∧ stop = false ∧ cnt = { p.cnt with framingErrors := bump p.cnt.framingErrors } ∨
          stop = true ∧ ¬good ∧ cnt = { p.cnt with parityErrors := bump p.cnt.parityErrors }) →
        (p.rx ≠ .take → becomes { q with cnt := cnt }) ∧
        (∀ f, p.rx = .take → p.cur = some f →
          becomes (if f.buffered then { q with cur := some (grown f true), cnt := cnt } else q))) ∧
      (good → flag = false →
        (p.rx ≠ .take → becomes q) ∧ (∀ f, p.rx = .take → p.cur = some f → becomes { q with cur := some (grown f false) })) ∧
      (good → flag = true →
        let cut := if p.cur.any (fun f => f.buffered && !f.corrupt) then { p.cnt with checkFailures := bump p.cnt.checkFailures } else p.cnt
        let used := (p.order.filter Item.isFrame).length + (if (s.trackers[l]).work.any (·.fromPort) then 1 else 0)
        let own : Prop := data.toNat = (s.trackers[l]).defn.address ∨ data = 255#8
        (¬own → becomes { q with rx := .pass, cur := none, cnt := { cut with passed := bump cut.passed } }) ∧
        (own → used < 2 → becomes { q with rx := .take, cur := some { buffered := true, body := [], count := 0, corrupt := false },
                                           cnt := cut }) ∧
        (own → 2 ≤ used → becomes { q with rx := .take, cur := some { buffered := false, body := [], count := 0, corrupt := false },
                                           cnt := { cut with overruns := bump cut.overruns } })))

/-- R50, R54, R55, R56, R59, R71: an idle event ends the frame in TAKE. One without a buffer or corrupt is dropped, one whose length or
CRC-16 fails is a check failure, and any other joins the hand-over order, well formed or malformed, restarts the silence timer and ends
SILENT. In PASS and while settling the port goes to HUNT; in HUNT, OFF, and in an idle period already counted, nothing changes. In the model
an idle event also forgets the redefinitions that a character in reception would have met (log entry 18). -/
def Obligations.IdleEventEndsFrame : Prop :=
  ∀ (l : Fin 4) (s : State), s.startUp.ready = true →
    let p := s.ports[l]
    let q := { p with idleArmed := false, cuts := [] }
    let becomes (x : Port) : Prop :=
      ∃ t, exec (.idleEvent l) s = .next t ∧ Touches [.ports, .slc] s t ∧ OtherLines l s t ∧ t.ports[l] = x
    (p.idleArmed = false ∨ p.rx = .off → exec (.idleEvent l) s = .next s) ∧
    (p.idleArmed = true →
      (p.rx = .hunt → becomes q) ∧
      (p.rx = .pass ∨ p.rx = .settling → becomes { q with rx := .hunt }) ∧
      ∀ f, p.rx = .take → p.cur = some f →
        let q := { q with rx := .hunt, cur := none }
        let len := field f.body 2 1
        let whole : Prop := 5 ≤ f.count ∧ f.count ≤ 255 ∧ len ≤ 250 ∧ f.count = len + 5 ∧
          (crc16 (f.body.take (3 + len))).toNat = field f.body (3 + len) 2
        (f.buffered = false ∨ f.corrupt = true → becomes q) ∧
        (f.buffered = true → f.corrupt = false → ¬whole →
          becomes { q with cnt := { p.cnt with checkFailures := bump p.cnt.checkFailures } }) ∧
        (f.buffered = true → f.corrupt = false → whole →
          let read := parseStation (field f.body 0 1) ((f.body.drop 3).take len)
          let seq := byteOf (field f.body 1 1)
          ∃ t, exec (.idleEvent l) s = .next t ∧ Touches [.ports, .trackers, .slc] s t ∧ OtherLines l s t ∧
            (∀ x, read = some x → t.ports[l] = { q with order := p.order ++ [.frame seq x],
                                                        cnt := { p.cnt with taken := bump p.cnt.taken } }) ∧
            (read = none → t.ports[l] = { q with
              order := p.order ++ [.malformed (byteOf (field f.body 0 1)) seq],
              cnt := { p.cnt with taken := bump p.cnt.taken, malformed := bump p.cnt.malformed } }) ∧
            t.trackers[l] = { s.trackers[l] with silent := false, timer := true } ∧
            ((s.trackers[l]).silent = true → t.slc.silent[l] = none ∧
              NoticeTaken s t .line (noticeFrame (noticeBytes { cls := .line, reason := 5, line := some l.1 } none))) ∧
            ((s.trackers[l]).silent = false → t.announced = s.announced ∧ t.slc.silent = s.slc.silent)))

/-! ## Line trackers -/

/-- R57, R64, R66, R74, R78, R42, R43: a POSITION frame sets the last sequence number and applies its feed count, then its delivery count; a missed
frame or a jump makes a TRACKING line UNCERTAIN, and an item that carries counts ends WAITING, in TRACKING when map and exit record are empty and
else in UNCERTAIN. When no operation is presented the pair of odometers is kept. Segments keep their coil, length and feed marks. R68: the causes of
the item's discontinuities are GAP, JUMP of each count, and RESTART on leaving WAITING with map or winding names; if one breaks the line, segments
and a winding with names are marked suspect, and each raises its LINE notice, UNCERTAIN with the count of uncertain entries and the condition
entered when the line becomes so, else DISCONTINUITY. Missed frames, jumps and holds are counted. A single open segment whose head falls due, the
feed odometer having moved, takes the crossing coordinate of R42 and R43, from the pair as it stood before the frame. R79, R80: a single segment
whose tail falls due crosses there too. Within the bounds FINALIZE LINKS is presented with its figures, and D_t is written with the result; with no
length, no delivery span, or a span above 200,000,000, it takes D_t and TRACK FAULT, is counted, and DROP PENDING is presented; a segment with a
fault takes D_t, and stays or leaves by R81. One that a RESET left without a coil and a length is a track fault too, for which no DROP PENDING is
presented (log entry 54). The steps left are the crossings behind, the pair and the leaving check. That a gap met in WAITING leaves the line WAITING
until the counts are taken is the model's reading (log entry 53); so are the name in a TRACK FAULT notice (log entry 15), the notice of an item
arriving whole on a SILENT line (log entry 14), and a crossing coordinate kept whole above 2^48 - 1 (log entry 73). -/
def Obligations.PositionAppliesCounts : Prop :=
  ∀ (l : Fin 4) (seq : Byte) (feed delivery time : BitVec 32) (s : State),
    ItemHanded s l (.frame seq (.position feed delivery time)) →
    let a := s.trackers[l]
    let causes := gapCauses a.lastSeq seq.toNat ++ jumpCauses a.defn.jump a.feedBase feed.toNat ++
      jumpCauses a.defn.jump a.deliveryBase delivery.toNat ++ restartCauses a
    let broke := breaksLine l a causes
    let raises (t : State) (after : List Notice) : Prop := Discontinued l (arrivalNotices l s) causes after s t
    ∃ t, exec (.position l seq feed delivery time) s = .next t ∧ Touches [.ports, .trackers, .slc] s t ∧ OtherLines l s t ∧
      (let b := t.trackers[l]
       let broken : Prop := Missed a.lastSeq seq.toNat ≠ 0 ∨ JumpCount a.defn.jump a.feedBase feed.toNat ∨
         JumpCount a.defn.jump a.deliveryBase delivery.toNat
       let empty : Prop := a.map = [] ∧ a.exit.names = []
       b.lastSeq = some seq.toNat ∧ b.defn = a.defn ∧ b.exit = a.exit.mark broke ∧
       t.ports[l] = (s.ports[l]).afterItem (Missed a.lastSeq seq.toNat) false ∧
       (∃ faults : List (Option Ref), raises t (faults.map (faultNotice l s.table)) ∧
         b.cnt = { a.cnt with
           jumps := bumpTimes (causes.filter (· == 1)).length a.cnt.jumps
           holds := bumpTimes (holdsOf [(a.feedBase, feed.toNat), (a.deliveryBase, delivery.toNat)]) a.cnt.holds
           uncertain := b.cnt.uncertain
           trackFaults := bumpTimes faults.length a.cnt.trackFaults }) ∧
       CountTaken a.defn.jump a.feed a.feedBase feed.toNat b.feed b.feedBase ∧
       CountTaken a.defn.jump a.delivery a.deliveryBase delivery.toNat b.delivery b.deliveryBase ∧
       (a.state = .tracking → broken → b.state = .uncertain) ∧ (a.state = .tracking → ¬broken → b.state = .tracking) ∧
       (a.state = .uncertain → b.state = .uncertain) ∧ (a.state = .waiting → empty → b.state = .tracking) ∧
       (a.state = .waiting → ¬empty → b.state = .uncertain) ∧
       (b.work = none → b.pair = some (b.feed, b.delivery)) ∧ (b.work ≠ none → b.pair = a.pair) ∧
       (∀ g ∈ b.map, ∃ h ∈ a.map, g.coil = h.coil ∧ g.orient = h.orient ∧ g.length = h.length ∧ g.fh = h.fh ∧ g.ft = h.ft ∧
         g.suspect = (h.suspect || broke)) ∧
       ∀ g, a.map = [g] → g.ft = none → g.dt = none →
         let target := g.fh + a.defn.pf
         let point := match a.pair with
           | none => b.delivery
           | some (fp, dp) => if target ≤ fp then dp else dp + (b.delivery - dp) * (target - fp) / (b.feed - fp)
         b.work = none ∧ raises t [] ∧ b.map = [{ g with
           suspect := g.suspect || broke,
           dh := if g.dh = none ∧ a.feed < b.feed ∧ target ≤ b.feed then some (point + a.defn.pd) else g.dh }]) ∧
      (let b := t.trackers[l]
       ∀ g ft h, a.map = [g] → g.ft = some ft → g.dh = some h → g.dt = none → a.feed < b.feed → ft + a.defn.pf ≤ b.feed →
         let target := ft + a.defn.pf
         let point := match a.pair with
           | none => b.delivery
           | some (fp, dp) => if target ≤ fp then dp else dp + (b.delivery - dp) * (target - fp) / (b.feed - fp)
         let x := point + a.defn.pd
         let mark := g.suspect || broke
         let presents (op : TrackOp) : Prop :=
           b.work = some { op := op, presented := true, seg := 0, todo := crossingsFrom 1 ++ [.keepPair, .leave], fromPort := true }
         let out : Prop := x = h ∨ 200000000 < x - h ∨ 200000000 < ft - g.fh
         (∀ q len, g.coil = some q → g.fault = .none → g.length = some len → ¬out →
           b.map = [{ g with suspect := mark }] ∧ presents (.finalize q g.orient g.fh ft h x len mark) ∧ raises t [] ∧
           b.cnt.trackFaults = a.cnt.trackFaults) ∧
         (∀ q, g.coil = some q → g.fault = .none → g.length = none ∨ out →
           b.map = [{ g with suspect := mark, dt := some x, fault := .trackFault }] ∧ presents (.dropPending q) ∧ raises t [faultNotice l s.table (some q)] ∧
           b.cnt.trackFaults = bump a.cnt.trackFaults) ∧
         (g.fault ≠ .none → b.work = none ∧ b.cnt.trackFaults = a.cnt.trackFaults ∧ raises t [] ∧
           ((∀ e, a.exit.head = some e → e < x) → b.map = [{ g with suspect := mark, dt := some x }]) ∧
           (∀ e, a.exit.head = some e → x ≤ e → b.map = [])) ∧
         (g.fault = .none → g.coil = none → g.length = none → b.work = none ∧ b.cnt.trackFaults = bump a.cnt.trackFaults ∧
           raises t [faultNotice l s.table none] ∧
           ((∀ e, a.exit.head = some e → e < x) →
             b.map = [{ g with suspect := mark, dt := some x, fault := .trackFault }]) ∧
           (∀ e, a.exit.head = some e → x ≤ e → b.map = [])))

/-- R65, R96, R97, R98, R99: a READINGS frame of a gauge no slot of the line is defined for applies no count, and its readings are counted and
dropped. Otherwise the first count is applied on the side of the slot, and reading j has the coordinate R65 gives the first count, plus j strides,
less the gauge offset. One after another the readings are taken at the slot: below 0, or behind the slot's last reading or closed mark, a reading is
counted and dropped; otherwise it joins the open block, or opens one, with the mark SUSPECT of an UNCERTAIN line, a block closing at its 120th
reading and before a reading more than 65,535 past its first. The other slots stay. A frame whose hand-over is cut after some readings stays in hand
(log entry 12); given again it hands the others over, or, when the slot was redefined in between, counts and drops them. R68: the causes of its
discontinuities, GAP, JUMP of the first count and RESTART, mark segments and winding suspect and count as for a POSITION frame; that a gap leaves a
WAITING line WAITING is the model's reading (log entry 53). The notice of a frame arriving whole on a SILENT line is the model's (log entry 14). -/
def Obligations.ReadingsReachSlot : Prop :=
  ∀ (l : Fin 4) (seq gauge : Byte) (first : BitVec 32) (stride : BitVec 16) (raws : List (BitVec 16)) (time : BitVec 32)
    (handed : Option Nat) (s : State),
    let frame : StationFrame := .readings gauge first stride raws time
    let a := s.trackers[l]
    let k := s.capture.cnt
    let filled (t : State) (i : Fin 64) (q : SlotFilled) : Prop :=
      t.capture.slots[i] = q.slot ∧ (∀ j, j ≠ i → t.capture.slots[j] = s.capture.slots[j]) ∧
      t.capture.cnt = { k with
        captured := bump k.captured q.captured
        belowZero := bump k.belowZero q.belowZero
        outOfOrder := bump k.outOfOrder q.outOfOrder
        closed := bump k.closed q.closed
        queueFull := t.capture.cnt.queueFull }
    let lost (t : State) (n : Nat) : Prop :=
      t.capture = { s.capture with cnt := { k with undefinedGauge := bump k.undefinedGauge n } }
    let counters : Prop := k.captured ≤ 4294967295 ∧ k.belowZero ≤ 4294967295 ∧ k.outOfOrder ≤ 4294967295 ∧ k.closed ≤ 4294967295 ∧
      k.undefinedGauge ≤ 4294967295
    let marked (t : State) (causes : List Nat) (counts : List (Option Nat × Nat)) : Prop :=
      let b := t.trackers[l]
      let broke := breaksLine l a causes
      b.exit = a.exit.mark broke ∧ (∀ g ∈ b.map, ∃ h ∈ a.map, g.coil = h.coil ∧ g.fh = h.fh ∧ g.suspect = (h.suspect || broke)) ∧
      t.ports[l] = (s.ports[l]).afterItem (Missed a.lastSeq seq.toNat) false ∧
      b.cnt = { a.cnt with
        jumps := bumpTimes (causes.filter (· == 1)).length a.cnt.jumps
        holds := bumpTimes (holdsOf counts) a.cnt.holds
        uncertain := if becomesUncertain l a causes then bump a.cnt.uncertain else a.cnt.uncertain
        trackFaults := b.cnt.trackFaults }
    (ItemHanded s l (.frame seq frame) →
      let c : Instr := .readings l seq gauge first stride { values := raws, handed := handed } time
      let belongs (i : Fin 64) : Prop :=
        (s.capture.slots[i]).defined = true ∧ (s.capture.slots[i]).line = l.1 ∧ (s.capture.slots[i]).gauge = gauge.toNat
      ((∀ i, ¬belongs i) → ∃ t, exec c s = .next t ∧ Touches [.ports, .trackers, .capture, .slc] s t ∧ OtherLines l s t ∧
        (t.trackers[l]).feed = a.feed ∧ (t.trackers[l]).feedBase = a.feedBase ∧ (t.trackers[l]).delivery = a.delivery ∧
        (t.trackers[l]).deliveryBase = a.deliveryBase ∧ (t.trackers[l]).lastSeq = some seq.toNat ∧ lost t raws.length ∧
        marked t (gapCauses a.lastSeq seq.toNat) [] ∧ Discontinued l (arrivalNotices l s) (gapCauses a.lastSeq seq.toNat) [] s t) ∧
      ∀ i, belongs i → (∀ j, j < i → ¬belongs j) →
        ∃ t, exec c s = .next t ∧ Touches [.ports, .trackers, .capture, .archive, .slc] s t ∧ OtherLines l s t ∧
          (let b := t.trackers[l]
           let g := s.capture.slots[i]
           b.lastSeq = some seq.toNat ∧
           (let on := match g.side with | .feed => (a.feedBase, first.toNat) | .delivery => (a.deliveryBase, first.toNat)
            marked t (gapCauses a.lastSeq seq.toNat ++ jumpCauses a.defn.jump on.1 on.2 ++ restartCauses a) [on]) ∧
           (g.side = .feed → CountTaken a.defn.jump a.feed a.feedBase first.toNat b.feed b.feedBase ∧
             b.delivery = a.delivery ∧ b.deliveryBase = a.deliveryBase) ∧
           (g.side = .delivery → CountTaken a.defn.jump a.delivery a.deliveryBase first.toNat b.delivery b.deliveryBase ∧
             b.feed = a.feed ∧ b.feedBase = a.feedBase) ∧
           ∃ base, (match g.side with | .feed => b.feedBase | .delivery => b.deliveryBase) = some base ∧
             let odo := match g.side with | .feed => b.feed | .delivery => b.delivery
             let ahead := (first.toNat + 4294967296 - base) % 4294967296
             let behind := (base + 4294967296 - first.toNat) % 4294967296
             let x := if ahead < 2147483648 then odo + ahead else odo - behind
             let n := handed.getD raws.length
             (counters → filled t i (fillSlot (b.state == .uncertain) stride.toNat x (raws.take n) { slot := g })) ∧
             (n < raws.length → ∃ w h, b.work = some w ∧ w.op = .hand h ∧ w.presented = false ∧ w.fromPort = true ∧ h.seq = seq ∧
               h.frame = frame ∧ h.slot = i ∧ h.dseq = g.dseq ∧ h.suspect = (b.state == .uncertain) ∧ h.stride = stride.toNat ∧
               h.coord = x + n * stride.toNat ∧ h.raws = raws.drop n))) ∧
    ∀ w h, a.work = some w → w.op = .hand h → h.seq = seq → h.frame = frame →
      ∃ t, exec (.readings l seq gauge first stride { values := raws, handed := none } time) s = .next t ∧
        Touches [.trackers, .capture, .archive, .slc] s t ∧ OtherLines l s t ∧ (t.trackers[l]).feed = a.feed ∧
        (t.trackers[l]).delivery = a.delivery ∧ (t.trackers[l]).state = a.state ∧
        (counters → (s.capture.slots[h.slot]).dseq = h.dseq →
          filled t h.slot (fillSlot h.suspect h.stride h.coord h.raws { slot := s.capture.slots[h.slot] })) ∧
        (counters → (s.capture.slots[h.slot]).dseq ≠ h.dseq → lost t h.raws.length)

/-- R65, R69, R72, R75, R77: an ENTRY behind the last feed mark, or with no place left in the map, is malformed; one at the head of the open last
segment needs no place, since it takes that segment's. So is a TAIL with no open segment or behind its head. Otherwise the feed count is applied; an
open last segment of a coil is closed at the item's feed coordinate, with CLOSE ENTRY presented; one without a coil is closed with no operation, or
removed when it ends at its head (R76; for one that a RESET left without a coil, log entry 54). An ENTRY then returns the line to TRACKING and
places a segment with that feed head, with ENTER COIL presented for it. R68: GAP, JUMP of the feed count and RESTART mark the segments on the map
before the item and a winding with names, raise their LINE notices, and count missed frames, jumps, holds and uncertain entries; a malformed item is
counted at the port and is one more discontinuity, of cause MALFORMED, in TRACKING and UNCERTAIN. An ENTRY that returns the line to TRACKING ends
the condition UNCERTAIN and raises RESTORED; its new segment is not marked. R74: the steps left are the crossings, the pair and the leaving check,
behind the placing of the new segment where CLOSE ENTRY is presented for an ENTRY. That a gap leaves a WAITING line WAITING is the model's reading
(log entry 53), and that an ENTRY is tested for its order before room (log entry 21); the notice of an item arriving whole on a SILENT line is the
model's (log entry 14). -/
def Obligations.EntryAndTailMarkMap : Prop :=
  (∀ (l : Fin 4) (seq : Byte) (feed : BitVec 32) (o : Orientation) (declared : BitVec 32) (name : Name) (s : State),
    ItemHanded s l (.frame seq (.entry feed o declared name)) →
    let c : Instr := .entry l seq feed o declared name
    let a := s.trackers[l]
    let f := a.preview .feed feed.toNat
    let causes := gapCauses a.lastSeq seq.toNat ++ jumpCauses a.defn.jump a.feedBase feed.toNat ++ restartCauses a
    let broke := breaksLine l a causes
    let restored := a.state == .uncertain || becomesUncertain l a causes
    let applied (t : State) : Prop := exec c s = .next t ∧ Touches [.ports, .trackers, .slc] s t ∧ OtherLines l s t ∧
      CountTaken a.defn.jump a.feed a.feedBase feed.toNat (t.trackers[l]).feed (t.trackers[l]).feedBase ∧
      (t.trackers[l]).delivery = a.delivery ∧ (t.trackers[l]).deliveryBase = a.deliveryBase ∧ (t.trackers[l]).state = .tracking ∧
      (t.trackers[l]).exit = a.exit.mark broke ∧ t.ports[l] = (s.ports[l]).afterItem (Missed a.lastSeq seq.toNat) false ∧
      NoticesTaken (arrivalNotices l s ++ lineBreaks l a.state causes ++
        if restored then [{ cls := .line, reason := 3, line := some l.1 }] else []) s t ∧
      t.slc.uncertain[l] = (if restored then none else s.slc.uncertain[l]) ∧
      (t.trackers[l]).cnt = { a.cnt with
        jumps := bumpTimes (causes.filter (· == 1)).length a.cnt.jumps
        holds := bumpTimes (holdsOf [(a.feedBase, feed.toNat)]) a.cnt.holds
        uncertain := if becomesUncertain l a causes then bump a.cnt.uncertain else a.cnt.uncertain }
    let rest : List Task := crossingsFrom 0 ++ [.keepPair, .leave]
    let presents (t : State) (op : TrackOp) (i : Nat) (ks : List Task) : Prop :=
      (t.trackers[l]).work = some { op := op, presented := true, seg := i, todo := ks, fromPort := true }
    let new : Segment := { coil := none, orient := o, length := none, fh := f, ft := none, dh := none, dt := none, suspect := false,
                           fault := .none }
    (a.map.length < 8 → (∀ gs g, a.map = gs ++ [g] → ∃ ft, g.ft = some ft ∧ ft ≤ f) →
      ∃ t, applied t ∧ (t.trackers[l]).map = a.map.map (Segment.mark broke) ++ [new] ∧
        presents t (.enterCoil name o f declared.toNat) a.map.length rest) ∧
    (∀ gs g q, a.map.length < 8 ∨ f = g.fh → a.map = gs ++ [g] → g.ft = none → g.coil = some q → g.fh ≤ f →
      ∃ t, applied t ∧ (t.trackers[l]).map = (gs ++ [{ g with ft := some f }]).map (Segment.mark broke) ∧
        presents t (.closeEntry q f) gs.length (.place o f declared.toNat name :: rest)) ∧
    (∀ gs g, a.map.length < 8 ∨ f = g.fh → a.map = gs ++ [g] → g.ft = none → g.coil = none → g.fh ≤ f →
      let before := if f = g.fh then gs else gs ++ [{ g with ft := some f }]
      ∃ t, applied t ∧ (t.trackers[l]).map = before.map (Segment.mark broke) ++ [new] ∧
        presents t (.enterCoil name o f declared.toNat) before.length rest) ∧
    (∀ gs g, a.map = gs ++ [g] →
      (∃ ft, g.ft = some ft ∧ (f < ft ∨ 8 ≤ a.map.length)) ∨ g.ft = none ∧ (f < g.fh ∨ g.fh < f ∧ 8 ≤ a.map.length) →
      ItemRejected c l seq s)) ∧
  ∀ (l : Fin 4) (seq : Byte) (feed : BitVec 32) (s : State), ItemHanded s l (.frame seq (.tail feed)) →
    let c : Instr := .tail l seq feed
    let a := s.trackers[l]
    let f := a.preview .feed feed.toNat
    let causes := gapCauses a.lastSeq seq.toNat ++ jumpCauses a.defn.jump a.feedBase feed.toNat ++ restartCauses a
    let broke := breaksLine l a causes
    let applied (t : State) : Prop := exec c s = .next t ∧ Touches [.ports, .trackers, .slc] s t ∧ OtherLines l s t ∧
      CountTaken a.defn.jump a.feed a.feedBase feed.toNat (t.trackers[l]).feed (t.trackers[l]).feedBase ∧
      (t.trackers[l]).delivery = a.delivery ∧ (t.trackers[l]).deliveryBase = a.deliveryBase ∧
      (t.trackers[l]).exit = a.exit.mark broke ∧ t.ports[l] = (s.ports[l]).afterItem (Missed a.lastSeq seq.toNat) false ∧
      Discontinued l (arrivalNotices l s) causes [] s t ∧
      (t.trackers[l]).cnt = { a.cnt with
        jumps := bumpTimes (causes.filter (· == 1)).length a.cnt.jumps
        holds := bumpTimes (holdsOf [(a.feedBase, feed.toNat)]) a.cnt.holds
        uncertain := (t.trackers[l]).cnt.uncertain }
    (∀ gs g q, a.map = gs ++ [g] → g.ft = none → g.coil = some q → g.fh ≤ f →
      ∃ t, applied t ∧ (t.trackers[l]).map = (gs ++ [{ g with ft := some f }]).map (Segment.mark broke) ∧
        (t.trackers[l]).work = some { op := .closeEntry q f, presented := true, seg := gs.length,
                                      todo := crossingsFrom 0 ++ [.keepPair, .leave], fromPort := true }) ∧
    (∀ g, a.map = [g] → g.ft = none → g.coil = none → g.fault = .detached → g.fh ≤ f →
      ∃ t, applied t ∧ (t.trackers[l]).work = none ∧ (f = g.fh → (t.trackers[l]).map = []) ∧
        ∀ x ∈ (t.trackers[l]).map, x.coil = none ∧ x.fault = .detached ∧ x.fh = g.fh ∧ x.ft = some f ∧
          x.suspect = (g.suspect || broke)) ∧
    ((∀ gs g, a.map = gs ++ [g] → g.ft ≠ none ∨ f < g.fh) → ItemRejected c l seq s)

/-- R65, R72, R83, R84, R87: a CUT behind the exit record's head, with a next head more than 200,000,000 beyond it, or with a number of names that
is neither 0 nor the lane count is malformed. Otherwise its cut count is applied on the delivery side; with no segment and no finished coil at the
shear the exit record moves to the next head with the new names, marked suspect on an UNCERTAIN line; with names at the shear, MAKE CHILD is first
presented for the first of them, WHOLE on a line of one lane, from the exit record's head to the cut, and the exit record has not moved yet. The
links it carries lie within the child. R68: GAP, JUMP of the cut count and RESTART mark segments and a winding with names, raise their LINE notices,
and count missed frames, jumps, holds and uncertain entries; a malformed CUT is counted, and is a discontinuity of cause MALFORMED in TRACKING and
UNCERTAIN. R87: the steps left behind the first MAKE CHILD are those of the other names in lane order, then the exit record's move, the pair and the
leaving check. That a gap leaves a WAITING line WAITING is the model's reading (log entry 53); the notice of an item arriving whole on a SILENT line
is the model's (log entry 14), and so is a next head kept whole above 2^48 - 1 (log entry 73). -/
def Obligations.CutMovesExitRecord : Prop :=
  ∀ (l : Fin 4) (seq : Byte) (cut next : BitVec 32) (names : List Name) (s : State),
    ItemHanded s l (.frame seq (.cut cut next names)) →
    let c : Instr := .cut l seq cut next names
    let a := s.trackers[l]
    let x := a.preview .delivery cut.toNat
    let ahead := (next.toNat + 4294967296 - cut.toNat) % 4294967296
    let good : Prop := ahead ≤ 200000000 ∧ (names = [] ∨ names.length = a.defn.lanes) ∧ ∀ h, a.exit.head = some h → h ≤ x
    let causes := gapCauses a.lastSeq seq.toNat ++ jumpCauses a.defn.jump a.deliveryBase cut.toNat ++ restartCauses a
    let broke := breaksLine l a causes
    let applied (t : State) : Prop := exec c s = .next t ∧ Touches [.ports, .trackers, .slc] s t ∧ OtherLines l s t ∧
      CountTaken a.defn.jump a.delivery a.deliveryBase cut.toNat (t.trackers[l]).delivery (t.trackers[l]).deliveryBase ∧
      (t.trackers[l]).feed = a.feed ∧ (t.trackers[l]).feedBase = a.feedBase ∧
      t.ports[l] = (s.ports[l]).afterItem (Missed a.lastSeq seq.toNat) false ∧ Discontinued l (arrivalNotices l s) causes [] s t ∧
      (t.trackers[l]).cnt = { a.cnt with
        jumps := bumpTimes (causes.filter (· == 1)).length a.cnt.jumps
        holds := bumpTimes (holdsOf [(a.deliveryBase, cut.toNat)]) a.cnt.holds
        uncertain := (t.trackers[l]).cnt.uncertain }
    (¬good → ItemRejected c l seq s) ∧
    (good → a.map = [] → a.exit.head = none ∨ a.exit.names = [] ∨ a.exit.head = some x → ∃ t, applied t ∧
      (let b := t.trackers[l]
       b.work = none ∧ b.map = [] ∧ b.pair = some (b.feed, b.delivery) ∧
       b.exit = { head := some (x + ahead), names := names, suspect := b.state == .uncertain })) ∧
    ∀ h n ns, good → a.exit.head = some h → h < x → x ≤ h + 8000000 → a.exit.names = n :: ns → ∃ t, applied t ∧
      (let b := t.trackers[l]
       b.exit = a.exit.mark broke ∧ b.map = a.map.map (Segment.mark broke) ∧
       ∃ (p : ChildPart) (ps : List ChildPart) (scraps : List NewLink), (p :: ps).map (·.name) = n :: ns ∧
         b.work = some { op := .makeChild (some p) scraps, presented := true, seg := 0,
                         todo := ps.map (fun q => .make (some q) []) ++ [.setExit (x + ahead) names, .keepPair, .leave], fromPort := true } ∧
         ∀ (i : Nat) (q : ChildPart), (p :: ps)[i]? = some q → q.head = h ∧ q.length = x - h ∧ q.lane = (if a.defn.lanes = 1 then .whole else .num i) ∧
           q.clamped = false ∧ q.suspect = b.exit.suspect ∧
           ∀ k ∈ q.links, k.childSpan.lo < k.childSpan.hi ∧ k.childSpan.hi ≤ q.length)

/-- R57, R70, R72: a malformed item sets the last sequence number and changes no odometer, base or exit record; in TRACKING and UNCERTAIN it leaves
the line UNCERTAIN when a frame was missed, or when its kind is not POSITION or READINGS. A restart mark clears the bases, the pair and the last
sequence number, leaves exit record and odometers, and the map but for the leaving check of R81 that ends every item, ends the condition UNCERTAIN,
makes the line WAITING, and closes the open blocks of its slots. R68: a gap, and a malformed item of another kind than POSITION and READINGS in
TRACKING and UNCERTAIN, marks the segments and a winding with names suspect and raises its LINE notice: UNCERTAIN, counted and with the condition
entered, when the line becomes so, else DISCONTINUITY. That a gap met in WAITING does so too and leaves the line WAITING is the model's reading (log
entry 53); the notice of an item arriving whole on a SILENT line is the model's (log entry 14). -/
def Obligations.MalformedAndRestartItems : Prop :=
  (∀ (l : Fin 4) (kind seq : Byte) (s : State), ItemHanded s l (.malformed kind seq) →
    let a := s.trackers[l]
    ∃ t, exec (.malformedItem l kind seq) s = .next t ∧ Touches [.ports, .trackers, .slc] s t ∧ OtherLines l s t ∧
      (let b := t.trackers[l]
       b.lastSeq = some seq.toNat ∧ b.feed = a.feed ∧ b.feedBase = a.feedBase ∧ b.delivery = a.delivery ∧
       b.deliveryBase = a.deliveryBase ∧ b.pair = a.pair ∧ b.work = none ∧
       (let causes := gapCauses a.lastSeq seq.toNat ++ if kind = 1#8 ∨ kind = 2#8 then [] else [2]
        b.exit = a.exit.mark (breaksLine l a causes) ∧ b.map = a.left.map.map (Segment.mark (breaksLine l a causes)) ∧
        t.ports[l] = (s.ports[l]).afterItem (Missed a.lastSeq seq.toNat) (s.ports[l]).order.isEmpty ∧
        Discontinued l (arrivalNotices l s) causes [] s t ∧ b.cnt = { a.cnt with uncertain := b.cnt.uncertain }) ∧
       (let broken : Prop := Missed a.lastSeq seq.toNat ≠ 0 ∨ kind ≠ 1#8 ∧ kind ≠ 2#8
        (a.state = .waiting → b.state = .waiting) ∧ (a.state = .uncertain → b.state = .uncertain) ∧
        (a.state = .tracking → broken → b.state = .uncertain) ∧ (a.state = .tracking → ¬broken → b.state = .tracking)))) ∧
  ∀ (l : Fin 4) (s : State), ItemHanded s l .restart →
    ∃ t, exec (.restartMark l) s = .next t ∧ Touches [.ports, .trackers, .capture, .archive, .slc] s t ∧ OtherLines l s t ∧
      t.trackers[l] = { (s.trackers[l]).left with
        feedBase := none, deliveryBase := none, pair := none, lastSeq := none, state := .waiting } ∧
      t.slc.uncertain[l] = none ∧
      ∀ i : Fin 64,
        ((s.capture.slots[i]).defined = false ∨ (s.capture.slots[i]).line ≠ l.1 → t.capture.slots[i] = s.capture.slots[i]) ∧
        ((s.capture.slots[i]).defined = true → (s.capture.slots[i]).line = l.1 → t.capture.slots[i] = { s.capture.slots[i] with
          block := none,
          mark := match (s.capture.slots[i]).block with | some b => some b.last | none => (s.capture.slots[i]).mark })

/-- R88: an injected event that its tracker takes between two items applies no count and checks no sequence number; NOW stands for the odometer.
R77: a TAIL of the open last segment of a coil closes it there, with CLOSE ENTRY presented; one of the only segment, DETACHED, needs no operation,
and the event is answered ACCEPTED. R75, R69: an ENTRY on an empty map, or at or behind the tail of a closed last segment with a place left, places
its segment, with ENTER COIL presented, and returns the line to TRACKING; one that finds the last segment open closes it first, with CLOSE ENTRY
presented, or, where that segment has no coil, with no operation (for one that a RESET left so, log entry 54). R83: a CUT with nothing to make moves
the exit record and is answered ACCEPTED. R84, R87: with names at the shear MAKE CHILD is first presented for the first of them, the coil no longer
than 8,000,000, and the exit record has not moved yet; R86: a strip under one segment that goes wholly to scrap has MAKE CHILD presented without a
child part. R72: a TAIL or an ENTRY out of order, an ENTRY on a full map and a malformed CUT are answered REFUSED, with ORDER, NO ROOM and BAD VALUE
or ORDER, and make a counting line UNCERTAIN. That an ENTRY on a full map is answered ORDER when it is out of order as well, and that the tracker
tests the bounds of a CUT once more with its odometer, are the model's readings (log entries 21, 22). R68: a malformed event marks segments and a
winding with names suspect and raises UNCERTAIN or DISCONTINUITY with cause MALFORMED, counted, in TRACKING and UNCERTAIN. R87, R74: the steps left
are those of an item, without the pair. -/
def Obligations.InjectedEventApplied : Prop :=
  ∀ (l : Fin 4) (f : Frame) (s : State), s.between l = true →
    let a := s.trackers[l]
    let here (e : HostEvent) : Prop := s.slc.unit = .line f l (.event e)
    let kept (t : State) : Prop := exec (.injectedEvent l) s = .next t ∧ Touches [.trackers, .slc] s t ∧ OtherLines l s t ∧
      (t.trackers[l]).feed = a.feed ∧ (t.trackers[l]).feedBase = a.feedBase ∧ (t.trackers[l]).delivery = a.delivery ∧
      (t.trackers[l]).deliveryBase = a.deliveryBase ∧ (t.trackers[l]).pair = a.pair ∧ (t.trackers[l]).lastSeq = a.lastSeq
    let rest : List Task := crossingsFrom 0 ++ [.leave]
    let waits (t : State) (op : TrackOp) (i : Nat) (ks : List Task) : Prop := t.slc.unit = .event f l ∧ t.outgoing = s.outgoing ∧
      (t.trackers[l]).exit = a.exit ∧
      (t.trackers[l]).work = some { op := op, presented := true, seg := i, todo := ks, fromPort := false }
    let refused (k : Code) : Prop := ∃ t, kept t ∧ Answered s t (refusedWith f k) none ∧ (t.trackers[l]).exit = a.exit.mark (breaksLine l a [2]) ∧
      (t.trackers[l]).map = a.left.map.map (Segment.mark (breaksLine l a [2])) ∧ (t.trackers[l]).work = none ∧
      Discontinued l [] [2] [] s t ∧ (t.trackers[l]).cnt = { a.cnt with uncertain := (t.trackers[l]).cnt.uncertain } ∧
      (a.state = .tracking ∨ a.state = .uncertain → (t.trackers[l]).state = .uncertain)
    let restored (t : State) : Prop := (t.trackers[l]).state = (if a.state = .uncertain then .tracking else a.state) ∧
      (a.state = .uncertain → t.slc.uncertain[l] = none) ∧
      NoticesTaken (if a.state = .uncertain then [{ cls := .line, reason := 3, line := some l.1 }] else []) s t
    (∀ pos, here (.tail pos) →
      let x := pos.getD a.feed
      (∀ gs g q, a.map = gs ++ [g] → g.ft = none → g.coil = some q → g.fh ≤ x →
        ∃ t, kept t ∧ waits t (.closeEntry q x) gs.length rest ∧ (t.trackers[l]).state = a.state ∧ NoticesTaken [] s t ∧
          (t.trackers[l]).map = gs ++ [{ g with ft := some x }]) ∧
      (∀ g, a.map = [g] → g.ft = none → g.coil = none → g.fault = .detached → g.fh ≤ x →
        ∃ t, kept t ∧ Answered s t (accepted f) none ∧ (t.trackers[l]).work = none ∧ (t.trackers[l]).state = a.state ∧
          (x = g.fh → (t.trackers[l]).map = []) ∧
          ∀ y ∈ (t.trackers[l]).map, y.coil = none ∧ y.fault = .detached ∧ y.fh = g.fh ∧ y.ft = some x) ∧
      ((∀ gs g, a.map = gs ++ [g] → g.ft ≠ none ∨ x < g.fh) → refused .order)) ∧
    (∀ pos o declared name, here (.entry pos o declared name) →
      let x := pos.getD a.feed
      let placed (before : List Segment) : Prop := ∃ t, kept t ∧ waits t (.enterCoil name o x declared) before.length rest ∧ restored t ∧
        (t.trackers[l]).map = before ++ [{ coil := none, orient := o, length := none, fh := x, ft := none, dh := none, dt := none,
                                           suspect := false, fault := .none }]
      (a.map.length < 8 → (∀ gs g, a.map = gs ++ [g] → ∃ ft, g.ft = some ft ∧ ft ≤ x) → placed a.map) ∧
      ∀ gs g, a.map = gs ++ [g] →
        (g.ft = none → g.fh ≤ x → a.map.length < 8 ∨ x = g.fh →
          (∀ q, g.coil = some q → ∃ t, kept t ∧ waits t (.closeEntry q x) gs.length (.place o x declared name :: rest) ∧ restored t ∧
            (t.trackers[l]).map = gs ++ [{ g with ft := some x }]) ∧
          (g.coil = none → placed (if x = g.fh then gs else gs ++ [{ g with ft := some x }]))) ∧
        ((∃ ft, g.ft = some ft ∧ x < ft) ∨ g.ft = none ∧ x < g.fh → refused .order) ∧
        (8 ≤ a.map.length → (∃ ft, g.ft = some ft ∧ ft ≤ x) ∨ g.ft = none ∧ g.fh < x → refused .noRoom)) ∧
    ∀ pos next names, here (.cut pos next names) →
      let x := pos.getD a.delivery
      let n := next.getD a.delivery
      let shaped : Prop := x ≤ n ∧ n ≤ x + 200000000 ∧ (names = [] ∨ names.length = a.defn.lanes)
      (¬shaped → refused .badValue) ∧
      (shaped → ∀ h, a.exit.head = some h → x < h → refused .order) ∧
      (shaped → (∀ h, a.exit.head = some h → h ≤ x) →
        (a.map = [] → a.exit.head = none ∨ a.exit.names = [] ∨ a.exit.head = some x →
          ∃ t, kept t ∧ Answered s t (accepted f) none ∧
            t.trackers[l] = { a with exit := { head := some n, names := names, suspect := a.state == .uncertain } }) ∧
        (∀ h m ms, a.exit.head = some h → h < x → a.exit.names = m :: ms →
          ∃ (t : State) (p : ChildPart) (ps : List ChildPart) (scraps : List NewLink), kept t ∧ (p :: ps).map (·.name) = m :: ms ∧
            waits t (.makeChild (some p) scraps) 0 (ps.map (fun q => .make (some q) []) ++ [.setExit n names, .leave]) ∧
            (t.trackers[l]).map = a.map ∧ (t.trackers[l]).state = a.state ∧
            ∀ (i : Nat) (q : ChildPart), (p :: ps)[i]? = some q → q.head = h ∧ q.length = min (x - h) 8000000 ∧
              q.lane = (if a.defn.lanes = 1 then .whole else .num i) ∧
              q.clamped = decide (8000000 < x - h) ∧ q.suspect = (q.clamped || a.exit.suspect) ∧
              ∀ k ∈ q.links, k.childSpan.lo < k.childSpan.hi ∧ k.childSpan.hi ≤ q.length) ∧
        (∀ g q d, a.map = [g] → g.coil = some q → g.fault = .none → g.dh = some d → g.dt = none → a.exit.names = [] →
          let from_ := a.exit.head.getD x
          let lo := max from_ d
          let hi := min n (lo + 200000000)
          lo < n → ∃ t, kept t ∧ (t.trackers[l]).map = a.map ∧ (t.trackers[l]).state = a.state ∧
            waits t (.makeChild none [{ childSpan := { lo := lo - from_, hi := hi - from_ }, scrap := hi - lo, parent := q, lane := .whole,
                                        dir := (match g.orient with | .headFirst => .same | .tailFirst => .reversed),
                                        suspect := g.suspect || a.exit.suspect, parentSpan := none, source := { lo := lo, hi := hi } }]) 0
              [.setExit n names, .leave]))

/-- R93, R190, R29: CLEAR ALL DATA reaches a tracker between two items: it goes back to its starting values, WAITING with the silence timer
running on an enabled line, UNDEFINED on another, keeping its definition and counters, and its two conditions end. Its turn at the arbiter
come, the Genealogy Table's part empties both pools, starts the sequences at 1 again and closes an import session. The request is answered
ACCEPTED when table, trackers and archive have each applied their part. -/
def Obligations.ClearReachesTrackersAndTable : Prop :=
  (∀ (l : Fin 4) (s : State), (s.trackers[l]).clear = true → (s.trackers[l]).work = none → s.startUp.ready = true →
    ∃ t, exec (.trackerClear l) s = .next t ∧ Touches [.trackers, .slc] s t ∧ OtherLines l s t ∧
      t.trackers[l] =
        { defn := (s.trackers[l]).defn, cnt := (s.trackers[l]).cnt,
          state := if (s.trackers[l]).defn.enabled then .waiting else .undefined,
          timer := (s.trackers[l]).defn.enabled,
          silent := false, feed := 0, delivery := 0, feedBase := none, deliveryBase := none, pair := none, lastSeq := none, map := [],
          exit := { head := none, names := [], suspect := false }, work := none, clear := false } ∧
      t.slc.uncertain[l] = none ∧ t.slc.silent[l] = none ∧
      (∀ f, s.slc.unit = .clearing f true →
        (s.archive.clear = false → (∀ k : Fin 4, k ≠ l → (s.trackers[k]).clear = false) → Answered s t (accepted f) none) ∧
        (s.archive.clear = true ∨ (∃ k : Fin 4, k ≠ l ∧ (s.trackers[k]).clear = true) →
          t.slc.unit = s.slc.unit ∧ t.outgoing = s.outgoing))) ∧
  ∀ (f : Frame) (s : State), s.slc.unit = .clearing f false → TrackersQuiet s →
    ∃ t, exec .gtClear s = .next t ∧ Touches [.table, .slc] s t ∧
      t.table = { s.table with coils := [], links := [], nextSeq := 1, session := none } ∧
      (s.archive.clear = false → (∀ l : Fin 4, (s.trackers[l]).clear = false) → Answered s t (accepted f) none) ∧
      (s.archive.clear = true ∨ (∃ l : Fin 4, (s.trackers[l]).clear = true) →
        t.slc.unit = .clearing f true ∧ t.outgoing = s.outgoing)

/-! ## Operations of the Genealogy Table -/

/-- R9, R16, R76: ENTER COIL performed for its tracker. With no indexed record of the name, sequences left and room in the pools, it creates a
record of the next sequence in the lowest free slot, ENTERED, UNKNOWN and indexed, of the declared length limited to 8,000,000; an indexed record
that is MADE and has no child link becomes ENTERED; any other indexed record gives a REENTRY record, not indexed. With no sequence left no record is
made and the segment is DETACHED. R25: on a full coil pool, AUTO-RETIRE removes the eligible record of lowest sequence with its links, its notice is
raised, and the new record takes the lowest slot then free; when no record is eligible nothing is removed, no record is made and the segment is
DETACHED. The segment takes the record's reference and length, or its DETACHED mark, and the item goes on with the steps it had left, whatever they
are (`ItemGoesOn`, `ItemAnswered`). R74: where these are the crossings, the keeping of the pair and the leaving check that end an item, the segment,
its tail not marked yet, stands in the map with that reference and length, or DETACHED; no more than its head can have crossed. R28: the notices are
raised in this order, then those of track faults, each with the bytes of section 11.3, masked, queued or dropped by R183: AUTO-RETIRE with the
number removed, REENTRY with the new record and the one indexed, ENTERED with the record entered; or, with none made, SEQUENCE EXHAUSTED, or
AUTO-RETIRE with 0 and FULL, which name the coil. The name in a TRACK FAULT notice is the model's reading (log entry 15). -/
def Obligations.EnterCoilRecords : Prop :=
  ∀ (l : Fin 4) (s : State) (w : Work) (name : Name) (o : Orientation) (fh declared : Nat), Turn s l w →
    w.op = .enterCoil name o fh declared →
    let g := s.table
    let passage : ConsumedPassage := { line := l.1, orient := o, fh := fh, ft := none }
    let a := s.trackers[l]
    let ran (t : State) : Prop := exec (.enterCoil l) s = .next t ∧ t.table.lastTracker = l ∧ t.table.session = g.session ∧
      Touches [.table, .trackers, .slc] s t ∧ OtherLines l s t ∧ ItemAnswered s t l w
    let took (t : State) (cnt : TrackCounters) (f : Segment → Segment) : Prop :=
      ItemGoesOn w.todo w.fromPort { a with map := a.map.modify w.seg f, cnt := cnt } t.trackers[l] ∧ Stands w.todo w.seg f a t.trackers[l]
    let segment (t : State) (r : Ref) (len : Option Nat) : Prop := took t a.cnt (fun x => { x with coil := some r, length := len })
    let entered (r : Ref) : Notice := { cls := .coil, reason := 1, line := some l.1, name := some name, coil := some r }
    let trouble (reason : Nat) (name : Option Name) (figure : Option Nat) : Notice :=
      { cls := .genealogy, reason := reason, line := some l.1, name := name, figure := figure }
    let created (t : State) (old : Option Ref) : Prop := let again := old.isSome; ∃ c : Coil, LowestFree (g.coils.map (·.handle)) c.handle ∧
      c = { handle := c.handle, seq := g.nextSeq, name := name, indexed := !again, origin := .unknown, state := .entered,
            length := if declared = 0 then none else some (min declared 8000000),
            flags := { reentry := again, suspect := decide (8000000 < declared), clamped := decide (8000000 < declared) },
            made := none, consumed := some passage, parents := [], children := [] } ∧
      (∀ d, d ∈ t.table.coils ↔ d = c ∨ d ∈ g.coils) ∧ t.table.links = g.links ∧ t.table.nextSeq = g.nextSeq + 1 ∧
      segment t { handle := c.handle, seq := c.seq } c.length ∧
      (let r : Ref := { handle := c.handle, seq := c.seq }
       ItemRaised ((old.toList.map (fun q => { trouble 1 (some name) none with coil := some r, other := some q })) ++ [entered r]) l s t)
    let room : Prop := g.nextSeq ≤ 4294967295 ∧ g.coils.length < 16384 ∧ g.links.length ≤ 49152
    let unknown : Prop := ∀ c ∈ g.coils, c.indexed = true → c.name ≠ name
    (unknown → room → ∃ t, ran t ∧ created t none) ∧
    (∀ d ∈ g.coils, PoolInv g → NameInv g → d.indexed = true → d.name = name →
      (d.state = .made → d.children = [] → ∃ t, ran t ∧ t.table.links = g.links ∧ t.table.nextSeq = g.nextSeq ∧
        t.table.coils = g.coils.map (fun c => if c.handle = d.handle then { c with state := .entered, consumed := some passage } else c) ∧
        segment t { handle := d.handle, seq := d.seq } d.length ∧ ItemRaised [entered { handle := d.handle, seq := d.seq }] l s t) ∧
      (d.state ≠ .made ∨ d.children ≠ [] → room → ∃ t, ran t ∧ created t (some { handle := d.handle, seq := d.seq }))) ∧
    (let nothing (t : State) : Prop := t.table.coils = g.coils ∧ t.table.links = g.links ∧
       t.table.nextSeq = g.nextSeq ∧
       took t { a.cnt with detached := bump a.cnt.detached } (fun x => { x with fault := .detached, coil := none })
     let full : Prop := PoolInv g ∧ g.nextSeq ≤ 4294967295 ∧ g.coils.length = 16384 ∧ g.links.length ≤ 49152
     let eligible (c : Coil) : Prop := c ∈ g.coils ∧ c.state ≠ .entered ∧
       (∀ k : Fin 4, ∀ x ∈ (s.trackers[k]).map, x.coil ≠ some { handle := c.handle, seq := c.seq }) ∧
       ∀ m ∈ g.links, m.handle ∈ c.children → m.parentSpan ≠ none
     (unknown → 4294967295 < g.nextSeq → ∃ t, ran t ∧ nothing t ∧ ItemRaised [trouble 6 (some name) none] l s t) ∧
     (unknown → full → (∀ c, ¬eligible c) →
       ∃ t, ran t ∧ nothing t ∧ ItemRaised [trouble 5 none (some 0), trouble 3 (some name) none] l s t) ∧
     ∀ c, unknown → full → eligible c → (∀ d, eligible d → d.handle ≠ c.handle → c.seq < d.seq) →
       ∃ t, ran t ∧ (∀ m, m ∈ t.table.links ↔ m ∈ g.links ∧ m.handle ∉ c.parents ++ c.children) ∧ t.table.coils.length = 16384 ∧
         (∀ d ∈ g.coils, d.handle ≠ c.handle → ∃ e ∈ t.table.coils, SameCoil d e) ∧
         (∃ e ∈ t.table.coils, e.seq = g.nextSeq ∧ e.name = name ∧ e.state = .entered ∧ e.origin = .unknown ∧ e.indexed = true ∧
           LowestFree ((g.coils.filter (fun d => d.handle != c.handle)).map (·.handle)) e.handle ∧
           segment t { handle := e.handle, seq := g.nextSeq } e.length ∧
           ItemRaised [trouble 5 none (some 1), entered { handle := e.handle, seq := g.nextSeq }] l s t) ∧
         t.table.nextSeq = g.nextSeq + 1)

/-- R1, R2, R3, R17, R76: CLOSE ENTRY performed for its tracker writes the feed tail of an ENTERED record, which becomes CONSUMED; an absent length
becomes the feed span, limited to 8,000,000 with SUSPECT and CLAMPED; a feed span of 0 sets NO MATERIAL and leaves the length. The segment takes the
record's length, and the item goes on with the steps it had left, whatever they are (`ItemGoesOn`, `ItemAnswered`): the crossings, the pair and the
leaving check of a TAIL, behind the new segment's ENTER COIL for an ENTRY, or the dropping of pending links and the emptying of the map for EMPTY
LINE. For NO MATERIAL the segment, once DROP PENDING is presented for one whose head has crossed, first leaves the map. A reference that is stale,
or to a record not ENTERED, changes no record and DETACHES the segment. R74: where the steps left are those that end an item, and no crossing falls
due or the segment's tail is not marked, the segment stands in the map with its new length, or with the fault DETACHED and no coil. That a DETACHED
one is removed when it ends at its head is the model's reading, since R76 gives DETACHED alone for a stale reference (log entry 29). R28: the COIL
notice CONSUMED, with the record and its length as closed, is raised before those of track faults, with the bytes of section 11.3 (R183); a stale
reference raises none. That CONSUMED names the presenting tracker's line is the model's choice (log entry 71), and the name in a TRACK FAULT notice
its reading (log entry 15). -/
def Obligations.CloseEntryRecords : Prop :=
  ∀ (l : Fin 4) (s : State) (w : Work) (r : Ref) (ft : Nat), Turn s l w → w.op = .closeEntry r ft →
    let g := s.table
    let a := s.trackers[l]
    let ran (t : State) : Prop := exec (.closeEntry l) s = .next t ∧ Touches [.table, .trackers, .slc] s t ∧ OtherLines l s t ∧
      ItemAnswered s t l w ∧ t.table = { g with coils := t.table.coils, lastTracker := l }
    (∀ c p, PoolInv g → c ∈ g.coils → c.handle = r.handle → c.seq = r.seq → c.state = .entered → c.consumed = some p → p.fh ≤ ft →
      ∃ t, ran t ∧
        (let excess : Prop := c.length = none ∧ 8000000 < ft - p.fh
         let new : Coil := { c with
           state := .consumed,
           consumed := some { p with ft := some ft },
           length := if c.length = none ∧ p.fh < ft then some (min (ft - p.fh) 8000000) else c.length,
           flags := { reentry := c.flags.reentry, suspect := c.flags.suspect || decide excess,
                      noMaterial := c.flags.noMaterial || decide (ft = p.fh), duplicateName := c.flags.duplicateName,
                      clamped := c.flags.clamped || decide excess } }
         let f (x : Segment) : Segment := { x with length := new.length }
         t.table.coils = g.coils.map (fun d => if d.handle = c.handle then new else d) ∧
         ItemRaised [{ cls := .coil, reason := 2, line := some l.1, name := some c.name, coil := some r, figure := new.length }] l s t ∧
         (p.fh < ft → ItemGoesOn w.todo w.fromPort { a with map := a.map.modify w.seg f } t.trackers[l] ∧
           Stands w.todo w.seg f a t.trackers[l]) ∧
         (ft = p.fh → ItemGoesOn (.drop w.seg :: .removeLast :: w.todo) w.fromPort a t.trackers[l]))) ∧
    ((∀ c ∈ g.coils, c.handle = r.handle → c.seq ≠ r.seq ∨ c.state ≠ .entered) →
      ∃ t, ran t ∧ t.table.coils = g.coils ∧ ItemRaised [] l s t ∧
        (let f (x : Segment) : Segment := { x with fault := .detached, coil := none }
         let b : Tracker := { a with map := a.map.modify w.seg f, cnt := { a.cnt with detached := bump a.cnt.detached } }
         ((∃ x, a.map[w.seg]? = some x ∧ x.fh = ft) → ItemGoesOn (.removeLast :: w.todo) w.fromPort b t.trackers[l]) ∧
         ((∀ x, a.map[w.seg]? = some x → x.fh ≠ ft) →
           ItemGoesOn w.todo w.fromPort b t.trackers[l] ∧ Stands w.todo w.seg f a t.trackers[l])))

/-- R4, R5, R6, R7, R9, R12, R18, R87: MAKE CHILD performed for its tracker first leaves out every link whose parent reference is stale. When the
rest is legal and the pools have room, with a child part and a sequence left it creates one record of the next sequence in the lowest free slot,
MADE and TRACKED, indexed unless an indexed record bears its name, and one link for each child link; and with or without a child part one scrap link
for each scrap link: without one, for a strip that goes wholly to scrap, it makes no record and takes no sequence. A link with a parent span given
is FINAL; one without is PENDING with its source. No other coil changes but in its link lists, and every old link stays. It fails as INCONSISTENT
when a child span is empty or beyond the child, when two of them overlap (L5), when a parent span breaks L4 or overlaps that of a link of the coil
or of another new one whose lane is not apart (L6); by SEQUENCE EXHAUSTED with a child part and no sequence left; and as FULL when AUTO-RETIRE finds
no record to remove (R24, R25): nothing is made, the child is counted lost, and the GENEALOGY notice names it, AUTO-RETIRE with 0 before FULL. That
INCONSISTENT goes before SEQUENCE EXHAUSTED is the model's reading (log entry 46), and that the notice has no name without a child part its choice
(log entry 30). The item then goes on with the steps it had left (`ItemGoesOn`, `ItemAnswered`). R28: with a record made DUPLICATE NAME is raised
when it is not indexed, then the COIL notice MADE with its length and lane; scrap links alone raise none; the bytes are those of section 11.3
(R183), and track faults come after, named as log entry 15 says. -/
def Obligations.MakeChildRecords : Prop :=
  ∀ (l : Fin 4) (s : State) (w : Work) (child : Option ChildPart) (scraps : List NewLink), Turn s l w → w.op = .makeChild child scraps →
    let g := s.table
    let a := s.trackers[l]
    let live (ns : List NewLink) : List NewLink :=
      ns.filter (fun n => g.coils.any (fun c => c.handle == n.parent.handle && c.seq == n.parent.seq))
    let links := live (match child with | none => [] | some p => p.links)
    let new := links ++ live scraps
    let ran (t : State) : Prop := exec (.makeChild l) s = .next t ∧ Touches [.table, .trackers, .slc] s t ∧ OtherLines l s t ∧
      ItemAnswered s t l w ∧ t.table.lastTracker = l ∧ t.table.session = g.session
    let recorded (t : State) : Prop := ran t ∧ ItemGoesOn w.todo w.fromPort a t.trackers[l] ∧
      t.table.links.length = g.links.length + new.length ∧ (∀ m ∈ g.links, m ∈ t.table.links) ∧
      (∀ c ∈ g.coils, ∃ d ∈ t.table.coils, SameCoil c d) ∧
      ∀ n ∈ live scraps, ∃ m ∈ t.table.links, m = { handle := m.handle, child := none, childSpan := { lo := 0, hi := 0 }, scrap := n.scrap,
                                                    parent := n.parent.handle, parentSpan := n.parentSpan, dir := n.dir, lane := n.lane,
                                                    line := l.1, suspect := n.suspect,
                                                    source := if n.parentSpan = none then
                                                        some { segment := n.parent.seq, span := n.source } else none }
    let trouble (reason : Nat) (name : Option Name) (coil : Option Ref) (figure : Option Nat) : Notice :=
      { cls := .genealogy, reason := reason, line := some l.1, name := name, coil := coil, figure := figure }
    let failed (before : List Notice) (reason : Nat) : Prop := ∃ t, ran t ∧ t.table = { g with lastTracker := l } ∧
      ItemGoesOn w.todo w.fromPort { a with cnt := { a.cnt with lost := bump a.cnt.lost } } t.trackers[l] ∧
      ItemRaised (before ++ [trouble reason (child.map (·.name)) none none]) l s t
    let apart (m n : NewLink) : Prop := m.childSpan.hi ≤ n.childSpan.lo ∨ n.childSpan.hi ≤ m.childSpan.lo
    let clear (x y : Ival) (m n : Lane) : Prop := min x.hi y.hi ≤ max x.lo y.lo ∨ m ≠ n ∧ m ≠ .whole ∧ n ≠ .whole
    let fits (n : NewLink) : Prop := ∀ q, n.parentSpan = some q → ∃ c ∈ g.coils, c.handle = n.parent.handle ∧
      (∃ len, c.length = some len ∧ q.lo < q.hi ∧ q.hi ≤ len) ∧
      ∀ m ∈ g.links, m.handle ∈ c.children → ∀ x, m.parentSpan = some x → clear x q m.lane n.lane
    let legal : Prop := PoolInv g ∧ (∀ n ∈ new, fits n) ∧
      new.Pairwise (fun m n => m.parent = n.parent → ∀ x y, m.parentSpan = some x → n.parentSpan = some y → clear x y m.lane n.lane) ∧
      ∀ p, child = some p → (∀ n ∈ links, n.childSpan.lo < n.childSpan.hi ∧ n.childSpan.hi ≤ p.length) ∧ links.Pairwise apart
    let stuck (c : Coil) : Prop := c.state = .entered ∨
      (∃ k : Fin 4, ∃ x ∈ (s.trackers[k]).map, x.coil = some { handle := c.handle, seq := c.seq }) ∨
      (∃ m ∈ g.links, m.handle ∈ c.children ∧ m.parentSpan = none) ∨ ∃ n ∈ new, n.parent.handle = c.handle
    (∀ p, child = some p → legal → g.nextSeq ≤ 4294967295 → g.coils.length < 16384 → g.links.length + new.length ≤ 49152 →
      ∃ t, recorded t ∧ t.table.nextSeq = g.nextSeq + 1 ∧ t.table.coils.length = g.coils.length + 1 ∧
        ∃ c ∈ t.table.coils, LowestFree (g.coils.map (·.handle)) c.handle ∧
          SameCoil { handle := c.handle, seq := g.nextSeq, name := p.name, indexed := c.indexed, origin := .tracked, state := .made,
                     length := some p.length, flags := { suspect := p.suspect, clamped := p.clamped, duplicateName := !c.indexed },
                     made := some { line := l.1, lane := p.lane, head := p.head }, consumed := none, parents := [], children := [] } c ∧
          (c.indexed = true ↔ ∀ d ∈ g.coils, d.indexed = true → d.name ≠ p.name) ∧
          (let r : Ref := { handle := c.handle, seq := g.nextSeq }
           ItemRaised ((if c.indexed then [] else [trouble 2 (some p.name) (some r) none]) ++
             [{ cls := .coil, reason := 3, line := some l.1, name := some p.name, coil := some r, figure := some p.length,
                detail := some (match p.lane with | .whole => 255 | .num n => n) }]) l s t) ∧
          ∀ n ∈ links, ∃ m ∈ t.table.links, m = { handle := m.handle, child := some c.handle, childSpan := n.childSpan, scrap := 0,
                                                    parent := n.parent.handle, parentSpan := n.parentSpan, dir := n.dir, lane := n.lane,
                                                    line := l.1, suspect := n.suspect,
                                                    source := if n.parentSpan = none then
                                                        some { segment := n.parent.seq, span := n.source } else none }) ∧
    (child = none → legal → g.coils.length ≤ 16384 → g.links.length + new.length ≤ 49152 →
      ∃ t, recorded t ∧ t.table.nextSeq = g.nextSeq ∧ t.table.coils.length = g.coils.length ∧ ItemRaised [] l s t) ∧
    (PoolInv g → ¬legal → failed [] 4) ∧
    (child ≠ none → legal → 4294967295 < g.nextSeq → failed [] 6) ∧
    (legal → child = none ∨ g.nextSeq ≤ 4294967295 →
      child ≠ none ∧ 16384 ≤ g.coils.length ∨ 49152 < g.links.length + new.length → (∀ c ∈ g.coils, stuck c) →
        failed [trouble 5 none none (some 0)] 3)

/-- R19, R20, R44, R45, R7, R79: FINALIZE LINKS and DROP PENDING performed for their tracker. DROP PENDING removes exactly the pending links of the
segment. FINALIZE LINKS removes each of them, or gives it the parent span of R45, the direction of the orientation and the segment's suspect mark,
and leaves every other link; one with no such span is removed, and one that is the segment's only pending link and meets no parent span of the
coil's final links is kept. Neither changes a coil record but in its link lists, and a stale reference changes no link and DETACHES the segment.
With the result of FINALIZE LINKS the segment takes its D_t. The item then goes on with the steps it had left, whatever they are (`ItemGoesOn`,
`ItemAnswered`): further crossings, which change nothing where none falls due, the pair and the leaving check; the removal of a segment for NO
MATERIAL before them; or the rest of an EMPTY LINE. R44, R45: the parent span of a delivery span, cut to D_h to D_t, is formed by the two ceilings
from delivery to feed and from feed to the coil, turned for TAIL FIRST; outside the bounds of R44, and where nothing is left, there is none. R46:
the parent spans of disjoint delivery spans are disjoint, in order for HEAD FIRST and in reverse for TAIL FIRST, those of delivery spans that meet
within D_h to D_t meet, none goes beyond the coil, and those of spans that tile D_h to D_t tile the coil. R28: each link removed because its parent
span would break L6 raises the GENEALOGY notice INCONSISTENT with the line and the parent's name; no other removal raises one (bytes of section
11.3, R183). The name in a TRACK FAULT notice is the model's reading (log entry 15). -/
def Obligations.PendingLinksFinalizedOrDropped : Prop :=
  let bounded (fh ft dh dt len : Nat) : Prop :=
    fh < ft ∧ ft - fh ≤ 200000000 ∧ dh < dt ∧ dt - dh ≤ 200000000 ∧ 1 ≤ len ∧ len ≤ 8000000
  (∀ (l : Fin 4) (s : State) (w : Work), Turn s l w → PoolInv s.table →
    let g := s.table
    let a := s.trackers[l]
    let ran (c : Instr) (t : State) : Prop := exec c s = .next t ∧ Touches [.table, .trackers, .slc] s t ∧ OtherLines l s t ∧
      ItemAnswered s t l w ∧ t.table.lastTracker = l ∧ t.table.nextSeq = g.nextSeq ∧ t.table.session = g.session ∧
      t.table.coils.length = g.coils.length ∧ ∀ c ∈ g.coils, ∃ d ∈ t.table.coils, SameCoil c d
    let stale (r : Ref) : Prop := ∀ c ∈ g.coils, c.handle = r.handle → c.seq ≠ r.seq
    let goesOn (t : State) (cnt : TrackCounters) (f : Segment → Segment) : Prop :=
      ItemGoesOn w.todo w.fromPort { a with map := a.map.modify w.seg f, cnt := cnt } t.trackers[l]
    let gone (c : Instr) (f : Segment → Segment) : Prop := ∃ t, ran c t ∧ t.table = { g with lastTracker := l } ∧ ItemRaised [] l s t ∧
      goesOn t { a.cnt with detached := bump a.cnt.detached } (fun x => { f x with fault := .detached, coil := none })
    (∀ r, w.op = .dropPending r → stale r → gone (.dropPending l) id) ∧
    (∀ r c, w.op = .dropPending r → c ∈ g.coils → c.handle = r.handle → c.seq = r.seq →
      ∃ t, ran (.dropPending l) t ∧ goesOn t a.cnt id ∧ ItemRaised [] l s t ∧ ∀ m, m ∈ t.table.links ↔ m ∈ g.links ∧ ¬PendingFor c l.1 m) ∧
    ∀ r o fh ft dh dt len mark, w.op = .finalize r o fh ft dh dt len mark →
      (stale r → gone (.finalizeLinks l) (fun x => { x with dt := some dt })) ∧
      ∀ c ∈ g.coils, c.handle = r.handle → c.seq = r.seq →
        let up (x y : Nat) : Nat := (x + y - 1) / y
        let k (y : Nat) : Nat := up (up ((y - dh) * (ft - fh)) (dt - dh) * len) (ft - fh)
        let span (m : Link) (p : Ival) : Prop := bounded fh ft dh dt len ∧ p.lo < p.hi ∧ ∃ q, m.source = some q ∧
          (let a := max q.span.lo dh
           let b := min q.span.hi dt
           a < b ∧ p = match o with | .headFirst => { lo := k a, hi := k b } | .tailFirst => { lo := len - k b, hi := len - k a })
        let final (m : Link) (p : Ival) : Link :=
          { m with parentSpan := some p, dir := (match o with | .headFirst => .same | .tailFirst => .reversed),
                   suspect := m.suspect || mark, source := none }
        ∃ t, ran (.finalizeLinks l) t ∧ goesOn t a.cnt (fun x => { x with dt := some dt }) ∧
          (∃ refused : List Link, refused.Nodup ∧
            (∀ m, m ∈ refused ↔ m ∈ g.links ∧ PendingFor c l.1 m ∧ (∃ p, span m p) ∧ ∀ x ∈ t.table.links, x.handle ≠ m.handle) ∧
            ItemRaised (refused.map (fun _ => { cls := .genealogy, reason := 4, line := some l.1, name := some c.name })) l s t) ∧
          (∀ m ∈ g.links, ¬PendingFor c l.1 m → m ∈ t.table.links) ∧
          (∀ m ∈ t.table.links, (m ∈ g.links ∧ ¬PendingFor c l.1 m) ∨
            ∃ x ∈ g.links, PendingFor c l.1 x ∧ ∃ p, span x p ∧ m = final x p) ∧
          ∀ m ∈ g.links, PendingFor c l.1 m → (∀ x ∈ g.links, PendingFor c l.1 x → x = m) →
            ∀ p, span m p →
              (∀ x ∈ g.links, x.handle ∈ c.children → ∀ q, x.parentSpan = some q → min p.hi q.hi ≤ max p.lo q.lo) →
              final m p ∈ t.table.links) ∧
  ∀ (o : Orientation) (fh ft dh dt len : Nat),
    let parent (lo hi : Nat) : Option Ival := finalSpan o fh ft dh dt len { lo := lo, hi := hi }
    (¬bounded fh ft dh dt len → ∀ a b, parent a b = none) ∧
    (∀ a b c d p q, parent a b = some p → parent c d = some q →
      p.hi ≤ len ∧ (b ≤ c → match o with | .headFirst => p.hi ≤ q.lo | .tailFirst => q.hi ≤ p.lo) ∧
      (b = c → match o with | .headFirst => p.hi = q.lo | .tailFirst => q.hi = p.lo)) ∧
    (bounded fh ft dh dt len → ∀ (n : Nat) (cut : Nat → Nat), cut 0 = dh → cut n = dt → (∀ i < n, cut i ≤ cut (i + 1)) →
      ∀ x < len, ∃ i < n, ∃ p, parent (cut i) (cut (i + 1)) = some p ∧ p.lo ≤ x ∧ x < p.hi)

/-- R21, R22, R23: an import item whose turn has come at the arbiter. A coil whose fields are legal, whose
name no indexed record bears, with a sequence left and room, is created in the lowest free slot, MADE and IMPORTED; a link between two
indexed coils, legal, of a later child, free of overlap, to a parent without consumed passage, is created FINAL in the lowest free slot.
The frame counts the item accepted. An item refused changes no record, and the frame counts it refused and keeps the first refusal's
position and code: BAD VALUE, DUPLICATE and NO ROOM of a coil; BAD VALUE, NOT FOUND, ORDER, OVERLAP, IN USE and NO ROOM of a link, in the order
of R23. NO ROOM is stated for pools in which no record is eligible for AUTO-RETIRE. That a link name of illegal length is BAD VALUE before the names
are looked up, R23's first test, is the model's reading, with section 11.3 (log entry 23). The frame then goes on with its next item, or, after
its last, is answered IMPORT RESULT with its counts, which join the session's totals; LAST and ONLY close the session. That the totals grow
without bound and the reply carries their low 32 bits is the model's choice (log entry 70); that the reply has its 21 bytes always, an absent total
as four bytes 0xFF and an absent first refusal as 0xFF with code 0, is the model's reading (log entry 24). -/
def Obligations.ImportItemsRecorded : Prop :=
  ∀ (f : Frame) (j : ImportJob) (s : State), s.slc.unit = .table f (.importing j) → TrackersQuiet s →
    PoolInv s.table →
    let g := s.table
    let ran (c : Instr) (t : State) : Prop := exec c s = .next t ∧ Touches [.table, .slc] s t ∧ t.table.lastTracker = g.lastTracker
    let goesOn (k : ImportJob) (t : State) : Prop :=
      (k.at_ < k.items.length → t.slc.unit = .table f (.importing k) ∧ t.outgoing = s.outgoing ∧ t.table.session = g.session) ∧
      (k.items.length ≤ k.at_ → ∀ q, g.session = some q →
        let sums : ImportSession := { code := q.code, accepted := q.accepted + k.accepted, refused := q.refused + k.refused }
        t.table.session = (if k.last then none else some sums) ∧
        Answered s t
          { kind := 0x86#8, channel := f.channel, tag := f.tag, payload :=
              [byteOf ((if k.abandoned = none then 0 else 1) + (if k.last then 2 else 0)), byteOf k.accepted, byteOf k.refused]
                ++ (match k.first with | none => [0xFF#8, 0#8] | some (n, e) => [byteOf n, byteOf e.number])
                ++ beOpt 4 (k.abandoned.map (·.1)) ++ beOpt 4 (k.abandoned.map (·.2))
                ++ beOpt 4 (if k.last then some sums.accepted else none) ++ beOpt 4 (if k.last then some sums.refused else none) }
          none)
    let accepted (c : Instr) (t : State) : Prop := ran c t ∧ goesOn { j with at_ := j.at_ + 1, accepted := j.accepted + 1 } t
    let refused (c : Instr) (k : Code) : Prop := ∃ t, ran c t ∧ t.table = { g with session := t.table.session } ∧
      goesOn { j with
        at_ := j.at_ + 1,
        refused := j.refused + 1,
        first := if j.first = none then some (j.at_, k) else j.first } t
    let indexed (n : Name) (c : Coil) : Prop := c ∈ g.coils ∧ c.indexed = true ∧ c.name = n
    let unknown (n : Name) : Prop := ∀ c, ¬indexed n c
    let stuck (c : Coil) : Prop := c.state = .entered ∨
      (∃ l : Fin 4, ∃ x ∈ (s.trackers[l]).map, x.coil = some { handle := c.handle, seq := c.seq }) ∨
      ∃ m ∈ g.links, m.handle ∈ c.children ∧ m.parentSpan = none
    (∀ flags len name, j.items[j.at_]? = some (.coil flags len name) →
      let legal : Prop := nameOk name = true ∧ 1 ≤ len ∧ len ≤ 8000000 ∧ (flags = 0x00#8 ∨ flags = 0x02#8 ∨ flags = 0x10#8 ∨ flags = 0x12#8)
      (¬legal → refused .importCoil .badValue) ∧ (legal → ¬unknown name → refused .importCoil .duplicate) ∧
      (legal → unknown name → 4294967295 < g.nextSeq ∨ g.coils.length = 16384 ∧ (∀ c ∈ g.coils, stuck c) →
        refused .importCoil .noRoom) ∧
      (legal → unknown name → g.nextSeq ≤ 4294967295 → g.coils.length < 16384 → g.links.length ≤ 49152 →
        ∃ t, accepted .importCoil t ∧ t.table.links = g.links ∧ t.table.nextSeq = g.nextSeq + 1 ∧
          ∃ c : Coil, LowestFree (g.coils.map (·.handle)) c.handle ∧
            c = { handle := c.handle, seq := g.nextSeq, name := name, indexed := true, origin := .imported, state := .made,
                  length := some len, flags := { suspect := flags.getLsbD 1, clamped := flags.getLsbD 4 }, made := none,
                  consumed := none, parents := [], children := [] } ∧
            ∀ d, d ∈ t.table.coils ↔ d = c ∨ d ∈ g.coils)) ∧
    ∀ dir lane cs ps cn pn, j.items[j.at_]? = some (.link dir lane cs ps cn pn) → NameInv g →
      let named : Prop := 1 ≤ cn.length ∧ cn.length ≤ 16 ∧ 1 ≤ pn.length ∧ pn.length ≤ 16
      (¬named → refused .importLink .badValue) ∧
      (named → unknown cn ∨ unknown pn → refused .importLink .notFound) ∧
      ∀ c p, named → indexed cn c → indexed pn p →
        let legal (cl pl : Nat) (ln : Lane) : Prop := c.length = some cl ∧ p.length = some pl ∧ Lane.ofCode lane.toNat = some ln ∧
          cs.lo < cs.hi ∧ cs.hi ≤ cl ∧ ps.lo < ps.hi ∧ ps.hi ≤ pl
        ((∀ cl pl ln, ¬legal cl pl ln) → refused .importLink .badValue) ∧
        ∀ cl pl ln, legal cl pl ln →
          let apart (a b : Ival) : Prop := min a.hi b.hi ≤ max a.lo b.lo
          let clear : Prop := (∀ m ∈ g.links, m.handle ∈ c.parents → apart m.childSpan cs) ∧
            ∀ m ∈ g.links, m.handle ∈ p.children → ∀ q, m.parentSpan = some q →
              apart q ps ∨ m.lane ≠ ln ∧ m.lane ≠ .whole ∧ ln ≠ .whole
          (c.seq ≤ p.seq → refused .importLink .order) ∧
          (p.seq < c.seq → ¬clear → refused .importLink .overlap) ∧
          (p.seq < c.seq → clear → p.consumed ≠ none → refused .importLink .inUse) ∧
          (p.seq < c.seq → clear → p.consumed = none → g.links.length = 49152 →
            (∀ d ∈ g.coils, stuck d ∨ d.handle = c.handle ∨ d.handle = p.handle) → refused .importLink .noRoom) ∧
          (p.seq < c.seq → clear → p.consumed = none → g.coils.length ≤ 16384 → g.links.length < 49152 →
            ∃ t, accepted .importLink t ∧ t.table.nextSeq = g.nextSeq ∧ t.table.coils.length = g.coils.length ∧
              (∀ d ∈ g.coils, ∃ e ∈ t.table.coils, SameCoil d e) ∧
              ∃ m : Link, LowestFree (g.links.map (·.handle)) m.handle ∧
                m = { handle := m.handle, child := some c.handle, childSpan := cs, scrap := 0, parent := p.handle, parentSpan := some ps,
                      dir := if dir = 0#8 then .same else .reversed, lane := ln, line := ((g.session.map (·.code)).getD 0),
                      suspect := c.flags.suspect || p.flags.suspect, source := none } ∧
                ∀ x, x ∈ t.table.links ↔ x = m ∨ x ∈ g.links)

/-- R13, R27, R144: PLAN STEP performed for a channel changes the table in the arbiter's pointer alone, and no other channel. Under HOLD the answer
is kept for the run: none for a stale reference; else the coil, with the first 16 links, in list order, of its parent links that meet the interval
for a step UP, of its FINAL child links that meet it and then its PENDING ones for a step DOWN, from the start or a continuation on, each with its
far coil, and the next continuation. R135, R166: a run whose target is found retired ends with TARGET RETIRED, a walk at once by R166, a playback
run by R135 with its windows in planning gone and no later one planned. R130, R133: a coil whose made or consumed passage matches the trace gives a
DATA span over its source coordinates, none where they hold no cell, and one still ENTERED on the gauge's line GAP IN PROCESS. R134: a LINE window
has one identity span a trace. R131: another coil goes on to its parent links: PENDING, DEPTH at the limit, the level below, NO ORIGIN where none
covers; or, with an empty list, gives NOT PASSED. The model's readings are NOT PASSED for a list whose only, pending, link was deleted (R147, log
entry 60); RETIRED, which a coil below the target gives when reached, at a later step too, in what is left of it (log entry 61); NO ORIGIN for the
rest where such a step finds the list empty (log entry 72). R129, R132, R136, R137: a plan stays in order, at most 64 spans, each within the window,
gaps of one trace and reason that meet joined; the window is shortened to the bin of the 65th span's start, or cut to one bin and FRAGMENTED, each
trace that lost spans with a gap to the window's end. That the answer says whether the coil has parents is the model's choice (log entry 26). -/
def Obligations.PlanStepAnswers : Prop :=
  (∀ (ch : Fin 4) (s : State) (r : Run) (op : PlanOp), s.grant = some (.planner ch) → (s.channels[ch]).run = some r →
    r.planOp = some op →
    let g := s.table
    let stale : Prop := ∀ c ∈ g.coils, c.handle = op.coil.handle → c.seq ≠ op.coil.seq
    let linkOf (h : Nat) : Option Link := g.links.find? (fun m => m.handle == h)
    let rank (n : Lane) : Nat := match n with | .whole => 0 | .num k => k + 1
    let onward (m : Link) : Bool := match op.from_, m.parentSpan with
      | .childStart x, _ => decide (x ≤ m.childSpan.lo)
      | .parentStart x n, some q => decide (x < q.lo) || decide (q.lo = x ∧ rank n ≤ rank m.lane)
      | .pendings _, _ => false
      | _, _ => true
    let resumes : Prop := op.from_ = .start ∨ op.up = true ∧ (∃ x, op.from_ = .childStart x) ∨
      op.up = false ∧ ((∃ x n, op.from_ = .parentStart x n) ∨ ∃ n, op.from_ = .pendings n)
    ∃ t, exec (.planStep ch) s = .next t ∧ Touches [.table, .archive, .channels, .slc] s t ∧ OtherChannels ch s t ∧
      t.table = { g with lastPlanner := ch } ∧ (t.channels[ch]).state = (s.channels[ch]).state ∧
      (t.channels[ch]).staged = (s.channels[ch]).staged ∧
      ((s.channels[ch]).state = .held → ∃ a, (t.channels[ch]).run = some { r with planOp := none, kept := some a } ∧
        (stale → a = none) ∧
        ∀ c, PoolInv g → c ∈ g.coils → c.handle = op.coil.handle → c.seq = op.coil.seq → resumes →
          ∃ q, a = some q ∧ q.coil = c ∧ q.hasParents = !c.parents.isEmpty ∧
            (∀ x ∈ q.links, x.far = ((if op.up then some x.link.parent else x.link.child).bind
              (fun h => g.coils.find? (fun d => d.handle == h))).map (fun d => (d.name, { handle := d.handle, seq := d.seq }))) ∧
            (op.up = true →
              let met := (c.parents.filterMap linkOf).filter
                (fun m => decide (max m.childSpan.lo op.span.lo < min m.childSpan.hi op.span.hi) && onward m)
              q.links.map (·.link) = met.take 16 ∧ q.next = (met.drop 16).head?.map (fun m => .childStart m.childSpan.lo)) ∧
            (op.up = false →
              let kids := c.children.filterMap linkOf
              let met := kids.filter (fun m => m.parentSpan.any (fun p => decide (max p.lo op.span.lo < min p.hi op.span.hi)) && onward m)
              let done := match op.from_ with | .pendings n => n | _ => 0
              let pend := (kids.filter (fun m => m.parentSpan.isNone)).drop done
              q.links.map (·.link) = met.take 16 ++ pend.take (16 - met.length) ∧
              (∀ m p, met[16]? = some m → m.parentSpan = some p → q.next = some (.parentStart p.lo m.lane)) ∧
              (met.length ≤ 16 → q.next =
                if pend.length ≤ 16 - met.length then none else some (.pendings (done + (16 - met.length)))))) ∧
      (∀ w lv, (s.channels[ch]).state = .running → r.body = .walk w → w.await = some (.visit lv) → lv.via = none → stale →
        ∃ q, (t.channels[ch]).run = some q ∧ q.result = some .targetRetired ∧ q.planOp = none) ∧
      ∀ p pl w lv c n, (s.channels[ch]).state = .running → r.body = .play p → r.target = .coil c n → p.planner = some pl →
        w ∈ p.wins → w.stage = .planning → pl.await = some (.visit lv) → lv.depth = 0 → stale →
        ∃ q p', (t.channels[ch]).run = some q ∧ q.result = some .targetRetired ∧ q.planOp = none ∧ q.body = .play p' ∧
          p'.planner = none ∧ p'.stopped = true ∧ p'.nextBin = p.nextBin ∧ p'.nextWin = p.nextWin ∧
          ∀ x ∈ p'.wins, x.stage ≠ .planning) ∧
  (∀ (r : Run) (p : Play) (w : Window) (i : Nat) (tr : Trace) (lv : Level) (a : PlanCoil), p.traces[i]? = some tr →
    let c := a.coil
    (∀ m len, lv.stages = [] → lv.reversed = false → tr.side = .delivery → c.made = some m → c.length = some len → m.line = tr.line →
      m.lane = tr.lane ∨ tr.lane = .whole → lv.span.lo < lv.span.hi → lv.span.hi ≤ len →
      visited r p w i lv a = (addSpan r p w i lv.span (.data { lo := m.head + lv.span.lo, hi := m.head + lv.span.hi }
        [{ child := { lo := 0, hi := len }, parent := { lo := m.head, hi := m.head + len }, dir := .same }]
        (some { name := c.name, coil := { handle := c.handle, seq := c.seq }, pos := lv.span.lo })
        (lv.suspect || c.flags.suspect)), none)) ∧
    (∀ q ft len, lv.stages = [] → lv.reversed = false → tr.side = .feed → c.consumed = some q → q.line = tr.line → q.ft = some ft →
      c.length = some len → q.fh < ft → ft - q.fh ≤ 200000000 → lv.span.lo < lv.span.hi →
      let st : Stage := { child := { lo := 0, hi := len }, parent := { lo := q.fh, hi := ft },
                          dir := match q.orient with | .headFirst => .same | .tailFirst => .reversed }
      let src := st.boundary lv.span
      (src.hi ≤ src.lo → visited r p w i lv a = (w, none)) ∧
      (src.lo < src.hi → visited r p w i lv a = (addSpan r p w i lv.span (.data src [st]
        (some { name := c.name, coil := { handle := c.handle, seq := c.seq }, pos := lv.span.lo })
        (lv.suspect || c.flags.suspect)), none))) ∧
    (∀ q, tr.side = .feed → c.consumed = some q → q.line = tr.line → q.ft = none →
      visited r p w i lv a = (gapAt r p w i lv lv.span .inProcess, none)) ∧
    (tr.side = .delivery ∧ (∀ m, c.made = some m → m.line ≠ tr.line ∨ m.lane ≠ tr.lane ∧ tr.lane ≠ .whole) ∨
        tr.side = .feed ∧ (∀ q, c.consumed = some q → q.line ≠ tr.line ∨ q.ft ≠ none ∧
          (c.length = none ∨ ∀ ft, q.ft = some ft → ft ≤ q.fh ∨ 200000000 < ft - q.fh)) →
      (a.hasParents = false → visited r p w i lv a = (gapAt r p w i lv lv.span .notPassed, none)) ∧
      (a.hasParents = true →
        let more := if lv.reversed = true ∧ a.next = none then (lv.links ++ a.links).reverse else lv.links ++ a.links
        visited r p w i lv a = (w, some { lv with hasParents := true, next := a.next, links := more })))) ∧
  (∀ (r : Run) (p : Play) (w : Window) (i : Nat) (lv : Level) (x : Ival) (g : GapReason),
    (x.hi ≤ x.lo → gapAt r p w i lv x g = w) ∧
    ∀ t, x.lo < x.hi → imageUp lv.stages x = some t → gapAt r p w i lv x g = addSpan r p w i t (.gap g)) ∧
  (∀ (r : Run) (p : Play) (w : Window) (pl : Planner) (lv : Level) (above : List Level),
    let i := pl.trace
    let left : Ival := if lv.reversed then { lo := lv.span.lo, hi := lv.cursor } else { lo := lv.cursor, hi := lv.span.hi }
    (∀ lc : LinkCopy,
      let m := lc.link
      let x : Ival := { lo := max m.childSpan.lo left.lo, hi := min m.childSpan.hi left.hi }
      let w1 := gapAt r p w i lv (if lv.reversed then { lo := x.hi, hi := lv.cursor } else { lo := lv.cursor, hi := x.lo }) .noOrigin
      let passed : Level := { lv with cursor := if lv.reversed then x.lo else x.hi }
      (x.hi ≤ x.lo → takeLink r p w i lv lc = (w, lv, none)) ∧
      (x.lo < x.hi → m.parentSpan = none → takeLink r p w i lv lc = (gapAt r p w1 i lv x .pending, passed, none)) ∧
      ∀ q c far, x.lo < x.hi → m.parentSpan = some q → m.child = some c → lc.far = some far →
        let st : Stage := { child := m.childSpan, parent := q, dir := m.dir }
        let y := st.boundary x
        let turned : Bool := if m.dir = .same then lv.reversed else !lv.reversed
        (p.depth ≤ lv.depth → takeLink r p w i lv lc = (gapAt r p w1 i lv x .depth, passed, none)) ∧
        (lv.depth < p.depth → y.hi ≤ y.lo → takeLink r p w i lv lc = (w1, passed, none)) ∧
        let below : Level := { coil := far.2, span := y, stages := st :: lv.stages, depth := lv.depth + 1, reversed := turned,
                               suspect := lv.suspect || m.suspect, hasParents := false, links := [], next := none,
                               cursor := if turned then y.hi else y.lo, via := none }
        (lv.depth < p.depth → y.lo < y.hi → takeLink r p w i lv lc = (w1, passed, some below))) ∧
    (∀ (c : Ref) (n : Nat), pl.stack = lv :: above → beyond w lv = false → lv.next = none → lv.links = [] →
      planGo r p c (n + 1) w pl = planGo r p c n (gapAt r p w i lv left .noOrigin) { pl with stack := above }) ∧
    (pl.stack = lv :: above → pl.await = some .more →
      (0 < lv.depth → planAnswer r p w pl none = some (gapAt r p w i lv left .retired, { pl with stack := above, await := none })) ∧
      ∀ a : PlanCoil,
        let more := if lv.reversed = true ∧ a.next = none then (lv.links ++ a.links).reverse else lv.links ++ a.links
        let v : Level := { lv with hasParents := a.hasParents, next := a.next, links := more }
        planAnswer r p w pl (some a) = some (w, { pl with await := none, stack := v :: above })) ∧
    (pl.await = some (.visit lv) → 0 < lv.depth →
      planAnswer r p w pl none = some (gapAt r p w i lv lv.span .retired, { pl with await := none }))) ∧
  (∀ (p : Play) (w : Window), w.plan = [] → w.lost = [] →
    (linePlan p w).stage = .fetching ∧
    let whole : SpanKind := .data w.span [{ child := w.span, parent := w.span, dir := .same }] none false
    (linePlan p w).plan = (List.range p.traces.length).map (fun i => { id := w.nextId + i, trace := i, target := w.span, kind := whole })) ∧
  ∀ (r : Run) (p : Play), 0 < p.res →
    let ok (w : Window) : Prop := w.plan.length ≤ 64 ∧ w.span = binSpan r p w.bin0 w.bin1 ∧ w.bin0 < w.bin1 ∧
      w.plan.Pairwise (fun x y => x.target.lo < y.target.lo ∨ x.target.lo = y.target.lo ∧ x.trace ≤ y.trace) ∧
      w.plan.Pairwise (fun x y => ∀ g, x.kind = .gap g → y.kind = .gap g → x.trace = y.trace →
        x.target.hi < y.target.lo ∨ y.target.hi < x.target.lo) ∧
      ∀ x ∈ w.plan, w.span.lo ≤ x.target.lo ∧ x.target.lo < x.target.hi ∧ x.target.hi ≤ w.span.hi
    (∀ w i x kind, ok w → w.span.lo ≤ x.lo → x.lo < x.hi →
      let v := addSpan r p w i x kind
      ok v ∧ v.bin0 = w.bin0 ∧ v.bin1 ≤ w.bin1 ∧
      ∀ g, kind = .gap g → x.lo < w.span.hi → v.bin1 = w.bin1 → v.frag = false →
        ∃ z ∈ v.plan, z.trace = i ∧ z.kind = .gap g ∧ z.target.lo ≤ x.lo ∧ min x.hi w.span.hi ≤ z.target.hi) ∧
    (∀ w y, w.frag = false → w.plan[64]? = some y →
      let k := (y.target.lo - r.from_) / p.res
      (w.bin0 < k → (limitPlan r p w).bin1 = k ∧ (limitPlan r p w).frag = false) ∧
      (k ≤ w.bin0 → (limitPlan r p w).bin1 = w.bin0 + 1 ∧ (limitPlan r p w).frag = true ∧
        (limitPlan r p w).plan.length ≤ 64 - p.traces.length)) ∧
    ∀ w : Window, ∀ q ∈ w.lost, ∃ x ∈ (finishPlan w).plan, x.trace = q.1 ∧ x.target = { lo := q.2, hi := w.span.hi } ∧
      x.kind = .gap .fragmented

/-! ## Capture and archive -/

/-- R99, R100, R101: the idle timer of a slot closes its open block. The slot's closed mark becomes the block's last coordinate, the block
takes the next block sequence with the header of R100, and, with room in the write queue and the archive not EXHAUSTED, it waits there
behind the others; a full queue drops it. That with no open block nothing happens, is the model's choice (log entry 8). -/
def Obligations.ClosedBlockIsHandedOn : Prop :=
  ∀ (i : Fin 64) (s : State),
    let g := s.capture.slots[i]
    (g.block = none → exec (.gaugeIdleExpiry i) s = .next s) ∧
    ∀ b, g.block = some b → s.archive.nextBlock ≤ 281474976710655 →
      ∃ t, exec (.gaugeIdleExpiry i) s = .next t ∧ Touches [.capture, .archive, .slc] s t ∧
        t.capture.slots[i] = { g with block := none, mark := some b.last } ∧
        (∀ j, j ≠ i → t.capture.slots[j] = s.capture.slots[j]) ∧ t.capture.cnt.closed = bump s.capture.cnt.closed ∧
        t.archive.nextBlock = s.archive.nextBlock + 1 ∧
        (s.archive.exhausted = false → s.archive.queue.length < 16 → s.archive.op ≠ none →
          t.archive.occupancy = s.archive.occupancy + 1 ∧
          t.archive.queue = s.archive.queue ++
            [{ slot := i, dseq := g.dseq, line := g.line, side := g.side, lane := g.lane, bseq := s.archive.nextBlock, first := b.first,
               last := b.last, entries := b.entries, suspect := b.suspect }]) ∧
        (s.archive.exhausted = false → 16 ≤ s.archive.queue.length →
          t.capture.cnt.queueFull = bump s.capture.cnt.queueFull ∧ (s.archive.op ≠ none → t.archive.queue = s.archive.queue)) ∧
        (s.archive.exhausted = true → t.archive.cnt.dropped = bump s.archive.cnt.dropped)

/-- R107, R108, R111, R105: a PROGRAM that ends well has written the block's page image with its CRC-32 at the write point and no other byte; the
block leaves the queue and is entered in the index of a slot still under its definition sequence. The write point moves one page on in a group now
FILLING, or, after page 63, the group is FULL and it moves to page 0 of the next group, when that is ERASED or FULL. A PROGRAM that failed makes the
group FAILING, and the write point moves to the next group; the block stays at the front of the queue to be programmed again, or, after its second
failure, is lost; entries of other groups than the one now erased stay in the index. That a failed PROGRAM changes no byte of the array that the
model keeps, is the model's choice (log entry 6). R100: the page of a block of at most 120 readings has the fields of section 11.5 at their offsets,
a number kept to its field's width (of a coordinate above 48 bits that is the model's choice, log entry 59), unused entries 0xFF, and the CRC-32 of
bytes 0 to 511 behind them, which is 0xCBF43926 over the digits 1 to 9; read back as stored for its index entry it is good (R115). R121: with CLEAR
ALL DATA waiting, a good PROGRAM is stored but enters no index entry, a failed one counts its block lost only at its second failure, and the clear
then applies: block sequence 1, queue, index, requests, open blocks and marks gone, the groups that are neither BAD nor FAILING FULL, the write
point at page 0 of the first such. That capture and archive do so in this one step, and that the ring walk makes FAILING groups before it BAD, are
the model's readings (log entries 38, 45). -/
def Obligations.ProgramStoresPage : Prop :=
  (∀ b : Block, b.entries.length ≤ 120 →
    let p := b.bytes
    p.length = 516 ∧ field p 0 1 = b.slot.1 ∧ field p 1 4 = b.dseq % 4294967296 ∧ field p 5 1 = b.line % 256 ∧
    field p 6 1 = (match b.side with | .feed => 0 | .delivery => 1) ∧
    field p 7 1 = (match b.lane with | .whole => 255 | .num n => n % 256) ∧ field p 8 6 = b.bseq % 281474976710656 ∧
    field p 14 6 = b.first % 281474976710656 ∧ field p 20 6 = b.last % 281474976710656 ∧ field p 26 4 = 0 ∧
    field p 30 1 = b.entries.length ∧ field p 31 1 = (if b.suspect then 1 else 0) ∧
    (∀ i e, b.entries[i]? = some e → field p (32 + 4 * i) 2 = e.1 % 65536 ∧ field p (34 + 4 * i) 2 = e.2.toNat) ∧
    (∀ j, 32 + 4 * b.entries.length ≤ j → j < 512 → p[j]? = some 0xFF#8) ∧ field p 512 4 = (crc32 (p.take 512)).toNat) ∧
  crc32 [0x31#8, 0x32#8, 0x33#8, 0x34#8, 0x35#8, 0x36#8, 0x37#8, 0x38#8, 0x39#8] = 0xCBF43926#32 ∧
  ∀ (s : State) (b : Block) (rest : List Block), s.archive.op = some .program → s.archive.queue = b :: rest →
    let k := s.archive
    let page := 64 * k.group + k.page
    let base := 516 * page
    let next := (k.group + 1) % 4096
    let usable : Prop := k.groupState next = .erased ∨ k.groupState next = .full
    let e : Entry := { page := page, bseq := b.bseq, dseq := b.dseq, first := b.first, last := b.last, suspect := b.suspect }
    let live : Prop := (s.capture.slots[b.slot]).defined = true ∧ (s.capture.slots[b.slot]).dseq = b.dseq
    (∃ t, exec (.program .good) s = .next t ∧ Touches [.flash, .capture, .archive, .slc] s t ∧
      (∀ a, a < base ∨ base + b.bytes.length ≤ a → flashRead t.flash a = flashRead s.flash a) ∧
      (∀ n, ∀ h : n < b.bytes.length, flashRead t.flash (base + n) = b.bytes[n]) ∧
      t.archive.cnt.stored = bump k.cnt.stored ∧
      (b.entries.length ≤ 120 → b.dseq < 4294967296 → b.line < 256 → (∀ n, b.lane = .num n → n < 256) → b.bseq < 281474976710656 →
        b.first < 281474976710656 → (∀ x ∈ b.entries, x.1 < 65536) →
        ∀ q : ReadReq, q.slot = b.slot → q.entry = e → q.line = b.line → q.side = b.side → q.lane = b.lane →
          verifyPage q (readPage t.flash page) = .good { page := page, bseq := b.bseq, dseq := b.dseq, first := b.first,
                                                         suspect := b.suspect, entries := b.entries }) ∧
      (k.clear = true →
        let usable (g : Nat) : Prop := g < 4096 ∧ (g = k.group ∨ k.groupState g ≠ .bad ∧ k.groupState g ≠ .failing)
        StoreCleared usable s t ∧ t.archive.marks = k.marks ∧
        t.archive.cnt = { k.cnt with stored := bump k.cnt.stored, unindexed := bump k.cnt.unindexed,
                                     dropped := bump k.cnt.dropped rest.length, retired := t.archive.cnt.retired } ∧
        (GroupsInv k → (∀ g < 4096, g = k.group ∨ k.groupState g ≠ .failing) →
          t.archive.exhausted = k.exhausted ∧ t.archive.cnt.retired = k.cnt.retired)) ∧
      (k.clear = false → k.page < 63 ∨ k.page = 63 ∧ usable →
        t.capture = s.capture ∧ t.archive.queue = rest ∧ t.archive.occupancy = k.occupancy - 1 ∧
        t.archive.cnt.unindexed = (if (s.capture.slots[b.slot]).defined = true ∧ (s.capture.slots[b.slot]).dseq = b.dseq
          then k.cnt.unindexed else bump k.cnt.unindexed) ∧
        (k.page < 63 → t.archive.page = k.page + 1 ∧ t.archive.group = k.group ∧ t.archive.groupState k.group = .filling) ∧
        (k.page = 63 → t.archive.page = 0 ∧ t.archive.group = next ∧ t.archive.groupState k.group = .full) ∧
        (live → e ∈ t.archive.index[b.slot]) ∧
        (∀ (i : Fin 64) (x : Entry), x ∈ t.archive.index[i] → x ∈ k.index[i] ∨ i = b.slot ∧ live ∧ x = e) ∧
        (k.page < 55 →
          (live → t.archive.index[b.slot] = k.index[b.slot] ++ [e]) ∧ (¬live → t.archive.index[b.slot] = k.index[b.slot]) ∧
          ∀ i : Fin 64, i ≠ b.slot → t.archive.index[i] = k.index[i]))) ∧
    ∃ t, exec (.program .failed) s = .next t ∧ Touches [.capture, .archive, .slc] s t ∧
      t.archive.cnt.programFailures = bump k.cnt.programFailures ∧
      (k.headFailed = true → t.archive.cnt.lost = bump k.cnt.lost) ∧ (k.headFailed = false → t.archive.cnt.lost = k.cnt.lost) ∧
      (k.clear = true →
        let usable (g : Nat) : Prop := g < 4096 ∧ g ≠ k.group ∧ k.groupState g ≠ .bad ∧ k.groupState g ≠ .failing
        StoreCleared usable s t ∧ t.archive.marks = k.marks ∧
        t.archive.cnt = { k.cnt with programFailures := bump k.cnt.programFailures, lost := t.archive.cnt.lost,
                                     dropped := bump k.cnt.dropped (if k.headFailed then rest.length else k.queue.length),
                                     retired := t.archive.cnt.retired }) ∧
      (k.clear = false → usable →
        t.capture = s.capture ∧ t.archive.group = next ∧ t.archive.page = 0 ∧ t.archive.groupState k.group = .failing ∧
        (k.headFailed = false → k.exhausted = false →
          t.archive.queue = b :: rest ∧ t.archive.headFailed = true ∧ t.archive.occupancy = k.occupancy) ∧
        (k.headFailed = true ∨ k.exhausted = true →
          t.archive.queue = rest ∧ t.archive.headFailed = false ∧ t.archive.occupancy = k.occupancy - 1) ∧
        (k.headFailed = false → k.exhausted = true → t.archive.cnt.dropped = bump k.cnt.dropped) ∧
        (∀ (i : Fin 64) (x : Entry), x ∈ t.archive.index[i] → x ∈ k.index[i]) ∧
        ∀ (i : Fin 64) (x : Entry), x ∈ k.index[i] → x.page / 64 ≠ next → x ∈ t.archive.index[i])

/-- R106: an ERASE that ends well has set every byte of the group's 64 pages to 0xFF and no other byte; the group is ERASED and no longer marked.
One that fails is counted, and the group is BAD; R105: when the write point stood there it moves to page 0 of the next group, when that is ERASED or
FULL, and else it stays; R109: with fewer than 64 usable groups left the archive is EXHAUSTED and its write queue is dropped, and with 64 or more,
the group table naming each group once, both stay as they were. That a failed ERASE changes no byte the model keeps, is the model's choice (log
entry 6). R110: with the flash idle and no clear waiting, a write step comes first with 12 blocks waiting, or after a READ, or with no request
waiting; else the oldest request of the next channel that has one; a write step is a PROGRAM when a page is ready, and else the ERASE of the FULL
group at the write point. R106: with nothing waiting, the next group is erased ahead when 8 or fewer pages are left. R121: with CLEAR ALL DATA
waiting, the ERASE ends as before and the clear then applies, as one step (log entry 38): queue, index, requests, open blocks and closed marks gone,
block sequence 1, the groups that are neither BAD nor FAILING FULL, the write point at page 0 of the first such, the FAILING groups its walk meets
BAD (log entry 45). The request is answered when table and trackers have done their part. -/
def Obligations.EraseEmptiesGroup : Prop :=
  (∀ (s : State) (g : Nat), s.archive.op = some (.erase g) → s.archive.clear = false →
    let k := s.archive
    let lo := 516 * (64 * g)
    let hi := 516 * (64 * (g + 1))
    let next := (g + 1) % 4096
    (∃ t, exec (.erase .good) s = .next t ∧ Touches [.flash, .archive, .slc] s t ∧
      (∀ a, lo ≤ a → a < hi → flashRead t.flash a = 0xFF#8) ∧ (∀ a, a < lo ∨ hi ≤ a → flashRead t.flash a = flashRead s.flash a) ∧
      t.archive.groupState g = .erased ∧ g ∉ t.archive.marks) ∧
    ∃ t, exec (.erase .failed) s = .next t ∧ Touches [.archive, .slc] s t ∧ t.archive.groupState g = .bad ∧ g ∉ t.archive.marks ∧
      t.archive.cnt.eraseFailures = bump k.cnt.eraseFailures ∧
      (k.group = g → k.groupState next = .erased ∨ k.groupState next = .full → t.archive.group = next ∧ t.archive.page = 0) ∧
      (k.group ≠ g → t.archive.group = k.group ∧ t.archive.page = k.page) ∧
      (k.exhausted = false → t.archive.usable < 64 → t.archive.exhausted = true ∧ t.archive.queue = [] ∧
        t.archive.cnt.dropped = bump k.cnt.dropped k.queue.length) ∧
      (GroupsInv k → 64 ≤ t.archive.usable → t.archive.exhausted = k.exhausted ∧ t.archive.queue = k.queue)) ∧
  (∀ (s : State) (g : Nat), s.archive.op = some (.erase g) → s.archive.clear = true →
    let k := s.archive
    let others (h : Nat) : Prop := h ≠ g ∧ k.groupState h ≠ .bad ∧ k.groupState h ≠ .failing
    let emptied (t : State) : Prop := t.archive.marks = k.marks.filter (· != g) ∧
      t.archive.cnt = { k.cnt with dropped := bump k.cnt.dropped k.queue.length, eraseFailures := t.archive.cnt.eraseFailures,
                                   retired := t.archive.cnt.retired }
    (∃ t, exec (.erase .good) s = .next t ∧ Touches [.flash, .capture, .archive, .slc] s t ∧
      StoreCleared (fun h => h < 4096 ∧ (h = g ∨ others h)) s t ∧ emptied t ∧ t.archive.cnt.eraseFailures = k.cnt.eraseFailures ∧
      ∀ a, flashRead t.flash a = if 516 * (64 * g) ≤ a ∧ a < 516 * (64 * (g + 1)) then 0xFF#8 else flashRead s.flash a) ∧
    ∃ t, exec (.erase .failed) s = .next t ∧ Touches [.capture, .archive, .slc] s t ∧
      StoreCleared (fun h => h < 4096 ∧ others h) s t ∧ emptied t ∧ t.archive.cnt.eraseFailures = bump k.cnt.eraseFailures ∧
      (GroupsInv k → g < 4096 → t.archive.groupState g = .bad) ∧
      (GroupsInv k → (∀ h, k.groupState h ≠ .failing) → t.archive.cnt.retired = k.cnt.retired ∧
        t.archive.exhausted = (k.exhausted || decide (t.archive.usable < 64)))) ∧
  ∀ k : Archive, k.op = none → k.clear = false →
    let c := k.choose.1
    let next := (k.group + 1) % 4096
    let writes : Prop := k.exhausted = false ∧ k.queue ≠ []
    let asks (ch : Fin 4) : Prop := ∃ q ∈ k.requests, q.ch = ch
    let erases (g : Nat) : Prop := c.op = some (.erase g) ∧ c.lastOp = some .erase ∧ g ∈ c.marks ∧ c.cnt.erases = bump k.cnt.erases ∧
      c.queue = k.queue ∧ c.group = k.group ∧ c.page = k.page ∧
      ∀ (i : Fin 64) (e : Entry), e ∈ c.index[i] ↔ e ∈ k.index[i] ∧ e.page / 64 ≠ g
    (writes → 12 ≤ k.queue.length ∨ k.lastOp = some .read ∨ k.requests = [] →
      (k.groupState k.group = .erased ∨ k.groupState k.group = .filling → c = { k with op := some .program, lastOp := some .program }) ∧
      (k.groupState k.group = .full → erases k.group)) ∧
    (¬writes ∨ k.queue.length < 12 ∧ k.lastOp ≠ some .read →
      ∀ ch : Fin 4, asks ch → (∀ j : Fin 4, j - k.lastChan - 1 < ch - k.lastChan - 1 → ¬asks j) →
        ∃ x q y, k.requests = x ++ q :: y ∧ q.ch = ch ∧ (∀ z ∈ x, z.ch ≠ ch) ∧
          c = { k with op := some (.read q true), lastOp := some .read, lastChan := ch, requests := x ++ y }) ∧
    (k.exhausted = false → k.queue = [] → k.requests = [] → k.groupState k.group = .filling → 56 ≤ k.page → k.groupState next = .full →
      erases next) ∧
    (k.exhausted = true → k.requests = [] → c = k)

/-- R115, R140, R141: the outcome of a READ by the tests in their order: a page all 0xFF is RETIRED, one whose CRC-32 fails is a READ FAULT, one
with another header is RETIRED, and any other is good; each is counted so. Of a HELD run the outcome no longer wanted changes nothing. A RETIRED one
gives the window of the span that asked the gap NO DATA, and a READ FAULT under the policy CONTINUE the gap READ FAULT, over the image of the
entry's coordinates; a good one adds no gap, and each reading of the block whose coordinate lies in the span's source goes into the accumulator of
its own bin and the span's trace, in the order of the block, every other accumulator kept. A RUNNING run keeps the gap through what it does next,
and the block of a good READ in its reuse cache, with at least the readings counted. Under CONTINUE the first fault position becomes the gap's
start, or stays where it was lower: that a position already set is lowered is the model's reading, R146 saying so and R140 setting it if absent (log
entry 64). R146: under the policy HALT a READ FAULT, none having halted the run before, gives the run the result HALTED and the gap's start as its
first fault position; that it does so over a result TARGET RETIRED too is the model's choice (log entry 57). R112, R138, R139: an index lookup gives
the first 8 entries of the definition that meet the range, by block sequence, and the continuation. The fetcher takes the oldest window it may, each
DATA span in turn, and each entry from the reuse cache or by a request, two at most in hand; a span with no entry is GAP NO DATA, one read out is
done when no outcome is awaited, and a window done is READY, window 0 with the run header (R160). The next lookup comes when the entries before it
are asked for: the model's choice (log entry 47). R121: a waiting CLEAR ALL DATA applies as one step behind the READ (log entries 38, 45). -/
def Obligations.ReadOutcomes : Prop :=
  (∀ (es : List Entry) (dseq after : Nat) (x : Ival),
    let hits := es.filter (fun e => decide (after < e.bseq ∧ e.dseq = dseq ∧ e.first < x.hi ∧ x.lo ≤ e.last))
    indexLookup es dseq x after = (hits.take 8, if hits.length ≤ 8 then none else (hits[7]?).map (·.bseq))) ∧
  (∀ (ch : Fin 4) (s : State) (r : Run) (p : Play), (s.channels[ch]).run = some r → r.body = .play p → p.halt = none →
    let becomes (q : Run) (p' : Play) (requests : List ReadReq) : Prop := ∃ t, s.fetchStep ch r p = some t ∧
      Touches [.archive, .channels] s t ∧ OtherChannels ch s t ∧ t.archive = { s.archive with requests := requests } ∧
      t.channels[ch] = { s.channels[ch] with run := some { q with body := .play p' } }
    let fetches (f : Fetch) : Prop := becomes r { p with fetch := some f } s.archive.requests
    let found (t : Trace) (src : Ival) (after : Nat) : List Entry × Option Nat :=
      if (s.capture.slots[t.slot]).dseq = t.dseq then indexLookup s.archive.index[t.slot] t.dseq src after else ([], none)
    let busy := (s.archive.requests.filter (fun q => q.ch == ch)).length +
      (match s.archive.op with | some (.read q _) => if q.ch = ch then 1 else 0 | _ => 0)
    let changed (no : Nat) (f : Window → Window) : List Window := p.wins.map (fun w => if w.no = no then f w else w)
    (p.fetch = none → (∀ w ∈ p.wins, w.stage ≠ .fetching) → s.fetchStep ch r p = none) ∧
    (∀ xs w ys, p.fetch = none → p.wins = xs ++ w :: ys → (∀ x ∈ xs, x.stage ≠ .fetching) → w.stage = .fetching →
      fetches { win := w.no, span := none, toRead := [], more := none, rest := w.plan.filter (fun x => match x.kind with
        | .data _ _ _ _ => true | .gap _ => false) }) ∧
    ∀ f, p.fetch = some f →
      (f.span = none → f.rest = [] → becomes
        (if f.win = 0 then { r with recs := r.recs ++ [runHeader ch r p s.profiles[p.profile]] } else r)
        { p with wins := changed f.win (fun w => { w with stage := .ready }), fetch := none } s.archive.requests) ∧
      (∀ x rest src chain an mark t, f.span = none → f.rest = x :: rest → x.kind = .data src chain an mark →
        p.traces[x.trace]? = some t →
        ((found t src 0).1 = [] → becomes r { p with
          wins := changed f.win (fun w => { w with plan := w.plan.map (fun y => if y.id = x.id then { y with kind := .gap .noData } else y) })
          fetch := some { f with rest := rest } } s.archive.requests) ∧
        ((found t src 0).1 ≠ [] →
          fetches { f with span := some x, toRead := (found t src 0).1, more := (found t src 0).2, rest := rest })) ∧
      ∀ x src chain an mark t, f.span = some x → x.kind = .data src chain an mark → p.traces[x.trace]? = some t →
        (∀ k, f.toRead = [] → f.more = some k → fetches { f with toRead := (found t src k).1, more := (found t src k).2 }) ∧
        (f.toRead = [] → f.more = none →
          ((∀ q ∈ s.archive.requests, q.ch ≠ ch) → (∀ q, s.archive.op = some (.read q true) → q.ch ≠ ch) →
            fetches { f with span := none, toRead := [], more := none }) ∧
          ((∃ q ∈ s.archive.requests, q.ch = ch) ∨ (∃ q, s.archive.op = some (.read q true) ∧ q.ch = ch) →
            s.fetchStep ch r p = none)) ∧
        ∀ e es, f.toRead = e :: es →
          let held (b : ReadBlock) : Prop := b.page = e.page ∧ b.bseq = e.bseq ∧ b.dseq = e.dseq
          (∀ b, p.cache = some b → held b →
            becomes r { p.binBlock r f.win x b with fetch := some { f with toRead := es } } s.archive.requests) ∧
          ((∀ b, p.cache = some b → ¬held b) →
            (2 ≤ busy → s.fetchStep ch r p = none) ∧
            (busy < 2 → becomes r { p with fetch := some { f with toRead := es } } (s.archive.requests ++
              [{ ch := ch, slot := t.slot, entry := e, line := t.line, side := t.side, lane := t.lane }])))) ∧
  ∀ (s : State) (q : ReadReq) (wanted : Bool) (back : ReadBack), s.archive.op = some (.read q wanted) →
    let p := match back with | .asStored => readPage s.flash q.entry.page | .bytes b => b
    let blank : Prop := ∀ b ∈ p, b = 0xFF#8
    let sound : Prop := (crc32 (p.take 512)).toNat = field p 512 4
    let ours : Prop := field p 0 1 = q.slot.1 ∧ field p 8 6 = q.entry.bseq ∧ field p 1 4 = q.entry.dseq ∧ field p 5 1 = q.line ∧
      field p 6 1 = q.side.code ∧ field p 7 1 = q.lane.code
    let k := s.archive.cnt
    ∃ t, exec (.read back) s = .next t ∧ Touches [.capture, .archive, .channels, .slc] s t ∧ OtherChannels q.ch s t ∧
      t.archive.cnt.reads = bump k.reads ∧
      (s.archive.clear = true → t.archive.marks = s.archive.marks ∧
        StoreCleared (fun g => g < 4096 ∧ s.archive.groupState g ≠ .bad ∧ s.archive.groupState g ≠ .failing) s t ∧
        t.archive.cnt = { k with reads := bump k.reads, readFaults := t.archive.cnt.readFaults,
                                 readsRetired := t.archive.cnt.readsRetired, dropped := bump k.dropped s.archive.queue.length,
                                 retired := t.archive.cnt.retired }) ∧
      (blank ∨ sound ∧ ¬ours → t.archive.cnt.readsRetired = bump k.readsRetired ∧ t.archive.cnt.readFaults = k.readFaults) ∧
      (¬blank → ¬sound → t.archive.cnt.readFaults = bump k.readFaults ∧ t.archive.cnt.readsRetired = k.readsRetired) ∧
      (¬blank → sound → ours → t.archive.cnt.readFaults = k.readFaults ∧ t.archive.cnt.readsRetired = k.readsRetired) ∧
      ((s.channels[q.ch]).state = .held → wanted = false → t.channels[q.ch] = s.channels[q.ch]) ∧
      ∀ run w f x src chain anc mark win, wanted = true → (s.channels[q.ch]).run = some run → run.body = .play w → w.fetch = some f →
        f.span = some x → x.kind = .data src chain anc mark → win ∈ w.wins → win.no = f.win →
        let held : Prop := (s.channels[q.ch]).state = .held
        let running : Prop := (s.channels[q.ch]).state = .running ∧ w.wins.Pairwise (fun a b => a.no ≠ b.no) ∧
          (∀ a ∈ w.wins, a.no < w.nextWin) ∧ ∀ a ∈ f.rest, a.id ≠ win.nextId
        let image := imageUp chain { lo := max src.lo q.entry.first, hi := min src.hi (q.entry.last + 1) }
        let after (ok : Run → Play → Window → Prop) : Prop := ∃ run' w', (t.channels[q.ch]).run = some run' ∧ run'.body = .play w' ∧
          ∃ win' ∈ w'.wins, win'.no = f.win ∧ ok run' w' win'
        let gap (reason : GapReason) : Prop := ∀ span, image = some span →
          let new : Span := { id := win.nextId, trace := x.trace, target := span, kind := .gap reason }
          (held → after (fun run' _ win' => run'.result = run.result ∧ win'.plan.Perm (new :: win.plan) ∧ win'.accs = win.accs)) ∧
          (running → after (fun _ _ win' => new ∈ win'.plan))
        let first := field p 14 6
        let entries := (List.range (field p 30 1)).map (fun i => (field p (32 + 4 * i) 2, BitVec.ofNat 16 (field p (34 + 4 * i) 2)))
        let binned (b : Nat) : Acc := (entries.zipIdx.filterMap (fun e =>
            let at_ := first + e.1.1
            if src.lo ≤ at_ ∧ at_ < src.hi ∧ (pointUp chain at_ - run.from_) / w.res = b then
              some { raw := e.1.2.toInt, pos := pointUp chain at_, bseq := q.entry.bseq, entry := e.2 } else none)).foldl
          (fun (a : Acc) (v : LastReading) => a.add v (field p 31 1 % 2 == 1 || mark)) (accAt win.accs (b, x.trace))
        (blank ∨ sound ∧ ¬ours → gap .noData) ∧
        (¬blank → ¬sound → (s.profiles[w.profile]).halt = false → gap .readFault ∧
          ∀ span, image = some span → held → ∃ run', (t.channels[q.ch]).run = some run' ∧
            run'.firstFault = some (match run.firstFault with | none => span.lo | some y => min y span.lo)) ∧
        (¬blank → ¬sound → (s.profiles[w.profile]).halt = true → w.halt = none → ∀ span, image = some span → held →
          ∃ run', (t.channels[q.ch]).run = some run' ∧ run'.result = some .halted ∧ run'.firstFault = some span.lo) ∧
        (¬blank → sound → ours →
          (held → after (fun run' _ win' => run'.result = run.result ∧ win'.plan = win.plan ∧
            (∀ b, accAt win'.accs (b, x.trace) = binned b) ∧ ∀ b n, n ≠ x.trace → accAt win'.accs (b, n) = accAt win.accs (b, n))) ∧
          (running → after (fun _ w' win' => w'.cache = some
              { page := q.entry.page, bseq := q.entry.bseq, dseq := q.entry.dseq, first := first, suspect := field p 31 1 % 2 == 1,
                entries := entries } ∧
            ∀ b, (binned b).count ≤ (accAt win'.accs (b, x.trace)).count)))

/-- R143, R163, R175: the emitter of a RUNNING channel places the frame it has closed in a free stream slot: kind 0xA0, the channel, the
run's tag, the frame number and the mark FIRST, MIDDLE, LAST or ONLY, then the records. The frame number goes up, and after the last frame the
channel is DRAINING with its result. A channel that is not RUNNING, has both slots taken, or has no closed frame, places none. A frame is closed
with at most 1,000 bytes of records and no more counted ones than a frame of the run may have; with nothing left to write and earlier frames
closed, with no records. R150, R151, R152: an accumulator of up to 65,535 readings holds their number, sum, extremes and last by position, block
and entry, and the mean is the sum over the number, rounded half away from zero. R153, R154, R155: a result is scaled, limited to the encoding
and held; without readings a trace but COUNT sends its held value within the hold limit, and else EMPTY. R142, R156, R157, R161, R162: the bin
of one trace writes its GAP record, which clears the hold, or its ORIGIN record when the ancestor changes, as the markers allow, and then its
value with its flags. That a COUNT trace with readings also stores a held value, which it never reads, is the model's choice (log entry 56). -/
def Obligations.StreamFramePlaced : Prop :=
  (∀ (ch : Fin 4) (s : State),
    ((s.channels[ch]).state ≠ .running ∨ 2 ≤ (s.slc.slots[ch]).length ∨ (∀ r, (s.channels[ch]).run = some r → r.closed = none) →
      exec (.streamFramePlaced ch) s = .next s) ∧
    ∀ r recs last, (s.channels[ch]).state = .running → (s.slc.slots[ch]).length < 2 →
      (∀ f, s.slc.unit ≠ .done f (some ch)) → (s.channels[ch]).run = some r → r.closed = some (recs, last) →
      let mark : Byte := if r.frameNo = 0 then (if last then 3#8 else 0#8) else (if last then 2#8 else 1#8)
      let f : Frame := { kind := 0xA0#8, channel := BitVec.ofNat 8 ch.1, tag := r.tag,
                         payload := beBytes 4 r.frameNo ++ [mark, 0#8] ++ recs.flatMap (·.bytes) }
      ∃ t, exec (.streamFramePlaced ch) s = .next t ∧ Touches [.archive, .channels, .slc] s t ∧ OtherChannels ch s t ∧
        (t.channels[ch]).staged = (s.channels[ch]).staged ∧ (t.channels[ch]).state = (if last then .draining else .running) ∧
        (s.slc.tx ≠ none → t.slc.slots[ch] = s.slc.slots[ch] ++ [{ frame := f, recs := (recs.filter (·.counted)).length }]) ∧
        ∃ q, (t.channels[ch]).run = some q ∧ q.kind = r.kind ∧ q.tag = r.tag ∧ q.target = r.target ∧ q.frameNo = r.frameNo + 1 ∧
          (last = true → q.result = some (r.result.getD .complete))) ∧
  (∀ (prof : Profile) (n : Nat) (r : Run), r.closed = none →
    (∀ recs last, (fillFrame prof n r).closed = some (recs, last) → (recs.map (·.bytes.length)).sum ≤ 1000 ∧
      (recs.filter (·.counted)).length ≤ max 1 (match r.body with | .play _ => prof.bins | .walk w => w.perFrame)) ∧
    (∀ p, r.body = .play p → p.endBin ≤ p.emitBin → r.recs = [] → 0 < r.frameNo →
      (fillFrame prof (n + 1) r).closed = some ([], true))) ∧
  (∀ xs : List (LastReading × Bool), xs.length ≤ 65535 →
    let a := xs.foldl (fun (a : Acc) x => a.add x.1 x.2) {}
    a.count = xs.length ∧ a.sum = (xs.map (·.1.raw)).sum ∧ a.overflow = false ∧ (a.suspect = true ↔ ∃ x ∈ xs, x.2 = true) ∧
    (xs ≠ [] →
      (∃ x ∈ xs, a.min = some x.1.raw ∧ ∀ y ∈ xs, x.1.raw ≤ y.1.raw) ∧ (∃ x ∈ xs, a.max = some x.1.raw ∧ ∀ y ∈ xs, y.1.raw ≤ x.1.raw) ∧
      (∃ x ∈ xs, a.last = some x.1 ∧ ∀ y ∈ xs, y.1.pos < x.1.pos ∨ y.1.pos = x.1.pos ∧
        (y.1.bseq < x.1.bseq ∨ y.1.bseq = x.1.bseq ∧ y.1.entry ≤ x.1.entry)) ∧
      ∃ m, reduce .mean a = some m ∧
        let d := (m * (xs.length : Int) - a.sum).natAbs
        2 * d ≤ xs.length ∧ (2 * d = xs.length → a.sum.natAbs ≤ (m * (xs.length : Int)).natAbs))) ∧
  (∀ (p : Profile) (red : Reduction) (a : Acc) (h : Held),
    let low : Int := match p.encoding with | .s16 => -32767 | .u8 => 0
    let high : Int := match p.encoding with | .s16 => 32767 | .u8 => 254
    let empty : Int := match p.encoding with | .s16 => -32768 | .u8 => 255
    let q := settleBin p red a h
    (∀ v, reduce red a = some v →
      let w := if red = .count then v else roundAway (v * p.gain) 256 + p.offset
      let excess : Bool := a.overflow && red != .last
      q.1.flag = .value ∧ q.1.suspect = a.suspect ∧
      (low ≤ w → w ≤ high → q.1.value = w ∧ q.1.saturated = excess) ∧ (w < low → q.1.value = low ∧ q.1.saturated = true) ∧
      (high < w → q.1.value = high ∧ q.1.saturated = true) ∧
      (a.count ≠ 0 → q.2 = { value := some (q.1.value, q.1.suspect, q.1.saturated), run := 0 }) ∧ (a.count = 0 → q.2 = h)) ∧
    (a.count = 0 → red ≠ .count →
      (∀ v su sa, h.value = some (v, su, sa) → h.run < p.hold →
        q = ({ value := v, flag := .held, suspect := su, saturated := sa }, { h with run := h.run + 1 })) ∧
      (h.value = none ∨ p.hold ≤ h.run → q = ({ value := empty, flag := .empty, suspect := false, saturated := false }, h)))) ∧
  ∀ (prof : Profile) (r : Run) (p : Play) (tr : Trace) (w : Window), p.traces = [tr] → p.emitBin < p.endBin →
    p.wins.find? (fun w => w.stage == .ready && decide (w.bin0 ≤ p.emitBin) && decide (p.emitBin < w.bin1)) = some w →
    let here := w.plan.filter (fun x => x.trace == 0 && decide ((x.target.lo - r.from_) / p.res = p.emitBin))
    let bin (h : Held) : Rec :=
      let v := (settleBin prof tr.reduction (accAt w.accs (p.emitBin, 0)) h).1
      let flags := BitVec.ofNat 8 ((match v.flag with | .value => 0 | .held => 1 | .empty => 2) + (if v.suspect then 4 else 0)
        + (if v.saturated then 8 else 0))
      { counted := true, bytes := match prof.encoding with
          | .s16 => [2#8, 9#8] ++ beBytes 4 p.emitBin ++ beInt 2 v.value ++ [flags]
          | .u8 => [2#8, 8#8] ++ beBytes 4 p.emitBin ++ beInt 1 v.value ++ [flags] }
    let old := p.held.getD 0 { value := none, run := 0 }
    let forms (marks : List Rec) (h : Held) (gaps : Vector Nat 9) : Prop := ∃ q p', formBin prof r p = some q ∧
      q.recs = r.recs ++ marks ++ [bin h] ∧ q.gaps = gaps ∧ q.body = .play p' ∧ p'.emitBin = p.emitBin + 1 ∧ p'.wins = p.wins
    (here = [] → forms [] old r.gaps) ∧
    (∀ x g, here = [x] → x.kind = .gap g → forms (if prof.markers = .none then [] else
        [{ counted := false, bytes := [3#8, 16#8, 0#8, byteOf g.code] ++ beBytes 6 x.target.lo ++ beBytes 6 x.target.hi }])
      { value := none, run := 0 } (updAt r.gaps (finOf 8 (g.code - 1)) (fun n => bump n))) ∧
    ∀ x src chain an mark, here = [x] → x.kind = .data src chain (some an) mark →
      (p.prior.getD 0 none = some an.coil → forms [] old r.gaps) ∧
      (p.prior.getD 0 none ≠ some an.coil → forms (if prof.markers = .all then
          [{ counted := false, bytes := [4#8, 31#8, 0#8, 0#8] ++ nameField (some an.name) ++ beBytes 2 an.coil.handle
            ++ beBytes 4 an.coil.seq ++ beBytes 4 an.pos }] else []) old r.gaps)

/-! ## Start-up -/

/-- R192, R193, R194, R198, R15: RESET asserted puts the part in STARTING with no start under way: line definitions, maps, exit records,
odometers, gauge definitions, index, write point, coil and link records, profiles, staged fields and notice settings stay; that the flash
array stays when a PROGRAM or ERASE is abandoned is the model's choice, since R193 leaves the flash to end it as it may (log entry 10); ports, bases, sequence numbers, open blocks, queues, runs, conditions and the link are lost. Of an operation in hand at the Genealogy Table only
removals of its AUTO-RETIRE may stand, as many as the command says at most, of eligible records alone; with none in hand, as while a RETIRE is being performed, or none removed, both
pools stay (log entry 12). RESET's release begins the start: a cold start after an INCOMPLETE one, else a resume; so does power, with a cold start
when retention was lost as well; power applied under a held RESET waits for the release (log entry 43). A cold start begins by clearing the
validity mark. That RESET asserted again, or released when not held, changes nothing, is the model's choice (log entry 8), and so is what the
tables read while retention is lost, until the cold start writes them (log entries 1 and 40). -/
def Obligations.ResetAndPowerBeginStart : Prop :=
  let lost (s t : State) : Prop := t.flash = s.flash ∧ t.profiles = s.profiles ∧ t.pending = s.pending ∧
    (∀ l : Fin 4,
      (let a := s.trackers[l]
       let b := t.trackers[l]
       b.defn = a.defn ∧ b.map = a.map ∧ b.exit = a.exit ∧ b.feed = a.feed ∧ b.delivery = a.delivery ∧ b.state = .undefined ∧
       b.silent = false ∧ b.timer = false ∧ b.feedBase = none ∧ b.deliveryBase = none ∧ b.pair = none ∧ b.lastSeq = none ∧
       b.work = none ∧ b.cnt = {}) ∧
      t.ports[l] = { rx := .off, cur := none, order := [], idleArmed := false, cuts := [], cnt := {} }) ∧
    (∀ i : Fin 64, t.capture.slots[i] = { s.capture.slots[i] with block := none, mark := none } ∧
      t.archive.index[i] = s.archive.index[i]) ∧
    t.archive.group = s.archive.group ∧ t.archive.page = s.archive.page ∧ t.archive.groups = s.archive.groups ∧
    t.archive.marks = s.archive.marks ∧ t.archive.nextBlock = s.archive.nextBlock ∧ t.archive.occupancy = s.archive.occupancy ∧
    t.archive.queue = [] ∧ t.archive.requests = [] ∧ t.archive.op = none ∧
    (∀ ch : Fin 4, t.channels[ch] = { state := .idle, staged := (s.channels[ch]).staged, run := none } ∧ t.slc.slots[ch] = []) ∧
    t.slc.settings = s.slc.settings ∧ t.slc.buffer = [] ∧ t.slc.unit = .free ∧ t.slc.replies = [] ∧ t.slc.notices = [] ∧
    t.slc.tx = none ∧ t.slc.cnt = {} ∧ t.slc.masked = 0 ∧ t.slc.dropped = 0 ∧
    (∀ l : Fin 4, t.slc.uncertain[l] = none ∧ t.slc.silent[l] = none) ∧ t.slc.exhausted = none ∧
    t.table.nextSeq = s.table.nextSeq ∧ t.table.session = none ∧ t.startUp.ready = false
  let begun (s : State) (gone : Bool) : Start :=
    if s.startUp.valid = false then .cold .incomplete else if gone then .cold .retentionLost else .resume
  (∀ (k : Nat) (s : State), s.startUp.held = false →
    ∃ t, exec (.resetAsserted k) s = .next t ∧ lost s t ∧
      t.startUp.held = true ∧ t.startUp.start = none ∧ t.startUp.valid = s.startUp.valid ∧
      (k = 0 ∨ (∃ f bound next, s.slc.unit = .table f (.retire bound next true)) ∨
          (∀ (l : Fin 4) (w : Work), (s.trackers[l]).work = some w → ∃ h, w.op = .hand h) ∧ (∀ f j, s.slc.unit ≠ .table f (.importing j)) →
        t.table.coils = s.table.coils ∧ t.table.links = s.table.links) ∧
      (∀ d ∈ t.table.coils, ∃ c ∈ s.table.coils, SameCoil c d) ∧ (∀ m ∈ t.table.links, m ∈ s.table.links) ∧
      (PoolInv s.table → s.table.coils.length ≤ t.table.coils.length + k ∧
        ∀ c ∈ s.table.coils, c.state = .entered ∨ (∃ l : Fin 4, ∃ x ∈ (s.trackers[l]).map, x.coil = some c.ref) →
          ∃ d ∈ t.table.coils, SameCoil c d)) ∧
  (∀ (k : Nat) (s : State), s.startUp.held = true → exec (.resetAsserted k) s = .next s) ∧
  (∀ (straps : Fin 4) (s : State), s.startUp.held = true →
    exec (.resetReleased straps) s = .next { s with startUp := { s.startUp with
      held := false
      lostAtPower := false
      straps := straps
      valid := s.startUp.valid && !s.startUp.lostAtPower
      start := some (begun s s.startUp.lostAtPower) } }) ∧
  (∀ (straps : Fin 4) (s : State), s.startUp.held = false → exec (.resetReleased straps) s = .next s) ∧
  ∀ (gone : Bool) (straps : Fin 4) (s : State), ∃ t, exec (.powerOn gone straps) s = .next t ∧ lost s t ∧
    t.table.coils = s.table.coils ∧ t.table.links = s.table.links ∧
    (s.startUp.held = false → t.startUp.held = false ∧ t.startUp.straps = straps ∧ t.startUp.valid = (s.startUp.valid && !gone) ∧
      t.startUp.start = some (begun s gone)) ∧
    (s.startUp.held = true → t.startUp.held = true ∧ t.startUp.start = none ∧ t.startUp.lostAtPower = gone ∧
      t.startUp.valid = s.startUp.valid ∧ t.startUp.straps = s.startUp.straps)

/-- R195, R196, R199, R121, R93: a cold start ends READY with its mark valid, every definition, record, odometer, counter of lines, capture and
archive, and staged field at its starting value, SILENT and its timer off, the write queue and its occupancy, the erase marks, read requests and
flash operation empty, the groups with a factory mark BAD and the others FULL, the write point at page 0 of the first usable group, or of group 0
when none is usable, EXHAUSTED when fewer than 64 are usable, and the flash array as it was. The START notice is raised with the usable groups,
those made BAD and EXHAUSTED, and 0 groups re-erased, pages passed and blocks dropped; when EXHAUSTED holds, its condition is entered and its notice
follows. What an undefined slot holds in the fields it does not use is the model's choice (log entry 5). -/
def Obligations.ColdStartGivesStartingValues : Prop :=
  ∀ (bad : List (Fin 4096)) (s : State) (cause : ColdCause), s.startUp.start = some (.cold cause) →
    let marked (g : Nat) : Prop := ∃ b ∈ bad, b.1 = g
    let left := (List.range 4096).countP (fun g => !bad.any (fun b => b.1 == g))
    let start := noticeFrame ([6#8, 1#8, 0#8, 0xFF#8] ++ beBytes 4 0
      ++ [0#8, (match cause with | .retentionLost => 0#8 | .incomplete => 1#8)] ++ beBytes 2 left ++ beBytes 2 (4096 - left)
      ++ beBytes 2 0 ++ [0#8, if left < 64 then 1#8 else 0#8] ++ beBytes 4 0)
    let worn : Notice := { cls := .archive, reason := 4, figure := some left }
    ∃ t, exec (.coldStart bad) s = .next t ∧ t.startUp.ready = true ∧ t.startUp.valid = true ∧ t.startUp.start = none ∧
      t.startUp.last = .cold ∧ t.flash = s.flash ∧
      (∀ l : Fin 4, t.ports[l] = { rx := .off, cur := none, order := [], idleArmed := false, cuts := [], cnt := {} } ∧
        t.trackers[l] =
          { defn := { enabled := false, address := 16 + l.1, rate := 0, parity := .none, pf := 0, pd := 0, lanes := 1, jump := 50000,
                      silence := 50 },
            state := .undefined, silent := false, timer := false, feed := 0, delivery := 0, feedBase := none, deliveryBase := none,
            pair := none, lastSeq := none, map := [], exit := { head := none, names := [], suspect := false }, cnt := {}, work := none,
            clear := false }) ∧
      t.capture.cnt = {} ∧
      (∀ i : Fin 64, t.capture.slots[i] = { defined := false, dseq := 0, line := 0, gauge := 0, side := .feed, offset := 0, lane := .whole,
                                            quantity := 0, unit := 0, idle := 0, block := none, mark := none }) ∧
      t.archive = { groups := t.archive.groups, group := t.archive.group, page := 0, exhausted := decide (left < 64), nextBlock := 1,
                    queue := [], headFailed := false, occupancy := 0, marks := [], op := none, lastOp := none, lastChan := 3,
                    index := Vector.replicate 64 [], requests := [], clear := false, cnt := {} } ∧
      (∀ g < 4096, (marked g → t.archive.groupState g = .bad) ∧ (¬marked g → t.archive.groupState g = .full)) ∧
      (∀ g < 4096, ¬marked g → (∀ k < g, marked k) → t.archive.group = g) ∧ ((∀ g < 4096, marked g) → t.archive.group = 0) ∧
      t.table = { coils := [], links := [], nextSeq := 1, session := none, lastTracker := 3, lastPlanner := 3 } ∧
      (∀ ch : Fin 4, t.channels[ch] = { state := .idle, run := none, staged :=
        { target := .none, from_ := 0, to_ := 8000000, resolution := 1000, traces := [], profile := 0, depth := 6 } }) ∧
      (∀ n : Fin 16, t.profiles[n] = { encoding := .s16, gain := 256, offset := 0, hold := 0, halt := false, bins := 32, markers := .all }) ∧
      t.slc.settings = { line := true, coil := true, genealogy := true, archive := true, capture := true, lineRepeat := false,
                         archiveRepeat := false } ∧
      (64 ≤ left → t.announced = s.announced ++ [start] ∧ t.slc.exhausted = s.slc.exhausted) ∧
      (left < 64 → t.slc.exhausted = some { notice := worn, repeats := 0, timer := false } ∧
        (s.slc.notices.length < 7 → t.announced = s.announced ++ [start, noticeFrame (noticeBytes worn none)]))

/-- R120, R197, R198, R199: a resume ends READY with table, profiles, staged fields and line definitions, maps, exit records and odometers as
retained, every enabled line WAITING with its silence timer running and its port settling. The page at the write point of an ERASED or FILLING group
is read; when it is not erased, the write point passes it, and else stays. A marked group is erased again: it is ERASED, or BAD when its erase
fails, is no longer marked, and the index has no entry in it. One whose re-erase had begun, counted among erases, is not begun again. The queue
occupancy is added to blocks dropped and to the START notice's count, and is 0. Each defined slot's closed mark is the last coordinate of the last
entry of its own definition in its index list, as the removals for the marked groups leave it (R113), and is absent without one; in a table with no
FAILING group the start removes no other entry. A resume that an interruption cuts after some of its updates leaves the part STARTING with the
resume still to end (log entry 12); one cut after the start of a re-erase, an ERASE counted like another (log entry 28), leaves the group its mark,
and the flash as it is. What the flash array holds is the model's, kept through the start (log entry 10). R199: the START notice joins the queue
first, with kind RESUME, no cause, the usable groups, those made BAD and erased again, the pages passed, EXHAUSTED and the blocks dropped; when
EXHAUSTED holds its condition is entered afresh, the repeat timer running under REPEAT, and its notice follows; with no FAILING group these figures
stand in the state after, and no other notice follows. -/
def Obligations.ResumeKeepsRetainedState : Prop :=
  ∀ (page : ReadBack) (failing : List (Fin 4096)) (s : State), s.startUp.start = some .resume →
    (∃ t, exec (.resume page failing none) s = .next t ∧
      Touches [.startUp, .ports, .trackers, .capture, .archive, .flash, .slc] s t ∧
      t.startUp.ready = true ∧ t.startUp.valid = true ∧ t.startUp.start = none ∧ t.startUp.last = .resume ∧
      (s.startUp.added = false → t.archive.occupancy = 0) ∧ (s.archive.marks = [] → t.flash = s.flash) ∧
      (s.startUp.added = false → s.archive.queue = [] → s.archive.cnt.dropped ≤ 4294967295 →
        t.startUp.lost = s.startUp.lost + s.archive.occupancy ∧
        t.archive.cnt.dropped = bump s.archive.cnt.dropped s.archive.occupancy) ∧
      (let k := s.archive
       let image := match page with | .asStored => readPage s.flash (64 * k.group + k.page) | .bytes b => b
       let passes : Prop := (k.groupState k.group = .erased ∨ k.groupState k.group = .filling) ∧ ∃ b ∈ image, b ≠ 0xFF#8
       let next := (k.group + 1) % 4096
       s.startUp.checked = false → k.marks = [] →
         (passes → k.page ≠ 63 → t.archive.page = k.page + 1 ∧ t.archive.group = k.group ∧ t.archive.groupState k.group = .filling) ∧
         (passes → k.page = 63 → k.groupState next = .erased ∨ k.groupState next = .full →
           t.archive.page = 0 ∧ t.archive.group = next ∧ t.archive.groupState k.group = .full) ∧
         (passes → t.startUp.passed = s.startUp.passed + 1) ∧
         (¬passes → t.archive.page = k.page ∧ t.archive.group = k.group ∧ t.startUp.passed = s.startUp.passed)) ∧
      (∀ g, s.startUp.checked = true → s.archive.marks = [g] →
        let fails : Prop := ∃ b ∈ failing, b.1 = g
        g ∉ t.archive.marks ∧
        (s.startUp.erasing ≠ some g → ∀ (i : Fin 64) (e : Entry), e ∈ t.archive.index[i] → e.page / 64 ≠ g) ∧
        t.startUp.reerased = s.startUp.reerased + 1 ∧
        (fails → t.archive.groupState g = .bad ∧ t.flash = s.flash ∧ t.startUp.madeBad = s.startUp.madeBad + 1) ∧
        (¬fails → t.archive.groupState g = .erased ∧ t.startUp.madeBad = s.startUp.madeBad ∧
          ∀ a, flashRead t.flash a = if 516 * (64 * g) ≤ a ∧ a < 516 * (64 * (g + 1)) then 0xFF#8 else flashRead s.flash a)) ∧
      (∃ (usable : Nat) (worn : Bool) (more : List Frame),
        let entering : Notice := { cls := .archive, reason := 4, figure := some usable }
        t.announced = s.announced ++ noticeFrame ([6#8, 1#8, 0#8, 0xFF#8] ++ beBytes 4 0 ++ [1#8, 0xFF#8] ++ beBytes 2 usable
          ++ beBytes 2 t.startUp.madeBad ++ beBytes 2 t.startUp.reerased ++ [BitVec.ofNat 8 t.startUp.passed, if worn then 1#8 else 0#8]
          ++ beBytes 4 t.startUp.lost) :: more ∧
        (worn = true → s.slc.notices.length < 7 → s.slc.settings.archive = true → noticeFrame (noticeBytes entering none) ∈ more) ∧
        ((∀ g, s.archive.groupState g ≠ .failing) → usable = t.archive.usable ∧ worn = t.archive.exhausted ∧
          (worn = false → more = [] ∧ t.slc.exhausted = s.slc.exhausted ∧ t.slc.masked = s.slc.masked) ∧
          (worn = true → t.slc.exhausted = some { notice := entering, repeats := 0, timer := s.slc.settings.archiveRepeat } ∧
            (s.slc.settings.archive = false → more = [] ∧ t.slc.masked = bump s.slc.masked) ∧
            (s.slc.settings.archive = true → s.slc.notices.length < 7 →
              more = [noticeFrame (noticeBytes entering none)] ∧ t.slc.masked = s.slc.masked)))) ∧
      (∀ l : Fin 4,
        (let a := s.trackers[l]
         let b := t.trackers[l]
         (a.defn.enabled = true → b = { a with state := .waiting, timer := true } ∧ (t.ports[l]).rx = .settling) ∧
         (a.defn.enabled = false → b = a ∧ t.ports[l] = s.ports[l]))) ∧
      ∀ i : Fin 64, (t.capture.slots[i]).dseq = (s.capture.slots[i]).dseq ∧
        (t.capture.slots[i]).defined = (s.capture.slots[i]).defined ∧ (s.archive.index[i] = [] → (t.capture.slots[i]).mark = none) ∧
        ((∀ g, s.archive.groupState g ≠ .failing) →
          let left := (s.archive.index[i]).filter (fun e =>
            s.archive.marks.all (fun g => decide (s.startUp.erasing = some g) || e.page / 64 != g))
          t.capture.slots[i] = { s.capture.slots[i] with
            mark := if (s.capture.slots[i]).defined then
                ((left.filter (fun e => e.dseq == (s.capture.slots[i]).dseq)).getLast?).map (·.last)
              else none })) ∧
    (∀ k, ∃ t, exec (.resume page failing (some k)) s = .next t ∧
      Touches [.startUp, .archive, .flash, .slc] s t ∧ t.startUp.ready = s.startUp.ready ∧ t.startUp.start = s.startUp.start) ∧
    ∀ g gs, s.startUp.checked = true → s.archive.marks = g :: gs → g ∉ gs →
      ∃ t, exec (.resume page failing (some 1)) s = .next t ∧ (∀ h ∈ gs, h ∈ t.archive.marks) ∧
        (s.startUp.erasing ≠ some g → Touches [.startUp, .archive, .slc] s t ∧ g ∈ t.archive.marks ∧
          t.archive.cnt.erases = bump s.archive.cnt.erases ∧
          (∀ (i : Fin 64) (e : Entry), e ∈ t.archive.index[i] → e.page / 64 ≠ g) ∧ t.archive.groups = s.archive.groups ∧
          t.startUp.reerased = s.startUp.reerased ∧ t.startUp.madeBad = s.startUp.madeBad) ∧
        (s.startUp.erasing = some g → g ∉ t.archive.marks ∧ t.archive.cnt.erases = s.archive.cnt.erases ∧
          t.startUp.erasing = none ∧ t.startUp.reerased = s.startUp.reerased + 1)

/-! ## Laws and invariants -/

/-- R35, law L9: for every stage whose spans hold cells, the point map carries each parent cell into the child span, and the boundary map of
any child interval yields exactly the parent cells that the point map carries into that interval. -/
def Obligations.StageMapsKeepL9 : Prop :=
  ∀ (st : Stage) (x : Ival) (p : Nat), st.child.lo < st.child.hi → st.parent.lo < st.parent.hi →
    st.parent.lo ≤ p → p < st.parent.hi →
    (st.child.lo ≤ st.point p ∧ st.point p < st.child.hi) ∧
    (((st.boundary x).lo ≤ p ∧ p < (st.boundary x).hi) ↔ (x.lo ≤ st.point p ∧ st.point p < x.hi)) ∧
    ((st.boundary x).lo < (st.boundary x).hi → st.parent.lo ≤ (st.boundary x).lo ∧ (st.boundary x).hi ≤ st.parent.hi)

/-- Law L1 of R64: whatever the command, no odometer of a line decreases, but by a cold start and by CLEAR ALL DATA at the tracker. -/
def Obligations.OdometersNeverDecrease : Prop :=
  ∀ (c : Instr) (s t : State) (l : Fin 4), exec c s = .next t → (∀ bad, c ≠ .coldStart bad) → c ≠ .trackerClear l →
    (s.trackers[l]).feed ≤ (t.trackers[l]).feed ∧ (s.trackers[l]).delivery ≤ (t.trackers[l]).delivery

/-- Every step keeps the flash array in its canonical form: addresses rising, no byte listed that reads as erased.
The list and its form are the model's (log entry 6). Every step keeps the group table naming each group once, by rising number; that it is a
list of the groups that are not FULL is the model's form of it. -/
def Obligations.StepKeepsFlashInv : Prop :=
  (∀ s t : State, FlashInv s → step s = .next t → FlashInv t) ∧
  ∀ s t : State, GroupsInv s.archive → step s = .next t → GroupsInv t.archive

/-- Every step keeps the queues of the link within their places: 4 received frames, 8 replies, 8 notices, 2 stream frames a channel. -/
def Obligations.StepKeepsLinkInv : Prop := ∀ s t : State, LinkInv s → step s = .next t → LinkInv t

/-- Every step keeps the two pools of the Genealogy Table: each record in a slot of its own within the pool (section 1.3, R9), every handle
of a coil's link lists that of a link in the pool and listed once (R6), and law L8, no two indexed coil records share a name (R12). -/
def Obligations.StepKeepsPoolsAndNames : Prop :=
  ∀ s t : State, PoolInv s.table → NameInv s.table → step s = .next t → PoolInv t.table ∧ NameInv t.table

/-- The state after reset meets every invariant; both pools are empty, the flash array reads erased everywhere, and no command waits.
Where the run of the part begins is the model's choice (log entry 1), and so is the erased flash array, since the spec states no contents for a
page never erased since delivery (log entry 6). -/
def Obligations.ResetMeetsInvariants : Prop :=
  FlashInv State.reset ∧ GroupsInv State.reset.archive ∧ LinkInv State.reset ∧ PoolInv State.reset.table ∧ NameInv State.reset.table ∧
  State.reset.table.coils = [] ∧ State.reset.table.links = [] ∧ (∀ a, flashRead State.reset.flash a = 0xFF#8) ∧
  State.reset.startUp.ready = false ∧ State.reset.pending = []
end

