-- ==== Sys2Proof/Laws/Archive.lean ====
section
/-! SUPPORT. The group table of the archive: it names each group once under every operation on it, and the usable groups become fewer
only. -/

namespace Sys2Proof.Machine

theorem insertBy_mem {α : Type} {key : α → Nat} {x y : α} {l : List α} : y ∈ insertBy key x l ↔ y = x ∨ y ∈ l := by
  induction l with
  | nil => simp [insertBy]
  | cons z zs ih =>
    unfold insertBy
    split
    · simp
    · simp only [List.mem_cons, ih]
      tauto

/-- Inserting a key the list does not hold keeps the keys rising. -/
theorem insertBy_rising {α : Type} {key : α → Nat} {x : α} {l : List α} (h : l.Pairwise (fun p q => key p < key q))
    (hx : ∀ y ∈ l, key y ≠ key x) : (insertBy key x l).Pairwise (fun p q => key p < key q) := by
  induction l with
  | nil => simp [insertBy]
  | cons z zs ih =>
    obtain ⟨hz, hzs⟩ := List.pairwise_cons.mp h
    have hne : key z ≠ key x := hx z (.head _)
    unfold insertBy
    split
    · next hlt => exact List.pairwise_cons.mpr ⟨List.forall_mem_cons.mpr ⟨hlt, fun y hy => Nat.lt_trans hlt (hz y hy)⟩, h⟩
    · refine List.pairwise_cons.mpr ⟨fun y hy => ?_, ih hzs (fun y hy => hx y (.tail _ hy))⟩
      rcases insertBy_mem.mp hy with rfl | hy
      · omega
      · exact hz y hy

theorem insertBy_countP {α : Type} {key : α → Nat} {x : α} {p : α → Bool} (l : List α) :
    (insertBy key x l).countP p = l.countP p + (if p x then 1 else 0) := by
  induction l with
  | nil => simp [insertBy, List.countP_cons]
  | cons z zs ih =>
    unfold insertBy
    split
    · rw [List.countP_cons]
    · rw [List.countP_cons, List.countP_cons, ih]
      omega

/-- Setting the state of a group keeps the table. -/
theorem Archive.setGroup_groupsInv {a : Archive} (h : GroupsInv a) (g : Nat) (st : GroupState) : GroupsInv (a.setGroup g st) := by
  have hr : (a.groups.filter (fun p => p.1 != g)).Pairwise (fun p q => p.1 < q.1) := List.Pairwise.filter _ h
  unfold GroupsInv setGroup
  dsimp only
  split
  · exact hr
  · exact insertBy_rising hr (fun y hy => by simpa using (List.mem_filter.mp hy).2)

/-- Taking a group out of a table that names it once takes one entry out at most. -/
theorem Archive.countP_without {l : List (Nat × GroupState)} (h : l.Pairwise (fun p q => p.1 < q.1)) (g : Nat) (f : Nat × GroupState → Bool) :
    l.countP f ≤ (l.filter (fun p => p.1 != g)).countP f + 1 := by
  induction l with
  | nil => simp
  | cons z zs ih =>
    obtain ⟨hz, hzs⟩ := List.pairwise_cons.mp h
    by_cases hg : z.1 = g
    · have : zs.filter (fun p => p.1 != g) = zs := List.filter_eq_self.mpr (fun y hy => by have := hz y hy; simp; omega)
      rw [List.filter_cons_of_neg (by simp [hg]), this, List.countP_cons]
      split <;> omega
    · rw [List.filter_cons_of_pos (by simp [hg]), List.countP_cons, List.countP_cons]
      have := ih hzs
      omega

/-- A group that becomes BAD leaves no more groups usable than before. -/
theorem Archive.setGroup_bad_usable {a : Archive} (h : GroupsInv a) (g : Nat) : (a.setGroup g .bad).usable ≤ a.usable := by
  have h1 := countP_without h g (fun p => p.2 == .bad)
  have h2 := insertBy_countP (key := (·.1)) (x := (g, GroupState.bad)) (p := fun p => p.2 == GroupState.bad)
    (a.groups.filter (fun p => p.1 != g))
  simp only [usable, setGroup, ← List.countP_eq_length_filter, reduceCtorEq, if_false]
  simp at h2
  omega

/-- What a step on the group table may do to the archive: the table stays in form, no group becomes usable again, and EXHAUSTED is entered
only with fewer than 64 groups usable, the queue untouched otherwise. -/
def Worn (a b : Archive) : Prop :=
  GroupsInv b ∧ b.usable ≤ a.usable ∧ (b.exhausted = a.exhausted ∧ b.queue = a.queue ∨ b.exhausted = true ∧ b.usable < 64)

theorem Worn.refl {a : Archive} (h : GroupsInv a) : Worn a a := ⟨h, Nat.le_refl _, .inl ⟨rfl, rfl⟩⟩

theorem Worn.trans {a b c : Archive} (h : Worn a b) (k : Worn b c) : Worn a c := by
  obtain ⟨_, h2, h3⟩ := h
  obtain ⟨k1, k2, k3⟩ := k
  refine ⟨k1, Nat.le_trans k2 h2, ?_⟩
  rcases k3 with ⟨k3, k4⟩ | k3
  · rcases h3 with ⟨h3, h4⟩ | ⟨h3, h4⟩
    · exact .inl ⟨k3.trans h3, k4.trans h4⟩
    · exact .inr ⟨k3.trans h3, Nat.lt_of_le_of_lt k2 h4⟩
  · exact .inr k3

theorem Archive.testExhausted_worn {a : Archive} (h : GroupsInv a) : Worn a a.testExhausted.1 := by
  unfold testExhausted
  split
  · next hx => exact ⟨h, Nat.le_refl _, .inr ⟨rfl, of_decide_eq_true (Bool.and_eq_true_iff.mp hx).2⟩⟩
  · exact .refl h

theorem Archive.retireGroup_worn {a : Archive} (h : GroupsInv a) (g : Nat) : Worn a (a.retireGroup g).1 :=
  Worn.trans (b := { (a.setGroup g .bad).unindex g with cnt := _ }) ⟨setGroup_groupsInv h g .bad, setGroup_bad_usable h g, .inl ⟨rfl, rfl⟩⟩
    (testExhausted_worn (setGroup_groupsInv h g .bad))

/-- The ring walk (R105) wears the archive. -/
theorem Archive.ring_worn : ∀ (n : Nat) {a : Archive}, GroupsInv a → ∀ g : Nat, Worn a (ring n a g).1.1
  | 0, _, h, _ => .refl h
  | n + 1, a, h, g => by
    unfold ring
    split
    · exact .refl h
    · exact .refl h
    · exact (retireGroup_worn h g).trans (ring_worn n (retireGroup_worn h g).1 _)
    · exact ring_worn n h _

theorem Archive.place_worn {a : Archive} (h : GroupsInv a) (g : Nat) : Worn a (a.place g).1 := by
  unfold place
  dsimp only
  split
  · obtain ⟨h1, h2, h3⟩ := ring_worn groupCount h g
    exact ⟨h1, h2, h3⟩
  · exact ring_worn groupCount h g

end Sys2Proof.Machine
end

