-- ==== Sys2Proof/Laws/Emit.lean ====
section
/-! SUPPORT. The emitter's shared operation, once: what writing bins can do to a run. -/

namespace Sys2Proof.Machine

/-- Run `b` is run `a` after the emitter wrote some bins or none, and closed a frame or none. -/
def WroteBins (a b : Run) : Prop :=
  ∃ (recs : List Rec) (closed : Option (List Rec × Bool)) (gaps : Vector Nat 9) (body : RunBody),
    b = { a with recs := recs, closed := closed, gaps := gaps, body := body } ∧
    (body = a.body ∨ ∃ (p : Play) (n : Nat) (held : List Held) (prior : List (Option Ref)),
      a.body = .play p ∧ p.emitBin ≤ n ∧ body = .play { p with emitBin := n, held := held, prior := prior })

theorem WroteBins.same (a : Run) (recs : List Rec) (closed : Option (List Rec × Bool)) :
    WroteBins a { a with recs := recs, closed := closed } := ⟨_, _, _, _, rfl, .inl rfl⟩

theorem formBin_wroteBins {pr : Profile} {r r1 : Run} {p : Play} (hb : r.body = .play p) (h : formBin pr r p = some r1) :
    WroteBins r r1 := by
  unfold formBin at h
  split at h
  · cases h
  · split at h
    · cases h
    · cases h
      exact ⟨_, _, _, _, rfl, .inr ⟨p, _, _, _, hb, Nat.le_succ _, rfl⟩⟩

theorem WroteBins.trans {a b c : Run} (h : WroteBins a b) (k : WroteBins b c) : WroteBins a c := by
  obtain ⟨_, _, _, bb, rfl, hb⟩ := h
  obtain ⟨_, _, _, bc, rfl, hc⟩ := k
  refine ⟨_, _, _, _, rfl, ?_⟩
  obtain rfl | ⟨p, n, _, _, hp, hn, rfl⟩ := hb
  · exact hc
  · obtain rfl | ⟨q, m, _, _, hq, hm, rfl⟩ := hc
    · exact .inr ⟨p, n, _, _, hp, hn, rfl⟩
    · cases hq
      exact .inr ⟨p, m, _, _, hp, Nat.le_trans hn hm, rfl⟩

/-- The emitter changes of a run only the records waiting, the frame closed, the gap counts, and the bin, hold states and ancestors it goes
on from. -/
theorem fillFrame_wroteBins (pr : Profile) : ∀ (n : Nat) (r : Run), WroteBins r (fillFrame pr n r)
  | 0, r => .same r r.recs r.closed
  | n + 1, r => by
    unfold fillFrame
    split
    · exact .same r r.recs r.closed
    · split
      · exact .same r _ _
      · split
        · next r1 hr =>
          cases hb : r.body with
          | walk w => rw [hb] at hr; cases hr
          | play p => rw [hb] at hr; exact (formBin_wroteBins hb hr).trans (fillFrame_wroteBins pr n r1)
        · split
          · exact .same r _ _
          · exact .same r r.recs r.closed

/-- While a frame waits to be placed, the emitter writes nothing. -/
theorem fillFrame_closed (pr : Profile) (n : Nat) (r : Run) (h : r.closed.isSome = true) : fillFrame pr n r = r := by
  cases n with
  | zero => rfl
  | succ n => rw [fillFrame, if_pos h]

end Sys2Proof.Machine
end

