-- ==== Sys2Proof/Laws/Flash.lean ====
section
/-! SUPPORT. The flash array as memory: every operation keeps the canonical form, and reading after a write or an erase gives what was
written, the erased byte, or the old byte. -/

namespace Sys2Proof.Machine

/-- The two halves of the canonical form. -/
theorem Memory.wf_iff (m : List Host.Cell) :
    Memory.wf m = true ↔ m.Pairwise (fun c d => c.1 < d.1) ∧ ∀ c ∈ m, c.2 ≠ erasedByte := by
  simp [Memory.wf]

/-- Every cell of a run of bytes lies inside the run and is not the erased byte. -/
theorem cellsFrom_mem {a : Nat} {bs : List Byte} {c : Host.Cell} (h : c ∈ cellsFrom a bs) :
    a ≤ c.1 ∧ c.1 < a + bs.length ∧ c.2 ≠ erasedByte := by
  induction bs generalizing a with
  | nil => simp [cellsFrom] at h
  | cons b bs ih =>
    unfold cellsFrom at h
    split at h
    · have := ih h
      simp only [List.length_cons]
      exact ⟨by omega, by omega, this.2.2⟩
    · next hb =>
      rcases List.mem_cons.mp h with h | h
      · subst h
        exact ⟨Nat.le_refl _, by simp, hb⟩
      · have := ih h
        simp only [List.length_cons]
        exact ⟨by omega, by omega, this.2.2⟩

/-- The cells of a run of bytes rise. -/
theorem cellsFrom_rising (a : Nat) (bs : List Byte) : (cellsFrom a bs).Pairwise (fun c d => c.1 < d.1) := by
  induction bs generalizing a with
  | nil => simp [cellsFrom]
  | cons b bs ih =>
    unfold cellsFrom
    split
    · exact ih _
    · refine List.pairwise_cons.mpr ⟨?_, ih _⟩
      intro d hd
      have := (cellsFrom_mem hd).1
      show a < d.1
      omega

/-- Writing keeps the canonical form. -/
theorem flashWrite_wf {m : List Host.Cell} (h : Memory.wf m = true) (a : Nat) (bs : List Byte) :
    Memory.wf (flashWrite m a bs) = true := by
  rw [Memory.wf_iff] at h ⊢
  obtain ⟨hp, hn⟩ := h
  unfold flashWrite
  constructor
  · refine List.pairwise_append.mpr ⟨List.pairwise_append.mpr ⟨hp.filter _, cellsFrom_rising a bs, ?_⟩, hp.filter _, ?_⟩
    · intro c hc d hd
      have h1 : c.1 < a := by simpa using (List.mem_filter.mp hc).2
      have h2 := (cellsFrom_mem hd).1
      omega
    · intro c hc d hd
      have h2 : a + bs.length ≤ d.1 := by simpa using (List.mem_filter.mp hd).2
      rcases List.mem_append.mp hc with hc | hc
      · have h1 : c.1 < a := by simpa using (List.mem_filter.mp hc).2
        omega
      · have h1 := (cellsFrom_mem hc).2.1
        omega
  · intro c hc
    rcases List.mem_append.mp hc with hc | hc
    · rcases List.mem_append.mp hc with hc | hc
      · exact hn c (List.mem_filter.mp hc).1
      · exact (cellsFrom_mem hc).2.2
    · exact hn c (List.mem_filter.mp hc).1

/-- Erasing a range keeps the canonical form. -/
theorem flashErase_wf {m : List Host.Cell} (h : Memory.wf m = true) (a b : Nat) : Memory.wf (flashErase m a b) = true := by
  rw [Memory.wf_iff] at h ⊢
  exact ⟨h.1.filter _, fun c hc => h.2 c (List.mem_filter.mp hc).1⟩

/-- Erasing a group keeps the canonical form. -/
theorem eraseGroup_wf {m : List Host.Cell} (h : Memory.wf m = true) (g : Nat) : Memory.wf (eraseGroup m g) = true :=
  flashErase_wf h _ _

/-- The array at reset is in canonical form. -/
theorem reset_flash_wf : Memory.wf State.reset.flash = true := by decide

/-- What a byte reads as is settled by membership: a listed cell gives its byte. -/
theorem flashRead_of_mem {m : List Host.Cell} (h : m.Pairwise (fun c d => c.1 < d.1)) {c : Host.Cell} (hc : c ∈ m) :
    flashRead m c.1 = c.2 := by
  unfold flashRead
  induction m with
  | nil => cases hc
  | cons d m ih =>
    rcases List.mem_cons.mp hc with hc | hc
    · subst hc; simp
    · have hlt := (List.pairwise_cons.mp h).1 c hc
      have hne : (d.1 == c.1) = false := by simp; omega
      rw [List.find?_cons, hne]
      exact ih (List.pairwise_cons.mp h).2 hc

/-- An address no cell lists reads as erased. -/
theorem flashRead_of_not_mem {m : List Host.Cell} {a : Nat} (h : ∀ c ∈ m, c.1 ≠ a) : flashRead m a = erasedByte := by
  unfold flashRead
  rw [List.find?_eq_none.mpr]
  intro c hc
  simpa using h c hc

/-- A filter that keeps every cell of an address leaves its byte. -/
theorem flashRead_filter {m : List Host.Cell} {p : Host.Cell → Bool} {a : Nat} (h : ∀ c ∈ m, c.1 = a → p c = true) :
    flashRead (m.filter p) a = flashRead m a := by
  unfold flashRead
  congr 1
  induction m with
  | nil => rfl
  | cons d m ih =>
    have ih' := ih (fun c hc => h c (List.mem_cons_of_mem _ hc))
    by_cases hd : d.1 = a
    · have hp := h d (List.mem_cons_self ..) hd
      simp [hp, hd]
    · by_cases hp : p d = true
      · simp [hp, hd, ih']
      · simp [hp, hd, ih']

/-- Outside an erased range every byte reads as before. -/
theorem flashErase_outside (m : List Host.Cell) (a b x : Nat) (h : x < a ∨ b ≤ x) :
    flashRead (flashErase m a b) x = flashRead m x := by
  apply flashRead_filter
  intro c _ hc
  subst hc
  simpa using h

/-- Inside an erased range every byte reads as erased. -/
theorem flashErase_inside (m : List Host.Cell) (a b x : Nat) (h1 : a ≤ x) (h2 : x < b) :
    flashRead (flashErase m a b) x = erasedByte := by
  apply flashRead_of_not_mem
  intro c hc he
  subst he
  have := (List.mem_filter.mp hc).2
  simp at this
  omega

/-- A byte of two lists of cells end to end: the first list's when it lists the address, else the second's. -/
theorem flashRead_append (l₁ l₂ : List Host.Cell) (x : Nat) :
    flashRead (l₁ ++ l₂) x = if l₁.any (fun c => c.1 == x) then flashRead l₁ x else flashRead l₂ x := by
  unfold flashRead
  rw [List.find?_append]
  cases hf : l₁.find? (fun c => c.1 == x) with
  | some c =>
    have : l₁.any (fun c => c.1 == x) = true := by
      rw [List.any_eq_true]
      exact ⟨c, List.mem_of_find?_eq_some hf, by simpa using List.find?_some hf⟩
    simp [this]
  | none =>
    have : l₁.any (fun c => c.1 == x) = false := by
      rw [List.any_eq_false]
      exact fun c hc => List.find?_eq_none.mp hf c hc
    simp [this]

/-- A byte that is not the erased one is listed at its place. -/
theorem cellsFrom_listed {a : Nat} {bs : List Byte} {i : Nat} (hi : i < bs.length) (hb : bs[i] ≠ erasedByte) :
    (a + i, bs[i]) ∈ cellsFrom a bs := by
  induction bs generalizing a i with
  | nil => simp at hi
  | cons b bs ih =>
    unfold cellsFrom
    cases i with
    | zero => split <;> simp_all
    | succ i =>
      have h := ih (a := a + 1) (i := i) (by simpa using hi) (by simpa using hb)
      have e : a + 1 + i = a + (i + 1) := by omega
      rw [e] at h
      split
      · simpa using h
      · exact List.mem_cons_of_mem _ (by simpa using h)

/-- The cells of a run of bytes read as the bytes. -/
theorem flashRead_cellsFrom (a : Nat) (bs : List Byte) (i : Nat) (hi : i < bs.length) : flashRead (cellsFrom a bs) (a + i) = bs[i] := by
  by_cases hb : bs[i] = erasedByte
  · rw [hb]
    apply flashRead_of_not_mem
    intro c hc he
    induction bs generalizing a i with
    | nil => simp at hi
    | cons b bs ih =>
      unfold cellsFrom at hc
      cases i with
      | zero =>
        have hb : b = erasedByte := by simpa using hb
        rw [if_pos hb] at hc
        have := (cellsFrom_mem hc).1
        omega
      | succ i =>
        have hb : bs[i]'(by simpa using hi) = erasedByte := by simpa using hb
        have step : c ∈ cellsFrom (a + 1) bs → False := fun h => ih (a + 1) i (by simpa using hi) hb h (by omega)
        split at hc
        · exact step hc
        · rcases List.mem_cons.mp hc with h | h
          · subst h
            have : a = a + (i + 1) := he
            omega
          · exact step h
  · exact flashRead_of_mem (cellsFrom_rising a bs) (cellsFrom_listed hi hb)

/-- A byte written reads as written. -/
theorem flashWrite_inside (m : List Host.Cell) (a : Nat) (bs : List Byte) (i : Nat) (hi : i < bs.length) :
    flashRead (flashWrite m a bs) (a + i) = bs[i] := by
  unfold flashWrite
  have h1 : (m.filter (fun c => decide (c.1 < a))).any (fun c => c.1 == a + i) = false := by
    rw [List.any_eq_false]
    intro c hc he
    have := (List.mem_filter.mp hc).2
    simp at this he
    omega
  rw [List.append_assoc, flashRead_append, h1, flashRead_append]
  simp only [Bool.false_eq_true, if_false]
  split
  · exact flashRead_cellsFrom a bs i hi
  · next hn =>
    have e : bs[i] = erasedByte := Decidable.byContradiction fun hb =>
      hn (List.any_eq_true.mpr ⟨_, cellsFrom_listed hi hb, by simp⟩)
    rw [e]
    apply flashRead_of_not_mem
    intro c hc he
    have := (List.mem_filter.mp hc).2
    simp at this
    omega

/-- Outside the bytes written every byte reads as before. -/
theorem flashWrite_outside (m : List Host.Cell) (a : Nat) (bs : List Byte) (x : Nat) (h : x < a ∨ a + bs.length ≤ x) :
    flashRead (flashWrite m a bs) x = flashRead m x := by
  have key := fun l₁ l₂ : List Host.Cell => flashRead_append l₁ l₂ x
  unfold flashWrite
  rcases h with h | h
  · have e1 : flashRead (m.filter (fun c => decide (c.1 < a))) x = flashRead m x :=
      flashRead_filter (fun c _ hc => by subst hc; simpa using h)
    have n2 : flashRead (cellsFrom a bs ++ m.filter (fun c => decide (a + bs.length ≤ c.1))) x = erasedByte := by
      apply flashRead_of_not_mem
      intro c hc he
      subst he
      rcases List.mem_append.mp hc with hc | hc
      · have := (cellsFrom_mem hc).1; omega
      · have := (List.mem_filter.mp hc).2; simp at this; omega
    rw [List.append_assoc, key, e1, n2]
    split
    · rfl
    · next hn =>
      rw [← e1]
      symm
      apply flashRead_of_not_mem
      intro c hc he
      exact hn (List.any_eq_true.mpr ⟨c, hc, by simpa using he⟩)
  · have e3 : flashRead (m.filter (fun c => decide (a + bs.length ≤ c.1))) x = flashRead m x :=
      flashRead_filter (fun c _ hc => by subst hc; simpa using h)
    rw [key, e3]
    split
    · next hy =>
      exfalso
      obtain ⟨c, hc, he⟩ := List.any_eq_true.mp hy
      have he : c.1 = x := by simpa using he
      subst he
      rcases List.mem_append.mp hc with hc | hc
      · have := (List.mem_filter.mp hc).2; simp at this; omega
      · have := (cellsFrom_mem hc).2.1; omega
    · rfl

end Sys2Proof.Machine
end

