-- ==== Sys2Proof/Laws/State.lean ====
section
/-! SUPPORT. Reading a field after a named update of the state: the updated block is what the update says, every other block reads
as before. -/

namespace Sys2Proof

/-- An indexed update read at a place. -/
theorem updAt_getElem {α : Type} {n : Nat} (v : Vector α n) (i : Fin n) (f : α → α) (k : Nat) (hk : k < n) :
    (updAt v i f)[k] = if i.1 = k then f v[k] else v[k] := by
  unfold updAt
  by_cases h : i.1 = k
  · subst h; simp
  · simp [h]

/-- The entry an indexed update changes. -/
@[simp] theorem updAt_same {α : Type} {n : Nat} (v : Vector α n) (i : Fin n) (f : α → α) : (updAt v i f)[i.1] = f v[i.1] := by
  simp [updAt_getElem]

/-- An indexed update read at any entry. -/
theorem updAt_get {α : Type} {n : Nat} (v : Vector α n) (i j : Fin n) (f : α → α) :
    (updAt v i f)[j] = if i = j then f v[j] else v[j] := by
  simp [updAt_getElem, Fin.ext_iff]

/-- Every other entry is left as it was. -/
theorem updAt_other {α : Type} {n : Nat} (v : Vector α n) (i j : Fin n) (f : α → α) (h : i ≠ j) : (updAt v i f)[j] = v[j] := by
  rw [updAt_get, if_neg h]

end Sys2Proof

namespace Sys2Proof.Machine

variable (s : State)

@[simp] theorem State.updPort_startUp (l : Fin 4) (f : Port → Port) : (s.updPort l f).startUp = s.startUp := rfl
@[simp] theorem State.updPort_ports (l : Fin 4) (f : Port → Port) : (s.updPort l f).ports = updAt s.ports l f := rfl
@[simp] theorem State.updPort_trackers (l : Fin 4) (f : Port → Port) : (s.updPort l f).trackers = s.trackers := rfl
@[simp] theorem State.updPort_capture (l : Fin 4) (f : Port → Port) : (s.updPort l f).capture = s.capture := rfl
@[simp] theorem State.updPort_archive (l : Fin 4) (f : Port → Port) : (s.updPort l f).archive = s.archive := rfl
@[simp] theorem State.updPort_flash (l : Fin 4) (f : Port → Port) : (s.updPort l f).flash = s.flash := rfl
@[simp] theorem State.updPort_table (l : Fin 4) (f : Port → Port) : (s.updPort l f).table = s.table := rfl
@[simp] theorem State.updPort_channels (l : Fin 4) (f : Port → Port) : (s.updPort l f).channels = s.channels := rfl
@[simp] theorem State.updPort_profiles (l : Fin 4) (f : Port → Port) : (s.updPort l f).profiles = s.profiles := rfl
@[simp] theorem State.updPort_slc (l : Fin 4) (f : Port → Port) : (s.updPort l f).slc = s.slc := rfl
@[simp] theorem State.updPort_pending (l : Fin 4) (f : Port → Port) : (s.updPort l f).pending = s.pending := rfl

@[simp] theorem State.updTracker_startUp (l : Fin 4) (f : Tracker → Tracker) : (s.updTracker l f).startUp = s.startUp := rfl
@[simp] theorem State.updTracker_ports (l : Fin 4) (f : Tracker → Tracker) : (s.updTracker l f).ports = s.ports := rfl
@[simp] theorem State.updTracker_trackers (l : Fin 4) (f : Tracker → Tracker) : (s.updTracker l f).trackers = updAt s.trackers l f := rfl
@[simp] theorem State.updTracker_capture (l : Fin 4) (f : Tracker → Tracker) : (s.updTracker l f).capture = s.capture := rfl
@[simp] theorem State.updTracker_archive (l : Fin 4) (f : Tracker → Tracker) : (s.updTracker l f).archive = s.archive := rfl
@[simp] theorem State.updTracker_flash (l : Fin 4) (f : Tracker → Tracker) : (s.updTracker l f).flash = s.flash := rfl
@[simp] theorem State.updTracker_table (l : Fin 4) (f : Tracker → Tracker) : (s.updTracker l f).table = s.table := rfl
@[simp] theorem State.updTracker_channels (l : Fin 4) (f : Tracker → Tracker) : (s.updTracker l f).channels = s.channels := rfl
@[simp] theorem State.updTracker_profiles (l : Fin 4) (f : Tracker → Tracker) : (s.updTracker l f).profiles = s.profiles := rfl
@[simp] theorem State.updTracker_slc (l : Fin 4) (f : Tracker → Tracker) : (s.updTracker l f).slc = s.slc := rfl
@[simp] theorem State.updTracker_pending (l : Fin 4) (f : Tracker → Tracker) : (s.updTracker l f).pending = s.pending := rfl

@[simp] theorem State.updChannel_startUp (c : Fin 4) (f : Channel → Channel) : (s.updChannel c f).startUp = s.startUp := rfl
@[simp] theorem State.updChannel_ports (c : Fin 4) (f : Channel → Channel) : (s.updChannel c f).ports = s.ports := rfl
@[simp] theorem State.updChannel_trackers (c : Fin 4) (f : Channel → Channel) : (s.updChannel c f).trackers = s.trackers := rfl
@[simp] theorem State.updChannel_capture (c : Fin 4) (f : Channel → Channel) : (s.updChannel c f).capture = s.capture := rfl
@[simp] theorem State.updChannel_archive (c : Fin 4) (f : Channel → Channel) : (s.updChannel c f).archive = s.archive := rfl
@[simp] theorem State.updChannel_flash (c : Fin 4) (f : Channel → Channel) : (s.updChannel c f).flash = s.flash := rfl
@[simp] theorem State.updChannel_table (c : Fin 4) (f : Channel → Channel) : (s.updChannel c f).table = s.table := rfl
@[simp] theorem State.updChannel_channels (c : Fin 4) (f : Channel → Channel) : (s.updChannel c f).channels = updAt s.channels c f := rfl
@[simp] theorem State.updChannel_profiles (c : Fin 4) (f : Channel → Channel) : (s.updChannel c f).profiles = s.profiles := rfl
@[simp] theorem State.updChannel_slc (c : Fin 4) (f : Channel → Channel) : (s.updChannel c f).slc = s.slc := rfl
@[simp] theorem State.updChannel_pending (c : Fin 4) (f : Channel → Channel) : (s.updChannel c f).pending = s.pending := rfl

@[simp] theorem State.updSlc_startUp (f : Slc → Slc) : (s.updSlc f).startUp = s.startUp := rfl
@[simp] theorem State.updSlc_ports (f : Slc → Slc) : (s.updSlc f).ports = s.ports := rfl
@[simp] theorem State.updSlc_trackers (f : Slc → Slc) : (s.updSlc f).trackers = s.trackers := rfl
@[simp] theorem State.updSlc_capture (f : Slc → Slc) : (s.updSlc f).capture = s.capture := rfl
@[simp] theorem State.updSlc_archive (f : Slc → Slc) : (s.updSlc f).archive = s.archive := rfl
@[simp] theorem State.updSlc_flash (f : Slc → Slc) : (s.updSlc f).flash = s.flash := rfl
@[simp] theorem State.updSlc_table (f : Slc → Slc) : (s.updSlc f).table = s.table := rfl
@[simp] theorem State.updSlc_channels (f : Slc → Slc) : (s.updSlc f).channels = s.channels := rfl
@[simp] theorem State.updSlc_profiles (f : Slc → Slc) : (s.updSlc f).profiles = s.profiles := rfl
@[simp] theorem State.updSlc_slc (f : Slc → Slc) : (s.updSlc f).slc = f s.slc := rfl
@[simp] theorem State.updSlc_pending (f : Slc → Slc) : (s.updSlc f).pending = s.pending := rfl

@[simp] theorem State.updPortCnt_startUp (l : Fin 4) (f : PortCounters → PortCounters) : (s.updPortCnt l f).startUp = s.startUp := rfl
@[simp] theorem State.updPortCnt_ports (l : Fin 4) (f : PortCounters → PortCounters) : (s.updPortCnt l f).ports = updAt s.ports l (fun p => { p with cnt := f p.cnt }) := rfl
@[simp] theorem State.updPortCnt_trackers (l : Fin 4) (f : PortCounters → PortCounters) : (s.updPortCnt l f).trackers = s.trackers := rfl
@[simp] theorem State.updPortCnt_capture (l : Fin 4) (f : PortCounters → PortCounters) : (s.updPortCnt l f).capture = s.capture := rfl
@[simp] theorem State.updPortCnt_archive (l : Fin 4) (f : PortCounters → PortCounters) : (s.updPortCnt l f).archive = s.archive := rfl
@[simp] theorem State.updPortCnt_flash (l : Fin 4) (f : PortCounters → PortCounters) : (s.updPortCnt l f).flash = s.flash := rfl
@[simp] theorem State.updPortCnt_table (l : Fin 4) (f : PortCounters → PortCounters) : (s.updPortCnt l f).table = s.table := rfl
@[simp] theorem State.updPortCnt_channels (l : Fin 4) (f : PortCounters → PortCounters) : (s.updPortCnt l f).channels = s.channels := rfl
@[simp] theorem State.updPortCnt_profiles (l : Fin 4) (f : PortCounters → PortCounters) : (s.updPortCnt l f).profiles = s.profiles := rfl
@[simp] theorem State.updPortCnt_slc (l : Fin 4) (f : PortCounters → PortCounters) : (s.updPortCnt l f).slc = s.slc := rfl
@[simp] theorem State.updPortCnt_pending (l : Fin 4) (f : PortCounters → PortCounters) : (s.updPortCnt l f).pending = s.pending := rfl

@[simp] theorem State.updTrackCnt_startUp (l : Fin 4) (f : TrackCounters → TrackCounters) : (s.updTrackCnt l f).startUp = s.startUp := rfl
@[simp] theorem State.updTrackCnt_ports (l : Fin 4) (f : TrackCounters → TrackCounters) : (s.updTrackCnt l f).ports = s.ports := rfl
@[simp] theorem State.updTrackCnt_trackers (l : Fin 4) (f : TrackCounters → TrackCounters) : (s.updTrackCnt l f).trackers = updAt s.trackers l (fun t => { t with cnt := f t.cnt }) := rfl
@[simp] theorem State.updTrackCnt_capture (l : Fin 4) (f : TrackCounters → TrackCounters) : (s.updTrackCnt l f).capture = s.capture := rfl
@[simp] theorem State.updTrackCnt_archive (l : Fin 4) (f : TrackCounters → TrackCounters) : (s.updTrackCnt l f).archive = s.archive := rfl
@[simp] theorem State.updTrackCnt_flash (l : Fin 4) (f : TrackCounters → TrackCounters) : (s.updTrackCnt l f).flash = s.flash := rfl
@[simp] theorem State.updTrackCnt_table (l : Fin 4) (f : TrackCounters → TrackCounters) : (s.updTrackCnt l f).table = s.table := rfl
@[simp] theorem State.updTrackCnt_channels (l : Fin 4) (f : TrackCounters → TrackCounters) : (s.updTrackCnt l f).channels = s.channels := rfl
@[simp] theorem State.updTrackCnt_profiles (l : Fin 4) (f : TrackCounters → TrackCounters) : (s.updTrackCnt l f).profiles = s.profiles := rfl
@[simp] theorem State.updTrackCnt_slc (l : Fin 4) (f : TrackCounters → TrackCounters) : (s.updTrackCnt l f).slc = s.slc := rfl
@[simp] theorem State.updTrackCnt_pending (l : Fin 4) (f : TrackCounters → TrackCounters) : (s.updTrackCnt l f).pending = s.pending := rfl

@[simp] theorem State.updSlot_startUp (i : Fin 64) (f : Slot → Slot) : (s.updSlot i f).startUp = s.startUp := rfl
@[simp] theorem State.updSlot_ports (i : Fin 64) (f : Slot → Slot) : (s.updSlot i f).ports = s.ports := rfl
@[simp] theorem State.updSlot_trackers (i : Fin 64) (f : Slot → Slot) : (s.updSlot i f).trackers = s.trackers := rfl
@[simp] theorem State.updSlot_capture (i : Fin 64) (f : Slot → Slot) : (s.updSlot i f).capture = { s.capture with slots := updAt s.capture.slots i f } := rfl
@[simp] theorem State.updSlot_archive (i : Fin 64) (f : Slot → Slot) : (s.updSlot i f).archive = s.archive := rfl
@[simp] theorem State.updSlot_flash (i : Fin 64) (f : Slot → Slot) : (s.updSlot i f).flash = s.flash := rfl
@[simp] theorem State.updSlot_table (i : Fin 64) (f : Slot → Slot) : (s.updSlot i f).table = s.table := rfl
@[simp] theorem State.updSlot_channels (i : Fin 64) (f : Slot → Slot) : (s.updSlot i f).channels = s.channels := rfl
@[simp] theorem State.updSlot_profiles (i : Fin 64) (f : Slot → Slot) : (s.updSlot i f).profiles = s.profiles := rfl
@[simp] theorem State.updSlot_slc (i : Fin 64) (f : Slot → Slot) : (s.updSlot i f).slc = s.slc := rfl
@[simp] theorem State.updSlot_pending (i : Fin 64) (f : Slot → Slot) : (s.updSlot i f).pending = s.pending := rfl

@[simp] theorem State.updCaptureCnt_startUp (f : CaptureCounters → CaptureCounters) : (s.updCaptureCnt f).startUp = s.startUp := rfl
@[simp] theorem State.updCaptureCnt_ports (f : CaptureCounters → CaptureCounters) : (s.updCaptureCnt f).ports = s.ports := rfl
@[simp] theorem State.updCaptureCnt_trackers (f : CaptureCounters → CaptureCounters) : (s.updCaptureCnt f).trackers = s.trackers := rfl
@[simp] theorem State.updCaptureCnt_capture (f : CaptureCounters → CaptureCounters) : (s.updCaptureCnt f).capture = { s.capture with cnt := f s.capture.cnt } := rfl
@[simp] theorem State.updCaptureCnt_archive (f : CaptureCounters → CaptureCounters) : (s.updCaptureCnt f).archive = s.archive := rfl
@[simp] theorem State.updCaptureCnt_flash (f : CaptureCounters → CaptureCounters) : (s.updCaptureCnt f).flash = s.flash := rfl
@[simp] theorem State.updCaptureCnt_table (f : CaptureCounters → CaptureCounters) : (s.updCaptureCnt f).table = s.table := rfl
@[simp] theorem State.updCaptureCnt_channels (f : CaptureCounters → CaptureCounters) : (s.updCaptureCnt f).channels = s.channels := rfl
@[simp] theorem State.updCaptureCnt_profiles (f : CaptureCounters → CaptureCounters) : (s.updCaptureCnt f).profiles = s.profiles := rfl
@[simp] theorem State.updCaptureCnt_slc (f : CaptureCounters → CaptureCounters) : (s.updCaptureCnt f).slc = s.slc := rfl
@[simp] theorem State.updCaptureCnt_pending (f : CaptureCounters → CaptureCounters) : (s.updCaptureCnt f).pending = s.pending := rfl

@[simp] theorem State.updSeg_startUp (l : Fin 4) (i : Nat) (f : Segment → Segment) : (s.updSeg l i f).startUp = s.startUp := rfl
@[simp] theorem State.updSeg_ports (l : Fin 4) (i : Nat) (f : Segment → Segment) : (s.updSeg l i f).ports = s.ports := rfl
@[simp] theorem State.updSeg_trackers (l : Fin 4) (i : Nat) (f : Segment → Segment) : (s.updSeg l i f).trackers = updAt s.trackers l (fun t => { t with map := t.map.modify i f }) := rfl
@[simp] theorem State.updSeg_capture (l : Fin 4) (i : Nat) (f : Segment → Segment) : (s.updSeg l i f).capture = s.capture := rfl
@[simp] theorem State.updSeg_archive (l : Fin 4) (i : Nat) (f : Segment → Segment) : (s.updSeg l i f).archive = s.archive := rfl
@[simp] theorem State.updSeg_flash (l : Fin 4) (i : Nat) (f : Segment → Segment) : (s.updSeg l i f).flash = s.flash := rfl
@[simp] theorem State.updSeg_table (l : Fin 4) (i : Nat) (f : Segment → Segment) : (s.updSeg l i f).table = s.table := rfl
@[simp] theorem State.updSeg_channels (l : Fin 4) (i : Nat) (f : Segment → Segment) : (s.updSeg l i f).channels = s.channels := rfl
@[simp] theorem State.updSeg_profiles (l : Fin 4) (i : Nat) (f : Segment → Segment) : (s.updSeg l i f).profiles = s.profiles := rfl
@[simp] theorem State.updSeg_slc (l : Fin 4) (i : Nat) (f : Segment → Segment) : (s.updSeg l i f).slc = s.slc := rfl
@[simp] theorem State.updSeg_pending (l : Fin 4) (i : Nat) (f : Segment → Segment) : (s.updSeg l i f).pending = s.pending := rfl

@[simp] theorem State.updRun_startUp (c : Fin 4) (f : Run → Run) : (s.updRun c f).startUp = s.startUp := rfl
@[simp] theorem State.updRun_ports (c : Fin 4) (f : Run → Run) : (s.updRun c f).ports = s.ports := rfl
@[simp] theorem State.updRun_trackers (c : Fin 4) (f : Run → Run) : (s.updRun c f).trackers = s.trackers := rfl
@[simp] theorem State.updRun_capture (c : Fin 4) (f : Run → Run) : (s.updRun c f).capture = s.capture := rfl
@[simp] theorem State.updRun_archive (c : Fin 4) (f : Run → Run) : (s.updRun c f).archive = s.archive := rfl
@[simp] theorem State.updRun_flash (c : Fin 4) (f : Run → Run) : (s.updRun c f).flash = s.flash := rfl
@[simp] theorem State.updRun_table (c : Fin 4) (f : Run → Run) : (s.updRun c f).table = s.table := rfl
@[simp] theorem State.updRun_channels (c : Fin 4) (f : Run → Run) : (s.updRun c f).channels = updAt s.channels c (fun k => { k with run := k.run.map f }) := rfl
@[simp] theorem State.updRun_profiles (c : Fin 4) (f : Run → Run) : (s.updRun c f).profiles = s.profiles := rfl
@[simp] theorem State.updRun_slc (c : Fin 4) (f : Run → Run) : (s.updRun c f).slc = s.slc := rfl
@[simp] theorem State.updRun_pending (c : Fin 4) (f : Run → Run) : (s.updRun c f).pending = s.pending := rfl

end Sys2Proof.Machine
end

