-- ==== Sys2Proof/Laws/Frames.lean ====
section
/-! SUPPORT. What each shared operation can touch, once: if the blocks listed may change up to a state, they may change through the
operation too. Each lemma takes the operation's own blocks as premises; a chain of operations is a chain of these lemmas. -/

namespace Sys2Proof.Machine

namespace Touches

theorem refl (ps : List Part) (s : State) : Touches ps s s := by
  intro p _; cases p <;> rfl

theorem trans {ps : List Part} {s t u : State} (h : Touches ps s t) (k : Touches ps t u) : Touches ps s u := by
  intro p hp
  have a := h p hp
  have b := k p hp
  cases p <;> exact Eq.trans b a

theorem mono {ps qs : List Part} {s t : State} (h : Touches ps s t) (hs : ∀ p, ps.contains p = true → qs.contains p = true) :
    Touches qs s t := by
  intro p hp
  apply h p
  cases hc : ps.contains p with
  | false => rfl
  | true => rw [hs p hc] at hp; cases hp

variable {ps : List Part} {s t : State}

theorem startUp_eq (h : Touches ps s t) (hp : ps.contains .startUp = false := by decide) : t.startUp = s.startUp := h .startUp hp
theorem ports_eq (h : Touches ps s t) (hp : ps.contains .ports = false := by decide) : t.ports = s.ports := h .ports hp
theorem trackers_eq (h : Touches ps s t) (hp : ps.contains .trackers = false := by decide) : t.trackers = s.trackers := h .trackers hp
theorem capture_eq (h : Touches ps s t) (hp : ps.contains .capture = false := by decide) : t.capture = s.capture := h .capture hp
theorem archive_eq (h : Touches ps s t) (hp : ps.contains .archive = false := by decide) : t.archive = s.archive := h .archive hp
theorem flash_eq (h : Touches ps s t) (hp : ps.contains .flash = false := by decide) : t.flash = s.flash := h .flash hp
theorem table_eq (h : Touches ps s t) (hp : ps.contains .table = false := by decide) : t.table = s.table := h .table hp
theorem channels_eq (h : Touches ps s t) (hp : ps.contains .channels = false := by decide) : t.channels = s.channels := h .channels hp
theorem profiles_eq (h : Touches ps s t) (hp : ps.contains .profiles = false := by decide) : t.profiles = s.profiles := h .profiles hp
theorem slc_eq (h : Touches ps s t) (hp : ps.contains .slc = false := by decide) : t.slc = s.slc := h .slc hp
theorem pending_eq (h : Touches ps s t) (hp : ps.contains .pending = false := by decide) : t.pending = s.pending := h .pending hp

theorem set_startUp (h : Touches ps s t) {v} (hp : ps.contains .startUp = true) : Touches ps s { t with startUp := v } := by
  intro p hq; cases p <;> first | exact h _ hq | (rw [hp] at hq; cases hq)

theorem set_ports (h : Touches ps s t) {v} (hp : ps.contains .ports = true) : Touches ps s { t with ports := v } := by
  intro p hq; cases p <;> first | exact h _ hq | (rw [hp] at hq; cases hq)

theorem set_trackers (h : Touches ps s t) {v} (hp : ps.contains .trackers = true) : Touches ps s { t with trackers := v } := by
  intro p hq; cases p <;> first | exact h _ hq | (rw [hp] at hq; cases hq)

theorem set_capture (h : Touches ps s t) {v} (hp : ps.contains .capture = true) : Touches ps s { t with capture := v } := by
  intro p hq; cases p <;> first | exact h _ hq | (rw [hp] at hq; cases hq)

theorem set_archive (h : Touches ps s t) {v} (hp : ps.contains .archive = true) : Touches ps s { t with archive := v } := by
  intro p hq; cases p <;> first | exact h _ hq | (rw [hp] at hq; cases hq)

theorem set_flash (h : Touches ps s t) {v} (hp : ps.contains .flash = true) : Touches ps s { t with flash := v } := by
  intro p hq; cases p <;> first | exact h _ hq | (rw [hp] at hq; cases hq)

theorem set_table (h : Touches ps s t) {v} (hp : ps.contains .table = true) : Touches ps s { t with table := v } := by
  intro p hq; cases p <;> first | exact h _ hq | (rw [hp] at hq; cases hq)

theorem set_channels (h : Touches ps s t) {v} (hp : ps.contains .channels = true) : Touches ps s { t with channels := v } := by
  intro p hq; cases p <;> first | exact h _ hq | (rw [hp] at hq; cases hq)

theorem set_profiles (h : Touches ps s t) {v} (hp : ps.contains .profiles = true) : Touches ps s { t with profiles := v } := by
  intro p hq; cases p <;> first | exact h _ hq | (rw [hp] at hq; cases hq)

theorem set_slc (h : Touches ps s t) {v} (hp : ps.contains .slc = true) : Touches ps s { t with slc := v } := by
  intro p hq; cases p <;> first | exact h _ hq | (rw [hp] at hq; cases hq)

theorem set_pending (h : Touches ps s t) {v} (hp : ps.contains .pending = true) : Touches ps s { t with pending := v } := by
  intro p hq; cases p <;> first | exact h _ hq | (rw [hp] at hq; cases hq)

theorem updPort (h : Touches ps s t) {l f} (hp : ps.contains .ports = true) : Touches ps s (t.updPort l f) := h.set_ports hp

theorem updTracker (h : Touches ps s t) {l f} (hp : ps.contains .trackers = true) : Touches ps s (t.updTracker l f) := h.set_trackers hp

theorem updChannel (h : Touches ps s t) {c f} (hp : ps.contains .channels = true) : Touches ps s (t.updChannel c f) := h.set_channels hp

theorem updSlc (h : Touches ps s t) {f} (hp : ps.contains .slc = true) : Touches ps s (t.updSlc f) := h.set_slc hp

theorem updPortCnt (h : Touches ps s t) {l f} (hp : ps.contains .ports = true) : Touches ps s (t.updPortCnt l f) := h.set_ports hp

theorem updTrackCnt (h : Touches ps s t) {l f} (hp : ps.contains .trackers = true) : Touches ps s (t.updTrackCnt l f) := h.set_trackers hp

theorem updSlot (h : Touches ps s t) {i f} (hp : ps.contains .capture = true) : Touches ps s (t.updSlot i f) := h.set_capture hp

theorem updCaptureCnt (h : Touches ps s t) {f} (hp : ps.contains .capture = true) : Touches ps s (t.updCaptureCnt f) := h.set_capture hp

theorem updSeg (h : Touches ps s t) {l i f} (hp : ps.contains .trackers = true) : Touches ps s (t.updSeg l i f) := h.set_trackers hp

theorem updRun (h : Touches ps s t) {c f} (hp : ps.contains .channels = true) : Touches ps s (t.updRun c f) := h.set_channels hp

theorem updPlay (h : Touches ps s t) {c f} (hp : ps.contains .channels = true) : Touches ps s (t.updPlay c f) := h.updRun hp

/-! ## Link, notices and replies -/

theorem raise (h : Touches ps s t) {n} (hs : ps.contains .slc = true) : Touches ps s (t.raise n) := by
  unfold State.raise; split
  · exact h.updSlc hs
  · exact h

theorem raiseHeld (h : Touches ps s t) {k n} (hs : ps.contains .slc = true) : Touches ps s (t.raiseHeld k n) := by
  unfold State.raiseHeld; split
  · exact h.updSlc hs
  · exact h

theorem raiseAll (h : Touches ps s t) {ns} (hs : ps.contains .slc = true) : Touches ps s (State.raiseAll t ns) := by
  unfold State.raiseAll
  induction ns generalizing t with
  | nil => exact h
  | cons n ns ih => exact ih (h.raise hs)

theorem endCondition (h : Touches ps s t) {k} (hs : ps.contains .slc = true) : Touches ps s (t.endCondition k) := h.updSlc hs

theorem finish (h : Touches ps s t) {f o} (hs : ps.contains .slc = true) : Touches ps s (t.finish f o) := h.updSlc hs

theorem accept (h : Touches ps s t) {f} (hs : ps.contains .slc = true) : Touches ps s (t.accept f) := h.finish hs

theorem refuse (h : Touches ps s t) {f c} (hs : ps.contains .slc = true) : Touches ps s (t.refuse f c) := h.finish hs

theorem kick (h : Touches ps s t) (hs : ps.contains .slc = true) : Touches ps s t.kick := by
  unfold State.kick
  split
  · exact h
  · split
    · exact h.updSlc hs
    · split
      · exact h.updSlc hs
      · split
        · exact h
        · exact h.updSlc hs

/-! ## Archive and capture -/

theorem withArch (h : Touches ps s t) {r} (ha : ps.contains .archive = true) (hs : ps.contains .slc = true) :
    Touches ps s (t.withArch r) := (h.set_archive ha).raiseAll hs

theorem flashKick (h : Touches ps s t) (ha : ps.contains .archive = true) (hs : ps.contains .slc = true) :
    Touches ps s t.flashKick := h.withArch ha hs

theorem handBlock (h : Touches ps s t) {b} (ha : ps.contains .archive = true) (hc : ps.contains .capture = true)
    (hs : ps.contains .slc = true) : Touches ps s (t.handBlock b) := by
  unfold State.handBlock
  dsimp only
  split
  · exact h.set_archive ha
  · split
    · exact (h.set_capture hc).raise hs
    · exact h.set_archive ha

theorem closeSlot (h : Touches ps s t) {i} (ha : ps.contains .archive = true) (hc : ps.contains .capture = true)
    (hs : ps.contains .slc = true) : Touches ps s (t.closeSlot i) := by
  unfold State.closeSlot
  dsimp only
  split
  · exact h
  · split
    · exact ((h.updSlot hc).updCaptureCnt hc).set_archive ha
    · exact (((h.updSlot hc).updCaptureCnt hc).set_archive ha).handBlock ha hc hs

theorem closeSlots (h : Touches ps s t) {is} (ha : ps.contains .archive = true) (hc : ps.contains .capture = true)
    (hs : ps.contains .slc = true) : Touches ps s (t.closeSlots is) := by
  unfold State.closeSlots
  induction is generalizing t with
  | nil => exact h
  | cons i is ih => exact ih (h.closeSlot ha hc hs)

theorem takeReading (h : Touches ps s t) {i x raw b} (ha : ps.contains .archive = true) (hc : ps.contains .capture = true)
    (hs : ps.contains .slc = true) : Touches ps s (t.takeReading i x raw b) := by
  unfold State.takeReading
  dsimp only
  (repeat' split) <;>
    first
    | exact h.updCaptureCnt hc
    | exact (h.updCaptureCnt hc).updSlot hc
    | exact ((h.updCaptureCnt hc).closeSlot ha hc hs).updSlot hc
    | exact ((h.updCaptureCnt hc).updSlot hc).closeSlot ha hc hs

theorem handReading (h : Touches ps s t) {i d x raw b} (ha : ps.contains .archive = true) (hc : ps.contains .capture = true)
    (hs : ps.contains .slc = true) : Touches ps s (t.handReading i d x raw b) := by
  unfold State.handReading
  dsimp only
  split
  · exact h.updCaptureCnt hc
  · split
    · exact h.updCaptureCnt hc
    · exact h.takeReading ha hc hs

theorem handReadings (h : Touches ps s t) {i d b st x raws} (ha : ps.contains .archive = true) (hc : ps.contains .capture = true)
    (hs : ps.contains .slc = true) : Touches ps s (t.handReadings i d b st x raws) := by
  induction raws generalizing t x with
  | nil => exact h
  | cons r rs ih => exact ih (h.handReading ha hc hs)

theorem storeClear (h : Touches ps s t) (ha : ps.contains .archive = true) (hc : ps.contains .capture = true)
    (hs : ps.contains .slc = true) : Touches ps s t.storeClear := by
  unfold State.storeClear
  split
  · exact (h.set_capture hc).withArch ha hs
  · exact h

theorem clearAnswer (h : Touches ps s t) (hs : ps.contains .slc = true) : Touches ps s t.clearAnswer := by
  unfold State.clearAnswer
  split
  · split
    · exact h
    · exact h.accept hs
  · exact h

/-! ## Ports and trackers -/

theorem join (h : Touches ps s t) {l it} (hp : ps.contains .ports = true) (ht : ps.contains .trackers = true)
    (hs : ps.contains .slc = true) : Touches ps s (t.join l it) := by
  unfold State.join
  dsimp only
  split
  · exact (((h.updPort hp).updTracker ht).endCondition hs).raise hs
  · exact (h.updPort hp).updTracker ht

theorem addressChar (h : Touches ps s t) {l a} (hp : ps.contains .ports = true) : Touches ps s (t.addressChar l a) := by
  unfold State.addressChar
  dsimp only
  split
  · exact (h.updPort hp).updPort hp
  · exact (h.updPort hp).updPort hp

theorem classed (h : Touches ps s t) {l k d f} (hp : ps.contains .ports = true) : Touches ps s (t.classed l k d f) := by
  unfold State.classed
  split
  · exact h.updPort hp
  · split
    · exact h.addressChar hp
    · exact h.updPort hp
  · exact h.updPort hp

theorem endFrame (h : Touches ps s t) {l} (hp : ps.contains .ports = true) (ht : ps.contains .trackers = true)
    (hs : ps.contains .slc = true) : Touches ps s (t.endFrame l) := by
  unfold State.endFrame
  dsimp only
  split
  · exact h.updPort hp
  · split
    · exact h.updPort hp
    · split
      · exact (h.updPort hp).join hp ht hs
      · exact (h.updPort hp).updPortCnt hp

theorem discontinuity (h : Touches ps s t) {l c} (ht : ps.contains .trackers = true) (hs : ps.contains .slc = true) :
    Touches ps s (t.discontinuity l c) := by
  unfold State.discontinuity
  dsimp only
  split
  · exact (h.updTracker ht).raise hs
  · exact ((h.updTracker ht).updTrackCnt ht).raise hs

theorem discontinuityIf (h : Touches ps s t) {l c} (ht : ps.contains .trackers = true) (hs : ps.contains .slc = true) :
    Touches ps s (t.discontinuityIf l c) := by
  unfold State.discontinuityIf
  split
  · exact h.discontinuity ht hs
  · exact h

theorem gapFound (h : Touches ps s t) {l} (ht : ps.contains .trackers = true) (hs : ps.contains .slc = true) :
    Touches ps s (t.gapFound l) := by
  unfold State.gapFound
  split
  · exact (h.updTracker ht).raise hs
  · exact h.discontinuityIf ht hs

theorem seqCheck (h : Touches ps s t) {l q} (hp : ps.contains .ports = true) (ht : ps.contains .trackers = true)
    (hs : ps.contains .slc = true) : Touches ps s (t.seqCheck l q) := by
  unfold State.seqCheck
  dsimp only
  split
  · exact h.updTracker ht
  · split
    · exact h.updTracker ht
    · exact ((h.updTracker ht).updPortCnt hp).gapFound ht hs

theorem takeCount (h : Touches ps s t) {l sd c} (ht : ps.contains .trackers = true) (hs : ps.contains .slc = true) :
    Touches ps s (t.takeCount l sd c) := by
  unfold State.takeCount
  dsimp only
  split
  · exact ((h.updTracker ht).updTrackCnt ht).discontinuityIf ht hs
  · exact (h.updTracker ht).updTrackCnt ht
  · exact h.updTracker ht

theorem leaveWaiting (h : Touches ps s t) {l} (ht : ps.contains .trackers = true) (hs : ps.contains .slc = true) :
    Touches ps s (t.leaveWaiting l) := by
  unfold State.leaveWaiting
  dsimp only
  split
  · split
    · exact h.updTracker ht
    · exact h.discontinuity ht hs
  · exact h

theorem restore (h : Touches ps s t) {l} (ht : ps.contains .trackers = true) (hs : ps.contains .slc = true) :
    Touches ps s (t.restore l) := by
  unfold State.restore
  split
  · exact ((h.updTracker ht).endCondition hs).raise hs
  · exact h

theorem lineRestart (h : Touches ps s t) {l} (ht : ps.contains .trackers = true) (ha : ps.contains .archive = true)
    (hc : ps.contains .capture = true) (hs : ps.contains .slc = true) : Touches ps s (t.lineRestart l) :=
  ((h.updTracker ht).endCondition hs).closeSlots ha hc hs

theorem detach (h : Touches ps s t) {l i} (ht : ps.contains .trackers = true) : Touches ps s (t.detach l i) :=
  (h.updSeg ht).updTrackCnt ht

theorem task (h : Touches ps s t) {l k} (ht : ps.contains .trackers = true) (hs : ps.contains .slc = true) :
    Touches ps s (t.task l k).1 := by
  unfold State.task
  dsimp only
  split
  · exact h.updTracker ht
  · exact (h.updTracker ht).raise hs

theorem itemDone (h : Touches ps s t) {l b} (ht : ps.contains .trackers = true) (hs : ps.contains .slc = true) :
    Touches ps s (t.itemDone l b) := by
  unfold State.itemDone
  dsimp only
  split
  · exact h.updTracker ht
  · split
    · split
      · exact (h.updTracker ht).accept hs
      · exact h.updTracker ht
    · exact h.updTracker ht

theorem runTasks (h : Touches ps s t) {l b ks} (ht : ps.contains .trackers = true) (hs : ps.contains .slc = true) :
    Touches ps s (t.runTasks l b ks) := by
  induction ks generalizing t with
  | nil => exact h.itemDone ht hs
  | cons k ks ih =>
    unfold State.runTasks
    dsimp only
    split
    · exact ih (h.task ht hs)
    · exact (h.task ht hs).updTracker ht

theorem runItem (h : Touches ps s t) {l n b ks} (ht : ps.contains .trackers = true) (hs : ps.contains .slc = true) :
    Touches ps s (t.runItem l n b ks) := h.runTasks ht hs

theorem malformedHere (h : Touches ps s t) {l} (hp : ps.contains .ports = true) (ht : ps.contains .trackers = true)
    (hs : ps.contains .slc = true) : Touches ps s (t.malformedHere l) :=
  ((h.updPortCnt hp).discontinuityIf ht hs).runTasks ht hs

theorem entryItem (h : Touches ps s t) {l n c f o d m} (hp : ps.contains .ports = true) (ht : ps.contains .trackers = true)
    (hs : ps.contains .slc = true) : Touches ps s (t.entryItem l n c f o d m) := by
  unfold State.entryItem
  split
  · exact h.malformedHere hp ht hs
  · exact (((h.takeCount ht hs).leaveWaiting ht hs).restore ht hs).runItem ht hs

theorem tailItem (h : Touches ps s t) {l n c f} (hp : ps.contains .ports = true) (ht : ps.contains .trackers = true)
    (hs : ps.contains .slc = true) : Touches ps s (t.tailItem l n c f) := by
  unfold State.tailItem
  split
  · exact h.malformedHere hp ht hs
  · exact ((h.takeCount ht hs).leaveWaiting ht hs).runItem ht hs

theorem cutItem (h : Touches ps s t) {l n c f a m} (hp : ps.contains .ports = true) (ht : ps.contains .trackers = true)
    (hs : ps.contains .slc = true) : Touches ps s (t.cutItem l n c f a m) := by
  unfold State.cutItem
  split
  · exact h.malformedHere hp ht hs
  · exact ((h.takeCount ht hs).leaveWaiting ht hs).runItem ht hs

theorem handOn (h : Touches ps s t) {l g ks k} (ht : ps.contains .trackers = true) (ha : ps.contains .archive = true)
    (hc : ps.contains .capture = true) (hs : ps.contains .slc = true) : Touches ps s (t.handOn l g ks k) := by
  unfold State.handOn
  dsimp only
  split
  · exact (h.handReadings ha hc hs).runTasks ht hs
  · exact (h.handReadings ha hc hs).updTracker ht

theorem readingsItem (h : Touches ps s t) {l n i q f c d rs k} (ht : ps.contains .trackers = true) (ha : ps.contains .archive = true)
    (hc : ps.contains .capture = true) (hs : ps.contains .slc = true) : Touches ps s (t.readingsItem l n i q f c d rs k) :=
  ((h.takeCount ht hs).leaveWaiting ht hs).handOn ht ha hc hs

theorem reachArbiter (h : Touches ps s t) {l} (ht : ps.contains .trackers = true) : Touches ps s (t.reachArbiter l) := h.updTracker ht

theorem completed (h : Touches ps s t) {l} (hp : ps.contains .ports = true) : Touches ps s (t.completed l) := h.updPort hp

theorem refuseEvent (h : Touches ps s t) {l f c} (ht : ps.contains .trackers = true) (hs : ps.contains .slc = true) :
    Touches ps s (t.refuseEvent l f c) := ((h.discontinuityIf ht hs).updTracker ht).refuse hs

theorem served (h : Touches ps s t) {l g ns} (hg : ps.contains .table = true) (hs : ps.contains .slc = true) :
    Touches ps s (t.served l g ns) := (h.set_table hg).raiseAll hs

theorem resumeItem (h : Touches ps s t) {l w ks} (ht : ps.contains .trackers = true) (hs : ps.contains .slc = true) :
    Touches ps s (t.resumeItem l w ks) := ((h.updTracker ht).runTasks ht hs).updTracker ht

theorem takeItem (h : Touches ps s t) {l it u} (hu : t.takeItem l it = some u) (hp : ps.contains .ports = true)
    (ht : ps.contains .trackers = true) (hs : ps.contains .slc = true) : Touches ps s u := by
  unfold State.takeItem at hu
  dsimp only at hu
  by_cases h1 : (!t.between l || t.slc.unit.wants l || decide (t.trackers[l].state = LineState.undefined)) = true
  · rw [if_pos h1] at hu; cases hu
  · rw [if_neg h1] at hu
    cases ho : t.ports[l].order with
    | cons head rest =>
      rw [ho] at hu
      dsimp only at hu
      split at hu
      · cases hu; exact h.updPort hp
      · cases hu
    | nil =>
      rw [ho] at hu
      dsimp only at hu
      cases it <;> dsimp only at hu <;> split at hu <;>
        first
        | (cases hu; exact (h.join hp ht hs).updPort hp)
        | (cases hu; exact (h.updPort hp).updPort hp)
        | cases hu

/-! ## Link -/

theorem sent (h : Touches ps s t) {j} (hn : ps.contains .channels = true) (hs : ps.contains .slc = true) :
    Touches ps s (t.sent j) := by
  unfold State.sent
  dsimp only
  (repeat' split) <;>
    first
    | exact h.updSlc hs
    | exact (h.updSlc hs).updRun hn
    | exact (h.updSlc hs).updChannel hn

theorem takeRequest (h : Touches ps s t) {f u} (hu : t.takeRequest f = some u) (hs : ps.contains .slc = true) :
    Touches ps s u := by
  unfold State.takeRequest at hu
  split at hu
  · cases hu
  · split at hu
    · split at hu
      · cases hu; exact h.updSlc hs
      · cases hu
    · split at hu
      · cases hu; exact h.updSlc hs
      · cases hu

theorem withValue (h : Touches ps s t) {α : Type} {v : Option α} {f : Frame} {act : α → State}
    (hk : ∀ a, v = some a → Touches ps s (act a)) (hs : ps.contains .slc = true) :
    Touches ps s (Machine.withValue v f t act) := by
  cases v with
  | none => exact h.refuse hs
  | some a => exact hk a rfl

theorem zeroGroup (h : Touches ps s t) {g} (hp : ps.contains .ports = true) (ht : ps.contains .trackers = true)
    (hc : ps.contains .capture = true) (ha : ps.contains .archive = true) (hs : ps.contains .slc = true) :
    Touches ps s (t.zeroGroup g) := by
  unfold State.zeroGroup
  split
  · exact (h.updPort hp).updTracker ht
  · exact h.set_capture hc
  · exact h.set_archive ha
  · exact h.updSlc hs

theorem endRun (h : Touches ps s t) {ch} (hn : ps.contains .channels = true) (ha : ps.contains .archive = true) :
    Touches ps s (t.endRun ch) := (h.updChannel hn).set_archive ha

theorem endRuns (h : Touches ps s t) (hn : ps.contains .channels = true) (ha : ps.contains .archive = true)
    (hs : ps.contains .slc = true) : Touches ps s t.endRuns :=
  ((((h.endRun hn ha).endRun hn ha).endRun hn ha).endRun hn ha).updSlc hs

/-! ## Definitions, lines and the table -/

theorem defineGauge (h : Touches ps s t) {g} (ha : ps.contains .archive = true) (hc : ps.contains .capture = true)
    (hs : ps.contains .slc = true) : Touches ps s (t.defineGauge g) := by
  unfold State.defineGauge
  dsimp only
  split
  · exact ((h.closeSlot ha hc hs).set_archive ha).updSlot hc
  · exact (h.closeSlot ha hc hs).updSlot hc

theorem handLine (h : Touches ps s t) {f l j} (hs : ps.contains .slc = true) : Touches ps s (t.handLine f l j) := h.updSlc hs

theorem defineLine (h : Touches ps s t) {l d} (hp : ps.contains .ports = true) (ht : ps.contains .trackers = true)
    (ha : ps.contains .archive = true) (hc : ps.contains .capture = true) (hs : ps.contains .slc = true) :
    Touches ps s (t.defineLine l d) := by
  unfold State.defineLine
  dsimp only
  split
  · exact ((((h.updPort hp).updTracker ht).endCondition hs).endCondition hs).closeSlots ha hc hs
  · exact (h.updPort hp).updTracker ht

theorem resync (h : Touches ps s t) {f l} (ht : ps.contains .trackers = true) (hs : ps.contains .slc = true) :
    Touches ps s (t.resync f l) := by
  unfold State.resync
  split
  · exact (h.restore ht hs).accept hs
  · exact h.accept hs
  · exact h.refuse hs

theorem lineGo (h : Touches ps s t) {l} (hp : ps.contains .ports = true) (ht : ps.contains .trackers = true)
    (ha : ps.contains .archive = true) (hc : ps.contains .capture = true) (hs : ps.contains .slc = true) :
    Touches ps s (t.lineGo l) := by
  unfold State.lineGo
  (repeat' split) <;>
    first
    | exact h
    | exact ((h.defineLine hp ht ha hc hs).accept hs).flashKick ha hs
    | exact h.resync ht hs
    | exact (h.updSlc hs).runTasks ht hs

theorem present (h : Touches ps s t) {f j} (hs : ps.contains .slc = true) : Touches ps s (t.present f j) := h.updSlc hs

theorem lookupGo (h : Touches ps s t) (hs : ps.contains .slc = true) : Touches ps s t.lookupGo := by
  unfold State.lookupGo
  (repeat' split) <;>
    first
    | exact h
    | exact h.refuse hs
    | exact h.finish hs

theorem retireGo (h : Touches ps s t) {k} (hg : ps.contains .table = true) (hs : ps.contains .slc = true) :
    Touches ps s (State.retireGo k t) := by
  unfold State.retireGo
  (repeat' split) <;>
    first
    | exact h
    | exact (h.set_table hg).accept hs
    | exact (h.set_table hg).present hs

theorem importDone (h : Touches ps s t) {f j} (hg : ps.contains .table = true) (hs : ps.contains .slc = true) :
    Touches ps s (t.importDone f j) := by
  unfold State.importDone
  split
  · exact h.finish hs
  · exact (h.set_table hg).finish hs

theorem importGo (h : Touches ps s t) {f j} (hg : ps.contains .table = true) (hs : ps.contains .slc = true) :
    Touches ps s (t.importGo f j) := by
  unfold State.importGo
  split
  · exact h.present hs
  · exact h.importDone hg hs

theorem importItem (h : Touches ps s t) {f j r} (hg : ps.contains .table = true) (hs : ps.contains .slc = true) :
    Touches ps s (t.importItem f j r) := ((h.set_table hg).raiseAll hs).importGo hg hs

/-! ## Runs -/

theorem stage (h : Touches ps s t) {α : Type} {f : Frame} {v : Option α} {set : α → Staged → Staged}
    (hn : ps.contains .channels = true) (hs : ps.contains .slc = true) : Touches ps s (t.stage f v set) := by
  unfold State.stage
  split
  · exact h.refuse hs
  · exact h.withValue (fun a _ => (h.updChannel hn).accept hs) hs

theorem fault (h : Touches ps s t) {ch p w} (hn : ps.contains .channels = true) (ha : ps.contains .archive = true) :
    Touches ps s (t.fault ch p w) := by
  unfold State.fault
  dsimp only
  (repeat' split) <;>
    first
    | exact h
    | exact h.updRun hn
    | exact (h.updRun hn).set_archive ha

theorem onOutcome (h : Touches ps s t) {ch e o} (hn : ps.contains .channels = true) (ha : ps.contains .archive = true) :
    Touches ps s (t.onOutcome ch e o) := by
  unfold State.onOutcome
  (repeat' split) <;>
    first
    | exact h
    | exact h.updPlay hn
    | exact (h.updPlay hn).fault hn ha

theorem planDone (h : Touches ps s t) {ch w} (hn : ps.contains .channels = true) (ha : ps.contains .archive = true) :
    Touches ps s (t.planDone ch w) := by
  unfold State.planDone
  dsimp only
  split
  · exact h.updPlay hn
  · exact (h.updPlay hn).fault hn ha

theorem beginWindow (h : Touches ps s t) {ch r p u} (hu : t.beginWindow ch r p = some u) (hn : ps.contains .channels = true)
    (ha : ps.contains .archive = true) : Touches ps s u := by
  unfold State.beginWindow at hu
  split at hu
  · cases hu
  · dsimp only at hu
    split at hu
    · cases hu; exact (h.updPlay hn).planDone hn ha
    · cases hu; exact ((h.updPlay hn).updPlay hn).updRun hn

theorem ask (h : Touches ps s t) {ch f tr e es u} (hu : State.fetchStep.ask t ch f tr e es = some u)
    (hn : ps.contains .channels = true) (ha : ps.contains .archive = true) : Touches ps s u := by
  unfold State.fetchStep.ask at hu
  split at hu
  · cases hu
  · cases hu; exact (h.updPlay hn).set_archive ha

theorem spanRead (h : Touches ps s t) {ch f u} (hu : State.fetchStep.spanRead t ch f = some u) (hn : ps.contains .channels = true) :
    Touches ps s u := by
  unfold State.fetchStep.spanRead at hu
  split at hu
  · cases hu
  · cases hu; exact h.updPlay hn

theorem fetchStep (h : Touches ps s t) {ch r p u} (hu : t.fetchStep ch r p = some u) (hn : ps.contains .channels = true)
    (ha : ps.contains .archive = true) : Touches ps s u := by
  unfold State.fetchStep at hu
  dsimp only at hu
  (repeat' split at hu) <;>
    first
    | exact h.ask hu hn ha
    | exact h.spanRead hu hn
    | (injection hu with hu; subst hu; exact h.updPlay hn)
    | (injection hu with hu; subst hu; exact (h.updPlay hn).updRun hn)
    | cases hu

theorem playGo (h : Touches ps s t) {ch n} (hn : ps.contains .channels = true) (ha : ps.contains .archive = true) :
    Touches ps s (State.playGo ch n t) := by
  induction n generalizing t with
  | zero => exact h
  | succ n ih =>
    unfold State.playGo
    split
    · exact h
    · split
      · exact h
      · split
        · exact h
        · split
          · next hb => exact ih (h.beginWindow hb hn ha)
          · split
            · next hf => exact ih (h.fetchStep hf hn ha)
            · exact h

theorem targetRetired (h : Touches ps s t) {ch r p} (hn : ps.contains .channels = true) :
    Touches ps s (t.targetRetired ch r p) := h.updRun hn

theorem planOn (h : Touches ps s t) {ch r p a} (hn : ps.contains .channels = true) (ha : ps.contains .archive = true) :
    Touches ps s (t.planOn ch r p a) := by
  unfold State.planOn
  dsimp only
  (repeat' split) <;>
    first
    | exact h
    | exact h.targetRetired hn
    | exact h.planDone hn ha
    | exact (h.updPlay hn).updRun hn

theorem channelGo (h : Touches ps s t) {ch} (hn : ps.contains .channels = true) (ha : ps.contains .archive = true) :
    Touches ps s (t.channelGo ch) := by
  unfold State.channelGo
  (repeat' split) <;>
    first
    | exact h
    | exact (h.playGo hn ha).updRun hn
    | exact (h.updRun hn).updRun hn

theorem deliver (h : Touches ps s t) {ch a} (hn : ps.contains .channels = true) (ha : ps.contains .archive = true) :
    Touches ps s (t.deliver ch a) := by
  unfold State.deliver
  (repeat' split) <;>
    first
    | exact h
    | exact h.planOn hn ha
    | exact h.updRun hn

theorem placeFrame (h : Touches ps s t) {ch r rs b} (hn : ps.contains .channels = true) (hs : ps.contains .slc = true) :
    Touches ps s (t.placeFrame ch r rs b) := (h.updSlc hs).updChannel hn

theorem launch (h : Touches ps s t) {f r} (hn : ps.contains .channels = true) (ha : ps.contains .archive = true)
    (hs : ps.contains .slc = true) : Touches ps s (t.launch f r) :=
  (((h.updChannel hn).finish hs).channelGo hn ha).flashKick ha hs

theorem startPlayback (h : Touches ps s t) {f g c} (hn : ps.contains .channels = true) (ha : ps.contains .archive = true)
    (hs : ps.contains .slc = true) : Touches ps s (t.startPlayback f g c) := h.launch hn ha hs

theorem startWalk (h : Touches ps s t) {f u g c} (hn : ps.contains .channels = true) (ha : ps.contains .archive = true)
    (hs : ps.contains .slc = true) : Touches ps s (t.startWalk f u g c) := h.launch hn ha hs

theorem runGo (h : Touches ps s t) {start} (hk : ∀ f g c, Touches ps s (start t f g c)) (hs : ps.contains .slc = true) :
    Touches ps s (State.runGo start t) := by
  unfold State.runGo
  dsimp only
  (repeat' split) <;>
    first
    | exact h
    | exact h.refuse hs
    | exact hk _ _ _

theorem ownPlayback (h : Touches ps s t) {f} (hn : ps.contains .channels = true) (ha : ps.contains .archive = true)
    (hs : ps.contains .slc = true) : Touches ps s (t.ownPlayback f) := by
  unfold State.ownPlayback
  dsimp only
  (repeat' split) <;>
    first
    | exact h
    | exact h.refuse hs
    | exact h.startPlayback hn ha hs
    | exact h.present hs

theorem ownWalk (h : Touches ps s t) {f} (hs : ps.contains .slc = true) : Touches ps s (t.ownWalk f) := by
  unfold State.ownWalk
  dsimp only
  (repeat' split) <;>
    first
    | exact h
    | exact h.refuse hs
    | exact h.present hs

theorem withdrawReads (h : Touches ps s t) {ch} (hn : ps.contains .channels = true) (ha : ps.contains .archive = true) :
    Touches ps s (t.withdrawReads ch) := (h.updPlay hn).set_archive ha

theorem deliverKept (h : Touches ps s t) {ch} (hn : ps.contains .channels = true) (ha : ps.contains .archive = true) :
    Touches ps s (t.deliverKept ch) := by
  unfold State.deliverKept
  split
  · exact h
  · exact (h.updRun hn).deliver hn ha

/-! ## Start-up -/

theorem openLine (h : Touches ps s t) {l} (hp : ps.contains .ports = true) (ht : ps.contains .trackers = true) :
    Touches ps s (t.openLine l) := by
  unfold State.openLine
  split
  · exact (h.updPort hp).updTracker ht
  · exact h

theorem becomeReady (h : Touches ps s t) {k c n} (hu : ps.contains .startUp = true) (hp : ps.contains .ports = true)
    (ht : ps.contains .trackers = true) (ha : ps.contains .archive = true) (hs : ps.contains .slc = true) :
    Touches ps s (t.becomeReady k c n) := by
  unfold State.becomeReady
  have h1 := (h.set_startUp (v := { t.startUp with ready := true, start := none, valid := true, last := k }) hu).set_slc
    (v := { t.slc with notices := t.slc.notices ++ [noticeFrame (startPayload k c t.startUp t.archive n)] }) hs
  dsimp only
  split
  · exact (((((h1.raise hs).openLine hp ht).openLine hp ht).openLine hp ht).openLine hp ht).flashKick ha hs
  · exact ((((h1.openLine hp ht).openLine hp ht).openLine hp ht).openLine hp ht).flashKick ha hs

theorem resumeUpdate (h : Touches ps s t) {pg fl u} (hu : ps.contains .startUp = true) (ha : ps.contains .archive = true)
    (hf : ps.contains .flash = true) : Touches ps s (State.resumeUpdate pg fl t u) := by
  intro p hp
  cases u with
  | check =>
    unfold State.resumeUpdate State.checkPoint
    dsimp only
    cases p <;> (repeat' split) <;> first | exact h _ hp | (rw [hu] at hp; cases hp) | (rw [ha] at hp; cases hp)
  | again g | erased g =>
    cases p <;> first | exact h _ hp | (rw [hu] at hp; cases hp) | (rw [ha] at hp; cases hp) | (rw [hf] at hp; cases hp)
  | occupancy => cases p <;> first | exact h _ hp | (rw [hu] at hp; cases hp) | (rw [ha] at hp; cases hp)

theorem marksFromIndex (h : Touches ps s t) (hc : ps.contains .capture = true) : Touches ps s t.marksFromIndex := by
  unfold State.marksFromIndex
  generalize slotNumbers = is
  induction is generalizing t with
  | nil => exact h
  | cons i is ih => exact ih (h.updSlot hc)

end Touches

end Sys2Proof.Machine
end

