-- ==== Sys2Proof/Laws/Link.lean ====
section
/-! SUPPORT. The Service Link Controller's shared operations, once each: the scheduler's choice (R186), placing a reply (R180), raising
a notice (R183), and taking a request (R179). -/

namespace Sys2Proof.Machine

variable (s : State)

/-! ## The scheduler's choice -/

@[simp] theorem State.kick_startUp : s.kick.startUp = s.startUp := ((Touches.refl [.slc] s).kick rfl).startUp_eq
@[simp] theorem State.kick_ports : s.kick.ports = s.ports := ((Touches.refl [.slc] s).kick rfl).ports_eq
@[simp] theorem State.kick_trackers : s.kick.trackers = s.trackers := ((Touches.refl [.slc] s).kick rfl).trackers_eq
@[simp] theorem State.kick_capture : s.kick.capture = s.capture := ((Touches.refl [.slc] s).kick rfl).capture_eq
@[simp] theorem State.kick_archive : s.kick.archive = s.archive := ((Touches.refl [.slc] s).kick rfl).archive_eq
@[simp] theorem State.kick_flash : s.kick.flash = s.flash := ((Touches.refl [.slc] s).kick rfl).flash_eq
@[simp] theorem State.kick_table : s.kick.table = s.table := ((Touches.refl [.slc] s).kick rfl).table_eq
@[simp] theorem State.kick_channels : s.kick.channels = s.channels := ((Touches.refl [.slc] s).kick rfl).channels_eq
@[simp] theorem State.kick_profiles : s.kick.profiles = s.profiles := ((Touches.refl [.slc] s).kick rfl).profiles_eq
@[simp] theorem State.kick_pending : s.kick.pending = s.pending := ((Touches.refl [.slc] s).kick rfl).pending_eq

/-- Everything a choice can do: nothing, or one frame leaves its queue or slot for the transmitter, and with a channel's frame that
channel becomes the last served. -/
theorem State.kick_cases :
    s.kick = s ∨
    (s.slc.tx = none ∧ ∃ f rest, s.slc.replies = f :: rest ∧
      s.kick = s.updSlc (fun c => { c with replies := rest, tx := some (.reply f) })) ∨
    (s.slc.tx = none ∧ s.slc.replies = [] ∧ ∃ f rest, s.slc.notices = f :: rest ∧
      s.kick = s.updSlc (fun c => { c with notices := rest, tx := some (.notice f) })) ∨
    (s.slc.tx = none ∧ s.slc.replies = [] ∧ s.slc.notices = [] ∧ ∃ ch j, s.nextOffer = some (ch, j) ∧
      s.kick = s.updSlc (fun c => { c with slots := updAt c.slots ch (fun q => q.drop 1), lastChan := ch, tx := some j })) := by
  unfold State.kick
  split
  · exact .inl rfl
  · next h =>
    have ht : s.slc.tx = none := by
      cases hx : s.slc.tx with
      | none => rfl
      | some j => simp [hx] at h
    split
    · next f rest hr => exact .inr (.inl ⟨ht, f, rest, hr, rfl⟩)
    · next hr =>
      split
      · next f rest hn => exact .inr (.inr (.inl ⟨ht, hr, f, rest, hn, rfl⟩))
      · next hn =>
        split
        · exact .inl rfl
        · next ch j ho => exact .inr (.inr (.inr ⟨ht, hr, hn, ch, j, ho, rfl⟩))

/-- What a channel offers is a stream frame or its END REPORT. -/
theorem State.offer_kind {ch : Fin 4} {j : TxJob} (h : s.offer ch = some j) :
    (∃ c f n b, j = .stream c f n b) ∨ (∃ c f b, j = .endReport c f b) := by
  unfold State.offer at h
  dsimp only at h
  (repeat' split at h) <;> simp at h <;> subst h <;> simp

theorem State.nextOffer_kind {ch : Fin 4} {j : TxJob} (h : s.nextOffer = some (ch, j)) :
    (∃ c f n b, j = .stream c f n b) ∨ (∃ c f b, j = .endReport c f b) := by
  unfold State.nextOffer at h
  obtain ⟨a, _, ha⟩ := List.exists_of_findSome?_eq_some h
  cases ho : s.offer a with
  | none => simp [ho] at ha
  | some k =>
    simp only [ho, Option.map_some, Option.some.injEq, Prod.mk.injEq] at ha
    obtain ⟨_, rfl⟩ := ha
    exact s.offer_kind ho

/-- A choice leaves the replies placed and not finished as they are. -/
@[simp] theorem State.kick_outgoing : s.kick.outgoing = s.outgoing := by
  rcases s.kick_cases with h | ⟨ht, f, rest, hr, h⟩ | ⟨ht, hr, f, rest, hn, h⟩ | ⟨ht, hr, hn, ch, j, ho, h⟩
  · rw [h]
  · rw [h]; simp [State.outgoing, ht, hr]
  · rw [h]; simp [State.outgoing, ht, hr]
  · rw [h]
    rcases s.nextOffer_kind ho with ⟨_, _, _, _, rfl⟩ | ⟨_, _, _, rfl⟩ <;> simp [State.outgoing, ht, hr]

/-- A choice leaves the notices queued and not finished as they are. -/
@[simp] theorem State.kick_announced : s.kick.announced = s.announced := by
  rcases s.kick_cases with h | ⟨ht, f, rest, hr, h⟩ | ⟨ht, hr, f, rest, hn, h⟩ | ⟨ht, hr, hn, ch, j, ho, h⟩
  · rw [h]
  · rw [h]; simp [State.announced, ht]
  · rw [h]; simp [State.announced, ht, hn]
  · rw [h]
    rcases s.nextOffer_kind ho with ⟨_, _, _, _, rfl⟩ | ⟨_, _, _, rfl⟩ <;> simp [State.announced, ht, hn]

/-- What a choice never changes of the link: the receiver, the Request Unit, the settings, the counts and the condition instances. -/
theorem State.kick_slc : s.kick.slc =
    { s.slc with replies := s.kick.slc.replies, notices := s.kick.slc.notices, slots := s.kick.slc.slots, tx := s.kick.slc.tx,
                 lastChan := s.kick.slc.lastChan } := by
  rcases s.kick_cases with h | ⟨_, f, rest, _, h⟩ | ⟨_, _, f, rest, _, h⟩ | ⟨_, _, _, ch, j, _, h⟩ <;> rw [h] <;> rfl

@[simp] theorem State.kick_rx : s.kick.slc.rx = s.slc.rx := by rw [State.kick_slc]
@[simp] theorem State.kick_buffer : s.kick.slc.buffer = s.slc.buffer := by rw [State.kick_slc]
@[simp] theorem State.kick_unit : s.kick.slc.unit = s.slc.unit := by rw [State.kick_slc]
@[simp] theorem State.kick_settings : s.kick.slc.settings = s.slc.settings := by rw [State.kick_slc]
@[simp] theorem State.kick_masked : s.kick.slc.masked = s.slc.masked := by rw [State.kick_slc]
@[simp] theorem State.kick_dropped : s.kick.slc.dropped = s.slc.dropped := by rw [State.kick_slc]
@[simp] theorem State.kick_uncertain : s.kick.slc.uncertain = s.slc.uncertain := by rw [State.kick_slc]
@[simp] theorem State.kick_silent : s.kick.slc.silent = s.slc.silent := by rw [State.kick_slc]
@[simp] theorem State.kick_exhausted : s.kick.slc.exhausted = s.slc.exhausted := by rw [State.kick_slc]
@[simp] theorem State.kick_cnt : s.kick.slc.cnt = s.slc.cnt := by rw [State.kick_slc]

/-- A choice takes at most the oldest frame of a channel's slots. -/
theorem State.kick_slots (ch : Fin 4) :
    s.kick.slc.slots[ch] = s.slc.slots[ch] ∨ s.kick.slc.slots[ch] = (s.slc.slots[ch]).drop 1 := by
  rcases s.kick_cases with h | ⟨_, f, rest, _, h⟩ | ⟨_, _, f, rest, _, h⟩ | ⟨_, _, _, c, j, _, h⟩ <;> rw [h]
  · exact .inl rfl
  · exact .inl rfl
  · exact .inl rfl
  · simp only [State.updSlc_slc]
    rw [updAt_get]
    split
    · exact .inr rfl
    · exact .inl rfl

/-! ## Placing a reply -/

/-- A request completes: its reply is placed when the reply queue has room, and otherwise the Request Unit waits with it. -/
theorem State.finish_cases (reply : Frame) (runOf : Option (Fin 4)) :
    (s.slc.replies.length < 8 ∧
      s.finish reply runOf = s.updSlc (fun c => { c.place reply with unit := .free })) ∨
    (8 ≤ s.slc.replies.length ∧ s.finish reply runOf = s.updSlc (fun c => { c with unit := .done reply runOf })) := by
  by_cases h : s.slc.replies.length < 8
  · refine .inl ⟨h, ?_⟩
    unfold State.finish State.updSlc
    simp [h]
  · refine .inr ⟨by omega, ?_⟩
    unfold State.finish State.updSlc
    simp [h]

/-- A reply placed answers the request. -/
theorem State.finish_answered (reply : Frame) (runOf : Option (Fin 4)) : Answered s (s.finish reply runOf) reply runOf := by
  rcases s.finish_cases reply runOf with ⟨h, e⟩ | ⟨h, e⟩ <;> rw [e] <;> constructor <;> intro h' <;>
    first
    | omega
    | (simp [State.outgoing, Slc.place])

/-- The link but for the replies, the Request Unit and the refusals count is as it was. -/
theorem State.finish_slc (reply : Frame) (runOf : Option (Fin 4)) : (s.finish reply runOf).slc =
    { s.slc with
      unit := (s.finish reply runOf).slc.unit, replies := (s.finish reply runOf).slc.replies
      cnt := { s.slc.cnt with refusals := (s.finish reply runOf).slc.cnt.refusals } } := by
  rcases s.finish_cases reply runOf with ⟨_, e⟩ | ⟨_, e⟩ <;> rw [e]
  · simp only [State.updSlc_slc, Slc.place]
    split <;> rfl
  · rfl

@[simp] theorem State.finish_rx (reply : Frame) (runOf : Option (Fin 4)) : (s.finish reply runOf).slc.rx = s.slc.rx := by
  rw [State.finish_slc]
@[simp] theorem State.finish_buffer (reply : Frame) (runOf : Option (Fin 4)) : (s.finish reply runOf).slc.buffer = s.slc.buffer := by
  rw [State.finish_slc]
@[simp] theorem State.finish_notices (reply : Frame) (runOf : Option (Fin 4)) : (s.finish reply runOf).slc.notices = s.slc.notices := by
  rw [State.finish_slc]
@[simp] theorem State.finish_settings (reply : Frame) (runOf : Option (Fin 4)) : (s.finish reply runOf).slc.settings = s.slc.settings := by
  rw [State.finish_slc]
@[simp] theorem State.finish_masked (reply : Frame) (runOf : Option (Fin 4)) : (s.finish reply runOf).slc.masked = s.slc.masked := by
  rw [State.finish_slc]
@[simp] theorem State.finish_dropped (reply : Frame) (runOf : Option (Fin 4)) : (s.finish reply runOf).slc.dropped = s.slc.dropped := by
  rw [State.finish_slc]
@[simp] theorem State.finish_uncertain (reply : Frame) (runOf : Option (Fin 4)) : (s.finish reply runOf).slc.uncertain = s.slc.uncertain := by
  rw [State.finish_slc]
@[simp] theorem State.finish_silent (reply : Frame) (runOf : Option (Fin 4)) : (s.finish reply runOf).slc.silent = s.slc.silent := by
  rw [State.finish_slc]
@[simp] theorem State.finish_exhausted (reply : Frame) (runOf : Option (Fin 4)) : (s.finish reply runOf).slc.exhausted = s.slc.exhausted := by
  rw [State.finish_slc]
@[simp] theorem State.finish_slots (reply : Frame) (runOf : Option (Fin 4)) : (s.finish reply runOf).slc.slots = s.slc.slots := by
  rw [State.finish_slc]
@[simp] theorem State.finish_tx (reply : Frame) (runOf : Option (Fin 4)) : (s.finish reply runOf).slc.tx = s.slc.tx := by
  rw [State.finish_slc]
@[simp] theorem State.finish_lastChan (reply : Frame) (runOf : Option (Fin 4)) : (s.finish reply runOf).slc.lastChan = s.slc.lastChan := by
  rw [State.finish_slc]
@[simp] theorem State.finish_announced (reply : Frame) (runOf : Option (Fin 4)) : (s.finish reply runOf).announced = s.announced := by
  simp [State.announced]

@[simp] theorem State.finish_startUp (reply : Frame) (runOf : Option (Fin 4)) : (s.finish reply runOf).startUp = s.startUp := rfl
@[simp] theorem State.finish_ports (reply : Frame) (runOf : Option (Fin 4)) : (s.finish reply runOf).ports = s.ports := rfl
@[simp] theorem State.finish_trackers (reply : Frame) (runOf : Option (Fin 4)) : (s.finish reply runOf).trackers = s.trackers := rfl
@[simp] theorem State.finish_capture (reply : Frame) (runOf : Option (Fin 4)) : (s.finish reply runOf).capture = s.capture := rfl
@[simp] theorem State.finish_archive (reply : Frame) (runOf : Option (Fin 4)) : (s.finish reply runOf).archive = s.archive := rfl
@[simp] theorem State.finish_flash (reply : Frame) (runOf : Option (Fin 4)) : (s.finish reply runOf).flash = s.flash := rfl
@[simp] theorem State.finish_table (reply : Frame) (runOf : Option (Fin 4)) : (s.finish reply runOf).table = s.table := rfl
@[simp] theorem State.finish_channels (reply : Frame) (runOf : Option (Fin 4)) : (s.finish reply runOf).channels = s.channels := rfl
@[simp] theorem State.finish_profiles (reply : Frame) (runOf : Option (Fin 4)) : (s.finish reply runOf).profiles = s.profiles := rfl
@[simp] theorem State.finish_pending (reply : Frame) (runOf : Option (Fin 4)) : (s.finish reply runOf).pending = s.pending := rfl

/-! ## Raising a notice -/

/-- While the part is STARTING the notice unit takes nothing; once READY a notice enters its condition and is masked, dropped or queued
(R183, R185, R194). -/
theorem State.raise_eq (n : Notice) :
    s.raise n = if s.startUp.ready then s.updSlc (fun c => (c.enterInst n).takeNotice n.cls (noticeFrame (n.payload none))) else s := rfl

/-- Raising a notice of a condition that holds already does nothing in mode ONCE, and in mode REPEAT leaves every condition instance as it
is (R185). -/
theorem State.raiseHeld_cases (k : Condition) (n : Notice) :
    ((s.startUp.ready = false ∨ s.slc.settings.repeats k = false) ∧ s.raiseHeld k n = s) ∨
    (s.startUp.ready = true ∧ s.slc.settings.repeats k = true ∧
      s.raiseHeld k n = s.updSlc (fun c => c.takeNotice n.cls (noticeFrame (n.payload none)))) := by
  unfold State.raiseHeld
  cases hr : s.startUp.ready <;> cases hk : s.slc.settings.repeats k <;> simp

/-- The three cases of R183 for a notice other than START. -/
theorem Slc.takeNotice_cases (c : Slc) (cls : NoticeClass) (f : Frame) :
    (c.settings.enabled cls = false ∧ c.takeNotice cls f = { c with masked := bump c.masked }) ∨
    (c.settings.enabled cls = true ∧ 8 ≤ c.notices.length ∧ c.takeNotice cls f = { c with dropped := bump c.dropped }) ∨
    (c.settings.enabled cls = true ∧ c.notices.length < 8 ∧ c.takeNotice cls f = { c with notices := c.notices ++ [f] }) := by
  unfold Slc.takeNotice
  cases h : c.settings.enabled cls
  · exact .inl ⟨rfl, by simp⟩
  · by_cases h8 : c.notices.length < 8
    · exact .inr (.inr ⟨rfl, h8, by simp [h8]⟩)
    · exact .inr (.inl ⟨rfl, by omega, by simp [h8]⟩)

/-! ## Taking a request -/

/-- A request at hand is taken. -/
theorem Handed.takeRequest {s : State} {kind : Byte} {r : Req} (h : Handed s kind r) :
    s.takeRequest (reqFrame kind r) = some s.taken := by
  obtain ⟨hl, hu, hb⟩ := h
  unfold State.takeRequest State.taken
  rw [hl, hu]
  simp only [Bool.not_true, Bool.false_or, bne_self_eq_false, Bool.false_eq_true, if_false]
  rcases hb with hb | ⟨hb, hp⟩
  · cases hx : s.slc.buffer with
    | nil => simp [hx] at hb
    | cons g rest =>
      have : g = reqFrame kind r := by simpa [hx] using hb
      simp [this]
  · simp [hb, reqFrame, hp]

/-- A request at hand meets the checks of R179 and then its owning rule. -/
theorem Handed.request {s : State} {kind : Byte} {r : Req} (h : Handed s kind r) (own : Frame → State → State) :
    s.request kind r own =
      match s.taken.failedCheck (reqFrame kind r) with
      | some c => settle (s.taken.refuse (reqFrame kind r) c)
      | none => settle (own (reqFrame kind r) s.taken) := by
  unfold State.request
  simp only [h.takeRequest] <;> rfl

theorem State.taken_touches : Touches [.slc] s s.taken := by
  unfold State.taken
  split <;> exact (Touches.refl _ s).updSlc rfl

/-- What taking a request leaves of the link. -/
theorem State.taken_slc : s.taken.slc =
    { s.slc with buffer := s.slc.buffer.tail, cnt := { s.slc.cnt with received := s.taken.slc.cnt.received } } := by
  unfold State.taken
  split <;> simp [Slc.count, *]

@[simp] theorem State.taken_startUp : s.taken.startUp = s.startUp := s.taken_touches.startUp_eq
@[simp] theorem State.taken_ports : s.taken.ports = s.ports := s.taken_touches.ports_eq
@[simp] theorem State.taken_trackers : s.taken.trackers = s.trackers := s.taken_touches.trackers_eq
@[simp] theorem State.taken_capture : s.taken.capture = s.capture := s.taken_touches.capture_eq
@[simp] theorem State.taken_archive : s.taken.archive = s.archive := s.taken_touches.archive_eq
@[simp] theorem State.taken_flash : s.taken.flash = s.flash := s.taken_touches.flash_eq
@[simp] theorem State.taken_table : s.taken.table = s.table := s.taken_touches.table_eq
@[simp] theorem State.taken_channels : s.taken.channels = s.channels := s.taken_touches.channels_eq
@[simp] theorem State.taken_profiles : s.taken.profiles = s.profiles := s.taken_touches.profiles_eq
@[simp] theorem State.taken_pending : s.taken.pending = s.pending := s.taken_touches.pending_eq

/-- A request that passes the first four checks is its owning rule's. -/
theorem Admitted.request {s : State} {kind : Byte} {r : Req} (h : Admitted s kind r) (hk : kindKnown kind = true)
    (own : Frame → State → State) : s.request kind r own = settle (own (reqFrame kind r) s.taken) := by
  obtain ⟨hh, hr, hl, hc⟩ := h
  rw [hh.request]
  have : s.taken.failedCheck (reqFrame kind r) = none := by
    unfold State.failedCheck
    simp [reqFrame, hr, hk, hl, hc]
  rw [this]

/-- The link right after a request is taken is the link as it was, but for the buffer and frames received. -/
@[simp] theorem State.taken_replies : s.taken.slc.replies = s.slc.replies := by rw [State.taken_slc]
@[simp] theorem State.taken_unit : s.taken.slc.unit = s.slc.unit := by rw [State.taken_slc]
@[simp] theorem State.taken_rx : s.taken.slc.rx = s.slc.rx := by rw [State.taken_slc]
@[simp] theorem State.taken_notices : s.taken.slc.notices = s.slc.notices := by rw [State.taken_slc]
@[simp] theorem State.taken_settings : s.taken.slc.settings = s.slc.settings := by rw [State.taken_slc]
@[simp] theorem State.taken_masked : s.taken.slc.masked = s.slc.masked := by rw [State.taken_slc]
@[simp] theorem State.taken_dropped : s.taken.slc.dropped = s.slc.dropped := by rw [State.taken_slc]
@[simp] theorem State.taken_uncertain : s.taken.slc.uncertain = s.slc.uncertain := by rw [State.taken_slc]
@[simp] theorem State.taken_silent : s.taken.slc.silent = s.slc.silent := by rw [State.taken_slc]
@[simp] theorem State.taken_exhausted : s.taken.slc.exhausted = s.slc.exhausted := by rw [State.taken_slc]
@[simp] theorem State.taken_slots : s.taken.slc.slots = s.slc.slots := by rw [State.taken_slc]
@[simp] theorem State.taken_tx : s.taken.slc.tx = s.slc.tx := by rw [State.taken_slc]
@[simp] theorem State.taken_lastChan : s.taken.slc.lastChan = s.slc.lastChan := by rw [State.taken_slc]
@[simp] theorem State.taken_buffer : s.taken.slc.buffer = s.slc.buffer.tail := by rw [State.taken_slc]
@[simp] theorem State.taken_outgoing : s.taken.outgoing = s.outgoing := by unfold State.outgoing; rw [State.taken_slc]
@[simp] theorem State.taken_announced : s.taken.announced = s.announced := by unfold State.announced; rw [State.taken_slc]

/-- Being answered depends on the replies and on what is going out, before and after. -/
theorem Answered.of_eq {s s' t t' : State} {f : Frame} {o : Option (Fin 4)} (h : Answered s t f o)
    (hr : s'.slc.replies.length = s.slc.replies.length) (ho : s'.outgoing = s.outgoing) (hu : t'.slc.unit = t.slc.unit)
    (hg : t'.outgoing = t.outgoing) : Answered s' t' f o := by
  obtain ⟨h1, h2⟩ := h
  constructor
  · intro hl
    rw [hu, hg, ho]
    exact h1 (by omega)
  · intro hl
    rw [hu, hg, ho]
    exact h2 (by omega)

/-- A request at hand, answered by its owning rule with one reply and the scheduler's choice. -/
theorem State.taken_finish_kick (reply : Frame) (runOf : Option (Fin 4)) :
    Answered s (s.taken.finish reply runOf).kick reply runOf :=
  (s.taken.finish_answered reply runOf).of_eq (by simp) (by simp) (by simp) (by simp)

/-- A request taken and answered, with the scheduler's choice, leaves the rest of the link as it was. -/
theorem State.taken_finish_kept (reply : Frame) (runOf : Option (Fin 4)) : LinkKept s (s.taken.finish reply runOf).kick := by
  refine ⟨by simp, by simp, by simp, by simp, by simp, by simp, by simp, by simp, by simp, ?_, ?_⟩
  · intro ch
    have := (s.taken.finish reply runOf).kick_slots ch
    rwa [State.finish_slots, State.taken_slots] at this
  · have a : s.taken.slc.cnt = { s.slc.cnt with received := s.taken.slc.cnt.received } := congrArg Slc.cnt s.taken_slc
    have b : (s.taken.finish reply runOf).slc.cnt
        = { s.taken.slc.cnt with refusals := (s.taken.finish reply runOf).slc.cnt.refusals } :=
      congrArg Slc.cnt (s.taken.finish_slc reply runOf)
    rw [State.kick_cnt, b]
    simp only
    rw [a]

/-- A command that only places a reply. -/
theorem OnlyReplies.of_finish {c : Instr} {s : State} {f : Frame} (h : exec c s = settle (s.taken.finish f none)) :
    OnlyReplies c s f :=
  ⟨_, h, s.taken_finish_kick f none, s.taken_finish_kept f none, (s.taken_touches.finish rfl).kick rfl⟩

end Sys2Proof.Machine
end

