-- ==== Sys2Proof/Laws/Lines.lean ====
section
/-! SUPPORT. The Line Trackers' shared operations, once each: what the steps of an item can do to its line, and that they do nothing to
the others. -/

namespace Sys2Proof.Machine

namespace LineKept

theorem refl (a : Tracker) : LineKept a a := rfl

theorem trans {a b c : Tracker} (h : LineKept a b) (k : LineKept b c) : LineKept a c := by
  unfold LineKept at *
  rw [k, h]

theorem feed {a b : Tracker} (h : LineKept a b) : b.feed = a.feed := by rw [h]
theorem delivery {a b : Tracker} (h : LineKept a b) : b.delivery = a.delivery := by rw [h]
theorem feedBase {a b : Tracker} (h : LineKept a b) : b.feedBase = a.feedBase := by rw [h]
theorem deliveryBase {a b : Tracker} (h : LineKept a b) : b.deliveryBase = a.deliveryBase := by rw [h]
theorem lastSeq {a b : Tracker} (h : LineKept a b) : b.lastSeq = a.lastSeq := by rw [h]
theorem state {a b : Tracker} (h : LineKept a b) : b.state = a.state := by rw [h]
theorem defn {a b : Tracker} (h : LineKept a b) : b.defn = a.defn := by rw [h]
theorem clear {a b : Tracker} (h : LineKept a b) : b.clear = a.clear := by rw [h]

end LineKept

namespace OtherTrackers

variable {l : Fin 4} {s t u : State}

theorem refl (l : Fin 4) (s : State) : OtherTrackers l s s := fun _ _ => rfl

theorem trans (h : OtherTrackers l s t) (k : OtherTrackers l t u) : OtherTrackers l s u :=
  fun j hj => (k j hj).trans (h j hj)

theorem of_eq (h : t.trackers = s.trackers) : OtherTrackers l s t := fun _ _ => by rw [h]

theorem updTracker (s : State) (l : Fin 4) (f : Tracker → Tracker) : OtherTrackers l s (s.updTracker l f) := by
  intro j hj
  rw [State.updTracker_trackers, updAt_other _ _ _ _ (Ne.symm hj)]

end OtherTrackers

variable (s : State) (l : Fin 4)

@[simp] theorem State.raise_trackers (n : Notice) : (s.raise n).trackers = s.trackers :=
  ((Touches.refl [.slc] s).raise rfl).trackers_eq
@[simp] theorem State.raise_ports (n : Notice) : (s.raise n).ports = s.ports := ((Touches.refl [.slc] s).raise rfl).ports_eq
@[simp] theorem State.raise_table (n : Notice) : (s.raise n).table = s.table := ((Touches.refl [.slc] s).raise rfl).table_eq
@[simp] theorem State.raise_archive (n : Notice) : (s.raise n).archive = s.archive := ((Touches.refl [.slc] s).raise rfl).archive_eq
@[simp] theorem State.raise_capture (n : Notice) : (s.raise n).capture = s.capture := ((Touches.refl [.slc] s).raise rfl).capture_eq
@[simp] theorem State.raise_startUp (n : Notice) : (s.raise n).startUp = s.startUp := ((Touches.refl [.slc] s).raise rfl).startUp_eq

/-- The tracker an update changes. -/
theorem State.updTracker_at (f : Tracker → Tracker) : (s.updTracker l f).trackers[l] = f s.trackers[l] := by
  rw [State.updTracker_trackers, updAt_get, if_pos rfl]

/-- The tracker a step of an item leaves. -/
theorem State.task_at (k : Task) : (s.task l k).1.trackers[l] = ((s.trackers[l]).task k).tracker := by
  unfold State.task
  dsimp only
  split
  · rw [State.updTracker_at]
  · simp only [State.raise_trackers]; exact State.updTracker_at _ _ _

/-- A step of an item leaves the other lines. -/
theorem State.task_other (k : Task) : OtherTrackers l s (s.task l k).1 := by
  unfold State.task
  dsimp only
  split
  · exact OtherTrackers.updTracker s l _
  · intro j hj
    simp only [State.raise_trackers]
    exact OtherTrackers.updTracker s l _ j hj

/-- The leaving check changes the map alone. -/
theorem Tracker.left_eq (t : Tracker) : t.left = { t with map := t.left.map } := by
  unfold Tracker.left
  split <;> rfl

/-- A step keeps its tracker but for pair, map, exit record and counters. -/
theorem Tracker.task_kept (t : Tracker) (k : Task) : LineKept t (t.task k).tracker ∧ (t.task k).tracker.work = t.work := by
  cases k <;> unfold Tracker.task <;> (try unfold Tracker.crossTail) <;> (try unfold Tracker.trackFault) <;> (try unfold Tracker.left) <;>
    dsimp only <;>
    (repeat' split) <;> exact ⟨rfl, rfl⟩

/-- A step other than the keeping of the pair leaves the pair. -/
theorem Tracker.task_pair (t : Tracker) (k : Task) (h : k ≠ .keepPair) : (t.task k).tracker.pair = t.pair := by
  cases k <;> unfold Tracker.task <;> (try unfold Tracker.crossTail) <;> (try unfold Tracker.trackFault) <;> (try unfold Tracker.left) <;>
    dsimp only <;>
    (repeat' split) <;> first | rfl | exact absurd rfl h

/-- A step that neither sets the exit record nor empties the map leaves the exit record. -/
theorem Tracker.task_exit (t : Tracker) (k : Task) (h : ∀ x n, k ≠ .setExit x n) (h' : k ≠ .emptyMap) :
    (t.task k).tracker.exit = t.exit := by
  cases k <;> unfold Tracker.task <;> (try unfold Tracker.crossTail) <;> (try unfold Tracker.trackFault) <;> (try unfold Tracker.left) <;>
    dsimp only <;>
    (repeat' split) <;> first | rfl | exact absurd rfl (h _ _) | exact absurd rfl h'

/-- The end of an item: its line but for the work in hand, and the other lines, are as they were. -/
theorem State.itemDone_trackers (b : Bool) : (s.itemDone l b).trackers = (s.updTracker l (fun t => { t with work := none })).trackers := by
  unfold State.itemDone
  dsimp only
  split
  · rfl
  · split
    · split <;> simp [State.accept]
    · rfl

theorem State.itemDone_at (b : Bool) : (s.itemDone l b).trackers[l] = { s.trackers[l] with work := none } := by
  simp only [State.itemDone_trackers]
  exact State.updTracker_at s l _

/-- The steps of an item keep the line but for pair, map, exit record, counters and work in hand, and the other lines whole. -/
theorem State.runTasks_line (b : Bool) (ks : List Task) :
    LineKept s.trackers[l] (s.runTasks l b ks).trackers[l] ∧ OtherTrackers l s (s.runTasks l b ks) := by
  induction ks generalizing s with
  | nil =>
    constructor
    · show LineKept _ (s.itemDone l b).trackers[l]
      rw [State.itemDone_at]; rfl
    · intro j hj
      show (s.itemDone l b).trackers[j] = _
      simp only [State.itemDone_trackers]
      exact OtherTrackers.updTracker s l _ j hj
  | cons k ks ih =>
    unfold State.runTasks
    dsimp only
    split
    · have h' := ih (s.task l k).1
      rw [State.task_at] at h'
      exact ⟨(Tracker.task_kept _ k).1.trans h'.1, (s.task_other l k).trans h'.2⟩
    · constructor
      · rw [State.updTracker_at, State.task_at]
        exact (Tracker.task_kept _ k).1.trans rfl
      · exact (s.task_other l k).trans (OtherTrackers.updTracker _ l _)

/-- Steps that never set or empty leave the exit record. -/
theorem State.runTasks_exit (b : Bool) (ks : List Task) (h : ∀ k ∈ ks, (∀ x n, k ≠ .setExit x n) ∧ k ≠ .emptyMap) :
    ((s.runTasks l b ks).trackers[l]).exit = (s.trackers[l]).exit := by
  induction ks generalizing s with
  | nil =>
    show ((s.itemDone l b).trackers[l]).exit = _
    rw [State.itemDone_at]
  | cons k ks ih =>
    have e := Tracker.task_exit s.trackers[l] k (h k (by simp)).1 (h k (by simp)).2
    unfold State.runTasks
    dsimp only
    split
    · rw [ih _ (fun x hx => h x (by simp [hx])), State.task_at, e]
    · rw [State.updTracker_at, State.task_at, e]

/-- The work a run of steps leaves comes from one of them, with the steps behind it; with none left the item is over. -/
theorem State.runTasks_none (b : Bool) (ks : List Task) (h : ∀ t : Tracker, ∀ k ∈ ks, (t.task k).op = none) :
    s.runTasks l b ks = (ks.foldl (fun u k => (u.task l k).1) s).itemDone l b := by
  induction ks generalizing s with
  | nil => rfl
  | cons k ks ih =>
    unfold State.runTasks
    dsimp only
    have : (s.task l k).2 = none := h _ k (by simp)
    rw [this]
    exact ih _ (fun t x hx => h t x (by simp [hx]))

/-! ## Counts and states -/

namespace Marked

theorem refl (a : Tracker) : Marked a a := ⟨rfl, rfl, rfl, rfl⟩

theorem trans {a b c : Tracker} (h : Marked a b) (k : Marked b c) : Marked a c := by
  obtain ⟨h1, h2, h3, h4⟩ := h
  obtain ⟨k1, k2, k3, k4⟩ := k
  refine ⟨?_, k2.trans h2, k3.trans h3, k4.trans h4⟩
  rw [k1, h1]

theorem lastSeq {a b : Tracker} (h : Marked a b) : b.lastSeq = a.lastSeq := by rw [h.1]
theorem defn {a b : Tracker} (h : Marked a b) : b.defn = a.defn := by rw [h.1]
theorem feed {a b : Tracker} (h : Marked a b) : b.feed = a.feed := by rw [h.1]
theorem delivery {a b : Tracker} (h : Marked a b) : b.delivery = a.delivery := by rw [h.1]
theorem feedBase {a b : Tracker} (h : Marked a b) : b.feedBase = a.feedBase := by rw [h.1]
theorem deliveryBase {a b : Tracker} (h : Marked a b) : b.deliveryBase = a.deliveryBase := by rw [h.1]
theorem pair {a b : Tracker} (h : Marked a b) : b.pair = a.pair := by rw [h.1]
theorem work {a b : Tracker} (h : Marked a b) : b.work = a.work := by rw [h.1]
theorem clear {a b : Tracker} (h : Marked a b) : b.clear = a.clear := by rw [h.1]
theorem silent {a b : Tracker} (h : Marked a b) : b.silent = a.silent := by rw [h.1]
theorem timer {a b : Tracker} (h : Marked a b) : b.timer = a.timer := by rw [h.1]
theorem length {a b : Tracker} (h : Marked a b) : b.map.length = a.map.length := by
  have := congrArg List.length h.2.1
  simpa using this

/-- Fields outside the marks may be set on both sides. -/
theorem upd {a b : Tracker} (h : Marked a b) (f : Tracker → Tracker)
    (hf : ∀ x : Tracker, f { a with state := x.state, map := x.map, exit := x.exit, cnt := x.cnt }
      = { f a with state := x.state, map := x.map, exit := x.exit, cnt := x.cnt })
    (hs : ∀ x, (f x).map = x.map ∧ (f x).exit = x.exit) : Marked (f a) (f b) := by
  obtain ⟨h1, h2, h3, h4⟩ := h
  have e := hf b
  rw [← h1] at e
  refine ⟨?_, ?_, ?_, ?_⟩
  · rw [e]
  · rw [(hs b).1, (hs a).1, h2]
  · rw [(hs b).2, (hs a).2, h3]
  · rw [(hs b).2, (hs a).2, h4]

end Marked

theorem Tracker.suspectAll_marked (a : Tracker) (st : LineState) : Marked a { a.suspectAll with state := st } := by
  refine ⟨rfl, ?_, rfl, rfl⟩
  simp [Tracker.suspectAll, Segment.plain]

/-- A discontinuity marks its line UNCERTAIN (R68). -/
theorem State.discontinuity_line (c : Nat) : Marked s.trackers[l] (s.discontinuity l c).trackers[l] ∧
    ((s.discontinuity l c).trackers[l]).state = .uncertain ∧ OtherTrackers l s (s.discontinuity l c) ∧
    (s.discontinuity l c).ports = s.ports := by
  unfold State.discontinuity
  dsimp only
  split
  · simp only [State.raise_trackers, State.raise_ports, State.updTracker_ports]
    refine ⟨?_, ?_, ?_, trivial⟩
    · rw [State.updTracker_at]; exact Tracker.suspectAll_marked _ _
    · rw [State.updTracker_at]
    · intro j hj
      simp only [State.raise_trackers]
      exact OtherTrackers.updTracker s l _ j hj
  · simp only [State.raise_trackers, State.raise_ports, State.updTrackCnt_ports, State.updTracker_ports]
    have e : ∀ (u : State) f, ((u.updTrackCnt l f).trackers[l]) = { u.trackers[l] with cnt := f (u.trackers[l]).cnt } :=
      fun u f => State.updTracker_at u l _
    refine ⟨?_, ?_, ?_, trivial⟩
    · rw [e, State.updTracker_at]
      exact (Tracker.suspectAll_marked _ _).trans ⟨rfl, rfl, rfl, rfl⟩
    · rw [e, State.updTracker_at]
    · intro j hj
      simp only [State.raise_trackers]
      exact ((OtherTrackers.updTracker s l _).trans (OtherTrackers.updTracker _ l _)) j hj

/-- A discontinuity that arises only in TRACKING and UNCERTAIN (R72). -/
theorem State.discontinuityIf_line (c : Nat) : Marked s.trackers[l] (s.discontinuityIf l c).trackers[l] ∧
    ((s.discontinuityIf l c).trackers[l]).state = (if (s.trackers[l]).counting then .uncertain else (s.trackers[l]).state) ∧
    OtherTrackers l s (s.discontinuityIf l c) ∧ (s.discontinuityIf l c).ports = s.ports := by
  unfold State.discontinuityIf
  split
  · exact s.discontinuity_line l c
  · exact ⟨Marked.refl _, rfl, OtherTrackers.refl l s, rfl⟩

/-- A sequence gap makes a counting line UNCERTAIN and leaves a WAITING one WAITING (R57, R67). -/
theorem State.gapFound_line : Marked s.trackers[l] (s.gapFound l).trackers[l] ∧
    ((s.gapFound l).trackers[l]).state = (if (s.trackers[l]).counting then .uncertain else (s.trackers[l]).state) ∧
    OtherTrackers l s (s.gapFound l) ∧ (s.gapFound l).ports = s.ports := by
  unfold State.gapFound
  by_cases hw : (s.trackers[l]).state = .waiting
  · rw [if_pos hw]
    unfold State.discontinuityHere
    simp only [State.raise_trackers, State.raise_ports, State.updTracker_ports]
    refine ⟨?_, ?_, ?_, trivial⟩
    · rw [State.updTracker_at]; exact Tracker.suspectAll_marked _ _
    · rw [State.updTracker_at]
      simp only [Tracker.counting, hw, Tracker.suspectAll]
      decide
    · intro j hj
      simp only [State.raise_trackers]
      exact OtherTrackers.updTracker s l _ j hj
  · rw [if_neg hw]
    exact s.discontinuityIf_line l 0

/-- The sequence check (R57). -/
theorem State.seqCheck_line (seq : Byte) :
    Marked { s.trackers[l] with lastSeq := some seq.toNat } (s.seqCheck l seq).trackers[l] ∧
    ((s.seqCheck l seq).trackers[l]).state =
      (if (s.trackers[l]).counting ∧ Missed (s.trackers[l]).lastSeq seq.toNat ≠ 0 then .uncertain else (s.trackers[l]).state) ∧
    OtherTrackers l s (s.seqCheck l seq) ∧
    (let n := Missed (s.trackers[l]).lastSeq seq.toNat
     let k := (s.ports[l]).cnt
     (s.seqCheck l seq).ports[l] = { s.ports[l] with cnt := if n = 0 then k else { k with missed := bump k.missed n } }) ∧
    ∀ k : Fin 4, k ≠ l → (s.seqCheck l seq).ports[k] = s.ports[k] := by
  unfold State.seqCheck Missed
  dsimp only
  cases hn : ((s.trackers[l]).lastSeq : Option Nat) with
  | none =>
    dsimp only
    refine ⟨?_, ?_, OtherTrackers.updTracker s l _, ?_, fun _ _ => rfl⟩
    · rw [State.updTracker_at]; exact Marked.refl _
    · rw [State.updTracker_at]; simp
    · simp
  | some n =>
    dsimp only
    by_cases hm : ((seq.toNat + 512 - n - 1) % 256 = 0)
    · rw [if_pos hm]
      refine ⟨?_, ?_, OtherTrackers.updTracker s l _, ?_, fun _ _ => rfl⟩
      · rw [State.updTracker_at]; exact Marked.refl _
      · rw [State.updTracker_at]; simp [hm]
      · simp [hm]
    · rw [if_neg hm]
      have h := State.gapFound_line ((s.updTracker l (fun t => { t with lastSeq := some seq.toNat })).updPortCnt l
        (fun c => { c with missed := bump c.missed ((seq.toNat + 512 - n - 1) % 256) })) l
      obtain ⟨h1, h2, h3, h4⟩ := h
      simp only [State.updPortCnt_trackers, State.updTracker_at] at h1 h2
      refine ⟨h1, ?_, ?_, ?_, ?_⟩
      · rw [h2]
        have : ({ s.trackers[l] with lastSeq := some seq.toNat } : Tracker).counting = (s.trackers[l]).counting := rfl
        rw [this]
        simp [hm]
      · exact (OtherTrackers.updTracker s l _).trans ((OtherTrackers.of_eq rfl).trans h3)
      · simp only [h4, State.updPortCnt_ports, State.updTracker_ports]
        rw [updAt_get, if_pos rfl]
        simp [hm]
      · intro k hk
        simp only [h4, State.updPortCnt_ports, State.updTracker_ports]
        rw [updAt_other _ _ _ _ (Ne.symm hk)]

/-- The count rule is R64 with R66 for an absent base. -/
theorem applyCount_taken (o : Nat) (base : Option Nat) (limit c : Nat) :
    CountTaken limit o base c (applyCount o base limit c).1 (some (applyCount o base limit c).2.1) := by
  unfold CountTaken applyCount
  cases base with
  | none => exact ⟨rfl, rfl⟩
  | some b =>
    dsimp only
    show _ ∧ _ ∧ _ ∧ _
    unfold countGap countMod advance
    generalize hd : (c + 4294967296 - b) % 4294967296 = d
    by_cases h0 : d = 0
    · rw [if_pos h0]
      refine ⟨fun _ => ⟨rfl, rfl⟩, ?_, ?_, ?_⟩ <;> intros <;> omega
    · rw [if_neg h0]
      by_cases h1 : d < 2147483648
      · rw [if_pos h1]
        by_cases h2 : d ≤ limit
        · rw [if_pos h2]
          refine ⟨fun h => absurd h h0, fun _ _ _ => ⟨rfl, ?_, ?_⟩, ?_, ?_⟩
          · dsimp only; split <;> omega
          · intro h; dsimp only; rw [if_pos (by omega)]
          · intros; omega
          · intros; omega
        · rw [if_neg h2]
          exact ⟨fun h => absurd h h0, fun _ _ h => absurd h h2, fun _ _ => ⟨rfl, rfl⟩, fun h => absurd h1 (by omega)⟩
      · rw [if_neg h1]
        exact ⟨fun h => absurd h h0, fun _ h => absurd h h1, fun h => absurd h h1, fun _ => ⟨rfl, rfl⟩⟩

/-- The rule finds a jump exactly beyond the limit. -/
theorem applyCount_jump (o : Nat) (base : Option Nat) (limit c : Nat) :
    (applyCount o base limit c).2.2 = .jump ↔ JumpCount limit base c := by
  unfold JumpCount applyCount
  cases base with
  | none => simp
  | some b =>
    dsimp only
    unfold countGap countMod
    generalize (c + 4294967296 - b) % 4294967296 = d
    by_cases h0 : d = 0
    · simp [h0]
    · by_cases h1 : d < 2147483648
      · by_cases h2 : d ≤ limit
        · simp [h0, h1, h2]
        · simp [h0, h1, h2]; omega
      · simp [h0, h1]

/-- A tracker with the count of one side applied to its odometer and base. -/
def Tracker.counted (a : Tracker) (sd : Side) (c : Nat) : Tracker :=
  let r := applyCount (a.odo sd) (a.base sd) a.defn.jump c
  match sd with
  | .feed => { a with feed := r.1, feedBase := some r.2.1 }
  | .delivery => { a with delivery := r.1, deliveryBase := some r.2.1 }

/-- One count applied (R64, R66). -/
theorem State.takeCount_line (sd : Side) (c : Nat) :
    Marked ((s.trackers[l]).counted sd c) (s.takeCount l sd c).trackers[l] ∧
    (JumpCount (s.trackers[l]).defn.jump ((s.trackers[l]).base sd) c → (s.trackers[l]).counting = true →
      ((s.takeCount l sd c).trackers[l]).state = .uncertain) ∧
    (¬JumpCount (s.trackers[l]).defn.jump ((s.trackers[l]).base sd) c ∨ (s.trackers[l]).counting = false →
      ((s.takeCount l sd c).trackers[l]).state = (s.trackers[l]).state) ∧
    OtherTrackers l s (s.takeCount l sd c) ∧ (s.takeCount l sd c).ports = s.ports := by
  have hj := applyCount_jump ((s.trackers[l]).odo sd) ((s.trackers[l]).base sd) (s.trackers[l]).defn.jump c
  have e1 : ∀ f, (s.updTracker l f).trackers[l] = f s.trackers[l] := fun f => State.updTracker_at s l f
  have e2 : ∀ (u : State) f, ((u.updTrackCnt l f).trackers[l]) = { u.trackers[l] with cnt := f (u.trackers[l]).cnt } :=
      fun u f => State.updTracker_at u l _
  have o2 : ∀ (u : State) f, OtherTrackers l u (u.updTrackCnt l f) := fun u f => OtherTrackers.updTracker u l _
  unfold State.takeCount Tracker.counted
  dsimp only
  generalize applyCount ((s.trackers[l]).odo sd) ((s.trackers[l]).base sd) (s.trackers[l]).defn.jump c = r at hj
  obtain ⟨r1, r2, r3⟩ := r
  dsimp only at hj ⊢
  have h0 := e1 (fun t => match (generalizing := false) sd with
    | .feed => { t with feed := r1, feedBase := some r2 }
    | .delivery => { t with delivery := r1, deliveryBase := some r2 })
  have o1 := OtherTrackers.updTracker s l (fun t => match (generalizing := false) sd with
    | .feed => { t with feed := r1, feedBase := some r2 }
    | .delivery => { t with delivery := r1, deliveryBase := some r2 })
  have hp : (s.updTracker l (fun t => match (generalizing := false) sd with
    | .feed => { t with feed := r1, feedBase := some r2 }
    | .delivery => { t with delivery := r1, deliveryBase := some r2 })).ports = s.ports := rfl
  generalize (s.updTracker l (fun t => match (generalizing := false) sd with
    | .feed => { t with feed := r1, feedBase := some r2 }
    | .delivery => { t with delivery := r1, deliveryBase := some r2 })) = u at h0 o1 hp ⊢
  have hstate : (u.trackers[l]).state = (s.trackers[l]).state := by rw [h0]; cases sd <;> rfl
  have quiet : Marked (match (generalizing := false) sd with
      | .feed => { s.trackers[l] with feed := r1, feedBase := some r2 }
      | .delivery => { s.trackers[l] with delivery := r1, deliveryBase := some r2 }) u.trackers[l] := by
    rw [h0]; exact Marked.refl _
  cases r3 with
  | jump =>
    have hJ := hj.1 rfl
    obtain ⟨d1, d2, d3, d4⟩ := (u.updTrackCnt l (fun c => { c with jumps := bump c.jumps })).discontinuityIf_line l 1
    simp only [e2] at d1 d2
    have hc : ({ u.trackers[l] with cnt := { (u.trackers[l]).cnt with jumps := bump (u.trackers[l]).cnt.jumps } } : Tracker).counting
        = (s.trackers[l]).counting := by
      show (((u.trackers[l]).state == .tracking) || ((u.trackers[l]).state == .uncertain)) = _
      rw [hstate]; rfl
    refine ⟨?_, ?_, ?_, ?_, ?_⟩
    · exact (quiet.trans ⟨rfl, rfl, rfl, rfl⟩).trans d1
    · intro _ hcount
      dsimp only
      rw [d2, hc, hcount]; rfl
    · intro h
      rcases h with h | h
      · exact absurd hJ h
      · dsimp only; rw [d2, hc, h]; simpa using hstate
    · exact o1.trans ((o2 u _).trans d3)
    · dsimp only; rw [d4]; exact hp
  | hold =>
    refine ⟨?_, ?_, ?_, ?_, hp⟩
    · dsimp only; rw [e2]; exact quiet.trans ⟨rfl, rfl, rfl, rfl⟩
    · intro h; exact absurd (hj.2 h) (by simp)
    · intro _; dsimp only; rw [e2]; exact hstate
    · exact o1.trans (o2 u _)
  | based => exact ⟨quiet, fun h => absurd (hj.2 h) (by simp), fun _ => hstate, o1, hp⟩
  | same => exact ⟨quiet, fun h => absurd (hj.2 h) (by simp), fun _ => hstate, o1, hp⟩
  | moved => exact ⟨quiet, fun h => absurd (hj.2 h) (by simp), fun _ => hstate, o1, hp⟩

/-- The first item carrying a count ends WAITING (R66). -/
theorem State.leaveWaiting_line :
    Marked s.trackers[l] (s.leaveWaiting l).trackers[l] ∧
    ((s.trackers[l]).state ≠ .waiting → ((s.leaveWaiting l).trackers[l]).state = (s.trackers[l]).state) ∧
    ((s.trackers[l]).state = .waiting → (s.trackers[l]).map = [] → (s.trackers[l]).exit.names = [] →
      ((s.leaveWaiting l).trackers[l]).state = .tracking) ∧
    ((s.trackers[l]).state = .waiting → ¬((s.trackers[l]).map = [] ∧ (s.trackers[l]).exit.names = []) →
      ((s.leaveWaiting l).trackers[l]).state = .uncertain) ∧
    OtherTrackers l s (s.leaveWaiting l) ∧ (s.leaveWaiting l).ports = s.ports := by
  unfold State.leaveWaiting
  dsimp only
  by_cases hw : (s.trackers[l]).state = .waiting
  · rw [if_pos hw]
    by_cases he : (s.trackers[l]).map = [] ∧ (s.trackers[l]).exit.names = []
    · rw [if_pos (by rw [he.1, he.2]; rfl)]
      refine ⟨?_, fun h => absurd hw h, fun _ _ _ => ?_, fun _ h => absurd he h, OtherTrackers.updTracker s l _, rfl⟩
      · rw [State.updTracker_at]; exact ⟨rfl, rfl, rfl, rfl⟩
      · rw [State.updTracker_at]
    · rw [if_neg (by simpa using he)]
      obtain ⟨h1, h2, h3, h4⟩ := s.discontinuity_line l 3
      exact ⟨h1, fun h => absurd hw h, fun _ a b => absurd ⟨a, b⟩ he, fun _ _ => h2, h3, h4⟩
  · rw [if_neg hw]
    exact ⟨Marked.refl _, fun _ => rfl, fun h => absurd h hw, fun h => absurd h hw, OtherTrackers.refl l s, rfl⟩

/-- The return from UNCERTAIN (R69). -/
theorem State.restore_line :
    (s.restore l).trackers[l] = { s.trackers[l] with
      state := if (s.trackers[l]).state = .uncertain then .tracking else (s.trackers[l]).state } ∧
    OtherTrackers l s (s.restore l) ∧ (s.restore l).ports = s.ports := by
  unfold State.restore
  by_cases h : (s.trackers[l]).state = .uncertain
  · simp only [if_pos h, State.raise_trackers, State.raise_ports]
    refine ⟨?_, ?_, rfl⟩
    · exact State.updTracker_at s l _
    · intro j hj
      simp only [State.raise_trackers]
      exact OtherTrackers.updTracker s l _ j hj
  · simp only [if_neg h]
    refine ⟨?_, OtherTrackers.refl l s, ?_⟩ <;> first | rfl | trivial

/-! ## Taking an item -/

/-- An item handed over is taken: it leaves the hand-over order, or arrives in this step, which also restarts the silence timer and counts
it (log entry 14). -/
theorem ItemHanded.takeItem {s : State} {l : Fin 4} {it : Item} (h : ItemHanded s l it) :
    ∃ s1, s.takeItem l it = some s1 ∧ Touches [.ports, .trackers, .slc] s s1 ∧ OtherLines l s s1 ∧
      s1.trackers[l] = { s.trackers[l] with silent := (s1.trackers[l]).silent, timer := (s1.trackers[l]).timer } ∧
      ((∀ k q, it ≠ .malformed k q) → (s1.ports[l]).cnt.malformed = (s.ports[l]).cnt.malformed) ∧
      (it = .restart → s1.trackers[l] = s.trackers[l]) := by
  obtain ⟨hb, hw, hs, ho⟩ := h
  have ht : ∀ s1, s.takeItem l it = some s1 → Touches [.ports, .trackers, .slc] s s1 :=
    fun s1 h1 => (Touches.refl _ s).takeItem h1 rfl rfl rfl
  unfold State.takeItem at ht ⊢
  rw [hb, hw] at ht ⊢
  simp only [Bool.not_true, Bool.false_or, Bool.false_eq_true, hs, decide_false, if_false] at ht ⊢
  have oth : ∀ (u : State) (f : Port → Port), (∀ k : Fin 4, k ≠ l → (u.updPort l f).ports[k] = u.ports[k]) := by
    intro u f k hk
    rw [State.updPort_ports, updAt_other _ _ _ _ (Ne.symm hk)]
  rcases ho with ho | ⟨ho, hr, ha⟩
  · cases hx : (s.ports[l]).order with
    | nil => rw [hx] at ho; simp at ho
    | cons head rest =>
      have he : head = it := by rw [hx] at ho; simpa using ho
      simp only [hx, he, if_true] at ht ⊢
      refine ⟨_, rfl, ht _ rfl, ?_, rfl, ?_, fun _ => rfl⟩
      · intro k hk; exact ⟨rfl, oth _ _ k hk⟩
      · intro _; rw [State.updPort_ports, updAt_get, if_pos rfl]
  · simp only [ho] at ht ⊢
    have harr : (match (generalizing := false) it with | .frame _ f => frameFormOk f | _ => true) = true := by
      cases it with
      | frame q f => exact ha
      | malformed k q => rfl
      | restart => rfl
    rw [if_pos ⟨hr, harr⟩] at ht ⊢
    refine ⟨_, rfl, ht _ rfl, ?_⟩
    have hjoin : ∀ x : Item, OtherLines l s (s.join l x) ∧
        (s.join l x).trackers[l] = { s.trackers[l] with silent := false, timer := true } ∧
        ((s.join l x).ports[l]).cnt.malformed = (match x with | .malformed _ _ => bump (s.ports[l]).cnt.malformed | _ => (s.ports[l]).cnt.malformed) := by
      intro x
      unfold State.join
      dsimp only
      split
      · refine ⟨?_, ?_, ?_⟩
        · intro k hk
          simp only [State.raise_trackers, State.raise_ports]
          exact ⟨OtherTrackers.updTracker s l _ k hk, oth s _ k hk⟩
        · simp only [State.raise_trackers]
          exact State.updTracker_at s l _
        · simp only [State.raise_ports]
          show ((s.updPort l _).ports[l]).cnt.malformed = _
          rw [State.updPort_ports, updAt_get, if_pos rfl] <;> (cases x <;> rfl)
      · refine ⟨?_, ?_, ?_⟩
        · intro k hk
          exact ⟨OtherTrackers.updTracker s l _ k hk, oth s _ k hk⟩
        · exact State.updTracker_at s l _
        · show ((s.updPort l _).ports[l]).cnt.malformed = _
          rw [State.updPort_ports, updAt_get, if_pos rfl] <;> (cases x <;> rfl)
    cases it with
    | restart =>
      dsimp only
      refine ⟨?_, rfl, ?_, fun _ => rfl⟩
      · intro k hk
        exact ⟨rfl, (oth _ _ k hk).trans (oth _ _ k hk)⟩
      · intro _
        rw [State.updPort_ports, updAt_get, if_pos rfl, State.updPort_ports, updAt_get, if_pos rfl]
        rfl
    | frame q f =>
      dsimp only
      obtain ⟨j1, j2, j3⟩ := hjoin (.frame q f)
      refine ⟨?_, ?_, ?_, by simp⟩
      · intro k hk
        exact ⟨(j1 k hk).1, (oth _ _ k hk).trans (j1 k hk).2⟩
      · simp only [State.updPort_trackers, j2]
      · intro _
        rw [State.updPort_ports, updAt_get, if_pos rfl]
        exact j3
    | malformed kd q =>
      dsimp only
      obtain ⟨j1, j2, j3⟩ := hjoin (.malformed kd q)
      refine ⟨?_, ?_, fun h => absurd rfl (h kd q), by simp⟩
      · intro k hk
        exact ⟨(j1 k hk).1, (oth _ _ k hk).trans (j1 k hk).2⟩
      · simp only [State.updPort_trackers, j2]

/-- A tracker's turn at the arbiter: its command finds the work in hand. -/
theorem State.turnOf_of_turn {s : State} {l : Fin 4} {w : Work} (h : Turn s l w) : s.turnOf l = some w := by
  unfold State.turnOf
  rw [if_pos h.1]
  exact h.2

end Sys2Proof.Machine
end

