-- ==== Sys2Proof/Laws/Items.lean ====
section
/-! SUPPORT. How an item goes on after the result of a genealogy operation, once: the last steps of an item as a relation between the line
before and after (R74, R78 to R81), every other step it can have left, and the answer of an event of the host. -/

namespace Sys2Proof.Machine

/-! ## Crossings of one segment -/

namespace Crossed

theorem refl (x : Segment) : Crossed x x := ⟨rfl, fun _ => rfl, fun _ => rfl, fun _ => ⟨rfl, rfl⟩, .inl rfl⟩

theorem ft {x y : Segment} (h : Crossed x y) : y.ft = x.ft := by rw [h.1]

theorem trans {x y z : Segment} (h : Crossed x y) (k : Crossed y z) : Crossed x z := by
  have hf := h.ft
  obtain ⟨h1, h2, h3, h4, h5⟩ := h
  obtain ⟨k1, k2, k3, k4, k5⟩ := k
  refine ⟨?_, ?_, ?_, ?_, ?_⟩
  · rw [k1, h1]
  · intro hx
    have e := h2 hx
    rw [k2 (by rw [e]; exact hx), e]
  · intro hx
    have e := h3 hx
    rw [k3 (by rw [e]; exact hx), e]
  · intro hx
    have e := h4 hx
    have e' := k4 (by rw [hf]; exact hx)
    exact ⟨e'.1.trans e.1, e'.2.trans e.2⟩
  · rcases h5 with h5 | ⟨h5, h6⟩
    · rcases k5 with k5 | ⟨k5, k6⟩
      · exact .inl (k5.trans h5)
      · exact .inr ⟨h5 ▸ k5, k6⟩
    · rcases k5 with k5 | ⟨k5, _⟩
      · exact .inr ⟨h5, k5.trans h6⟩
      · rw [h6] at k5; cases k5

end Crossed

/-! ## The map through the last steps -/

/-- The map part of `RanLast`, for an exit head. -/
def MapRan (hx : Option Nat) (m m' : List Segment) : Prop :=
  ∃ n, m'.length + n = m.length ∧
    (∀ (k : Nat) (x : Segment), k < n → m[k]? = some x → (x.ft ≠ none ∨ x.dt ≠ none) ∧ ∃ e, hx = some e ∧ ∀ d, x.dt = some d → d ≤ e) ∧
    ∀ (k : Nat) (x : Segment), m[k + n]? = some x → ∃ y, m'[k]? = some y ∧ Crossed x y

namespace MapRan

theorem of_pointwise {hx : Option Nat} {m m' : List Segment} (hl : m'.length = m.length)
    (h : ∀ (k : Nat) (x : Segment), m[k]? = some x → ∃ y, m'[k]? = some y ∧ Crossed x y) : MapRan hx m m' :=
  ⟨0, hl, fun _ _ hk => absurd hk (Nat.not_lt_zero _), h⟩

theorem refl (hx : Option Nat) (m : List Segment) : MapRan hx m m :=
  of_pointwise rfl (fun _ x h => ⟨x, h, Crossed.refl x⟩)

theorem modify {hx : Option Nat} {m : List Segment} {i : Nat} {f : Segment → Segment}
    (h : ∀ x, m[i]? = some x → Crossed x (f x)) : MapRan hx m (m.modify i f) := by
  refine of_pointwise (by simp) (fun k x hk => ?_)
  rw [List.getElem?_modify]
  by_cases e : i = k
  · subst e
    exact ⟨f x, by simp [hk], h x hk⟩
  · exact ⟨x, by simp [hk, e], Crossed.refl x⟩

theorem trans {hx : Option Nat} {m m' m'' : List Segment} (h : MapRan hx m m') (k : MapRan hx m' m'') : MapRan hx m m'' := by
  obtain ⟨n, hl, hg, hs⟩ := h
  obtain ⟨n', kl, kg, ks⟩ := k
  refine ⟨n' + n, by omega, ?_, ?_⟩
  · intro j x hj hx'
    by_cases hn : j < n
    · exact hg j x hn hx'
    · obtain ⟨i, rfl⟩ : ∃ i, j = i + n := ⟨j - n, by omega⟩
      obtain ⟨y, hy, hc⟩ := hs i x hx'
      obtain ⟨c, e, he, hd⟩ := kg i y (by omega) hy
      refine ⟨?_, e, he, fun d hd' => hd d ?_⟩
      · by_cases hf : x.ft = none
        · rcases c with c | c
          · exact absurd (hc.ft.trans hf) c
          · exact .inr ((hc.2.2.2.1 hf).1 ▸ c)
        · exact .inl hf
      · rw [hc.2.2.1 (by rw [hd']; simp), hd']
  · intro j x hx'
    rw [← Nat.add_assoc] at hx'
    obtain ⟨y, hy, hc⟩ := hs _ x hx'
    obtain ⟨z, hz, hc'⟩ := ks _ y hy
    exact ⟨z, hz, hc.trans hc'⟩

end MapRan

/-- The leaving check drops PASSED segments at or below the exit head from the front (R81). -/
theorem leaving_drop (hx : Nat) (m : List Segment) :
    ∃ n, n ≤ m.length ∧ leaving hx m = m.drop n ∧ ∀ k x, k < n → m[k]? = some x → ∃ d, x.dt = some d ∧ d ≤ hx := by
  induction m with
  | nil => exact ⟨0, Nat.le_refl _, rfl, fun _ _ h => absurd h (Nat.not_lt_zero _)⟩
  | cons g gs ih =>
    have stay : leaving hx (g :: gs) = g :: gs →
        ∃ n, n ≤ (g :: gs).length ∧ leaving hx (g :: gs) = (g :: gs).drop n ∧
          ∀ k x, k < n → (g :: gs)[k]? = some x → ∃ d, x.dt = some d ∧ d ≤ hx :=
      fun h => ⟨0, Nat.zero_le _, h, fun _ _ h => absurd h (Nat.not_lt_zero _)⟩
    cases hd : g.dt with
    | none => exact stay (by unfold leaving; rw [hd])
    | some d =>
      by_cases hle : d ≤ hx
      · obtain ⟨n, hn, he, hk⟩ := ih
        refine ⟨n + 1, by simpa using hn, ?_, ?_⟩
        · unfold leaving
          rw [hd]
          simp only [hle, if_true, List.drop_succ_cons]
          exact he
        · intro k x hk' hx'
          cases k with
          | zero =>
            simp only [List.getElem?_cons_zero, Option.some.injEq] at hx'
            subst hx'
            exact ⟨d, hd, hle⟩
          | succ k => exact hk k x (by omega) (by simpa using hx')
      · exact stay (by unfold leaving; rw [hd]; simp [hle])

theorem MapRan.left (a : Tracker) : MapRan a.exit.head a.map a.left.map := by
  unfold Tracker.left
  cases he : a.exit.head with
  | none => exact MapRan.refl _ _
  | some hx =>
    obtain ⟨n, hn, e, hd⟩ := leaving_drop hx a.map
    refine ⟨n, ?_, ?_, ?_⟩
    · show (leaving hx a.map).length + n = _
      rw [e, List.length_drop]
      omega
    · intro k x hk hx'
      obtain ⟨d, h1, h2⟩ := hd k x hk hx'
      refine ⟨.inr (by rw [h1]; simp), hx, rfl, fun d' h => ?_⟩
      rw [h1] at h
      cases h
      exact h2
    · intro k x hx'
      refine ⟨x, ?_, Crossed.refl x⟩
      show (leaving hx a.map)[k]? = _
      rw [e, List.getElem?_drop, Nat.add_comm]
      exact hx'

/-! ## The steps of an item on its tracker alone -/

/-- What the steps `ks`, gone on with after a result, leave of their tracker. -/
def Tracker.goOn (fromPort : Bool) : List Task → Tracker → Tracker
  | [], a => { a with work := none }
  | k :: ks, a =>
    match (a.task k).op with
    | none => Tracker.goOn fromPort ks (a.task k).tracker
    | some (op, i) =>
      { (a.task k).tracker with work := some { op := op, presented := false, seg := i, todo := ks, fromPort := fromPort } }

/-- How an item goes on does not depend on the work in hand before. -/
theorem ItemGoesOn.work (v : Option Work) {ks : List Task} {p : Bool} {a b : Tracker} (h : ItemGoesOn ks p { a with work := v } b) :
    ItemGoesOn ks p a b := by
  induction ks generalizing a with
  | nil => exact h
  | cons k ks ih =>
    cases k with
    | removeLast => exact ih (a := { a with map := a.map.dropLast }) h
    | setExit x ns => exact ih (a := { a with exit := { head := some x, names := ns, suspect := a.state == .uncertain } }) h
    | emptyMap => exact ih (a := { a with map := [], exit := { head := some a.delivery, names := [], suspect := false } }) h
    | drop i => exact ⟨h.1, fun hx => ih (h.2 hx)⟩
    | _ => exact h

/-- The tracker after an item's steps, while they run. -/
theorem State.runTasks_at (s : State) (l : Fin 4) (p : Bool) (ks : List Task) :
    { (s.runTasks l p ks).trackers[l] with
      work := ((s.runTasks l p ks).trackers[l]).work.map (fun x => { x with presented := false }) }
      = Tracker.goOn p ks s.trackers[l] := by
  induction ks generalizing s with
  | nil =>
    unfold State.runTasks
    simp only [State.itemDone_at]
    rfl
  | cons k ks ih =>
    have hop : (s.task l k).2 = ((s.trackers[l]).task k).op := rfl
    unfold State.runTasks Tracker.goOn
    dsimp only
    rw [hop]
    cases ho : ((s.trackers[l]).task k).op with
    | none =>
      have := ih (s.task l k).1
      rw [State.task_at] at this
      exact this
    | some q =>
      dsimp only
      rw [State.updTracker_at, State.task_at]
      rfl

/-- The tracker after an item has gone on with a result. -/
theorem State.resumeItem_at (s : State) (l : Fin 4) (w : Work) (first : List Task) :
    (s.resumeItem l w first).trackers[l] = Tracker.goOn w.fromPort (first ++ w.todo) { s.trackers[l] with work := none } := by
  unfold State.resumeItem
  rw [State.updTracker_at]
  have := State.runTasks_at (s.updTracker l (fun t => { t with work := none })) l w.fromPort (first ++ w.todo)
  rw [State.updTracker_at] at this
  exact this

/-! ## The last steps -/

theorem LastSteps.tail {k : Task} {ks : List Task} (h : LastSteps (k :: ks)) : LastSteps ks := fun x hx => h x (by simp [hx])

/-- What one of the last steps does to its tracker: the map as crossings and the leaving check change it; the pair only by its keeping. -/
theorem Tracker.task_last (a : Tracker) (k : Task) (h : (∃ i, k = .crossHead i ∨ k = .crossTail i) ∨ k = .keepPair ∨ k = .leave) :
    let b := (a.task k).tracker
    b = { a with pair := if k = .keepPair then some (a.feed, a.delivery) else a.pair, map := b.map,
                 cnt := { a.cnt with trackFaults := b.cnt.trackFaults } } ∧
    MapRan a.exit.head a.map b.map ∧
    ∀ op i, (a.task k).op = some (op, i) → ∃ x q, b.map[i]? = some x ∧ x.coil = some q ∧
      (op = .dropPending q ∧ x.fault = .trackFault ∨
        ∃ ft dh dt len, op = .finalize q x.orient x.fh ft dh dt len x.suspect ∧ x.ft = some ft ∧ x.dh = some dh ∧ x.length = some len ∧
          x.fault = .none) := by
  rcases h with ⟨i, rfl | rfl⟩ | rfl | rfl
  · -- the head of a segment
    unfold Tracker.task
    dsimp only
    cases hx : a.map[i]? with
    | none => exact ⟨rfl, MapRan.refl _ _, fun _ _ h => by cases h⟩
    | some g =>
      dsimp only
      by_cases hd : a.headDue g = true
      · rw [if_pos hd]
        refine ⟨rfl, ?_, fun _ _ h => by cases h⟩
        refine MapRan.modify (fun x hx' => ?_)
        rw [hx] at hx'
        cases hx'
        have hn : g.dh = none := by
          unfold Tracker.headDue at hd
          simp only [Bool.and_eq_true, Option.isNone_iff_eq_none] at hd
          exact hd.1
        exact ⟨rfl, fun h => absurd hn h, fun _ => rfl, fun _ => ⟨rfl, rfl⟩, .inl rfl⟩
      · rw [if_neg hd]
        exact ⟨rfl, MapRan.refl _ _, fun _ _ h => by cases h⟩
  · -- the tail of a segment
    unfold Tracker.task
    dsimp only
    cases hx : a.map[i]? with
    | none => exact ⟨rfl, MapRan.refl _ _, fun _ _ h => by cases h⟩
    | some g =>
      dsimp only
      cases hf : g.ft with
      | none => exact ⟨rfl, MapRan.refl _ _, fun _ _ h => by cases h⟩
      | some ft =>
        dsimp only
        by_cases hd : a.tailDue g = true
        · rw [if_pos hd]
          have hn : g.dt = none := by
            unfold Tracker.tailDue at hd
            simp only [Bool.and_eq_true, Option.isNone_iff_eq_none] at hd
            exact hd.1
          unfold Tracker.crossTail
          dsimp only
          have marked : MapRan a.exit.head a.map (a.map.modify i (fun g => { g with dt := some (a.crossAt ft) })) := by
            refine MapRan.modify (fun x hx' => ?_)
            rw [hx] at hx'
            cases hx'
            exact ⟨rfl, fun _ => rfl, fun h => absurd hn h, fun h => (by rw [hf] at h; cases h), .inl rfl⟩
          have faulted (r : Option Ref) (hc : g.coil = r) (hz : g.fault = .none) :
              let b := ((a.modSeg i (fun g => { g with dt := some (a.crossAt ft) })).trackFault i r)
              b.tracker = { a with pair := a.pair, map := b.tracker.map, cnt := { a.cnt with trackFaults := b.tracker.cnt.trackFaults } } ∧
              MapRan a.exit.head a.map b.tracker.map ∧
              ∀ op j, b.op = some (op, j) → ∃ x q, b.tracker.map[j]? = some x ∧ x.coil = some q ∧
                (op = .dropPending q ∧ x.fault = .trackFault ∨
                  ∃ ft dh dt len, op = .finalize q x.orient x.fh ft dh dt len x.suspect ∧ x.ft = some ft ∧ x.dh = some dh ∧
                    x.length = some len ∧ x.fault = .none) := by
            refine ⟨rfl, ?_, ?_⟩
            · refine marked.trans (MapRan.modify (fun x hx' => ?_))
              simp only [List.getElem?_modify, hx, if_true, Option.map_eq_map, Option.map_some, Option.some.injEq] at hx'
              subst hx'
              exact ⟨rfl, fun _ => rfl, fun _ => rfl, fun h => (by rw [hf] at h; cases h), .inr ⟨hz, rfl⟩⟩
            · intro op j ho
              cases r with
              | none => cases ho
              | some q =>
                cases ho
                refine ⟨{ g with dt := some (a.crossAt ft), fault := .trackFault }, q, ?_, hc, .inl ⟨rfl, rfl⟩⟩
                show (((a.map.modify i _).modify i _)[i]?) = _
                simp [hx]
          cases hz : g.fault with
          | none =>
            dsimp only
            cases hc : g.coil with
            | none => exact faulted none hc hz
            | some q =>
              cases hlen : g.length with
              | none => exact faulted (some q) hc hz
              | some len =>
                dsimp only
                split
                · exact faulted (some q) hc hz
                · next hout =>
                  refine ⟨rfl, MapRan.refl _ _, fun op j ho => ?_⟩
                  cases ho
                  refine ⟨g, q, hx, hc, .inr ⟨ft, g.dh.getD (a.crossAt ft), a.crossAt ft, len, rfl, hf, ?_, hlen, hz⟩⟩
                  cases hdh : g.dh with
                  | none => exact absurd (.inl (by rw [hdh]; rfl)) hout
                  | some dh => rfl
          | trackFault => exact ⟨rfl, marked, fun _ _ h => by cases h⟩
          | detached => exact ⟨rfl, marked, fun _ _ h => by cases h⟩
        · rw [if_neg hd]
          exact ⟨rfl, MapRan.refl _ _, fun _ _ h => by cases h⟩
  · exact ⟨rfl, MapRan.refl _ _, fun _ _ h => by cases h⟩
  · refine ⟨?_, MapRan.left a, fun _ _ h => by cases h⟩
    show a.left = { a with map := a.left.map, cnt := { a.cnt with trackFaults := a.left.cnt.trackFaults } }
    unfold Tracker.left
    split <;> rfl

/-- The last steps run as `RanLast` says. -/
theorem Tracker.goOn_ranLast (p : Bool) {ks : List Task} (h : LastSteps ks) (a : Tracker) : RanLast ks p a (Tracker.goOn p ks a) := by
  induction ks generalizing a with
  | nil => exact ⟨rfl, MapRan.refl a.exit.head a.map, fun _ => rfl, fun v hv => by cases hv⟩
  | cons k ks ih =>
    obtain ⟨t1, t2, t3⟩ := a.task_last k (h k (by simp))
    unfold Tracker.goOn
    cases ho : (a.task k).op with
    | none =>
      dsimp only
      obtain ⟨i1, i2, i3, i4⟩ := ih h.tail (a.task k).tracker
      generalize (a.task k).tracker = t at *
      generalize Tracker.goOn p ks t = b at *
      have e : t.exit = a.exit := by rw [t1]
      refine ⟨by rw [i1, t1], ?_, ?_, i4⟩
      · rw [e] at i2
        exact MapRan.trans t2 i2
      · intro hw
        have ef : t.feed = a.feed := by rw [t1]
        have ed : t.delivery = a.delivery := by rw [t1]
        have ep : t.pair = if k = .keepPair then some (a.feed, a.delivery) else a.pair := by rw [t1]
        rw [i3 hw, ef, ed, ep]
        by_cases hk : k = .keepPair
        · simp [hk]
        · have : Task.keepPair ≠ k := fun e => hk e.symm
          simp [hk, this]
    | some q =>
      obtain ⟨op, i⟩ := q
      dsimp only
      refine ⟨?_, t2, fun hw => (by cases hw), fun v hv => ?_⟩
      · generalize (a.task k).tracker = t at *
        rw [t1]
      · cases hv
        exact ⟨rfl, rfl, h.tail, t3 op i ho⟩

/-- The leaving check made twice is the leaving check. -/
theorem leaving_twice (hx : Nat) (m : List Segment) : leaving hx (leaving hx m) = leaving hx m := by
  induction m with
  | nil => rfl
  | cons g gs ih =>
    cases hd : g.dt with
    | none => simp [leaving, hd]
    | some d => by_cases h : d ≤ hx <;> simp [leaving, hd, h, ih]

theorem Tracker.left_left (a : Tracker) : a.left.left = a.left := by
  unfold Tracker.left
  cases h : a.exit.head with
  | none => simp [h]
  | some hx => simp [h, leaving_twice]

/-- The leaving check looks at neither pair nor work. -/
theorem Tracker.left_with (a : Tracker) (q : Option (Nat × Nat)) :
    ({ a with pair := q, work := none } : Tracker).left = { a.left with pair := q, work := none } := by
  unfold Tracker.left
  dsimp only
  split <;> rfl

/-- The leaving check makes no crossing due. -/
theorem NoneDue.left {a : Tracker} (h : NoneDue a) : NoneDue a.left := by
  have hm : ∀ x ∈ a.left.map, x ∈ a.map := by
    unfold Tracker.left
    split
    · exact fun x hx => hx
    · next hx _ =>
      obtain ⟨n, _, e, _⟩ := leaving_drop hx a.map
      show ∀ x ∈ leaving hx a.map, x ∈ a.map
      rw [e]
      exact fun x hx => List.mem_of_mem_drop hx
  intro x hx
  have := h x (hm x hx)
  rw [Tracker.left_eq]
  exact this

/-- With no crossing to make, the last steps keep the pair and make the leaving check. -/
theorem Tracker.goOn_settled (p : Bool) {ks : List Task} (h : LastSteps ks) (a : Tracker)
    (hn : (∀ k ∈ ks, k = .keepPair ∨ k = .leave) ∨ NoneDue a) :
    Tracker.goOn p ks a =
      (let c : Tracker := { a with pair := if .keepPair ∈ ks then some (a.feed, a.delivery) else a.pair, work := none }
       if .leave ∈ ks then c.left else c) := by
  induction ks generalizing a with
  | nil => rfl
  | cons k ks ih =>
    have due (t : Tracker) (ht : NoneDue a → NoneDue t) : (∀ k ∈ ks, k = .keepPair ∨ k = .leave) ∨ NoneDue t := by
      rcases hn with hn | hn
      · exact .inl (fun x hx => hn x (by simp [hx]))
      · exact .inr (ht hn)
    rcases h k (by simp) with ⟨i, rfl | rfl⟩ | rfl | rfl
    · have hd : NoneDue a := by
        rcases hn with hn | hn
        · rcases hn (.crossHead i) (by simp) with e | e <;> cases e
        · exact hn
      have ht : a.task (.crossHead i) = a.plain := by
        unfold Tracker.task
        dsimp only
        cases hx : a.map[i]? with
        | none => rfl
        | some g =>
          have hg := (hd g (List.mem_of_getElem? hx)).1
          have : a.headDue g = false := by
            unfold Tracker.headDue
            cases hdh : g.dh with
            | none => simpa using hg hdh
            | some d => rfl
          dsimp only
          rw [this]
          rfl
      unfold Tracker.goOn
      rw [ht]
      show Tracker.goOn p ks a = _
      rw [ih h.tail a (.inr hd)]
      simp
    · have hd : NoneDue a := by
        rcases hn with hn | hn
        · rcases hn (.crossTail i) (by simp) with e | e <;> cases e
        · exact hn
      have ht : a.task (.crossTail i) = a.plain := by
        unfold Tracker.task
        dsimp only
        cases hx : a.map[i]? with
        | none => rfl
        | some g =>
          have hg := (hd g (List.mem_of_getElem? hx)).2
          dsimp only
          cases hf : g.ft with
          | none => rfl
          | some f =>
            have : a.tailDue g = false := by
              unfold Tracker.tailDue
              cases hdt : g.dt with
              | none => simpa [hf] using hg f hf hdt
              | some d => rfl
            dsimp only
            rw [this]
            rfl
      unfold Tracker.goOn
      rw [ht]
      show Tracker.goOn p ks a = _
      rw [ih h.tail a (.inr hd)]
      simp
    · unfold Tracker.goOn
      refine (ih h.tail { a with pair := some (a.feed, a.delivery) } (due _ (fun h => h))).trans ?_
      simp
    · unfold Tracker.goOn
      refine (ih h.tail a.left (due _ NoneDue.left)).trans ?_
      have e : (if Task.keepPair ∈ ks then some (a.left.feed, a.left.delivery) else a.left.pair)
          = if Task.keepPair ∈ Task.leave :: ks then some (a.feed, a.delivery) else a.pair := by
        have kept := (Tracker.task_kept a .leave).1
        have ef : a.left.feed = a.feed := kept.feed
        have ed : a.left.delivery = a.delivery := kept.delivery
        have ep : a.left.pair = a.pair := Tracker.task_pair a .leave (by simp)
        rw [ef, ed, ep]
        simp
      dsimp only
      rw [e, if_pos (List.mem_cons_self ..), Tracker.left_with, Tracker.left_with, Tracker.left_left, ite_self]

/-! ## Going on with a result -/

/-- The tracker's own run of the steps left is as `ItemGoesOn` says. -/
theorem Tracker.goOn_goesOn (p : Bool) (ks : List Task) (a : Tracker) : ItemGoesOn ks p a (Tracker.goOn p ks a) := by
  have last : ∀ js : List Task, LastSteps js →
      RanLast js p a (Tracker.goOn p js a) ∧
      ((∀ k ∈ js, k = .keepPair ∨ k = .leave) ∨ NoneDue a →
        Tracker.goOn p js a =
          (let c : Tracker := { a with pair := if .keepPair ∈ js then some (a.feed, a.delivery) else a.pair, work := none }
           if .leave ∈ js then c.left else c)) :=
    fun js h => ⟨Tracker.goOn_ranLast p h a, Tracker.goOn_settled p h a⟩
  induction ks generalizing a with
  | nil => exact last []
  | cons k ks ih =>
    have rec_ (t : Tracker) : ItemGoesOn ks p t (Tracker.goOn p ks t) :=
      ih t (fun js h => ⟨Tracker.goOn_ranLast p h t, Tracker.goOn_settled p h t⟩)
    cases k with
    | removeLast => exact rec_ { a with map := a.map.dropLast }
    | setExit x ns => exact rec_ { a with exit := { head := some x, names := ns, suspect := a.state == .uncertain } }
    | emptyMap => exact rec_ { a with map := [], exit := { head := some a.delivery, names := [], suspect := false } }
    | make c ss => rfl
    | place o fh d n => rfl
    | drop i =>
      refine ⟨?_, ?_⟩
      · intro x q hx hc hf hh ht
        obtain ⟨d, hd⟩ := Option.ne_none_iff_exists'.1 hh
        unfold Tracker.goOn Tracker.task
        simp [hx, hc, hf, hd, ht, Tracker.plain]
      · intro hx
        have : a.task (.drop i) = a.plain := by
          unfold Tracker.task
          dsimp only
          split
          · rfl
          · next g hg =>
            split
            · next h1 h2 h3 h4 =>
              rcases hx g hg with e | e | e | e
              · rw [h1] at e; cases e
              · exact absurd h2 e
              · rw [h3] at e; cases e
              · exact absurd h4 e
            · rfl
        unfold Tracker.goOn
        rw [this]
        exact rec_ a
    | closeLast ft => exact last (.closeLast ft :: ks)
    | crossHead i => exact last (.crossHead i :: ks)
    | crossTail i => exact last (.crossTail i :: ks)
    | keepPair => exact last (.keepPair :: ks)
    | leave => exact last (.leave :: ks)

/-- An item goes on with a result as `ItemGoesOn` says. -/
theorem State.resumeItem_goesOn (s : State) (l : Fin 4) (w : Work) (first : List Task) :
    ItemGoesOn (first ++ w.todo) w.fromPort s.trackers[l] (s.resumeItem l w first).trackers[l] := by
  rw [State.resumeItem_at]
  exact (Tracker.goOn_goesOn _ _ _).work none

/-! ## A segment through the last steps -/

/-- With only last steps left, going on is what `ItemGoesOn` says of them. -/
theorem ItemGoesOn.last {ks : List Task} {p : Bool} {a b : Tracker} (h : ItemGoesOn ks p a b) (hl : LastSteps ks) :
    RanLast ks p a b ∧
    ((∀ k ∈ ks, k = .keepPair ∨ k = .leave) ∨ NoneDue a →
      b = (let c : Tracker := { a with pair := if .keepPair ∈ ks then some (a.feed, a.delivery) else a.pair, work := none }
           if .leave ∈ ks then c.left else c)) := by
  cases ks with
  | nil => exact h hl
  | cons k ks => rcases hl k (by simp) with ⟨i, rfl | rfl⟩ | rfl | rfl <;> exact h hl

/-- A segment changed in coil, length and fault alone stands after the last steps, if its feed tail is absent or no crossing falls due. -/
theorem ItemGoesOn.stands {ks : List Task} {p : Bool} {a b : Tracker} {cnt : TrackCounters} {i : Nat} {f : Segment → Segment}
    (hf : ∀ x, f x = { x with coil := (f x).coil, length := (f x).length, fault := (f x).fault })
    (h : ItemGoesOn ks p { a with map := a.map.modify i f, cnt := cnt } b) : Stands ks i f a b := by
  intro hl x hx hd hcase
  obtain ⟨hr, hn⟩ := h.last hl
  have hm : (a.map.modify i f)[i]? = some (f x) := by simp [hx]
  have hdt : (f x).dt = none := by rw [hf]; exact hd
  rcases hcase with hft | hnone
  · have hft' : (f x).ft = none := by rw [hf]; exact hft
    obtain ⟨_, ⟨n, hlen, hgone, hstay⟩, _⟩ := hr
    have hle : n ≤ i := by
      by_contra hc
      rcases (hgone i (f x) (by omega) hm).1 with e | e
      · exact e hft'
      · exact e hdt
    obtain ⟨y, hy, hc⟩ := hstay (i - n) (f x) (by rw [Nat.sub_add_cancel hle]; exact hm)
    refine ⟨n, y, by simpa using hlen, hle, hy, ?_⟩
    have e := hc.2.2.2.1 hft'
    exact hc.1.trans (by rw [e.1, e.2])
  · have hdue : NoneDue { a with map := a.map.modify i f, cnt := cnt } := by
      intro z hz
      obtain ⟨k, hk, e⟩ := List.getElem_of_mem hz
      have hz' : (a.map.modify i f)[k]? = some z := by rw [List.getElem?_eq_getElem hk, e]
      rw [List.getElem?_modify] at hz'
      cases hak : a.map[k]? with
      | none => simp [hak] at hz'
      | some u =>
        have hu := hnone u (List.mem_of_getElem? hak)
        by_cases hik : i = k
        · simp [hak, hik] at hz'
          subst hz'
          rw [hf u]
          exact hu
        · simp [hak, hik] at hz'
          subst hz'
          exact hu
    have em : b.map = a.map.modify i f ∨ ∃ e, b.map = leaving e (a.map.modify i f) := by
      rw [hn (.inr hdue)]
      dsimp only
      split
      · unfold Tracker.left
        cases he : a.exit.head with
        | none => exact .inl rfl
        | some e => exact .inr ⟨e, rfl⟩
      · exact .inl rfl
    rcases em with e | ⟨hx', e⟩
    · exact ⟨0, f x, by simp [e], Nat.zero_le _, by rw [e]; exact hm, rfl⟩
    · obtain ⟨n, hln, he, hdrop⟩ := leaving_drop hx' (a.map.modify i f)
      have hle : n ≤ i := by
        by_contra hc
        obtain ⟨d, hd', _⟩ := hdrop i (f x) (by omega) hm
        rw [hdt] at hd'
        cases hd'
      refine ⟨n, f x, ?_, hle, ?_, rfl⟩
      · rw [e, he, List.length_drop]
        simp at hln ⊢
        omega
      · rw [e, he, List.getElem?_drop, Nat.add_sub_cancel' hle]
        exact hm

/-! ## The answer of an event -/

/-- Two states agree in what a reply looks at. -/
def SameLink (s t : State) : Prop := t.slc.unit = s.slc.unit ∧ t.slc.replies = s.slc.replies ∧ t.slc.tx = s.slc.tx

namespace SameLink

variable {s t u : State}

theorem trans (h : SameLink s t) (k : SameLink t u) : SameLink s u := ⟨k.1.trans h.1, k.2.1.trans h.2.1, k.2.2.trans h.2.2⟩

theorem outgoing (h : SameLink s t) : t.outgoing = s.outgoing := by
  unfold State.outgoing
  rw [h.2.1, h.2.2]

theorem answered {f : Frame} (h : SameLink s t) (k : Answered t u f none) : Answered s u f none :=
  k.of_eq (by rw [h.2.1]) h.outgoing.symm rfl rfl

theorem of_slc (h : t.slc = s.slc) : SameLink s t := by unfold SameLink; simp [h]

end SameLink

/-- Raising a notice changes neither the Request Unit nor a reply. -/
theorem State.raise_link (s : State) (n : Notice) : SameLink s (s.raise n) := by
  rw [State.raise_eq]
  split
  · show SameLink s (s.updSlc _)
    have e : (s.slc.enterInst n).unit = s.slc.unit ∧ (s.slc.enterInst n).replies = s.slc.replies ∧ (s.slc.enterInst n).tx = s.slc.tx := by
      unfold Slc.enterInst
      split
      · exact ⟨rfl, rfl, rfl⟩
      · unfold Slc.setInst
        split <;> exact ⟨rfl, rfl, rfl⟩
    have k := (s.slc.enterInst n).takeNotice_cases n.cls (noticeFrame (n.payload none))
    unfold SameLink
    simp only [State.updSlc_slc]
    rcases k with ⟨_, k⟩ | ⟨_, _, k⟩ | ⟨_, _, k⟩ <;> rw [k] <;> exact e
  · exact .of_slc rfl

theorem State.raiseAll_link (s : State) (ns : List Notice) : SameLink s (s.raiseAll ns) := by
  induction ns generalizing s with
  | nil => exact .of_slc rfl
  | cons n ns ih => exact (s.raise_link n).trans (ih _)

/-- A step of an item changes neither the Request Unit nor a reply. -/
theorem State.task_link (s : State) (l : Fin 4) (k : Task) : SameLink s (s.task l k).1 := by
  unfold State.task
  dsimp only
  split
  · exact .of_slc rfl
  · exact (SameLink.of_slc rfl).trans (State.raise_link _ _)

/-- The steps of an item answer the event they belong to when they come to their end, and nothing before (R88, R90). -/
theorem State.runTasks_answered (s : State) (l : Fin 4) (p : Bool) (ks : List Task) :
    (∀ f, p = false → s.slc.unit = .event f l → ((s.runTasks l p ks).trackers[l]).work = none →
      Answered s (s.runTasks l p ks) (accepted f) none) ∧
    (p = true ∨ ((s.runTasks l p ks).trackers[l]).work ≠ none →
      (s.runTasks l p ks).slc.unit = s.slc.unit ∧ (s.runTasks l p ks).outgoing = s.outgoing) := by
  induction ks generalizing s with
  | nil =>
    constructor
    · intro f hp hu _
      subst hp
      have k := (s.updTracker l (fun t => { t with work := none })).finish_answered (accepted f) none
      have e : s.runTasks l false [] = (s.updTracker l (fun t => { t with work := none })).finish (accepted f) none := by
        show s.itemDone l false = _
        unfold State.itemDone State.accept
        simp [hu]
      rw [e]
      exact SameLink.answered (.of_slc rfl) k
    · intro h
      rcases h with rfl | h
      · exact ⟨rfl, rfl⟩
      · exact absurd (by show ((s.itemDone l p).trackers[l]).work = none; rw [State.itemDone_at]) h
  | cons k ks ih =>
    have q := s.task_link l k
    unfold State.runTasks
    dsimp only
    split
    · obtain ⟨i1, i2⟩ := ih (s.task l k).1
      refine ⟨fun f hp hu hw => q.answered (i1 f hp (q.1.trans hu) hw), fun h => ?_⟩
      obtain ⟨e1, e2⟩ := i2 h
      exact ⟨e1.trans q.1, e2.trans q.outgoing⟩
    · refine ⟨fun f _ _ hw => ?_, fun _ => ?_⟩
      · rw [State.updTracker_at] at hw
        cases hw
      · exact ⟨q.1, q.outgoing⟩

/-- An item that goes on after a result answers as `ItemAnswered` says. -/
theorem State.resumeItem_answered {s u : State} (h : SameLink s u) (l : Fin 4) (w : Work) (first : List Task) :
    ItemAnswered s (u.resumeItem l w first).kick l w := by
  unfold State.resumeItem
  set v := u.updTracker l (fun t => { t with work := none }) with hv
  obtain ⟨r1, r2⟩ := State.runTasks_answered v l w.fromPort (first ++ w.todo)
  have hl : SameLink s v := h.trans (.of_slc rfl)
  have work : ∀ (x : State), ((x.updTracker l (fun t => { t with work := t.work.map (fun x => { x with presented := false }) })).kick.trackers[l]).work
      = ((x.trackers[l]).work.map (fun x => { x with presented := false })) := by
    intro x
    rw [show (x.updTracker l (fun t => { t with work := t.work.map (fun x => { x with presented := false }) })).kick.trackers[l]
      = (x.updTracker l (fun t => { t with work := t.work.map (fun x => { x with presented := false }) })).trackers[l] by
        simp only [State.kick_trackers]]
    rw [State.updTracker_at]
  constructor
  · intro f hp hu hw
    rw [work] at hw
    have k := hl.answered (r1 f hp (hl.1.trans hu) (by simpa using hw))
    exact k.of_eq rfl rfl (by simp) (by simp; rfl)
  · intro hw
    have := r2 (hw.imp id (fun h e => h (by rw [work, e]; rfl)))
    refine ⟨?_, ?_⟩
    · simp only [State.kick_unit]
      exact this.1.trans hl.1
    · simp only [State.kick_outgoing]
      exact this.2.trans hl.outgoing

end Sys2Proof.Machine
end

