-- ==== Sys2Proof/Laws/Lineage.lean ====
section
/-! SUPPORT. The lineage walk's shared operations, once each: the bytes of a LINEAGE record, what writing one does (R174, R175), and what the
links of an answer make of a level (R168, R171). -/

namespace Sys2Proof.Machine

@[simp] theorem beBytes_length (n v : Nat) : (beBytes n v).length = n := by
  induction n generalizing v with
  | zero => rfl
  | succ n ih => simp [beBytes, ih]

@[simp] theorem beOpt_length (n : Nat) (v : Option Nat) : (beOpt n v).length = n := by cases v <;> simp [beOpt]

@[simp] theorem nameField_length (n : Option Name) : (nameField n).length = 17 := by simp [nameField]

/-- The 55 bytes of a LINEAGE record (section 11.4). -/
theorem lineage_record_bytes (x : Lineage) :
    x.record.bytes = [0x06#8, 55#8, byteOf x.kind.code, byteOf x.depth, byteOf x.lane.code, byteOf x.line,
          byteOf ((if x.reversed then 1 else 0) + (if x.pending then 2 else 0) + (if x.suspect then 4 else 0) + (if x.deeper then 8 else 0)), 0#8]
        ++ nameField (x.far.map (·.1)) ++ beOpt 2 (x.far.map (·.2.handle)) ++ beOpt 4 (x.far.map (·.2.seq)) ++ beOpt 4 x.scrap
        ++ beOpt 6 (x.target.map (·.lo)) ++ beOpt 6 (x.target.map (·.hi)) ++ beOpt 4 (x.span.map (·.lo)) ++ beOpt 4 (x.span.map (·.hi)) := by
  simp [Lineage.record, record]
  exact ⟨rfl, rfl⟩

theorem lineage_record_length (x : Lineage) : x.record.bytes.length = 55 := by simp [lineage_record_bytes]

@[simp] theorem lineage_record_counted (x : Lineage) : x.record.counted = true := rfl

/-- With fewer than 4,096 records the record is written and counted, among the gaps too if it is PENDING or RETIRED. -/
theorem writeLineage_writes {k : Walking} (h : k.2.records < 4096) (x : Lineage) :
    writeLineage k x =
      (let g := if x.pending then tallyGap k.1.gaps .pending else k.1.gaps
       ({ k.1 with recs := k.1.recs ++ [x.record], gaps := if x.kind = .retired then tallyGap g .retired else g },
        { k.2 with records := k.2.records + 1 })) := by
  unfold writeLineage lineageLimit
  rw [if_neg (by omega)]

/-- With 4,096 records the walk ends TRUNCATED. -/
theorem writeLineage_truncates {k : Walking} (h : 4096 ≤ k.2.records) (x : Lineage) : writeLineage k x = endWalk k .truncated := by
  unfold writeLineage lineageLimit
  rw [if_pos h]

/-- A level with the links of an answer: all but its links, its continuation and whether it has parents stays; the links keep their order,
but in the whole list of a REVERSED level of ANCESTRY. -/
theorem walk_fill (w : Walk) (lv : Level) (a : PlanCoil) :
    w.fill lv a = { lv with
      hasParents := a.hasParents
      next := a.next
      links := if w.up && lv.reversed && a.next.isNone then (lv.links ++ a.links).reverse else lv.links ++ a.links } := by
  unfold Walk.fill Level.fill
  cases w.up <;> simp

/-- The records a frame takes and those left over are the records at hand. -/
theorem splitFrame_append {limit : Nat} {rs f rest : List Rec} {size count : Nat} (h : splitFrame limit rs size count = some (f, rest)) :
    f ++ rest = rs := by
  induction rs generalizing size count f with
  | nil => simp [splitFrame] at h
  | cons x xs ih =>
    rw [splitFrame] at h
    by_cases h1 : recordArea < size + x.bytes.length
    · rw [if_pos h1] at h
      cases h
      rfl
    · rw [if_neg h1] at h
      dsimp only at h
      generalize (if x.counted = true then count + 1 else count) = n at h
      by_cases h2 : (x.counted && decide (limit ≤ n)) = true
      · rw [if_pos h2] at h
        cases h
        rfl
      · rw [if_neg h2, Option.map_eq_some_iff] at h
        obtain ⟨q, hq, e⟩ := h
        cases e
        rw [List.cons_append, ih hq]

end Sys2Proof.Machine
end

