-- ==== Sys2Proof/Laws/Notices.lean ====
section
/-! SUPPORT. What raising notices does, once (R183, R194): the masked and dropped counts and the notices queued, and for an item of a line
the TRACK FAULT notices its last steps raise (R80, R92). -/

namespace Sys2Proof.Machine

/-- The bytes the statements give a notice are those the part sends (section 11.3). -/
theorem noticeBytes_eq (n : Notice) (rep : Option Nat) : noticeBytes n rep = n.payload rep := by
  unfold noticeBytes Notice.payload
  cases n.cls <;> cases rep <;> rfl

/-- The notices raised between two states of one transmission, the settings and the part state kept. -/
structure Tells (ns : List Notice) (s t : State) : Prop where
  ready : t.startUp.ready = s.startUp.ready
  settings : t.slc.settings = s.slc.settings
  tx : t.slc.tx = s.slc.tx
  taken : (t.slc.masked, t.slc.dropped, t.slc.notices) =
    let q := (if s.startUp.ready then ns else []).foldl (noticeTake s.slc.settings s.slc.notices.length) (s.slc.masked, s.slc.dropped, [])
    (q.1, q.2.1, s.slc.notices ++ q.2.2)

/-- Notices queued before are ahead of those a fold queues. -/
theorem noticeTake_shift (c : NoticeSettings) (k : Nat) (xs : List Frame) (ns : List Notice) (m d : Nat) (ys : List Frame) :
    ns.foldl (noticeTake c k) (m, d, xs ++ ys) =
      ((ns.foldl (noticeTake c (k + xs.length)) (m, d, ys)).1, (ns.foldl (noticeTake c (k + xs.length)) (m, d, ys)).2.1,
        xs ++ (ns.foldl (noticeTake c (k + xs.length)) (m, d, ys)).2.2) := by
  induction ns generalizing m d ys with
  | nil => rfl
  | cons n ns ih =>
    rw [List.foldl_cons, List.foldl_cons]
    have e : noticeTake c k (m, d, xs ++ ys) n =
        ((noticeTake c (k + xs.length) (m, d, ys) n).1, (noticeTake c (k + xs.length) (m, d, ys) n).2.1,
          xs ++ (noticeTake c (k + xs.length) (m, d, ys) n).2.2) := by
      unfold noticeTake
      simp only [List.length_append, Nat.add_assoc]
      split
      · rfl
      · split
        · simp
        · rfl
    rw [e]
    exact ih _ _ _

namespace Tells

variable {ns ms : List Notice} {s t u : State}

theorem of_slc (hr : t.startUp = s.startUp) (h : t.slc = s.slc) : Tells [] s t := by
  refine ⟨by rw [hr], by rw [h], by rw [h], ?_⟩
  rw [h]
  cases s.startUp.ready <;> simp

theorem trans (h : Tells ns s t) (k : Tells ms t u) : Tells (ns ++ ms) s u := by
  refine ⟨k.ready.trans h.ready, k.settings.trans h.settings, k.tx.trans h.tx, ?_⟩
  rw [k.taken, h.ready, h.settings]
  obtain ⟨e1, e2, e3⟩ : _ ∧ _ ∧ _ := by simpa [Prod.mk.injEq] using h.taken
  cases hr : s.startUp.ready
  · simp [hr] at e1 e2 e3 ⊢
    exact ⟨e1, e2, e3⟩
  · simp only [hr, if_true] at e1 e2 e3 ⊢
    rw [List.foldl_append]
    set q := ns.foldl (noticeTake s.slc.settings s.slc.notices.length) (s.slc.masked, s.slc.dropped, []) with hq
    have := noticeTake_shift s.slc.settings s.slc.notices.length q.2.2 ms q.1 q.2.1 []
    simp only [List.append_nil] at this
    rw [show q = (q.1, q.2.1, q.2.2) from rfl, this, e1, e2, e3]
    simp

/-- A change outside the link and the part state raises nothing. -/
theorem frame (h : Tells ns s t) (hr : u.startUp = t.startUp) (hs : u.slc = t.slc) : Tells ns s u := by
  simpa using h.trans (.of_slc hr hs)

theorem kick (h : Tells ns s t) : NoticesTaken ns s t.kick := by
  unfold NoticesTaken
  obtain ⟨e1, e2, e3⟩ : _ ∧ _ ∧ _ := by simpa [Prod.mk.injEq] using h.taken
  rw [State.kick_announced]
  have ek := State.kick_slc t
  refine ⟨?_, ?_, ?_⟩
  · rw [ek]; exact e1
  · rw [ek]; exact e2
  · unfold State.announced
    rw [e3, h.tx]
    cases s.slc.tx <;> simp

end Tells

/-- Raising a notice. -/
theorem State.raise_tells (s : State) (n : Notice) : Tells [n] s (s.raise n) := by
  rw [State.raise_eq]
  cases hr : s.startUp.ready
  · simp only [Bool.false_eq_true, if_false]
    exact ⟨rfl, rfl, rfl, by simp [hr]⟩
  · simp only [if_true]
    have e : (s.slc.enterInst n).settings = s.slc.settings ∧ (s.slc.enterInst n).tx = s.slc.tx ∧
        (s.slc.enterInst n).masked = s.slc.masked ∧ (s.slc.enterInst n).dropped = s.slc.dropped ∧
        (s.slc.enterInst n).notices = s.slc.notices := by
      unfold Slc.enterInst
      split
      · exact ⟨rfl, rfl, rfl, rfl, rfl⟩
      · unfold Slc.setInst
        split <;> exact ⟨rfl, rfl, rfl, rfl, rfl⟩
    obtain ⟨a, b, c, d, f⟩ := e
    refine ⟨rfl, ?_, ?_, ?_⟩ <;>
      simp only [State.updSlc_slc, Slc.takeNotice, hr, if_true, List.foldl_cons, List.foldl_nil, noticeTake, noticeBytes_eq, a, f,
        List.length_nil, Nat.add_zero]
    · split
      · split <;> rfl
      · rfl
    · split
      · split <;> exact b
      · exact b
    · cases s.slc.settings.enabled n.cls
      · simp [c, d]
      · by_cases hk : s.slc.notices.length < 8 <;> simp [hk, c, d]

theorem State.raiseAll_tells (s : State) (ns : List Notice) : Tells ns s (s.raiseAll ns) := by
  induction ns generalizing s with
  | nil => exact .of_slc rfl rfl
  | cons n ns ih => exact (s.raise_tells n).trans (ih (s.raise n))

/-- A step of an item raises the notice of the TRACK FAULT it finds, if any, and counts it. -/
theorem State.task_tells (s : State) (l : Fin 4) (k : Task) :
    ∃ faults : List (Option Ref), Tells (faults.map (faultNotice l s.table)) s (s.task l k).1 ∧
      ((s.task l k).1.trackers[l]).cnt.trackFaults = bumpTimes faults.length (s.trackers[l]).cnt.trackFaults := by
  have hat := s.task_at l k
  have hf : ((s.trackers[l]).task k).tracker.cnt.trackFaults =
      bumpTimes ((s.trackers[l]).task k).fault.toList.length (s.trackers[l]).cnt.trackFaults := by
    set t := s.trackers[l]
    have hp : ∀ x : Tracker, x.cnt = t.cnt → x.plain.tracker.cnt.trackFaults = bumpTimes x.plain.fault.toList.length t.cnt.trackFaults := by
      intro x hx
      show x.cnt.trackFaults = t.cnt.trackFaults
      rw [hx]
    unfold Tracker.task
    cases k with
    | closeLast ft =>
      dsimp only
      split
      · rfl
      · split
        · rfl
        · split <;> rfl
    | crossHead i =>
      dsimp only
      split
      · rfl
      · split <;> rfl
    | crossTail i =>
      dsimp only
      split
      · rfl
      · split
        · rfl
        · split
          · unfold Tracker.crossTail
            dsimp only
            split
            · split
              · split <;> rfl
              · rfl
            · rfl
          · rfl
    | drop i =>
      dsimp only
      split
      · rfl
      · split <;> rfl
    | leave => exact hp t.left (by unfold Tracker.left; split <;> rfl)
    | place => rfl
    | make => rfl
    | setExit => rfl
    | removeLast => rfl
    | keepPair => rfl
    | emptyMap => rfl
  refine ⟨((s.trackers[l]).task k).fault.toList, ?_, by rw [hat]; exact hf⟩
  unfold State.task
  dsimp only
  cases ((s.trackers[l]).task k).fault with
  | none => exact .of_slc rfl rfl
  | some q =>
    have := (Tells.of_slc (s := s) (t := s.updTracker l (fun _ => ((s.trackers[l]).task k).tracker) ) rfl rfl).trans
      (State.raise_tells _ (s.trackFaultNotice l q))
    exact this

theorem bumpTimes_add (m n k : Nat) : bumpTimes (m + n) k = bumpTimes n (bumpTimes m k) := by
  induction m generalizing k with
  | zero => simp [bumpTimes]
  | succ m ih => rw [Nat.add_right_comm]; exact ih (bump k)

/-- Completing a request raises nothing. -/
theorem State.finish_tells (s : State) (f : Frame) (o : Option (Fin 4)) : Tells [] s (s.finish f o) := by
  have e : (s.finish f o).slc.settings = s.slc.settings ∧ (s.finish f o).slc.tx = s.slc.tx ∧ (s.finish f o).slc.masked = s.slc.masked ∧
      (s.finish f o).slc.dropped = s.slc.dropped ∧ (s.finish f o).slc.notices = s.slc.notices := by
    unfold State.finish
    simp only [State.updSlc_slc]
    split <;> exact ⟨rfl, rfl, rfl, rfl, rfl⟩
  exact ⟨rfl, e.1, e.2.1, by rw [e.2.2.1, e.2.2.2.1, e.2.2.2.2]; cases s.startUp.ready <;> simp⟩

/-- The steps of an item raise the TRACK FAULTs they find, and count them. -/
theorem State.runTasks_tells (s : State) (l : Fin 4) (p : Bool) (ks : List Task) :
    ∃ faults : List (Option Ref), Tells (faults.map (faultNotice l s.table)) s (s.runTasks l p ks) ∧
      ((s.runTasks l p ks).trackers[l]).cnt.trackFaults = bumpTimes faults.length (s.trackers[l]).cnt.trackFaults := by
  induction ks generalizing s with
  | nil =>
    refine ⟨[], ?_, by show ((s.itemDone l p).trackers[l]).cnt.trackFaults = _; rw [State.itemDone_at]; rfl⟩
    show Tells [] s (s.itemDone l p)
    unfold State.itemDone
    dsimp only
    split
    · exact .of_slc rfl rfl
    · split
      · split
        · exact Tells.trans (ns := []) (t := s.updTracker l (fun t => { t with work := none })) (.of_slc rfl rfl)
            (State.finish_tells _ _ _)
        · exact .of_slc rfl rfl
      · exact .of_slc rfl rfl
  | cons k ks ih =>
    obtain ⟨fs, h, hn⟩ := s.task_tells l k
    unfold State.runTasks
    dsimp only
    split
    · obtain ⟨gs, g, gn⟩ := ih (s.task l k).1
      have ht : (s.task l k).1.table = s.table := ((Touches.refl [.trackers, .slc] s).task rfl rfl).table_eq
      rw [ht] at g
      refine ⟨fs ++ gs, ?_, ?_⟩
      · rw [List.map_append]
        exact h.trans g
      · rw [gn, hn, List.length_append, bumpTimes_add]
    · refine ⟨fs, ?_, by rw [State.updTracker_at]; exact hn⟩
      exact h.frame rfl rfl

/-- An item that goes on after the result of an operation that raised notices. -/
theorem State.resumeItem_raised {s u : State} {ns : List Notice} (h : Tells ns s u) (l : Fin 4) (w : Work) (first : List Task)
    (hc : (u.trackers[l]).cnt.trackFaults = (s.trackers[l]).cnt.trackFaults) : ItemRaised ns l s (u.resumeItem l w first).kick := by
  unfold State.resumeItem
  obtain ⟨fs, k, kn⟩ := (u.updTracker l (fun t => { t with work := none })).runTasks_tells l w.fromPort (first ++ w.todo)
  set v := (u.updTracker l (fun t => { t with work := none })).runTasks l w.fromPort (first ++ w.todo)
  have hv : v.table = u.table := ((Touches.refl [.trackers, .slc] (u.updTracker l (fun t => { t with work := none }))).runTasks rfl rfl).table_eq
  refine ⟨fs, ?_, ?_⟩
  · have e := ((h.frame (u := u.updTracker l (fun t => { t with work := none })) rfl rfl).trans k).frame
      (u := v.updTracker l (fun t => { t with work := t.work.map (fun x => { x with presented := false }) })) rfl rfl
    have := e.kick
    simp only [State.kick_table, State.updTracker_table, hv] at this ⊢
    exact this
  · simp only [State.kick_trackers]
    rw [State.updTracker_at]
    show (v.trackers[l]).cnt.trackFaults = _
    rw [kn, State.updTracker_at]
    show bumpTimes _ (u.trackers[l]).cnt.trackFaults = _
    rw [hc]

end Sys2Proof.Machine
end

