-- ==== Sys2Proof/Tests/Slice0.lean ====
section
/-! SUPPORT. Tests by evaluation: the refusals of well-formedness, a few commands against figures worked out by hand from the rules, and,
for each statement with hypotheses, concrete states and operands that meet them. -/

namespace Sys2Proof.Tests

open Sys2Proof Sys2Proof.Machine

/-! ## Small states and operands -/

/-- The part READY after a cold start, nothing defined. -/
def up : State :=
  { State.reset with startUp := { StartUp.initial with ready := true, start := none, valid := true } }

/-- Payloads as requests to the part. -/
def ask (p : List Byte) : Req := { channel := 0xFF#8, tag := 7#16, payload := p }

/-- Payloads as requests to channel 1. -/
def askCh (p : List Byte) : Req := { channel := 1#8, tag := 7#16, payload := p }

/-- A name of one character. -/
def nameA : Name := [0x41#8]
def nameB : Name := [0x42#8]

/-- An enabled line of two lanes, TRACKING at feed 1,000 and delivery 2,000. -/
def running : Tracker :=
  { Tracker.initial 2 with
    defn := { LineDef.initial 2 with enabled := true, pf := 10, pd := 20, lanes := 2 }
    state := .tracking
    timer := true
    feed := 1000
    delivery := 2000
    feedBase := some 500
    deliveryBase := some 700
    pair := some (1000, 2000)
    lastSeq := some 4 }

/-- A segment of coil 3, sequence 9, its head at feed 900. -/
def segment : Segment :=
  { coil := some { handle := 3, seq := 9 }, orient := .headFirst, length := some 300, fh := 900, ft := none, dh := none, dt := none,
    suspect := false, fault := .none }

/-- Line 2 as given, its port in HUNT. -/
def withLine (t : Tracker) : State := (up.updTracker 2 (fun _ => t)).updPort 2 (fun p => { p with rx := .hunt })

def withMap (m : List Segment) : State := withLine { running with map := m }

/-- A coil record in slot `h`. -/
def coil (h : Nat) (n : Name) (len : Option Nat) (st : CoilState) : Coil :=
  { handle := h, seq := h + 1, name := n, indexed := true, origin := .tracked, state := st, length := len, flags := {}, made := none,
    consumed := if st = .entered then some { line := 2, orient := .headFirst, fh := 900, ft := none } else none, parents := [],
    children := [] }

/-- The part with coils A in slot 0 and B in slot 1. -/
def twoCoils (st : CoilState) : State :=
  { up with table := { Genealogy.initial with coils := [coil 0 nameA (some 300) st, coil 1 nameB (some 500) .made], nextSeq := 3 } }

/-- The work of an operation for the first segment, with the last steps of an item of the port still to run. -/
def workOf (op : TrackOp) : Work := { op := op, presented := true, seg := 0, todo := lastTasks true true, fromPort := true }

/-- Line 2 with work at the arbiter and a map. -/
def presentingOn (m : List Segment) (w : Work) (s : State) : State := s.updTracker 2 (fun _ => { running with map := m, work := some w })

/-- An operation of line 2 at the arbiter, for the segment of coil 3. -/
def presenting (s : State) (op : TrackOp) : State := presentingOn [segment] (workOf op) s

/-- A playback run of channel 1 over one trace. -/
def playing : Play :=
  { traces := [{ slot := 5, dseq := 1, line := 2, side := .feed, lane := .whole, reduction := .mean, quantity := 1, unit := 1 }], res := 10,
    bins := 4, depth := 6, profile := 3, wins := [], nextBin := 4, nextWin := 1, planner := none, stopped := false, fetch := none,
    cache := none, emitBin := 4, held := [], prior := [], halt := none }

def runWith (b : RunBody) : Run :=
  { kind := .playback, tag := 9#16, target := .line 2, from_ := 0, end_ := 40, clamped := false, planOp := none, kept := none, recs := [],
    closed := none, frameNo := 0, sentFrames := 0, sentRecs := 0, gaps := Vector.replicate 9 0, firstFault := none, result := none, body := b }

def onChannel (st : ChanState) (r : Option Run) (g : Staged) : State :=
  up.updChannel 1 (fun _ => { state := st, staged := g, run := r })

/-- An open block of one reading at 60. -/
def block : OpenBlock := { first := 60, last := 60, entries := [(0, 5#16)], suspect := false }

/-- Slot 5 defined on line 2 with an open block, or without. -/
def withSlot (b : Option OpenBlock) : State :=
  (withLine running).updSlot 5 (fun d => { d with defined := true, dseq := 1, line := 2, gauge := 7, idle := 1, block := b })

/-- The state a command answers. -/
def after (c : Instr) (s : State) : State := match exec c s with | .next t => t | _ => s

/-! ## Meeting the common hypotheses -/

/-- A request that passes the first four checks, from one evaluation. -/
theorem admits {s : State} {k : Byte} {r : Req}
    (h : (s.linkUp && s.slc.unit == .free && s.slc.buffer.isEmpty && decide (r.payload.length ≤ 1024) && s.startUp.ready
      && lengthOk k r.payload && channelOk k r.channel) = true) : Admitted s k r := by
  simp only [Bool.and_eq_true, decide_eq_true_eq, beq_iff_eq, List.isEmpty_iff] at h
  obtain ⟨⟨⟨⟨⟨⟨h1, h2⟩, h3⟩, h4⟩, h5⟩, h6⟩, h7⟩ := h
  exact ⟨⟨h1, h2, .inr ⟨h3, h4⟩⟩, h5, h6, h7⟩

/-- An item arriving at a tracker between two items, from one evaluation. -/
theorem hands {s : State} {l : Fin 4} {it : Item}
    (h : (s.between l && !s.slc.unit.wants l && s.trackers[l].state != .undefined && (s.ports[l]).order.isEmpty
      && (s.ports[l]).rx == .hunt && (match it with | .frame _ f => frameFormOk f | _ => true)) = true) : ItemHanded s l it := by
  simp only [Bool.and_eq_true, bne_iff_ne, beq_iff_eq, List.isEmpty_iff, Bool.not_eq_true'] at h
  obtain ⟨⟨⟨⟨⟨h1, h2⟩, h3⟩, h4⟩, h5⟩, h6⟩ := h
  refine ⟨h1, h2, h3, .inr ⟨h4, h5, ?_⟩⟩
  cases it <;> first | exact h6 | trivial

/-- No tracker waits at the arbiter, from one evaluation. -/
theorem quiets {s : State} (h : ∀ l : Fin 4, (s.trackers[l]).waits = false) : TrackersQuiet s := by
  intro l w e
  have hl := h l
  unfold Tracker.waits at hl
  rw [e] at hl
  exact hl

/-! ## Well-formedness refuses -/

theorem test_wf_refuses_long_payload : (Instr.poll (ask (List.replicate 1025 0#8))).wf = false := by
  set_option maxRecDepth 10000 in decide

theorem test_wf_refuses_known_kind : (Instr.unknownKind 0x1F#8 (ask [])).wf = false := by decide

theorem test_wf_refuses_short_page : (Instr.read (.bytes [0#8])).wf = false := by decide

theorem test_wf_refuses_no_readings : (Instr.readings 0 0#8 1#8 0#32 1#16 ⟨[], none⟩ 0#32).wf = false := by decide

theorem test_wf_refuses_gauge_16 : (Instr.readings 0 0#8 16#8 0#32 1#16 ⟨[5#16], none⟩ 0#32).wf = false := by decide

theorem test_wf_refuses_stride_0 : (Instr.readings 0 0#8 1#8 0#32 0#16 ⟨[5#16], none⟩ 0#32).wf = false := by decide

theorem test_wf_refuses_empty_name : (Instr.entry 0 0#8 0#32 .headFirst 0#32 []).wf = false := by decide

theorem test_wf_refuses_space_in_name : (Instr.cut 0 0#8 0#32 0#32 [[0x20#8]]).wf = false := by decide

/-- No row of the table gives bits. -/
theorem test_no_word_spells_a_command : decodeTableWord 16 0x0102 = none := rfl

/-! ## Commands against figures worked out by hand -/

/-- R64: a feed count 40 ahead of its base moves the odometer by 40. -/
theorem test_position_moves_odometers :
    ((after (.position 2 5#8 540#32 730#32 0#32) (withLine running)).trackers[(2 : Fin 4)]).feed = 1040 := by decide

/-- R64: a count behind its base is a hold. -/
theorem test_position_holds :
    ((after (.position 2 5#8 499#32 730#32 0#32) (withLine running)).trackers[(2 : Fin 4)]).cnt.holds = 1 := by decide

/-- R43: the head at 900 + 10 lies behind the previous pair, so it crosses at delivery 2,000, and D_h is 2,020. -/
theorem test_position_crosses_head :
    ((after (.position 2 5#8 501#32 702#32 0#32) (withMap [segment])).trackers[(2 : Fin 4)]).map.map (·.dh) = [some 2020] := by decide

/-- R57: sequence 7 after 4 has missed two frames and makes the line UNCERTAIN. -/
theorem test_sequence_gap :
    let t := after (.position 2 7#8 501#32 702#32 0#32) (withLine running)
    ((t.ports[(2 : Fin 4)]).cnt.missed, (t.trackers[(2 : Fin 4)]).state) = (2, .uncertain) := by decide

/-- R98: a reading at feed 1,040 opens the slot's block there. -/
theorem test_readings_open_block :
    ((after (.readings 2 5#8 7#8 540#32 1#16 ⟨[33#16], none⟩ 0#32) (withSlot none)).capture.slots[(5 : Fin 64)]).block
      = some { first := 1040, last := 1040, entries := [(0, 33#16)], suspect := false } := by decide +kernel

/-- R83: a CUT on a line with nothing at the shear puts the exit record at the next head. -/
theorem test_cut_moves_exit :
    ((after (.cut 2 5#8 710#32 760#32 []) (withLine running)).trackers[(2 : Fin 4)]).exit.head = some 2060 := by decide

/-- R77: a TAIL without a segment is malformed. -/
theorem test_tail_without_segment :
    ((after (.tail 2 5#8 540#32) (withLine running)).ports[(2 : Fin 4)]).cnt.malformed = 1 := by decide

/-- R16: the first coil a cold part records has creation sequence 1 and slot 0. -/
theorem test_enter_coil_creates :
    ((after (.enterCoil 2) (presenting up (.enterCoil nameA .headFirst 900 300))).table.coils.map (fun c => (c.handle, c.seq, c.length)))
      = [(0, 1, some 300)] := by decide

/-- R17: a feed span of 100 becomes the length of a coil without one. -/
theorem test_close_entry_sets_length :
    ((after (.closeEntry 2) (presenting { up with table := { Genealogy.initial with coils := [coil 3 nameA none .entered] } }
      (.closeEntry { handle := 3, seq := 4 } 1000))).table.coils.map (fun c => (c.state, c.length))) = [(.consumed, some 100)] := by decide

/-- R76: behind ENTER COIL the crossings run, and the segment, its head crossed, has the record's reference and length. -/
theorem test_enter_coil_fills_segment :
    ((after (.enterCoil 2) (presenting up (.enterCoil nameA .headFirst 900 300))).trackers[(2 : Fin 4)]).map.map
      (fun g => (g.coil, g.length, g.dh.isSome, g.dt)) = [(some { handle := 0, seq := 1 }, some 300, true, none)] := by decide

/-- R76: NO MATERIAL removes the segment, DROP PENDING presented first since its head has crossed; a stale reference DETACHES it. -/
theorem test_close_entry_removes_or_detaches :
    (let crossed := { segment with ft := some 900, dh := some 1930 }
     let t := after (.closeEntry 2) (presentingOn [crossed] (workOf (.closeEntry { handle := 0, seq := 1 } 900)) (twoCoils .entered))
     let u := after (.dropPending 2) t
     ((t.trackers[(2 : Fin 4)]).map.length, (t.trackers[(2 : Fin 4)]).work.map (·.op), (u.trackers[(2 : Fin 4)]).map.length))
      = (1, some (.dropPending { handle := 3, seq := 9 }), 0) ∧
    ((after (.closeEntry 2) (presenting (twoCoils .entered) (.closeEntry { handle := 0, seq := 2 } 950))).trackers[(2 : Fin 4)]).map.map
      (fun g => (g.coil, g.fault)) = [(none, .detached)] := by decide

/-- R178: the sync pair opens a frame. -/
theorem test_sync_pair :
    (after (.linkByte 0x5A#8 true) (after (.linkByte 0xA5#8 true) up)).slc.rx = .frame [] := by decide

/-- R178: a length of 5 is too short for kind, channel, tag and CRC. -/
theorem test_length_error :
    (after (.linkByte 5#8 true) (up.updSlc (fun c => { c with rx := .frame [0#8] }))).slc.cnt.lengthErrors = 1 := by decide

/-- The CRC-16 of R55's kind over the nine digits 1 to 9 is 0x29B1. -/
theorem test_crc16_digits :
    crc16 [0x31#8, 0x32#8, 0x33#8, 0x34#8, 0x35#8, 0x36#8, 0x37#8, 0x38#8, 0x39#8] = 0x29B1#16 := by
  set_option maxRecDepth 10000 in decide

/-- R51: an own address begins a frame with a buffer. -/
theorem test_own_address_takes :
    ((after (.character 2 18#8 true false true 0) (withLine running)).ports[(2 : Fin 4)]).rx = .take := by decide

/-- R99: the idle timer closes a block and leaves its last coordinate as the mark. -/
theorem test_idle_timer_closes :
    ((after (.gaugeIdleExpiry 5) (withSlot (some block))).capture.slots[(5 : Fin 64)]).mark = some 60 := by decide

/-- R123: SET DEPTH takes 6 and refuses 7. -/
theorem test_set_depth :
    ((after (.setDepth (askCh [2#8])) up).channels[(1 : Fin 4)]).staged.depth = 2 ∧
    (after (.setDepth (askCh [7#8])) up).slc.cnt.refusals = 1 := by decide

/-- R125: RUN PLAYBACK with nothing staged is NOT STAGED, code 7 of R200. -/
theorem test_run_not_staged :
    (after (.runPlayback (askCh [])) up).outgoing = [refusal 0x16#8 (askCh []) .notStaged] := by decide

/-- R193: the release of RESET after a complete cold start begins a resume. -/
theorem test_release_begins_resume :
    (after (.resetReleased 2) { up with startUp := { up.startUp with ready := false, held := true } }).startUp.start = some .resume := by
  decide

/-! ## The spec's worked figures -/

/-- R112's CRC-32 over the nine digits 1 to 9. -/
theorem test_crc32_digits :
    crc32 [0x31#8, 0x32#8, 0x33#8, 0x34#8, 0x35#8, 0x36#8, 0x37#8, 0x38#8, 0x39#8] = 0xCBF43926#32 := by
  set_option maxRecDepth 10000 in decide

/-- Worked case HB-1 on line 1: the head and the tail crossing. -/
theorem test_hb1_crossings :
    crossing (some (1011800, 5000000)) 1012300 5000900 1012000 = 5000360 ∧
    crossing (some (1612100, 6801000)) 1612600 6802500 1612400 = 6801900 := by decide

/-- Worked case HB-1 on line 1: the parent span of the link of CR-7. -/
theorem test_hb1_final_span :
    finalSpan .headFirst 1000000 1600400 5030360 6831900 600000 { lo := 5400000, hi := 6300000 }
      = some { lo := 123109, hi := 422853 } := by decide

/-- Worked sequence PA-3: the scrap link, its high end cut to D_t. -/
theorem test_pa3_scrap_span :
    finalSpan .headFirst 399600 1000000 4430000 5030360 600000 { lo := 4995000, hi := 5400000 }
      = some { lo := 564662, hi := 600000 } := by decide

/-- Worked case: HB-1 cell 200,000 carried up to CR-7. -/
theorem test_cr7_point : (Stage.mk { lo := 0, hi := 900000 } { lo := 123109, hi := 422853 } .same).point 200000 = 230870 := by decide

/-- The small stage of child 0 to 4 and parent 100 to 110, REVERSED. -/
theorem test_small_reversed_stage :
    let st : Stage := { child := { lo := 0, hi := 4 }, parent := { lo := 100, hi := 110 }, dir := .reversed }
    ([100, 101, 102, 103, 104, 105, 106, 107, 108, 109].map st.point = [3, 3, 2, 2, 2, 1, 1, 0, 0, 0]) ∧
    st.boundary { lo := 2, hi := 3 } = { lo := 102, hi := 105 } ∧ st.image { lo := 101, hi := 106 } = some { lo := 1, hi := 4 } := by decide

/-- Counts across a wrap, a hold, a jump: odometer, base, effect, and the coordinate of the held count. -/
theorem test_counts_across_a_wrap :
    applyCount 12000000 (some 4294960000) 50000 3000 = (12010296, 3000, .moved) ∧
    applyCount 12010296 (some 3000) 50000 1000 = (12010296, 3000, .hold) ∧ coordOf 12010296 3000 1000 = 12008296 ∧
    applyCount 12010296 (some 3000) 50000 200000 = (12010296, 200000, .jump) := by decide

/-- One value of CR-7: MEAN of 1,203, 1,198 and 1,205, scaled by 640 and -1,000. -/
theorem test_cr7_value :
    let a := ((({} : Acc).add { raw := 1203, pos := 530525, bseq := 7729918, entry := 41 } false).add
      { raw := 1198, pos := 530190, bseq := 7729918, entry := 35 } false).add
      { raw := 1205, pos := 530858, bseq := 7729918, entry := 46 } false
    let p : Profile := { Profile.initial with gain := 640, offset := -1000 }
    (reduce .mean a).map (scale p) = some 2005 ∧ (reduce .last a).map (scale p) = some 2013 := by decide

/-- Saturation: 60,000 under S16 and under U8, -40 under U8. -/
theorem test_saturation :
    Encoding.encode .s16 60000 = (32767, true) ∧ Encoding.encode .u8 60000 = (254, true) ∧ Encoding.encode .u8 (-40) = (0, true) := by
  decide

/-- Holding: after two held bins the third is EMPTY under hold limit 2. -/
theorem test_hold_limit :
    let p : Profile := { Profile.initial with hold := 2 }
    let h1 := settleBin p .mean {} { value := some (2005, false, false), run := 0 }
    let h2 := settleBin p .mean {} h1.2
    let h3 := settleBin p .mean {} h2.2
    [h1.1.value, h2.1.value, h3.1.value] = [2005, 2005, -32768] ∧ h3.2.run = 2 := by decide

/-! ## What meets the hypotheses of the statements -/

theorem witness_StepRunsFrontCommand :
    ({ up with pending := [.gapTimeout] } : State).pending = .gapTimeout :: [] ∧ State.reset.pending = [] := ⟨rfl, rfl⟩

/-- One state for each of the four checks. -/
theorem witness_RequestChecksInOrder :
    (Handed State.reset 0x01#8 (ask []) ∧ State.reset.startUp.ready = false) ∧
    (Handed up 0x20#8 (ask []) ∧ (Instr.unknownKind 0x20#8 (ask [])).wf = true ∧ up.startUp.ready = true ∧ kindKnown 0x20#8 = false) ∧
    (Handed up 0x14#8 (askCh []) ∧ kindKnown 0x14#8 = true ∧ lengthOk 0x14#8 (askCh []).payload = false) ∧
    (Handed up 0x19#8 { channel := 4#8, tag := 1#16, payload := [] } ∧ lengthOk 0x19#8 [] = true ∧ channelOk 0x19#8 4#8 = false) :=
  ⟨⟨⟨rfl, rfl, .inr ⟨rfl, by decide⟩⟩, rfl⟩, ⟨⟨rfl, rfl, .inr ⟨rfl, by decide⟩⟩, by decide, rfl, by decide⟩,
    ⟨⟨rfl, rfl, .inr ⟨rfl, by decide⟩⟩, by decide, by decide⟩, ⟨⟨rfl, rfl, .inr ⟨rfl, by decide⟩⟩, by decide, by decide⟩⟩

theorem witness_IdentifyAnswersIdentity : FrameAtHand (up.withFrame (reqFrame 0x01#8 (ask []))) 0x01#8 (ask []) := by
  unfold FrameAtHand; decide

/-- Every kind of object at its last number, and each kind one beyond. -/
theorem witness_ReadDefinitionReturnsObject :
    ∀ q ∈ [(0, 3), (0, 4), (1, 63), (1, 64), (2, 15), (2, 16), (3, 3), (3, 4), (4, 0), (5, 0)],
      Admitted up 0x05#8 (ask [byteOf q.1, byteOf q.2]) ∧ field [byteOf q.1, byteOf q.2] 0 1 = q.1 ∧
      field [byteOf q.1, byteOf q.2] 1 1 = q.2 := by
  intro q hq
  refine ⟨admits ?_, ?_, ?_⟩ <;> revert q <;> decide

/-- A line definition as sent: line 2, enabled, address 18, P_f 10, P_d 20, two lanes. -/
def lineBytes (enabled : Byte) : List Byte :=
  [2#8, enabled, 18#8, 0#8, 0#8, 0#8, 0#8, 0#8, 10#8, 0#8, 0#8, 0#8, 20#8, 2#8, 0#8, 0#8, 0xC3#8, 0x50#8, 50#8]

/-- A gauge definition as sent: slot 5, line 2, gauge `n`, side DELIVERY, lane `lane`. -/
def gaugeBytes (options n lane : Byte) : List Byte :=
  [5#8, 1#8, options, 2#8, n, 1#8, 0#8, 0#8, 0#8, 0#8, lane, 1#8, 0#8, 0#8, 0#8, 9#8, 20#8]

def profileBytes (bins : Byte) : List Byte := [3#8, 0#8, 1#8, 0#8, 0#8, 0#8, 0#8, 0#8, 2#8, 0#8, bins, 0#8]

theorem witness_DefinitionsReadBackAsSent :
    ((lineBytes 1#8).length = 19 ∧ (lineOf (lineBytes 1#8)).isSome = true) ∧
    ((gaugeBytes 0#8 15#8 1#8).length = 17 ∧ ((gaugeOf (gaugeBytes 0#8 15#8 1#8)).bind (·.fields)).isSome = true) ∧
    ((profileBytes 64#8).length = 12 ∧ (profileOf (profileBytes 64#8)).isSome = true) ∧
    (noticesOf [0#8, 1#8, 1#8, 1#8, 1#8, 1#8, 0#8]).isSome = true := by decide

theorem witness_SetNoticesReplacesSettings :
    (Admitted up 0x06#8 (ask [0#8, 1#8, 1#8, 1#8, 1#8, 1#8, 0#8]) ∧ (noticesOf [0#8, 1#8, 1#8, 1#8, 1#8, 1#8, 0#8]).isSome = true) ∧
    (Admitted up 0x06#8 (ask [0#8, 1#8, 1#8, 1#8, 1#8, 1#8, 2#8]) ∧
      ∃ h : 6 < [0#8, 1#8, 1#8, 1#8, 1#8, 1#8, 2#8].length, 1 < ([0#8, 1#8, 1#8, 1#8, 1#8, 1#8, 2#8][6]).toNat) :=
  ⟨⟨admits (by decide), by decide⟩, admits (by decide), by decide, by decide⟩

theorem witness_PollAnswersSummary : FrameAtHand (up.withFrame (reqFrame 0x1C#8 (ask []))) 0x1C#8 (ask []) := by
  unfold FrameAtHand; decide

/-- Every group with either option, the first number that is no group, and the first that is no option. -/
theorem witness_ReadCountersReturnsGroup :
    ∀ q ∈ [(0, 0), (0, 1), (3, 0), (3, 1), (4, 0), (4, 1), (5, 0), (5, 1), (6, 0), (6, 1), (7, 0), (6, 2)],
      Admitted up 0x1D#8 (ask [byteOf q.1, byteOf q.2]) ∧ field [byteOf q.1, byteOf q.2] 0 1 = q.1 ∧
      field [byteOf q.1, byteOf q.2] 1 1 = q.2 := by
  intro q hq
  refine ⟨admits ?_, ?_, ?_⟩ <;> revert q <;> decide

/-- Bins 7 are out of range; profile 3 is in use by the run of channel 1, and not in use in an idle part. -/
theorem witness_DefineProfileReplacesFields :
    (Admitted up 0x04#8 (ask (profileBytes 7#8)) ∧ profileOf (profileBytes 7#8) = none) ∧
    (Admitted (onChannel .held (some (runWith (.play playing))) Staged.initial) 0x04#8 (ask (profileBytes 8#8)) ∧
      (profileOf (profileBytes 8#8)).map (·.1) = some 3 ∧
      ∃ q w, ((onChannel .held (some (runWith (.play playing))) Staged.initial).channels[(1 : Fin 4)]).run = some q ∧
        q.body = .play w ∧ w.profile = 3) ∧
    (Admitted up 0x04#8 (ask (profileBytes 64#8)) ∧ ∀ ch : Fin 4, (up.channels[ch]).state = .idle) :=
  ⟨⟨admits (by decide), by decide⟩, ⟨admits (by decide), by decide, _, _, rfl, rfl, rfl⟩, admits (by decide), by decide⟩

/-- A bad gauge number; lane 2 of a line of two lanes; the pair of slot 5 asked for by slot 6; stored blocks without DISCARD; and the
accepted forms, to define and to undefine. -/
theorem witness_DefineGaugeRedefinesSlot :
    (Admitted up 0x03#8 (ask (gaugeBytes 0#8 16#8 1#8)) ∧ gaugeOf (gaugeBytes 0#8 16#8 1#8) = none) ∧
    (Admitted (withSlot none) 0x03#8 (ask (gaugeBytes 0#8 7#8 2#8)) ∧
      ((gaugeOf (gaugeBytes 0#8 7#8 2#8)).bind (·.fields)).map (·.lane) = some (.num 2) ∧
      ((withSlot none).trackers[(2 : Fin 4)]).defn.lanes = 2) ∧
    (Admitted (withSlot none) 0x03#8 (ask (6#8 :: (gaugeBytes 0#8 7#8 1#8).tail)) ∧
      ((withSlot none).capture.slots[(5 : Fin 64)]).defined = true ∧ ((withSlot none).capture.slots[(5 : Fin 64)]).gauge = 7) ∧
    (Admitted { withSlot none with archive := { Archive.initial with index := updAt (Vector.replicate 64 []) 5 (fun _ =>
          [{ page := 0, bseq := 1, dseq := 1, first := 0, last := 1, suspect := false }]) } } 0x03#8 (ask [5#8, 0#8, 0#8]) ∧
      (gaugeOf [5#8, 0#8, 0#8]).map (·.discard) = some false) ∧
    (Admitted (withSlot (some block)) 0x03#8 (ask (gaugeBytes 1#8 7#8 1#8)) ∧ (gaugeOf (gaugeBytes 1#8 7#8 1#8)).isSome = true) ∧
    (Admitted up 0x03#8 (ask [5#8, 0#8, 1#8]) ∧ (gaugeOf [5#8, 0#8, 1#8]).isSome = true) :=
  ⟨⟨admits (by decide), by decide⟩, ⟨admits (by decide), by decide, by decide⟩, ⟨admits (by decide), by decide, by decide⟩,
    ⟨admits (by decide), by decide⟩, ⟨admits (by decide), by decide⟩, admits (by decide), by decide⟩

/-- A bad enable; settings locked by a segment (P_f from 9 to 10); enabling, disabling and redefining line 2, disabling it with an open block and
with none; a tracker in an item. -/
theorem witness_DefineLineTakesEffect :
    (Admitted up 0x02#8 (ask (lineBytes 2#8)) ∧ lineOf (lineBytes 2#8) = none) ∧
    (Admitted (withLine { running with map := [segment], defn := { running.defn with pf := 9 } }) 0x02#8 (ask (lineBytes 1#8)) ∧
      (lineOf (lineBytes 1#8)).map (fun q => (q.1, q.2.pf)) = some (2, 10)) ∧
    (Admitted up 0x02#8 (ask (lineBytes 1#8)) ∧ up.between 2 = true ∧ (up.trackers[(2 : Fin 4)]).defn.enabled = false) ∧
    (Admitted (withLine running) 0x02#8 (ask (lineBytes 0#8)) ∧ (withLine running).between 2 = true) ∧
    (∀ b ∈ [some block, none], Admitted (withSlot b) 0x02#8 (ask (lineBytes 0#8)) ∧ (withSlot b).between 2 = true ∧
      ((withSlot b).trackers[(2 : Fin 4)]).defn.enabled = true ∧ ((withSlot b).capture.slots[(5 : Fin 64)]).defined = true ∧
      ((withSlot b).capture.slots[(5 : Fin 64)]).line = 2 ∧ ((withSlot b).capture.slots[(5 : Fin 64)]).block = b) ∧
    (Admitted (withLine running) 0x02#8 (ask (lineBytes 1#8)) ∧ ((withLine running).trackers[(2 : Fin 4)]).defn.enabled = true) ∧
    (Admitted up 0x02#8 (ask (lineBytes 0#8)) ∧ (lineOf (lineBytes 0#8)).map (fun q => q.2.enabled) = some false) ∧
    (Admitted (presenting up (.dropPending { handle := 3, seq := 9 })) 0x02#8 (ask (lineBytes 1#8)) ∧
      (presenting up (.dropPending { handle := 3, seq := 9 })).between 2 = false ∧
      (lineOf (lineBytes 1#8)).map (fun q => (q.2.pf, q.2.pd, q.2.lanes)) = some (10, 20, 2)) := by
  refine ⟨⟨admits (by decide), by decide⟩, ⟨admits (by decide), by decide⟩, ⟨admits (by decide), by decide, by decide⟩,
    ⟨admits (by decide), by decide⟩, ?_, ⟨admits (by decide), by decide⟩, ⟨admits (by decide), by decide⟩, admits (by decide),
    by decide, by decide⟩
  intro b h
  refine ⟨admits ?_, ?_⟩ <;> revert b <;> decide

/-- R63: disabling a line closes the open block of its slot and ends its conditions. -/
theorem test_disabled_line_closes_blocks :
    (let s := (withSlot (some block)).updSlc (fun c => c.setInst (.silent 2) (some { notice := lineNotice 2 4 none, repeats := 1, timer := false }))
     let t := after (.defineLine (ask (lineBytes 0#8))) s
     let d := t.capture.slots[(5 : Fin 64)]
     (d.block, d.mark, t.archive.occupancy, t.slc.silent[(2 : Fin 4)], (t.trackers[(2 : Fin 4)]).state)) = (none, some 60, 1, none, .undefined) := by
  decide

theorem witness_ResyncLineRestoresTracking :
    (Admitted up 0x0A#8 (ask [4#8]) ∧ field [4#8] 0 1 = 4) ∧
    (∀ st ∈ [LineState.uncertain, .tracking, .waiting, .undefined],
      Admitted (withLine { running with state := st }) 0x0A#8 (ask [2#8]) ∧ (withLine { running with state := st }).between 2 = true ∧
      ((withLine { running with state := st }).trackers[(2 : Fin 4)]).state = st) ∧
    (Admitted (presenting up (.dropPending { handle := 3, seq := 9 })) 0x0A#8 (ask [2#8]) ∧
      (presenting up (.dropPending { handle := 3, seq := 9 })).between 2 = false) := by
  refine ⟨⟨admits (by decide), by decide⟩, ?_, admits (by decide), by decide⟩
  intro st h
  refine ⟨admits ?_, ?_, ?_⟩ <;> revert st <;> decide

/-- The EMPTY LINE for line 2 that waits for its tracker. -/
def emptying (s : State) : State := s.updSlc (fun c => { c with unit := .line (reqFrame 0x0B#8 (ask [2#8])) 2 .empty })

/-- An empty map, an open last segment of a coil, and a crossed one; a tracker in an item; a request that waited, its tracker in an item still, and
free. -/
theorem witness_EmptyLineEmptiesMap :
    (Admitted up 0x0B#8 (ask [4#8]) ∧ field [4#8] 0 1 = 4) ∧
    (Admitted (withLine running) 0x0B#8 (ask [2#8]) ∧ (withLine running).between 2 = true) ∧
    (Admitted (withMap [segment]) 0x0B#8 (ask [2#8]) ∧ (withMap [segment]).between 2 = true ∧
      ((withMap [segment]).trackers[(2 : Fin 4)]).map = [] ++ [segment]) ∧
    (Admitted (withMap [{ segment with ft := some 950, dh := some 1900 }]) 0x0B#8 (ask [2#8]) ∧
      ((withMap [{ segment with ft := some 950, dh := some 1900 }]).trackers[(2 : Fin 4)]).map =
        [] ++ { segment with ft := some 950, dh := some 1900 } :: []) ∧
    (let busy := presenting up (.dropPending { handle := 3, seq := 9 })
     Admitted busy 0x0B#8 (ask [2#8]) ∧ busy.between 2 = false ∧
     (emptying busy).slc.unit = .line { kind := 0x0B#8, channel := 0xFF#8, tag := 7#16, payload := [2#8] } 2 .empty ∧
     (emptying busy).between 2 = false) ∧
    (∀ m ∈ [[], [segment], [{ segment with ft := some 950, dh := some 1900 }]],
      (emptying (withMap m)).slc.unit = .line { kind := 0x0B#8, channel := 0xFF#8, tag := 7#16, payload := [2#8] } 2 .empty ∧
      (emptying (withMap m)).between 2 = true ∧ ((emptying (withMap m)).trackers[(2 : Fin 4)]).map = m) :=
  ⟨⟨admits (by decide), by decide⟩, ⟨admits (by decide), by decide⟩, ⟨admits (by decide), by decide, rfl⟩, ⟨admits (by decide), rfl⟩,
    ⟨admits (by decide), by decide, rfl, by decide⟩, by decide⟩

/-- A NOW beyond its codes is BAD VALUE; a next head 200,000,001 beyond its cut is outside, and one 200,000,000 beyond is not. -/
theorem witness_InjectRequestsReachTracker :
    (Admitted up 0x08#8 (ask [2#8, 2#8, 0#8, 0#8, 0#8, 0#8, 0#8, 0#8]) ∧
      injectTailOf [2#8, 2#8, 0#8, 0#8, 0#8, 0#8, 0#8, 0#8] = none) ∧
    (Admitted up 0x08#8 (ask [2#8, 1#8, 0#8, 0#8, 0#8, 0#8, 0#8, 0#8]) ∧
      injectTailOf [2#8, 1#8, 0#8, 0#8, 0#8, 0#8, 0#8, 0#8] = some (2, .tail none)) ∧
    (Admitted up 0x07#8 (ask [2#8, 1#8, 0#8, 0#8, 0#8, 0#8, 0#8, 0#8, 0#8, 0#8, 0#8, 0#8, 9#8, 1#8, 0x41#8]) ∧
      (injectEntryOf [2#8, 1#8, 0#8, 0#8, 0#8, 0#8, 0#8, 0#8, 0#8, 0#8, 0#8, 0#8, 9#8, 1#8, 0x41#8]).isSome = true) ∧
    (Admitted up 0x09#8 (ask [2#8, 0#8, 0#8, 0#8, 0#8, 0#8, 0#8, 0#8, 0#8, 0#8, 0#8, 0x0B#8, 0xEB#8, 0xC2#8, 0x01#8, 0#8]) ∧
      injectCutOf [2#8, 0#8, 0#8, 0#8, 0#8, 0#8, 0#8, 0#8, 0#8, 0#8, 0#8, 0x0B#8, 0xEB#8, 0xC2#8, 0x01#8, 0#8]
        = some (2, .cut (some 0) (some 200000001) [])) ∧
    (Admitted up 0x09#8 (ask [2#8, 0#8, 0#8, 0#8, 0#8, 0#8, 0#8, 0#8, 0#8, 0#8, 0#8, 0x0B#8, 0xEB#8, 0xC2#8, 0x00#8, 0#8]) ∧
      injectCutOf [2#8, 0#8, 0#8, 0#8, 0#8, 0#8, 0#8, 0#8, 0#8, 0#8, 0#8, 0x0B#8, 0xEB#8, 0xC2#8, 0x00#8, 0#8]
        = some (2, .cut (some 0) (some 200000000) [])) :=
  ⟨⟨admits (by decide), by decide⟩, ⟨admits (by decide), by decide⟩, ⟨admits (by decide), by decide⟩,
    ⟨admits (by decide), by decide⟩, admits (by decide), by decide⟩

theorem witness_CloseBlocksClosesSlots :
    (Admitted (withSlot (some block)) 0x0F#8 (ask [2#8]) ∧ ((withSlot (some block)).capture.slots[(5 : Fin 64)]).block = some block ∧
      ((withSlot (some block)).capture.slots[(5 : Fin 64)]).line = 2) ∧
    (Admitted (withSlot (some block)) 0x0F#8 (ask [3#8]) ∧ field [3#8] 0 1 = 3) ∧
    (Admitted (withSlot (some block)) 0x0F#8 (ask [255#8]) ∧ field [255#8] 0 1 = 255) ∧
    (Admitted up 0x0F#8 (ask [4#8]) ∧ field [4#8] 0 1 = 4) ∧ (Admitted up 0x0F#8 (ask [254#8]) ∧ field [254#8] 0 1 = 254) :=
  ⟨⟨admits (by decide), by decide, by decide⟩, ⟨admits (by decide), by decide⟩, ⟨admits (by decide), by decide⟩,
    ⟨admits (by decide), by decide⟩, admits (by decide), by decide⟩

/-- The table of `twoCoils`, by rising handles. -/
theorem twoCoils_pools : PoolInv (twoCoils .made).table ∧ NameInv (twoCoils .made).table := by
  unfold PoolInv NameInv; decide

theorem twoEntered_pools : PoolInv (twoCoils .entered).table ∧ NameInv (twoCoils .entered).table := by
  unfold PoolInv NameInv; decide

/-- A bound of 2 takes coil A, of sequence 1, and leaves B, of sequence 2; with line 2 waiting at the arbiter it is not RETIRE's turn; one
performed up to sequence 1 goes on. -/
theorem witness_RetireRemovesEligibleCoils :
    (Admitted (twoCoils .made) 0x0D#8 (ask [0#8, 0#8, 0#8, 2#8]) ∧ PoolInv (twoCoils .made).table ∧ TrackersQuiet (twoCoils .made)) ∧
    (Admitted (presenting (twoCoils .made) (.dropPending { handle := 0, seq := 1 })) 0x0D#8 (ask [0#8, 0#8, 0#8, 2#8]) ∧
      ¬TrackersQuiet (presenting (twoCoils .made) (.dropPending { handle := 0, seq := 1 }))) ∧
    (({ twoCoils .made with slc := { Slc.initial with unit := .table (reqFrame 0x0D#8 (ask [])) (.retire 3 1 true) } } : State).slc.unit
      = .table (reqFrame 0x0D#8 (ask [])) (.retire 3 1 true)) ∧
    (¬(1 < 1) ∧ (twoCoils .made).table.coils.map (fun c => (c.seq, c.state, c.children)) = [(1, .made, []), (2, .made, [])]) :=
  ⟨⟨admits (by decide), twoCoils_pools.1, quiets (by decide)⟩,
    ⟨admits (by decide), fun h => absurd (h 2 _ rfl) (by decide)⟩, rfl, by decide⟩

/-- Coil A with one pending link of its segment on line 2. -/
def pendingTable : State :=
  { up with table := { Genealogy.initial with
      coils := [{ coil 0 nameA (some 300) .consumed with children := [0] }, { coil 1 nameB (some 10) .made with parents := [0] }]
      links := [{ handle := 0, child := some 1, childSpan := { lo := 0, hi := 10 }, scrap := 0, parent := 0, parentSpan := none, dir := .same,
                  lane := .whole, line := 2, suspect := false, source := some { segment := 1, span := { lo := 1990, hi := 2000 } } }]
      nextSeq := 3 } }

/-- R24: RETIRE passes once: the parent of a PENDING link stays although its child goes after it. -/
theorem test_retire_passes_once :
    (after (.retire (ask [0#8, 0#8, 0#8, 4#8]) none) pendingTable).table.coils.map (·.handle) = [0] := by decide

/-- The highest handle but one too many; a name no record bears; a name and a reference of a record. -/
theorem witness_LookupAnswersSummary :
    (Admitted up 0x0E#8 (ask [1#8, 0x40#8, 0#8, 0#8, 0#8, 0#8, 1#8]) ∧ lookKeyOf [1#8, 0x40#8, 0#8, 0#8, 0#8, 0#8, 1#8] = none) ∧
    (Admitted (twoCoils .made) 0x0E#8 (ask [0#8, 1#8, 0x43#8]) ∧ lookKeyOf [0#8, 1#8, 0x43#8] = some (.name [0x43#8])) ∧
    (Admitted (twoCoils .made) 0x0E#8 (ask [0#8, 1#8, 0x41#8]) ∧ lookKeyOf [0#8, 1#8, 0x41#8] = some (.name nameA) ∧
      ∃ c ∈ (twoCoils .made).table.coils, c.indexed = true ∧ c.name = nameA) ∧
    (Admitted (twoCoils .made) 0x0E#8 (ask [1#8, 0#8, 1#8, 0#8, 0#8, 0#8, 2#8]) ∧
      lookKeyOf [1#8, 0#8, 1#8, 0#8, 0#8, 0#8, 2#8] = some (.ref { handle := 1, seq := 2 }) ∧
      ∃ c ∈ (twoCoils .made).table.coils, c.handle = 1 ∧ c.seq = 2) :=
  ⟨⟨admits (by decide), by decide⟩, ⟨admits (by decide), by decide⟩, ⟨admits (by decide), by decide, _, .head _, rfl, rfl⟩,
    admits (by decide), by decide, _, .tail _ (.head _), rfl, rfl⟩

/-- A session of code 4. -/
def importing : State := { up with table := { Genealogy.initial with session := some { code := 4, accepted := 0, refused := 0 } } }

/-- An IMPORT frame ONLY from line code 4, with one LINK item of direction `d`. -/
def linkFrame (d : Byte) : List Byte :=
  [3#8, 4#8, 1#8, 2#8, d, 0xFF#8, 0#8, 0#8, 0#8, 0#8, 0#8, 0#8, 0#8, 0#8, 9#8, 0#8, 0#8, 0#8, 0#8, 0#8, 0#8, 0#8, 9#8, 1#8, 0x42#8, 1#8, 0x41#8]

/-- Positions 4, code 3 and 16 are bad; MIDDLE without a session; FIRST with one coil item under code 15; MIDDLE in a session; LAST without
items; a LINK item of the last direction code, and of one beyond. -/
theorem witness_ImportFrameOpensSession :
    (∀ q ∈ [(4, 4), (0, 3), (3, 16)], Admitted up 0x0C#8 (ask [byteOf q.1, byteOf q.2, 0#8])) ∧
    (Admitted up 0x0C#8 (ask [1#8, 4#8, 0#8]) ∧ up.table.session = none) ∧
    (Admitted up 0x0C#8 (ask [0#8, 15#8, 1#8, 1#8, 0#8, 0#8, 0#8, 0#8, 9#8, 1#8, 0x41#8]) ∧
      (importItems [0#8, 15#8, 1#8, 1#8, 0#8, 0#8, 0#8, 0#8, 9#8, 1#8, 0x41#8]).map List.length = some 1) ∧
    (∀ q ∈ [[0#8, 4#8, 0#8], [1#8, 4#8, 0#8], [2#8, 4#8, 0#8], [3#8, 4#8, 0#8]], Admitted importing 0x0C#8 (ask q) ∧ importItems q = some []) ∧
    importing.table.session ≠ none ∧
    (∀ d ∈ [1#8, 2#8], Admitted up 0x0C#8 (ask (linkFrame d)) ∧
      (importItems (linkFrame d)).map (fun is => is.any ImportItem.misdirected) = some (d == 2#8)) := by
  refine ⟨?_, ⟨admits (by decide), rfl⟩, ⟨admits (by decide), by decide⟩, ?_, by decide, ?_⟩
  on_goal 3 =>
    intro d hd
    refine ⟨admits ?_, ?_⟩ <;> revert d <;> decide
  rotate_left
  · intro q hq
    refine ⟨admits ?_, ?_⟩ <;> revert q <;> decide
  intro q hq
  refine admits ?_
  revert q; decide

/-- Each request in range on an idle channel, out of range, and on a channel at work; a range of 200,000,000 and one of a cell more. -/
theorem witness_StagedFieldsAreSet :
    (∀ q ∈ [(0x10#8, [2#8, 3#8]), (0x11#8, [0#8, 0#8, 0#8, 0#8, 0#8, 0#8, 0#8, 0#8, 0x0B#8, 0xEB#8, 0xC2#8, 0#8, 0#8, 1#8]),
        (0x12#8, [1#8, 63#8, 4#8]), (0x13#8, [15#8]), (0x14#8, [6#8]), (0x15#8, [])],
      Admitted up q.1 (askCh q.2) ∧ Admitted (onChannel .running (some (runWith (.play playing))) Staged.initial) q.1 (askCh q.2)) ∧
    (up.channels[(1 : Fin 4)]).state = .idle ∧ (askCh []).channel.toNat = (1 : Fin 4).1 ∧
    (targetOf [2#8, 3#8]).isSome = true ∧ targetOf [2#8, 4#8] = none ∧ (tracesOf [1#8, 63#8, 4#8]).isSome = true ∧
    tracesOf [1#8, 64#8, 4#8] = none ∧
    (∀ q ∈ [(0x10#8, [2#8, 4#8]), (0x11#8, [0#8, 0#8, 0#8, 0#8, 0#8, 0#8, 0#8, 0#8, 0x0B#8, 0xEB#8, 0xC2#8, 1#8, 0#8, 1#8]),
        (0x12#8, [1#8, 64#8, 4#8]), (0x13#8, [16#8]), (0x14#8, [7#8])], Admitted up q.1 (askCh q.2)) := by
  refine ⟨?_, rfl, rfl, by decide, by decide, by decide, by decide, ?_⟩
  · intro q hq
    refine ⟨admits ?_, admits ?_⟩ <;> revert q <;> decide
  · intro q hq
    refine admits ?_
    revert q; decide

/-- Channel 1 with a target and one trace, over 100 to `to_`, beside coils A of length 300, B of length 500 and one of no length. -/
def ready (target : Target) (to_ : Nat) : State :=
  ({ withSlot none with table := { Genealogy.initial with coils := [coil 0 nameA (some 300) .made, coil 1 nameB (some 100) .made, coil 2 [0x43#8] none .made] } } : State).updChannel 1
    (fun c => { c with staged := { Staged.initial with target := target, from_ := 100, to_ := to_, traces := [(5, .mean)] } })

theorem witness_RunPlaybackCapturesRun :
    (Admitted (onChannel .held (some (runWith (.play playing))) Staged.initial) 0x16#8 (askCh [])) ∧
    (Admitted up 0x16#8 (askCh []) ∧ (up.channels[(1 : Fin 4)]).staged.target = .none) ∧
    (Admitted (ready (.line 1) 300) 0x16#8 (askCh []) ∧ ((ready (.line 1) 300).capture.slots[(5 : Fin 64)]).line = 2) ∧
    (Admitted (ready (.line 2) 300) 0x16#8 (askCh []) ∧ ((ready (.line 2) 300).capture.slots[(5 : Fin 64)]).defined = true) ∧
    (Admitted (ready (.name [0x44#8]) 300) 0x16#8 (askCh []) ∧ (ready (.name [0x44#8]) 300).table.named [0x44#8] = none) ∧
    (Admitted (ready (.ref { handle := 0, seq := 7 }) 300) 0x16#8 (askCh []) ∧
      (ready (.ref { handle := 0, seq := 7 }) 300).table.current { handle := 0, seq := 7 } = none) ∧
    (∀ q ∈ [(nameA, 300), (nameA, 301), (nameB, 101), ([0x43#8], 300)],
      Admitted (ready (.name q.1) q.2) 0x16#8 (askCh []) ∧ ((ready (.name q.1) q.2).table.named q.1).isSome = true) := by
  refine ⟨admits (by decide), ⟨admits (by decide), rfl⟩, ⟨admits (by decide), by decide⟩, ⟨admits (by decide), by decide⟩,
    ⟨admits (by decide), by decide⟩, ⟨admits (by decide), by decide⟩, ?_⟩
  intro q hq
  refine ⟨admits ?_, ?_⟩ <;> revert q <;> decide

/-- The last window of a run begins, the one before it no longer planning; not with two windows, none left to begin, or the run stopped. -/
theorem witness_windows_begin :
    let w : Window := { no := 0, bin0 := 0, bin1 := 256, span := { lo := 0, hi := 2560 }, stage := .ready, plan := [], nextId := 0,
                        frag := false, lost := [], accs := [] }
    let p : Play := { playing with bins := 257, nextBin := 256, nextWin := 1, wins := [w] }
    let c : RunTarget := .coil { handle := 0, seq := 1 } none
    (∀ t ∈ [RunTarget.line 2, c],
      ((onChannel .running (some { runWith (.play p) with target := t }) Staged.initial).channels[(1 : Fin 4)]).run =
        some { runWith (.play p) with target := t }) ∧
    (p.planner = none ∧ p.stopped = false ∧ p.nextBin < p.bins ∧ p.wins.length < 2 ∧ ∀ x ∈ p.wins, x.no ≠ p.nextWin) ∧
    (∀ q ∈ [{ p with stopped := true }, { p with nextBin := 257 }, { p with wins := [w, w] }],
      ¬(q.stopped = false ∧ q.nextBin < q.bins ∧ q.wins.length < 2)) ∧
    (runWith (.play p)).kind = .playback ∧ (ready (.name nameB) 101).channels[(1 : Fin 4)].staged.traces.length ≤ 4 := by
  decide

theorem witness_RunWalkStarts :
    (Admitted (onChannel .draining (some (runWith (.play playing))) Staged.initial) 0x17#8 (askCh [])) ∧
    (Admitted up 0x18#8 (askCh []) ∧ (up.channels[(1 : Fin 4)]).staged.target = .none) ∧
    (Admitted (ready (.line 2) 300) 0x17#8 (askCh [])) ∧
    (Admitted (ready (.name [0x44#8]) 300) 0x18#8 (askCh []) ∧ (ready (.name [0x44#8]) 300).table.named [0x44#8] = none) ∧
    (Admitted (ready (.ref { handle := 0, seq := 7 }) 300) 0x17#8 (askCh []) ∧
      (ready (.ref { handle := 0, seq := 7 }) 300).table.current { handle := 0, seq := 7 } = none) ∧
    (∀ q ∈ [(nameA, 300), (nameA, 301), (nameB, 101), ([0x43#8], 300)],
      Admitted (ready (.name q.1) q.2) 0x18#8 (askCh []) ∧ ((ready (.name q.1) q.2).table.named q.1).isSome = true ∧
      TrackersQuiet (ready (.name q.1) q.2)) ∧
    (Admitted (presenting (ready (.name nameA) 300) (.dropPending { handle := 0, seq := 1 })) 0x17#8 (askCh []) ∧
      ¬TrackersQuiet (presenting (ready (.name nameA) 300) (.dropPending { handle := 0, seq := 1 }))) ∧
    (let s := (ready (.name nameA) 300).updSlc (fun c => { c with unit := .table (reqFrame 0x18#8 (askCh [])) (.run (.name nameA)) })
     s.slc.unit = .table (reqFrame 0x18#8 (askCh [])) (.run (.name nameA)) ∧ TrackersQuiet s) := by
  refine ⟨admits (by decide), ⟨admits (by decide), rfl⟩, admits (by decide), ⟨admits (by decide), by decide⟩,
    ⟨admits (by decide), by decide⟩, ?_,
    ⟨admits (by decide), fun h => absurd (h 2 _ rfl) (by decide)⟩, ⟨rfl, quiets (by decide)⟩⟩
  intro q hq
  refine ⟨admits ?_, ?_, quiets ?_⟩ <;> revert q <;> decide

/-- R165: a walk over a length at or below from has its header in a closed frame, the only one of a run that is COMPLETE. -/
theorem test_no_walk_closes_header :
    (((after (.runAncestry (askCh [])) (ready (.name nameB) 101)).channels[(1 : Fin 4)]).run.map (fun q =>
      (q.recs.length, q.closed.map (fun x => (x.1.length, x.2)), q.result))) = some (0, some (1, true), some .complete) := by
  decide

/-- A link from coil B to cells 100 to 109 of its parent A, FINAL, or PENDING with no parent span, or the same cells to scrap. -/
def walkLink (final child : Bool) : LinkCopy :=
  { link := { handle := 0, child := if child then some 1 else none, childSpan := { lo := 0, hi := 20 }, scrap := 20, parent := 0,
              parentSpan := if final then some { lo := 100, hi := 110 } else none, dir := .reversed, lane := .whole, line := 2,
              suspect := false, source := none }
    far := if child then some (nameA, { handle := 0, seq := 1 }) else none }

/-- A walk with `n` records written and what its PLAN STEP is for. -/
def walking (up : Bool) (n : Nat) (stack : List Level) (await : Option StepFor) : Walking :=
  let w : Walk := { up := up, depth := 2, perFrame := 8, stack := stack, await := await, records := n }
  ({ runWith (.walk w) with kind := if up then .ancestry else .descent }, w)

/-- A level of coil B. -/
def walkLevel (x : Ival) : Level := targetLevel { handle := 1, seq := 2 } x

/-- The level of a coil reached at depth `d` by a link. -/
def walkReached (d : Nat) : Level :=
  { walkLevel { lo := 100, hi := 105 } with depth := d, reversed := true, via := some (walkLink true true, { lo := 0, hi := 10 }) }

/-- The parts that meet no cell and some, the maps of the FINAL link with and without cells, and the target subranges of DESCENT: none below a
stage whose interval above is elsewhere. -/
theorem witness_walk_links :
    (∀ final child, (walkLink final child).link.parentSpan.isSome = final ∧ (walkLink final child).link.child.isSome = child ∧
      (walkLink final child).far.isSome = child) ∧
    (let st : Stage := { child := { lo := 0, hi := 20 }, parent := { lo := 100, hi := 110 }, dir := .reversed }
     (walkLink true true).link.stage = some st ∧ st.boundary { lo := 0, hi := 10 } = { lo := 105, hi := 110 } ∧
     st.boundary { lo := 1, hi := 2 } = { lo := 109, hi := 109 } ∧ st.image { lo := 100, hi := 101 } = some { lo := 18, hi := 19 } ∧
     descentTarget [] [] { lo := 100, hi := 101 } = some { lo := 100, hi := 101 } ∧
     descentTarget [st] [walkLevel { lo := 100, hi := 101 }] { lo := 18, hi := 20 } = some { lo := 100, hi := 101 } ∧
     descentTarget [st] [walkLevel { lo := 100, hi := 101 }] { lo := 0, hi := 2 } = none) ∧
    imageUp (walkLevel { lo := 0, hi := 40 }).stages { lo := 0, hi := 20 } = some { lo := 0, hi := 20 } ∧
    (∀ n ∈ [0, 4095, 4096], ∀ up, (walking up n [] none).2.records = n) := by
  decide

/-- Answers awaited for a coil reached below and at the depth limit, for the target, and for more of a level, before and at 4,096 records;
and walks between steps with no level, with a level read to its end, with one to read on, and with links to take. -/
theorem witness_walk_goes_on :
    (∀ d ∈ [1, 2], ∀ n ∈ [4095, 4096], ∀ up,
      let k := walking up n [walkReached d] (some (.visit (walkReached d)))
      k.2.await = some (.visit (walkReached d)) ∧ (walkReached d).via = some (walkLink true true, { lo := 0, hi := 10 }) ∧
      (walkReached d).depth = d ∧ k.2.depth = 2 ∧ k.2.records = n ∧ k.1.result = none) ∧
    (let k := walking true 4096 [walkReached 1] (some .more)
     k.2.await = some .more ∧ k.2.stack = [walkReached 1]) ∧
    (walkLevel { lo := 0, hi := 9 }).via = none ∧
    (∀ ls ∈ [[], [walkLink true true]], ∀ nx ∈ [none, some (Resume.childStart 5)],
      let lv : Level := { walkReached 1 with links := ls, next := nx }
      let k := walking true 0 [lv] none
      k.1.planOp = none ∧ k.1.result = none ∧ k.1.closed = none ∧ splitFrame k.2.perFrame k.1.recs 0 0 = none ∧ k.2.stack = [lv] ∧
        lv.reversed = true ∧ lv.next = nx ∧ lv.links = ls) := by
  decide

/-- R168, R170: the PENDING record of ANCESTRY: depth 1, WHOLE, line 2, REVERSED and pending, coil A, the target subrange, no far span. -/
theorem test_pending_ancestry_record :
    (takeUp (walking true 0 [] none) (walkLevel { lo := 5, hi := 40 }) (walkLink false true)).1.recs.map (·.bytes) =
      [[6#8, 55#8, 0#8, 1#8, 0xFF#8, 2#8, 3#8, 0#8, 1#8] ++ nameA ++ List.replicate 15 0#8 ++ [0#8, 0#8, 0#8, 0#8, 0#8, 1#8]
        ++ List.replicate 4 0xFF#8 ++ [0#8, 0#8, 0#8, 0#8, 0#8, 5#8, 0#8, 0#8, 0#8, 0#8, 0#8, 20#8] ++ List.replicate 8 0xFF#8] := by
  decide

/-- HOLD, RELEASE and CANCEL on the channel in each of its states. -/
theorem witness_HoldAndReleaseSwitchChannel :
    ∀ st ∈ [ChanState.idle, .running, .held, .draining], ∀ k ∈ [0x19#8, 0x1A#8],
      Admitted (onChannel st (some (runWith (.play playing))) Staged.initial) k (askCh []) ∧
      ((onChannel st (some (runWith (.play playing))) Staged.initial).channels[(1 : Fin 4)]).state = st := by
  intro st hs k hk
  refine ⟨admits ?_, ?_⟩ <;> revert st k <;> decide

theorem witness_CancelEndsRun :
    ∀ st ∈ [ChanState.idle, .running, .held, .draining],
      Admitted (onChannel st (some (runWith (.play playing))) Staged.initial) 0x1B#8 (askCh []) ∧
      ((onChannel st (some (runWith (.play playing))) Staged.initial).channels[(1 : Fin 4)]).state = st ∧
      ((onChannel st (some (runWith (.play playing))) Staged.initial).channels[(1 : Fin 4)]).run = some (runWith (.play playing)) := by
  intro st hs
  refine ⟨admits ?_, ?_, ?_⟩ <;> revert st <;> decide

/-- A frame on the wire, and the part sending one. -/
def sending (j : TxJob) : State := up.updSlc (fun c => { c with tx := some j })

theorem witness_LinkClearCleansLinkAndChannels :
    (Admitted up 0x1E#8 (ask []) ∧ up.slc.tx = none) ∧
    (Admitted (sending (.notice (acceptance (ask [])))) 0x1E#8 (ask []) ∧ (sending (.notice (acceptance (ask [])))).slc.tx ≠ none) :=
  ⟨⟨admits (by decide), rfl⟩, admits (by decide), by decide⟩

/-- A block waiting to be written, the group table as given. -/
def wornGroups (gs : List (Nat × GroupState)) : State :=
  { up with archive := { Archive.initial with
      groups := gs, group := 3, page := 9, occupancy := 2
      queue := [{ slot := 5, dseq := 1, line := 2, side := .feed, lane := .whole, bseq := 9, first := 1, last := 2, entries := [], suspect := false }] } }

/-- A read of channel 1. -/
def aRead : ReadReq :=
  { ch := 1, slot := 5, line := 2, side := .feed, lane := .whole,
    entry := { page := 8, bseq := 1, dseq := 1, first := 0, last := 5, suspect := false } }

/-- A READ in progress, wanted or not, and a request waiting. -/
def readingNow (wanted : Bool) : State :=
  { up with archive := { Archive.initial with op := some (.read aRead wanted), requests := [{ aRead with ch := 3 }] } }

/-- A free flash with groups FAILING, BAD and FILLING, and with all FULL; a PROGRAM or a READ in progress. -/
theorem witness_ClearAllDataHandsClear :
    (Admitted up 0x1F#8 (ask []) ∧ up.archive.op = none) ∧
    (Admitted { up with archive := { Archive.initial with op := some .program } } 0x1F#8 (ask []) ∧
      ({ up with archive := { Archive.initial with op := some .program } } : State).archive.op ≠ none) ∧
    (∀ gs ∈ [[], [(0, GroupState.failing), (1, .bad), (2, .failing), (3, .filling), (5, .failing)]],
      let s := wornGroups gs
      Admitted s 0x1F#8 (ask []) ∧ s.archive.op = none ∧ GroupsInv s.archive ∧ s.archive.queue ≠ [] ∧
      (gs ≠ [] → s.archive.groupState 0 = .failing ∧ s.archive.groupState 1 = .bad ∧ s.archive.groupState 3 = .filling ∧
        s.archive.groupState 5 = .failing)) ∧
    (∀ w ∈ [true, false], Admitted (readingNow w) 0x1F#8 (ask []) ∧ (readingNow w).archive.op = some (.read aRead w) ∧
      (readingNow w).archive.requests ≠ []) := by
  refine ⟨⟨admits (by decide), rfl⟩, ⟨admits (by decide), by decide⟩, ?_, ?_⟩
  · intro gs h
    unfold GroupsInv
    refine ⟨admits ?_, ?_, ?_, ?_, ?_⟩ <;> revert gs <;> decide
  · intro w h
    refine ⟨admits ?_, rfl, ?_⟩ <;> revert w <;> decide

/-- R121, R105: the ring walk from group 0 finds group 1, which was FILLING, and the FAILING group before it is BAD. -/
theorem test_clear_places_write_point :
    let a := (after (.clearAllData (ask [])) (wornGroups [(0, .failing), (1, .filling), (5, .failing)])).archive
    a.group = 1 ∧ a.page = 0 ∧ a.groups = [(0, .bad), (5, .failing)] ∧ a.cnt.retired = 1 ∧ a.cnt.dropped = 1 ∧ a.occupancy = 0 := by
  decide

/-- The receiver in a given state with `n` frames in its buffer. -/
def receiving (rx : LinkRx) (n : Nat) : State :=
  up.updSlc (fun c => { c with rx := rx, buffer := List.replicate n (acceptance (ask [])) })

/-- The bytes of a POLL after the sync pair, but for the last. -/
def pollBytes : List Byte := [0#8, 6#8, 0x1C#8, 0xFF#8, 0#8, 7#8, 0x6F#8]

/-- Each state of the receiver: in HUNT with and without 0xA5; with the first length byte; with lengths 5, 6, 1,030 and 1,031; with all
of a POLL but its last byte, with 3 and with 4 frames in the buffer. -/
theorem witness_ReceiverTakesBytes :
    (∀ rx ∈ [LinkRx.hunt true, .hunt false, .frame [], .frame [0#8], .frame [4#8], .frame pollBytes], ∀ n ∈ [3, 4],
      (receiving rx n).linkUp = true ∧ (receiving rx n).slc.rx = rx ∧ (receiving rx n).slc.buffer.length = n) ∧
    field [0#8, 5#8] 0 2 = 5 ∧ field [0#8, 6#8] 0 2 = 6 ∧ field [4#8, 6#8] 0 2 = 1030 ∧ field [4#8, 7#8] 0 2 = 1031 ∧
    (let body := (pollBytes ++ [0xD1#8]).drop 2
     (crc16 (body.take 4)).toNat = field body 4 2 ∧ 2 + field pollBytes 0 2 = (pollBytes ++ [0xD1#8]).length) := by
  decide +kernel

theorem witness_LinkFrameRoundTrip :
    (List.replicate 1024 (0xA5#8)).length ≤ 1024 ∧ (receiving (.hunt true) 3).linkUp = true ∧
    (receiving (.hunt true) 3).slc.rx = .hunt true ∧ (receiving (.hunt true) 3).slc.buffer.length < 4 := by
  decide +kernel

/-- Every kind of frame in transmission; a reply, a notice, and stream frames waiting; an END REPORT due; a reply waiting for room. -/
theorem witness_TransmitterServesInOrder :
    up.slc.tx = none ∧
    (∀ j ∈ [TxJob.reply (acceptance (ask [])), .notice (acceptance (ask [])), .stream 1 (acceptance (ask [])) 3 true,
        .endReport 1 (acceptance (ask [])) true], (sending j).slc.tx = some j ∧ (sending j).startUp.held = false) ∧
    (let s := (sending (.notice (acceptance (ask [])))).updSlc (fun c => { c with replies := [acceptance (ask [])] })
     s.slc.replies = acceptance (ask []) :: []) ∧
    (let s := (sending (.notice (acceptance (ask [])))).updSlc (fun c => { c with notices := [acceptance (ask [])] })
     s.slc.replies = [] ∧ s.slc.notices = acceptance (ask []) :: []) ∧
    (let s := (sending (.notice (acceptance (ask [])))).updSlc (fun c => { c with slots := updAt c.slots 3 (fun _ => [{ frame := acceptance (ask []), recs := 2 }]) })
     s.slc.slots[(3 : Fin 4)] = [{ frame := acceptance (ask []), recs := 2 }] ∧ ∀ k : Fin 4, k ≠ 3 → s.slc.slots[k] = []) ∧
    (let s := (onChannel .draining (some (runWith (.play playing))) Staged.initial).updSlc (fun c => { c with tx := some (.notice (acceptance (ask []))) })
     s.slc.slots[(1 : Fin 4)] = [] ∧ (s.channels[(1 : Fin 4)]).state = .draining) ∧
    (let s := (onChannel .held (some (runWith (.play playing))) Staged.initial).updSlc (fun c => { c with
       tx := some (.notice (acceptance (ask []))), slots := updAt c.slots 1 (fun _ => [{ frame := acceptance (ask []), recs := 2 }]) })
     s.slc.slots[(1 : Fin 4)] ≠ [] ∧ (s.channels[(1 : Fin 4)]).state = .held) ∧
    (∀ n ∈ [7, 8], let s := up.updSlc (fun c => { c with unit := .done (acceptance (ask [])) none, replies := List.replicate n (acceptance (ask [])) })
      s.slc.unit = .done (acceptance (ask [])) none ∧ s.slc.replies.length = n) := by
  refine ⟨rfl, ?_, rfl, ⟨rfl, rfl⟩, ?_, ?_, ?_, ?_⟩ <;> decide

/-- UNCERTAIN of line 2 in mode REPEAT and in mode ONCE; a line whose silence timer runs, SILENT or not, under either mode, and one whose timer
does not run. -/
theorem witness_TimersRaiseNotices :
    (∀ b ∈ [true, false], let s := up.updSlc (fun c => c.setInst (.uncertain 2) (some { notice := lineNotice 2 1 (some 0), repeats := 0, timer := b }))
      s.slc.inst (.uncertain 2) = some { notice := lineNotice 2 1 (some 0), repeats := 0, timer := b } ∧ s.startUp.ready = true) ∧
    (∀ b ∈ [true, false], ∀ m ∈ [true, false],
      let s := (withLine { running with silent := b }).updSlc (fun c => { c with settings := { c.settings with lineRepeat := m } })
      s.startUp.ready = true ∧ (s.trackers[(2 : Fin 4)]).timer = true ∧ (s.trackers[(2 : Fin 4)]).silent = b ∧
        s.slc.settings.lineRepeat = m) ∧
    (up.trackers[(2 : Fin 4)]).timer = false := by
  refine ⟨?_, ?_, by decide⟩ <;> decide

/-- R185, ONCE: the silence timer of a line that is SILENT raises nothing more. -/
theorem test_silent_line_stays_quiet :
    (let s := (withLine { running with timer := true }).updSlc (fun c => { c with tx := some (.notice (acceptance (ask []))) })
     let t := after (.silent 2) s
     let u := after (.silent 2) (t.updTracker 2 (fun k => { k with timer := true }))
     (t.slc.notices.length, u.slc.notices.length, decide (u.slc.silent = t.slc.silent))) = (1, 1, true) := by decide

/-- R185, REPEAT: it raises the notice SILENT once more, and the condition holds on. -/
theorem test_silent_line_repeats :
    (let s := (withLine { running with timer := true }).updSlc (fun c => { c with
       tx := some (.notice (acceptance (ask []))), settings := { c.settings with lineRepeat := true } })
     let t := after (.silent 2) s
     let u := after (.silent 2) (t.updTracker 2 (fun k => { k with timer := true }))
     (t.slc.notices.length, u.slc.notices.length, decide (u.slc.silent = t.slc.silent))) = (1, 2, true) := by decide

/-- The Request Unit or a channel at the arbiter. -/
def asking (u : ReqUnit) (s : State) : State := s.updSlc (fun c => { c with unit := u })

def frame0 : Frame := acceptance (ask [])

def stepFor (op : PlanOp) : State := onChannel .running (some { runWith (.play playing) with planOp := some op }) Staged.initial

def planFor (r : Ref) : PlanOp := { coil := r, up := true, span := { lo := 0, hi := 100 }, from_ := .start }

/-- A RETIRE being performed, a tracker, the Request Unit, an import frame past its first item, a channel, and nobody at the arbiter. -/
theorem witness_ArbiterServesInOrder :
    (asking (.table frame0 (.retire 2 0 true)) up).slc.unit = .table frame0 (.retire 2 0 true) ∧
    ((presenting up (.dropPending { handle := 3, seq := 9 })).trackers[(2 : Fin 4)]).waits = true ∧
    (asking (.clearing frame0 false) up).slc.unit = .clearing frame0 false ∧
    (∀ n ∈ [0, 1], (ReqUnit.table frame0 (.importing
      { last := true, items := [], at_ := n, accepted := 0, refused := 0, first := none, abandoned := none })).waits = decide (n = 0)) ∧
    ((stepFor (planFor { handle := 0, seq := 1 })).channels[(1 : Fin 4)]).run.map (fun r => r.planOp.isSome) = some true ∧
    (∀ l : Fin 4, (up.trackers[l]).work = none) := by
  refine ⟨rfl, ?_, rfl, ?_, ?_, ?_⟩ <;> decide

/-- R14: between two items of an import frame a planner's operation is served. -/
theorem test_plan_step_between_import_items :
    (asking (.table frame0 (.importing
      { last := true, items := [], at_ := 1, accepted := 0, refused := 0, first := none, abandoned := none }))
      (stepFor (planFor { handle := 0, seq := 1 }))).grant = some (.planner 1) := by decide

/-- Line 2's port in a receiver state, its frame in progress and its hand-over order given. -/
def port (rx : RxState) (cur : Option Filling) (order : List Item) (parity : Parity) : State :=
  (withLine { running with defn := { running.defn with parity := parity } }).updPort 2
    (fun p => { p with rx := rx, cur := cur, order := order, idleArmed := true })

/-- The five receiver states, with and without a buffer; a break with and without a restart mark; a framing error; a parity error under
ODD; a data, an own address and another address character; two frames waiting, and one. -/
theorem witness_CharacterMovesReceiver :
    (∀ rx ∈ [RxState.off, .settling, .hunt, .take, .pass], ∀ b ∈ [true, false],
      let s := port rx (some { buffered := b, body := [], count := 0, corrupt := false }) [] .odd
      s.startUp.ready = true ∧ (s.ports[(2 : Fin 4)]).rx = rx ∧ ((s.ports[(2 : Fin 4)]).cur.map (·.buffered)) = some b) ∧
    ((port .hunt none [.restart] .none).ports[(2 : Fin 4)]).order = [] ++ .restart :: [] ∧
    onesOf 0x03#8 false true % 2 = 1 ∧ ¬onesOf 0x03#8 false false % 2 = 1 ∧
    (18#8 : Byte).toNat = ((port .hunt none [] .none).trackers[(2 : Fin 4)]).defn.address ∧
    (∀ n ∈ [1, 2], let s := port .hunt none (List.replicate n (.frame 0#8 (.tail 0#32))) .none
      ((s.ports[(2 : Fin 4)]).order.filter Item.isFrame).length = n) ∧
    (∀ par ∈ [none, some Parity.odd], ((port .settling none [] .none).updPort 2 (fun p => { p with cuts := [par] })).ports[(2 : Fin 4)].cuts[0]?
      = some par) := by
  decide

/-- R60: a character begun under ODD and cut by a redefinition to parity NONE counts its parity error. -/
theorem test_cut_character_counts :
    (let s := (port .settling none [] .none).updPort 2 (fun p => { p with cuts := [some Parity.odd] })
     let t := after (.character 2 3#8 false false true 1) s
     ((t.ports[(2 : Fin 4)]).cnt.parityErrors, (t.ports[(2 : Fin 4)]).cuts)) = (1, []) := by decide

/-- The body of a TAIL frame of sequence 5 with its CRC-16. -/
def tailBody : List Byte := [4#8, 5#8, 4#8, 0#8, 0#8, 2#8, 0#8, 0x9C#8, 0x6D#8]

/-- An idle port, one in each state, and the ends of a frame: dropped, failing its CRC, well formed, malformed. -/
theorem witness_IdleEventEndsFrame :
    (∀ rx ∈ [RxState.off, .settling, .hunt, .pass], ((port rx none [] .none).ports[(2 : Fin 4)]).rx = rx ∧
      ((port rx none [] .none).ports[(2 : Fin 4)]).idleArmed = true) ∧
    (up.ports[(2 : Fin 4)]).idleArmed = false ∧
    (∀ f ∈ [Filling.mk false [] 0 false, .mk true tailBody 9 true, .mk true tailBody 9 false, .mk true tailBody.dropLast 8 false],
      ((port .take (some f) [] .none).ports[(2 : Fin 4)]).cur = some f) ∧
    (5 ≤ 9 ∧ field tailBody 2 1 = 4 ∧ (crc16 (tailBody.take 7)).toNat = field tailBody 7 2 ∧
      (parseStation (field tailBody 0 1) ((tailBody.drop 3).take 4)).isSome = true) ∧ parseStation 7 [] = none := by
  decide +kernel

/-- A TRACKING line with no gap and with one of two; a WAITING line with and without a segment; a segment due exactly and one not due. -/
theorem witness_PositionAppliesCounts :
    (∀ q ∈ [5#8, 7#8], ∀ st ∈ [LineState.tracking, .uncertain, .waiting], ∀ m ∈ [[], [segment], [{ segment with fh := 1030 }]],
      ItemHanded (withLine { running with state := st, map := m }) 2 (.frame q (.position 540#32 730#32 0#32))) ∧
    Missed (some 4) 5 = 0 ∧ Missed (some 4) 7 = 2 ∧ JumpCount 50000 (some 500) 50501 ∧ ¬JumpCount 50000 (some 500) 50500 := by
  refine ⟨?_, by decide, by decide, by unfold JumpCount; decide, by unfold JumpCount; decide⟩
  intro q hq st hs m hm
  refine hands ?_
  revert q st m; decide

/-- The head and tail of a segment of coil 3 whose tail falls due at 1,040; no length, a fault, a delivery head that leaves no span. -/
theorem witness_tail_due :
    let g : Segment := { segment with ft := some 1030, dh := some 1950 }
    (∀ m ∈ [g, { g with length := none }, { g with coil := none, fault := .detached }, { g with coil := none, length := none },
        { g with dh := some 2050 }],
      ItemHanded (withMap [m]) 2 (.frame 5#8 (.position 540#32 730#32 0#32)) ∧
      running.feed < 1040 ∧ 1030 + running.defn.pf ≤ 1040) := by
  intro g m hm
  refine ⟨hands ?_, by decide, by decide⟩
  revert m; decide

/-- R80: the tail of a segment that a RESET left without a coil is a track fault. -/
theorem test_lost_coil_is_track_fault :
    (let t := (after (.position 2 5#8 540#32 730#32 0#32)
       (withMap [{ segment with coil := none, length := none, ft := some 1030, dh := some 1950 }])).trackers[(2 : Fin 4)]
     (t.map.map (fun g => (g.fault, g.dt.isSome)), t.cnt.trackFaults, t.work)) = ([(.trackFault, true)], 1, none) := by decide

/-- R68: a gap met in WAITING marks the segments and leaves the line WAITING. -/
theorem test_gap_in_waiting_marks :
    (let t := after (.malformedItem 2 1#8 7#8) (withLine { running with state := .waiting, map := [segment] })
     ((t.trackers[(2 : Fin 4)]).state, (t.trackers[(2 : Fin 4)]).map.map (·.suspect))) = (.waiting, [true]) := by decide

/-- R68, R69: a GAP and a JUMP of one item in TRACKING, a GAP and the RESTART of one in WAITING, in their reasons and causes. -/
theorem test_line_breaks :
    ((lineBreaks 2 .tracking [0, 1]).map (fun n => (n.reason, n.detail)), (lineBreaks 2 .waiting [0, 1, 3]).map (fun n => (n.reason, n.detail)),
      becomesUncertain 2 running [0, 1], becomesUncertain 2 { running with state := .uncertain } [2]) =
    ([(1, some 0), (2, some 1)], [(2, some 0), (1, some 3)], true, false) := by decide

/-- A READINGS frame of gauge 7 with one reading left for slot 5. -/
def handing : Handing :=
  { seq := 5#8, frame := .readings 7#8 540#32 1#16 [33#16, 34#16] 0#32, slot := 5, dseq := 1, suspect := false, stride := 1, coord := 1041,
    raws := [34#16] }

/-- Gauge 6, which no slot of line 2 has, and gauge 7 of slot 5; its reading behind a closed mark, at it, and joining an open block. -/
theorem witness_ReadingsReachSlot :
    (∀ g ∈ [6#8, 7#8], ∀ b ∈ [none, some block],
      ItemHanded (withSlot b) 2 (.frame 5#8 (.readings g 540#32 1#16 [33#16, 34#16] 0#32))) ∧
    ((withSlot none).capture.slots[(5 : Fin 64)]).gauge = 7 ∧ ((withSlot none).capture.slots[(5 : Fin 64)]).side = .feed ∧
    (∀ m ∈ [1041, 1040], (((withSlot none).updSlot 5 (fun d => { d with mark := some m })).capture.slots[(5 : Fin 64)]).mark = some m) ∧
    (((withSlot none).updSlot 5 (fun d => { d with offset := 1041 })).capture.slots[(5 : Fin 64)]).offset = 1041 ∧
    (let t := after (.readings 2 5#8 7#8 540#32 1#16 ⟨[33#16, 34#16], some 1⟩ 0#32) (withSlot none)
     (t.trackers[(2 : Fin 4)]).work.map (·.op) = some (.hand handing)) := by
  refine ⟨?_, by decide, by decide, by decide, by decide, by decide⟩
  intro g hg b hb
  refine hands ?_
  revert g b; decide

/-- R96: readings still to be handed over when the slot is redefined are counted and dropped. -/
theorem test_readings_of_redefined_slot :
    (let c (k : Option Nat) : Instr := .readings 2 5#8 7#8 540#32 1#16 ⟨[33#16, 34#16], k⟩ 0#32
     let t := after (c none) ((after (c (some 1)) (withSlot none)).updSlot 5 (fun d => { d with dseq := 2 }))
     (t.capture.cnt.undefinedGauge, t.capture.cnt.captured)) = (1, 1) := by decide

/-- A map that takes an ENTRY, closed at 1,040 and empty; one whose last segment is open; one closed beyond it; a full one; and a TAIL on
an open, an empty and a closed map. -/
theorem witness_EntryAndTailMarkMap :
    (∀ m ∈ [[], [{ segment with ft := some 1040 }], [segment], [{ segment with ft := some 1041 }], [{ segment with fh := 1041 }],
        List.replicate 8 { segment with ft := some 1000 }, List.replicate 7 { segment with ft := some 950 } ++ [{ segment with fh := 1040 }],
        [{ segment with coil := none, fault := .detached }], [{ segment with coil := none, fault := .detached, fh := 1040 }]],
      ItemHanded (withMap m) 2 (.frame 5#8 (.entry 540#32 .headFirst 0#32 nameA)) ∧
      ItemHanded (withMap m) 2 (.frame 5#8 (.tail 540#32))) ∧
    running.preview .feed 540 = 1040 ∧ [segment] = [] ++ [segment] ∧ segment.ft = none ∧ segment.fh ≤ 1040 := by
  refine ⟨?_, by decide, rfl, rfl, by decide⟩
  intro m hm
  refine ⟨hands ?_, hands ?_⟩ <;> revert m <;> decide

/-- A next head 200,000,000 beyond the cut, and a cell more; names for each lane, and one too few; a head at the cut; a winding at the
shear that the cut ends. -/
theorem witness_CutMovesExitRecord :
    (∀ x ∈ [ExitRecord.initial, { head := some 2010, names := [nameA, nameB], suspect := false },
        { head := some 1500, names := [nameA, nameB], suspect := false }, { head := some 2011, names := [], suspect := false }],
      ∀ next ∈ [200000710#32, 200000711#32], ∀ names ∈ [[], [nameA], [nameA, nameB]],
      ItemHanded (withLine { running with exit := x }) 2 (.frame 5#8 (.cut 710#32 next names))) ∧
    running.preview .delivery 710 = 2010 ∧ 1500 < 2010 ∧ 2010 ≤ 1500 + 8000000 ∧
    (200000710 + 4294967296 - 710) % 4294967296 = 200000000 := by
  refine ⟨?_, by decide, by decide, by decide, by decide⟩
  intro x _ next _ names hs
  refine ⟨by with_unfolding_all rfl, rfl, ?_, .inr ⟨rfl, rfl, ?_⟩⟩
  · show LineState.tracking ≠ .undefined
    decide
  · simp only [List.mem_cons, List.not_mem_nil, or_false] at hs
    obtain rfl | rfl | rfl := hs <;> rfl

theorem witness_MalformedAndRestartItems :
    (∀ st ∈ [LineState.waiting, .uncertain, .tracking], ∀ k ∈ [1#8, 2#8, 3#8], ∀ q ∈ [5#8, 6#8],
      ItemHanded (withLine { running with state := st }) 2 (.malformed k q)) ∧
    ItemHanded (withSlot (some block)) 2 .restart ∧ ((withSlot (some block)).capture.slots[(5 : Fin 64)]).line = 2 := by
  refine ⟨?_, hands (by decide), by decide⟩
  intro st hs k hk q hq
  refine hands ?_
  revert st k q; decide

/-- An event handed to line 2, between two items, whose map and exit record are given. -/
def injecting (e : HostEvent) (m : List Segment) (x : ExitRecord) (st : LineState) : State :=
  asking (.line frame0 2 (.event e)) (withLine { running with map := m, exit := x, state := st })

/-- A TAIL at the head of an open segment and one before it; an ENTRY on an empty map, at the tail of a closed segment and a cell before it, at
the head of an open one and beyond it, with a place left and with none; a CUT at the exit head and before it, its next head 200,000,000 beyond and
a cell more, with names for each lane and one too few; one of a strip that all goes to scrap. -/
theorem witness_InjectedEventApplied :
    (∀ e ∈ [HostEvent.tail (some 900), .tail (some 899), .tail none, .entry none .headFirst 0 nameA, .entry (some 950) .headFirst 0 nameA,
        .entry (some 949) .headFirst 0 nameA, .entry (some 900) .headFirst 0 nameA, .entry (some 899) .headFirst 0 nameA,
        .cut (some 2000) (some 200002000) [], .cut (some 2000) (some 200002001) [], .cut (some 1999) (some 1999) [nameA, nameB],
        .cut (some 2000) (some 2000) [nameA]],
      ∀ m ∈ [[], [segment], [{ segment with ft := some 950 }], [{ segment with coil := none, fault := .detached }],
        List.replicate 8 segment, List.replicate 8 { segment with ft := some 950 }, [{ segment with dh := some 1930 }]],
      ∀ x ∈ [ExitRecord.initial, { head := some 2000, names := [], suspect := false },
        { head := some 1500, names := [nameA, nameB], suspect := false }],
      ∀ st ∈ [LineState.tracking, .uncertain, .waiting],
      (injecting e m x st).between 2 = true ∧ (injecting e m x st).slc.unit = .line frame0 2 (.event e)) ∧
    (List.replicate 8 segment = List.replicate 7 segment ++ [segment]) ∧
    (200002000 ≤ 2000 + 200000000) ∧ 1500 < 2000 ∧ running.defn.lanes = 2 ∧ max 1500 1930 < 2000 := by
  refine ⟨?_, rfl, by decide, by decide, rfl, by decide⟩
  intro e _ m _ x _ st _
  exact ⟨rfl, rfl⟩

/-- R88, R75: an INJECT ENTRY behind a closed segment places its own, and on a full map is answered NO ROOM. -/
theorem test_injected_entry :
    (let closed := { segment with ft := some 950, dh := some 1930, dt := some 1980 }
     let e : HostEvent := .entry (some 960) .headFirst 0 nameA
     let t := after (.injectedEvent 2) (injecting e [closed] ExitRecord.initial .uncertain)
     let u := after (.injectedEvent 2) (injecting e (List.replicate 8 closed) ExitRecord.initial .tracking)
     ((t.trackers[(2 : Fin 4)]).map.map (·.fh), (t.trackers[(2 : Fin 4)]).state, u.outgoing.map (·.payload.take 1),
       (u.trackers[(2 : Fin 4)]).state)) = ([900, 960], .tracking, [[9#8]], .uncertain) := by decide

/-- R83, R87: an INJECT CUT presents MAKE CHILD for the first finished coil; one with too few names is BAD VALUE, code 3. -/
theorem test_injected_cut :
    (let x : ExitRecord := { head := some 1500, names := [nameA, nameB], suspect := false }
     let t := after (.injectedEvent 2) (injecting (.cut none none []) [] x .tracking)
     let u := after (.injectedEvent 2) (injecting (.cut none none [nameA]) [] x .tracking)
     ((t.trackers[(2 : Fin 4)]).work.map (fun w => match w.op with | .makeChild (some p) _ => (p.name, p.head, p.length) | _ => ([], 0, 0)),
       u.outgoing.map (·.payload.take 1))) = (some (nameA, 1500, 500), [[3#8]]) := by decide

/-- A clear at line 2, alone and with line 0's still to come, and the table's part. -/
theorem witness_ClearReachesTrackersAndTable :
    (let s := asking (.clearing frame0 true) (withLine { running with clear := true })
     (s.trackers[(2 : Fin 4)]).clear = true ∧ (s.trackers[(2 : Fin 4)]).work = none ∧ s.startUp.ready = true ∧
      s.slc.unit = .clearing frame0 true ∧ s.archive.clear = false ∧ ∀ k : Fin 4, k ≠ 2 → (s.trackers[k]).clear = false) ∧
    (let s := asking (.clearing frame0 true) ((withLine { running with clear := true }).updTracker 0 (fun t => { t with clear := true }))
     (s.trackers[(0 : Fin 4)]).clear = true) ∧
    (let s := asking (.clearing frame0 false) (twoCoils .made)
     s.slc.unit = .clearing frame0 false ∧ TrackersQuiet s ∧ (∀ l : Fin 4, (s.trackers[l]).clear = false) ∧ s.archive.clear = false) := by
  refine ⟨by decide, by decide, rfl, quiets (by decide), by decide, rfl⟩

/-- The turn of line 2. -/
theorem witness_turn (st : CoilState) (op : TrackOp) : Turn (presenting (twoCoils st) op) 2 (workOf op) :=
  ⟨by cases op <;> with_unfolding_all rfl, rfl⟩

theorem witness_turn_up (op : TrackOp) : Turn (presenting up op) 2 (workOf op) := ⟨by cases op <;> with_unfolding_all rfl, rfl⟩

/-- The steps left are the last of an item, and no crossing falls due for a segment whose head lies 5 before the feed odometer. -/
theorem witness_last_steps (op : TrackOp) : LastSteps (workOf op).todo ∧ segment.ft = none ∧ segment.dt = none ∧
    NoneDue { running with map := [{ segment with fh := 995, ft := some 1000 }] } := by
  refine ⟨?_, rfl, rfl, ?_⟩
  · intro k hk
    simp only [workOf, lastTasks, crossTasks, if_true, List.mem_append, List.mem_cons, List.not_mem_nil, or_false] at hk
    rcases hk with (h | h) | h
    · refine .inl ?_
      rcases h with h | h | h | h | h | h | h | h | h | h | h | h | h | h | h | h <;> subst h <;> first | exact ⟨_, .inl rfl⟩ | exact ⟨_, .inr rfl⟩
    · exact .inr (.inl h)
    · exact .inr (.inr h)
  · intro x hx
    obtain rfl := List.mem_singleton.1 hx
    exact ⟨fun _ => by decide, fun f h _ => by cases h; decide⟩

/-- A name no record bears, with sequences left and with none; a MADE record without children, and one that is CONSUMED. -/
theorem witness_EnterCoilRecords :
    (∀ c ∈ up.table.coils, c.indexed = true → c.name ≠ nameA) ∧ up.table.nextSeq ≤ 4294967295 ∧ up.table.coils.length < 16384 ∧
    up.table.links.length ≤ 49152 ∧
    (∃ d ∈ (twoCoils .made).table.coils, d.indexed = true ∧ d.name = nameA ∧ d.state = .made ∧ d.children = []) ∧
    (∃ d ∈ (twoCoils .consumed).table.coils, d.indexed = true ∧ d.name = nameA ∧ d.state ≠ .made) ∧
    PoolInv (twoCoils .consumed).table ∧ NameInv (twoCoils .consumed).table ∧
    Turn (presenting { up with table := { Genealogy.initial with nextSeq := 4294967296 } } (.enterCoil nameA .headFirst 900 0)) 2
      (workOf (.enterCoil nameA .headFirst 900 0)) := by
  refine ⟨by decide, by decide, by decide, by decide, ⟨_, .head _, rfl, rfl, rfl, rfl⟩, ⟨_, .head _, rfl, rfl, by decide⟩, ?_, ?_,
    by with_unfolding_all rfl, rfl⟩
  · unfold PoolInv; decide
  · unfold NameInv; decide

/-- A coil pool of the first `n` slots, no record indexed, every record in one state. -/
def poolOf (n : Nat) (st : CoilState) : Genealogy :=
  { Genealogy.initial with coils := (List.range n).map (fun h => { coil h nameB none st with indexed := false }), nextSeq := n + 1 }

theorem poolOf_coil {n : Nat} {st : CoilState} {c : Coil} (h : c ∈ (poolOf n st).coils) :
    c.handle < n ∧ c.indexed = false ∧ c.state = st ∧ c.parents = [] ∧ c.children = [] ∧ c.seq = c.handle + 1 := by
  obtain ⟨k, hk, rfl⟩ := List.mem_map.1 h
  exact ⟨List.mem_range.1 hk, rfl, rfl, rfl, rfl, rfl⟩

/-- The pool is legal; it bears no name; MADE records of it are eligible, the lowest sequence first, ENTERED ones not. -/
theorem poolOf_legal (n : Nat) (st : CoilState) (full : n ≤ 16384) :
    PoolInv (poolOf n st) ∧ NameInv (poolOf n st) ∧ (poolOf n st).coils.length = n ∧
    (∀ c ∈ (poolOf n st).coils, c.indexed = true → c.name ≠ nameA) ∧ (∀ c ∈ (poolOf n st).coils, c.state = st ∧ c.children = []) ∧
    (0 < n → ∃ c ∈ (poolOf n st).coils, ∀ d ∈ (poolOf n st).coils, d.handle ≠ c.handle → c.seq < d.seq) := by
  refine ⟨⟨?_, fun c h => Nat.lt_of_lt_of_le (poolOf_coil h).1 full, List.Pairwise.nil, fun m h => (List.not_mem_nil h).elim, ?_⟩, ?_, ?_,
    ?_, ?_, ?_⟩
  · exact List.pairwise_map.2 (List.pairwise_lt_range.imp (fun h => h))
  · intro c h
    simp [(poolOf_coil h).2.2.2.1, (poolOf_coil h).2.2.2.2.1]
  · intro c h d _ e
    simp [(poolOf_coil h).2.1] at e
  · simp [poolOf]
  · intro c h e
    simp [(poolOf_coil h).2.1] at e
  · exact fun c h => ⟨(poolOf_coil h).2.2.1, (poolOf_coil h).2.2.2.2.1⟩
  · intro pos
    refine ⟨{ coil 0 nameB none st with indexed := false }, List.mem_map.2 ⟨0, List.mem_range.2 pos, rfl⟩, ?_⟩
    intro d h e
    have hs := (poolOf_coil h).2.2.2.2.2
    show 1 < d.seq
    have : d.handle ≠ 0 := e
    omega

/-- AUTO-RETIRE for ENTER COIL on a full pool, with eligible records and with none; its notice has room. -/
theorem witness_AutoRetire (n : Nat) (st : CoilState) :
    let s := presenting { up with table := poolOf n st } (.enterCoil nameA .headFirst 900 0)
    Turn s 2 (workOf (.enterCoil nameA .headFirst 900 0)) ∧ s.table = poolOf n st ∧ s.slc.notices = [] ∧ s.startUp.ready = true ∧
      s.slc.settings.genealogy = true :=
  ⟨⟨by with_unfolding_all rfl, rfl⟩, rfl, rfl, rfl, rfl⟩

/-- Coil A is ENTERED from feed 900; it closes at 900, and at 8,000,901; a stale reference is one of another sequence; the steps left are those
of a TAIL, of an ENTRY and of EMPTY LINE. -/
theorem witness_CloseEntryRecords :
    (∀ ft ∈ [900, 901, 8000901], ∀ ks : List Task,
        ks = lastTasks true true ∨ ks = .place .headFirst ft 0 nameB :: lastTasks true true ∨ ks = [.drop 0, .emptyMap] → ∀ r : Ref,
      let w : Work := { workOf (.closeEntry r ft) with todo := ks }
      Turn (presentingOn [{ segment with ft := some ft }] w (twoCoils .entered)) 2 w) ∧
    (∀ ft ∈ [900, 901, 8000901],
      ∃ c ∈ (twoCoils .entered).table.coils, ∃ p, c.handle = 0 ∧ c.seq = 1 ∧ c.state = .entered ∧ c.consumed = some p ∧ p.fh ≤ ft) ∧
    PoolInv (twoCoils .entered).table ∧ (∀ c ∈ (twoCoils .entered).table.coils, c.handle = 0 → c.seq ≠ 2 ∨ c.state ≠ .entered) ∧
    [segment][0]? = some segment ∧ segment.fh = 900 := by
  refine ⟨fun _ _ _ _ _ => ⟨by with_unfolding_all rfl, rfl⟩, ?_, twoEntered_pools.1, by decide, rfl, rfl⟩
  intro ft h
  refine ⟨_, .head _, _, rfl, rfl, rfl, rfl, ?_⟩
  revert ft; decide

/-- A pending link to coil A of cells 0 to 10, and one of no cells. -/
def newLink (hi : Nat) : NewLink :=
  { childSpan := { lo := 0, hi := hi }, scrap := 0, parent := { handle := 0, seq := 1 }, lane := .whole, dir := .same, suspect := false,
    parentSpan := none, source := { lo := 1990, hi := 2000 } }

/-- A scrap link to coil A, FINAL over cells 290 to `hi`. -/
def finalScrap (hi : Nat) : NewLink := { newLink 0 with scrap := 10, parentSpan := some { lo := 290, hi := hi } }

/-- A child with a PENDING link and a FINAL scrap link, one with a link of no cells, and none; a parent span up to the end of its coil, and a cell
beyond; child spans that overlap, and new links of one coil whose parent spans do; sequences and places left, and none: `poolOf_legal` gives the pool of ENTERED records, and more scrap links than the link pool holds fit no
pool. -/
theorem witness_MakeChildRecords :
    (∀ child : Option ChildPart, ∀ scraps, Turn (presenting (twoCoils .entered) (.makeChild child scraps)) 2 (workOf (.makeChild child scraps))) ∧
    (let p : ChildPart := { name := [0x43#8], lane := .whole, head := 1990, length := 10, suspect := false, clamped := false, links := [newLink 10] }
     let g := (twoCoils .entered).table
     let new := p.links ++ [finalScrap 300]
     PoolInv g ∧ new.filter (fun n => g.coils.any (fun c => c.handle == n.parent.handle && c.seq == n.parent.seq)) = new ∧
     (∀ n ∈ new, ∀ q, n.parentSpan = some q → ∃ c ∈ g.coils, c.handle = n.parent.handle ∧ (∃ len, c.length = some len ∧ q.lo < q.hi ∧ q.hi ≤ len)) ∧
     g.links = [] ∧ (∀ n ∈ p.links, n.parentSpan = none ∧ n.childSpan.lo < n.childSpan.hi ∧ n.childSpan.hi ≤ p.length) ∧
     (∀ c ∈ g.coils, c.handle = 0 → c.length = some 300) ∧ (∀ c ∈ g.coils, c.state = .entered ∨ c.handle = 1)) ∧
    (newLink 0).childSpan.hi ≤ (newLink 0).childSpan.lo ∧ 300 < 301 ∧
    (¬[newLink 10, newLink 5].Pairwise (fun m n => m.childSpan.hi ≤ n.childSpan.lo ∨ n.childSpan.hi ≤ m.childSpan.lo)) ∧
    (¬[finalScrap 300, finalScrap 295].Pairwise (fun m n => m.parent = n.parent → ∀ x y, m.parentSpan = some x → n.parentSpan = some y →
      min x.hi y.hi ≤ max x.lo y.lo ∨ m.lane ≠ n.lane ∧ m.lane ≠ .whole ∧ n.lane ≠ .whole)) ∧
    (∀ n q child, let s := presenting { up with table := { poolOf n .entered with nextSeq := q } } (.makeChild child [])
      Turn s 2 (workOf (.makeChild child [])) ∧ s.startUp.ready = true ∧ s.slc.settings.genealogy = true ∧ s.slc.notices = []) ∧
    (∀ n ∈ List.replicate 49153 (newLink 10), n = newLink 10) ∧ (List.replicate 49153 (newLink 10)).length = 49153 := by
  refine ⟨fun _ _ => witness_turn _ _, ⟨twoEntered_pools.1, rfl, ?_, rfl, ?_, by decide, by decide⟩, by decide, by decide,
    by decide, fun h => absurd ((List.pairwise_cons.1 h).1 _ (.head _) rfl _ _ rfl rfl) (by decide), fun _ _ _ => ⟨⟨by with_unfolding_all rfl, rfl⟩, rfl, rfl, rfl⟩, fun _ h => List.eq_of_mem_replicate h, List.length_replicate⟩
  · intro n hn q hq
    simp only [List.cons_append, List.nil_append, List.mem_cons, List.not_mem_nil, or_false] at hn
    rcases hn with rfl | rfl
    · cases hq
    · cases hq
      exact ⟨_, .head _, rfl, 300, rfl, by decide, by decide⟩
  · decide

/-- A segment with a pending link, the operations for it and for a stale reference; delivery spans that tile it, the last one going beyond it. -/
theorem witness_PendingLinksFinalizedOrDropped :
    PoolInv pendingTable.table ∧
    (∀ op ∈ [TrackOp.dropPending { handle := 0, seq := 1 }, .dropPending { handle := 0, seq := 2 },
        .finalize { handle := 0, seq := 1 } .headFirst 900 1200 1900 2200 300 false,
        .finalize { handle := 0, seq := 2 } .headFirst 900 1200 1900 2200 300 false],
      Turn (presenting pendingTable op) 2 (workOf op)) ∧
    (∀ c ∈ pendingTable.table.coils, c.handle = 0 → c.seq ≠ 2) ∧
    (∃ c ∈ pendingTable.table.coils, c.handle = 0 ∧ c.seq = 1 ∧ ∃ m ∈ pendingTable.table.links, PendingFor c 2 m ∧
      ∃ q, m.source = some q ∧ max q.span.lo 1900 < min q.span.hi 2200 ∧
        finalSpan .headFirst 900 1200 1900 2200 300 q.span = some { lo := 90, hi := 100 } ∧
        finalSpan .tailFirst 900 1200 1900 2200 300 q.span = some { lo := 200, hi := 210 }) ∧
    (900 < 1200 ∧ 1200 - 900 ≤ 200000000 ∧ 1900 < 2200 ∧ 2200 - 1900 ≤ 200000000 ∧ 1 ≤ 300 ∧ 300 ≤ 8000000) ∧
    (let cut : Nat → Nat := fun i => if i = 0 then 1900 else if i = 1 then 2000 else 2200
     cut 0 = 1900 ∧ cut 2 = 2200 ∧ ∀ i < 2, cut i ≤ cut (i + 1)) ∧
    finalSpan .headFirst 900 1200 1900 2200 300 { lo := 1900, hi := 2000 } = some { lo := 0, hi := 100 } ∧
    finalSpan .headFirst 900 1200 1900 2200 300 { lo := 2000, hi := 2300 } = some { lo := 100, hi := 300 } := by
  refine ⟨by unfold PoolInv; decide, fun op _ => ⟨by cases op <;> with_unfolding_all rfl, rfl⟩, by decide, ⟨_, .head _, rfl, rfl, _, .head _, ⟨by decide, rfl, rfl, _, rfl, rfl⟩, ?_⟩, by decide, by decide, by decide, by decide⟩
  exact ⟨_, rfl, by decide, by decide, by decide⟩

/-- An import frame at its first of two items. -/
def importOf (i : ImportItem) : ImportJob :=
  { last := true, items := [i, i], at_ := 0, accepted := 0, refused := 0, first := none, abandoned := none }

/-- A coil of length 8,000,000 and one of a cell more; one whose name is taken; a link of A to B, which ORDER refuses, the other way round,
which is recorded, and one to a name nobody bears. -/
theorem witness_ImportItemsRecorded :
    (∀ i ∈ [ImportItem.coil 0#8 8000000 [0x43#8], .coil 0#8 8000001 [0x43#8], .coil 0#8 5 nameA,
        .link 0#8 0xFF#8 { lo := 0, hi := 10 } { lo := 0, hi := 10 } nameA nameB,
        .link 0#8 0xFF#8 { lo := 0, hi := 10 } { lo := 0, hi := 10 } nameB nameA,
        .link 0#8 0xFF#8 { lo := 0, hi := 10 } { lo := 0, hi := 10 } [0x43#8] nameA,
        .link 1#8 0xFF#8 { lo := 0, hi := 10 } { lo := 0, hi := 300 } nameB nameA,
        .link 1#8 16#8 { lo := 0, hi := 10 } { lo := 0, hi := 10 } nameB nameA,
        .link 0#8 0xFF#8 { lo := 0, hi := 10 } { lo := 0, hi := 301 } nameB nameA,
        .link 0#8 0xFF#8 { lo := 0, hi := 10 } { lo := 0, hi := 10 } [] nameA],
      (asking (.table frame0 (.importing (importOf i))) (twoCoils .made)).slc.unit = .table frame0 (.importing (importOf i)) ∧
      TrackersQuiet (asking (.table frame0 (.importing (importOf i))) (twoCoils .made)) ∧
      (importOf i).at_ + 1 < (importOf i).items.length) ∧
    (let j := { importOf (.coil 0#8 5 nameA) with at_ := 1 }
     j.items[j.at_]? = some (.coil 0#8 5 nameA) ∧ j.items.length ≤ j.at_ + 1) ∧
    PoolInv (twoCoils .made).table ∧ NameInv (twoCoils .made).table ∧
    (∃ c ∈ (twoCoils .made).table.coils, c.indexed = true ∧ c.name = nameB ∧ c.seq = 2 ∧ c.length = some 500) ∧
    (∃ p ∈ (twoCoils .made).table.coils, p.indexed = true ∧ p.name = nameA ∧ p.seq = 1 ∧ p.consumed = none) := by
  refine ⟨?_, ⟨rfl, Nat.le_refl 2⟩, twoCoils_pools.1, twoCoils_pools.2, ⟨_, .tail _ (.head _), rfl, rfl, rfl, rfl⟩,
    ⟨_, .head _, rfl, rfl, rfl, rfl⟩⟩
  intro i _
  refine ⟨rfl, quiets ?_, Nat.one_lt_two⟩
  show ∀ l : Fin 4, ((twoCoils .made).trackers[l]).waits = false
  decide

/-- Coil A linked to coil B over cells 0 to 10 of both, so that B's cells 5 to 20 overlap it and cells 10 to 20 do not; and a parent with a
consumed passage. -/
theorem witness_ImportLinkRefused :
    (let g : Genealogy := { pendingTable.table with links := pendingTable.table.links.map (fun m => { m with parentSpan := some { lo := 0, hi := 10 }, source := none }) }
     PoolInv g ∧ NameInv g ∧ ∃ m ∈ g.links, ∃ c ∈ g.coils, m.handle ∈ c.parents ∧ c.name = nameB ∧
       ¬min m.childSpan.hi 10 ≤ max m.childSpan.lo 5 ∧ min m.childSpan.hi 20 ≤ max m.childSpan.lo 10) ∧
    (∃ p ∈ (twoCoils .entered).table.coils, p.indexed = true ∧ p.name = nameA ∧ p.seq = 1 ∧ p.consumed ≠ none) := by
  refine ⟨⟨by unfold PoolInv; decide, by unfold NameInv; decide, _, .head _, _, .tail _ (.head _), by decide, rfl, by decide, by decide⟩, ?_⟩
  exact ⟨_, .head _, rfl, rfl, rfl, by decide⟩

/-- A pool of `n` links beside coils A and B, both of them named by the item: at 49,152, NO ROOM of a link. -/
theorem witness_full_links (n : Nat) (full : n ≤ 49152) :
    let m (h : Nat) : Link :=
      { handle := h, child := none, childSpan := { lo := 0, hi := 0 }, scrap := 1, parent := 0, parentSpan := some { lo := 0, hi := 1 },
        dir := .same, lane := .whole, line := 2, suspect := false, source := none }
    let g : Genealogy := { (twoCoils .made).table with links := (List.range n).map m }
    PoolInv g ∧ NameInv g ∧ g.links.length = n ∧ ∀ d ∈ g.coils, d.handle = 1 ∨ d.handle = 0 := by
  intro m g
  refine ⟨⟨twoCoils_pools.1.1, twoCoils_pools.1.2.1, List.pairwise_map.2 (List.pairwise_lt_range.imp (fun h => h)), ?_, ?_⟩,
    twoCoils_pools.2, by simp [g], ?_⟩
  · intro l hl
    obtain ⟨k, hk, rfl⟩ := List.mem_map.1 hl
    exact Nat.lt_of_lt_of_le (List.mem_range.1 hk) full
  · intro c hc
    have bare : ∀ c ∈ (twoCoils .made).table.coils, c.parents = [] ∧ c.children = [] := by decide
    simp [(bare c hc).1, (bare c hc).2]
  · show ∀ d ∈ (twoCoils .made).table.coils, d.handle = 1 ∨ d.handle = 0
    decide

/-- Channel 1 with a PLAN STEP at the arbiter, beside coils A and B. -/
def planning (st : ChanState) (r : Ref) (b : RunBody) : State :=
  { onChannel st (some { runWith b with planOp := some (planFor r) }) Staged.initial with table := (twoCoils .made).table }

/-- A RUNNING walk whose PLAN STEP for the target is granted. -/
theorem witness_walk_step :
    let lv := targetLevel { handle := 0, seq := 1 } { lo := 0, hi := 100 }
    let r := (walking true 0 [] (some (.visit lv))).1
    let s := planning .running { handle := 0, seq := 1 } r.body
    s.grant = some (.planner 1) ∧ (s.channels[(1 : Fin 4)]).state = .running ∧
      (s.channels[(1 : Fin 4)]).run = some { runWith r.body with planOp := some (planFor { handle := 0, seq := 1 }) } ∧
      (runWith r.body).closed = none := by
  decide

theorem witness_PlanStepAnswers :
    (∀ st ∈ [ChanState.held, .running], ∀ r ∈ [Ref.mk 0 1, Ref.mk 0 2],
      (planning st r (.play playing)).grant = some (.planner 1) ∧
      ((planning st r (.play playing)).channels[(1 : Fin 4)]).state = st) ∧
    (∃ c ∈ (twoCoils .made).table.coils, c.handle = 0 ∧ c.seq = 1) ∧ (∀ c ∈ (twoCoils .made).table.coils, c.handle = 0 → c.seq ≠ 2) ∧
    (let lv : Level := { coil := Ref.mk 0 2, span := { lo := 0, hi := 9 }, stages := [], depth := 0, reversed := false, suspect := false,
                         hasParents := false, links := [], next := none, cursor := 0, via := none }
     let w : Walk := { up := true, depth := 1, perFrame := 8, stack := [], await := some (.visit lv), records := 0 }
     w.await = some (.visit lv) ∧ lv.via = none) := by
  refine ⟨?_, ⟨_, .head _, rfl, rfl⟩, by decide, rfl, rfl⟩
  decide

/-- A run whose window and planner wait for the target's answer; a step DOWN of a HELD run. -/
theorem witness_PlanStepOfRunningRun :
    (let lv := targetLevel { handle := 0, seq := 2 } { lo := 0, hi := 40 }
     let w : Window := { no := 0, bin0 := 0, bin1 := 4, span := { lo := 0, hi := 40 }, stage := .planning, plan := [], nextId := 0,
                         frag := false, lost := [], accs := [] }
     let pl : Planner := { trace := 0, stack := [], await := some (.visit lv) }
     let s := planning .running { handle := 0, seq := 2 } (.play { playing with wins := [w], planner := some pl })
     s.grant = some (.planner 1) ∧ (s.channels[(1 : Fin 4)]).state = .running ∧ w.stage = .planning ∧ lv.depth = 0 ∧
       pl.await = some (.visit lv) ∧ ∀ c ∈ s.table.coils, c.handle = 0 → c.seq ≠ 2) ∧
    (let op : PlanOp := { coil := { handle := 0, seq := 1 }, up := false, span := { lo := 0, hi := 100 }, from_ := .start }
     let s : State := { onChannel .held (some { runWith (.play playing) with planOp := some op }) Staged.initial with table := pendingTable.table }
     s.grant = some (.planner 1) ∧ PoolInv s.table ∧ op.up = false) :=
  ⟨by decide, by decide, by unfold PoolInv; decide, rfl⟩

/-- Plans whose 65th span starts in bin 2 and in the window's first bin, and one of one span; each in order within its window. -/
theorem witness_plan_limits :
    ∀ n ∈ [0, 20], ∀ k ∈ [1, 65],
      let xs : List Span := List.replicate k { id := 0, trace := 0, target := { lo := n, hi := 30 }, kind := .gap .noData }
      let w : Window := { no := 0, bin0 := 0, bin1 := 4, span := { lo := 0, hi := 40 }, stage := .planning, plan := xs, nextId := 1,
                          frag := false, lost := [(0, 5)], accs := [] }
      w.span = binSpan (runWith (.play playing)) playing w.bin0 w.bin1 ∧ w.bin0 < w.bin1 ∧
      w.plan.Pairwise (fun x y => x.target.lo < y.target.lo ∨ x.target.lo = y.target.lo ∧ x.trace ≤ y.trace) ∧
      (w.plan[64]?).isSome = (k == 65) := by
  decide

/-- A coil with a made passage on the trace's line and one ENTERED there. -/
theorem witness_visited :
    (let c : Coil := { coil 0 nameA (some 300) .made with made := some { line := 2, lane := .whole, head := 1000 } }
     c.made = some { line := 2, lane := .whole, head := 1000 } ∧ c.length = some 300 ∧
     (targetLevel c.ref { lo := 0, hi := 300 }).stages = [] ∧ (targetLevel c.ref { lo := 0, hi := 300 }).reversed = false) ∧
    (coil 0 nameA (some 300) .entered).consumed = some { line := 2, orient := .headFirst, fh := 900, ft := none } ∧
    (coil 0 nameA (some 300) .made).made = none ∧ (playing.traces[0]?).map (·.line) = some 2 := by decide

/-- The links of a level of cells 0 to 99: one of 100 to 109 beyond it, PENDING and FINAL ones within it, at the depth limit and below; a FINAL one
whose boundary map gives no cell; a level with no link left; a level retired at a later step. -/
theorem witness_links_taken :
    (let lv := targetLevel { handle := 1, seq := 2 } { lo := 0, hi := 100 }
     let left : Ival := { lo := lv.cursor, hi := lv.span.hi }
     min 110 left.hi ≤ max 100 left.lo ∧ max 10 left.lo < min 20 left.hi ∧
     (∀ d ∈ [0, 1], ({ playing with depth := d }.depth ≤ lv.depth) = (d = 0)) ∧
     ((Stage.mk { lo := 10, hi := 20 } { lo := 0, hi := 5 } .same).boundary { lo := 11, hi := 12 }).hi ≤
       ((Stage.mk { lo := 10, hi := 20 } { lo := 0, hi := 5 } .same).boundary { lo := 11, hi := 12 }).lo ∧
     ((Stage.mk { lo := 10, hi := 20 } { lo := 0, hi := 5 } .same).boundary { lo := 10, hi := 12 }).lo <
       ((Stage.mk { lo := 10, hi := 20 } { lo := 0, hi := 5 } .same).boundary { lo := 10, hi := 12 }).hi ∧
     lv.next = none ∧ lv.links = [] ∧
     beyond { no := 0, bin0 := 0, bin1 := 4, span := { lo := 0, hi := 40 }, stage := .planning, plan := [], nextId := 0, frag := false,
              lost := [], accs := [] } lv = false ∧
     0 < { lv with depth := 1 }.depth) ∧
    ((walkLink true true).link.parentSpan.isSome ∧ (walkLink true true).far.isSome ∧ (walkLink false true).link.parentSpan = none) ∧
    (let q : ConsumedPassage := { line := 2, orient := .tailFirst, fh := 0, ft := some 200000000 }
     q.fh < 200000000 ∧ 200000000 - q.fh ≤ 200000000 ∧ ¬(200000001 - q.fh ≤ 200000000)) := by
  decide

/-- An open block, the archive at work: with room in the queue, with 16 blocks in it, and EXHAUSTED. -/
theorem witness_ClosedBlockIsHandedOn :
    (∀ n ∈ [15, 16], ∀ e ∈ [true, false],
      let b : Block := { slot := 5, dseq := 1, line := 2, side := .feed, lane := .whole, bseq := 1, first := 0, last := 0, entries := [], suspect := false }
      let s : State := { withSlot (some block) with archive := { Archive.initial with queue := List.replicate n b, exhausted := e, op := some .program } }
      (s.capture.slots[(5 : Fin 64)]).block = some block ∧ s.archive.nextBlock ≤ 281474976710655 ∧ s.archive.queue.length = n) ∧
    ((withSlot none).capture.slots[(5 : Fin 64)]).block = none := by
  refine ⟨?_, by decide⟩
  decide

/-- The block at the head of the queue, its page 54 and 55 of group 3 the write point. -/
def programming (page : Nat) (failed : Bool) : State :=
  let b : Block := { slot := 5, dseq := 1, line := 2, side := .feed, lane := .whole, bseq := 7, first := 60, last := 60,
                     entries := [(0, 5#16)], suspect := false }
  { withSlot none with archive := { Archive.initial with queue := [b], op := some .program, group := 3, page := page,
                                                         groups := [(3, .filling)], headFailed := failed } }

theorem witness_ProgramStoresPage :
    ∀ p ∈ [54, 55, 62, 63], ∀ f ∈ [true, false],
      (programming p f).archive.op = some .program ∧ (programming p f).archive.queue.length = 1 ∧
      (programming p f).archive.clear = false ∧ (programming p f).archive.headFailed = f ∧ (programming p f).archive.groupState 4 = .full ∧
      ((programming p f).capture.slots[(5 : Fin 64)]).defined = true ∧ ((programming p f).capture.slots[(5 : Fin 64)]).dseq = 1 := by decide

/-- CLEAR ALL DATA waiting while each flash operation ends, alone of the parts or not; its only usable group, or none, and the next usable. A block
of 120 readings. -/
theorem witness_waiting_clear :
    (∀ op ∈ [FlashOp.program, .erase 3, .read aRead true], ∀ d ∈ [true, false], ∀ gs ∈ [[(3, GroupState.filling)], [(3, .filling), (4, .failing)]],
      let s : State := asking (.clearing frame0 d) (programming 9 false)
      let k : Archive := { s.archive with op := some op, clear := true, groups := gs }
      k.op = some op ∧ k.clear = true ∧ k.queue.length = 1 ∧ s.slc.unit = .clearing frame0 d ∧
      (∀ l : Fin 4, (s.trackers[l]).clear = false) ∧ k.groupState 4 = (if gs.length = 1 then .full else .failing)) ∧
    GroupsInv (programming 9 false).archive ∧ (List.replicate 120 (65535, 5#16)).length ≤ 120 ∧
    (∀ x ∈ List.replicate 120 ((65535 : Nat), 5#16), x.1 < 65536) := by
  refine ⟨by decide, by unfold GroupsInv; decide, by decide, fun x h => ?_⟩
  rw [List.eq_of_mem_replicate h]
  decide

/-- R107: after page 63 the group is FULL and the write point stands at the next. -/
theorem test_program_fills_group :
    (let a := (after (.program .good) (programming 63 false)).archive
     (a.group, a.page, a.groupState 3)) = (4, 0, .full) := by decide

/-- R108: a PROGRAM that failed once keeps its block at the front and makes the group FAILING. -/
theorem test_program_fails_once :
    (let a := (after (.program .failed) (programming 54 false)).archive
     (a.queue.length, a.headFailed, a.groupState 3, a.group)) = (1, true, .failing, 4) := by decide

/-- The last group erased; and so many groups BAD that 64 or 65 are usable, with one FAILING after them. -/
theorem witness_EraseEmptiesGroup :
    (let s : State := { up with archive := { Archive.initial with op := some (.erase 4095) } }
     s.archive.op = some (.erase 4095) ∧ s.archive.clear = false ∧ GroupsInv s.archive) ∧
    ∀ n ∈ [4031, 4032],
      let a : Archive := { Archive.initial with
        op := some (.erase 4095), groups := (List.range n).map (fun g => (g, GroupState.bad)) ++ [(4033, .failing)] }
      a.usable = 4096 - n ∧ a.groups.Pairwise (fun p q => p.1 < q.1) := by
  refine ⟨⟨rfl, rfl, by unfold GroupsInv; decide⟩, fun n hn => ⟨?_, ?_⟩⟩
  · simp [Archive.usable, groupCount, List.filter_map, Function.comp_def]
  · rw [List.pairwise_append]
    refine ⟨?_, by simp, ?_⟩
    · rw [List.pairwise_map]
      exact List.pairwise_lt_range
    · intro x hx y hy
      simp only [List.mem_map, List.mem_range, List.mem_singleton] at hx hy
      obtain ⟨g, hg, rfl⟩ := hx
      subst hy
      simp only [List.mem_cons, List.not_mem_nil, or_false] at hn
      show g < 4033
      omega

/-- The erase of the write point's group, an ERASED group after it; the idle archive with 11 and 12 blocks, after a READ and not, with a
request of channel 3 or none, its write point in a FULL group, or at pages 55 and 56 of a FILLING one. -/
theorem witness_ChooseFlashOperation :
    (let k : Archive := { Archive.initial with op := some (.erase 3), group := 3, groups := [(4, .erased)] }
     k.op = some (.erase 3) ∧ k.clear = false ∧ k.group = 3 ∧ k.groupState 4 = .erased ∧ k.exhausted = false) ∧
    (∀ n ∈ [0, 11, 12], ∀ o ∈ [none, some OpKind.read], ∀ st ∈ [[], [(3, GroupState.filling)]], ∀ pg ∈ [55, 56], ∀ e ∈ [true, false],
      let b : Block := { slot := 5, dseq := 1, line := 2, side := .feed, lane := .whole, bseq := 7, first := 60, last := 60, entries := [], suspect := false }
      let k : Archive := { Archive.initial with queue := List.replicate n b, lastOp := o, group := 3, page := pg, groups := st, exhausted := e }
      k.op = none ∧ k.clear = false ∧ k.requests = [] ∧ k.queue.length = n ∧ k.groupState 4 = .full ∧
        k.groupState k.group = (if st = [] then .full else .filling)) ∧
    (let q : ReadReq := { ch := 3, slot := 5, entry := { page := 0, bseq := 1, dseq := 1, first := 5, last := 9, suspect := false }, line := 2,
                          side := .feed, lane := .whole }
     let k : Archive := { Archive.initial with requests := [q] }
     q ∈ k.requests ∧ ∀ j : Fin 4, j - k.lastChan - 1 < (3 : Fin 4) - k.lastChan - 1 → ∀ x ∈ k.requests, x.ch ≠ j) := by
  refine ⟨by decide, by decide, by decide, by decide⟩

/-- A READ for channel 1, HELD, with a fetch cursor on a DATA span. -/
def reading (wanted : Bool) : State :=
  let q : ReadReq := { ch := 1, slot := 5, entry := { page := 0, bseq := 1, dseq := 1, first := 5, last := 9, suspect := false }, line := 2,
                       side := .feed, lane := .whole }
  let x : Span := { id := 0, trace := 0, target := { lo := 0, hi := 40 }, kind := .data { lo := 0, hi := 40 } [] none false }
  let w : Window := { no := 0, bin0 := 0, bin1 := 4, span := { lo := 0, hi := 40 }, stage := .fetching, plan := [x], nextId := 1,
                      frag := false, lost := [], accs := [] }
  { onChannel .held (some (runWith (.play { playing with wins := [w], fetch := some { win := 0, span := some x, toRead := [], more := none, rest := [] } })))
      Staged.initial with archive := { Archive.initial with op := some (.read q wanted) } }

/-- What a good READ meets in a HELD and in a RUNNING run: the fetch cursor's span, its window, and the windows and spans told apart. -/
theorem witness_good_read :
    ∀ st ∈ [ChanState.held, .running],
      let s := (reading true).updChannel 1 (fun c => { c with state := st })
      (s.channels[(1 : Fin 4)]).state = st ∧
      ((s.channels[(1 : Fin 4)]).run.bind (fun r => match r.body with
        | .play w => (w.fetch.bind (·.span)).map (fun x => decide (x.id = 0 ∧ (w.wins.map (·.no)) = [0] ∧ w.nextWin = 1))
        | .walk _ => none)) = some true := by decide

/-- The fetcher without a cursor beside a window it may take, and with none; its cursor with no span and one, the next of two DATA spans with
entries and with none; one entry to read, in the reuse cache and not, with one request in hand and two; none left, DONE and not. -/
theorem witness_fetcher :
    let x : Span := { id := 0, trace := 0, target := { lo := 0, hi := 40 }, kind := .data { lo := 0, hi := 40 } [] none false }
    let e : Entry := { page := 0, bseq := 1, dseq := 1, first := 5, last := 9, suspect := false }
    let b : ReadBlock := { page := 0, bseq := 1, dseq := 1, first := 5, suspect := false, entries := [] }
    let w (st : WinStage) : Window := { no := 0, bin0 := 0, bin1 := 4, span := { lo := 0, hi := 40 }, stage := st, plan := [x], nextId := 1,
                                        frag := false, lost := [], accs := [] }
    let s (p : Play) : State := onChannel .running (some (runWith (.play p))) Staged.initial
    (∀ p ∈ [{ playing with wins := [w .fetching] }, { playing with wins := [w .ready] },
        { playing with wins := [w .fetching], fetch := some { win := 0, span := none, toRead := [], more := none, rest := [] } },
        { playing with wins := [w .fetching], fetch := some { win := 0, span := none, toRead := [], more := none, rest := [x] } },
        { playing with wins := [w .fetching], fetch := some { win := 0, span := some x, toRead := [], more := some 7, rest := [] } },
        { playing with wins := [w .fetching], fetch := some { win := 0, span := some x, toRead := [], more := none, rest := [] } },
        { playing with wins := [w .fetching], cache := some b, fetch := some { win := 0, span := some x, toRead := [e], more := none, rest := [] } }],
      ((s p).channels[(1 : Fin 4)]).run = some (runWith (.play p)) ∧ p.halt = none ∧ p.traces[x.trace]? = playing.traces[0]?) ∧
    (b.page = e.page ∧ b.bseq = e.bseq ∧ b.dseq = e.dseq) ∧ ¬(b.page = e.page + 1) ∧
    ((indexLookup [] 1 { lo := 0, hi := 40 } 0).1 = [] ∧ (indexLookup [e] 1 { lo := 9, hi := 10 } 0).1 = [e]) ∧
    (∀ n ∈ [1, 2], ((List.replicate n { aRead with ch := 1 }).filter (fun q => q.ch == 1)).length = n) := by
  decide

/-- A page of 18 bytes with the block's header but for its line, chosen so that its CRC-32 is 0. -/
def readBackPage (line : Byte) (tail : List Byte) : List Byte :=
  [0x05#8, 0x00#8, 0x00#8, 0x00#8, 0x01#8, line, 0x00#8, 0xFF#8, 0x00#8, 0x00#8, 0x00#8, 0x00#8, 0x00#8, 0x01#8] ++ tail

/-- A page whose CRC fails, one with another line's header, and the block asked for; wanted and not. -/
theorem witness_ReadOutcomes :
    (∀ w ∈ [true, false], ((reading w).channels[(1 : Fin 4)]).state = .held ∧ (reading w).archive.op.isSome = true) ∧
    (let p := readBackPage 2#8 [0#8]; ¬(∀ b ∈ p, b = 0xFF#8) ∧ (crc32 (p.take 512)).toNat ≠ field p 512 4) ∧
    (let p := readBackPage 3#8 [0x6A#8, 0x30#8, 0xBF#8, 0x0B#8]
     ¬(∀ b ∈ p, b = 0xFF#8) ∧ (crc32 (p.take 512)).toNat = field p 512 4 ∧ field p 5 1 ≠ 2) ∧
    (let p := readBackPage 2#8 [0x29#8, 0x24#8, 0xC4#8, 0x1C#8]
     ¬(∀ b ∈ p, b = 0xFF#8) ∧ (crc32 (p.take 512)).toNat = field p 512 4 ∧ field p 0 1 = 5 ∧ field p 8 6 = 1 ∧ field p 1 4 = 1 ∧
       field p 5 1 = 2 ∧ field p 6 1 = 0 ∧ field p 7 1 = 255) ∧
    imageUp [] { lo := max 0 5, hi := min 40 (9 + 1) } = some { lo := 5, hi := 10 } := by
  decide +kernel

/-- A channel with a closed frame of `n` counted records, the last of its run or not. -/
def emitting (n : Nat) (last : Bool) : State :=
  onChannel .running (some { runWith (.play playing) with
    closed := some (List.replicate n { bytes := [2#8, 0#8, 0#8, 8#8, 0#8, 0#8, 0#8, 0#8], counted := true }, last) }) Staged.initial

theorem witness_StreamFramePlaced :
    (up.channels[(1 : Fin 4)]).state ≠ .running ∧
    (∀ n ∈ [0, 1, 32], ∀ b ∈ [true, false],
      ((emitting n b).channels[(1 : Fin 4)]).state = .running ∧ ((emitting n b).slc.slots[(1 : Fin 4)]).length < 2 ∧
      (((emitting n b).channels[(1 : Fin 4)]).run.bind (·.closed)).map (fun q => (q.1.length, q.2)) = some (n, b)) := by
  decide

/-- R163: a run halted behind a frame closed before ends with a LAST frame of no records. -/
theorem test_empty_last_frame :
    (((after (.streamFramePlaced 1) (emitting 1 false)).channels[(1 : Fin 4)]).run.bind (·.closed)) = some ([], true) := by
  decide

/-- R142: the bins of a READY window are written at once, with the GAP record before the first and the gap counted. -/
theorem test_emitter_writes_ready_window :
    (let x : Span := { id := 0, trace := 0, target := { lo := 5, hi := 10 }, kind := .gap .noData }
     let w : Window := { no := 0, bin0 := 0, bin1 := 4, span := { lo := 0, hi := 40 }, stage := .ready, plan := [x], nextId := 1,
                         frag := false, lost := [], accs := [] }
     let s := (onChannel .running (some (runWith (.play { playing with wins := [w], emitBin := 0 }))) Staged.initial).channelGo 1
     (s.channels[(1 : Fin 4)]).run.map (fun r => (r.closed.map (·.1.length), r.gaps.toList.sum))) = some (some 5, 1) := by
  decide

theorem witness_ResetAndPowerBeginStart :
    up.startUp.held = false ∧ ((presenting up (.enterCoil nameA .headFirst 900 0)).startUp.held = false) ∧
    (let s : State := { up with startUp := { up.startUp with ready := false, held := true } }; s.startUp.held = true) ∧
    (asking (.table frame0 (.importing (importOf (.coil 0#8 5 nameB)))) up).startUp.held = false ∧ PoolInv up.table := by
  refine ⟨rfl, rfl, rfl, rfl, by unfold PoolInv; decide⟩

/-- R193: power applied under a held RESET waits for its release. -/
theorem test_power_under_held_reset :
    (let s := after (.powerOn true 0) (after (.resetAsserted 0) up)
     (s.startUp.start, s.startUp.held, (after (.resetReleased 0) s).startUp.start)) = (none, true, some (.cold .retentionLost)) := by
  decide

/-- No group BAD; two, one named twice; and all. -/
theorem witness_ColdStartGivesStartingValues :
    State.reset.startUp.start = some (.cold .retentionLost) ∧ State.reset.slc.notices.length < 7 ∧
    (∀ bad ∈ [[], [(0 : Fin 4096), 5, 0]], 64 ≤ (List.range 4096).countP (fun g => !bad.any (fun b => b.1 == g))) ∧
    (List.range 4096).countP (fun g => !(List.finRange 4096).any (fun b => b.1 == g)) < 64 := by
  refine ⟨rfl, by decide, by decide +kernel, ?_⟩
  rw [List.countP_eq_zero.2 (fun g hg => ?_)]
  · decide
  · have : (List.finRange 4096).any (fun b => b.1 == g) = true :=
      List.any_eq_true.2 ⟨⟨g, List.mem_range.1 hg⟩, List.mem_finRange _, by simp⟩
    simp [this]

/-- A resume, its write point at a page of group 3 that is FILLING, checked or not, with a marked group or none. -/
theorem witness_ResumeKeepsRetainedState :
    ∀ pg ∈ [62, 63], ∀ ck ∈ [true, false], ∀ ms ∈ [[], [7]], ∀ er ∈ [none, some 7],
      let s : State := { withLine running with
        startUp := { up.startUp with ready := false, start := some .resume, checked := ck, erasing := er }
        archive := { Archive.initial with group := 3, page := pg, groups := [(3, .filling)], marks := ms, occupancy := 2 } }
      s.startUp.start = some .resume ∧ s.startUp.checked = ck ∧ s.startUp.erasing = er ∧ s.startUp.added = false ∧ s.archive.marks = ms ∧ s.archive.queue = [] ∧
        s.archive.groupState 3 = .filling ∧ s.archive.groupState 4 = .full ∧ s.archive.page = pg ∧
        ∀ p ∈ s.archive.groups, p.2 ≠ .failing := by decide

/-- R199: a resume whose archive is EXHAUSTED enters its condition afresh; its notice follows the START notice, and is masked in a class not
enabled. -/
theorem test_resume_enters_exhausted :
    ([true, false].map (fun on =>
      let s : State := { up with
        startUp := { up.startUp with ready := false, start := some .resume }
        archive := { Archive.initial with exhausted := true }
        slc := { Slc.initial with settings := { NoticeSettings.initial with archive := on } } }
      let t := after (.resume .asStored [] none) s
      (s.slc.notices.length, t.announced.map (fun f => f.payload.take 2), t.slc.masked, t.slc.exhausted.map (·.repeats)))) =
    [(0, [[6#8, 1#8], [4#8, 4#8]], 0, some 0), (0, [[6#8, 1#8]], 1, some 0)] := by decide

/-- R120, R113: the closed mark is that of the last entry left of the slot's own definition, an entry of a marked group removed. -/
theorem test_marks_from_index :
    (let e (g dseq last : Nat) : Entry := { page := 64 * g, bseq := 1, dseq := dseq, first := 0, last := last, suspect := false }
     let s : State := { withSlot none with
       startUp := { up.startUp with ready := false, start := some .resume }
       archive := { Archive.initial with marks := [7], index := Vector.replicate 64 [e 1 1 40, e 2 1 50, e 7 1 60, e 3 9 70] } }
     let t := after (.resume .asStored [] none) s
     ((t.capture.slots[(5 : Fin 64)]).mark, (t.capture.slots[(6 : Fin 64)]).mark, (t.archive.index[(5 : Fin 64)]).length))
      = (some 50, none, 3) := by decide +kernel

/-- R198: a re-erase cut short leaves its mark and is counted; the next start erases the group again. -/
theorem test_cut_reerase_is_begun_again :
    (let s : State := { up with
        startUp := { up.startUp with ready := false, start := some .resume, checked := true }
        archive := { Archive.initial with marks := [7] } }
     let t := after (.resume .asStored [] (some 1)) s
     let u := after (.resume .asStored [] (some 2)) (after (.resetReleased 0) (after (.resetAsserted 0) t))
     let v := after (.resume .asStored [] (some 3)) (after (.resetReleased 0) (after (.resetAsserted 0) t))
     (t.archive.marks, t.archive.cnt.erases, u.archive.marks, u.archive.cnt.erases, v.archive.marks, v.startUp.reerased))
      = ([7], 1, [7], 2, [], 1) := by decide +kernel

/-- R15: readings being handed over on line 0 do not hide the operation of line 2 from a RESET. -/
theorem test_readings_in_hand_are_no_operation :
    (let s := presenting up (.enterCoil nameA .headFirst 900 0)
     let later := s.updTracker 2 (fun t => { t with work := t.work.map (fun w => { w with presented := false }) })
     ((later.updTracker 3 (fun t => { t with work := some { workOf (.hand handing) with presented := false } })).trackerInHand.map (·.1),
       (later.updTracker 0 (fun t => { t with work := some { workOf (.hand handing) with presented := false } })).trackerInHand.map (·.1)))
      = (some 2, some 2) := by decide

/-- R15: while a RETIRE is being performed, a RESET finds no tracker's operation in hand. -/
theorem test_retire_leaves_trackers_waiting :
    (let s := presenting up (.dropPending { handle := 0, seq := 1 })
     (s.trackerInHand.map (·.1), (asking (.table frame0 (.retire 9 0 true)) s).trackerInHand.map (·.1))) = (some 2, none) := by
  decide

theorem witness_StageMapsKeepL9 :
    let st : Stage := { child := { lo := 0, hi := 1 }, parent := { lo := 100, hi := 110 }, dir := .reversed }
    st.child.lo < st.child.hi ∧ st.parent.lo < st.parent.hi ∧ ∀ p ∈ [100, 109], st.parent.lo ≤ p ∧ p < st.parent.hi := by decide

theorem witness_OdometersNeverDecrease :
    ∃ t, exec (.position 2 5#8 540#32 730#32 0#32) (withLine running) = .next t ∧
      ∀ bad, Instr.position 2 5#8 540#32 730#32 0#32 ≠ .coldStart bad := ⟨_, rfl, by intro bad; simp⟩

/-- The invariants at the state right after reset, with a command waiting that steps. -/
theorem witness_invariants_kept :
    FlashInv State.reset ∧ GroupsInv State.reset.archive ∧ LinkInv State.reset ∧ PoolInv State.reset.table ∧ NameInv State.reset.table ∧
    ∃ t, step { State.reset with pending := [.coldStart []] } = .next t := by
  refine ⟨by unfold FlashInv; decide, by unfold GroupsInv; decide, by unfold LinkInv; decide, by unfold PoolInv; decide, by unfold NameInv; decide, _, rfl⟩

end Sys2Proof.Tests
end

section
/-! The two pools of the Genealogy Table as lists: finding a record by its slot, the lowest free slot, and what each writing operation
leaves of the pools (section 1.3, R6, R9). -/

namespace Sys2Proof.Machine

/-! ## Finding a record -/

/-- In a list with rising keys a member is the one its key finds. -/
theorem find?_of_rising {α : Type} {key : α → Nat} {l : List α} (h : l.Pairwise (fun p q => key p < key q)) {x : α} (hx : x ∈ l) :
    l.find? (fun y => key y == key x) = some x := by
  induction l with
  | nil => cases hx
  | cons y ys ih =>
    obtain ⟨hy, hys⟩ := List.pairwise_cons.mp h
    rcases List.mem_cons.mp hx with rfl | hx
    · simp
    · have : (key y == key x) = false := by simpa using Nat.ne_of_lt (hy x hx)
      rw [List.find?_cons, this]
      exact ih hys hx

/-- In a list with rising keys two members of one key are one. -/
theorem eq_of_rising {α : Type} {key : α → Nat} {l : List α} (h : l.Pairwise (fun p q => key p < key q)) {x y : α} (hx : x ∈ l)
    (hy : y ∈ l) (e : key x = key y) : x = y := by
  have a := find?_of_rising h hx
  rw [e, find?_of_rising h hy] at a
  exact (Option.some.inj a).symm

theorem Genealogy.coilAt_some {g : Genealogy} {h : Nat} {c : Coil} (e : g.coilAt h = some c) : c ∈ g.coils ∧ c.handle = h :=
  ⟨List.mem_of_find?_eq_some e, by simpa using List.find?_some e⟩

theorem Genealogy.linkAt_some {g : Genealogy} {h : Nat} {m : Link} (e : g.linkAt h = some m) : m ∈ g.links ∧ m.handle = h :=
  ⟨List.mem_of_find?_eq_some e, by simpa using List.find?_some e⟩

theorem Genealogy.current_some {g : Genealogy} {r : Ref} {c : Coil} (e : g.current r = some c) :
    c ∈ g.coils ∧ c.handle = r.handle ∧ c.seq = r.seq := by
  obtain ⟨ha, hs⟩ := Option.filter_eq_some_iff.mp e
  obtain ⟨hc, hh⟩ := coilAt_some ha
  exact ⟨hc, hh, by simpa using hs⟩

/-- A reference no record of the pool bears is stale (R11). -/
theorem Genealogy.current_none {g : Genealogy} {r : Ref} (h : ∀ c ∈ g.coils, c.handle = r.handle → c.seq ≠ r.seq) :
    g.current r = none := by
  cases e : g.current r with
  | none => rfl
  | some c =>
    obtain ⟨hc, hh, hs⟩ := current_some e
    exact absurd hs (h c hc hh)

theorem Genealogy.named_some {g : Genealogy} {n : Name} {c : Coil} (e : g.named n = some c) :
    c ∈ g.coils ∧ c.indexed = true ∧ c.name = n := by
  refine ⟨List.mem_of_find?_eq_some e, ?_⟩
  simpa using List.find?_some e

theorem Genealogy.named_none {g : Genealogy} {n : Name} : g.named n = none ↔ ∀ c ∈ g.coils, c.indexed = true → c.name ≠ n := by
  simp [named, List.find?_eq_none]

section
variable {g : Genealogy} (h : PoolInv g)
include h

theorem PoolInv.coilAt_mem {c : Coil} (hc : c ∈ g.coils) : g.coilAt c.handle = some c := find?_of_rising (key := Coil.handle) h.1 hc

theorem PoolInv.linkAt_mem {m : Link} (hm : m ∈ g.links) : g.linkAt m.handle = some m :=
  find?_of_rising (key := Link.handle) h.2.2.1 hm

theorem PoolInv.coil_eq {c d : Coil} (hc : c ∈ g.coils) (hd : d ∈ g.coils) (e : c.handle = d.handle) : c = d :=
  eq_of_rising (key := Coil.handle) h.1 hc hd e

theorem PoolInv.link_eq {m n : Link} (hm : m ∈ g.links) (hn : n ∈ g.links) (e : m.handle = n.handle) : m = n :=
  eq_of_rising (key := Link.handle) h.2.2.1 hm hn e

theorem PoolInv.current_mem {c : Coil} {r : Ref} (hc : c ∈ g.coils) (hh : c.handle = r.handle) (hs : c.seq = r.seq) :
    g.current r = some c := by
  have e := h.coilAt_mem hc
  rw [hh] at e
  unfold Genealogy.current
  rw [e]
  simp [hs]

/-- The name index names the one record of a name (R12). -/
theorem PoolInv.named_mem (hn : NameInv g) {c : Coil} (hc : c ∈ g.coils) (hi : c.indexed = true) : g.named c.name = some c := by
  cases e : g.named c.name with
  | none => exact absurd rfl (Genealogy.named_none.mp e c hc hi)
  | some d =>
    obtain ⟨hd, hdi, hdn⟩ := Genealogy.named_some e
    rw [h.coil_eq hd hc (hn d hd c hc hdi hi hdn)]

/-- The links of a list of handles are those of the pool the list names. -/
theorem PoolInv.mem_linksOf {hs : List Nat} {m : Link} : m ∈ g.linksOf hs ↔ m ∈ g.links ∧ m.handle ∈ hs := by
  unfold Genealogy.linksOf
  rw [List.mem_filterMap]
  constructor
  · rintro ⟨k, hk, e⟩
    obtain ⟨hm, rfl⟩ := Genealogy.linkAt_some e
    exact ⟨hm, hk⟩
  · exact fun ⟨hm, hk⟩ => ⟨m.handle, hk, h.linkAt_mem hm⟩

end

/-! ## The lowest free slot (R9) -/

theorem firstFree_spec (used : List Nat) (f n : Nat) :
    n ≤ firstFree used f n ∧ firstFree used f n ≤ n + f ∧ (∀ k, n ≤ k → k < firstFree used f n → k ∈ used) ∧
      (firstFree used f n < n + f → firstFree used f n ∉ used) := by
  induction f generalizing n with
  | zero => exact ⟨Nat.le_refl _, Nat.le_refl _, fun k h1 h2 => absurd h2 (by simp [firstFree]; omega), fun h => absurd h (by simp [firstFree])⟩
  | succ f ih =>
    unfold firstFree
    by_cases hu : n ∈ used
    · obtain ⟨h1, h2, h3, h4⟩ := ih (n + 1)
      rw [if_pos (by simpa using hu)]
      refine ⟨by omega, by omega, fun k hk hl => ?_, fun hl => h4 (by omega)⟩
      by_cases e : k = n
      · exact e ▸ hu
      · exact h3 k (by omega) hl
    · rw [if_neg (by simpa using hu)]
      exact ⟨Nat.le_refl _, by omega, fun k h1 h2 => absurd h2 (by omega), fun _ => hu⟩

/-- As many places as there are slots in use are enough to find the lowest free one. -/
theorem firstFree_lowest (used : List Nat) :
    LowestFree used (firstFree used used.length 0) ∧ firstFree used used.length 0 ≤ used.length := by
  obtain ⟨_, h2, h3, h4⟩ := firstFree_spec used used.length 0
  refine ⟨⟨fun hm => ?_, fun k hk => h3 k (Nat.zero_le _) hk⟩, by omega⟩
  have hl : firstFree used used.length 0 = used.length := by
    by_contra hc
    exact h4 (by omega) hm
  rw [hl] at hm h3
  have hs : List.range (used.length + 1) ⊆ used := by
    intro k hk
    rcases Nat.lt_or_eq_of_le (Nat.lt_succ_iff.mp (List.mem_range.mp hk)) with h | h
    · exact h3 k (Nat.zero_le _) h
    · exact h ▸ hm
  have := (List.nodup_range.subperm hs).length_le
  simp at this

theorem Genealogy.freeCoil_lowest (g : Genealogy) : LowestFree (g.coils.map (·.handle)) g.freeCoil := by
  have := (firstFree_lowest (g.coils.map (·.handle))).1
  rwa [List.length_map] at this

theorem Genealogy.freeCoil_le (g : Genealogy) : g.freeCoil ≤ g.coils.length := by
  have := (firstFree_lowest (g.coils.map (·.handle))).2
  rwa [List.length_map] at this

theorem Genealogy.freeLink_lowest (g : Genealogy) : LowestFree (g.links.map (·.handle)) g.freeLink := by
  have := (firstFree_lowest (g.links.map (·.handle))).1
  rwa [List.length_map] at this

theorem Genealogy.freeLink_le (g : Genealogy) : g.freeLink ≤ g.links.length := by
  have := (firstFree_lowest (g.links.map (·.handle))).2
  rwa [List.length_map] at this

theorem LowestFree.unused {α : Type} {key : α → Nat} {l : List α} {h : Nat} (k : LowestFree (l.map key) h) : ∀ x ∈ l, key x ≠ h :=
  fun _ hx e => k.1 (List.mem_map.mpr ⟨_, hx, e⟩)

/-! ## Coils but for their link lists -/

namespace SameCoil

theorem refl (c : Coil) : SameCoil c c := rfl

theorem trans {c d e : Coil} (h : SameCoil c d) (k : SameCoil d e) : SameCoil c e := by rw [SameCoil, k, h]

theorem handle {c d : Coil} (h : SameCoil c d) : d.handle = c.handle := by rw [h]
theorem seq {c d : Coil} (h : SameCoil c d) : d.seq = c.seq := by rw [h]
theorem ref {c d : Coil} (h : SameCoil c d) : d.ref = c.ref := by rw [h]; rfl
theorem name {c d : Coil} (h : SameCoil c d) : d.name = c.name := by rw [h]
theorem indexed {c d : Coil} (h : SameCoil c d) : d.indexed = c.indexed := by rw [h]
theorem state {c d : Coil} (h : SameCoil c d) : d.state = c.state := by rw [h]

end SameCoil

/-- Law L8 looks at slot, name and indexed mark alone, and holds of every part of the pool. -/
theorem NameInv.of_mem {g g' : Genealogy} (h : NameInv g)
    (hm : ∀ d ∈ g'.coils, ∃ c ∈ g.coils, d.handle = c.handle ∧ d.indexed = c.indexed ∧ d.name = c.name) : NameInv g' := by
  intro d hd e he hdi hei hn
  obtain ⟨c, hc, a1, a2, a3⟩ := hm d hd
  obtain ⟨c', hc', b1, b2, b3⟩ := hm e he
  rw [a1, b1]
  exact h c hc c' hc' (a2 ▸ hdi) (b2 ▸ hei) (by rw [← a3, ← b3, hn])

end Sys2Proof.Machine
end

section
/-! Taking coils out of the pools (R24, R25): the table without a set of coils and their links, in one closed form, which the removals of
RETIRE and AUTO-RETIRE reach one coil after another. -/

namespace Sys2Proof.Machine

/-- A link is listed by no coil of the slots `gone`. -/
def Genealogy.unlisted (g : Genealogy) (gone : List Nat) (h : Nat) : Bool :=
  g.coils.all (fun c => !gone.contains c.handle || !(c.parents ++ c.children).contains h)

/-- A coil record with the links of its lists that `p` leaves. -/
def Coil.listing (p : Nat → Bool) (c : Coil) : Coil := { c with parents := c.parents.filter p, children := c.children.filter p }

/-- The table without the coils in the slots `gone` and without their links. -/
def Genealogy.without (g : Genealogy) (gone : List Nat) : Genealogy :=
  { g with
    links := g.links.filter (fun m => g.unlisted gone m.handle)
    coils := (g.coils.filter (fun c => !gone.contains c.handle)).map (Coil.listing (g.unlisted gone)) }

@[simp] theorem Coil.listing_handle (p : Nat → Bool) (c : Coil) : (c.listing p).handle = c.handle := rfl
@[simp] theorem Coil.listing_seq (p : Nat → Bool) (c : Coil) : (c.listing p).seq = c.seq := rfl
@[simp] theorem Coil.listing_ref (p : Nat → Bool) (c : Coil) : (c.listing p).ref = c.ref := rfl
@[simp] theorem Coil.listing_state (p : Nat → Bool) (c : Coil) : (c.listing p).state = c.state := rfl
@[simp] theorem Coil.listing_name (p : Nat → Bool) (c : Coil) : (c.listing p).name = c.name := rfl
@[simp] theorem Coil.listing_indexed (p : Nat → Bool) (c : Coil) : (c.listing p).indexed = c.indexed := rfl
@[simp] theorem Coil.listing_parents (p : Nat → Bool) (c : Coil) : (c.listing p).parents = c.parents.filter p := rfl
@[simp] theorem Coil.listing_children (p : Nat → Bool) (c : Coil) : (c.listing p).children = c.children.filter p := rfl
theorem Coil.listing_same (p : Nat → Bool) (c : Coil) : SameCoil c (c.listing p) := rfl

theorem Coil.listing_listing (p q : Nat → Bool) (c : Coil) : (c.listing p).listing q = c.listing (fun h => q h && p h) := by
  simp [Coil.listing, List.filter_filter]

theorem Genealogy.unlisted_iff {g : Genealogy} {gone : List Nat} {h : Nat} :
    g.unlisted gone h = true ↔ ∀ c ∈ g.coils, c.handle ∈ gone → h ∉ c.parents ++ c.children := by
  simp only [unlisted, List.all_eq_true, Bool.or_eq_true, Bool.not_eq_true', List.contains_eq_mem, decide_eq_false_iff_not]
  exact forall₂_congr (fun c _ => by tauto)

@[simp] theorem Genealogy.without_nil (g : Genealogy) : g.without [] = g := by
  have hu : g.unlisted [] = fun _ => true := by funext h; simp [unlisted]
  have hl : Coil.listing (fun _ => true) = id := by funext c; simp [Coil.listing]
  simp [without, hu, hl]

theorem Genealogy.mem_without_links {g : Genealogy} {gone : List Nat} {m : Link} :
    m ∈ (g.without gone).links ↔ m ∈ g.links ∧ g.unlisted gone m.handle = true := by simp [without]

theorem Genealogy.mem_without_coils {g : Genealogy} {gone : List Nat} {d : Coil} :
    d ∈ (g.without gone).coils ↔ ∃ c ∈ g.coils, c.handle ∉ gone ∧ d = c.listing (g.unlisted gone) := by
  constructor
  · intro h
    obtain ⟨c, hc, rfl⟩ := List.mem_map.mp h
    exact ⟨c, (List.mem_filter.mp hc).1, by simpa using (List.mem_filter.mp hc).2, rfl⟩
  · rintro ⟨c, hc, hn, rfl⟩
    exact List.mem_map.mpr ⟨c, List.mem_filter.mpr ⟨hc, by simpa using hn⟩, rfl⟩

/-! ## Removing links and coils -/

/-- Removing links one after another leaves the others, and the lists without them. -/
theorem Genealogy.foldl_dropLink (hs : List Nat) (g : Genealogy) :
    hs.foldl Genealogy.dropLink g =
      { g with links := g.links.filter (fun m => !hs.contains m.handle), coils := g.coils.map (Coil.listing (fun h => !hs.contains h)) } := by
  induction hs generalizing g with
  | nil =>
    have hl : Coil.listing (fun _ => true) = id := by funext c; simp [Coil.listing]
    simp [hl]
  | cons h hs ih =>
    have hb (k : Nat) : (!(h :: hs).contains k) = (k != h && !hs.contains k) := by
      rw [List.contains_cons, Bool.not_or]; rfl
    rw [List.foldl_cons, ih]
    have hc (c : Coil) : (c.listing (fun k => k != h)).listing (fun k => !hs.contains k) = c.listing (fun k => !(h :: hs).contains k) := by
      rw [Coil.listing_listing]
      exact congrArg (fun p => c.listing p) (funext fun k => by rw [hb, Bool.and_comm])
    simp only [dropLink, List.map_map, List.filter_filter]
    congr 1
    · exact List.map_congr_left (fun c _ => hc c)
    · exact List.filter_congr (fun m _ => by rw [hb, Bool.and_comm])

/-- Removing a coil takes its links out of the pool and out of every list. -/
theorem Genealogy.dropCoil_eq (g : Genealogy) (c : Coil) :
    g.dropCoil c =
      { g with
        links := g.links.filter (fun m => !(c.parents ++ c.children).contains m.handle)
        coils := (g.coils.map (Coil.listing (fun h => !(c.parents ++ c.children).contains h))).filter (fun d => d.handle != c.handle) } := by
  unfold dropCoil
  rw [foldl_dropLink]

/-- A coil removed after others are gone is gone with them. -/
theorem Genealogy.dropCoil_without {g : Genealogy} (hg : g.coils.Pairwise (fun c d => c.handle < d.handle)) {gone : List Nat} {d : Coil}
    (hd : d ∈ (g.without gone).coils) : (g.without gone).dropCoil d = g.without (d.handle :: gone) := by
  obtain ⟨c, hc, hn, rfl⟩ := mem_without_coils.mp hd
  rw [dropCoil_eq]
  set e := c.listing (g.unlisted gone) with he
  have split (h : Nat) : g.unlisted (c.handle :: gone) h = (g.unlisted gone h && !(e.parents ++ e.children).contains h) := by
    rw [Bool.eq_iff_iff, Bool.and_eq_true, unlisted_iff, unlisted_iff]
    simp only [e, Coil.listing_parents, Coil.listing_children, ← List.filter_append, List.contains_eq_mem, List.mem_filter, unlisted_iff,
      Bool.not_eq_true', decide_eq_false_iff_not, List.mem_cons]
    constructor
    · exact fun k => ⟨fun x hx hg' => k x hx (.inr hg'), fun ⟨hm, _⟩ => k c hc (.inl rfl) hm⟩
    · rintro ⟨k1, k2⟩ x hx (hx' | hx')
      · rw [eq_of_rising (key := Coil.handle) hg hx hc hx']
        exact fun hm => k2 ⟨hm, k1⟩
      · exact k1 x hx hx'
  simp only [without, List.filter_filter, List.map_map, List.filter_map]
  congr 1
  · have hp (x : Coil) : ((fun d : Coil => d.handle != e.handle) ∘
        (Coil.listing (fun h => !(e.parents ++ e.children).contains h) ∘ Coil.listing (g.unlisted gone))) x = (x.handle != c.handle) := rfl
    rw [List.filter_congr (fun x _ => by rw [hp x])]
    rw [show (fun x : Coil => (x.handle != c.handle) && !gone.contains x.handle) = fun x => !(e.handle :: gone).contains x.handle from
      funext fun x => by rw [List.contains_cons, Bool.not_or]; rfl]
    refine List.map_congr_left (fun x _ => ?_)
    rw [Function.comp, Coil.listing_listing]
    exact congrArg (fun p => x.listing p) (funext fun h => by rw [Bool.and_comm]; exact (split h).symm)
  · exact List.filter_congr (fun m _ => by rw [Bool.and_comm]; exact (split m.handle).symm)

end Sys2Proof.Machine
end

section
/-! Every writing operation of the Genealogy Table keeps the pools, the link lists and the name index sound (section 1.3, R6, R9, law
L8). -/

namespace Sys2Proof.Machine

/-- The pools and lists are in form and no name stands twice in the index. -/
def SoundTable (g : Genealogy) : Prop := PoolInv g ∧ NameInv g

/-- A coil's two lists name links of the pool `ls`, each once (R6). -/
def Coil.listed (ls : List Link) (c : Coil) : Prop :=
  c.parents.Nodup ∧ c.children.Nodup ∧ ∀ h ∈ c.parents ++ c.children, ∃ m ∈ ls, m.handle = h

theorem PoolInv.listed {g : Genealogy} (h : PoolInv g) {c : Coil} (hc : c ∈ g.coils) : c.listed g.links := h.2.2.2.2 c hc

/-- Both pools look at coils and links alone. -/
theorem SoundTable.congr {g g' : Genealogy} (h : SoundTable g) (hc : g'.coils = g.coils) (hl : g'.links = g.links) : SoundTable g' := by
  unfold SoundTable PoolInv NameInv at *
  rw [hc, hl]
  exact h

/-- A table whose coils stand in slots of a sound one, its links in form, is in form once its lists are. -/
theorem PoolInv.recast {g g' : Genealogy} (h : PoolInv g) (hc : (g'.coils.map Coil.handle).Sublist (g.coils.map Coil.handle))
    (hl : g'.links.Pairwise (fun l m => l.handle < m.handle)) (hb : ∀ m ∈ g'.links, m.handle < linkSlots)
    (hs : ∀ c ∈ g'.coils, c.listed g'.links) : PoolInv g' := by
  refine ⟨?_, fun c hc' => ?_, hl, hb, hs⟩
  · exact List.pairwise_map.mp ((List.pairwise_map.mpr h.1).sublist hc)
  · obtain ⟨d, hd, e⟩ := List.mem_map.mp (hc.subset (List.mem_map.mpr ⟨c, hc', rfl⟩))
    exact e ▸ h.2.1 d hd

/-- Table `g'` has the coils of `g` in their places, changed in their link lists alone, and differs beside in its links alone. -/
def Relisted (g g' : Genealogy) : Prop :=
  g' = { g with coils := g'.coils, links := g'.links } ∧ ∃ f : Coil → Coil, (∀ c, SameCoil c (f c)) ∧ g'.coils = g.coils.map f

namespace Relisted

variable {g g' g'' : Genealogy}

theorem refl (g : Genealogy) : Relisted g g := ⟨rfl, id, SameCoil.refl, (List.map_id _).symm⟩

theorem trans (h : Relisted g g') (k : Relisted g' g'') : Relisted g g'' := by
  obtain ⟨h1, f, hf, h2⟩ := h
  obtain ⟨k1, f', hf', k2⟩ := k
  refine ⟨by rw [k1, h1], f' ∘ f, fun c => (hf c).trans (hf' (f c)), by rw [k2, h2, List.map_map]⟩

theorem length (h : Relisted g g') : g'.coils.length = g.coils.length := by
  obtain ⟨_, f, _, e⟩ := h
  rw [e, List.length_map]

theorem handles (h : Relisted g g') : g'.coils.map Coil.handle = g.coils.map Coil.handle := by
  obtain ⟨_, f, hf, e⟩ := h
  rw [e, List.map_map]
  exact List.map_congr_left (fun c _ => (hf c).handle)

/-- Every coil is still there, but for its lists. -/
theorem mem (h : Relisted g g') {c : Coil} (hc : c ∈ g.coils) : ∃ d ∈ g'.coils, SameCoil c d := by
  obtain ⟨_, f, hf, e⟩ := h
  exact ⟨f c, e ▸ List.mem_map.mpr ⟨c, hc, rfl⟩, hf c⟩

/-- Every coil was there, but for its lists. -/
theorem of_mem (h : Relisted g g') {d : Coil} (hd : d ∈ g'.coils) : ∃ c ∈ g.coils, SameCoil c d := by
  obtain ⟨_, f, hf, e⟩ := h
  obtain ⟨c, hc, rfl⟩ := List.mem_map.mp (e ▸ hd)
  exact ⟨c, hc, hf c⟩

theorem nextSeq (h : Relisted g g') : g'.nextSeq = g.nextSeq := by rw [h.1]
theorem session (h : Relisted g g') : g'.session = g.session := by rw [h.1]
theorem lastTracker (h : Relisted g g') : g'.lastTracker = g.lastTracker := by rw [h.1]

theorem nameInv (h : Relisted g g') (k : NameInv g) : NameInv g' :=
  k.of_mem (fun _ hd => (h.of_mem hd).imp (fun _ ⟨hc, e⟩ => ⟨hc, e.handle, e.indexed, e.name⟩))

/-- A table changed in lists and links is in form when these are. -/
theorem poolInv (h : Relisted g g') (k : PoolInv g) (hl : g'.links.Pairwise (fun l m => l.handle < m.handle))
    (hb : ∀ m ∈ g'.links, m.handle < linkSlots) (hs : ∀ c ∈ g'.coils, c.listed g'.links) : PoolInv g' :=
  k.recast (h.handles ▸ .refl _) hl hb hs

end Relisted

/-! ## Coils taken out -/

/-- A coil whose lists keep what stays in the pool is listed there. -/
theorem Coil.listed.listing {ls : List Link} {c : Coil} (h : c.listed ls) (p : Nat → Bool) :
    (c.listing p).listed (ls.filter (fun m => p m.handle)) := by
  obtain ⟨hp, hk, hm⟩ := h
  refine ⟨hp.filter _, hk.filter _, fun x hx => ?_⟩
  rw [Coil.listing_parents, Coil.listing_children, ← List.filter_append] at hx
  obtain ⟨hx, hu⟩ := List.mem_filter.mp hx
  obtain ⟨m, hm, rfl⟩ := hm x hx
  exact ⟨m, List.mem_filter.mpr ⟨hm, hu⟩, rfl⟩

theorem PoolInv.without {g : Genealogy} (h : PoolInv g) (gone : List Nat) : PoolInv (g.without gone) := by
  refine h.recast ?_ (List.Pairwise.filter _ h.2.2.1) (fun m hm => h.2.2.2.1 m (Genealogy.mem_without_links.mp hm).1) ?_
  · show ((List.map _ (List.filter _ _)).map _).Sublist _
    rw [List.map_map]
    exact (List.filter_sublist (l := g.coils)).map _
  · intro d hd
    obtain ⟨c, hc, _, rfl⟩ := Genealogy.mem_without_coils.mp hd
    exact (h.listed hc).listing _

theorem SoundTable.without {g : Genealogy} (h : SoundTable g) (gone : List Nat) : SoundTable (g.without gone) := by
  refine ⟨h.1.without gone, h.2.of_mem (fun d hd => ?_)⟩
  obtain ⟨c, hc, _, rfl⟩ := Genealogy.mem_without_coils.mp hd
  exact ⟨c, hc, rfl, rfl, rfl⟩

theorem Genealogy.foldl_dropLink_relisted (hs : List Nat) (g : Genealogy) : Relisted g (hs.foldl Genealogy.dropLink g) := by
  rw [foldl_dropLink]
  exact ⟨rfl, _, Coil.listing_same _, rfl⟩

theorem PoolInv.foldl_dropLink {g : Genealogy} (h : PoolInv g) (hs : List Nat) : PoolInv (hs.foldl Genealogy.dropLink g) := by
  refine (Genealogy.foldl_dropLink_relisted hs g).poolInv h ?_ ?_ ?_ <;> rw [Genealogy.foldl_dropLink]
  · exact List.Pairwise.filter _ h.2.2.1
  · exact fun m hm => h.2.2.2.1 m (List.mem_filter.mp hm).1
  · intro d hd
    obtain ⟨c, hc, rfl⟩ := List.mem_map.mp hd
    exact (h.listed hc).listing _

theorem oldest_none {l : List Coil} : oldest l = none ↔ l = [] := by
  cases l with
  | nil => simp [oldest]
  | cons c cs =>
    unfold oldest
    cases oldest cs with
    | none => simp
    | some d => dsimp only; split <;> simp

/-- The oldest of some records is one of them, none of them of a lower sequence. -/
theorem oldest_some {l : List Coil} {c : Coil} (h : oldest l = some c) : c ∈ l ∧ ∀ d ∈ l, c.seq ≤ d.seq := by
  induction l generalizing c with
  | nil => cases h
  | cons b bs ih =>
    unfold oldest at h
    cases ho : oldest bs with
    | none =>
      rw [ho] at h
      cases h
      rw [oldest_none] at ho
      simp [ho]
    | some d =>
      obtain ⟨hd, hle⟩ := ih ho
      rw [ho] at h
      dsimp only at h
      split at h <;> cases h
      · next hbd => exact ⟨.head _, List.forall_mem_cons.mpr ⟨Nat.le_refl _, fun x hx => Nat.le_trans hbd (hle x hx)⟩⟩
      · next hbd => exact ⟨.tail _ hd, List.forall_mem_cons.mpr ⟨by omega, hle⟩⟩

/-- AUTO-RETIRE takes coils out, as many as it counts. -/
theorem Genealogy.autoRetire_without {g : Genealogy} (hg : g.coils.Pairwise (fun c d => c.handle < d.handle)) (held : List Ref)
    (spare : List Nat) (nc nl n : Nat) (gone : List Nat) (k : Nat) :
    ∃ more : List Nat, autoRetire held spare nc nl n (g.without gone) k = (g.without (more ++ gone), k + more.length) := by
  induction n generalizing gone k with
  | zero => exact ⟨[], rfl⟩
  | succ n ih =>
    unfold autoRetire
    split
    · exact ⟨[], rfl⟩
    · split
      · exact ⟨[], rfl⟩
      · next c hc =>
        rw [dropCoil_without hg (List.mem_filter.mp (oldest_some hc).1).1]
        obtain ⟨more, e⟩ := ih (c.handle :: gone) (k + 1)
        exact ⟨more ++ [c.handle], by rw [e]; simp; omega⟩

/-- RETIRE takes coils out. -/
theorem Genealogy.retireBelow_without {g : Genealogy} (hg : g.coils.Pairwise (fun c d => c.handle < d.handle)) (held : List Ref)
    (bound n : Nat) (gone : List Nat) (next : Nat) :
    ∃ more : List Nat, (retireBelow held bound n next (g.without gone)).1 = g.without (more ++ gone) := by
  induction n generalizing gone next with
  | zero => exact ⟨[], rfl⟩
  | succ n ih =>
    unfold retireBelow
    split
    · exact ⟨[], rfl⟩
    · next c hc =>
      rw [dropCoil_without hg (List.mem_filter.mp (oldest_some hc).1).1]
      obtain ⟨more, e⟩ := ih (c.handle :: gone) c.seq
      exact ⟨more ++ [c.handle], by rw [e]; simp⟩

/-- Room is made by taking coils out (R25). -/
theorem Genealogy.makeRoom_without {g : Genealogy} (hg : g.coils.Pairwise (fun c d => c.handle < d.handle)) (held : List Ref)
    (spare : List Nat) (nc nl : Nat) (line : Option Nat) :
    ∃ gone : List Nat, (g.makeRoom held spare nc nl line).1 = g.without gone := by
  unfold makeRoom
  split
  · exact ⟨[], (without_nil g).symm⟩
  · obtain ⟨more, e⟩ := autoRetire_without hg held spare nc nl g.coils.length [] 0
    rw [without_nil] at e
    exact ⟨more ++ [], congrArg Prod.fst e⟩

theorem Genealogy.makeRoom_fits (g : Genealogy) (held : List Ref) (spare : List Nat) (nc nl : Nat) (line : Option Nat) :
    (g.makeRoom held spare nc nl line).2.1 = (g.makeRoom held spare nc nl line).1.fits nc nl := by
  unfold makeRoom
  split
  · next h => exact h.symm
  · rfl

theorem Genealogy.fits_iff {g : Genealogy} {nc nl : Nat} :
    g.fits nc nl = true ↔ g.coils.length + nc ≤ coilSlots ∧ g.links.length + nl ≤ linkSlots := by simp [fits]

theorem SoundTable.makeRoom {g : Genealogy} (h : SoundTable g) (held : List Ref) (spare : List Nat) (nc nl : Nat) (line : Option Nat) :
    SoundTable (g.makeRoom held spare nc nl line).1 := by
  obtain ⟨gone, e⟩ := Genealogy.makeRoom_without h.1.1 held spare nc nl line
  exact e ▸ h.without gone

/-- A name no record of a table bears in the index is borne by none once coils are taken out. -/
theorem Genealogy.without_named {g : Genealogy} {n : Name} (h : g.named n = none) (gone : List Nat) : (g.without gone).named n = none := by
  rw [named_none] at h ⊢
  intro d hd hi
  obtain ⟨c, hc, _, rfl⟩ := mem_without_coils.mp hd
  exact h c hc hi

/-! ## A coil entered in the pool -/

/-- A record without links in a free slot, not indexed beside another of its name. -/
theorem SoundTable.addCoil {g : Genealogy} (h : SoundTable g) {c : Coil} (hf : LowestFree (g.coils.map (·.handle)) c.handle)
    (hb : c.handle < coilSlots) (hp : c.parents = []) (hk : c.children = []) (hn : c.indexed = true → g.named c.name = none) :
    SoundTable (g.addCoil c) := by
  have mem {d : Coil} : d ∈ (g.addCoil c).coils ↔ d = c ∨ d ∈ g.coils := insertBy_mem
  obtain ⟨⟨h1, h2, h3, h4, h5⟩, hname⟩ := h
  refine ⟨⟨insertBy_rising (key := Coil.handle) h1 hf.unused, ?_, h3, h4, ?_⟩, ?_⟩
  · intro d hd
    rcases mem.mp hd with rfl | hd
    · exact hb
    · exact h2 d hd
  · intro d hd
    rcases mem.mp hd with rfl | hd
    · simp [hp, hk]
    · exact h5 d hd
  · have alone {d : Coil} (hd : d ∈ g.coils) (hi : c.indexed = true) (hdi : d.indexed = true) : d.name ≠ c.name :=
      Genealogy.named_none.mp (hn hi) d hd hdi
    intro d hd e he hdi hei hde
    rcases mem.mp hd with rfl | hd' <;> rcases mem.mp he with e1 | he'
    · rw [e1]
    · exact absurd hde.symm (alone he' hdi hei)
    · exact absurd (e1 ▸ hde) (alone hd' (e1 ▸ hei) hdi)
    · exact hname d hd' e he' hdi hei hde

/-- A change of records that leaves slot, name, indexed mark and lists. -/
theorem SoundTable.updCoil {g : Genealogy} (h : SoundTable g) {k : Nat} {f : Coil → Coil}
    (hf : ∀ c ∈ g.coils, c.handle = k →
      (f c).handle = c.handle ∧ (f c).indexed = c.indexed ∧ (f c).name = c.name ∧ (f c).parents = c.parents ∧ (f c).children = c.children) :
    SoundTable (g.updCoil k f) := by
  have same (c : Coil) (hc : c ∈ g.coils) : let d := if c.handle == k then f c else c
      d.handle = c.handle ∧ d.indexed = c.indexed ∧ d.name = c.name ∧ d.parents = c.parents ∧ d.children = c.children := by
    dsimp only
    split
    · next e => exact hf c hc (by simpa using e)
    · exact ⟨rfl, rfl, rfl, rfl, rfl⟩
  refine ⟨h.1.recast ?_ h.1.2.2.1 h.1.2.2.2.1 ?_, h.2.of_mem ?_⟩
  · show ((List.map _ g.coils).map _).Sublist _
    rw [List.map_map]
    exact (List.map_congr_left (fun c hc => (same c hc).1) : List.map (Coil.handle ∘ _) g.coils = _) ▸ .refl _
  · intro d hd
    obtain ⟨c, hc, rfl⟩ := List.mem_map.mp hd
    obtain ⟨_, _, _, e1, e2⟩ := same c hc
    unfold Coil.listed
    rw [e1, e2]
    exact h.1.listed hc
  · intro d hd
    obtain ⟨c, hc, rfl⟩ := List.mem_map.mp hd
    obtain ⟨e1, e2, e3, _⟩ := same c hc
    exact ⟨c, hc, e1, e2, e3⟩

/-! ## A link entered in the pool and the lists (R6) -/

theorem Genealogy.childPlace_perm (g : Genealogy) (l : Link) (hs : List Nat) : (g.childPlace l hs).Perm (l.handle :: hs) := by
  have skip {h : Nat} {hs : List Nat} (k : (g.childPlace l hs).Perm (l.handle :: hs)) :
      (h :: g.childPlace l hs).Perm (l.handle :: h :: hs) := (k.cons h).trans (.swap ..)
  induction hs with
  | nil => exact .refl _
  | cons h hs ih =>
    unfold childPlace
    split
    · exact skip ih
    · split
      · exact skip ih
      · split
        · exact .refl _
        · split
          · exact .refl _
          · exact skip ih

theorem Genealogy.parentPlace_perm (g : Genealogy) (l : Link) (hs : List Nat) : (g.parentPlace l hs).Perm (l.handle :: hs) := by
  induction hs with
  | nil => exact .refl _
  | cons h hs ih =>
    have skip : (h :: g.parentPlace l hs).Perm (l.handle :: h :: hs) := (ih.cons h).trans (.swap ..)
    unfold parentPlace
    split
    · exact skip
    · split
      · exact .refl _
      · exact skip

/-- A coil once link `l` is entered: its parent lists it, and its child, if it has one. -/
def Genealogy.joined (g : Genealogy) (l : Link) (c : Coil) : Coil :=
  let g1 := { g with links := insertBy (·.handle) l g.links }
  let g2 := g1.updCoil l.parent (fun c => { c with children := g1.childPlace l c.children })
  { c with
    children := if c.handle = l.parent then g1.childPlace l c.children else c.children
    parents := if l.child = some c.handle then g2.parentPlace l c.parents else c.parents }

theorem Genealogy.joined_same (g : Genealogy) (l : Link) (c : Coil) : SameCoil c (g.joined l c) := rfl

theorem Genealogy.joined_parents (g : Genealogy) (l : Link) (c : Coil) :
    (g.joined l c).parents = c.parents ∨ (g.joined l c).parents.Perm (l.handle :: c.parents) := by
  unfold joined
  dsimp only
  split
  · exact .inr (parentPlace_perm ..)
  · exact .inl rfl

theorem Genealogy.joined_children (g : Genealogy) (l : Link) (c : Coil) :
    (g.joined l c).children = c.children ∨ (g.joined l c).children.Perm (l.handle :: c.children) := by
  unfold joined
  dsimp only
  split
  · exact .inr (childPlace_perm ..)
  · exact .inl rfl

/-- Entering a link adds it to the pool and changes coils in their lists alone. -/
theorem Genealogy.addLink_eq (g : Genealogy) (l : Link) :
    g.addLink l = { g with links := insertBy (·.handle) l g.links, coils := g.coils.map (g.joined l) } := by
  unfold addLink
  cases hl : l.child with
  | none =>
    simp only [updCoil]
    congr 1
    refine List.map_congr_left (fun c _ => ?_)
    by_cases e : c.handle = l.parent <;> simp [joined, hl, e]
  | some h =>
    simp only [updCoil, List.map_map]
    congr 1
    refine List.map_congr_left (fun c _ => ?_)
    have swap : (h = c.handle) = (c.handle = h) := propext eq_comm
    simp only [joined, updCoil, Function.comp_apply, beq_iff_eq, hl, Option.some.injEq, swap]
    split_ifs <;> rfl

theorem Genealogy.addLink_relisted (g : Genealogy) (l : Link) : Relisted g (g.addLink l) := by
  rw [addLink_eq]
  exact ⟨rfl, _, g.joined_same l, rfl⟩

theorem Genealogy.mem_addLink {g : Genealogy} {l m : Link} : m ∈ (g.addLink l).links ↔ m = l ∨ m ∈ g.links := by
  rw [addLink_eq]
  exact insertBy_mem

/-- A list of links of the pool that stays or takes a free slot in. -/
theorem listed_once {ls ls' : List Link} {k : Nat} {hs hs' : List Nat} (hn : hs.Nodup) (hm : ∀ x ∈ hs, ∃ m ∈ ls, m.handle = x)
    (hf : ∀ m ∈ ls, m.handle ≠ k) (hsub : ∀ x, (x = k ∨ ∃ m ∈ ls, m.handle = x) → ∃ m ∈ ls', m.handle = x)
    (h : hs' = hs ∨ hs'.Perm (k :: hs)) : hs'.Nodup ∧ ∀ x ∈ hs', ∃ m ∈ ls', m.handle = x := by
  rcases h with rfl | h
  · exact ⟨hn, fun x hx => hsub x (.inr (hm x hx))⟩
  · refine ⟨h.nodup_iff.mpr (List.nodup_cons.mpr ⟨fun hx => ?_, hn⟩), fun x hx => hsub x ?_⟩
    · obtain ⟨m, hm', e⟩ := hm _ hx
      exact hf m hm' e
    · exact (List.mem_cons.mp (h.subset hx)).imp id (hm x)

/-- A link in a free slot of the pool. -/
theorem PoolInv.addLink {g : Genealogy} (h : PoolInv g) {l : Link} (hf : LowestFree (g.links.map (·.handle)) l.handle)
    (hb : l.handle < linkSlots) : PoolInv (g.addLink l) := by
  refine (g.addLink_relisted l).poolInv h ?_ (fun m hm => ?_) (fun d hd => ?_)
  · rw [Genealogy.addLink_eq]
    exact insertBy_rising (key := Link.handle) h.2.2.1 hf.unused
  · rcases Genealogy.mem_addLink.mp hm with rfl | hm
    · exact hb
    · exact h.2.2.2.1 m hm
  · have sub (x : Nat) (hx : x = l.handle ∨ ∃ m ∈ g.links, m.handle = x) : ∃ m ∈ (g.addLink l).links, m.handle = x := by
      rcases hx with rfl | ⟨m, hm, e⟩
      · exact ⟨l, Genealogy.mem_addLink.mpr (.inl rfl), rfl⟩
      · exact ⟨m, Genealogy.mem_addLink.mpr (.inr hm), e⟩
    rw [Genealogy.addLink_eq] at hd
    obtain ⟨c, hc, rfl⟩ := List.mem_map.mp hd
    obtain ⟨hp, hk, hm⟩ := h.listed hc
    obtain ⟨p1, p2⟩ := listed_once hp (fun x hx => hm x (List.mem_append_left _ hx)) hf.unused sub (g.joined_parents l c)
    obtain ⟨c1, c2⟩ := listed_once hk (fun x hx => hm x (List.mem_append_right _ hx)) hf.unused sub (g.joined_children l c)
    exact ⟨p1, c1, fun x hx => (List.mem_append.mp hx).elim (p2 x) (c2 x)⟩

theorem insertBy_length {α : Type} (key : α → Nat) (x : α) (l : List α) : (insertBy key x l).length = l.length + 1 := by
  induction l with
  | nil => rfl
  | cons y ys ih => unfold insertBy; split <;> simp [ih]

theorem Genealogy.addLink_links_length (g : Genealogy) (l : Link) : (g.addLink l).links.length = g.links.length + 1 := by
  rw [addLink_eq]
  exact insertBy_length ..

/-- The record of a link supplied to MAKE CHILD (R18), in slot `h`. -/
def NewLink.record (n : NewLink) (h line : Nat) (child : Option Nat) : Link :=
  { handle := h, child := child, childSpan := if child.isSome then n.childSpan else { lo := 0, hi := 0 },
    scrap := if child.isSome then 0 else n.scrap, parent := n.parent.handle, parentSpan := n.parentSpan, dir := n.dir, lane := n.lane,
    line := line, suspect := n.suspect,
    source := if n.parentSpan.isSome then none else some { segment := n.parent.seq, span := n.source } }

theorem Genealogy.addNewLinks_cons (g : Genealogy) (line : Nat) (child : Option Nat) (n : NewLink) (ns : List NewLink) :
    g.addNewLinks line child (n :: ns) = (g.addLink (n.record g.freeLink line child)).addNewLinks line child ns := rfl

theorem Genealogy.addNewLinks_relisted (line : Nat) (child : Option Nat) (ns : List NewLink) (g : Genealogy) :
    Relisted g (g.addNewLinks line child ns) := by
  induction ns generalizing g with
  | nil => exact .refl g
  | cons n ns ih => exact (g.addLink_relisted _).trans (ih _)

/-- The link records of a MAKE CHILD find room one after another (R18). -/
theorem PoolInv.addNewLinks {g : Genealogy} (h : PoolInv g) (line : Nat) (child : Option Nat) {ns : List NewLink}
    (hr : g.links.length + ns.length ≤ linkSlots) : PoolInv (g.addNewLinks line child ns) := by
  induction ns generalizing g with
  | nil => exact h
  | cons n ns ih =>
    have hle := g.freeLink_le
    simp only [List.length_cons] at hr
    rw [Genealogy.addNewLinks_cons]
    refine ih (h.addLink g.freeLink_lowest (Nat.lt_of_le_of_lt hle (by omega))) ?_
    rw [Genealogy.addLink_links_length]
    omega

end Sys2Proof.Machine
end

section
/-! FINALIZE LINKS as a pass over the pending links of a segment (R19): what one link's turn does, and what the pass leaves. -/

namespace Sys2Proof.Machine

/-- The parent span FINALIZE LINKS forms for a link from its pending source (R45). -/
def Link.spanFor (orient : Orientation) (fh ft dh dt len : Nat) (l : Link) : Option Ival :=
  finalSpan orient fh ft dh dt len (match l.source with | none => { lo := 0, hi := 0 } | some s => s.span)

/-- A pending link made FINAL (R19). -/
def Link.finalized (orient : Orientation) (suspect : Bool) (l : Link) (p : Ival) : Link :=
  { l with parentSpan := some p, dir := orientDir orient, suspect := l.suspect || suspect, source := none }

/-- Link `new` takes the place of the one in its slot, and its place in the child-link list of coil `h` (R6). -/
def Genealogy.relink (g : Genealogy) (h : Nat) (new : Link) : Genealogy :=
  let g1 := g.updLink new.handle (fun _ => new)
  g1.updCoil h (fun d => { d with children := g1.childPlace new (d.children.filter (· != new.handle)) })

/-- The turn of one pending link of coil `c`: `span` gives its parent span, `final` the link with it (R19). -/
def Genealogy.finalizeOne (c : Coil) (note : Notice) (span : Link → Option Ival) (final : Link → Ival → Link)
    (acc : Genealogy × List Notice) (l : Link) : Genealogy × List Notice :=
  match span l with
  | none => (acc.1.dropLink l.handle, acc.2)
  | some p =>
    match acc.1.coilAt c.handle with
    | none => acc
    | some now =>
      if acc.1.keepsL6 now p l.lane then (acc.1.relink c.handle (final l p), acc.2)
      else (acc.1.dropLink l.handle, acc.2 ++ [note])

theorem Genealogy.finalizeLinks_current {g : Genealogy} {r : Ref} {c : Coil} (h : g.current r = some c) (line : Nat) (o : Orientation)
    (fh ft dh dt len : Nat) (suspect : Bool) :
    g.finalizeLinks line r o fh ft dh dt len suspect =
      (let res := (g.pendingOf c line).foldl
        (finalizeOne c (genealogyNotice 4 (some line) (some c.name)) (Link.spanFor o fh ft dh dt len) (Link.finalized o suspect)) (g, [])
       (res.1, true, res.2)) := by
  unfold finalizeLinks
  rw [h]
  rfl

theorem Genealogy.relink_links (g : Genealogy) (h : Nat) (new : Link) :
    (g.relink h new).links = g.links.map (fun m => if m.handle == new.handle then new else m) := rfl

theorem Genealogy.mem_relink {g : Genealogy} {h : Nat} {new x : Link} (hx : x ∈ (g.relink h new).links) :
    x = new ∨ x ∈ g.links ∧ x.handle ≠ new.handle := by
  rw [relink_links] at hx
  obtain ⟨m, hm, rfl⟩ := List.mem_map.mp hx
  split
  · exact .inl rfl
  · next e => exact .inr ⟨hm, by simpa using e⟩

theorem Genealogy.relink_keeps {g : Genealogy} {h : Nat} {new x : Link} (hx : x ∈ g.links) (hn : x.handle ≠ new.handle) :
    x ∈ (g.relink h new).links := by
  rw [relink_links]
  exact List.mem_map.mpr ⟨x, hx, by simp [hn]⟩

theorem Genealogy.relink_has {g : Genealogy} {h : Nat} {new l : Link} (hl : l ∈ g.links) (e : l.handle = new.handle) :
    new ∈ (g.relink h new).links := by
  rw [relink_links]
  exact List.mem_map.mpr ⟨l, hl, by simp [e]⟩

theorem Genealogy.relink_relisted (g : Genealogy) (h : Nat) (new : Link) : Relisted g (g.relink h new) := by
  refine ⟨rfl, _, fun c => ?_, rfl⟩
  split <;> rfl

theorem PoolInv.relink {g : Genealogy} (k : PoolInv g) {l new : Link} (hl : l ∈ g.links) (e : l.handle = new.handle) (h : Nat) :
    PoolInv (g.relink h new) := by
  have hh : (g.relink h new).links.map Link.handle = g.links.map Link.handle := by
    rw [Genealogy.relink_links, List.map_map]
    refine List.map_congr_left (fun m _ => ?_)
    simp only [Function.comp_apply]
    split
    · next he => exact (by simpa using he : m.handle = new.handle).symm
    · rfl
  have slots {x : Nat} : (∃ m ∈ (g.relink h new).links, m.handle = x) ↔ ∃ m ∈ g.links, m.handle = x := by
    rw [← List.mem_map, ← List.mem_map (f := Link.handle), hh]
  refine (g.relink_relisted h new).poolInv k ?_ (fun m hm => ?_) (fun d hd => ?_)
  · exact List.pairwise_map.mp (hh ▸ List.pairwise_map.mpr k.2.2.1)
  · obtain ⟨n, hn, e⟩ := slots.mp ⟨m, hm, rfl⟩
    exact e ▸ k.2.2.2.1 n hn
  · obtain ⟨c, hc, rfl⟩ := List.mem_map.mp hd
    obtain ⟨hp, hk, hm⟩ := k.listed hc
    split
    · have perm := Genealogy.childPlace_perm (g.updLink new.handle (fun _ => new)) new (c.children.filter (· != new.handle))
      refine ⟨hp, perm.nodup_iff.mpr (List.nodup_cons.mpr ⟨by simp, hk.filter _⟩), fun x hx => slots.mpr ?_⟩
      rcases List.mem_append.mp hx with hx | hx
      · exact hm x (List.mem_append_left _ hx)
      · rcases List.mem_cons.mp (perm.subset hx) with rfl | hx
        · exact ⟨l, hl, e⟩
        · exact hm x (List.mem_append_right _ (List.mem_filter.mp hx).1)
    · exact ⟨hp, hk, fun x hx => slots.mpr (hm x hx)⟩

theorem PoolInv.dropLink {g : Genealogy} (h : PoolInv g) (k : Nat) : PoolInv (g.dropLink k) := h.foldl_dropLink [k]

theorem Genealogy.dropLink_relisted (g : Genealogy) (k : Nat) : Relisted g (g.dropLink k) := foldl_dropLink_relisted [k] g

theorem Genealogy.mem_dropLink {g : Genealogy} {k : Nat} {m : Link} : m ∈ (g.dropLink k).links ↔ m ∈ g.links ∧ m.handle ≠ k := by
  simp [dropLink]

/-- What the pass over the pending links `ls` leaves (R19): each of them is gone, or FINAL with its parent span; those gone for law L6 raise a
notice each; every other link stays. -/
structure Finalized (note : Notice) (span : Link → Option Ival) (final : Link → Ival → Link) (ls : List Link)
    (a b : Genealogy × List Notice) : Prop where
  pools : PoolInv b.1
  coils : Relisted a.1 b.1
  others : ∀ x : Link, (∀ m ∈ ls, m.handle ≠ x.handle) → (x ∈ b.1.links ↔ x ∈ a.1.links)
  finals : ∀ x ∈ b.1.links, ∀ m ∈ ls, m.handle = x.handle → ∃ p, span m = some p ∧ x = final m p
  refused : ∃ rs : List Link, rs.Sublist ls ∧ b.2 = a.2 ++ rs.map (fun _ => note) ∧
    ∀ m ∈ ls, m ∈ rs ↔ (∃ p, span m = some p) ∧ ∀ x ∈ b.1.links, x.handle ≠ m.handle

theorem Genealogy.foldl_finalizeOne (c : Coil) (note : Notice) (span : Link → Option Ival) (final : Link → Ival → Link)
    (hf : ∀ m p, (final m p).handle = m.handle) (ls : List Link) (a : Genealogy × List Notice) (hp : PoolInv a.1)
    (hc : ∃ d ∈ a.1.coils, d.handle = c.handle) (hl : ∀ m ∈ ls, m ∈ a.1.links) (hd : ls.Pairwise (fun m n => m.handle ≠ n.handle)) :
    Finalized note span final ls a (ls.foldl (finalizeOne c note span final) a) := by
  induction ls generalizing a with
  | nil => exact ⟨hp, .refl _, fun _ _ => .rfl, fun _ _ _ h => (nomatch h), [], .refl _, by simp, fun _ h => (nomatch h)⟩
  | cons l ls ih =>
    obtain ⟨hne, hd⟩ := List.pairwise_cons.mp hd
    rw [List.foldl_cons]
    have hla := hl l (.head _)
    have go (b : Genealogy × List Notice) (kp : PoolInv b.1) (kr : Relisted a.1 b.1)
        (ko : ∀ x : Link, x.handle ≠ l.handle → (x ∈ b.1.links ↔ x ∈ a.1.links))
        (kf : ∀ x ∈ b.1.links, x.handle = l.handle → ∃ p, span l = some p ∧ x = final l p)
        (kn : ∃ rs : List Link, rs.Sublist [l] ∧ b.2 = a.2 ++ rs.map (fun _ => note) ∧
          (l ∈ rs ↔ (∃ p, span l = some p) ∧ ∀ x ∈ b.1.links, x.handle ≠ l.handle)) :
        Finalized note span final (l :: ls) a (ls.foldl (finalizeOne c note span final) b) := by
      have hcb : ∃ d ∈ b.1.coils, d.handle = c.handle := by
        obtain ⟨d, hd, e⟩ := hc
        obtain ⟨d', hd', e'⟩ := kr.mem hd
        exact ⟨d', hd', e'.handle.trans e⟩
      obtain ⟨rp, rr, ro, rf, rs, rsub, rn, riff⟩ :=
        ih b kp hcb (fun m hm => (ko m (fun e => hne m hm e.symm)).mpr (hl m (.tail _ hm))) hd
      have atl (x : Link) (e : x.handle = l.handle) : x ∈ (ls.foldl (finalizeOne c note span final) b).1.links ↔ x ∈ b.1.links :=
        ro x (fun m hm e' => hne m hm (e'.trans e).symm)
      obtain ⟨qs, qsub, qn, qiff⟩ := kn
      refine ⟨rp, kr.trans rr, fun x hx => ?_, fun x hx m hm e => ?_, qs ++ rs, ?_, ?_, fun m hm => ?_⟩
      · rw [ro x (fun m hm => hx m (.tail _ hm)), ko x (fun e => hx l (.head _) e.symm)]
      · rcases List.mem_cons.mp hm with rfl | hm
        · exact kf x ((atl x e.symm).mp hx) e.symm
        · exact rf x hx m hm e
      · exact qsub.append rsub
      · rw [rn, qn, List.map_append, List.append_assoc]
      · rw [List.mem_append]
        rcases List.mem_cons.mp hm with rfl | hm
        · have : m ∉ rs := fun h => hne m (rsub.subset h) rfl
          rw [or_iff_left this, qiff]
          exact and_congr_right (fun _ => forall_congr' (fun x =>
            ⟨fun k hx e => k ((atl x e).mp hx) e, fun k hx e => k ((atl x e).mpr hx) e⟩))
        · have : m ∉ qs := fun h => hne m hm (by rw [List.mem_singleton.mp (qsub.subset h)])
          rw [or_iff_right this]
          exact riff m hm
    have drop (ns : List Notice) (kn : ∃ rs : List Link, rs.Sublist [l] ∧ ns = a.2 ++ rs.map (fun _ => note) ∧ (l ∈ rs ↔ ∃ p, span l = some p)) :
        Finalized note span final (l :: ls) a (ls.foldl (finalizeOne c note span final) (a.1.dropLink l.handle, ns)) := by
      refine go _ (hp.dropLink _) (a.1.dropLink_relisted _) (fun x hx => by simp [mem_dropLink, hx])
        (fun x hx e => absurd e (mem_dropLink.mp hx).2) ?_
      obtain ⟨rs, h1, h2, h3⟩ := kn
      exact ⟨rs, h1, h2, h3.trans ⟨fun h => ⟨h, fun x hx => (mem_dropLink.mp hx).2⟩, fun h => h.1⟩⟩
    unfold finalizeOne
    cases hs : span l with
    | none => exact drop a.2 ⟨[], List.nil_sublist _, by simp, by simp [hs]⟩
    | some p =>
      dsimp only
      obtain ⟨d, hd, hdc⟩ := hc
      have hat := hp.coilAt_mem hd
      rw [hdc] at hat
      rw [hat]
      dsimp only
      by_cases hk : a.1.keepsL6 d p l.lane = true
      · rw [if_pos hk]
        have e : l.handle = (final l p).handle := (hf l p).symm
        have has : final l p ∈ (a.1.relink c.handle (final l p)).links := relink_has hla e
        refine go _ (hp.relink hla e _) (a.1.relink_relisted _ _) (fun x hx => ⟨fun h => ?_, fun h => relink_keeps h (e ▸ hx)⟩)
          (fun x hx ex => ?_) ⟨[], List.nil_sublist _, by simp, ?_⟩
        · rcases mem_relink h with rfl | ⟨h, _⟩
          · exact absurd e.symm hx
          · exact h
        · rcases mem_relink hx with rfl | ⟨_, h⟩
          · exact ⟨p, hs, rfl⟩
          · exact absurd (ex.trans e) h
        · exact ⟨fun h => (nomatch h), fun h => absurd e.symm (h.2 _ has)⟩
      · rw [if_neg hk]
        exact drop _ ⟨[l], .refl _, rfl, by simp [hs]⟩

/-! ## The pending links of a segment -/

section
variable {g : Genealogy} (h : PoolInv g)
include h

theorem PoolInv.mem_pendingOf {c : Coil} {line : Nat} {m : Link} :
    m ∈ g.pendingOf c line ↔ m ∈ g.links ∧ PendingFor c line m := by
  unfold Genealogy.pendingOf PendingFor
  rw [List.mem_filter, h.mem_linksOf]
  cases hs : m.source <;> simp [and_assoc]

theorem PoolInv.pendingOf_distinct {c : Coil} (hc : c ∈ g.coils) (line : Nat) :
    (g.pendingOf c line).Pairwise (fun m n => m.handle ≠ n.handle) := by
  refine List.Pairwise.filter _ ?_
  unfold Genealogy.linksOf
  rw [List.pairwise_filterMap]
  refine (h.listed hc).2.1.imp (fun hne m hm n hn => ?_)
  rw [(Genealogy.linkAt_some hm).2, (Genealogy.linkAt_some hn).2]
  exact hne

/-- FINALIZE LINKS of a current reference. -/
theorem PoolInv.finalizeLinks {c : Coil} {r : Ref} (hr : g.current r = some c) (line : Nat) (o : Orientation) (fh ft dh dt len : Nat)
    (suspect : Bool) :
    let t := g.finalizeLinks line r o fh ft dh dt len suspect
    t.2.1 = true ∧ Finalized (genealogyNotice 4 (some line) (some c.name)) (Link.spanFor o fh ft dh dt len) (Link.finalized o suspect)
      (g.pendingOf c line) (g, []) (t.1, t.2.2) := by
  rw [Genealogy.finalizeLinks_current hr]
  have hc := (Genealogy.current_some hr).1
  exact ⟨rfl, Genealogy.foldl_finalizeOne c _ (Link.spanFor o fh ft dh dt len) (Link.finalized o suspect) (fun _ _ => rfl) _ (g, []) h ⟨c, hc, rfl⟩ (fun m hm => (h.mem_pendingOf.mp hm).1)
    (h.pendingOf_distinct hc line)⟩

end

end Sys2Proof.Machine
end

section
/-! Every command answers a next state and changes at most the blocks `touched` lists: the shapes commands share, then the commands block
by block. -/

namespace Sys2Proof.Machine

/-- An outcome is a next state that differs at most in the blocks listed. -/
def Runs (ps : List Part) (s : State) (o : Host.Outcome State Fault Refusal) : Prop := ∃ t, o = .next t ∧ Touches ps s t

namespace Runs

variable {ps : List Part} {s t : State}

theorem still : Runs ps s (still s) := ⟨s, rfl, .refl ps s⟩

theorem settle (h : Touches ps s t) (hs : ps.contains .slc = true) : Runs ps s (settle t) := ⟨t.kick, rfl, h.kick hs⟩

theorem ite {c : Prop} [Decidable c] {a b : Host.Outcome State Fault Refusal} (ha : Runs ps s a) (hb : Runs ps s b) :
    Runs ps s (if c then a else b) := by
  split
  · exact ha
  · exact hb

/-- A request touches the link, and what its owning rule touches. -/
theorem request {kind : Byte} {r : Req} {own : Frame → State → State} (hs : ps.contains .slc = true)
    (h : ∀ f t, Touches ps s t → Touches ps s (own f t)) : Runs ps s (s.request kind r own) := by
  unfold State.request
  dsimp only
  split
  · exact still
  · next u hu =>
    have k := (Touches.refl ps s).takeRequest hu hs
    split
    · exact settle (k.refuse hs) hs
    · exact settle (h _ _ k) hs

theorem tableRequest {kind : Byte} {r : Req} {go : State → State} {own : Frame → State → State} (hs : ps.contains .slc = true)
    (hg : ∀ t, Touches ps s t → Touches ps s (go t)) (h : ∀ f t, Touches ps s t → Touches ps s (own f t)) :
    Runs ps s (s.tableRequest kind r go own) := by
  unfold State.tableRequest
  split
  · exact ite (settle (hg _ (.refl ps s)) hs) still
  · exact request hs (fun f t k => hg _ (h f t k))

theorem lineRequest {kind : Byte} {r : Req} {own : Frame → State → State} (hp : ps.contains .ports = true)
    (ht : ps.contains .trackers = true) (ha : ps.contains .archive = true) (hc : ps.contains .capture = true) (hs : ps.contains .slc = true)
    (h : ∀ f t, Touches ps s t → Touches ps s (own f t)) : Runs ps s (s.lineRequest kind r own) := by
  unfold State.lineRequest
  split
  · exact ite (settle ((Touches.refl ps s).lineGo hp ht ha hc hs) hs) still
  · exact request hs h

end Runs

section
variable (s : State)

/-! ## Requests -/

theorem execDefineLine_runs (r : Req) : Runs [.ports, .trackers, .capture, .archive, .slc] s (execDefineLine r s) :=
  .lineRequest rfl rfl rfl rfl rfl fun f t h => h.withValue (fun q _ => by
    split
    · exact h.refuse rfl
    · exact (h.handLine rfl).lineGo rfl rfl rfl rfl rfl) rfl

theorem execDefineGauge_runs (r : Req) : Runs [.capture, .archive, .slc] s (execDefineGauge r s) :=
  .request rfl fun f t h => h.withValue (fun q _ => by
    split
    · exact h.refuse rfl
    · exact ((h.defineGauge rfl rfl rfl).accept rfl).flashKick rfl rfl) rfl

theorem execDefineProfile_runs (r : Req) : Runs [.profiles, .slc] s (execDefineProfile r s) :=
  .request rfl fun f t h => h.withValue (fun q _ => by
    split
    · exact h.refuse rfl
    · exact (h.set_profiles rfl).accept rfl) rfl

theorem execInjectCut_runs (r : Req) : Runs [.slc] s (execInjectCut r s) :=
  .request rfl fun f t h => h.withValue (fun q _ => by
    split
    · exact h.refuse rfl
    · exact h.handLine rfl) rfl

theorem execImportFrame_runs (r : Req) : Runs [.table, .slc] s (execImportFrame r s) :=
  .request rfl fun f t h => by
    dsimp only
    split
    · exact h.refuse rfl
    · split
      · split
        · exact h.refuse rfl
        · exact (h.set_table rfl).importGo rfl rfl
      · split
        · exact h.refuse rfl
        · exact h.importGo rfl rfl

theorem execCloseBlocks_runs (r : Req) : Runs [.capture, .archive, .slc] s (execCloseBlocks r s) :=
  .request rfl fun f t h => by
    split
    · exact ((h.closeSlots rfl rfl rfl).accept rfl).flashKick rfl rfl
    · exact h.withValue (fun l _ => ((h.closeSlots rfl rfl rfl).accept rfl).flashKick rfl rfl) rfl

theorem execHold_runs (r : Req) : Runs [.archive, .channels, .slc] s (execHold r s) :=
  .request rfl fun f t h => by
    split
    · exact h.refuse rfl
    · exact ((h.withdrawReads rfl rfl).updChannel rfl).accept rfl

theorem execRelease_runs (r : Req) : Runs [.archive, .channels, .slc] s (execRelease r s) :=
  .request rfl fun f t h => by
    split
    · exact h.refuse rfl
    · exact ((((h.updChannel rfl).accept rfl).deliverKept rfl rfl).channelGo rfl rfl).flashKick rfl rfl

theorem execCancel_runs (r : Req) : Runs [.archive, .channels, .slc] s (execCancel r s) :=
  .request rfl fun f t h => by
    dsimp only
    split
    · exact h.refuse rfl
    · exact (((h.updChannel rfl).set_archive rfl).updSlc rfl).accept rfl

theorem execReadCounters_runs (r : Req) : Runs [.ports, .trackers, .capture, .archive, .slc] s (execReadCounters r s) :=
  .request rfl fun f t h => h.withValue (fun q _ => by
    dsimp only
    split
    · exact (h.zeroGroup rfl rfl rfl rfl rfl).finish rfl
    · exact h.finish rfl) rfl

theorem execLinkClear_runs (r : Req) : Runs [.archive, .table, .channels, .slc] s (execLinkClear r s) :=
  .request rfl fun _ _ h => (((h.endRuns rfl rfl rfl).set_table rfl).updSlc rfl).accept rfl

theorem execClearAllData_runs (r : Req) : Runs [.trackers, .capture, .archive, .channels, .slc] s (execClearAllData r s) :=
  .request rfl fun f t h => by
    have k := ((h.endRuns rfl rfl rfl).set_trackers
      (v := t.endRuns.trackers.map (fun (x : Tracker) => ({ x with clear := true } : Tracker))) rfl).set_archive
      (v := { t.endRuns.archive with clear := true }) rfl
    exact ((k.updSlc rfl).storeClear rfl rfl rfl).flashKick rfl rfl

theorem execIdentify_runs (r : Req) : Runs [.slc] s (execIdentify r s) :=
  .request rfl fun _ _ h => h.finish rfl

theorem execReadDefinition_runs (r : Req) : Runs [.slc] s (execReadDefinition r s) :=
  .request rfl fun _ _ h => h.withValue (fun _ _ => h.finish rfl) rfl

theorem execSetNotices_runs (r : Req) : Runs [.slc] s (execSetNotices r s) :=
  .request rfl fun _ _ h => h.withValue (fun _ _ => (h.updSlc rfl).accept rfl) rfl

theorem execInjectEntry_runs (r : Req) : Runs [.slc] s (execInjectEntry r s) :=
  .request rfl fun _ _ h => h.withValue (fun _ _ => h.handLine rfl) rfl

theorem execInjectTail_runs (r : Req) : Runs [.slc] s (execInjectTail r s) :=
  .request rfl fun _ _ h => h.withValue (fun _ _ => h.handLine rfl) rfl

theorem execResyncLine_runs (r : Req) : Runs [.ports, .trackers, .capture, .archive, .slc] s (execResyncLine r s) :=
  .lineRequest rfl rfl rfl rfl rfl fun _ _ h => h.withValue (fun _ _ => (h.handLine rfl).lineGo rfl rfl rfl rfl rfl) rfl

theorem execEmptyLine_runs (r : Req) : Runs [.ports, .trackers, .capture, .archive, .slc] s (execEmptyLine r s) :=
  .lineRequest rfl rfl rfl rfl rfl fun _ _ h => h.withValue (fun _ _ => (h.handLine rfl).lineGo rfl rfl rfl rfl rfl) rfl

theorem execRetire_runs (r : Req) (k : Option Nat) : Runs [.table, .slc] s (execRetire r k s) :=
  .tableRequest rfl (fun _ h => h.retireGo rfl rfl) fun _ _ h => h.present rfl

theorem execLookup_runs (r : Req) : Runs [.slc] s (execLookup r s) :=
  .tableRequest rfl (fun _ h => h.lookupGo rfl) fun _ _ h => h.withValue (fun _ _ => h.present rfl) rfl

theorem execSetTarget_runs (r : Req) : Runs [.channels, .slc] s (execSetTarget r s) :=
  .request rfl fun _ _ h => h.stage rfl rfl

theorem execSetRange_runs (r : Req) : Runs [.channels, .slc] s (execSetRange r s) :=
  .request rfl fun _ _ h => h.stage rfl rfl

theorem execSetTraces_runs (r : Req) : Runs [.channels, .slc] s (execSetTraces r s) :=
  .request rfl fun _ _ h => h.stage rfl rfl

theorem execSetProfile_runs (r : Req) : Runs [.channels, .slc] s (execSetProfile r s) :=
  .request rfl fun _ _ h => h.stage rfl rfl

theorem execSetDepth_runs (r : Req) : Runs [.channels, .slc] s (execSetDepth r s) :=
  .request rfl fun _ _ h => h.stage rfl rfl

theorem execResetChannel_runs (r : Req) : Runs [.channels, .slc] s (execResetChannel r s) :=
  .request rfl fun _ _ h => h.stage rfl rfl

theorem execRunPlayback_runs (r : Req) : Runs [.archive, .channels, .slc] s (execRunPlayback r s) :=
  .tableRequest rfl (fun _ h => h.runGo (fun _ _ _ => h.startPlayback rfl rfl rfl) rfl) fun _ _ h => h.ownPlayback rfl rfl rfl

theorem execRunAncestry_runs (r : Req) : Runs [.archive, .channels, .slc] s (execRunAncestry r s) :=
  .tableRequest rfl (fun _ h => h.runGo (fun _ _ _ => h.startWalk rfl rfl rfl) rfl) fun _ _ h => h.ownWalk rfl

theorem execRunDescent_runs (r : Req) : Runs [.archive, .channels, .slc] s (execRunDescent r s) :=
  .tableRequest rfl (fun _ h => h.runGo (fun _ _ _ => h.startWalk rfl rfl rfl) rfl) fun _ _ h => h.ownWalk rfl

theorem execPoll_runs (r : Req) : Runs [.slc] s (execPoll r s) :=
  .request rfl fun _ _ h => (h.updSlc rfl).finish rfl

theorem execUnknownKind_runs (k : Byte) (r : Req) : Runs [.slc] s (execUnknownKind k r s) :=
  .ite .still (.request rfl fun _ _ h => h)

/-! ## The link, the ports and the items of a line -/

theorem execLinkByte_runs (b : Byte) (m : Bool) : Runs [.slc] s (execLinkByte b m s) :=
  .ite (.settle ((Touches.refl _ s).updSlc rfl) rfl) .still

theorem execReplyPlaced_runs : Runs [.slc] s (execReplyPlaced s) := by
  unfold execReplyPlaced
  split
  · exact .ite (.settle ((Touches.refl _ s).updSlc rfl) rfl) .still
  · exact .still

theorem execGapTimeout_runs : Runs [.slc] s (execGapTimeout s) := by
  unfold execGapTimeout
  split
  · exact .ite (.settle ((Touches.refl _ s).updSlc rfl) rfl) .still
  · exact .still

theorem execFrameTransmitted_runs : Runs [.channels, .slc] s (execFrameTransmitted s) := by
  unfold execFrameTransmitted
  split
  · exact .still
  · exact .settle (((Touches.refl _ s).updSlc rfl).sent rfl rfl) rfl

theorem execNoticeRepeat_runs (k : Condition) : Runs [.slc] s (execNoticeRepeat k s) := by
  unfold execNoticeRepeat
  split
  · exact .still
  · exact .ite (.settle ((Touches.refl _ s).updSlc rfl) rfl) .still

theorem execCharacter_runs (l : Fin 4) (d : Byte) (f p st : Bool) (n : Nat) : Runs [.ports, .slc] s (execCharacter l d f p st n s) := by
  have h := Touches.refl [.ports, .slc] s
  unfold execCharacter
  refine .ite .still ?_
  split
  · refine .settle (Touches.completed ?_ rfl) rfl
    unfold State.wholeChar
    split
    · exact h
    · exact h
    · exact h.classed rfl
  · split
    · exact .still
    · exact .settle (h.completed rfl) rfl
    · exact .settle ((h.updPort rfl).completed rfl) rfl

theorem execIdleEvent_runs (l : Fin 4) : Runs [.ports, .trackers, .slc] s (execIdleEvent l s) := by
  have h := (Touches.refl [.ports, .trackers, .slc] s).updPort (l := l) (f := fun p => { p with idleArmed := false, cuts := [] }) rfl
  unfold execIdleEvent
  refine .ite .still ?_
  dsimp only
  split
  · exact .settle (h.endFrame rfl rfl rfl) rfl
  · exact .settle h rfl
  · exact .settle (h.updPort rfl) rfl

theorem execSilent_runs (l : Fin 4) : Runs [.trackers, .slc] s (execSilent l s) := by
  have h := (Touches.refl [.trackers, .slc] s).updTracker (l := l) (f := fun t => { t with silent := true, timer := false }) rfl
  unfold execSilent
  refine .ite (.settle ?_ rfl) .still
  split
  · exact h.raiseHeld rfl
  · exact h.raise rfl

section
variable {s : State} {ps : List Part} {l : Fin 4} {it : Item}

/-- An item command takes its item and acts on it. -/
theorem Runs.item {act : State → Host.Outcome State Fault Refusal} (hp : ps.contains .ports = true) (ht : ps.contains .trackers = true)
    (hs : ps.contains .slc = true) (h : ∀ u, Touches ps s u → Runs ps s (act u)) :
    Runs ps s (match s.takeItem l it with | none => Machine.still s | some u => act u) := by
  cases hu : s.takeItem l it with
  | none => exact .still
  | some u => exact h u ((Touches.refl ps s).takeItem hu hp ht hs)

end

theorem execPosition_runs (l : Fin 4) (q : Byte) (f d t : BitVec 32) : Runs [.ports, .trackers, .slc] s (execPosition l q f d t s) :=
  .item rfl rfl rfl fun _ h =>
    .settle (((((h.seqCheck rfl rfl rfl).takeCount rfl rfl).takeCount rfl rfl).leaveWaiting rfl rfl).runItem rfl rfl) rfl

theorem execReadings_runs (l : Fin 4) (q g : Byte) (f : BitVec 32) (st : BitVec 16) (rs : Raws) (t : BitVec 32) :
    Runs [.ports, .trackers, .capture, .archive, .slc] s (execReadings l q g f st rs t s) := by
  unfold execReadings
  dsimp only
  split
  · exact .settle (((Touches.refl _ s).handOn rfl rfl rfl rfl).flashKick rfl rfl) rfl
  · refine .item rfl rfl rfl fun u h => ?_
    have k := h.seqCheck (l := l) (q := q) rfl rfl rfl
    split
    · exact .settle ((k.updCaptureCnt rfl).runTasks rfl rfl) rfl
    · exact .settle ((k.readingsItem rfl rfl rfl rfl).flashKick rfl rfl) rfl

theorem execEntry_runs (l : Fin 4) (q : Byte) (f : BitVec 32) (o : Orientation) (d : BitVec 32) (n : Name) : Runs [.ports, .trackers, .slc] s (execEntry l q f o d n s) :=
  .item rfl rfl rfl fun _ h => .settle ((h.seqCheck rfl rfl rfl).entryItem rfl rfl rfl) rfl

theorem execTail_runs (l : Fin 4) (q : Byte) (f : BitVec 32) : Runs [.ports, .trackers, .slc] s (execTail l q f s) :=
  .item rfl rfl rfl fun _ h => .settle ((h.seqCheck rfl rfl rfl).tailItem rfl rfl rfl) rfl

theorem execCut_runs (l : Fin 4) (q : Byte) (c : BitVec 32) (n : BitVec 32) (ns : List Name) : Runs [.ports, .trackers, .slc] s (execCut l q c n ns s) :=
  .item rfl rfl rfl fun _ h => .settle ((h.seqCheck rfl rfl rfl).cutItem rfl rfl rfl) rfl

theorem execRestartMark_runs (l : Fin 4) : Runs [.ports, .trackers, .capture, .archive, .slc] s (execRestartMark l s) :=
  .item rfl rfl rfl fun _ h => .settle (((h.lineRestart rfl rfl rfl rfl).updTracker rfl).flashKick rfl rfl) rfl

theorem execMalformedItem_runs (l : Fin 4) (k q : Byte) : Runs [.ports, .trackers, .slc] s (execMalformedItem l k q s) := by
  refine .item rfl rfl rfl fun u h => .settle (Touches.runTasks ?_ rfl rfl) rfl
  have h := h.seqCheck (l := l) (q := q) rfl rfl rfl
  split
  · exact h
  · exact h.discontinuityIf rfl rfl

theorem execInjectedEvent_runs (l : Fin 4) : Runs [.trackers, .slc] s (execInjectedEvent l s) := by
  have h (f : Frame) := (Touches.refl [.trackers, .slc] s).updSlc (f := fun c => { c with unit := .event f l }) rfl
  unfold execInjectedEvent
  refine .ite .still ?_
  dsimp only
  split
  · refine .ite .still ?_
    split
    · split
      · exact .settle ((h _).refuseEvent rfl rfl) rfl
      · exact .settle (((h _).restore rfl rfl).runTasks rfl rfl) rfl
    · split
      · exact .settle ((h _).refuseEvent rfl rfl) rfl
      · exact .settle ((h _).runTasks rfl rfl) rfl
    · split
      · exact .settle ((h _).refuseEvent rfl rfl) rfl
      · exact .settle ((h _).runTasks rfl rfl) rfl
  · exact .still

theorem execTrackerClear_runs (l : Fin 4) : Runs [.trackers, .slc] s (execTrackerClear l s) := by
  unfold execTrackerClear
  exact .ite (.settle (((((Touches.refl _ s).updTracker rfl).endCondition rfl).endCondition rfl).clearAnswer rfl) rfl) .still

/-! ## Operations of the Genealogy Table -/

theorem execEnterCoil_runs (l : Fin 4) : Runs [.table, .trackers, .slc] s (execEnterCoil l s) := by
  unfold execEnterCoil
  split
  · split
    · dsimp only
      refine .settle (Touches.resumeItem ?_ rfl rfl) rfl
      split
      · exact ((Touches.refl _ s).served rfl rfl).updSeg rfl
      · exact ((Touches.refl _ s).served rfl rfl).detach rfl
    · exact .still
  · exact .still

theorem execCloseEntry_runs (l : Fin 4) : Runs [.table, .trackers, .slc] s (execCloseEntry l s) := by
  unfold execCloseEntry
  split
  · split
    · dsimp only
      split
      · exact .settle (((Touches.refl _ s).served rfl rfl).resumeItem rfl rfl) rfl
      · exact .settle ((((Touches.refl _ s).served rfl rfl).updSeg rfl).resumeItem rfl rfl) rfl
      · exact .settle ((((Touches.refl _ s).served rfl rfl).detach rfl).resumeItem rfl rfl) rfl
    · exact .still
  · exact .still

theorem execMakeChild_runs (l : Fin 4) : Runs [.table, .trackers, .slc] s (execMakeChild l s) := by
  unfold execMakeChild
  split
  · split
    · dsimp only
      refine .settle (Touches.resumeItem ?_ rfl rfl) rfl
      split
      · exact (Touches.refl _ s).served rfl rfl
      · exact ((Touches.refl _ s).served rfl rfl).updTrackCnt rfl
    · exact .still
  · exact .still

theorem execFinalizeLinks_runs (l : Fin 4) : Runs [.table, .trackers, .slc] s (execFinalizeLinks l s) := by
  unfold execFinalizeLinks
  split
  · split
    · dsimp only
      refine .settle (Touches.resumeItem ?_ rfl rfl) rfl
      split
      · exact ((Touches.refl _ s).served rfl rfl).updSeg rfl
      · exact (((Touches.refl _ s).served rfl rfl).updSeg rfl).detach rfl
    · exact .still
  · exact .still

theorem execDropPending_runs (l : Fin 4) : Runs [.table, .trackers, .slc] s (execDropPending l s) := by
  unfold execDropPending
  split
  · split
    · dsimp only
      refine .settle (Touches.resumeItem ?_ rfl rfl) rfl
      split
      · exact (Touches.refl _ s).served rfl rfl
      · exact ((Touches.refl _ s).served rfl rfl).detach rfl
    · exact .still
  · exact .still

theorem execImportCoil_runs : Runs [.table, .slc] s (execImportCoil s) := by
  unfold execImportCoil
  split
  · exact .settle ((Touches.refl _ s).importItem rfl rfl) rfl
  · exact .still

theorem execImportLink_runs : Runs [.table, .slc] s (execImportLink s) := by
  unfold execImportLink
  split
  · exact .settle ((Touches.refl _ s).importItem rfl rfl) rfl
  · exact .still

theorem execPlanStep_runs (ch : Fin 4) : Runs [.table, .archive, .channels, .slc] s (execPlanStep ch s) := by
  unfold execPlanStep
  refine .ite .still ?_
  split
  · exact .still
  · have h := ((Touches.refl [.table, .archive, .channels, .slc] s).set_table (v := { s.table with lastPlanner := ch }) rfl).updRun
      (c := ch) (f := fun r => { r with planOp := none }) rfl
    exact .ite (.settle (h.updRun rfl) rfl) (.settle (((h.deliver rfl rfl).channelGo rfl rfl).flashKick rfl rfl) rfl)

theorem execGtClear_runs : Runs [.table, .slc] s (execGtClear s) := by
  unfold execGtClear
  split
  · exact .ite .still (.settle ((((Touches.refl _ s).set_table rfl).updSlc rfl).clearAnswer rfl) rfl)
  · exact .still

/-! ## Capture and archive -/

theorem execGaugeIdleExpiry_runs (i : Fin 64) : Runs [.capture, .archive, .slc] s (execGaugeIdleExpiry i s) :=
  .ite .still (.settle (((Touches.refl _ s).closeSlot rfl rfl rfl).flashKick rfl rfl) rfl)

theorem execProgram_runs (e : FlashEnd) : Runs [.flash, .capture, .archive, .slc] s (execProgram e s) := by
  have last {t : State} (h : Touches [.flash, .capture, .archive, .slc] s t) (r : Arch) :
      Runs [.flash, .capture, .archive, .slc] s (settle (t.withArch r).storeClear.clearAnswer.flashKick) :=
    .settle ((((h.withArch rfl rfl).storeClear rfl rfl rfl).clearAnswer rfl).flashKick rfl rfl) rfl
  unfold execProgram
  split
  · split
    · exact last ((Touches.refl _ s).set_flash rfl) _
    · exact last (.refl _ s) _
  · exact .still

theorem execErase_runs (e : FlashEnd) : Runs [.flash, .capture, .archive, .slc] s (execErase e s) := by
  unfold execErase
  split
  · refine .settle (((Touches.withArch ?_ rfl rfl).storeClear rfl rfl rfl).clearAnswer rfl |>.flashKick rfl rfl) rfl
    split
    · exact (Touches.refl _ s).set_flash rfl
    · exact .refl _ s
  · exact .still

theorem execRead_runs (b : ReadBack) : Runs [.capture, .archive, .channels, .slc] s (execRead b s) := by
  unfold execRead
  split
  · refine .settle ((((Touches.channelGo ?_ rfl rfl).storeClear rfl rfl rfl).clearAnswer rfl).flashKick rfl rfl) rfl
    split
    · exact ((Touches.refl _ s).set_archive rfl).onOutcome rfl rfl
    · exact (Touches.refl _ s).set_archive rfl
  · exact .still

theorem execStreamFramePlaced_runs (ch : Fin 4) : Runs [.archive, .channels, .slc] s (execStreamFramePlaced ch s) := by
  unfold execStreamFramePlaced
  refine .ite .still ?_
  split
  · exact .still
  · split
    · exact .still
    · exact .settle ((((Touches.refl _ s).placeFrame rfl rfl).channelGo rfl rfl).flashKick rfl rfl) rfl

/-! ## Start-up -/

theorem State.enterStarting_touches (t : State) {ps : List Part} (h : Touches ps s t)
    (hs : [Part.startUp, .ports, .trackers, .capture, .archive, .table, .channels, .slc].all ps.contains = true) :
    Touches ps s t.enterStarting := by
  simp only [List.all_cons, List.all_nil, Bool.and_true, Bool.and_eq_true] at hs
  obtain ⟨h1, h2, h3, h4, h5, h6, h7, h8⟩ := hs
  exact (((((((h.set_startUp h1).set_ports h2).set_trackers h3).set_capture h4).set_archive h5).set_table h6).set_channels h7).set_slc h8

theorem execResetAsserted_runs (n : Nat) :
    Runs [.startUp, .ports, .trackers, .capture, .archive, .table, .channels, .slc] s (execResetAsserted n s) :=
  .ite .still ⟨_, rfl, (State.enterStarting_touches s _ ((Touches.refl _ s).set_table rfl) rfl).set_startUp rfl⟩

theorem execResetReleased_runs (p : Fin 4) : Runs [.startUp] s (execResetReleased p s) :=
  .ite ⟨_, rfl, (Touches.refl _ s).set_startUp rfl⟩ .still

theorem execPowerOn_runs (b : Bool) (p : Fin 4) :
    Runs [.startUp, .ports, .trackers, .capture, .archive, .table, .channels, .slc] s (execPowerOn b p s) :=
  .ite ⟨_, rfl, (State.enterStarting_touches s s (.refl _ s) rfl).set_startUp rfl⟩
    ⟨_, rfl, (State.enterStarting_touches s s (.refl _ s) rfl).set_startUp rfl⟩

theorem execColdStart_runs (bad : List (Fin 4096)) :
    Runs [.startUp, .ports, .trackers, .capture, .archive, .table, .channels, .profiles, .slc] s (execColdStart bad s) := by
  unfold execColdStart
  split
  · refine .settle (Touches.becomeReady ?_ rfl rfl rfl rfl rfl) rfl
    exact (((((((((Touches.refl _ s).set_startUp rfl).set_ports rfl).set_trackers rfl).set_capture rfl).set_archive rfl).set_table
      rfl).set_channels rfl).set_profiles rfl).set_slc rfl
  · exact .still

theorem execResume_runs (p : ReadBack) (bad : List (Fin 4096)) (k : Option Nat) :
    Runs [.startUp, .ports, .trackers, .capture, .archive, .flash, .slc] s (execResume p bad k s) := by
  have all (us : List ResumeUpdate) (t : State) (h : Touches [.startUp, .ports, .trackers, .capture, .archive, .flash, .slc] s t) :
      Touches [.startUp, .ports, .trackers, .capture, .archive, .flash, .slc] s (us.foldl (State.resumeUpdate p bad) t) := by
    induction us generalizing t with
    | nil => exact h
    | cons u us ih => exact ih _ (h.resumeUpdate rfl rfl rfl)
  unfold execResume
  split
  · split
    · exact .settle (all _ s (.refl _ s)) rfl
    · exact .settle (((all _ s (.refl _ s)).marksFromIndex rfl).becomeReady rfl rfl rfl rfl rfl) rfl
  · exact .still

/-! ## Every command -/

theorem exec_runs (c : Instr) : Runs (touched c) s (exec c s) := by
  cases c with
  | identify r => exact execIdentify_runs s r
  | defineLine r => exact execDefineLine_runs s r
  | defineGauge r => exact execDefineGauge_runs s r
  | defineProfile r => exact execDefineProfile_runs s r
  | readDefinition r => exact execReadDefinition_runs s r
  | setNotices r => exact execSetNotices_runs s r
  | injectEntry r => exact execInjectEntry_runs s r
  | injectTail r => exact execInjectTail_runs s r
  | injectCut r => exact execInjectCut_runs s r
  | resyncLine r => exact execResyncLine_runs s r
  | emptyLine r => exact execEmptyLine_runs s r
  | importFrame r => exact execImportFrame_runs s r
  | retire r k => exact execRetire_runs s r k
  | lookup r => exact execLookup_runs s r
  | closeBlocks r => exact execCloseBlocks_runs s r
  | setTarget r => exact execSetTarget_runs s r
  | setRange r => exact execSetRange_runs s r
  | setTraces r => exact execSetTraces_runs s r
  | setProfile r => exact execSetProfile_runs s r
  | setDepth r => exact execSetDepth_runs s r
  | resetChannel r => exact execResetChannel_runs s r
  | runPlayback r => exact execRunPlayback_runs s r
  | runAncestry r => exact execRunAncestry_runs s r
  | runDescent r => exact execRunDescent_runs s r
  | hold r => exact execHold_runs s r
  | release r => exact execRelease_runs s r
  | cancel r => exact execCancel_runs s r
  | poll r => exact execPoll_runs s r
  | readCounters r => exact execReadCounters_runs s r
  | linkClear r => exact execLinkClear_runs s r
  | clearAllData r => exact execClearAllData_runs s r
  | unknownKind k r => exact execUnknownKind_runs s k r
  | replyPlaced => exact execReplyPlaced_runs s
  | linkByte b m => exact execLinkByte_runs s b m
  | gapTimeout => exact execGapTimeout_runs s
  | frameTransmitted => exact execFrameTransmitted_runs s
  | noticeRepeat k => exact execNoticeRepeat_runs s k
  | character l d f p st n => exact execCharacter_runs s l d f p st n
  | idleEvent l => exact execIdleEvent_runs s l
  | silent l => exact execSilent_runs s l
  | position l q f d t => exact execPosition_runs s l q f d t
  | readings l q g f st rs t => exact execReadings_runs s l q g f st rs t
  | entry l q f o d n => exact execEntry_runs s l q f o d n
  | tail l q f => exact execTail_runs s l q f
  | cut l q c n ns => exact execCut_runs s l q c n ns
  | malformedItem l k q => exact execMalformedItem_runs s l k q
  | restartMark l => exact execRestartMark_runs s l
  | injectedEvent l => exact execInjectedEvent_runs s l
  | trackerClear l => exact execTrackerClear_runs s l
  | enterCoil l => exact execEnterCoil_runs s l
  | closeEntry l => exact execCloseEntry_runs s l
  | makeChild l => exact execMakeChild_runs s l
  | finalizeLinks l => exact execFinalizeLinks_runs s l
  | dropPending l => exact execDropPending_runs s l
  | importCoil => exact execImportCoil_runs s
  | importLink => exact execImportLink_runs s
  | planStep ch => exact execPlanStep_runs s ch
  | gtClear => exact execGtClear_runs s
  | gaugeIdleExpiry i => exact execGaugeIdleExpiry_runs s i
  | program e => exact execProgram_runs s e
  | erase e => exact execErase_runs s e
  | read b => exact execRead_runs s b
  | streamFramePlaced ch => exact execStreamFramePlaced_runs s ch
  | resetAsserted n => exact execResetAsserted_runs s n
  | resetReleased p => exact execResetReleased_runs s p
  | powerOn b p => exact execPowerOn_runs s b p
  | coldStart bad => exact execColdStart_runs s bad
  | resume p bad k => exact execResume_runs s p bad k

end

/-- Settles O2: each command's blocks, by its own chain of the frame lemmas. -/
theorem everyCommandTouchesOnlyItsBlocks : Obligations.EveryCommandTouchesOnlyItsBlocks := fun c s => exec_runs s c

end Sys2Proof.Machine
end

section
/-! Every operation of the Genealogy Table, and every step, keeps the pools and the name index sound (R6, R9, R12, law L8). -/

namespace Sys2Proof.Machine

theorem Genealogy.addNewLinks_links_length (line : Nat) (child : Option Nat) (ns : List NewLink) (g : Genealogy) :
    (g.addNewLinks line child ns).links.length = g.links.length + ns.length := by
  induction ns generalizing g with
  | nil => rfl
  | cons n ns ih =>
    rw [addNewLinks_cons, ih, addLink_links_length, List.length_cons]
    omega

/-! ## MAKE CHILD by its cases (R18) -/

/-- The links of a MAKE CHILD whose parent reference is current. -/
def Genealogy.live (g : Genealogy) (ns : List NewLink) : List NewLink := ns.filter (fun n => (g.current n.parent).isSome)

/-- The child links of a MAKE CHILD that it can act on. -/
def Genealogy.childLinks (g : Genealogy) (child : Option ChildPart) : List NewLink := g.live ((child.map (·.links)).getD [])

/-- The child spans lie in the child and apart from each other (R7, L5). -/
def childSpansOk (p : ChildPart) (cl : List NewLink) : Bool :=
  (cl.map (·.childSpan)).all (fun s => !s.empty && decide (s.hi ≤ p.length)) && spansApart (cl.map (·.childSpan))

/-- A MAKE CHILD keeps laws L4 to L6 (R7, R18). -/
def Genealogy.legalChild (g : Genealogy) (child : Option ChildPart) (scraps : List NewLink) : Bool :=
  child.all (fun p => childSpansOk p (g.childLinks child)) && (g.childLinks child ++ g.live scraps).all g.spanOk
    && newKeepL6 (g.childLinks child ++ g.live scraps)

/-- The room a MAKE CHILD needs. -/
def Genealogy.childRoom (g : Genealogy) (held : List Ref) (line : Nat) (child : Option ChildPart) (scraps : List NewLink) :
    Genealogy × Bool × List Notice :=
  g.makeRoom held ((g.childLinks child ++ g.live scraps).map (·.parent.handle)) child.toList.length
    (g.childLinks child ++ g.live scraps).length (some line)

/-- The record of a child part, in a table that has room (R18). -/
def ChildPart.record (p : ChildPart) (g : Genealogy) (seq line : Nat) : Coil :=
  { handle := g.freeCoil, seq := seq, name := p.name, indexed := !(g.named p.name).isSome, origin := .tracked, state := .made,
    length := some p.length, flags := { suspect := p.suspect, clamped := p.clamped, duplicateName := (g.named p.name).isSome },
    made := some { line := line, lane := p.lane, head := p.head }, consumed := none, parents := [], children := [] }

/-- An indexed record bears a name the index does not hold. -/
theorem ChildPart.record_unnamed {p : ChildPart} {g : Genealogy} {seq line : Nat} (h : (p.record g seq line).indexed = true) :
    g.named (p.record g seq line).name = none := by simpa [record] using h

/-- The notices of a child made: DUPLICATE NAME, then MADE (R28). -/
def ChildPart.notices (p : ChildPart) (c : Coil) (line : Nat) : List Notice :=
  (if c.flags.duplicateName then [{ genealogyNotice 2 (some line) (some p.name) with coil := some c.ref }] else [])
    ++ [coilNotice 3 line c c.length (some p.lane.code)]

/-- A MAKE CHILD that is legal and has room is recorded. -/
def Genealogy.recordChild (seq line : Nat) (cl sl : List NewLink) (room : Genealogy × Bool × List Notice) :
    Option ChildPart → Genealogy × Bool × List Notice
  | none => (room.1.addNewLinks line none sl, true, room.2.2)
  | some p =>
    let c := p.record room.1 seq line
    (({ room.1.addCoil c with nextSeq := seq + 1 }.addNewLinks line (some c.handle) cl).addNewLinks line none sl, true,
      room.2.2 ++ p.notices c line)

theorem Genealogy.makeChild_eq (g : Genealogy) (held : List Ref) (line : Nat) (child : Option ChildPart) (scraps : List NewLink) :
    g.makeChild held line child scraps =
      if !g.legalChild child scraps then (g, false, [genealogyNotice 4 (some line) (child.map (·.name))])
      else if child.isSome && g.exhausted then (g, false, [genealogyNotice 6 (some line) (child.map (·.name))])
      else if !(g.childRoom held line child scraps).2.1 then
        ((g.childRoom held line child scraps).1, false,
          (g.childRoom held line child scraps).2.2 ++ [genealogyNotice 3 (some line) (child.map (·.name))])
      else recordChild g.nextSeq line (g.childLinks child) (g.live scraps) (g.childRoom held line child scraps) child := by
  cases child with
  | none => rfl
  | some p => unfold makeChild recordChild ChildPart.notices; simp only [← List.append_assoc]; rfl

theorem Genealogy.childRoom_fits {g : Genealogy} {held : List Ref} {line : Nat} {child : Option ChildPart} {scraps : List NewLink}
    (h : (g.childRoom held line child scraps).2.1 = true) :
    (g.childRoom held line child scraps).1.coils.length + child.toList.length ≤ coilSlots ∧
      (g.childRoom held line child scraps).1.links.length + (g.childLinks child).length + (g.live scraps).length ≤ linkSlots := by
  have k := fits_iff.mp ((makeRoom_fits ..).symm.trans h)
  exact ⟨k.1, by rw [Nat.add_assoc, ← List.length_append]; exact k.2⟩

/-! ## The operations of trackers, imports and the Request Unit -/

theorem SoundTable.relisted {g g' : Genealogy} (h : SoundTable g) (r : Relisted g g') (k : PoolInv g') : SoundTable g' := ⟨k, r.nameInv h.2⟩

/-- A record without links enters the slot found after room was made for it (R9). -/
theorem SoundTable.create {g : Genealogy} (h : SoundTable g) {held : List Ref} {spare : List Nat} {nl : Nat} {line : Option Nat}
    (hr : (g.makeRoom held spare 1 nl line).2.1 = true) {c : Coil} (hs : c.handle = (g.makeRoom held spare 1 nl line).1.freeCoil)
    (hp : c.parents = []) (hk : c.children = []) (hn : c.indexed = true → (g.makeRoom held spare 1 nl line).1.named c.name = none) :
    SoundTable ((g.makeRoom held spare 1 nl line).1.addCoil c) := by
  have room := (Genealogy.fits_iff.mp ((Genealogy.makeRoom_fits ..).symm.trans hr)).1
  have hle := Genealogy.freeCoil_le (g.makeRoom held spare 1 nl line).1
  exact (h.makeRoom held spare 1 nl line).addCoil (hs ▸ Genealogy.freeCoil_lowest _) (by omega) hp hk hn

theorem SoundTable.named_makeRoom {g : Genealogy} (h : SoundTable g) {n : Name} (hn : g.named n = none) (held : List Ref)
    (spare : List Nat) (nc nl : Nat) (line : Option Nat) : (g.makeRoom held spare nc nl line).1.named n = none := by
  obtain ⟨gone, e⟩ := Genealogy.makeRoom_without h.1.1 held spare nc nl line
  exact e ▸ Genealogy.without_named hn gone

section
variable {g : Genealogy} (h : SoundTable g)
include h

theorem SoundTable.enterCoil (held : List Ref) (line : Nat) (name : Name) (o : Orientation) (fh declared : Nat) :
    SoundTable (g.enterCoil held line name o fh declared).1 := by
  unfold Genealogy.enterCoil
  dsimp only
  split
  · next hn =>
    split
    · exact h
    · split
      · next hr => exact (h.create hr rfl rfl rfl (fun _ => h.named_makeRoom hn ..)).congr rfl rfl
      · exact h.makeRoom ..
  · split
    · exact h.updCoil (fun _ _ _ => ⟨rfl, rfl, rfl, rfl, rfl⟩)
    · split
      · exact h
      · split
        · next hr => exact (h.create hr rfl rfl rfl (fun hi => by cases hi)).congr rfl rfl
        · exact h.makeRoom ..

theorem SoundTable.closeEntry (line : Nat) (r : Ref) (ft : Nat) : SoundTable (g.closeEntry line r ft).1 := by
  unfold Genealogy.closeEntry
  split
  · exact h
  · next c hc =>
    split
    · refine h.updCoil (fun d hd e => ?_)
      cases h.1.coil_eq hd (Genealogy.current_some hc).1 e
      exact ⟨rfl, rfl, rfl, rfl, rfl⟩
    · exact h

theorem SoundTable.addNewLinks (line : Nat) (child : Option Nat) {ns : List NewLink} (hr : g.links.length + ns.length ≤ linkSlots) :
    SoundTable (g.addNewLinks line child ns) :=
  h.relisted (Genealogy.addNewLinks_relisted ..) (h.1.addNewLinks line child hr)

theorem SoundTable.makeChild (held : List Ref) (line : Nat) (child : Option ChildPart) (scraps : List NewLink) :
    SoundTable (g.makeChild held line child scraps).1 := by
  rw [Genealogy.makeChild_eq]
  split
  · exact h
  · split
    · exact h
    · split
      · exact h.makeRoom ..
      · next hr =>
        have hr : (g.childRoom held line child scraps).2.1 = true := by simpa using hr
        have room := (Genealogy.childRoom_fits hr).2
        cases child with
        | none => exact (h.makeRoom ..).addNewLinks line none (Nat.le_trans (Nat.add_le_add_right (Nat.le_add_right _ _) _) room)
        | some p =>
          have k : SoundTable { (g.childRoom held line (some p) scraps).1.addCoil
              (p.record (g.childRoom held line (some p) scraps).1 g.nextSeq line) with nextSeq := g.nextSeq + 1 } := by
            exact (h.create hr rfl rfl rfl ChildPart.record_unnamed).congr rfl rfl
          refine (k.addNewLinks line _ (Nat.le_trans (Nat.le_add_right _ _) room)).addNewLinks line none ?_
          rw [Genealogy.addNewLinks_links_length]
          exact room

theorem SoundTable.finalizeLinks (line : Nat) (r : Ref) (o : Orientation) (fh ft dh dt len : Nat) (suspect : Bool) :
    SoundTable (g.finalizeLinks line r o fh ft dh dt len suspect).1 := by
  cases hc : g.current r with
  | none => unfold Genealogy.finalizeLinks; rw [hc]; exact h
  | some c =>
    obtain ⟨_, k⟩ := h.1.finalizeLinks hc line o fh ft dh dt len suspect
    exact h.relisted k.coils k.pools

theorem SoundTable.foldl_dropLink (hs : List Nat) : SoundTable (hs.foldl Genealogy.dropLink g) :=
  h.relisted (Genealogy.foldl_dropLink_relisted hs g) (h.1.foldl_dropLink hs)

theorem SoundTable.dropPending (line : Nat) (r : Ref) : SoundTable (g.dropPending line r).1 := by
  unfold Genealogy.dropPending
  split
  · exact h
  · exact h.foldl_dropLink _

theorem SoundTable.importCoil (held : List Ref) (flags : Byte) (len : Nat) (name : Name) :
    SoundTable (g.importCoil held flags len name).1 := by
  unfold Genealogy.importCoil
  dsimp only
  split
  · exact h
  · split
    · exact h
    · next hn =>
      split
      · exact h
      · split
        · exact h.makeRoom ..
        · next hr =>
          exact (h.create (by simpa using hr) rfl rfl rfl (fun _ => h.named_makeRoom (by simpa using hn) ..)).congr rfl rfl

theorem SoundTable.importLink (held : List Ref) (code : Nat) (dir lane : Byte) (cs ps : Ival) (cn pn : Name) :
    SoundTable (g.importLink held code dir lane cs ps cn pn).1 := by
  unfold Genealogy.importLink
  dsimp only
  split
  · exact h
  · split
    · next c p _ _ =>
      split
      · split
        · exact h
        · split
          · exact h
          · split
            · exact h
            · split
              · exact h
              · split
                · exact h.makeRoom ..
                · next hr =>
                  have k := h.makeRoom held [c.handle, p.handle] 0 1 none
                  have room := (Genealogy.fits_iff.mp ((Genealogy.makeRoom_fits ..).symm.trans (by simpa using hr))).2
                  have hle := Genealogy.freeLink_le (g.makeRoom held [c.handle, p.handle] 0 1 none).1
                  dsimp only
                  exact k.relisted (Genealogy.addLink_relisted _ _) (k.1.addLink (Genealogy.freeLink_lowest _) (Nat.lt_of_le_of_lt hle room))
      · exact h
    · exact h

theorem SoundTable.retireBelow (held : List Ref) (bound n next : Nat) : SoundTable (Genealogy.retireBelow held bound n next g).1 := by
  obtain ⟨gone, e⟩ := Genealogy.retireBelow_without h.1.1 held bound n [] next
  rw [Genealogy.without_nil] at e
  exact e ▸ h.without _

theorem SoundTable.cutAutoRetire (held : List Ref) (spare : List Nat) (nc nl k : Nat) (ns : List Notice) :
    SoundTable (g.cutAutoRetire held spare nc nl k ns) := by
  unfold Genealogy.cutAutoRetire
  split
  · obtain ⟨gone, e⟩ := Genealogy.autoRetire_without h.1.1 held spare nc nl k [] 0
    rw [Genealogy.without_nil] at e
    rw [e]
    exact h.without _
  · exact h

end

/-! ## Every step -/

/-- An item that goes on after a result leaves the table, and so does the scheduler. -/
theorem State.resumeItem_table (s : State) (l : Fin 4) (w : Work) (ks : List Task) : (s.resumeItem l w ks).table = s.table :=
  ((Touches.refl [.trackers, .slc] s).resumeItem rfl rfl).table_eq

theorem State.served_table (s : State) (l : Fin 4) (g : Genealogy) (ns : List Notice) :
    (s.served l g ns).table = { g with lastTracker := l } :=
  ((Touches.refl [.slc] { s with table := { g with lastTracker := l } }).raiseAll rfl).table_eq

theorem State.importGo_table (s : State) (f : Frame) (j : ImportJob) :
    (s.importGo f j).table = { s.table with session := (s.importGo f j).table.session } := by
  unfold State.importGo State.importDone
  split
  · rfl
  · split <;> rfl

theorem State.importItem_table (s : State) (f : Frame) (j : ImportJob) (r : Genealogy × Option Code × List Notice) :
    (s.importItem f j r).table = { r.1 with session := (s.importItem f j r).table.session } := by
  have e : (State.raiseAll { s with table := r.1 } r.2.2).table = r.1 :=
    ((Touches.refl [.slc] { s with table := r.1 }).raiseAll rfl).table_eq
  exact (State.importGo_table _ f _).trans (by rw [e]; rfl)

/-- A next state, where the outcome is one, has a sound table. -/
def LeadsSound (o : Host.Outcome State Fault Refusal) : Prop := ∀ t, o = .next t → SoundTable t.table

theorem LeadsSound.next {u : State} (h : SoundTable u.table) : LeadsSound (.next u) := fun t e => by cases e; exact h

theorem LeadsSound.settle {u : State} (h : SoundTable u.table) : LeadsSound (settle u) := .next (by rw [State.kick_table]; exact h)

theorem LeadsSound.ite {c : Prop} [Decidable c] {a b : Host.Outcome State Fault Refusal} (ha : LeadsSound a) (hb : LeadsSound b) :
    LeadsSound (if c then a else b) := by
  split
  · exact ha
  · exact hb

/-- The result of a tracker's operation, sound itself, and what its item goes on with. -/
theorem served_resume_sound {s : State} {l : Fin 4} {g : Genealogy} {ns : List Notice} {u : State} {w : Work} {ks : List Task} (hg : SoundTable g)
    (hu : u.table = (s.served l g ns).table) : LeadsSound (settle (u.resumeItem l w ks)) := by
  refine .settle ?_
  rw [State.resumeItem_table, hu, State.served_table]
  exact hg.congr rfl rfl

theorem SoundTable.importItem (s : State) (f : Frame) (j : ImportJob) {r : Genealogy × Option Code × List Notice} (hr : SoundTable r.1) :
    SoundTable (s.importItem f j r).table :=
  hr.congr (by rw [State.importItem_table]) (by rw [State.importItem_table])

theorem soundTable_empty {g : Genealogy} (hc : g.coils = []) (hl : g.links = []) : SoundTable g := by
  unfold SoundTable PoolInv NameInv
  simp [hc, hl]

section
variable {s : State} (h : SoundTable s.table)
include h

theorem SoundTable.cutOperation (k : Nat) : SoundTable (s.cutOperation k) := by
  unfold State.cutOperation
  split
  · unfold State.cutImport
    dsimp only
    split <;> exact h.cutAutoRetire ..
  · unfold State.cutTracker
    dsimp only
    split
    · exact h.cutAutoRetire ..
    · exact h.cutAutoRetire ..
    · exact h
  · exact h

theorem LeadsSound.request {kind : Byte} {r : Req} {own : Frame → State → State}
    (ho : ∀ f u, SoundTable u.table → SoundTable (own f u).table) : LeadsSound (s.request kind r own) := by
  unfold State.request
  dsimp only
  split
  · exact .next h
  · next u hu =>
    have e : SoundTable u.table := ((Touches.refl [.slc] s).takeRequest hu rfl).table_eq ▸ h
    split
    · exact .settle e
    · exact .settle (ho _ _ e)

theorem SoundTable.retireGo (k : Option Nat) : SoundTable (State.retireGo k s).table := by
  unfold State.retireGo
  split
  · dsimp only
    split <;> exact h.retireBelow ..
  · exact h

theorem SoundTable.importGo (f : Frame) (j : ImportJob) : SoundTable (s.importGo f j).table :=
  h.congr (by rw [State.importGo_table]) (by rw [State.importGo_table])

theorem execRetire_sound (r : Req) (k : Option Nat) : LeadsSound (execRetire r k s) := by
  unfold execRetire State.tableRequest
  split
  · exact .ite (.settle (SoundTable.retireGo h k)) (.next h)
  · exact .request h (fun f u hu => SoundTable.retireGo (s := u.present f _) hu k)

theorem execImportFrame_sound (r : Req) : LeadsSound (execImportFrame r s) :=
  .request h fun f u hu => by
    dsimp only
    split
    · exact hu
    · split
      · split
        · exact hu
        · refine SoundTable.importGo ?_ f _
          exact hu.congr rfl rfl
      · split
        · exact hu
        · exact SoundTable.importGo hu f _

theorem execLinkClear_sound (r : Req) : LeadsSound (execLinkClear r s) :=
  .request h fun f u hu => by
    have e : u.endRuns.table = u.table := ((Touches.refl [.channels, .archive, .slc] u).endRuns rfl rfl rfl).table_eq
    exact hu.congr (show u.endRuns.table.coils = _ by rw [e]) (show u.endRuns.table.links = _ by rw [e])

theorem execEnterCoil_sound (l : Fin 4) : LeadsSound (execEnterCoil l s) := by
  unfold execEnterCoil
  split
  · split
    · dsimp only
      split
      · exact served_resume_sound (h.enterCoil ..) rfl
      · exact served_resume_sound (h.enterCoil ..) rfl
    · exact .next h
  · exact .next h

theorem execCloseEntry_sound (l : Fin 4) : LeadsSound (execCloseEntry l s) := by
  unfold execCloseEntry
  split
  · split
    · dsimp only
      split <;> exact served_resume_sound (h.closeEntry ..) rfl
    · exact .next h
  · exact .next h

theorem execMakeChild_sound (l : Fin 4) : LeadsSound (execMakeChild l s) := by
  unfold execMakeChild
  split
  · split
    · dsimp only
      split <;> exact served_resume_sound (h.makeChild ..) rfl
    · exact .next h
  · exact .next h

theorem execFinalizeLinks_sound (l : Fin 4) : LeadsSound (execFinalizeLinks l s) := by
  unfold execFinalizeLinks
  split
  · split
    · dsimp only
      split <;> exact served_resume_sound (h.finalizeLinks ..) rfl
    · exact .next h
  · exact .next h

theorem execDropPending_sound (l : Fin 4) : LeadsSound (execDropPending l s) := by
  unfold execDropPending
  split
  · split
    · dsimp only
      split <;> exact served_resume_sound (h.dropPending ..) rfl
    · exact .next h
  · exact .next h

theorem execImportCoil_sound : LeadsSound (execImportCoil s) := by
  unfold execImportCoil
  split
  · exact .settle (SoundTable.importItem s _ _ (h.importCoil ..))
  · exact .next h

theorem execImportLink_sound : LeadsSound (execImportLink s) := by
  unfold execImportLink
  split
  · exact .settle (SoundTable.importItem s _ _ (h.importLink ..))
  · exact .next h

theorem execPlanStep_sound (ch : Fin 4) : LeadsSound (execPlanStep ch s) := by
  unfold execPlanStep
  refine .ite (.next h) ?_
  split
  · exact .next h
  · dsimp only
    refine .ite (.settle (h.congr rfl rfl)) (.settle ?_)
    rw [((((Touches.refl [.archive, .channels, .slc] _).deliver rfl rfl).channelGo rfl rfl).flashKick rfl rfl).table_eq]
    exact h.congr rfl rfl

theorem execGtClear_sound : LeadsSound (execGtClear s) := by
  unfold execGtClear
  split
  · refine .ite (.next h) (.settle ?_)
    rw [((Touches.refl [.slc] _).clearAnswer rfl).table_eq]
    exact soundTable_empty rfl rfl
  · exact .next h

theorem execResetAsserted_sound (n : Nat) : LeadsSound (execResetAsserted n s) :=
  .ite (.next h) (.next ((SoundTable.cutOperation h n).congr rfl rfl))

theorem execPowerOn_sound (b : Bool) (p : Fin 4) : LeadsSound (execPowerOn b p s) :=
  .ite (.next (h.congr rfl rfl)) (.next (h.congr rfl rfl))

theorem execColdStart_sound (bad : List (Fin 4096)) : LeadsSound (execColdStart bad s) := by
  unfold execColdStart
  split
  · refine .settle ?_
    dsimp only
    rw [((Touches.refl [.startUp, .ports, .trackers, .archive, .slc] _).becomeReady rfl rfl rfl rfl rfl).table_eq]
    exact soundTable_empty rfl rfl
  · exact .next h

/-- A command that does not own the table leaves it. -/
theorem exec_sound_of_untouched {c : Instr} (hc : (touched c).contains .table = false) : LeadsSound (exec c s) := by
  obtain ⟨t, e, k⟩ := exec_runs s c
  rw [e]
  exact .next (k.table_eq hc ▸ h)

theorem exec_sound (c : Instr) : LeadsSound (exec c s) := by
  by_cases hc : (touched c).contains .table = false
  · exact exec_sound_of_untouched h hc
  · cases c with
    | importFrame r => exact execImportFrame_sound h r
    | retire r k => exact execRetire_sound h r k
    | linkClear r => exact execLinkClear_sound h r
    | enterCoil l => exact execEnterCoil_sound h l
    | closeEntry l => exact execCloseEntry_sound h l
    | makeChild l => exact execMakeChild_sound h l
    | finalizeLinks l => exact execFinalizeLinks_sound h l
    | dropPending l => exact execDropPending_sound h l
    | importCoil => exact execImportCoil_sound h
    | importLink => exact execImportLink_sound h
    | planStep ch => exact execPlanStep_sound h ch
    | gtClear => exact execGtClear_sound h
    | resetAsserted n => exact execResetAsserted_sound h n
    | powerOn b p => exact execPowerOn_sound h b p
    | coldStart bad => exact execColdStart_sound h bad
    | _ => exact absurd rfl hc

end

/-- Settles O59: the operations on the table keep it sound one by one, and every other command leaves its pools. -/
theorem stepKeepsPoolsAndNames : Obligations.StepKeepsPoolsAndNames := by
  intro s t hp hn hs
  unfold step at hs
  split at hs
  · cases hs
    exact ⟨hp, hn⟩
  · next c rest _ => exact exec_sound (s := { s with pending := rest }) ⟨hp, hn⟩ c t hs

/-- Settles O60: at reset the pools, the queues and the flash list are empty. -/
theorem resetMeetsInvariants : Obligations.ResetMeetsInvariants := by
  refine ⟨reset_flash_wf, List.Pairwise.nil, ?_, ?_, ?_, rfl, rfl, fun _ => rfl, rfl, rfl⟩
  · unfold LinkInv
    decide
  · exact (soundTable_empty rfl rfl : SoundTable State.reset.table).1
  · exact (soundTable_empty rfl rfl : SoundTable State.reset.table).2

end Sys2Proof.Machine
end

section
/-! The arbiter's choice (R13): the ring order as a list, and who waits. -/

namespace Sys2Proof.Machine

/-- In a list in the order `r`, the first member with a property is found. -/
theorem find?_first {α : Type} {r : α → α → Prop} {p : α → Bool} {l : List α} (h : l.Pairwise r) {x : α} (hx : x ∈ l) (hp : p x = true)
    (hn : ∀ y, r y x → p y = false) : l.find? p = some x := by
  induction l with
  | nil => cases hx
  | cons y ys ih =>
    obtain ⟨hy, hys⟩ := List.pairwise_cons.mp h
    rcases List.mem_cons.mp hx with rfl | hx
    · simp [hp]
    · rw [List.find?_cons, hn y (hy x hx)]
      exact ih hys hx

/-- The ring after `i` holds every place once, in the order of its distance. -/
theorem ringAfter_ordered : ∀ i : Fin 4, (ringAfter i).Pairwise (fun j k => j - i - 1 < k - i - 1) ∧ ∀ j, j ∈ ringAfter i := by decide

theorem ringAfter_find {p : Fin 4 → Bool} {i l : Fin 4} (hp : p l = true) (hn : ∀ k, k - i - 1 < l - i - 1 → p k = false) :
    (ringAfter i).find? p = some l := find?_first (ringAfter_ordered i).1 ((ringAfter_ordered i).2 l) hp hn

theorem ringAfter_find_none {p : Fin 4 → Bool} {i : Fin 4} (hn : ∀ k, p k = false) : (ringAfter i).find? p = none :=
  List.find?_eq_none.mpr fun k _ => by simp [hn k]

theorem Tracker.waits_iff {t : Tracker} : t.waits = true ↔ ∃ w, t.work = some w ∧ w.presented = true := by
  unfold Tracker.waits
  cases t.work <;> simp

theorem Channel.waits_iff {c : Channel} : c.waits = true ↔ ∃ r, c.run = some r ∧ r.planOp ≠ none := by
  unfold Channel.waits
  cases c.run <;> simp [Option.isSome_iff_ne_none]

theorem ReqUnit.waits_iff {u : ReqUnit} : u.waits = true ↔
    (∃ f j, u = .table f j ∧ ∀ k, j = .importing k → k.at_ = 0) ∨ ∃ f, u = .clearing f false := by
  cases u with
  | table f j => cases j <;> simp [waits]
  | clearing f d => cases d <;> simp [waits]
  | _ => simp [waits]

theorem ReqUnit.performing_iff {u : ReqUnit} : u.performing = true ↔ ∃ f n m, u = .table f (.retire n m true) := by
  cases u with
  | table f j => cases j <;> simp [performing]
  | _ => simp [performing]

/-! ## The choice by its cases -/

section
variable {s : State}

theorem State.grant_performing (h : s.slc.unit.performing = true) : s.grant = some .unit := by
  unfold grant
  rw [if_pos h]

theorem State.grant_tracker (h : s.slc.unit.performing = false) {l : Fin 4} (hl : (s.trackers[l]).waits = true)
    (hn : ∀ k : Fin 4, k - s.table.lastTracker - 1 < l - s.table.lastTracker - 1 → (s.trackers[k]).waits = false) :
    s.grant = some (.tracker l) := by
  unfold grant
  rw [h, ringAfter_find (p := fun l => (s.trackers[l]).waits) hl hn]
  rfl

/-- With no tracker waiting the Request Unit is served, and then the planners in ring order. -/
theorem State.grant_quiet (h : s.slc.unit.performing = false) (hn : ∀ l : Fin 4, (s.trackers[l]).waits = false) :
    s.grant = if s.slc.unit.waits then some .unit
      else ((ringAfter s.table.lastPlanner).find? (fun c => (s.channels[c]).waits)).map .planner := by
  unfold grant
  rw [h, ringAfter_find_none (p := fun l => (s.trackers[l]).waits) hn]
  rfl

end

/-- Settles O31: the choice by its cases, each ring searched in the order of distance. -/
theorem arbiterServesInOrder : Obligations.ArbiterServesInOrder := by
  intro s
  dsimp only
  simp only [← Tracker.waits_iff, ← Channel.waits_iff, ← ReqUnit.waits_iff, ← ReqUnit.performing_iff, Bool.not_eq_true]
  refine ⟨State.grant_performing, fun hr => ⟨fun l hl hn => State.grant_tracker hr hl hn, fun hn => ?_⟩⟩
  rw [State.grant_quiet hr hn]
  refine ⟨fun hu => by rw [if_pos hu], fun hu => ?_⟩
  rw [hu]
  refine ⟨fun c hc hk => ?_, fun hk => ?_⟩
  · rw [ringAfter_find (p := fun c => (s.channels[c]).waits) hc hk]
    rfl
  · rw [ringAfter_find_none (p := fun c => (s.channels[c]).waits) hk]
    rfl

end Sys2Proof.Machine
end

section
/-! LOOKUP (R26): a request of the table at the arbiter, the record it finds, and the bytes of the COIL SUMMARY. -/

namespace Sys2Proof.Machine

/-! ## Requests of the table at the arbiter -/

/-- A request that passes the first four checks is put to the table's operation. -/
theorem Admitted.tableRequest {s : State} {kind : Byte} {r : Req} (h : Admitted s kind r) (hk : kindKnown kind = true) (go : State → State)
    (own : Frame → State → State) : s.tableRequest kind r go own = settle (go (own (reqFrame kind r) s.taken)) := by
  unfold State.tableRequest
  rw [h.1.2.1]
  exact h.request hk _

theorem TrackersQuiet.waits {s : State} (h : TrackersQuiet s) (l : Fin 4) : (s.trackers[l]).waits = false := by
  rw [← Bool.not_eq_true, Tracker.waits_iff]
  rintro ⟨w, hw, hp⟩
  rw [h l w hw] at hp
  cases hp

/-- With no tracker waiting, an operation of the Request Unit that waits is the arbiter's choice. -/
theorem State.unitJob_quiet {s : State} (h : TrackersQuiet s) {f : Frame} {j : Job} (hu : s.slc.unit = .table f j)
    (hw : s.slc.unit.waits = true) : s.unitJob = some (f, j) := by
  have hg : s.grant = some .unit := by
    cases hp : s.slc.unit.performing with
    | true => exact State.grant_performing hp
    | false => rw [State.grant_quiet hp h.waits, if_pos hw]
  unfold State.unitJob
  rw [if_pos hg, hu]

/-- Without an operation in the Request Unit there is none to perform. -/
theorem State.unitJob_none {s : State} (h : ∀ f j, s.slc.unit ≠ .table f j) : s.unitJob = none := by
  unfold State.unitJob
  split
  · split
    · next f j hu => exact absurd hu (h f j)
    · rfl
  · rfl

theorem State.finish_unit_ne_table (s : State) (reply : Frame) (o : Option (Fin 4)) (f : Frame) (j : Job) :
    (s.finish reply o).slc.unit ≠ .table f j := by
  rcases s.finish_cases reply o with ⟨_, e⟩ | ⟨_, e⟩ <;> rw [e] <;> exact fun h => nomatch h

/-- A request presented at the arbiter and answered is answered. -/
theorem State.present_finish (s : State) (f : Frame) (j : Job) (reply : Frame) (o : Option (Fin 4)) :
    (s.present f j).finish reply o = s.finish reply o := by
  unfold State.finish State.present State.updSlc
  dsimp only
  split <;> rfl

theorem State.lookupGo_found {s : State} {f : Frame} {key : LookKey} (h : s.unitJob = some (f, .lookup key)) {c : Coil}
    (hc : s.table.lookup key = some c) : s.lookupGo = s.finish (replyTo f 0x85#8 (s.table.summary c)) none := by
  unfold State.lookupGo
  simp only [h, hc]

theorem State.lookupGo_unknown {s : State} {f : Frame} {key : LookKey} (h : s.unitJob = some (f, .lookup key))
    (hc : s.table.lookup key = none) : s.lookupGo = s.refuse f .notFound := by
  unfold State.lookupGo
  simp only [h, hc]

theorem State.lookupGo_finish (s : State) (reply : Frame) (o : Option (Fin 4)) : (s.finish reply o).lookupGo = s.finish reply o := by
  unfold State.lookupGo
  rw [State.unitJob_none (s.finish_unit_ne_table reply o)]

/-! ## The record found -/

/-- LOOKUP's record is the one with the name in the index, or the one of the reference (R26). -/
def LookKey.fits (key : LookKey) (c : Coil) : Prop :=
  match key with
  | .name n => c.indexed = true ∧ c.name = n
  | .ref q => c.handle = q.handle ∧ c.seq = q.seq

theorem Genealogy.lookup_some {g : Genealogy} {key : LookKey} {c : Coil} (h : g.lookup key = some c) : c ∈ g.coils ∧ key.fits c := by
  cases key with
  | name n => exact named_some h
  | ref q => exact current_some h

theorem Genealogy.lookup_none {g : Genealogy} {key : LookKey} (h : ∀ c ∈ g.coils, ¬key.fits c) : g.lookup key = none := by
  cases e : g.lookup key with
  | none => rfl
  | some c => exact absurd (lookup_some e).2 (h c (lookup_some e).1)

theorem PoolInv.lookup_isSome {g : Genealogy} (h : PoolInv g) {key : LookKey} {c : Coil} (hc : c ∈ g.coils) (hf : key.fits c) :
    ∃ d, g.lookup key = some d := by
  cases key with
  | name n =>
    cases e : g.named n with
    | none => exact absurd hf.2 (Genealogy.named_none.mp e c hc hf.1)
    | some d => exact ⟨d, e⟩
  | ref q => exact ⟨c, h.current_mem hc hf.1 hf.2⟩

/-! ## The COIL SUMMARY -/

theorem beBytes_one (v : Nat) : beBytes 1 v = [byteOf v] := by simp [beBytes, byteOf]

/-- How many links of a list have a property can be counted on the handles. -/
theorem PoolInv.linksOf_count {g : Genealogy} (h : PoolInv g) (hs : List Nat) (p : Link → Bool) :
    ((g.linksOf hs).filter p).length = (hs.filter (fun k => g.links.any (fun m => m.handle == k && p m))).length := by
  induction hs with
  | nil => rfl
  | cons k ks ih =>
    unfold Genealogy.linksOf at ih ⊢
    have hk : g.links.any (fun m => m.handle == k && p m) = (g.linkAt k).any p := by
      rw [Bool.eq_iff_iff, List.any_eq_true, Option.any_eq_true]
      constructor
      · rintro ⟨m, hm, e⟩
        obtain ⟨e, hp⟩ := Bool.and_eq_true_iff.mp e
        exact ⟨m, by rw [← h.linkAt_mem hm, beq_iff_eq.mp e], hp⟩
      · rintro ⟨m, e, hp⟩
        obtain ⟨hm, e⟩ := Genealogy.linkAt_some e
        exact ⟨m, hm, by simp [e, hp]⟩
    rw [List.filter_cons, hk, List.filterMap_cons]
    cases g.linkAt k with
    | none => simpa using ih
    | some m => cases hp : p m <;> simp [hp, ih]

/-- What a made passage shows, 8 bytes 0xFF where it is absent (R200). -/
theorem made_bytes (q : Option MadePassage) :
    beOpt 1 (q.map (·.line)) ++ beOpt 1 (q.map (·.lane.code)) ++ beOpt 6 (q.map (·.head)) =
      (match q with
        | none => List.replicate 8 0xFF#8
        | some p => [byteOf p.line, byteOf (match p.lane with | .whole => 255 | .num n => n)] ++ beBytes 6 p.head) := by
  cases q with
  | none => rfl
  | some p => simp only [Option.map_some, beOpt, beBytes_one]; cases p.lane <;> rfl

/-- What a consumed passage shows, 14 bytes 0xFF where it is absent (R200). -/
theorem consumed_bytes (q : Option ConsumedPassage) :
    beOpt 1 (q.map (·.line)) ++ beOpt 1 (q.map (fun p => orientCode p.orient)) ++ beOpt 6 (q.map (·.fh)) ++ beOpt 6 (q.bind (·.ft)) =
      (match q with
        | none => List.replicate 14 0xFF#8
        | some p => [byteOf p.line, (match p.orient with | .headFirst => 0#8 | .tailFirst => 1#8)] ++ beBytes 6 p.fh ++ beOpt 6 p.ft) := by
  cases q with
  | none => rfl
  | some p => simp only [Option.map_some, Option.bind_some, beOpt, beBytes_one]; cases p.orient <;> rfl

/-- The COIL SUMMARY with its passages as section 11.3 lays them out and its links counted on the coil's lists. -/
theorem PoolInv.summary_eq {g : Genealogy} (h : PoolInv g) (c : Coil) :
    let counted (p : Link → Bool) : List Byte :=
      beBytes 2 (c.children.filter (fun k => g.links.any (fun m => m.handle == k && p m))).length
    g.summary c =
      beBytes 2 c.handle ++ beBytes 4 c.seq ++ nameField (some c.name)
        ++ [boolByte c.indexed, byteOf c.origin.code, byteOf c.state.code] ++ beOpt 4 c.length
        ++ [c.flags.byte, byteOf ((if c.made = none then 0 else 1) + (if c.consumed = none then 0 else 2))]
        ++ (match c.made with
          | none => List.replicate 8 0xFF#8
          | some p => [byteOf p.line, byteOf (match p.lane with | .whole => 255 | .num n => n)] ++ beBytes 6 p.head)
        ++ (match c.consumed with
          | none => List.replicate 14 0xFF#8
          | some p => [byteOf p.line, (match p.orient with | .headFirst => 0#8 | .tailFirst => 1#8)] ++ beBytes 6 p.fh ++ beOpt 6 p.ft)
        ++ beBytes 2 c.parents.length ++ counted (fun m => m.parentSpan.isSome && m.child.isSome)
        ++ counted (fun m => m.parentSpan.isSome && m.child.isNone) ++ counted (fun m => m.parentSpan.isNone) := by
  have kinds (p q : Link → Bool) : ((g.linksOf c.children).filter p).filter q = (g.linksOf c.children).filter (fun m => p m && q m) := by
    rw [List.filter_filter]
    exact List.filter_congr (fun m _ => Bool.and_comm ..)
  have flag {α : Type} (q : Option α) (n : Nat) : (if q.isSome then n else 0) = if q = none then 0 else n := by cases q <;> simp
  dsimp only
  rw [← made_bytes, ← consumed_bytes]
  simp only [Genealogy.summary, kinds, h.linksOf_count, List.append_assoc, flag]

/-- Settles O18: the lookup at the arbiter, and the summary field by field. -/
theorem lookupAnswersSummary : Obligations.LookupAnswersSummary := by
  intro r s ha
  have hx : exec (.lookup r) s = settle (State.lookupGo (withValue (lookKeyOf r.payload) (reqFrame 0x0E#8 r) s.taken
      (fun k => s.taken.present (reqFrame 0x0E#8 r) (.lookup k)))) := ha.tableRequest rfl _ _
  refine ⟨fun hk => ?_, fun key hk hq => ?_⟩
  · rw [hk] at hx
    exact .of_finish (hx.trans (congrArg settle (State.lookupGo_finish ..)))
  · rw [hk] at hx
    have hj : (s.taken.present (reqFrame 0x0E#8 r) (.lookup key)).unitJob = some (reqFrame 0x0E#8 r, .lookup key) :=
      State.unitJob_quiet (s := s.taken.present _ _) (fun l w hw => hq l w (s.taken_trackers ▸ hw)) rfl rfl
    have ht : (s.taken.present (reqFrame 0x0E#8 r) (.lookup key)).table = s.table := s.taken_table
    refine ⟨fun hn => ?_, fun hp hc => ?_⟩
    · have hl : s.table.lookup key = none := Genealogy.lookup_none (key := key) hn
      exact .of_finish (hx.trans (congrArg settle ((State.lookupGo_unknown hj (ht ▸ hl)).trans (State.present_finish ..))))
    · obtain ⟨d, hd, hf⟩ := hc
      obtain ⟨c, hl⟩ := hp.lookup_isSome (key := key) hd hf
      obtain ⟨hc, hf⟩ := Genealogy.lookup_some hl
      refine ⟨c, hc, hf, ?_⟩
      have k := OnlyReplies.of_finish
        (hx.trans (congrArg settle ((State.lookupGo_found hj (ht ▸ hl)).trans (State.present_finish ..))))
      rw [ht] at k
      refine (congrArg (fun p => OnlyReplies (.lookup r) s { kind := 0x85#8, channel := r.channel, tag := r.tag, payload := p }) ?_).mp k
      rw [hp.summary_eq c]
      dsimp only
      cases c.origin <;> cases c.state <;> rfl

end Sys2Proof.Machine
end

section
/-! IMPORT frames (R21): the checks, the session they open or continue, and the IMPORT RESULT of a frame without items. -/

namespace Sys2Proof.Machine

/-- A state that differs from the one after taking the request in its table, its Request Unit, its replies and the refusals count keeps the
rest of the link. -/
theorem LinkKept.of_slc {s u : State} (h : u.slc = { s.taken.slc with
      unit := u.slc.unit, replies := u.slc.replies, cnt := { s.taken.slc.cnt with refusals := u.slc.cnt.refusals } }) :
    LinkKept s u.kick := by
  have cnt : s.taken.slc.cnt = { s.slc.cnt with received := s.taken.slc.cnt.received } := congrArg Slc.cnt s.taken_slc
  have slots : u.slc.slots = s.slc.slots := (congrArg Slc.slots h).trans s.taken_slots
  have going : u.announced = s.announced := by
    unfold State.announced
    rw [congrArg Slc.tx h, congrArg Slc.notices h]
    exact s.taken_announced
  refine ⟨u.kick_rx.trans ((congrArg Slc.rx h).trans s.taken_rx), u.kick_buffer.trans ((congrArg Slc.buffer h).trans s.taken_buffer),
    u.kick_settings.trans ((congrArg Slc.settings h).trans s.taken_settings), u.kick_masked.trans ((congrArg Slc.masked h).trans s.taken_masked),
    u.kick_dropped.trans ((congrArg Slc.dropped h).trans s.taken_dropped),
    u.kick_uncertain.trans ((congrArg Slc.uncertain h).trans s.taken_uncertain),
    u.kick_silent.trans ((congrArg Slc.silent h).trans s.taken_silent),
    u.kick_exhausted.trans ((congrArg Slc.exhausted h).trans s.taken_exhausted), u.kick_announced.trans going,
    fun ch => slots ▸ u.kick_slots ch, ?_⟩
  rw [State.kick_cnt, congrArg Slc.cnt h, cnt]

/-- The direction code of an item is outside its list. -/
theorem misdirected_iff (items : List ImportItem) : items.any ImportItem.misdirected = true ↔
    ∃ dir lane cs ps cn pn, .link dir lane cs ps cn pn ∈ items ∧ 1 < dir.toNat := by
  rw [List.any_eq_true]
  constructor
  · rintro ⟨i, hi, h⟩
    cases i with
    | coil flags len name => exact absurd h Bool.false_ne_true
    | link dir lane cs ps cn pn => exact ⟨dir, lane, cs, ps, cn, pn, hi, of_decide_eq_true h⟩
  · rintro ⟨dir, lane, cs, ps, cn, pn, hi, h⟩
    exact ⟨_, hi, decide_eq_true h⟩

/-- An IMPORT request of the right length carries items. -/
theorem Admitted.importItems {s : State} {r : Req} (h : Admitted s 0x0C#8 r) : ∃ items, importItems r.payload = some items :=
  Option.isSome_iff_exists.mp h.2.2.1

/-- The table with its import session set. -/
def Genealogy.inSession (g : Genealogy) (q : ImportSession) : Genealogy := { g with session := some q }

theorem State.importGo_items (u : State) (f : Frame) (pos : Nat) {items : List ImportItem} (h : items ≠ []) (a : Option (Nat × Nat)) :
    u.importGo f (importJob pos items a) = u.present f (.importing (importJob pos items a)) :=
  if_pos (List.length_pos_iff.mpr h)

/-- A frame without items is answered at once, and LAST and ONLY close the session (R21). -/
theorem State.importGo_empty (u : State) (f : Frame) (pos : Nat) (a : Option (Nat × Nat)) {q : ImportSession} (h : u.table.session = some q) :
    u.importGo f (importJob pos [] a) =
      State.finish { u with table := { u.table with session := if 2 ≤ pos then none else some q } }
        (replyTo f 0x86#8 (importResult (importJob pos [] a) (if 2 ≤ pos then some (q.accepted, q.refused) else none))) none := by
  unfold State.importGo State.importDone
  rw [if_neg (show ¬(importJob pos [] a).at_ < (importJob pos [] a).items.length from Nat.lt_irrefl 0)]
  simp only [h, importJob, Nat.add_zero, decide_eq_true_eq]

/-- An IMPORT frame in its session: its first item is presented to the table, or, with no items, it is answered. -/
theorem importFrame_inSession {s : State} {r : Req} (pos : Nat) (items : List ImportItem)
    (gone : Option (Nat × Nat)) (q : ImportSession)
    (hx : exec (.importFrame r) s = settle (State.importGo { s.taken with table := s.table.inSession q } (reqFrame 0x0C#8 r)
      (importJob pos items gone))) :
    ∃ t, exec (.importFrame r) s = .next t ∧ Touches [.table, .slc] s t ∧ LinkKept s t ∧
      t.table = { s.table with session := t.table.session } ∧
      (items ≠ [] → t.outgoing = s.outgoing ∧ t.table.session = some q ∧
        t.slc.unit = .table (reqFrame 0x0C#8 r) (.importing (importJob pos items gone))) ∧
      (items = [] → t.table.session = (if 2 ≤ pos then none else some q) ∧
        Answered s t (replyTo (reqFrame 0x0C#8 r) 0x86#8
          (importResult (importJob pos [] gone) (if 2 ≤ pos then some (q.accepted, q.refused) else none))) none) := by
  obtain ⟨t, ht, touch⟩ := everyCommandTouchesOnlyItsBlocks (.importFrame r) s
  refine ⟨t, ht, touch, ?_⟩
  have e : t = (State.importGo { s.taken with table := s.table.inSession q } (reqFrame 0x0C#8 r) (importJob pos items gone)).kick :=
    Host.Outcome.next.inj (ht.symm.trans hx)
  by_cases h : items = []
  · subst h
    rw [State.importGo_empty _ _ _ _ rfl] at e
    subst e
    refine ⟨.of_slc (State.finish_slc ..), ?_, fun h => absurd rfl h, fun _ => ⟨?_, ?_⟩⟩
    · rw [State.kick_table]; rfl
    · rw [State.kick_table]; rfl
    · exact (State.finish_answered ..).of_eq (congrArg List.length s.taken_replies.symm) s.taken_outgoing.symm
        (State.kick_unit _) (State.kick_outgoing _)
  · rw [State.importGo_items _ _ _ h] at e
    subst e
    refine ⟨.of_slc rfl, ?_, fun _ => ⟨?_, ?_, ?_⟩, fun h' => absurd h' h⟩
    · rw [State.kick_table]; rfl
    · rw [State.kick_outgoing]; exact s.taken_outgoing
    · rw [State.kick_table]; rfl
    · rw [State.kick_unit]; rfl

/-- What IMPORT does with an admitted request, its checks in their order (R21, R200). -/
theorem Admitted.importFrame {s : State} {r : Req} (ha : Admitted s 0x0C#8 r) {items : List ImportItem}
    (hi : Machine.importItems r.payload = some items) :
    exec (.importFrame r) s = settle
      (if 3 < field r.payload 0 1 || items.any ImportItem.misdirected then s.taken.refuse (reqFrame 0x0C#8 r) .badValue
      else if field r.payload 0 1 = 0 ∨ field r.payload 0 1 = 3 then
        if field r.payload 1 1 < 4 ∨ 15 < field r.payload 1 1 then s.taken.refuse (reqFrame 0x0C#8 r) .badValue
        else State.importGo
          { s.taken with table := s.table.inSession { code := field r.payload 1 1, accepted := 0, refused := 0 } } (reqFrame 0x0C#8 r)
          (importJob (field r.payload 0 1) items (s.table.session.map (fun q => (q.accepted, q.refused))))
      else if s.table.session.isNone then s.taken.refuse (reqFrame 0x0C#8 r) .noImport
      else s.taken.importGo (reqFrame 0x0C#8 r) (importJob (field r.payload 0 1) items none)) := by
  have e : (Machine.importItems (reqFrame 0x0C#8 r).payload).getD [] = items := by
    show (Machine.importItems r.payload).getD [] = items
    rw [hi]; rfl
  show execImportFrame r s = _
  unfold execImportFrame
  rw [ha.request rfl]
  dsimp only
  rw [e, s.taken_table]
  rfl

/-- The IMPORT RESULT of a frame without items (section 11.3). -/
theorem importResult_empty (pos : Nat) (gone closed : Option (Nat × Nat)) : importResult (importJob pos [] gone) closed =
    [byteOf ((if gone = none then 0 else 1) + (if closed = none then 0 else 2)), 0#8, 0#8, 0xFF#8, 0#8]
      ++ beOpt 4 (gone.map (·.1)) ++ beOpt 4 (gone.map (·.2)) ++ beOpt 4 (closed.map (·.1)) ++ beOpt 4 (closed.map (·.2)) := by
  cases gone <;> cases closed <;> rfl

/-- Settles O19: the checks in their order, then the frame in the session it opens or goes on with. -/
theorem importFrameOpensSession : Obligations.ImportFrameOpensSession := by
  intro r s ha
  obtain ⟨items, hi⟩ := ha.importItems
  have hx := ha.importFrame hi
  have astray_iff : (∃ is, importItems r.payload = some is ∧
      ∃ dir lane cs ps cn pn, .link dir lane cs ps cn pn ∈ is ∧ 1 < dir.toNat) ↔ items.any ImportItem.misdirected = true := by
    rw [misdirected_iff, hi]
    simp
  dsimp only
  rw [astray_iff]
  refine ⟨fun h => ?_, fun hs hp hn => ?_, fun h => ⟨items, hi, ?_⟩⟩
  · by_cases hb : (decide (3 < field r.payload 0 1) || items.any ImportItem.misdirected) = true
    · rw [if_pos hb] at hx
      exact .of_finish hx
    · have hc : (field r.payload 0 1 = 0 ∨ field r.payload 0 1 = 3) ∧ (field r.payload 1 1 < 4 ∨ 15 < field r.payload 1 1) := by
        simp only [Bool.or_eq_true, decide_eq_true_eq] at hb
        tauto
      rw [if_neg hb, if_pos hc.1, if_pos hc.2] at hx
      exact .of_finish hx
  · rw [if_neg (by simp [hs]; omega), if_neg (by omega), if_pos (by simp [hn])] at hx
    exact .of_finish hx
  · rcases h with ⟨hs, hp, hlo, hhi⟩ | ⟨hs, hp, hq⟩
    · rw [if_neg (by simp [hs]; omega), if_pos hp, if_neg (by omega)] at hx
      obtain ⟨t, ht, touch, kept, ses, waits, done⟩ := importFrame_inSession _ _ _ _ hx
      refine ⟨t, ht, touch, kept, ses, fun hne => ?_, fun he => ?_⟩
      · obtain ⟨ho, hq, hu⟩ := waits hne
        refine ⟨ho, fun _ => hq, fun h => absurd h.2.1 (by omega), ?_⟩
        rw [hu, if_pos hp]
        rfl
      · obtain ⟨hq, hans⟩ := done he
        rw [importResult_empty] at hans
        refine ⟨fun h2 => hq.trans (if_pos h2), fun h0 => hq.trans (if_neg (by omega)), fun h1 => absurd hp (by omega), ?_⟩
        rw [if_pos hp]
        rcases hp with hp | hp <;> rw [hp] at hans ⊢ <;> exact hans
    · obtain ⟨q, hq⟩ := Option.ne_none_iff_exists'.mp hq
      have same : ({ s.taken with table := s.table.inSession q } : State) = s.taken := by
        rw [Genealogy.inSession, ← hq, ← s.taken_table]
      rw [if_neg (by simp [hs]; omega), if_neg (by omega), if_neg (by simp [hq]), ← same] at hx
      obtain ⟨t, ht, touch, kept, ses, waits, done⟩ := importFrame_inSession _ _ _ _ hx
      refine ⟨t, ht, touch, kept, ses, fun hne => ?_, fun he => ?_⟩
      · obtain ⟨ho, hq', hu⟩ := waits hne
        refine ⟨ho, fun h => absurd h.2.1 (by omega), fun _ => hq'.trans hq.symm, ?_⟩
        rw [hu, if_neg (by omega)]
        rfl
      · obtain ⟨hq', hans⟩ := done he
        rw [importResult_empty] at hans
        refine ⟨fun h2 => hq'.trans (if_pos h2), fun h0 => absurd hp (by omega), fun h1 => hq'.trans ((if_neg (by omega)).trans hq.symm), ?_⟩
        rw [hq]
        rcases hp with hp | hp <;> rw [hp] at hans ⊢ <;> exact hans

end Sys2Proof.Machine
end

section
/-! RETIRE (R15, R24): what its pass has taken out at any point of it, and the request at the arbiter. -/

namespace Sys2Proof.Machine

/-! ## Who the pass may take -/

/-- A coil the pass from sequence `next` may come to and take, its links put aside. -/
def Coil.retirable (held : List Ref) (bound next : Nat) (c : Coil) : Prop :=
  next ≤ c.seq ∧ c.seq < bound ∧ c.state ≠ .entered ∧ c.ref ∉ held

/-- A link of the pool that is PENDING in a coil's list of child links. -/
def Genealogy.pendingIn (g : Genealogy) (c : Coil) (m : Link) : Prop := m ∈ g.links ∧ m.handle ∈ c.children ∧ m.parentSpan = none

theorem Genealogy.eligible_iff {g : Genealogy} (h : PoolInv g) {held : List Ref} {c : Coil} :
    g.eligible held c = true ↔ c.state ≠ .entered ∧ c.ref ∉ held ∧ ∀ m, ¬g.pendingIn c m := by
  have pend : g.hasPending c = true ↔ ∃ m, g.pendingIn c m := by
    unfold hasPending pendingIn
    rw [List.any_eq_true]
    exact exists_congr fun m => by rw [h.mem_linksOf, and_assoc, Option.isNone_iff_eq_none]
  simp only [eligible, Bool.and_eq_true, bne_iff_ne, ne_eq, Bool.not_eq_true', ← Bool.not_eq_true, pend, List.contains_iff_mem,
    not_exists, and_assoc]

/-- The references of the track maps. -/
theorem State.mem_heldRefs {s : State} {q : Ref} : q ∈ s.heldRefs ↔ ∃ l : Fin 4, ∃ x ∈ (s.trackers[l]).map, x.coil = some q := by
  simp only [heldRefs, List.mem_flatMap, List.mem_filterMap, Vector.mem_toList_iff, Vector.mem_iff_getElem]
  constructor
  · rintro ⟨_, ⟨i, hi, rfl⟩, x, hx, e⟩
    exact ⟨⟨i, hi⟩, x, hx, e⟩
  · rintro ⟨l, x, hx, e⟩
    exact ⟨_, ⟨l.1, l.2, rfl⟩, x, hx, e⟩

/-! ## The pass -/

/-- What a pass over table `g` from sequence `next` has taken out when it goes on from sequence `on`: coils it may take, their PENDING links
gone with coils taken before; and every coil below `on` that is to go. -/
structure RetirePass (g : Genealogy) (held : List Ref) (bound next : Nat) (gone : List Nat) (on : Nat) : Prop where
  taken : ∀ c ∈ g.coils, c.handle ∈ gone → c.retirable held bound next ∧ c.seq ≤ on ∧
    ∀ m, g.pendingIn c m → ∃ e ∈ g.coils, e.handle ∈ gone ∧ e.handle ≠ c.handle ∧ e.seq ≤ c.seq ∧ m.handle ∈ e.parents ++ e.children
  complete : ∀ c ∈ g.coils, c.retirable held bound next → (∀ m, ¬g.pendingIn c m) → c.seq < on → c.handle ∈ gone
  last : gone = [] ∧ on = next ∨ ∃ d ∈ g.coils, d.handle ∈ gone ∧ d.seq = on
  from_ : next ≤ on

theorem RetirePass.start (g : Genealogy) (held : List Ref) (bound next : Nat) : RetirePass g held bound next [] next :=
  ⟨fun _ _ h => absurd h List.not_mem_nil, fun _ _ h _ hlt => absurd h.1 (by omega), .inl ⟨rfl, rfl⟩, Nat.le_refl _⟩

section
variable {g : Genealogy} {held : List Ref} {bound next on : Nat} {gone : List Nat} (h : PoolInv g)
include h

/-- The coils the pass chooses from: those that stand, may be taken, and whose PENDING links went with others. -/
theorem PoolInv.mem_retirable {d : Coil} :
    d ∈ (g.without gone).coils.filter (fun c => (g.without gone).eligible held c && decide (on ≤ c.seq) && decide (c.seq < bound)) ↔
      ∃ c ∈ g.coils, c.handle ∉ gone ∧ d = c.listing (g.unlisted gone) ∧ c.retirable held bound on ∧
        ∀ m, g.pendingIn c m → g.unlisted gone m.handle = false := by
  have pend (c : Coil) (m : Link) : (g.without gone).pendingIn (c.listing (g.unlisted gone)) m ↔
      g.pendingIn c m ∧ g.unlisted gone m.handle = true := by
    unfold Genealogy.pendingIn
    rw [Genealogy.mem_without_links, Coil.listing_children, List.mem_filter]
    tauto
  rw [List.mem_filter, Genealogy.mem_without_coils, Bool.and_eq_true, Bool.and_eq_true, Genealogy.eligible_iff (h.without gone),
    decide_eq_true_eq, decide_eq_true_eq]
  constructor
  · rintro ⟨⟨c, hc, hn, rfl⟩, ⟨⟨hs, hh, hp⟩, hlo⟩, hhi⟩
    exact ⟨c, hc, hn, rfl, ⟨hlo, hhi, hs, hh⟩, fun m hm => Bool.not_eq_true _ ▸ fun hu => hp m ((pend c m).mpr ⟨hm, hu⟩)⟩
  · rintro ⟨c, hc, hn, rfl, ⟨hlo, hhi, hs, hh⟩, hp⟩
    refine ⟨⟨c, hc, hn, rfl⟩, ⟨⟨hs, hh, fun m hm => ?_⟩, hlo⟩, hhi⟩
    obtain ⟨hm, hu⟩ := (pend c m).mp hm
    rw [hp m hm] at hu
    cases hu

/-- The pass takes the oldest coil it may take and goes on from it. -/
theorem RetirePass.step (k : RetirePass g held bound next gone on) {d : Coil} (hd : oldest ((g.without gone).coils.filter
      (fun c => (g.without gone).eligible held c && decide (on ≤ c.seq) && decide (c.seq < bound))) = some d) :
    RetirePass g held bound next (d.handle :: gone) d.seq := by
  obtain ⟨hmem, least⟩ := oldest_some hd
  obtain ⟨c, hc, hn, rfl, ⟨hlo, hhi, hs, hh⟩, hp⟩ := h.mem_retirable.mp hmem
  have hnext := k.from_
  refine ⟨fun e he hg => ?_, fun e he hr hq hlt => ?_, .inr ⟨c, hc, .head _, rfl⟩, by simp; omega⟩
  · rcases List.mem_cons.mp hg with heq | hg
    · obtain rfl := h.coil_eq he hc heq
      refine ⟨⟨by omega, hhi, hs, hh⟩, Nat.le_refl _, fun m hm => ?_⟩
      have hu := hp m hm
      rw [← Bool.not_eq_true, Genealogy.unlisted_iff] at hu
      push Not at hu
      obtain ⟨f, hf, hfg, hfm⟩ := hu
      refine ⟨f, hf, .tail _ hfg, fun heq => hn (heq ▸ hfg), ?_, hfm⟩
      have := (k.taken f hf hfg).2.1
      omega
    · obtain ⟨hr, hle, hpe⟩ := k.taken e he hg
      refine ⟨hr, by simp; omega, fun m hm => ?_⟩
      obtain ⟨f, hf, hfg, rest⟩ := hpe m hm
      exact ⟨f, hf, .tail _ hfg, rest⟩
  · by_cases hin : e.handle ∈ gone
    · exact .tail _ hin
    · have hon : ¬e.seq < on := fun hlt' => hin (k.complete e he hr hq hlt')
      have := least _ (h.mem_retirable.mpr ⟨e, he, hin, rfl, ⟨by omega, hr.2.1, hr.2.2⟩, fun m hm => absurd hm (hq m)⟩)
      simp only [Coil.listing_seq] at this hlt
      omega

theorem PoolInv.without_cons_length {d : Coil} (hd : d ∈ (g.without gone).coils) :
    (g.without gone).coils.length = (g.without (d.handle :: gone)).coils.length + 1 := by
  obtain ⟨c, hc, hn, rfl⟩ := Genealogy.mem_without_coils.mp hd
  have e : g.coils.filter (fun x => !(c.handle :: gone).contains x.handle) = (g.coils.filter (fun x => !gone.contains x.handle)).erase c := by
    have hnd : (g.coils.filter (fun x => !gone.contains x.handle)).Nodup :=
      (h.1.imp (fun hlt heq => by rw [heq] at hlt; exact Nat.lt_irrefl _ hlt)).filter _
    rw [hnd.erase_eq_filter, List.filter_filter]
    refine List.filter_congr (fun x hx => ?_)
    rw [List.contains_cons, Bool.not_or]
    congr 1
    rw [Bool.eq_iff_iff, Bool.not_eq_true', beq_eq_false_iff_ne, bne_iff_ne]
    exact not_congr ⟨h.coil_eq hx hc, fun e => e ▸ rfl⟩
  have hin : c ∈ g.coils.filter (fun x => !gone.contains x.handle) := List.mem_filter.mpr ⟨hc, by simpa using hn⟩
  show (List.map _ _).length = (List.map _ (List.filter (fun x => !(c.handle :: gone).contains x.handle) g.coils)).length + 1
  rw [List.length_map, List.length_map, e, List.length_erase_of_mem hin]
  have := List.length_pos_of_mem hin
  omega

/-- The pass from any point of it on: at most `n` coils more are taken, and with fewer it has come to its end. -/
theorem RetirePass.retireBelow (n : Nat) (k : RetirePass g held bound next gone on) :
    ∃ gone' on', Genealogy.retireBelow held bound n on (g.without gone) = (g.without gone', on') ∧ RetirePass g held bound next gone' on' ∧
      (g.without gone).coils.length ≤ (g.without gone').coils.length + n ∧
      ((g.without gone).coils.length < (g.without gone').coils.length + n →
        ∀ c ∈ g.coils, c.retirable held bound next → (∀ m, ¬g.pendingIn c m) → c.handle ∈ gone') := by
  induction n generalizing gone on with
  | zero => exact ⟨gone, on, rfl, k, Nat.le_refl _, fun hlt => absurd hlt (Nat.lt_irrefl _)⟩
  | succ n ih =>
    unfold Genealogy.retireBelow
    split
    · next ho =>
      refine ⟨gone, on, rfl, k, by omega, fun _ c hc hr hq => ?_⟩
      by_contra hin
      have hon : ¬c.seq < on := fun hlt => hin (k.complete c hc hr hq hlt)
      have := h.mem_retirable.mpr ⟨c, hc, hin, rfl, ⟨Nat.not_lt.mp hon, hr.2.1, hr.2.2⟩, fun m hm => absurd hm (hq m)⟩
      rw [oldest_none.mp ho] at this
      exact absurd this List.not_mem_nil
    · next d hd =>
      have hmem := (List.mem_filter.mp (oldest_some hd).1).1
      obtain ⟨gone', on', e, k', hle, hend⟩ := ih (RetirePass.step h k hd)
      have hlen := h.without_cons_length hmem
      exact ⟨gone', on', by rw [Genealogy.dropCoil_without h.1 hmem, e], k', by omega, fun hlt => hend (by omega)⟩

end

/-! ## What stays -/

/-- A coil stays that the pass may not take, or whose PENDING link no coil taken before it shares. -/
theorem RetirePass.spares {g : Genealogy} {held : List Ref} {bound next on : Nat} {gone : List Nat}
    (k : RetirePass g held bound next gone on) {c : Coil} (hc : c ∈ g.coils)
    (hb : ¬c.retirable held bound next ∨ ∃ m, g.pendingIn c m ∧ ∀ e ∈ g.coils, e.handle ≠ c.handle →
      m.handle ∈ e.parents ++ e.children → c.seq < e.seq ∨ ¬e.retirable held bound next) :
    ∃ d ∈ (g.without gone).coils, SameCoil c d := by
  refine ⟨_, Genealogy.mem_without_coils.mpr ⟨c, hc, fun hin => ?_, rfl⟩, rfl⟩
  obtain ⟨hr, -, hp⟩ := k.taken c hc hin
  rcases hb with hb | ⟨m, hm, hb⟩
  · exact hb hr
  · obtain ⟨e, he, hg, hne, hle, hml⟩ := hp m hm
    rcases hb e he hne hml with hlt | hnr
    · omega
    · exact hnr (k.taken e he hg).1

section
variable {g : Genealogy} {held : List Ref} {bound next on : Nat} {gone : List Nat} (h : PoolInv g)
include h

/-- The coils gone from the table are those of the slots `gone`. -/
theorem PoolInv.gone_iff {c : Coil} (hc : c ∈ g.coils) : (∀ d ∈ (g.without gone).coils, d.handle ≠ c.handle) ↔ c.handle ∈ gone := by
  constructor
  · intro hg
    by_contra hn
    exact hg _ (Genealogy.mem_without_coils.mpr ⟨c, hc, hn, rfl⟩) rfl
  · rintro hin d hd heq
    obtain ⟨e, he, hn, rfl⟩ := Genealogy.mem_without_coils.mp hd
    exact hn (h.coil_eq he hc heq ▸ hin)

/-- The links that stay are those of no coil gone. -/
theorem PoolInv.mem_without_links_iff {m : Link} (hm : m ∈ g.links) : m ∈ (g.without gone).links ↔
    ∀ c ∈ g.coils, m.handle ∈ c.parents ++ c.children → ¬∀ d ∈ (g.without gone).coils, d.handle ≠ c.handle := by
  rw [Genealogy.mem_without_links, and_iff_right hm, Genealogy.unlisted_iff]
  exact forall₂_congr fun c hc => by rw [h.gone_iff hc]; tauto

/-- What stays keeps every field but its lists, which keep the links that stay, in their order. -/
theorem PoolInv.without_kept {d : Coil} (hd : d ∈ (g.without gone).coils) : ∃ c ∈ g.coils, SameCoil c d ∧
    d.parents = c.parents.filter (fun k => (g.without gone).links.any (fun m => m.handle == k)) ∧
    d.children = c.children.filter (fun k => (g.without gone).links.any (fun m => m.handle == k)) := by
  obtain ⟨c, hc, hn, rfl⟩ := Genealogy.mem_without_coils.mp hd
  have there (k : Nat) (hk : k ∈ c.parents ++ c.children) :
      g.unlisted gone k = (g.without gone).links.any (fun m => m.handle == k) := by
    rw [Bool.eq_iff_iff, List.any_eq_true]
    constructor
    · intro hu
      obtain ⟨m, hm, rfl⟩ := (h.listed hc).2.2 k hk
      exact ⟨m, Genealogy.mem_without_links.mpr ⟨hm, hu⟩, beq_self_eq_true _⟩
    · rintro ⟨m, hm, heq⟩
      exact beq_iff_eq.mp heq ▸ (Genealogy.mem_without_links.mp hm).2
  exact ⟨c, hc, rfl, List.filter_congr fun k hk => there k (List.mem_append_left _ hk),
    List.filter_congr fun k hk => there k (List.mem_append_right _ hk)⟩

end

/-! ## RETIRE at the arbiter -/

theorem State.retireGo_whole {s : State} {f : Frame} {bound next : Nat} {b : Bool} (h : s.unitJob = some (f, .retire bound next b)) :
    s.retireGo none = State.accept
      { s with table := (Genealogy.retireBelow s.heldRefs bound s.table.coils.length next s.table).1 } f := by
  unfold State.retireGo
  simp only [h, Option.getD_none]

theorem State.retireGo_cut {s : State} {f : Frame} {bound next : Nat} {b : Bool} (h : s.unitJob = some (f, .retire bound next b)) (n : Nat) :
    s.retireGo (some n) = State.present
      { s with table := (Genealogy.retireBelow s.heldRefs bound n next s.table).1 } f
      (.retire bound (Genealogy.retireBelow s.heldRefs bound n next s.table).2 true) := by
  unfold State.retireGo
  simp only [h, Option.getD_some]

theorem State.retireGo_waits {s : State} (h : s.unitJob = none) (k : Option Nat) : s.retireGo k = s := by
  unfold State.retireGo
  simp only [h]

/-- A RETIRE that is being performed has its turn, and is carried on by being given again. -/
theorem State.unitJob_performing {s : State} {f : Frame} {bound next : Nat} (h : s.slc.unit = .table f (.retire bound next true)) :
    s.unitJob = some (f, .retire bound next true) := by
  unfold State.unitJob
  rw [if_pos (State.grant_performing (ReqUnit.performing_iff.mpr ⟨f, bound, next, h⟩)), h]

/-- With a tracker waiting, the Request Unit has no turn for an operation not begun. -/
theorem State.unitJob_behind {s : State} (h : ¬TrackersQuiet s) (hp : s.slc.unit.performing = false) : s.unitJob = none := by
  unfold TrackersQuiet at h
  push Not at h
  obtain ⟨l, w, hw, hpr⟩ := h
  have hl : (s.trackers[l]).waits = true := Tracker.waits_iff.mpr ⟨w, hw, by simpa using hpr⟩
  have hg : s.grant ≠ some .unit := by
    unfold State.grant
    rw [hp]
    cases hf : (ringAfter s.table.lastTracker).find? (fun l => (s.trackers[l]).waits) with
    | some k => simp
    | none => exact absurd hl (List.find?_eq_none.mp hf l ((ringAfter_ordered _).2 l))
  unfold State.unitJob
  rw [if_neg hg]

/-- A pass from its start: what `n` removals reach. -/
theorem PoolInv.retireBelow {g : Genealogy} (h : PoolInv g) (held : List Ref) (bound n next : Nat) :
    ∃ gone on, Genealogy.retireBelow held bound n next g = (g.without gone, on) ∧ RetirePass g held bound next gone on ∧
      g.coils.length ≤ (g.without gone).coils.length + n ∧
      (g.coils.length < (g.without gone).coils.length + n →
        ∀ c ∈ g.coils, c.retirable held bound next → (∀ m, ¬g.pendingIn c m) → c.handle ∈ gone) := by
  have k := RetirePass.retireBelow h n (RetirePass.start g held bound next)
  rwa [Genealogy.without_nil] at k

/-- The table after a pass: what stays of it, and what went. -/
def Genealogy.Retired (g : Genealogy) (held : List Ref) (bound next : Nat) (g' : Genealogy) : Prop :=
  let gone (c : Coil) : Prop := ∀ d ∈ g'.coils, d.handle ≠ c.handle
  let there (h : Nat) : Bool := g'.links.any (fun m => m.handle == h)
  g' = { g with coils := g'.coils, links := g'.links } ∧ (∀ m ∈ g'.links, m ∈ g.links) ∧
  (∀ m ∈ g.links, m ∈ g'.links ↔ ∀ c ∈ g.coils, m.handle ∈ c.parents ++ c.children → ¬gone c) ∧
  (∀ d ∈ g'.coils, ∃ c ∈ g.coils, SameCoil c d ∧ d.parents = c.parents.filter there ∧ d.children = c.children.filter there) ∧
  ∀ c ∈ g.coils, ¬c.retirable held bound next ∨ (∃ m, g.pendingIn c m ∧ ∀ e ∈ g.coils, e.handle ≠ c.handle →
      m.handle ∈ e.parents ++ e.children → c.seq < e.seq ∨ ¬e.retirable held bound next) →
    ∃ d ∈ g'.coils, SameCoil c d

theorem RetirePass.retired {g : Genealogy} (h : PoolInv g) {held : List Ref} {bound next on : Nat} {gone : List Nat}
    (k : RetirePass g held bound next gone on) : g.Retired held bound next (g.without gone) :=
  ⟨rfl, fun _ hm => (Genealogy.mem_without_links.mp hm).1, fun _ hm => h.mem_without_links_iff hm, fun _ hd => h.without_kept hd,
    fun _ hc hb => k.spares hc hb⟩

/-- A pass that may remove every coil comes to its end. -/
theorem PoolInv.retireBelow_whole {g : Genealogy} (h : PoolInv g) (held : List Ref) (bound next : Nat) :
    let g' := (Genealogy.retireBelow held bound g.coils.length next g).1
    g.Retired held bound next g' ∧
      ∀ c ∈ g.coils, c.retirable held bound next → (∀ m, ¬g.pendingIn c m) → ∀ d ∈ g'.coils, d.handle ≠ c.handle := by
  obtain ⟨gone, on, e, k, -, hend⟩ := h.retireBelow held bound g.coils.length next
  dsimp only
  rw [e]
  refine ⟨k.retired h, fun c hc hr hq d hd => ?_⟩
  have hpos : 0 < (g.without gone).coils.length := List.length_pos_of_mem hd
  exact (h.gone_iff hc).mpr (hend (by omega) c hc hr hq) d hd

/-- A pass cut after `n` removals, and the sequence it goes on from. -/
theorem PoolInv.retireBelow_cut {g : Genealogy} (h : PoolInv g) (held : List Ref) (bound n next : Nat) :
    let g' := (Genealogy.retireBelow held bound n next g).1
    let on := (Genealogy.retireBelow held bound n next g).2
    let gone (c : Coil) : Prop := ∀ d ∈ g'.coils, d.handle ≠ c.handle
    g.Retired held bound next g' ∧ g.coils.length ≤ g'.coils.length + n ∧
      ((∀ c ∈ g.coils, ¬gone c) → on = next) ∧
      (∀ c ∈ g.coils, gone c → c.seq ≤ on ∧ ∃ d ∈ g.coils, gone d ∧ d.seq = on) ∧
      ∀ c ∈ g.coils, c.retirable held bound next → (∀ m, ¬g.pendingIn c m) → c.seq < on ∨ g.coils.length < g'.coils.length + n → gone c := by
  obtain ⟨gone, on, e, k, hle, hend⟩ := h.retireBelow held bound n next
  dsimp only
  rw [e]
  refine ⟨k.retired h, hle, fun hno => ?_, fun c hc hg => ?_, fun c hc hr hq hon => (h.gone_iff hc).mpr ?_⟩
  · rcases k.last with ⟨-, hon⟩ | ⟨d, hd, hg, -⟩
    · exact hon
    · exact absurd ((h.gone_iff hd).mpr hg) (hno d hd)
  · have hin := (h.gone_iff hc).mp hg
    refine ⟨(k.taken c hc hin).2.1, ?_⟩
    rcases k.last with ⟨hnil, -⟩ | ⟨d, hd, hg, hs⟩
    · rw [hnil] at hin
      exact absurd hin List.not_mem_nil
    · exact ⟨d, hd, (h.gone_iff hd).mpr hg, hs⟩
  · exact hon.elim (k.complete c hc hr hq) (fun hlt => hend hlt c hc hr hq)

/-- A coil the pass may not come to, in the words of R24. -/
theorem State.barred_iff (s : State) (bound next : Nat) (c : Coil) :
    (c.seq < next ∨ bound ≤ c.seq ∨ c.state = .entered ∨ ∃ l : Fin 4, ∃ x ∈ (s.trackers[l]).map, x.coil = some c.ref) ↔
      ¬c.retirable s.heldRefs bound next := by
  unfold Coil.retirable
  rw [← State.mem_heldRefs]
  constructor
  · rintro (h | h | h | h) ⟨h1, h2, h3, h4⟩
    · omega
    · omega
    · exact h3 h
    · exact h4 h
  · intro h
    by_contra hn
    simp only [not_or, Nat.not_lt, Nat.not_le] at hn
    exact h hn

/-- RETIRE performed to its end for a Request Unit whose turn it is. -/
theorem State.retireGo_none_settled {s u : State} {r : Req} {bound next : Nat} {b : Bool} (hp : PoolInv s.table) (ht : u.table = s.table)
    (hl : u.trackers = s.trackers) (ho : u.outgoing = s.outgoing) (hr : u.slc.replies = s.slc.replies)
    (hj : u.unitJob = some (reqFrame 0x0D#8 r, .retire bound next b)) (hx : exec (.retire r none) s = settle (u.retireGo none)) :
    ∃ t, exec (.retire r none) s = .next t ∧ t = (u.retireGo none).kick ∧ Answered s t (acceptance r) none ∧
      Touches [.table, .slc] s t ∧ s.table.Retired s.heldRefs bound next t.table ∧
      ∀ c ∈ s.table.coils, c.retirable s.heldRefs bound next → (∀ m, ¬s.table.pendingIn c m) → ∀ d ∈ t.table.coils, d.handle ≠ c.handle := by
  obtain ⟨t, e, touch⟩ := everyCommandTouchesOnlyItsBlocks (.retire r none) s
  obtain rfl : t = (u.retireGo none).kick := Host.Outcome.next.inj (e.symm.trans hx)
  have held : u.heldRefs = s.heldRefs := by unfold State.heldRefs; rw [hl]
  have tab : (u.retireGo none).kick.table = (Genealogy.retireBelow s.heldRefs bound s.table.coils.length next s.table).1 := by
    rw [State.kick_table, State.retireGo_whole hj, held, ht]
    rfl
  obtain ⟨ret, went⟩ := hp.retireBelow_whole s.heldRefs bound next
  refine ⟨_, e, rfl, ?_, touch, tab ▸ ret, tab ▸ went⟩
  rw [State.retireGo_whole hj]
  exact (State.finish_answered ..).of_eq (congrArg List.length hr.symm) ho.symm (State.kick_unit _) (State.kick_outgoing _)

/-- RETIRE cut after `n` removals, for a Request Unit whose turn it is. -/
theorem State.retireGo_some_settled {s u : State} {r : Req} {bound next : Nat} {b : Bool} (hp : PoolInv s.table) (n : Nat)
    (ht : u.table = s.table) (hl : u.trackers = s.trackers) (ho : u.outgoing = s.outgoing)
    (hj : u.unitJob = some (reqFrame 0x0D#8 r, .retire bound next b)) (hx : exec (.retire r (some n)) s = settle (u.retireGo (some n))) :
    ∃ t, exec (.retire r (some n)) s = .next t ∧ Touches [.table, .slc] s t ∧ t.outgoing = s.outgoing ∧
      s.table.Retired s.heldRefs bound next t.table ∧ s.table.coils.length ≤ t.table.coils.length + n ∧
      ∃ on, t.slc.unit = .table (reqFrame 0x0D#8 r) (.retire bound on true) ∧
        ((∀ c ∈ s.table.coils, ¬∀ d ∈ t.table.coils, d.handle ≠ c.handle) → on = next) ∧
        (∀ c ∈ s.table.coils, (∀ d ∈ t.table.coils, d.handle ≠ c.handle) →
          c.seq ≤ on ∧ ∃ d ∈ s.table.coils, (∀ e ∈ t.table.coils, e.handle ≠ d.handle) ∧ d.seq = on) ∧
        ∀ c ∈ s.table.coils, c.retirable s.heldRefs bound next → (∀ m, ¬s.table.pendingIn c m) →
          c.seq < on ∨ s.table.coils.length < t.table.coils.length + n → ∀ d ∈ t.table.coils, d.handle ≠ c.handle := by
  obtain ⟨t, e, touch⟩ := everyCommandTouchesOnlyItsBlocks (.retire r (some n)) s
  obtain rfl : t = (u.retireGo (some n)).kick := Host.Outcome.next.inj (e.symm.trans hx)
  have held : u.heldRefs = s.heldRefs := by unfold State.heldRefs; rw [hl]
  have tab : (u.retireGo (some n)).kick.table = (Genealogy.retireBelow s.heldRefs bound n next s.table).1 := by
    rw [State.kick_table, State.retireGo_cut hj, held, ht]
    rfl
  obtain ⟨ret, hle, rest⟩ := hp.retireBelow_cut s.heldRefs bound n next
  refine ⟨_, e, touch, ?_, tab ▸ ret, tab ▸ hle, (Genealogy.retireBelow s.heldRefs bound n next s.table).2, ?_, tab ▸ rest⟩
  · rw [State.kick_outgoing, State.retireGo_cut hj]
    exact ho
  · rw [State.kick_unit, State.retireGo_cut hj, held, ht]
    rfl

/-- Settles O17: the pass at the arbiter, whole, cut or waiting, and what it leaves of the table. -/
theorem retireRemovesEligibleCoils : Obligations.RetireRemovesEligibleCoils := by
  intro r s hp
  dsimp only
  simp only [State.barred_iff, not_not]
  refine ⟨fun ha => ?_, fun bound next hu => ?_⟩
  · have hx (k : Option Nat) : exec (.retire r k) s = settle (State.retireGo k (s.taken.present (reqFrame 0x0D#8 r)
        (.retire (field r.payload 0 4) 0 false))) := ha.tableRequest rfl _ _
    have turn (hq : TrackersQuiet s) := State.unitJob_quiet (s := s.taken.present (reqFrame 0x0D#8 r) (.retire (field r.payload 0 4) 0 false))
      (fun l w hw => hq l w (s.taken_trackers ▸ hw)) rfl rfl
    refine ⟨fun hq => ?_, fun n hq => ?_, fun k hq => ?_⟩
    · obtain ⟨t, e, rfl, rest⟩ := State.retireGo_none_settled hp (u := s.taken.present _ _) s.taken_table s.taken_trackers s.taken_outgoing
        s.taken_replies (turn hq) (hx none)
      refine ⟨_, e, ?_, rest⟩
      rw [State.retireGo_whole (turn hq)]
      exact .of_slc (State.finish_slc ..)
    · exact State.retireGo_some_settled hp n (u := s.taken.present _ _) s.taken_table s.taken_trackers s.taken_outgoing (turn hq) (hx (some n))
    · have wait := State.unitJob_behind (s := s.taken.present (reqFrame 0x0D#8 r) (.retire (field r.payload 0 4) 0 false))
        (fun hq' => hq fun l w hw => hq' l w (s.taken_trackers.symm ▸ hw)) rfl
      refine ⟨_, (hx k).trans (congrArg settle (State.retireGo_waits wait k)), ?_, .of_slc rfl, ?_, State.kick_unit _⟩
      · exact (s.taken_touches.updSlc rfl).kick rfl
      · exact (State.kick_outgoing _).trans s.taken_outgoing
  · have hx (k : Option Nat) : exec (.retire r k) s = settle (State.retireGo k s) := by
      show s.tableRequest _ _ _ _ = _
      unfold State.tableRequest
      rw [hu]
      exact if_pos rfl
    refine ⟨?_, fun n => ?_⟩
    · obtain ⟨t, e, -, rest⟩ := State.retireGo_none_settled hp rfl rfl rfl rfl (State.unitJob_performing hu) (hx none)
      exact ⟨t, e, rest⟩
    · exact State.retireGo_some_settled hp n rfl rfl rfl (State.unitJob_performing hu) (hx (some n))

end Sys2Proof.Machine
end

section
/-! What an operation of a tracker does beside the table (R28, R74, R76), once for all five; and AUTO-RETIRE in the cases the statements
name (R25). -/

namespace Sys2Proof.Machine

/-! ## An operation performed for its tracker -/

/-- The line's tracker changed as the result asks, the notices raised, the item gone on. -/
structure Performed (s : State) (l : Fin 4) (w : Work) (ns : List Notice) (first : List Task) (a : Tracker) (g : Genealogy) (t : State) :
    Prop where
  touches : Touches [.table, .trackers, .slc] s t
  lines : OtherLines l s t
  answered : ItemAnswered s t l w
  raised : ItemRaised ns l s t
  goesOn : ItemGoesOn (first ++ w.todo) w.fromPort a t.trackers[l]
  table : t.table = { g with lastTracker := l }

theorem State.updTracker_id (s : State) (l : Fin 4) : s.updTracker l id = s := by
  have e : updAt s.trackers l id = s.trackers := by
    refine Vector.ext fun i hi => ?_
    rw [updAt_getElem]
    split <;> rfl
  unfold State.updTracker
  rw [e]

theorem State.resumeItem_other (s : State) (l : Fin 4) (w : Work) (first : List Task) : OtherTrackers l s (s.resumeItem l w first) :=
  ((OtherTrackers.updTracker s l _).trans (State.runTasks_line ..).2).trans (OtherTrackers.updTracker _ l _)

/-- An operation whose result changes the line by `h` and raises `ns`. -/
theorem State.performed {s : State} {l : Fin 4} {w : Work} {ns : List Notice} {first : List Task} {g : Genealogy} {h : Tracker → Tracker}
    {c : Instr} (hx : exec c s = settle (((s.served l g ns).updTracker l h).resumeItem l w first))
    (hc : (h s.trackers[l]).cnt.trackFaults = (s.trackers[l]).cnt.trackFaults := by rfl)
    (ht : touched c = [.table, .trackers, .slc] := by rfl) :
    ∃ t, exec c s = .next t ∧ Performed s l w ns first (h s.trackers[l]) g t := by
  obtain ⟨t, e, touch⟩ := everyCommandTouchesOnlyItsBlocks c s
  obtain rfl := Host.Outcome.next.inj (e.symm.trans hx)
  rw [ht] at touch
  have served : (s.served l g ns).trackers = s.trackers := by
    unfold State.served
    exact ((Touches.refl [.slc] { s with table := { g with lastTracker := l } }).raiseAll rfl).trackers_eq
  have line : ((s.served l g ns).updTracker l h).trackers[l] = h s.trackers[l] := by rw [State.updTracker_at, served]
  refine ⟨_, e, touch, fun k hk => ⟨?_, by rw [touch.ports_eq]⟩, ?_, ?_, ?_, ?_⟩
  · rw [State.kick_trackers]
    exact (((OtherTrackers.of_eq served).trans (OtherTrackers.updTracker _ l _)).trans (State.resumeItem_other _ l w first)) k hk
  · refine State.resumeItem_answered (u := (s.served l g ns).updTracker l h) ?_ l w first
    exact ((SameLink.of_slc rfl).trans (State.raiseAll_link { s with table := { g with lastTracker := l } } ns)).trans (.of_slc rfl)
  · refine State.resumeItem_raised (u := (s.served l g ns).updTracker l h) ?_ l w first (line ▸ hc)
    have told : Tells [] s { s with table := { g with lastTracker := l } } := .of_slc rfl rfl
    exact (told.trans (State.raiseAll_tells _ ns)).frame rfl rfl
  · rw [State.kick_trackers, ← line]
    exact State.resumeItem_goesOn ..
  · rw [State.kick_table, State.resumeItem_table]
    exact State.served_table ..

/-- An operation whose result leaves the line. -/
theorem State.performed_same {s : State} {l : Fin 4} {w : Work} {ns : List Notice} {first : List Task} {g : Genealogy} {c : Instr}
    (hx : exec c s = settle ((s.served l g ns).resumeItem l w first)) (ht : touched c = [.table, .trackers, .slc] := by rfl) :
    ∃ t, exec c s = .next t ∧ Performed s l w ns first s.trackers[l] g t :=
  State.performed (h := id) (by rw [State.updTracker_id]; exact hx) rfl ht

/-- Two changes of a line are one. -/
theorem State.updTracker_updTracker (s : State) (l : Fin 4) (f h : Tracker → Tracker) :
    (s.updTracker l f).updTracker l h = s.updTracker l (h ∘ f) := by
  have e : updAt (updAt s.trackers l f) l h = updAt s.trackers l (h ∘ f) := by
    refine Vector.ext fun k hk => ?_
    simp only [updAt_getElem]
    split <;> rfl
  unfold State.updTracker
  rw [← e]

/-- A segment detached is one change of the line. -/
theorem State.detach_eq (s : State) (l : Fin 4) (i : Nat) : s.detach l i = s.updTracker l (fun a => { a with
    map := a.map.modify i (fun x => { x with fault := .detached, coil := none }), cnt := { a.cnt with detached := bump a.cnt.detached } }) :=
  State.updTracker_updTracker ..

/-! ## AUTO-RETIRE (R25) -/

section
variable {g : Genealogy} {held : List Ref} {spare : List Nat} {nc nl : Nat} {line : Option Nat}

/-- Where the slots are free at once, nothing is retired and nothing is raised. -/
theorem Genealogy.makeRoom_of_fits (h : g.fits nc nl = true) : g.makeRoom held spare nc nl line = (g, true, []) := by
  unfold makeRoom
  rw [if_pos h]

/-- Where they are not, and no record may be removed, none is. -/
theorem Genealogy.makeRoom_stuck (h : g.fits nc nl = false) (hs : ∀ c ∈ g.coils, g.eligible held c = true → c.handle ∈ spare) :
    g.makeRoom held spare nc nl line = (g, false, [{ genealogyNotice 5 line none with figure := some 0 }]) := by
  have none_ : oldest (g.coils.filter (fun c => g.eligible held c && !spare.contains c.handle)) = none := by
    rw [oldest_none, List.filter_eq_nil_iff]
    intro c hc he
    obtain ⟨he, hn⟩ := Bool.and_eq_true_iff.mp he
    simp [hs c hc he] at hn
  have auto (n : Nat) : autoRetire held spare nc nl n g 0 = (g, 0) := by
    cases n with
    | zero => rfl
    | succ n => unfold autoRetire; rw [if_neg (by simp [h]), none_]
  unfold makeRoom
  rw [if_neg (by simp [h]), auto]
  dsimp only
  rw [h]

/-- Where they are not, and they are once the oldest record that may be removed is gone, that one is removed. -/
theorem Genealogy.makeRoom_one (h : g.fits nc nl = false) {c : Coil}
    (hc : oldest (g.coils.filter (fun c => g.eligible held c && !spare.contains c.handle)) = some c)
    (hf : (g.dropCoil c).fits nc nl = true) :
    g.makeRoom held spare nc nl line = (g.dropCoil c, true, [{ genealogyNotice 5 line none with figure := some 1 }]) := by
  have auto (n : Nat) : autoRetire held spare nc nl (n + 1) g 0 = (g.dropCoil c, 1) := by
    unfold autoRetire
    rw [if_neg (by simp [h]), hc]
    cases n with
    | zero => rfl
    | succ n => unfold autoRetire; exact if_pos hf
  have pos : 0 < g.coils.length := List.length_pos_of_mem (List.mem_filter.mp (oldest_some hc).1).1
  unfold makeRoom
  rw [if_neg (by simp [h]), ← Nat.succ_pred_eq_of_pos pos, auto]
  dsimp only
  rw [hf]

/-- The oldest of the records with a property is the one of lowest sequence. -/
theorem oldest_of_least {l : List Coil} {c : Coil} (hc : c ∈ l) (hl : ∀ d ∈ l, d ≠ c → c.seq < d.seq) : oldest l = some c := by
  cases e : oldest l with
  | none => rw [oldest_none.mp e] at hc; cases hc
  | some d =>
    obtain ⟨hd, hle⟩ := oldest_some e
    by_contra hne
    have := hl d hd (fun h => hne (h ▸ rfl))
    have := hle c hc
    omega

end

end Sys2Proof.Machine
end

section
/-! ENTER COIL (R9, R16, R25): the record it enters or creates, by its cases. -/

namespace Sys2Proof.Machine

/-! ## The operation on the table -/

/-- The record ENTER COIL creates in slot `h` (R16); `again` where another record of the name stands in the index. -/
def Genealogy.entry (g : Genealogy) (h line : Nat) (name : Name) (o : Orientation) (fh declared : Nat) (again : Bool) : Coil :=
  { handle := h, seq := g.nextSeq, name := name, indexed := !again, origin := .unknown, state := .entered,
    length := if declared = 0 then none else some (min declared maxLength),
    flags := { reentry := again, suspect := decide (maxLength < declared), clamped := decide (maxLength < declared) },
    made := none, consumed := some { line := line, orient := o, fh := fh, ft := none }, parents := [], children := [] }

/-- The notices REENTRY, if another record of the name stands in the index, and ENTERED. -/
def entryNotices (line : Nat) (found : Option Coil) (c : Coil) : List Notice :=
  found.toList.map (fun d => { genealogyNotice 1 (some line) (some c.name) with coil := some c.ref, other := some d.ref })
    ++ [coilNotice 1 line c none none]

section
variable {g : Genealogy} {held : List Ref} {line : Nat} {name : Name} {o : Orientation} {fh declared : Nat} {found : Option Coil}

/-- A record MADE and without child links is entered. -/
theorem Genealogy.enterCoil_made {d : Coil} (hn : g.named name = some d) (hs : d.state = .made) (hk : d.children = []) :
    g.enterCoil held line name o fh declared =
      (g.updCoil d.handle (fun c => { c with state := .entered, consumed := some { line := line, orient := o, fh := fh, ft := none } }),
        some (d.ref, d.length), [coilNotice 1 line d none none]) := by
  unfold enterCoil
  simp only [hn]
  rw [if_pos ⟨hs, hk⟩]

/-- Another record of the name, or none, calls for a new record: none is made once the sequences are exhausted. -/
theorem Genealogy.enterCoil_exhausted (hn : g.named name = found) (hf : ∀ d, found = some d → ¬(d.state = .made ∧ d.children = []))
    (hx : g.exhausted = true) :
    g.enterCoil held line name o fh declared = (g, none, [genealogyNotice 6 (some line) (some name)]) := by
  unfold enterCoil
  cases found with
  | none => simp only [hn, hx, if_true]
  | some d => simp only [hn, hx, if_true]; rw [if_neg (hf d rfl)]

/-- The new record stands in the lowest slot free once there is room. -/
theorem Genealogy.enterCoil_created (hn : g.named name = found) (hf : ∀ d, found = some d → ¬(d.state = .made ∧ d.children = []))
    (hx : g.exhausted = false) {g1 : Genealogy} {ns : List Notice}
    (hr : g.makeRoom held (found.toList.map (·.handle)) 1 0 (some line) = (g1, true, ns)) :
    let c := g.entry g1.freeCoil line name o fh declared found.isSome
    g.enterCoil held line name o fh declared =
      ({ g1.addCoil c with nextSeq := g.nextSeq + 1 }, some (c.ref, c.length), ns ++ entryNotices line found c) := by
  unfold enterCoil
  cases found with
  | none =>
    simp only [hn, hx, Bool.false_eq_true, if_false, hr, if_true]
    rw [List.append_assoc]
    rfl
  | some d =>
    simp only [hn, hx, Bool.false_eq_true, if_false, hr, if_true]
    rw [if_neg (hf d rfl), List.append_assoc]
    rfl

/-- No record is made where no room is. -/
theorem Genealogy.enterCoil_full (hn : g.named name = found) (hf : ∀ d, found = some d → ¬(d.state = .made ∧ d.children = []))
    (hx : g.exhausted = false) {g1 : Genealogy} {ns : List Notice}
    (hr : g.makeRoom held (found.toList.map (·.handle)) 1 0 (some line) = (g1, false, ns)) :
    g.enterCoil held line name o fh declared = (g1, none, ns ++ [genealogyNotice 3 (some line) (some name)]) := by
  unfold enterCoil
  cases found with
  | none => simp only [hn, hx, Bool.false_eq_true, if_false, hr]
  | some d => simp only [hn, hx, Bool.false_eq_true, if_false, hr]; rw [if_neg (hf d rfl)]

end

theorem Genealogy.exhausted_iff {g : Genealogy} : g.exhausted = true ↔ 4294967295 < g.nextSeq := decide_eq_true_iff

theorem Genealogy.not_exhausted {g : Genealogy} (h : g.nextSeq ≤ 4294967295) : g.exhausted = false := by
  rw [← Bool.not_eq_true, exhausted_iff]
  omega

theorem Genealogy.mem_addCoil {g : Genealogy} {c d : Coil} : d ∈ (g.addCoil c).coils ↔ d = c ∨ d ∈ g.coils := insertBy_mem

/-! ## The command -/

section
variable {s : State} {l : Fin 4} {w : Work} {name : Name} {o : Orientation} {fh declared : Nat} {g : Genealogy} {ns : List Notice}

theorem Turn.enterCoil_some (h : Turn s l w) (ho : w.op = .enterCoil name o fh declared) {r : Ref} {len : Option Nat}
    (hr : s.table.enterCoil s.heldRefs l.1 name o fh declared = (g, some (r, len), ns)) :
    exec (.enterCoil l) s = settle (((s.served l g ns).updSeg l w.seg (fun x => { x with coil := some r, length := len })).resumeItem l w []) := by
  show execEnterCoil l s = _
  unfold execEnterCoil
  simp only [State.turnOf_of_turn h, ho, hr]

theorem Turn.enterCoil_none (h : Turn s l w) (ho : w.op = .enterCoil name o fh declared)
    (hr : s.table.enterCoil s.heldRefs l.1 name o fh declared = (g, none, ns)) :
    exec (.enterCoil l) s = settle (((s.served l g ns).detach l w.seg).resumeItem l w []) := by
  show execEnterCoil l s = _
  unfold execEnterCoil
  simp only [State.turnOf_of_turn h, ho, hr]

/-- What the line of the tracker goes on from when its segment has a coil record: its reference and length. -/
def Tracker.withRecord (a : Tracker) (i : Nat) (r : Ref) (len : Option Nat) : Tracker :=
  { a with map := a.map.modify i (fun x => { x with coil := some r, length := len }) }

/-- What it goes on from when its segment has none. -/
def Tracker.detached (a : Tracker) (i : Nat) : Tracker := { a with
  map := a.map.modify i (fun x => { x with fault := .detached, coil := none })
  cnt := { a.cnt with detached := bump a.cnt.detached } }

theorem Turn.entered (h : Turn s l w) (ho : w.op = .enterCoil name o fh declared) {r : Ref} {len : Option Nat}
    (hr : s.table.enterCoil s.heldRefs l.1 name o fh declared = (g, some (r, len), ns)) :
    ∃ t, exec (.enterCoil l) s = .next t ∧ Performed s l w ns [] ((s.trackers[l]).withRecord w.seg r len) g t :=
  State.performed (h := fun a => a.withRecord w.seg r len) (h.enterCoil_some ho hr)

theorem Turn.notEntered (h : Turn s l w) (ho : w.op = .enterCoil name o fh declared)
    (hr : s.table.enterCoil s.heldRefs l.1 name o fh declared = (g, none, ns)) :
    ∃ t, exec (.enterCoil l) s = .next t ∧ Performed s l w ns [] ((s.trackers[l]).detached w.seg) g t :=
  State.performed (h := fun a => a.detached w.seg) ((h.enterCoil_none ho hr).trans (by rw [State.detach_eq]; rfl))

end

/-! ## The oldest record gives way (R25) -/

section
variable {g : Genealogy} {c : Coil}

theorem Genealogy.dropCoil_handles (g : Genealogy) (c : Coil) :
    (g.dropCoil c).coils.map (·.handle) = (g.coils.filter (fun d => d.handle != c.handle)).map (·.handle) := by
  rw [dropCoil_eq, List.filter_map, List.map_map]
  rfl

theorem Genealogy.mem_dropCoil_links {m : Link} : m ∈ (g.dropCoil c).links ↔ m ∈ g.links ∧ m.handle ∉ c.parents ++ c.children := by
  rw [dropCoil_eq]
  simp [List.mem_filter]

theorem Genealogy.dropCoil_others {d : Coil} (hd : d ∈ g.coils) (hn : d.handle ≠ c.handle) : ∃ e ∈ (g.dropCoil c).coils, SameCoil d e := by
  rw [dropCoil_eq]
  exact ⟨_, List.mem_filter.mpr ⟨List.mem_map.mpr ⟨d, hd, rfl⟩, bne_iff_ne.mpr hn⟩, Coil.listing_same _ d⟩

theorem PoolInv.dropCoil_length (h : PoolInv g) (hc : c ∈ g.coils) : g.coils.length = (g.dropCoil c).coils.length + 1 := by
  have e := h.without_cons_length (gone := []) (d := c) (by rwa [Genealogy.without_nil])
  rw [← Genealogy.dropCoil_without h.1 (by rwa [Genealogy.without_nil]), Genealogy.without_nil] at e
  exact e

end

theorem Genealogy.addCoil_length (g : Genealogy) (c : Coil) : (g.addCoil c).coils.length = g.coils.length + 1 := insertBy_length ..

/-- A record that may be removed, in the words of R24. -/
theorem State.eligible_iff {s : State} (h : PoolInv s.table) (c : Coil) : s.table.eligible s.heldRefs c = true ↔
    c.state ≠ .entered ∧ (∀ k : Fin 4, ∀ x ∈ (s.trackers[k]).map, x.coil ≠ some { handle := c.handle, seq := c.seq }) ∧
      ∀ m ∈ s.table.links, m.handle ∈ c.children → m.parentSpan ≠ none := by
  rw [Genealogy.eligible_iff h, State.mem_heldRefs]
  unfold Genealogy.pendingIn
  simp only [not_exists, not_and]
  rfl

/-! ## The statement -/

/-- Settles O41, by the cases of R16: no record of the name, one that is entered, one that calls for REENTRY; and by those of R25. -/
theorem enterCoilRecords : Obligations.EnterCoilRecords := by
  intro l s w name o fh declared turn ho
  dsimp only
  have fits (h1 : s.table.coils.length < 16384) (h2 : s.table.links.length ≤ 49152) : s.table.fits 1 0 = true := Genealogy.fits_iff.mpr ⟨h1, h2⟩
  have unnamed (hu : ∀ c ∈ s.table.coils, c.indexed = true → c.name ≠ name) : s.table.named name = none := Genealogy.named_none.mpr hu
  have noneFound : ∀ d, (none : Option Coil) = some d → ¬(d.state = .made ∧ d.children = []) := fun _ h => nomatch h
  refine ⟨fun hu hroom => ?_, fun d hd hp hn hi hname => ⟨fun hs hk => ?_, fun hs hroom => ?_⟩, fun hu hx => ?_, fun hu hf hstuck => ?_,
    fun c hu hf hc hleast => ?_⟩
  · obtain ⟨hx, h1, h2⟩ := hroom
    obtain ⟨t, e, k⟩ := turn.entered ho (Genealogy.enterCoil_created (unnamed hu) noneFound (Genealogy.not_exhausted hx)
      (Genealogy.makeRoom_of_fits (fits h1 h2)))
    refine ⟨t, ⟨e, by rw [k.table], by rw [k.table]; rfl, k.touches, k.lines, k.answered⟩, _, s.table.freeCoil_lowest, rfl, ?_, ?_, ?_,
      ⟨k.goesOn, k.goesOn.stands fun _ => rfl⟩, k.raised⟩
    all_goals rw [k.table]
    · exact fun d => Genealogy.mem_addCoil
    · rfl
  · obtain ⟨t, e, k⟩ := turn.entered ho (Genealogy.enterCoil_made (hname ▸ hp.named_mem hn hd hi) hs hk)
    refine ⟨t, ⟨e, by rw [k.table], by rw [k.table]; rfl, k.touches, k.lines, k.answered⟩, ?_, ?_, ?_,
      ⟨k.goesOn, k.goesOn.stands fun _ => rfl⟩, ?_⟩
    · rw [k.table]; rfl
    · rw [k.table]; rfl
    · rw [k.table]
      simp [Genealogy.updCoil]
    · have := k.raised
      rwa [coilNotice, hname] at this
  · obtain ⟨hx, h1, h2⟩ := hroom
    have other : ∀ e, some d = some e → ¬(e.state = .made ∧ e.children = []) := by
      rintro e ⟨⟩ ⟨h3, h4⟩
      exact hs.elim (fun h => h h3) (fun h => h h4)
    obtain ⟨t, e, k⟩ := turn.entered ho (Genealogy.enterCoil_created (hname ▸ hp.named_mem hn hd hi) other (Genealogy.not_exhausted hx)
      (Genealogy.makeRoom_of_fits (fits h1 h2)))
    refine ⟨t, ⟨e, by rw [k.table], by rw [k.table]; rfl, k.touches, k.lines, k.answered⟩, _, s.table.freeCoil_lowest, rfl, ?_, ?_, ?_,
      ⟨k.goesOn, k.goesOn.stands fun _ => rfl⟩, k.raised⟩
    all_goals rw [k.table]
    · exact fun d => Genealogy.mem_addCoil
    · rfl
  · obtain ⟨t, e, k⟩ := turn.notEntered ho (Genealogy.enterCoil_exhausted (unnamed hu) noneFound (Genealogy.exhausted_iff.mpr hx))
    refine ⟨t, ⟨e, by rw [k.table], by rw [k.table], k.touches, k.lines, k.answered⟩, ⟨?_, ?_, ?_, k.goesOn, k.goesOn.stands fun _ => rfl⟩,
      k.raised⟩ <;> rw [k.table]
  · obtain ⟨hp, hx, h1, h2⟩ := hf
    have full : s.table.fits 1 0 = false := by
      rw [← Bool.not_eq_true, Genealogy.fits_iff]
      unfold coilSlots
      omega
    have stuck : ∀ c ∈ s.table.coils, s.table.eligible s.heldRefs c = true → c.handle ∈ ([] : List Nat) := fun c hc he =>
      absurd ⟨hc, (State.eligible_iff hp c).mp he⟩ (hstuck c)
    obtain ⟨t, e, k⟩ := turn.notEntered ho (Genealogy.enterCoil_full (unnamed hu) noneFound (Genealogy.not_exhausted hx)
      (Genealogy.makeRoom_stuck full stuck))
    refine ⟨t, ⟨e, by rw [k.table], by rw [k.table], k.touches, k.lines, k.answered⟩, ⟨?_, ?_, ?_, k.goesOn, k.goesOn.stands fun _ => rfl⟩,
      k.raised⟩ <;> rw [k.table]
  · obtain ⟨hp, hx, h1, h2⟩ := hf
    obtain ⟨hc, hel⟩ := hc
    have full : s.table.fits 1 0 = false := by
      rw [← Bool.not_eq_true, Genealogy.fits_iff]
      unfold coilSlots
      omega
    have hlen := hp.dropCoil_length hc
    have first : oldest (s.table.coils.filter (fun d => s.table.eligible s.heldRefs d && !([] : List Nat).contains d.handle)) = some c := by
      refine oldest_of_least (List.mem_filter.mpr ⟨hc, by simpa using (State.eligible_iff hp c).mpr hel⟩) (fun d hd hne => ?_)
      obtain ⟨hd, he⟩ := List.mem_filter.mp hd
      exact hleast d ⟨hd, (State.eligible_iff hp d).mp (Bool.and_eq_true_iff.mp he).1⟩ (fun h => hne (hp.coil_eq hd hc h))
    have room : (s.table.dropCoil c).fits 1 0 = true := by
      rw [Genealogy.fits_iff]
      have : (s.table.dropCoil c).links.length ≤ s.table.links.length := by
        rw [Genealogy.dropCoil_eq]
        exact List.length_filter_le ..
      unfold coilSlots linkSlots
      omega
    obtain ⟨t, e, k⟩ := turn.entered ho (Genealogy.enterCoil_created (unnamed hu) noneFound (Genealogy.not_exhausted hx)
      (Genealogy.makeRoom_one full first room))
    refine ⟨t, ⟨e, by rw [k.table], ?_, k.touches, k.lines, k.answered⟩, fun m => ?_, ?_, fun d hd hne => ?_,
      ⟨s.table.entry (s.table.dropCoil c).freeCoil l.1 name o fh declared false, ?_, rfl, rfl, rfl, rfl, rfl, ?_,
        ⟨k.goesOn, k.goesOn.stands fun _ => rfl⟩, k.raised⟩, by rw [k.table]⟩
    · rw [k.table]
      show (s.table.dropCoil c).session = _
      rw [Genealogy.dropCoil_eq]
    · rw [k.table]
      exact Genealogy.mem_dropCoil_links
    · rw [k.table]
      exact (Genealogy.addCoil_length ..).trans (by omega)
    · rw [k.table]
      obtain ⟨e, he, hse⟩ := Genealogy.dropCoil_others hd hne
      exact ⟨e, Genealogy.mem_addCoil.mpr (.inr he), hse⟩
    · rw [k.table]
      exact Genealogy.mem_addCoil.mpr (.inl rfl)
    · rw [← Genealogy.dropCoil_handles]
      exact Genealogy.freeCoil_lowest _

end Sys2Proof.Machine
end

section
/-! CLOSE ENTRY (R17): the record closed, and a reference to none that is ENTERED. -/

namespace Sys2Proof.Machine

/-- An ENTERED record with its feed tail, CONSUMED (R17). -/
def Coil.closed (c : Coil) (p : ConsumedPassage) (ft : Nat) : Coil :=
  let excess : Prop := c.length = none ∧ 8000000 < ft - p.fh
  { c with
    state := .consumed
    consumed := some { p with ft := some ft }
    length := if c.length = none ∧ p.fh < ft then some (min (ft - p.fh) 8000000) else c.length
    flags := { reentry := c.flags.reentry, suspect := c.flags.suspect || decide excess,
               noMaterial := c.flags.noMaterial || decide (ft = p.fh), duplicateName := c.flags.duplicateName,
               clamped := c.flags.clamped || decide excess } }

section
variable {g : Genealogy} {line : Nat} {r : Ref} {ft : Nat}

theorem Genealogy.closeEntry_entered {c : Coil} {p : ConsumedPassage} (hc : g.current r = some c) (hs : c.state = .entered)
    (hp : c.consumed = some p) (hle : p.fh ≤ ft) :
    g.closeEntry line r ft = (g.updCoil c.handle (fun _ => c.closed p ft), some ((c.closed p ft).length, decide (ft = p.fh)),
      [coilNotice 2 line (c.closed p ft) (c.closed p ft).length none]) := by
  have zero : decide (ft - p.fh = 0) = decide (ft = p.fh) := decide_eq_decide.mpr (by omega)
  have fresh : (c.length.isNone && decide (ft - p.fh ≠ 0)) = decide (c.length = none ∧ p.fh < ft) := by
    rw [Bool.eq_iff_iff]
    simp only [Bool.and_eq_true, Option.isNone_iff_eq_none, decide_eq_true_eq]
    exact and_congr_right fun _ => by omega
  have excess : (decide (c.length = none ∧ p.fh < ft) && decide (maxLength < ft - p.fh)) = decide (c.length = none ∧ 8000000 < ft - p.fh) := by
    rw [← Bool.decide_and]
    exact decide_eq_decide.mpr ⟨fun ⟨⟨h1, _⟩, h2⟩ => ⟨h1, h2⟩, fun ⟨h1, h2⟩ => ⟨⟨h1, by omega⟩, h2⟩⟩
  unfold closeEntry
  simp only [hc, hs, hp, zero, fresh, excess, decide_eq_true_eq]
  rfl

theorem Genealogy.closeEntry_none (h : ∀ c ∈ g.coils, c.handle = r.handle → c.seq ≠ r.seq ∨ c.state ≠ .entered) :
    g.closeEntry line r ft = (g, none, []) := by
  unfold closeEntry
  split
  · rfl
  · next c hc =>
    obtain ⟨hm, hh, hq⟩ := current_some hc
    have hs : c.state ≠ .entered := (h c hm hh).resolve_left (fun hn => hn hq)
    split
    · next he _ => exact absurd he hs
    · rfl

end

/-! ## The command -/

section
variable {s : State} {l : Fin 4} {w : Work} {r : Ref} {ft : Nat} {g : Genealogy} {ns : List Notice}

/-- The line goes on from its segment with the length of the record as closed. -/
def Tracker.withLength (a : Tracker) (i : Nat) (len : Option Nat) : Tracker :=
  { a with map := a.map.modify i (fun x => { x with length := len }) }

theorem Turn.closed (h : Turn s l w) (ho : w.op = .closeEntry r ft) {len : Option Nat}
    (hr : s.table.closeEntry l.1 r ft = (g, some (len, false), ns)) :
    ∃ t, exec (.closeEntry l) s = .next t ∧ Performed s l w ns [] ((s.trackers[l]).withLength w.seg len) g t := by
  refine State.performed (h := fun a => a.withLength w.seg len) ?_
  show execCloseEntry l s = _
  unfold execCloseEntry
  simp only [State.turnOf_of_turn h, ho, hr]
  rfl

theorem Turn.closedEmpty (h : Turn s l w) (ho : w.op = .closeEntry r ft) {len : Option Nat}
    (hr : s.table.closeEntry l.1 r ft = (g, some (len, true), ns)) :
    ∃ t, exec (.closeEntry l) s = .next t ∧ Performed s l w ns [.drop w.seg, .removeLast] s.trackers[l] g t := by
  refine State.performed_same ?_
  show execCloseEntry l s = _
  unfold execCloseEntry
  simp only [State.turnOf_of_turn h, ho, hr]

/-- The segment DETACHED goes if it ends at its head. -/
theorem Turn.notClosed (h : Turn s l w) (ho : w.op = .closeEntry r ft) (hr : s.table.closeEntry l.1 r ft = (g, none, ns)) :
    ∃ t, exec (.closeEntry l) s = .next t ∧
      Performed s l w ns (if ((s.trackers[l]).map[w.seg]?).any (fun x => x.fh == ft) then [.removeLast] else [])
        ((s.trackers[l]).detached w.seg) g t := by
  refine State.performed (h := fun a => a.detached w.seg) ?_
  show execCloseEntry l s = _
  unfold execCloseEntry
  simp only [State.turnOf_of_turn h, ho, hr, State.detach_eq]
  rfl

end

theorem Genealogy.updCoil_coils (g : Genealogy) (k : Nat) (c : Coil) :
    (g.updCoil k (fun _ => c)).coils = g.coils.map (fun d => if d.handle = k then c else d) := by simp [updCoil]

/-- Settles O42: the record closed with material or without, and a reference with nothing to close. -/
theorem closeEntryRecords : Obligations.CloseEntryRecords := by
  intro l s w r ft turn ho
  dsimp only
  refine ⟨fun c p hp hc hh hq hs hcon hle => ?_, fun hstale => ?_⟩
  · have closes := Genealogy.closeEntry_entered (line := l.1) (hp.current_mem hc hh hq) hs hcon hle
    have ref : (c.closed p ft).ref = r := by rw [show (c.closed p ft).ref = { handle := c.handle, seq := c.seq } from rfl, hh, hq]
    by_cases hz : ft = p.fh
    · rw [decide_eq_true hz] at closes
      obtain ⟨t, e, k⟩ := turn.closedEmpty ho closes
      refine ⟨t, ⟨e, k.touches, k.lines, k.answered, ?_⟩, ?_, ?_, fun hlt => absurd hz (by omega), fun _ => k.goesOn⟩
      · rw [k.table]; rfl
      · rw [k.table]; exact Genealogy.updCoil_coils ..
      · have := k.raised
        rw [coilNotice, ref] at this
        exact this
    · rw [decide_eq_false hz] at closes
      obtain ⟨t, e, k⟩ := turn.closed ho closes
      refine ⟨t, ⟨e, k.touches, k.lines, k.answered, ?_⟩, ?_, ?_, fun _ => ⟨k.goesOn, k.goesOn.stands fun _ => rfl⟩, fun h => absurd h hz⟩
      · rw [k.table]; rfl
      · rw [k.table]; exact Genealogy.updCoil_coils ..
      · have := k.raised
        rw [coilNotice, ref] at this
        exact this
  · obtain ⟨t, e, k⟩ := turn.notClosed ho (Genealogy.closeEntry_none hstale)
    have goes := k.goesOn
    refine ⟨t, ⟨e, k.touches, k.lines, k.answered, by rw [k.table]⟩, by rw [k.table], k.raised, fun hx => ?_, fun hx => ?_⟩
    · obtain ⟨x, hx, hf⟩ := hx
      rw [hx, Option.any_some, beq_iff_eq.mpr hf, if_pos rfl] at goes
      exact goes
    · have hno : ((s.trackers[l]).map[w.seg]?).any (fun x => x.fh == ft) = false := by
        rw [Option.any_eq_false]
        exact fun x h => beq_eq_false_iff_ne.mpr (hx x h)
      rw [hno] at goes
      exact ⟨goes, goes.stands fun _ => rfl⟩

end Sys2Proof.Machine
end

section
/-! MAKE CHILD (R4 to R7, R18): its laws in words, what is recorded, and why it fails. -/

namespace Sys2Proof.Machine

/-! ## The laws L4 to L6 in words -/

theorem Ival.not_meets_iff {x y : Ival} : x.meets y = false ↔ min x.hi y.hi ≤ max x.lo y.lo := by
  rw [Ival.meets, Bool.not_eq_false', Ival.empty, decide_eq_true_eq]
  rfl

theorem lanesApart_iff {a b : Lane} : lanesApart a b = true ↔ a ≠ b ∧ a ≠ .whole ∧ b ≠ .whole := by
  simp [lanesApart, and_assoc]

/-- Two spans of one coil do not overlap, or their lanes are apart (L6). -/
def SpansClear (x y : Ival) (m n : Lane) : Prop := min x.hi y.hi ≤ max x.lo y.lo ∨ m ≠ n ∧ m ≠ .whole ∧ n ≠ .whole

theorem spansClear_iff {x y : Ival} {m n : Lane} : (!x.meets y || lanesApart m n) = true ↔ SpansClear x y m n := by
  rw [Bool.or_eq_true, Bool.not_eq_true', Ival.not_meets_iff, lanesApart_iff]
  rfl

theorem SpansClear.symm {x y : Ival} {m n : Lane} (h : SpansClear x y m n) : SpansClear y x n m := by
  rcases h with h | ⟨h1, h2, h3⟩
  · exact .inl (by omega)
  · exact .inr ⟨h1.symm, h3, h2⟩

theorem PoolInv.keepsL6_iff {g : Genealogy} (h : PoolInv g) {c : Coil} {p : Ival} {lane : Lane} : g.keepsL6 c p lane = true ↔
    ∀ m ∈ g.links, m.handle ∈ c.children → ∀ x, m.parentSpan = some x → SpansClear x p m.lane lane := by
  have one (m : Link) : (match m.parentSpan with | none => true | some q => !p.meets q || lanesApart lane m.lane) = true ↔
      ∀ x, m.parentSpan = some x → SpansClear x p m.lane lane := by
    cases m.parentSpan with
    | none => simp
    | some q =>
      simp only [spansClear_iff, Option.some.injEq]
      exact ⟨fun k x e => e ▸ k.symm, fun k => (k q rfl).symm⟩
  unfold Genealogy.keepsL6
  rw [List.all_eq_true]
  exact ⟨fun k m hm hc => (one m).mp (k m (h.mem_linksOf.mpr ⟨hm, hc⟩)),
    fun k m hm => (one m).mpr (k m (h.mem_linksOf.mp hm).1 (h.mem_linksOf.mp hm).2)⟩

/-- A supplied parent span lies in its coil and keeps L6 there (L4, L6). -/
def Genealogy.SpanFits (g : Genealogy) (n : NewLink) : Prop :=
  ∀ q, n.parentSpan = some q → ∃ c ∈ g.coils, c.handle = n.parent.handle ∧
    (∃ len, c.length = some len ∧ q.lo < q.hi ∧ q.hi ≤ len) ∧
    ∀ m ∈ g.links, m.handle ∈ c.children → ∀ x, m.parentSpan = some x → SpansClear x q m.lane n.lane

theorem PoolInv.spanOk_iff {g : Genealogy} (h : PoolInv g) {n : NewLink} {c : Coil} (hc : g.current n.parent = some c) :
    g.spanOk n = true ↔ g.SpanFits n := by
  obtain ⟨hm, hh, -⟩ := Genealogy.current_some hc
  unfold Genealogy.spanOk Genealogy.SpanFits
  cases hq : n.parentSpan with
  | none => simp
  | some q =>
    have len : ((!q.empty) && (match c.length with | none => false | some len => decide (q.hi ≤ len))) = true ↔
        ∃ len, c.length = some len ∧ q.lo < q.hi ∧ q.hi ≤ len := by
      cases c.length <;> simp [Ival.empty]
    simp only [hc, Option.some.injEq, forall_eq']
    rw [Bool.and_eq_true]
    refine (and_congr len h.keepsL6_iff).trans ?_
    constructor
    · exact fun k => ⟨c, hm, hh, k⟩
    · rintro ⟨d, hd, hdh, k⟩
      rwa [h.coil_eq hd hm (hdh.trans hh.symm)] at k

/-- Two new links keep L6 between them. -/
def NewLink.ClearOf (m n : NewLink) : Prop :=
  m.parent = n.parent → ∀ x y, m.parentSpan = some x → n.parentSpan = some y → SpansClear x y m.lane n.lane

theorem newKeepL6_iff {ns : List NewLink} : newKeepL6 ns = true ↔ ns.Pairwise NewLink.ClearOf := by
  have one (n m : NewLink) : (match n.parentSpan, m.parentSpan with
        | some p, some q => !(n.parent == m.parent) || !p.meets q || lanesApart n.lane m.lane
        | _, _ => true) = true ↔ n.ClearOf m := by
    unfold NewLink.ClearOf
    cases n.parentSpan with
    | none => simp
    | some p =>
      cases m.parentSpan with
      | none => simp
      | some q =>
        dsimp only
        rw [Bool.or_assoc, Bool.or_eq_true, spansClear_iff, Bool.not_eq_true', beq_eq_false_iff_ne]
        simp only [Option.some.injEq]
        constructor
        · rintro k he x y rfl rfl
          exact k.resolve_left (fun hne => hne he)
        · intro k
          by_cases he : n.parent = m.parent
          · exact .inr (k he p q rfl rfl)
          · exact .inl he
  induction ns with
  | nil => simp [newKeepL6]
  | cons n ns ih =>
    unfold newKeepL6
    rw [Bool.and_eq_true, List.pairwise_cons, List.all_eq_true]
    exact and_congr (forall₂_congr fun m _ => one n m) ih

/-- The child spans hold cells of the child and are apart (L5). -/
theorem childSpansOk_iff {p : ChildPart} {cl : List NewLink} : childSpansOk p cl = true ↔
    (∀ n ∈ cl, n.childSpan.lo < n.childSpan.hi ∧ n.childSpan.hi ≤ p.length) ∧
      cl.Pairwise (fun m n => m.childSpan.hi ≤ n.childSpan.lo ∨ n.childSpan.hi ≤ m.childSpan.lo) := by
  have apart (xs : List Ival) : spansApart xs = true ↔ xs.Pairwise (fun x y => x.meets y = false) := by
    induction xs with
    | nil => simp [spansApart]
    | cons x xs ih =>
      unfold spansApart
      rw [Bool.and_eq_true, ih, List.pairwise_cons, List.all_eq_true]
      simp only [Bool.not_eq_true']
  unfold childSpansOk
  rw [Bool.and_eq_true, List.all_eq_true, apart, List.pairwise_map]
  simp only [List.mem_map, forall_exists_index, and_imp, forall_apply_eq_imp_iff₂, Bool.and_eq_true, Bool.not_eq_true', Ival.empty,
    decide_eq_false_iff_not, Nat.not_le, decide_eq_true_eq]
  refine and_congr_right fun hin => List.Pairwise.iff_of_mem fun {m n} hm hn => ?_
  have := (hin m hm).1
  have := (hin n hn).1
  rw [Ival.not_meets_iff]
  omega

/-- Links with a current parent, in words (R11). -/
theorem PoolInv.live_eq {g : Genealogy} (h : PoolInv g) (ns : List NewLink) :
    ns.filter (fun n => g.coils.any (fun c => c.handle == n.parent.handle && c.seq == n.parent.seq)) = g.live ns := by
  refine List.filter_congr fun n _ => ?_
  rw [Bool.eq_iff_iff, List.any_eq_true, Option.isSome_iff_exists]
  simp only [Bool.and_eq_true, beq_iff_eq]
  constructor
  · rintro ⟨c, hc, hh, hs⟩
    exact ⟨c, h.current_mem hc hh hs⟩
  · rintro ⟨c, hc⟩
    exact ⟨c, Genealogy.current_some hc⟩

theorem PoolInv.legalChild_iff {g : Genealogy} (h : PoolInv g) {child : Option ChildPart} {scraps : List NewLink} :
    g.legalChild child scraps = true ↔
      (∀ n ∈ g.childLinks child ++ g.live scraps, g.SpanFits n) ∧ (g.childLinks child ++ g.live scraps).Pairwise NewLink.ClearOf ∧
      ∀ p, child = some p → (∀ n ∈ g.childLinks child, n.childSpan.lo < n.childSpan.hi ∧ n.childSpan.hi ≤ p.length) ∧
        (g.childLinks child).Pairwise (fun m n => m.childSpan.hi ≤ n.childSpan.lo ∨ n.childSpan.hi ≤ m.childSpan.lo) := by
  have live : ∀ n ∈ g.childLinks child ++ g.live scraps, ∃ c, g.current n.parent = some c := by
    intro n hn
    rcases List.mem_append.mp hn with hn | hn <;> exact Option.isSome_iff_exists.mp (List.mem_filter.mp hn).2
  have fits : (g.childLinks child ++ g.live scraps).all g.spanOk = true ↔ ∀ n ∈ g.childLinks child ++ g.live scraps, g.SpanFits n := by
    rw [List.all_eq_true]
    exact forall₂_congr fun n hn => h.spanOk_iff (live n hn).choose_spec
  have spans : child.all (fun p => childSpansOk p (g.childLinks child)) = true ↔ ∀ p, child = some p →
      (∀ n ∈ g.childLinks child, n.childSpan.lo < n.childSpan.hi ∧ n.childSpan.hi ≤ p.length) ∧
        (g.childLinks child).Pairwise (fun m n => m.childSpan.hi ≤ n.childSpan.lo ∨ n.childSpan.hi ≤ m.childSpan.lo) := by
    rw [Option.all_eq_true]
    exact forall₂_congr fun p _ => childSpansOk_iff
  unfold Genealogy.legalChild
  rw [Bool.and_eq_true, Bool.and_eq_true, fits, newKeepL6_iff, spans]
  tauto

/-! ## What is recorded -/

/-- The new links stand in the pool beside the old ones. -/
theorem Genealogy.addNewLinks_mem (line : Nat) (child : Option Nat) (ns : List NewLink) (g : Genealogy) :
    (∀ m ∈ g.links, m ∈ (g.addNewLinks line child ns).links) ∧
      ∀ n ∈ ns, ∃ h, n.record h line child ∈ (g.addNewLinks line child ns).links := by
  induction ns generalizing g with
  | nil => exact ⟨fun _ h => h, fun _ h => absurd h List.not_mem_nil⟩
  | cons n ns ih =>
    rw [addNewLinks_cons]
    obtain ⟨old, new⟩ := ih (g.addLink (n.record g.freeLink line child))
    refine ⟨fun m hm => old m (mem_addLink.mpr (.inr hm)), fun k hk => ?_⟩
    rcases List.mem_cons.mp hk with rfl | hk
    · exact ⟨_, old _ (mem_addLink.mpr (.inl rfl))⟩
    · exact new k hk

/-- A link record as section 1.3 has it: PENDING with its source where no parent span is given. -/
theorem NewLink.record_eq (n : NewLink) (h line : Nat) (child : Option Nat) : n.record h line child =
    { handle := (n.record h line child).handle, child := child, childSpan := if child.isSome then n.childSpan else { lo := 0, hi := 0 },
      scrap := if child.isSome then 0 else n.scrap, parent := n.parent.handle, parentSpan := n.parentSpan, dir := n.dir, lane := n.lane,
      line := line, suspect := n.suspect,
      source := if n.parentSpan = none then some { segment := n.parent.seq, span := n.source } else none } := by
  unfold record
  cases n.parentSpan <;> rfl

section
variable {g : Genealogy} {held : List Ref} {line : Nat} {child : Option ChildPart} {scraps : List NewLink}

/-- With the slots free at once, the child and its links are recorded. -/
theorem Genealogy.makeChild_recorded (hl : g.legalChild child scraps = true) (hx : child = none ∨ g.exhausted = false)
    (hr : g.fits child.toList.length (g.childLinks child ++ g.live scraps).length = true) :
    g.makeChild held line child scraps = recordChild g.nextSeq line (g.childLinks child) (g.live scraps) (g, true, []) child := by
  have he : (child.isSome && g.exhausted) = false := by rcases hx with rfl | hx <;> simp [*]
  have room : g.childRoom held line child scraps = (g, true, []) := makeRoom_of_fits hr
  rw [makeChild_eq, hl, he, room]
  rfl

theorem Genealogy.makeChild_inconsistent (hl : g.legalChild child scraps = false) :
    g.makeChild held line child scraps = (g, false, [genealogyNotice 4 (some line) (child.map (·.name))]) := by
  rw [makeChild_eq, hl]
  rfl

theorem Genealogy.makeChild_exhausted (hl : g.legalChild child scraps = true) (hc : child ≠ none) (hx : g.exhausted = true) :
    g.makeChild held line child scraps = (g, false, [genealogyNotice 6 (some line) (child.map (·.name))]) := by
  rw [makeChild_eq, hl, hx, Option.isSome_iff_ne_none.mpr hc]
  rfl

theorem Genealogy.makeChild_full (hl : g.legalChild child scraps = true) (hx : child = none ∨ g.exhausted = false)
    (hr : g.fits child.toList.length (g.childLinks child ++ g.live scraps).length = false)
    (hs : ∀ c ∈ g.coils, g.eligible held c = true → c.handle ∈ (g.childLinks child ++ g.live scraps).map (·.parent.handle)) :
    g.makeChild held line child scraps = (g, false, [{ genealogyNotice 5 (some line) none with figure := some 0 },
      genealogyNotice 3 (some line) (child.map (·.name))]) := by
  have he : (child.isSome && g.exhausted) = false := by rcases hx with rfl | hx <;> simp [*]
  have room : g.childRoom held line child scraps = _ := makeRoom_stuck hr hs
  rw [makeChild_eq, hl, he, room]
  rfl

end

/-! ## The command -/

section
variable {s : State} {l : Fin 4} {w : Work} {child : Option ChildPart} {scraps : List NewLink} {g : Genealogy} {ns : List Notice}

theorem Turn.made (h : Turn s l w) (ho : w.op = .makeChild child scraps)
    (hr : s.table.makeChild s.heldRefs l.1 child scraps = (g, true, ns)) :
    ∃ t, exec (.makeChild l) s = .next t ∧ Performed s l w ns [] s.trackers[l] g t := by
  refine State.performed_same ?_
  show execMakeChild l s = _
  unfold execMakeChild
  simp only [State.turnOf_of_turn h, ho, hr, if_true]

/-- A child not made is counted lost. -/
theorem Turn.notMade (h : Turn s l w) (ho : w.op = .makeChild child scraps)
    (hr : s.table.makeChild s.heldRefs l.1 child scraps = (g, false, ns)) :
    ∃ t, exec (.makeChild l) s = .next t ∧
      Performed s l w ns [] { s.trackers[l] with cnt := { (s.trackers[l]).cnt with lost := bump (s.trackers[l]).cnt.lost } } g t := by
  refine State.performed (h := fun a => { a with cnt := { a.cnt with lost := bump a.cnt.lost } }) ?_
  show execMakeChild l s = _
  unfold execMakeChild
  simp only [State.turnOf_of_turn h, ho, hr]
  rfl

end

/-- A MAKE CHILD that fails changes nothing of the table, counts a child lost and raises its notices (R87). -/
theorem Turn.childFailed {s : State} {l : Fin 4} {w : Work} {child : Option ChildPart} {scraps : List NewLink} {ns : List Notice}
    (h : Turn s l w) (ho : w.op = .makeChild child scraps) (hr : s.table.makeChild s.heldRefs l.1 child scraps = (s.table, false, ns)) :
    ∃ t, (exec (.makeChild l) s = .next t ∧ Touches [.table, .trackers, .slc] s t ∧ OtherLines l s t ∧ ItemAnswered s t l w ∧
        t.table.lastTracker = l ∧ t.table.session = s.table.session) ∧ t.table = { s.table with lastTracker := l } ∧
      ItemGoesOn w.todo w.fromPort
        { s.trackers[l] with cnt := { (s.trackers[l]).cnt with lost := bump (s.trackers[l]).cnt.lost } } t.trackers[l] ∧
      ItemRaised ns l s t := by
  obtain ⟨t, e, k⟩ := h.notMade ho hr
  exact ⟨t, ⟨e, k.touches, k.lines, k.answered, by rw [k.table], by rw [k.table]⟩, k.table, k.goesOn, k.raised⟩

/-- A record that stands under R24, or that the operation names, does not give way. -/
theorem State.spared {s : State} (h : PoolInv s.table) {new : List NewLink} {c : Coil}
    (hs : c.state = .entered ∨ (∃ k : Fin 4, ∃ x ∈ (s.trackers[k]).map, x.coil = some { handle := c.handle, seq := c.seq }) ∨
      (∃ m ∈ s.table.links, m.handle ∈ c.children ∧ m.parentSpan = none) ∨ ∃ n ∈ new, n.parent.handle = c.handle)
    (he : s.table.eligible s.heldRefs c = true) : c.handle ∈ new.map (·.parent.handle) := by
  obtain ⟨h1, h2, h3⟩ := (State.eligible_iff h c).mp he
  rcases hs with hs | ⟨k, x, hx, hc⟩ | ⟨m, hm, hmc, hn⟩ | ⟨n, hn, heq⟩
  · exact absurd hs h1
  · exact absurd hc (h2 k x hx)
  · exact absurd hn (h3 m hm hmc)
  · exact List.mem_map.mpr ⟨n, hn, heq⟩

theorem Genealogy.not_fits {g : Genealogy} {nc nl : Nat} (h : 16384 < g.coils.length + nc ∨ 49152 < g.links.length + nl) :
    g.fits nc nl = false := by
  rw [← Bool.not_eq_true, fits_iff]
  unfold coilSlots linkSlots
  omega

/-- The table with scrap links recorded alone: their records are new, what was there stays. -/
theorem Genealogy.scraps_recorded (g : Genealogy) (line : Nat) (sl : List NewLink) :
    let g' := g.addNewLinks line none sl
    g'.links.length = g.links.length + sl.length ∧ (∀ m ∈ g.links, m ∈ g'.links) ∧ (∀ c ∈ g.coils, ∃ d ∈ g'.coils, SameCoil c d) ∧
      ∀ n ∈ sl, ∃ m ∈ g'.links, m = {
        handle := m.handle, child := none, childSpan := { lo := 0, hi := 0 }, scrap := n.scrap, parent := n.parent.handle,
        parentSpan := n.parentSpan, dir := n.dir, lane := n.lane, line := line, suspect := n.suspect,
        source := if n.parentSpan = none then some { segment := n.parent.seq, span := n.source } else none } := by
  obtain ⟨old, new⟩ := addNewLinks_mem line none sl g
  refine ⟨addNewLinks_links_length .., old, fun c hc => (addNewLinks_relisted line none sl g).mem hc, fun n hn => ?_⟩
  obtain ⟨h, hm⟩ := new n hn
  exact ⟨_, hm, n.record_eq h line none⟩

/-- The record of a child, its links entered, in the words of R18. -/
theorem ChildPart.record_same {p : ChildPart} {g : Genealogy} {seq line : Nat} {d : Coil} (h : SameCoil (p.record g seq line) d) :
    SameCoil {
      handle := d.handle, seq := seq, name := p.name, indexed := d.indexed, origin := .tracked, state := .made, length := some p.length,
      flags := { suspect := p.suspect, clamped := p.clamped, duplicateName := !d.indexed },
      made := some { line := line, lane := p.lane, head := p.head }, consumed := none, parents := [], children := [] } d := by
  unfold SameCoil at h ⊢
  rw [h]
  simp only [record, Bool.not_not]

theorem ChildPart.record_indexed {p : ChildPart} {g : Genealogy} {seq line : Nat} : (p.record g seq line).indexed = true ↔
    ∀ d ∈ g.coils, d.indexed = true → d.name ≠ p.name := by
  rw [← Genealogy.named_none, ← Option.not_isSome_iff_eq_none, Bool.not_eq_true, ← Bool.not_eq_true']
  rfl

/-- The notices of a child made, by whether it is indexed (R28). -/
theorem ChildPart.notices_record (p : ChildPart) (g : Genealogy) (seq line : Nat) :
    let c := p.record g seq line
    let r : Ref := { handle := c.handle, seq := seq }
    p.notices c line = (if c.indexed then [] else
        [{ cls := .genealogy, reason := 2, line := some line, name := some p.name, coil := some r }]) ++
      [{ cls := .coil, reason := 3, line := some line, name := some p.name, coil := some r, figure := some p.length,
         detail := some p.lane.code }] := by
  unfold notices
  dsimp only [record]
  cases (g.named p.name).isSome <;> rfl

/-- The table with a child recorded: its record and links are new, what was there stays. -/
theorem Genealogy.child_recorded (g : Genealogy) (line : Nat) (p : ChildPart) (cl sl : List NewLink) :
    let c := p.record g g.nextSeq line
    let g' := (recordChild g.nextSeq line cl sl (g, true, []) (some p)).1
    g'.session = g.session ∧ g'.nextSeq = g.nextSeq + 1 ∧ g'.coils.length = g.coils.length + 1 ∧
      (g'.links.length = g.links.length + (cl ++ sl).length ∧ (∀ m ∈ g.links, m ∈ g'.links) ∧
        (∀ c ∈ g.coils, ∃ d ∈ g'.coils, SameCoil c d) ∧
        ∀ n ∈ sl, ∃ m ∈ g'.links, m = {
          handle := m.handle, child := none, childSpan := { lo := 0, hi := 0 }, scrap := n.scrap, parent := n.parent.handle,
          parentSpan := n.parentSpan, dir := n.dir, lane := n.lane, line := line, suspect := n.suspect,
          source := if n.parentSpan = none then some { segment := n.parent.seq, span := n.source } else none }) ∧
      (∃ d ∈ g'.coils, SameCoil c d) ∧
      ∀ n ∈ cl, ∃ m ∈ g'.links, m = {
        handle := m.handle, child := some c.handle, childSpan := n.childSpan, scrap := 0, parent := n.parent.handle,
        parentSpan := n.parentSpan, dir := n.dir, lane := n.lane, line := line, suspect := n.suspect,
        source := if n.parentSpan = none then some { segment := n.parent.seq, span := n.source } else none } := by
  dsimp only [recordChild]
  set c := p.record g g.nextSeq line
  set g0 : Genealogy := { g.addCoil c with nextSeq := g.nextSeq + 1 }
  have r1 := addNewLinks_relisted line (some c.handle) cl g0
  set g1 := g0.addNewLinks line (some c.handle) cl
  have rel := r1.trans (addNewLinks_relisted line none sl g1)
  obtain ⟨old1, new1⟩ := addNewLinks_mem line (some c.handle) cl g0
  obtain ⟨len2, old2, -, scraps⟩ := scraps_recorded g1 line sl
  refine ⟨rel.session, rel.nextSeq, rel.length.trans (addCoil_length g c), ⟨?_, fun m hm => old2 m (old1 m hm), fun d hd => ?_, scraps⟩,
    rel.mem (mem_addCoil.mpr (.inl rfl)), fun n hn => ?_⟩
  · rw [len2, addNewLinks_links_length, List.length_append, Nat.add_assoc]
    rfl
  · exact rel.mem (mem_addCoil.mpr (.inr hd))
  · obtain ⟨h, hm⟩ := new1 n hn
    exact ⟨_, old2 _ hm, n.record_eq h line (some c.handle)⟩

/-- Settles O43: the child and its links recorded, scrap links alone, and the three failures. -/
theorem makeChildRecords : Obligations.MakeChildRecords := by
  intro l s w child scraps turn ho
  by_cases hp : PoolInv s.table
  case neg => exact ⟨fun _ _ h => absurd h.1 hp, fun _ h => absurd h.1 hp, fun h => absurd h hp, fun _ h => absurd h.1 hp, fun h => absurd h.1 hp⟩
  dsimp only
  rw [hp.live_eq, hp.live_eq]
  have inconsistent (h : ¬s.table.legalChild child scraps = true) :=
    turn.childFailed ho (Genealogy.makeChild_inconsistent (by simpa using h))
  have exhausted (h : s.table.legalChild child scraps = true) (hc : child ≠ none) (hx : 4294967295 < s.table.nextSeq) :=
    turn.childFailed ho (Genealogy.makeChild_exhausted h hc (Genealogy.exhausted_iff.mpr hx))
  have full (h : s.table.legalChild child scraps = true) (hx : child = none ∨ s.table.exhausted = false) (hf) (hs) :=
    turn.childFailed ho (Genealogy.makeChild_full h hx hf hs)
  cases child with
  | none =>
    refine ⟨fun _ h => (nomatch h), fun _ hl h1 h2 => ?_, fun _ hl => inconsistent (fun h => hl ⟨hp, hp.legalChild_iff.mp h⟩),
      fun h => absurd rfl h, fun hl hx hf hs => full (hp.legalChild_iff.mpr hl.2) (.inl rfl) ?_ (fun c hc => State.spared hp (hs c hc))⟩
    · have fit : s.table.fits 0 (s.table.childLinks none ++ s.table.live scraps).length = true := Genealogy.fits_iff.mpr ⟨h1, h2⟩
      obtain ⟨t, e, k⟩ := turn.made ho (Genealogy.makeChild_recorded (hp.legalChild_iff.mpr hl.2) (.inl rfl) fit)
      have rel := Genealogy.addNewLinks_relisted l.1 none (s.table.live scraps) s.table
      refine ⟨t, ⟨⟨e, k.touches, k.lines, k.answered, by rw [k.table], ?_⟩, k.goesOn, ?_⟩, ?_, ?_, k.raised⟩
      · rw [k.table]; exact rel.session
      · rw [k.table]; exact Genealogy.scraps_recorded ..
      · rw [k.table]; exact rel.nextSeq
      · rw [k.table]; exact rel.length
    · exact Genealogy.not_fits (hf.elim (fun h => absurd rfl h.1) .inr)
  | some p =>
    refine ⟨fun q hq hl hx h1 h2 => ?_, fun h => (nomatch h), fun _ hl => inconsistent (fun h => hl ⟨hp, hp.legalChild_iff.mp h⟩),
      fun hc hl => exhausted (hp.legalChild_iff.mpr hl.2) hc, fun hl hx hf hs => full (hp.legalChild_iff.mpr hl.2) ?_ ?_
        (fun c hc => State.spared hp (hs c hc))⟩
    · cases hq
      have fit : s.table.fits 1 (s.table.childLinks (some p) ++ s.table.live scraps).length = true := Genealogy.fits_iff.mpr ⟨h1, h2⟩
      obtain ⟨t, e, k⟩ := turn.made ho (Genealogy.makeChild_recorded (hp.legalChild_iff.mpr hl.2) (.inr (Genealogy.not_exhausted hx)) fit)
      obtain ⟨ses, seq, len, kept, ⟨d, hd, same⟩, links⟩ :=
        Genealogy.child_recorded s.table l.1 p (s.table.childLinks (some p)) (s.table.live scraps)
      have raised := k.raised
      have hh := same.handle
      have hi := same.indexed
      refine ⟨t, ⟨⟨e, k.touches, k.lines, k.answered, by rw [k.table], ?_⟩, k.goesOn, ?_⟩, ?_, ?_, d, ?_, ?_, ChildPart.record_same same, ?_, ?_, ?_⟩
      · rw [k.table]; exact ses
      · rw [k.table]; exact kept
      · rw [k.table]; exact seq
      · rw [k.table]; exact len
      · rw [k.table]; exact hd
      · rw [hh]; exact s.table.freeCoil_lowest
      · rw [hi]; exact ChildPart.record_indexed
      · rw [hh, hi]
        exact (ChildPart.notices_record ..) ▸ raised
      · rw [k.table, hh]; exact links
    · exact .inr (Genealogy.not_exhausted (hx.resolve_left (nofun)))
    · exact Genealogy.not_fits (hf.imp (fun h => Nat.lt_succ_of_le h.2) id)

end Sys2Proof.Machine
end

section
/-! The parent span of a delivery span (R44 to R46): the two ceilings as one map from delivery to the coil, which is monotone and takes D_h to
D_t onto the whole coil. -/

namespace Sys2Proof.Machine

theorem ceilDiv_mono {a b : Nat} (h : a ≤ b) (n : Nat) : ceilDiv a n ≤ ceilDiv b n := Nat.div_le_div_right (by omega)

theorem ceilDiv_zero {n : Nat} (h : 0 < n) : ceilDiv 0 n = 0 := Nat.div_eq_of_lt (by omega)

theorem ceilDiv_mul {n : Nat} (h : 0 < n) (k : Nat) : ceilDiv (n * k) n = k := by
  unfold ceilDiv
  rw [Nat.add_sub_assoc h, Nat.mul_add_div h, Nat.div_eq_of_lt (by omega), Nat.add_zero]

/-- The figures of a segment within the bounds of R44. -/
def FinalBounds (fh ft dh dt len : Nat) : Prop :=
  fh < ft ∧ ft - fh ≤ 200000000 ∧ dh < dt ∧ dt - dh ≤ 200000000 ∧ 1 ≤ len ∧ len ≤ 8000000

/-- The coil coordinate of delivery coordinate `y` by the two ceilings, from the coil's head as it ran (R45). -/
def coilOf (fh ft dh dt len y : Nat) : Nat := ceilDiv (ceilDiv ((y - dh) * (ft - fh)) (dt - dh) * len) (ft - fh)

/-- The span from `a` to `b` of a coil of length `len` as it ran, turned for TAIL FIRST. -/
def turned (o : Orientation) (len a b : Nat) : Ival :=
  match o with
  | .headFirst => { lo := a, hi := b }
  | .tailFirst => { lo := len - b, hi := len - a }

section
variable {fh ft dh dt len : Nat}

theorem coilOf_mono {y z : Nat} (h : y ≤ z) : coilOf fh ft dh dt len y ≤ coilOf fh ft dh dt len z :=
  ceilDiv_mono (Nat.mul_le_mul_right _ (ceilDiv_mono (Nat.mul_le_mul_right _ (by omega)) _)) _

theorem coilOf_head (h : FinalBounds fh ft dh dt len) : coilOf fh ft dh dt len dh = 0 := by
  obtain ⟨h1, -, h2, -⟩ := h
  unfold coilOf
  rw [Nat.sub_self, Nat.zero_mul, ceilDiv_zero (by omega), Nat.zero_mul, ceilDiv_zero (by omega)]

theorem coilOf_tail (h : FinalBounds fh ft dh dt len) : coilOf fh ft dh dt len dt = len := by
  obtain ⟨h1, -, h2, -⟩ := h
  unfold coilOf
  rw [ceilDiv_mul (by omega), ceilDiv_mul (by omega)]

/-- The parent span of a delivery span: within the bounds of R44, where the cut span and what it becomes hold cells (R45). -/
theorem finalSpan_iff {o : Orientation} {y p : Ival} : finalSpan o fh ft dh dt len y = some p ↔
    FinalBounds fh ft dh dt len ∧ p.lo < p.hi ∧ max y.lo dh < min y.hi dt ∧
      p = turned o len (coilOf fh ft dh dt len (max y.lo dh)) (coilOf fh ft dh dt len (min y.hi dt)) := by
  have kept (q : Ival) : (if q.empty then none else some q) = some p ↔ p.lo < p.hi ∧ p = q := by
    unfold Ival.empty
    split
    · next he =>
      rw [decide_eq_true_eq] at he
      refine ⟨fun h => (nomatch h), fun ⟨hlt, e⟩ => ?_⟩
      subst e
      omega
    · next he =>
      rw [decide_eq_true_eq] at he
      rw [Option.some.injEq]
      refine ⟨fun e => ?_, fun h => h.2.symm⟩
      subst e
      exact ⟨by omega, rfl⟩
  have coil (d : Nat) : ceilDiv ((fh + ceilDiv ((d - dh) * (ft - fh)) (dt - dh) - fh) * len) (ft - fh) = coilOf fh ft dh dt len d := by
    rw [Nat.add_sub_cancel_left]
    rfl
  unfold finalSpan
  split
  · next hb =>
    rw [and_iff_right (show FinalBounds fh ft dh dt len from hb)]
    have none_ : (y.cut { lo := dh, hi := dt }).empty = true ↔ min y.hi dt ≤ max y.lo dh := decide_eq_true_iff
    dsimp only
    by_cases hz : max y.lo dh < min y.hi dt
    · rw [if_neg (by rw [none_]; omega), and_iff_right hz]
      cases o <;> simp only [Ival.cut, coil, kept] <;> rfl
    · rw [if_pos (none_.mpr (Nat.not_lt.mp hz))]
      exact ⟨fun h => (nomatch h), fun h => absurd h.2.1 hz⟩
  · next hb => exact ⟨fun h => (nomatch h), fun h => absurd h.1 hb⟩

/-! ## Spans that tile (R46) -/

/-- The parent spans of two delivery spans as spans of the coil as it ran: within the coil, in the order of the delivery spans, and meeting
where these do. -/
theorem finalSpan_pair {o : Orientation} {a b c d : Nat} {p q : Ival} (hp : finalSpan o fh ft dh dt len { lo := a, hi := b } = some p)
    (hq : finalSpan o fh ft dh dt len { lo := c, hi := d } = some q) :
    ∃ k m x y, p = turned o len k m ∧ q = turned o len x y ∧ m ≤ len ∧ (b ≤ c → m ≤ x) ∧ (b = c → m = x) := by
  obtain ⟨hb, -, hab, ep⟩ := finalSpan_iff.mp hp
  obtain ⟨-, -, hcd, eq⟩ := finalSpan_iff.mp hq
  dsimp only at hab hcd ep eq
  refine ⟨_, _, _, _, ep, eq, ?_, fun h => coilOf_mono (by omega), fun h => ?_⟩
  · calc coilOf fh ft dh dt len (min b dt) ≤ coilOf fh ft dh dt len dt := coilOf_mono (Nat.min_le_right ..)
      _ = len := coilOf_tail hb
  · rw [show min b dt = b by omega, show max c dh = b by omega]

/-- A rising sequence passes every value from its start to below its end. -/
theorem exists_between {k : Nat → Nat} {n x : Nat} (h0 : k 0 ≤ x) (hn : x < k n) : ∃ i < n, k i ≤ x ∧ x < k (i + 1) := by
  induction n with
  | zero => omega
  | succ n ih =>
    by_cases h : x < k n
    · obtain ⟨i, hi, hk⟩ := ih h
      exact ⟨i, by omega, hk⟩
    · exact ⟨n, by omega, by omega, hn⟩

theorem le_of_steps {cut : Nat → Nat} {n : Nat} (h : ∀ i < n, cut i ≤ cut (i + 1)) {i j : Nat} (hij : i ≤ j) (hj : j ≤ n) : cut i ≤ cut j := by
  induction j with
  | zero => rw [Nat.le_zero.mp hij]
  | succ j ih =>
    rcases Nat.lt_or_ge j i with hlt | hle
    · rw [Nat.le_antisymm hij hlt]
    · exact Nat.le_trans (ih hle (by omega)) (h j hj)

/-- Delivery spans that tile D_h to D_t have parent spans that tile the coil. -/
theorem finalSpan_tiles {o : Orientation} (hb : FinalBounds fh ft dh dt len) {n : Nat} {cut : Nat → Nat} (h0 : cut 0 = dh) (hn : cut n = dt)
    (hs : ∀ i < n, cut i ≤ cut (i + 1)) {x : Nat} (hx : x < len) :
    ∃ i < n, ∃ p, finalSpan o fh ft dh dt len { lo := cut i, hi := cut (i + 1) } = some p ∧ p.lo ≤ x ∧ x < p.hi := by
  have place (z : Nat) (hz : z < len) : ∃ i < n, coilOf fh ft dh dt len (cut i) ≤ z ∧ z < coilOf fh ft dh dt len (cut (i + 1)) :=
    exists_between (k := fun i => coilOf fh ft dh dt len (cut i)) (by rw [h0, coilOf_head hb]; omega) (by rw [hn, coilOf_tail hb]; exact hz)
  have span {i : Nat} (hi : i < n) {z : Nat} (hlo : coilOf fh ft dh dt len (cut i) ≤ z) (hhi : z < coilOf fh ft dh dt len (cut (i + 1)))
      (hz : z < len) : finalSpan o fh ft dh dt len { lo := cut i, hi := cut (i + 1) } =
        some (turned o len (coilOf fh ft dh dt len (cut i)) (coilOf fh ft dh dt len (cut (i + 1)))) := by
    have low : dh ≤ cut i := h0 ▸ le_of_steps hs (Nat.zero_le i) (by omega)
    have high : cut (i + 1) ≤ dt := hn ▸ le_of_steps hs hi (Nat.le_refl n)
    have less : cut i < cut (i + 1) := by
      by_contra hc
      have := coilOf_mono (fh := fh) (ft := ft) (dh := dh) (dt := dt) (len := len) (Nat.not_lt.mp hc)
      omega
    rw [finalSpan_iff, Nat.max_eq_left low, Nat.min_eq_left high]
    refine ⟨hb, ?_, less, rfl⟩
    cases o
    · exact Nat.lt_of_le_of_lt hlo hhi
    · show len - _ < len - _
      omega
  cases o
  · obtain ⟨i, hi, hlo, hhi⟩ := place x hx
    exact ⟨i, hi, _, span hi hlo hhi hx, hlo, hhi⟩
  · obtain ⟨i, hi, hlo, hhi⟩ := place (len - 1 - x) (by omega)
    refine ⟨i, hi, _, span hi hlo hhi (by omega), ?_, ?_⟩
    · show len - _ ≤ x
      omega
    · show x < len - _
      omega

end

end Sys2Proof.Machine
end

section
/-! FINALIZE LINKS and DROP PENDING performed for their tracker (R19, R20): the pending links of the segment and no other. -/

namespace Sys2Proof.Machine

/-! ## The commands -/

section
variable {s : State} {l : Fin 4} {w : Work} {r : Ref} {g : Genealogy} {ns : List Notice}

theorem Turn.dropped (h : Turn s l w) (ho : w.op = .dropPending r) (hr : s.table.dropPending l.1 r = (g, true)) :
    ∃ t, exec (.dropPending l) s = .next t ∧ Performed s l w [] [] s.trackers[l] g t := by
  refine State.performed_same ?_
  show execDropPending l s = _
  unfold execDropPending
  simp only [State.turnOf_of_turn h, ho, hr, if_true]

theorem Turn.notDropped (h : Turn s l w) (ho : w.op = .dropPending r) (hr : s.table.dropPending l.1 r = (g, false)) :
    ∃ t, exec (.dropPending l) s = .next t ∧ Performed s l w [] [] ((s.trackers[l]).detached w.seg) g t := by
  refine State.performed (h := fun a => a.detached w.seg) ?_
  show execDropPending l s = _
  unfold execDropPending
  simp only [State.turnOf_of_turn h, ho, hr, State.detach_eq, Bool.false_eq_true, if_false]
  rfl

/-- The line goes on from its segment with its tail crossed. -/
def Tracker.withTail (a : Tracker) (i dt : Nat) : Tracker := { a with map := a.map.modify i (fun x => { x with dt := some dt }) }

/-- The same for a segment DETACHED in the same step. -/
def Tracker.detachedTail (a : Tracker) (i dt : Nat) : Tracker := { a with
  map := a.map.modify i (fun x => { x with dt := some dt, fault := .detached, coil := none })
  cnt := { a.cnt with detached := bump a.cnt.detached } }

theorem Tracker.withTail_detached (a : Tracker) (i dt : Nat) : (a.withTail i dt).detached i = a.detachedTail i dt := by
  unfold withTail detached detachedTail
  simp only [List.modify_modify_eq]
  rfl

variable {o : Orientation} {fh ft dh dt len : Nat} {mark : Bool}

theorem Turn.finalized (h : Turn s l w) (ho : w.op = .finalize r o fh ft dh dt len mark)
    (hr : s.table.finalizeLinks l.1 r o fh ft dh dt len mark = (g, true, ns)) :
    ∃ t, exec (.finalizeLinks l) s = .next t ∧ Performed s l w ns [] ((s.trackers[l]).withTail w.seg dt) g t := by
  refine State.performed (h := fun a => a.withTail w.seg dt) ?_
  show execFinalizeLinks l s = _
  unfold execFinalizeLinks
  simp only [State.turnOf_of_turn h, ho, hr, if_true]
  rfl

theorem Turn.notFinalized (h : Turn s l w) (ho : w.op = .finalize r o fh ft dh dt len mark)
    (hr : s.table.finalizeLinks l.1 r o fh ft dh dt len mark = (g, false, ns)) :
    ∃ t, exec (.finalizeLinks l) s = .next t ∧ Performed s l w ns [] ((s.trackers[l]).detachedTail w.seg dt) g t := by
  refine State.performed (h := fun a => a.detachedTail w.seg dt) ?_
  show execFinalizeLinks l s = _
  unfold execFinalizeLinks
  simp only [State.turnOf_of_turn h, ho, hr, State.detach_eq, Bool.false_eq_true, if_false, State.updSeg, State.updTracker_updTracker]
  exact congrArg (fun h => settle (((s.served l g ns).updTracker l h).resumeItem l w [])) (funext fun a => a.withTail_detached w.seg dt)

end

/-! ## The table -/

theorem Genealogy.dropPending_stale {g : Genealogy} {line : Nat} {r : Ref} (h : g.current r = none) : g.dropPending line r = (g, false) := by
  unfold dropPending
  rw [h]

theorem Genealogy.dropPending_current {g : Genealogy} {line : Nat} {r : Ref} {c : Coil} (h : g.current r = some c) :
    g.dropPending line r = (((g.pendingOf c line).map (·.handle)).foldl Genealogy.dropLink g, true) := by
  unfold dropPending
  rw [h]

theorem Genealogy.finalizeLinks_stale {g : Genealogy} {r : Ref} (h : g.current r = none) (line : Nat) (o : Orientation)
    (fh ft dh dt len : Nat) (mark : Bool) : g.finalizeLinks line r o fh ft dh dt len mark = (g, false, []) := by
  unfold finalizeLinks
  rw [h]

/-- The links of two records with equal pending-link conditions: a link in the slot of a pending one is that one. -/
theorem PoolInv.pending_same {g : Genealogy} (h : PoolInv g) {c : Coil} {line : Nat} {m x : Link} (hm : m ∈ g.links) (hx : x ∈ g.pendingOf c line)
    (e : x.handle = m.handle) : PendingFor c line m := by
  obtain ⟨hx, hp⟩ := h.mem_pendingOf.mp hx
  exact h.link_eq hx hm e ▸ hp

/-- DROP PENDING leaves exactly the other links. -/
theorem PoolInv.mem_dropPending {g : Genealogy} (h : PoolInv g) {c : Coil} {line : Nat} {m : Link} :
    m ∈ (((g.pendingOf c line).map (·.handle)).foldl Genealogy.dropLink g).links ↔ m ∈ g.links ∧ ¬PendingFor c line m := by
  rw [Genealogy.foldl_dropLink, List.mem_filter, Bool.not_eq_true', List.contains_eq_mem, decide_eq_false_iff_not, List.mem_map]
  refine and_congr_right fun hm => not_congr ⟨fun ⟨x, hx, e⟩ => h.pending_same hm hx e, fun hp => ⟨m, h.mem_pendingOf.mpr ⟨hm, hp⟩, rfl⟩⟩

/-! ## FINALIZE LINKS in the words of R45 -/

/-- The parent span of a pending link, as the statement spells it: within bounds, not empty, from its source cut to D_h to D_t. -/
def ParentSpan (o : Orientation) (fh ft dh dt len : Nat) (m : Link) (p : Ival) : Prop :=
  FinalBounds fh ft dh dt len ∧ p.lo < p.hi ∧ ∃ q, m.source = some q ∧ max q.span.lo dh < min q.span.hi dt ∧
    p = turned o len (coilOf fh ft dh dt len (max q.span.lo dh)) (coilOf fh ft dh dt len (min q.span.hi dt))

theorem parentSpan_iff {o : Orientation} {fh ft dh dt len line : Nat} {c : Coil} {m : Link} {p : Ival} (h : PendingFor c line m) :
    m.spanFor o fh ft dh dt len = some p ↔ ParentSpan o fh ft dh dt len m p := by
  obtain ⟨-, -, -, q, hq, -⟩ := h
  unfold Link.spanFor ParentSpan
  simp only [hq, finalSpan_iff, Option.some.injEq, exists_eq_left']

/-- What FINALIZE LINKS of a current reference does (R19, R28): every pending link of the segment is FINAL with its parent span or gone, those gone
for law L6 with a notice each; every other link stays. -/
structure LinksFinalized (g g' : Genealogy) (c : Coil) (line : Nat) (span : Link → Ival → Prop) (final : Link → Ival → Link)
    (refused : List Link) : Prop where
  coils : Relisted g g'
  once : refused.Nodup
  refused : ∀ m, m ∈ refused ↔ m ∈ g.links ∧ PendingFor c line m ∧ (∃ p, span m p) ∧ ∀ x ∈ g'.links, x.handle ≠ m.handle
  others : ∀ m ∈ g.links, ¬PendingFor c line m → m ∈ g'.links
  finals : ∀ m ∈ g'.links, (m ∈ g.links ∧ ¬PendingFor c line m) ∨ ∃ x ∈ g.links, PendingFor c line x ∧ ∃ p, span x p ∧ m = final x p

section
variable {g : Genealogy} (h : PoolInv g) {c : Coil} {r : Ref} (hr : g.current r = some c) (line : Nat) (o : Orientation)
  (fh ft dh dt len : Nat) (mark : Bool)
include h hr

theorem PoolInv.linksFinalized : ∃ g' refused, g.finalizeLinks line r o fh ft dh dt len mark =
      (g', true, refused.map (fun _ => genealogyNotice 4 (some line) (some c.name))) ∧
    LinksFinalized g g' c line (ParentSpan o fh ft dh dt len) (Link.finalized o mark) refused := by
  have hc := (Genealogy.current_some hr).1
  obtain ⟨htrue, hpools, hcoils, hothers, hfinals, rs, hsub, hn, hiff⟩ := h.finalizeLinks hr line o fh ft dh dt len mark
  have distinct := h.pendingOf_distinct hc line
  refine ⟨_, rs, Prod.ext rfl (Prod.ext htrue hn), hcoils, ?_, fun m => ?_, fun m hm hp => ?_, fun m hm => ?_⟩
  · exact List.Pairwise.imp (S := (· ≠ ·)) (fun hne e => hne (congrArg Link.handle e)) (distinct.sublist hsub)
  · constructor
    · intro hm
      have hls := hsub.subset hm
      obtain ⟨hmg, hp⟩ := h.mem_pendingOf.mp hls
      obtain ⟨⟨p, hs⟩, hgone⟩ := (hiff m hls).mp hm
      exact ⟨hmg, hp, ⟨p, (parentSpan_iff hp).mp hs⟩, hgone⟩
    · rintro ⟨hmg, hp, ⟨p, hs⟩, hgone⟩
      exact (hiff m (h.mem_pendingOf.mpr ⟨hmg, hp⟩)).mpr ⟨⟨p, (parentSpan_iff hp).mpr hs⟩, hgone⟩
  · exact (hothers m (fun x hx e => hp (h.pending_same hm hx e))).mpr hm
  · by_cases hex : ∃ x ∈ g.pendingOf c line, x.handle = m.handle
    · obtain ⟨x, hx, e⟩ := hex
      obtain ⟨hxg, hp⟩ := h.mem_pendingOf.mp hx
      obtain ⟨p, hs, e⟩ := hfinals m hm x hx e
      exact .inr ⟨x, hxg, hp, p, (parentSpan_iff hp).mp hs, e⟩
    · push Not at hex
      have hmg := (hothers m hex).mp hm
      exact .inl ⟨hmg, fun hp => hex m (h.mem_pendingOf.mpr ⟨hmg, hp⟩) rfl⟩

/-- The only pending link of the segment is kept when its parent span meets none of the coil's FINAL links. -/
theorem PoolInv.finalizeLinks_only {m : Link} (hm : m ∈ g.links) (hp : PendingFor c line m)
    (only : ∀ x ∈ g.links, PendingFor c line x → x = m) {p : Ival} (hs : ParentSpan o fh ft dh dt len m p)
    (clear : ∀ x ∈ g.links, x.handle ∈ c.children → ∀ q, x.parentSpan = some q → min p.hi q.hi ≤ max p.lo q.lo) :
    m.finalized o mark p ∈ (g.finalizeLinks line r o fh ft dh dt len mark).1.links := by
  have hc := (Genealogy.current_some hr).1
  have alone : g.pendingOf c line = [m] := by
    have hin := h.mem_pendingOf.mpr ⟨hm, hp⟩
    have eqm : ∀ x ∈ g.pendingOf c line, x = m := fun x hx => only x (h.mem_pendingOf.mp hx).1 (h.mem_pendingOf.mp hx).2
    have distinct := h.pendingOf_distinct hc line
    generalize g.pendingOf c line = ls at hin eqm distinct
    match ls with
    | [] => cases hin
    | [x] => rw [eqm x (.head _)]
    | x :: y :: ys =>
      exact absurd (by rw [eqm x (.head _), eqm y (.tail _ (.head _))]) ((List.pairwise_cons.mp distinct).1 y (.head _))
  have keeps : g.keepsL6 c p m.lane = true :=
    h.keepsL6_iff.mpr fun x hx hxc q hq => .inl (by have := clear x hx hxc q hq; omega)
  rw [Genealogy.finalizeLinks_current hr, alone]
  show m.finalized o mark p ∈ (Genealogy.finalizeOne c _ (Link.spanFor o fh ft dh dt len) (Link.finalized o mark) (g, []) m).1.links
  unfold Genealogy.finalizeOne
  simp only [(parentSpan_iff hp).mpr hs, h.coilAt_mem hc, keeps, if_true]
  exact Genealogy.relink_has hm rfl

end

/-- Settles O44: DROP PENDING, FINALIZE LINKS, each with a stale reference or a current one, and the parent spans. -/
theorem pendingLinksFinalizedOrDropped : Obligations.PendingLinksFinalizedOrDropped := by
  refine ⟨fun l s w turn hp => ?_, fun o fh ft dh dt len => ⟨fun hb a b => ?_, fun a b c d p q hpq hq => ?_, fun hb n cut h0 hn hs x hx => ?_⟩⟩
  · have staleRef (r : Ref) (h : ∀ c ∈ s.table.coils, c.handle = r.handle → c.seq ≠ r.seq) := Genealogy.current_none h
    dsimp only
    refine ⟨fun r ho hst => ?_, fun r c ho hc hh hq => ?_, fun r o fh ft dh dt len mark ho => ⟨fun hst => ?_, fun c hc hh hq => ?_⟩⟩
    · obtain ⟨t, e, k⟩ := turn.notDropped ho (Genealogy.dropPending_stale (staleRef r hst))
      refine ⟨t, ⟨e, k.touches, k.lines, k.answered, ?_, ?_, ?_, ?_, fun c hc => ⟨c, ?_, .refl c⟩⟩, k.table, k.raised, k.goesOn⟩
      all_goals rw [k.table]
      exact hc
    · have rel := Genealogy.foldl_dropLink_relisted ((s.table.pendingOf c l.1).map (·.handle)) s.table
      obtain ⟨t, e, k⟩ := turn.dropped ho (Genealogy.dropPending_current (hp.current_mem hc hh hq))
      refine ⟨t, ⟨e, k.touches, k.lines, k.answered, ?_, ?_, ?_, ?_, fun d hd => ?_⟩, ?_, k.raised, fun m => ?_⟩
      · rw [k.table]
      · rw [k.table]; exact rel.nextSeq
      · rw [k.table]; exact rel.session
      · rw [k.table]; exact rel.length
      · rw [k.table]; exact rel.mem hd
      · rw [List.modify_id]; exact k.goesOn
      · rw [k.table]; exact hp.mem_dropPending
    · obtain ⟨t, e, k⟩ := turn.notFinalized ho (Genealogy.finalizeLinks_stale (staleRef r hst) ..)
      refine ⟨t, ⟨e, k.touches, k.lines, k.answered, ?_, ?_, ?_, ?_, fun c hc => ⟨c, ?_, .refl c⟩⟩, k.table, k.raised, k.goesOn⟩
      all_goals rw [k.table]
      exact hc
    · have hr := hp.current_mem hc hh hq
      obtain ⟨g', refused, heq, fin⟩ := hp.linksFinalized hr l.1 o fh ft dh dt len mark
      have kept := fun m hm hpm only p hs clear => hp.finalizeLinks_only hr l.1 o fh ft dh dt len mark (m := m) hm hpm only (p := p) hs clear
      rw [heq] at kept
      obtain ⟨t, e, k⟩ := turn.finalized ho heq
      refine ⟨t, ⟨e, k.touches, k.lines, k.answered, ?_, ?_, ?_, ?_, fun d hd => ?_⟩, k.goesOn,
        ⟨refused, fin.once, fun m => ?_, k.raised⟩, fun m hm hpm => ?_, fun m hm => ?_, fun m hm hpm only p hs clear => ?_⟩
      · rw [k.table]
      · rw [k.table]; exact fin.coils.nextSeq
      · rw [k.table]; exact fin.coils.session
      · rw [k.table]; exact fin.coils.length
      · rw [k.table]; exact fin.coils.mem hd
      · rw [k.table]; exact fin.refused m
      · rw [k.table]; exact fin.others m hm hpm
      · exact fin.finals m (by rwa [k.table] at hm)
      · rw [k.table]; exact kept m hm hpm only p hs clear
  · cases hf : finalSpan o fh ft dh dt len { lo := a, hi := b } with
    | none => exact hf
    | some p => exact absurd (finalSpan_iff.mp hf).1 hb
  · obtain ⟨k, m, x, y, rfl, rfl, hm, hle, heq⟩ := finalSpan_pair hpq hq
    cases o
    · exact ⟨hm, hle, heq⟩
    · exact ⟨Nat.sub_le .., fun h => Nat.sub_le_sub_left (hle h) len, fun h => by show len - x = len - m; rw [heq h]⟩
  · exact finalSpan_tiles hb h0 hn hs hx

end Sys2Proof.Machine
end

section
/-! Import items (R21 to R23): the tests of IMPORT COIL and IMPORT LINK in their order, and the frame that counts their results. -/

namespace Sys2Proof.Machine

/-! ## The frame after an item -/

/-- The bytes of an IMPORT RESULT, `x` and `y` the totals of a session that LAST or ONLY closes (section 11.3). -/
def ImportJob.resultBytes (k : ImportJob) (x y : Nat) : List Byte :=
  [byteOf ((if k.abandoned = none then 0 else 1) + (if k.last then 2 else 0)), byteOf k.accepted, byteOf k.refused]
    ++ (match k.first with | none => [0xFF#8, 0#8] | some (n, e) => [byteOf n, byteOf e.number])
    ++ beOpt 4 (k.abandoned.map (·.1)) ++ beOpt 4 (k.abandoned.map (·.2))
    ++ beOpt 4 (if k.last then some x else none) ++ beOpt 4 (if k.last then some y else none)

theorem importResult_bytes (k : ImportJob) (x y : Nat) : importResult k (if k.last then some (x, y) else none) = k.resultBytes x y := by
  unfold importResult ImportJob.resultBytes
  rcases k.first with _ | ⟨n, e⟩ <;> cases k.last <;> cases k.abandoned <;> simp [beOpt, beBytes_one, byteOf]

/-- What an import frame goes on with, its counts in `k`: the next item, or, after the last, the reply and the session (R21). -/
def ImportGoesOn (f : Frame) (k : ImportJob) (s t : State) : Prop :=
  (k.at_ < k.items.length → t.slc.unit = .table f (.importing k) ∧ t.outgoing = s.outgoing ∧ t.table.session = s.table.session) ∧
  (k.items.length ≤ k.at_ → ∀ q, s.table.session = some q →
    let sums : ImportSession := { code := q.code, accepted := q.accepted + k.accepted, refused := q.refused + k.refused }
    t.table.session = (if k.last then none else some sums) ∧
    Answered s t { kind := 0x86#8, channel := f.channel, tag := f.tag, payload := k.resultBytes sums.accepted sums.refused } none)

theorem State.importDone_session {s : State} {f : Frame} {k : ImportJob} {q : ImportSession} (h : s.table.session = some q) :
    s.importDone f k =
      (let sums : ImportSession := { code := q.code, accepted := q.accepted + k.accepted, refused := q.refused + k.refused }
       State.finish { s with table := { s.table with session := if k.last then none else some sums } }
        (replyTo f 0x86#8 (importResult k (if k.last then some (sums.accepted, sums.refused) else none))) none) := by
  unfold State.importDone
  simp only [h]


theorem ImportJob.count_some (j : ImportJob) (c : Code) : j.count (some c) = { j with
    at_ := j.at_ + 1, refused := j.refused + 1, first := if j.first = none then some (j.at_, c) else j.first } := by
  unfold count
  cases j.first <;> rfl

/-- An item whose turn has come, its result the table `g'`, the refusal code and the notices. -/
theorem State.importItem_settled {s : State} {f : Frame} {j : ImportJob} {g' : Genealogy} {res : Option Code} {ns : List Notice} {c : Instr}
    (hx : exec c s = settle (s.importItem f j (g', res, ns))) (hs : g'.session = s.table.session) (hl : g'.lastTracker = s.table.lastTracker)
    (ht : touched c = [.table, .slc] := by rfl) :
    ∃ t, (exec c s = .next t ∧ Touches [.table, .slc] s t ∧ t.table.lastTracker = s.table.lastTracker) ∧
      t.table = { g' with session := t.table.session } ∧ ImportGoesOn f (j.count res) s t := by
  obtain ⟨t, e, touch⟩ := everyCommandTouchesOnlyItsBlocks c s
  obtain rfl := Host.Outcome.next.inj (e.symm.trans hx)
  rw [ht] at touch
  set u := State.raiseAll { s with table := g' } ns with hu
  have tab : u.table = g' := ((Touches.refl [.slc] { s with table := g' }).raiseAll rfl).table_eq
  have link : SameLink s u := (SameLink.of_slc rfl).trans (State.raiseAll_link { s with table := g' } ns)
  have item : s.importItem f j (g', res, ns) = u.importGo f (j.count res) := rfl
  refine ⟨_, ⟨e, touch, ?_⟩, ?_, fun hlt => ?_, fun hle q hq => ?_⟩
  · rw [State.kick_table, State.importItem_table]
    exact hl
  · rw [State.kick_table]
    exact State.importItem_table ..
  · have go : u.importGo f (j.count res) = u.present f (.importing (j.count res)) := if_pos hlt
    refine ⟨?_, ?_, ?_⟩
    · rw [State.kick_unit, item, go]
      rfl
    · rw [State.kick_outgoing, item, go]
      exact link.outgoing
    · rw [State.kick_table, item, go]
      exact (congrArg Genealogy.session tab).trans hs
  · have go : u.importGo f (j.count res) = _ := (if_neg (Nat.not_lt.mpr hle)).trans
      (State.importDone_session (((congrArg Genealogy.session tab).trans hs).trans hq))
    refine ⟨?_, ?_⟩
    · rw [State.kick_table, item, go]
      rfl
    · rw [item, go]
      dsimp only
      rw [importResult_bytes]
      exact (State.finish_answered ..).of_eq (congrArg List.length link.2.1.symm) link.outgoing.symm (State.kick_unit _) (State.kick_outgoing _)

/-- With no tracker waiting, an import frame's item has its turn. -/
theorem State.importTurn_quiet {s : State} {f : Frame} {j : ImportJob} (hu : s.slc.unit = .table f (.importing j)) (hq : TrackersQuiet s) :
    s.importTurn = (j.items[j.at_]?).map (fun i => (f, j, i)) := by
  have hg : ∀ l, s.grant ≠ some (.tracker l) := by
    intro l
    rw [State.grant_quiet (by rw [hu]; rfl) hq.waits]
    split
    · exact fun h => (nomatch h)
    · cases (ringAfter s.table.lastPlanner).find? (fun c => (s.channels[c]).waits) <;> exact fun h => (nomatch h)
  unfold State.importTurn
  rw [hu]
  split
  · next h => exact absurd h (hg _)
  · next e _ => cases e; rfl
  · next h => exact absurd rfl (h f j)

/-! ## IMPORT COIL by its tests (R22) -/

/-- The flag bytes R22 allows. -/
theorem coilFlags_iff (b : Byte) : (b &&& 0xED#8) = 0#8 ↔ b = 0x00#8 ∨ b = 0x02#8 ∨ b = 0x10#8 ∨ b = 0x12#8 := by
  revert b
  decide

/-- The fields of an imported coil are legal. -/
def CoilLegal (flags : Byte) (len : Nat) (name : Name) : Prop :=
  nameOk name = true ∧ 1 ≤ len ∧ len ≤ 8000000 ∧ (flags = 0x00#8 ∨ flags = 0x02#8 ∨ flags = 0x10#8 ∨ flags = 0x12#8)

/-- The record of an imported coil in slot `h` (R22). -/
def importedCoil (h seq len : Nat) (flags : Byte) (name : Name) : Coil :=
  { handle := h, seq := seq, name := name, indexed := true, origin := .imported, state := .made, length := some len,
    flags := { suspect := flags.getLsbD 1, clamped := flags.getLsbD 4 }, made := none, consumed := none, parents := [], children := [] }

section
variable {g : Genealogy} {held : List Ref} {flags : Byte} {len : Nat} {name : Name}

theorem Genealogy.importCoil_badValue (h : ¬CoilLegal flags len name) : g.importCoil held flags len name = (g, some .badValue, []) := by
  unfold importCoil
  rw [if_pos ?_]
  by_contra hc
  simp only [Bool.or_eq_true, Bool.not_eq_true', decide_eq_true_eq, bne_iff_ne, not_or, Bool.not_eq_false, not_not, coilFlags_iff] at hc
  obtain ⟨⟨⟨h1, h2⟩, h3⟩, h4⟩ := hc
  exact h ⟨h1, by omega, by unfold maxLength at h3; omega, h4⟩

theorem Genealogy.importCoil_legal (h : CoilLegal flags len name) : g.importCoil held flags len name =
    if (g.named name).isSome then (g, some .duplicate, [])
    else if g.exhausted then (g, some .noRoom, [genealogyNotice 6 none (some name)])
    else if !(g.makeRoom held [] 1 0 none).2.1 then ((g.makeRoom held [] 1 0 none).1, some .noRoom, (g.makeRoom held [] 1 0 none).2.2)
    else ({ (g.makeRoom held [] 1 0 none).1.addCoil (importedCoil (g.makeRoom held [] 1 0 none).1.freeCoil g.nextSeq len flags name) with
      nextSeq := g.nextSeq + 1 }, none, (g.makeRoom held [] 1 0 none).2.2) := by
  obtain ⟨h1, h2, h3, h4⟩ := h
  unfold importCoil
  rw [if_neg ?_]
  · rfl
  · simp only [Bool.or_eq_true, Bool.not_eq_true', decide_eq_true_eq, bne_iff_ne, not_or, Bool.not_eq_false, not_not, coilFlags_iff]
    exact ⟨⟨⟨h1, by omega⟩, by unfold maxLength; omega⟩, h4⟩

theorem Genealogy.importCoil_duplicate (h : CoilLegal flags len name) {c : Coil} (hn : g.named name = some c) :
    g.importCoil held flags len name = (g, some .duplicate, []) := by
  rw [importCoil_legal h, hn]
  rfl

theorem Genealogy.importCoil_exhausted (h : CoilLegal flags len name) (hn : g.named name = none) (hx : g.exhausted = true) :
    g.importCoil held flags len name = (g, some .noRoom, [genealogyNotice 6 none (some name)]) := by
  rw [importCoil_legal h, hn, hx]
  rfl

theorem Genealogy.importCoil_full (h : CoilLegal flags len name) (hn : g.named name = none) (hx : g.exhausted = false)
    {ns : List Notice} (hr : g.makeRoom held [] 1 0 none = (g, false, ns)) :
    g.importCoil held flags len name = (g, some .noRoom, ns) := by
  rw [importCoil_legal h, hn, hx, hr]
  rfl

theorem Genealogy.importCoil_created (h : CoilLegal flags len name) (hn : g.named name = none) (hx : g.exhausted = false)
    (hr : g.fits 1 0 = true) : g.importCoil held flags len name =
      ({ g.addCoil (importedCoil g.freeCoil g.nextSeq len flags name) with nextSeq := g.nextSeq + 1 }, none, []) := by
  rw [importCoil_legal h, hn, hx, makeRoom_of_fits hr]
  rfl

end

/-! ## IMPORT LINK by its tests (R23) -/

/-- Both link names have a length from 1 to 16. -/
def LinkNamed (cn pn : Name) : Prop := 1 ≤ cn.length ∧ cn.length ≤ 16 ∧ 1 ≤ pn.length ∧ pn.length ≤ 16

/-- The spans and the lane of an imported link are legal for its coils. -/
def LinkLegal (c p : Coil) (lane : Byte) (cs ps : Ival) (cl pl : Nat) (ln : Lane) : Prop :=
  c.length = some cl ∧ p.length = some pl ∧ Lane.ofCode lane.toNat = some ln ∧ cs.lo < cs.hi ∧ cs.hi ≤ cl ∧ ps.lo < ps.hi ∧ ps.hi ≤ pl

/-- The record of an imported link in slot `h` (R23). -/
def importedLink (h code : Nat) (dir : Byte) (c p : Coil) (cs ps : Ival) (ln : Lane) : Link :=
  { handle := h, child := some c.handle, childSpan := cs, scrap := 0, parent := p.handle, parentSpan := some ps,
    dir := if dir = 0#8 then .same else .reversed, lane := ln, line := code, suspect := c.flags.suspect || p.flags.suspect, source := none }

/-- The imported link overlaps another of its child, or breaks L6 at its parent. -/
def Genealogy.linkOverlaps (g : Genealogy) (c p : Coil) (cs ps : Ival) (ln : Lane) : Bool :=
  (g.linksOf c.parents).any (fun l => l.childSpan.meets cs) || !g.keepsL6 p ps ln

theorem PoolInv.linkOverlaps_iff {g : Genealogy} (h : PoolInv g) {c p : Coil} {cs ps : Ival} {ln : Lane} :
    g.linkOverlaps c p cs ps ln = false ↔
      (∀ m ∈ g.links, m.handle ∈ c.parents → min m.childSpan.hi cs.hi ≤ max m.childSpan.lo cs.lo) ∧
        ∀ m ∈ g.links, m.handle ∈ p.children → ∀ q, m.parentSpan = some q → SpansClear q ps m.lane ln := by
  unfold Genealogy.linkOverlaps
  rw [Bool.or_eq_false_iff, Bool.not_eq_false', h.keepsL6_iff, List.any_eq_false]
  refine and_congr_left' ⟨fun k m hm hc => ?_, fun k m hm => ?_⟩
  · rw [← Ival.not_meets_iff, ← Bool.not_eq_true]
    exact k m (h.mem_linksOf.mpr ⟨hm, hc⟩)
  · obtain ⟨hm, hc⟩ := h.mem_linksOf.mp hm
    rw [Bool.not_eq_true, Ival.not_meets_iff]
    exact k m hm hc

section
variable {g : Genealogy} {held : List Ref} {code : Nat} {dir lane : Byte} {cs ps : Ival} {cn pn : Name} {c p : Coil} {cl pl : Nat} {ln : Lane}

theorem Genealogy.importLink_unnamed (h : ¬LinkNamed cn pn) :
    g.importLink held code dir lane cs ps cn pn = (g, some .badValue, []) := by
  unfold importLink
  exact if_pos (by unfold LinkNamed at h; omega)

theorem Genealogy.importLink_notFound (h : LinkNamed cn pn) (hn : g.named cn = none ∨ g.named pn = none) :
    g.importLink held code dir lane cs ps cn pn = (g, some .notFound, []) := by
  unfold importLink
  rw [if_neg (by unfold LinkNamed at h; omega)]
  rcases hn with hn | hn <;> rw [hn]
  cases g.named cn <;> rfl

theorem Genealogy.importLink_illegal (h : LinkNamed cn pn) (hc : g.named cn = some c) (hp : g.named pn = some p)
    (hl : ∀ cl pl ln, ¬LinkLegal c p lane cs ps cl pl ln) :
    g.importLink held code dir lane cs ps cn pn = (g, some .badValue, []) := by
  unfold importLink
  rw [if_neg (by unfold LinkNamed at h; omega), hc, hp]
  dsimp only
  split
  · next ln cl pl h1 h2 h3 =>
    rw [if_pos ?_]
    by_contra hn
    simp only [Bool.or_eq_true, Ival.empty, decide_eq_true_eq, not_or, Nat.not_le, Nat.not_lt] at hn
    obtain ⟨⟨⟨n1, n2⟩, n3⟩, n4⟩ := hn
    exact hl cl pl ln ⟨h2, h3, h1, n1, n3, n2, n4⟩
  · rfl

theorem Genealogy.importLink_legal (h : LinkNamed cn pn) (hc : g.named cn = some c) (hp : g.named pn = some p)
    (hl : LinkLegal c p lane cs ps cl pl ln) : g.importLink held code dir lane cs ps cn pn =
      if c.seq ≤ p.seq then (g, some .order, [])
      else if g.linkOverlaps c p cs ps ln then (g, some .overlap, [])
      else if p.consumed.isSome then (g, some .inUse, [])
      else if !(g.makeRoom held [c.handle, p.handle] 0 1 none).2.1 then
        ((g.makeRoom held [c.handle, p.handle] 0 1 none).1, some .noRoom, (g.makeRoom held [c.handle, p.handle] 0 1 none).2.2)
      else ((g.makeRoom held [c.handle, p.handle] 0 1 none).1.addLink
        (importedLink (g.makeRoom held [c.handle, p.handle] 0 1 none).1.freeLink code dir c p cs ps ln), none,
          (g.makeRoom held [c.handle, p.handle] 0 1 none).2.2) := by
  obtain ⟨h1, h2, h3, h4, h5, h6, h7⟩ := hl
  unfold importLink
  rw [if_neg (by unfold LinkNamed at h; omega), hc, hp]
  dsimp only
  rw [h1, h2, h3]
  dsimp only
  rw [if_neg ?_]
  · rfl
  · simp only [Bool.or_eq_true, Ival.empty, decide_eq_true_eq, not_or, Nat.not_le, Nat.not_lt]
    exact ⟨⟨⟨h4, h6⟩, h5⟩, h7⟩

end

/-! ## The statement -/

section
variable {s : State} {f : Frame} {j : ImportJob} (hu : s.slc.unit = .table f (.importing j)) (hq : TrackersQuiet s)
include hu hq

theorem State.importCoil_exec {flags : Byte} {len : Nat} {name : Name} (hi : j.items[j.at_]? = some (.coil flags len name)) :
    exec .importCoil s = settle (s.importItem f j (s.table.importCoil s.heldRefs flags len name)) := by
  show execImportCoil s = _
  unfold execImportCoil
  rw [State.importTurn_quiet hu hq, hi]
  rfl

theorem State.importLink_exec {dir lane : Byte} {cs ps : Ival} {cn pn : Name} (hi : j.items[j.at_]? = some (.link dir lane cs ps cn pn)) :
    exec .importLink s = settle (s.importItem f j
      (s.table.importLink s.heldRefs ((s.table.session.map (·.code)).getD 0) dir lane cs ps cn pn)) := by
  show execImportLink s = _
  unfold execImportLink
  rw [State.importTurn_quiet hu hq, hi]
  rfl

end

/-- An item refused changes no record (R21). -/
theorem State.itemRefused {s : State} {f : Frame} {j : ImportJob} {c : Instr} {k : Code} {ns : List Notice} {r : Genealogy × Option Code × List Notice}
    (hx : exec c s = settle (s.importItem f j r)) (hr : r = (s.table, some k, ns)) (ht : touched c = [.table, .slc] := by rfl) :
    ∃ t, (exec c s = .next t ∧ Touches [.table, .slc] s t ∧ t.table.lastTracker = s.table.lastTracker) ∧
      t.table = { s.table with session := t.table.session } ∧
      ImportGoesOn f { j with at_ := j.at_ + 1, refused := j.refused + 1, first := if j.first = none then some (j.at_, k) else j.first } s t := by
  subst hr
  rw [← ImportJob.count_some]
  exact State.importItem_settled hx rfl rfl ht

/-- An item accepted leaves the table its operation made. -/
theorem State.itemAccepted {s : State} {f : Frame} {j : ImportJob} {c : Instr} {g' : Genealogy} {ns : List Notice}
    {r : Genealogy × Option Code × List Notice} (hx : exec c s = settle (s.importItem f j r)) (hr : r = (g', none, ns))
    (hs : g'.session = s.table.session) (hl : g'.lastTracker = s.table.lastTracker) (ht : touched c = [.table, .slc] := by rfl) :
    ∃ t, ((exec c s = .next t ∧ Touches [.table, .slc] s t ∧ t.table.lastTracker = s.table.lastTracker) ∧
      ImportGoesOn f { j with at_ := j.at_ + 1, accepted := j.accepted + 1 } s t) ∧ t.table = { g' with session := t.table.session } := by
  subst hr
  obtain ⟨t, h1, h2, h3⟩ := State.importItem_settled hx hs hl ht
  exact ⟨t, ⟨h1, h3⟩, h2⟩

/-- Settles O45: the tests of an import coil and of an import link, each in their order, and the frame that goes on. -/
theorem importItemsRecorded : Obligations.ImportItemsRecorded := by
  intro f j s hu hq hp
  dsimp only
  refine ⟨fun flags len name hi => ?_, fun dir lane cs ps cn pn hi hn => ?_⟩
  · have hx := State.importCoil_exec hu hq hi
    have unnamed (h : ∀ c, ¬(c ∈ s.table.coils ∧ c.indexed = true ∧ c.name = name)) : s.table.named name = none :=
      Genealogy.named_none.mpr fun c hc hi hn => h c ⟨hc, hi, hn⟩
    refine ⟨fun hl => State.itemRefused hx (Genealogy.importCoil_badValue hl), fun hl hk => ?_, fun hl hk hfull => ?_,
      fun hl hk hseq h1 h2 => ?_⟩
    · cases hname : s.table.named name with
      | none => exact absurd (fun c hc => Genealogy.named_none.mp hname c hc.1 hc.2.1 hc.2.2) hk
      | some c => exact State.itemRefused hx (Genealogy.importCoil_duplicate hl hname)
    · by_cases hseq : 4294967295 < s.table.nextSeq
      · exact State.itemRefused hx (Genealogy.importCoil_exhausted hl (unnamed hk) (Genealogy.exhausted_iff.mpr hseq))
      · obtain ⟨hlen, hstuck⟩ := hfull.resolve_left hseq
        have spared : ∀ c ∈ s.table.coils, s.table.eligible s.heldRefs c = true → c.handle ∈ ([] : List Nat) := fun c hc he =>
          State.spared (new := []) hp ((hstuck c hc).imp_right (Or.imp_right .inl)) he
        exact State.itemRefused hx (Genealogy.importCoil_full hl (unnamed hk) (Genealogy.not_exhausted (Nat.not_lt.mp hseq))
          (Genealogy.makeRoom_stuck (Genealogy.not_fits (.inl (by omega))) spared))
    · obtain ⟨t, k, tab⟩ := State.itemAccepted hx (Genealogy.importCoil_created hl (unnamed hk) (Genealogy.not_exhausted hseq)
        (Genealogy.fits_iff.mpr ⟨h1, h2⟩)) rfl rfl
      refine ⟨t, k, ?_, ?_, importedCoil s.table.freeCoil s.table.nextSeq len flags name, s.table.freeCoil_lowest, rfl, fun d => ?_⟩
      all_goals rw [tab]
      · rfl
      · exact Genealogy.mem_addCoil
  · have hx := State.importLink_exec hu hq hi
    refine ⟨fun h => State.itemRefused hx (Genealogy.importLink_unnamed h), fun h hk => ?_, fun c p h hc hpn => ⟨fun hl => ?_, fun cl pl ln hl => ?_⟩⟩
    · have unnamed (n : Name) (h : ∀ c, ¬(c ∈ s.table.coils ∧ c.indexed = true ∧ c.name = n)) : s.table.named n = none :=
        Genealogy.named_none.mpr fun c hc hi hn => h c ⟨hc, hi, hn⟩
      exact State.itemRefused hx (Genealogy.importLink_notFound h (hk.imp (unnamed cn) (unnamed pn)))
    all_goals
      have child : s.table.named cn = some c := hc.2.2 ▸ hp.named_mem hn hc.1 hc.2.1
      have parent : s.table.named pn = some p := hpn.2.2 ▸ hp.named_mem hn hpn.1 hpn.2.1
    · exact State.itemRefused hx (Genealogy.importLink_illegal h child parent hl)
    · rw [Genealogy.importLink_legal h child parent hl] at hx
      have clear := hp.linkOverlaps_iff (c := c) (p := p) (cs := cs) (ps := ps) (ln := ln)
      refine ⟨fun ho => ?_, fun ho hk => ?_, fun ho hk hcon => ?_, fun ho hk hcon hlen hstuck => ?_, fun ho hk hcon h1 h2 => ?_⟩
      · exact State.itemRefused hx (if_pos ho)
      all_goals rw [if_neg (Nat.not_le.mpr ho)] at hx
      · exact State.itemRefused hx (if_pos (by by_contra hov; exact hk (clear.mp (Bool.not_eq_true _ ▸ hov))))
      all_goals rw [if_neg (by rw [clear.mpr hk]; exact Bool.false_ne_true)] at hx
      · exact State.itemRefused hx (if_pos (Option.isSome_iff_ne_none.mpr hcon))
      all_goals rw [if_neg (by rw [hcon]; exact Bool.false_ne_true)] at hx
      · have spared : ∀ d ∈ s.table.coils, s.table.eligible s.heldRefs d = true → d.handle ∈ [c.handle, p.handle] := by
          intro d hd he
          rcases hstuck d hd with hst | heq | heq
          · exact absurd (State.spared (new := []) hp (hst.imp_right (Or.imp_right .inl)) he) List.not_mem_nil
          · exact heq ▸ .head _
          · exact heq ▸ .tail _ (.head _)
        rw [Genealogy.makeRoom_stuck (Genealogy.not_fits (.inr (by omega))) spared] at hx
        exact State.itemRefused hx rfl
      · rw [Genealogy.makeRoom_of_fits (Genealogy.fits_iff.mpr ⟨h1, h2⟩)] at hx
        set m := importedLink s.table.freeLink ((s.table.session.map (·.code)).getD 0) dir c p cs ps ln
        have rel := s.table.addLink_relisted m
        obtain ⟨t, k, tab⟩ := State.itemAccepted hx rfl rel.session rel.lastTracker
        refine ⟨t, k, ?_, ?_, fun d hd => ?_, m, s.table.freeLink_lowest, rfl, fun x => ?_⟩
        all_goals rw [tab]
        · exact rel.nextSeq
        · exact rel.length
        · exact rel.mem hd
        · exact Genealogy.mem_addLink

end Sys2Proof.Machine
end

section
/-! # The walk of a plan (R130 to R135): gaps, links taken, levels answered -/

namespace Sys2Proof.Machine

/-! ## Gaps -/

theorem Ival.empty_iff {x : Ival} : x.empty = true ↔ x.hi ≤ x.lo := decide_eq_true_iff

theorem Ival.not_empty_iff {x : Ival} : ¬ x.empty = true ↔ x.lo < x.hi := Ival.empty_iff.not.trans Nat.not_le

theorem gapAt_of_empty {r : Run} {p : Play} {w : Window} {i : Nat} {lv : Level} {x : Ival} {g : GapReason} (hx : x.hi ≤ x.lo) :
    gapAt r p w i lv x g = w := by
  simp [gapAt, Ival.empty, hx]

theorem gapAt_of_image {r : Run} {p : Play} {w : Window} {i : Nat} {lv : Level} {x t : Ival} {g : GapReason} (hx : x.lo < x.hi)
    (ht : imageUp lv.stages x = some t) : gapAt r p w i lv x g = addSpan r p w i t (.gap g) := by
  simp [gapAt, Ival.empty, ht, Nat.not_le.mpr hx]

/-! ## Taking a link (R131) -/

section
variable {r : Run} {p : Play} {w : Window} {i : Nat} {lv : Level} {lc : LinkCopy} {x : Ival}

/-- The stretch of a level no link has covered, up to a part `x` of what is left. -/
def Level.before (lv : Level) (x : Ival) : Ival :=
  if lv.reversed then { lo := x.hi, hi := lv.cursor } else { lo := lv.cursor, hi := x.lo }

/-- A level walked past a part `x` of what was left. -/
def Level.passed (lv : Level) (x : Ival) : Level := { lv with cursor := if lv.reversed then x.lo else x.hi }

theorem takeLink_of_empty (hx : lc.link.childSpan.cut lv.remainder = x) (he : x.hi ≤ x.lo) : takeLink r p w i lv lc = (w, lv, none) := by
  simp [takeLink, hx, Ival.empty, he]

theorem takeLink_pending (hx : lc.link.childSpan.cut lv.remainder = x) (hne : x.lo < x.hi) (hp : lc.link.parentSpan = none) :
    takeLink r p w i lv lc = (gapAt r p (gapAt r p w i lv (lv.before x) .noOrigin) i lv x .pending, lv.passed x, none) := by
  have hst : lc.link.stage = none := by unfold Link.stage; rw [hp]; cases lc.link.child <;> rfl
  simp [takeLink, hx, Ival.empty, Nat.not_le.mpr hne, hst, Level.before, Level.passed]

/-- A FINAL link to a coil, taken: DEPTH at the limit, nothing where its image is empty, else the level below. -/
theorem takeLink_final {q : Ival} {c : Nat} {far : Name × Ref} (hx : lc.link.childSpan.cut lv.remainder = x) (hne : x.lo < x.hi)
    (hp : lc.link.parentSpan = some q) (hc : lc.link.child = some c) (hf : lc.far = some far) :
    let st : Stage := { child := lc.link.childSpan, parent := q, dir := lc.link.dir }
    let w1 := gapAt r p w i lv (lv.before x) .noOrigin
    (p.depth ≤ lv.depth → takeLink r p w i lv lc = (gapAt r p w1 i lv x .depth, lv.passed x, none)) ∧
    (lv.depth < p.depth → (st.boundary x).hi ≤ (st.boundary x).lo → takeLink r p w i lv lc = (w1, lv.passed x, none)) ∧
    (lv.depth < p.depth → (st.boundary x).lo < (st.boundary x).hi →
      takeLink r p w i lv lc = (w1, lv.passed x, some (lv.below lc.link st far.2 (st.boundary x)))) := by
  intro st w1
  have hst : lc.link.stage = some st := by unfold Link.stage; rw [hp, hc]
  have htake : takeLink r p w i lv lc =
      if p.depth ≤ lv.depth then (gapAt r p w1 i lv x .depth, lv.passed x, none)
      else if (st.boundary x).empty then (w1, lv.passed x, none)
      else (w1, lv.passed x, some (lv.below lc.link st far.2 (st.boundary x))) := by
    simp only [takeLink, hx, if_neg (Ival.not_empty_iff.mpr hne), hst, hf]
    rfl
  refine ⟨fun hd => ?_, fun hd he => ?_, fun hd hfull => ?_⟩
  · rw [htake, if_pos hd]
  · rw [htake, if_neg (Nat.not_le.mpr hd), if_pos (Ival.empty_iff.mpr he)]
  · rw [htake, if_neg (Nat.not_le.mpr hd), if_neg (Ival.not_empty_iff.mpr hfull)]

end

theorem flip_eq_ite (b : Bool) (d : Dir) : flip b d = if d = .same then b else !b := by
  cases d <;> rfl

/-- The level below a link in figures: turned where the link is REVERSED, walked from the end the target's cells come first at. -/
theorem Level.below_eq (lv : Level) (m : Link) (st : Stage) (far : Ref) (y : Ival) :
    lv.below m st far y =
      (let turned : Bool := if m.dir = .same then lv.reversed else !lv.reversed
       { coil := far, span := y, stages := st :: lv.stages, depth := lv.depth + 1, reversed := turned, suspect := lv.suspect || m.suspect,
         hasParents := false, links := [], next := none, cursor := if turned then y.hi else y.lo, via := none }) := by
  simp only [Level.below, flip_eq_ite]

theorem Level.fill_eq (lv : Level) (a : PlanCoil) :
    lv.fill a = { lv with hasParents := a.hasParents, next := a.next,
                          links := if lv.reversed = true ∧ a.next = none then (lv.links ++ a.links).reverse else lv.links ++ a.links } := by
  simp [Level.fill]

/-! ## Going on with the walk -/

/-- A level whose links are all taken: the rest of it is NO ORIGIN, and the walk goes on above it. -/
theorem planGo_of_no_links {r : Run} {p : Play} {w : Window} {pl : Planner} {lv : Level} {above : List Level} {c : Ref} {n : Nat}
    (hst : pl.stack = lv :: above) (hb : beyond w lv = false) (hn : lv.next = none) (hl : lv.links = []) :
    planGo r p c (n + 1) w pl = planGo r p c n (gapAt r p w pl.trace lv lv.remainder .noOrigin) { pl with stack := above } := by
  have hneed : lv.needsMore = none := by simp [Level.needsMore, hn]
  rw [planGo]
  simp [hst, hb, hneed, hl]

section
variable {r : Run} {p : Play} {w : Window} {pl : Planner} {lv : Level} {above : List Level}

theorem planAnswer_more_none (hst : pl.stack = lv :: above) (ha : pl.await = some .more) (hd : 0 < lv.depth) :
    planAnswer r p w pl none =
      some (gapAt r p w pl.trace lv lv.remainder .retired, { pl with stack := above, await := none }) := by
  simp [planAnswer, hst, ha, hd.ne']

theorem planAnswer_more_some (hst : pl.stack = lv :: above) (ha : pl.await = some .more) (a : PlanCoil) :
    planAnswer r p w pl (some a) = some (w, { pl with await := none, stack := lv.fill a :: above }) := by
  simp [planAnswer, hst, ha]

theorem planAnswer_visit_none (ha : pl.await = some (.visit lv)) (hd : 0 < lv.depth) :
    planAnswer r p w pl none = some (gapAt r p w pl.trace lv lv.span .retired, { pl with await := none }) := by
  simp [planAnswer, ha, hd.ne']

/-- The target itself found retired leaves no plan to go on with. -/
theorem planAnswer_target_retired (ha : pl.await = some (.visit lv)) (hd : lv.depth = 0) : planAnswer r p w pl none = none := by
  simp [planAnswer, ha, hd]

end

/-! ## A coil answered (R130, R133) -/

section
variable {r : Run} {p : Play} {w : Window} {i : Nat} {tr : Trace} {lv : Level} {a : PlanCoil}

theorem visited_stage {st : Stage} (ht : p.traces[i]? = some tr) (hp : passageFor tr a.coil = .stage st) :
    visited r p w i lv a = (dataAt r p w i lv a.coil st, none) := by
  simp [visited, ht, hp]

theorem visited_inProcess (ht : p.traces[i]? = some tr) (hp : passageFor tr a.coil = .inProcess) :
    visited r p w i lv a = (gapAt r p w i lv lv.span .inProcess, none) := by
  simp [visited, ht, hp]

theorem visited_absent (ht : p.traces[i]? = some tr) (hp : passageFor tr a.coil = .absent) :
    visited r p w i lv a =
      if a.hasParents then (w, some (lv.fill a)) else (gapAt r p w i lv lv.span .notPassed, none) := by
  simp [visited, ht, hp]

end

section
variable {tr : Trace} {c : Coil}

theorem passageFor_made {m : MadePassage} {len : Nat} (hs : tr.side = .delivery) (hm : c.made = some m) (hl : c.length = some len)
    (hline : m.line = tr.line) (hlane : m.lane = tr.lane ∨ tr.lane = .whole) : passageFor tr c = .stage (madeStage m len) := by
  simp [passageFor, hs, hm, hl, hline, hlane]

theorem passageFor_consumed {q : ConsumedPassage} {ft len : Nat} (hs : tr.side = .feed) (hc : c.consumed = some q)
    (hline : q.line = tr.line) (hft : q.ft = some ft) (hl : c.length = some len) (hlt : q.fh < ft) (hle : ft - q.fh ≤ 200000000) :
    passageFor tr c = .stage { child := { lo := 0, hi := len }, parent := { lo := q.fh, hi := ft }, dir := orientDir q.orient } := by
  simp [passageFor, hs, hc, hline, hft, consumedStage, hl, hlt, hle]

theorem passageFor_inProcess {q : ConsumedPassage} (hs : tr.side = .feed) (hc : c.consumed = some q) (hline : q.line = tr.line)
    (hft : q.ft = none) : passageFor tr c = .inProcess := by
  simp [passageFor, hs, hc, hline, hft]

theorem passageFor_delivery_absent (hs : tr.side = .delivery)
    (hm : ∀ m, c.made = some m → m.line ≠ tr.line ∨ m.lane ≠ tr.lane ∧ tr.lane ≠ .whole) : passageFor tr c = .absent := by
  unfold passageFor
  rw [hs]
  cases hmade : c.made with
  | none => rfl
  | some m =>
    cases hlen : c.length with
    | none => rfl
    | some len =>
      have hno : ¬ (m.line = tr.line ∧ (m.lane = tr.lane ∨ tr.lane = .whole)) := by
        rintro ⟨hline, hlane⟩
        obtain h | ⟨h1, h2⟩ := hm m hmade
        · exact h hline
        · exact hlane.elim h1 h2
      simp [hno]

theorem consumedStage_none {q : ConsumedPassage} {len : Option Nat}
    (h : len = none ∨ ∀ ft, q.ft = some ft → ft ≤ q.fh ∨ 200000000 < ft - q.fh) : consumedStage q len = none := by
  unfold consumedStage
  cases hft : q.ft with
  | none => rfl
  | some ft =>
    cases hlen : len with
    | none => rfl
    | some l =>
      have hno : ¬ (q.fh < ft ∧ ft - q.fh ≤ 200000000) := by
        have := h.resolve_left (by simp [hlen]) ft hft
        omega
      simp only [if_neg hno]

theorem passageFor_feed_absent (hs : tr.side = .feed)
    (hq : ∀ q, c.consumed = some q → q.line ≠ tr.line ∨ q.ft ≠ none ∧
      (c.length = none ∨ ∀ ft, q.ft = some ft → ft ≤ q.fh ∨ 200000000 < ft - q.fh)) : passageFor tr c = .absent := by
  unfold passageFor
  rw [hs]
  cases hcons : c.consumed with
  | none => rfl
  | some q =>
    obtain hline | ⟨hft, hlen⟩ := hq q hcons
    · simp [hline]
    · simp [hft, consumedStage_none hlen]

end

/-! ## DATA spans of the target's own level -/

/-- The identity map of a coil's cells: an interval within the coil is carried to the same cells behind the passage's head. -/
theorem Stage.boundary_shift {len head : Nat} {x : Ival} (hx : x.lo < x.hi) (hle : x.hi ≤ len) :
    ({ child := { lo := 0, hi := len }, parent := { lo := head, hi := head + len }, dir := .same } : Stage).boundary x =
      { lo := head + x.lo, hi := head + x.hi } := by
  have hcut : x.cut { lo := 0, hi := len } = x := by
    simp [Ival.cut, hle]
  have hpos : 0 < len := by omega
  have hceil (n : Nat) : ceilDiv (n * len) len = n := by rw [Nat.mul_comm]; exact ceilDiv_mul hpos n
  simp [Stage.boundary, hcut, Ival.empty, Nat.not_le.mpr hx, Ival.len, hceil]

/-- R133 at the target's own level: a stage's DATA span over its source coordinates, none where they hold no cell. -/
theorem dataAt_target {r : Run} {p : Play} {w : Window} {i : Nat} {lv : Level} {c : Coil} {st : Stage} (hst : lv.stages = [])
    (hrev : lv.reversed = false) (hne : lv.span.lo < lv.span.hi) :
    dataAt r p w i lv c st =
      if (st.boundary lv.span).empty then w
      else addSpan r p w i lv.span (.data (st.boundary lv.span) [st]
        (some { name := c.name, coil := { handle := c.handle, seq := c.seq }, pos := lv.span.lo }) (lv.suspect || c.flags.suspect)) := by
  have hanc : boundaryDown [] lv.span = some lv.span := by simp [boundaryDown, Ival.empty, Nat.not_le.mpr hne]
  have hsrc : boundaryDown [st] lv.span = if (st.boundary lv.span).empty then none else some (st.boundary lv.span) := by
    simp only [boundaryDown, Ival.empty, decide_eq_true_eq, if_neg (Nat.not_le.mpr hne)]
  unfold dataAt
  rw [hst]
  simp only [imageUp, hanc, hsrc]
  by_cases he : (st.boundary lv.span).empty = true
  · simp only [if_pos he]
  · simp [if_neg he, hrev, Coil.ref]

section
variable {r : Run} {p : Play} {w : Window} {i : Nat} {tr : Trace} {lv : Level} {a : PlanCoil}

/-- R130 at the target's own level: the DATA span of a coil made on the trace's line. -/
theorem visited_made {m : MadePassage} {len : Nat} (htr : p.traces[i]? = some tr) (hst : lv.stages = []) (hrev : lv.reversed = false)
    (hp : passageFor tr a.coil = .stage (madeStage m len)) (hne : lv.span.lo < lv.span.hi) (hle : lv.span.hi ≤ len) :
    visited r p w i lv a = (addSpan r p w i lv.span (.data { lo := m.head + lv.span.lo, hi := m.head + lv.span.hi } [madeStage m len]
      (some { name := a.coil.name, coil := { handle := a.coil.handle, seq := a.coil.seq }, pos := lv.span.lo })
      (lv.suspect || a.coil.flags.suspect)), none) := by
  have hsrc : (madeStage m len).boundary lv.span = { lo := m.head + lv.span.lo, hi := m.head + lv.span.hi } :=
    Stage.boundary_shift hne hle
  have hfull : ¬ ({ lo := m.head + lv.span.lo, hi := m.head + lv.span.hi } : Ival).empty = true :=
    Ival.not_empty_iff.mpr (Nat.add_lt_add_left hne _)
  rw [visited_stage htr hp, dataAt_target hst hrev hne, hsrc, if_neg hfull]

/-- R130, R133 at the target's own level: the DATA span of a passage, none where its source coordinates hold no cell. -/
theorem visited_target {st : Stage} (htr : p.traces[i]? = some tr) (hst : lv.stages = []) (hrev : lv.reversed = false)
    (hp : passageFor tr a.coil = .stage st) (hne : lv.span.lo < lv.span.hi) :
    ((st.boundary lv.span).hi ≤ (st.boundary lv.span).lo → visited r p w i lv a = (w, none)) ∧
    ((st.boundary lv.span).lo < (st.boundary lv.span).hi →
      visited r p w i lv a = (addSpan r p w i lv.span (.data (st.boundary lv.span) [st]
        (some { name := a.coil.name, coil := { handle := a.coil.handle, seq := a.coil.seq }, pos := lv.span.lo })
        (lv.suspect || a.coil.flags.suspect)), none)) := by
  rw [visited_stage htr hp, dataAt_target hst hrev hne]
  exact ⟨fun he => by rw [if_pos (Ival.empty_iff.mpr he)], fun hfull => by rw [if_neg (Ival.not_empty_iff.mpr hfull)]⟩

end

end Sys2Proof.Machine
end

section
/-! # The plan list (R129, R132, R136, R137): its order, its limit of 64 spans, the spans a window loses -/

namespace Sys2Proof.Machine

/-! ## Order and place of a span -/

/-- Order of a plan list (R129): by target start, then by trace. -/
def Span.Ordered (x y : Span) : Prop := x.target.lo < y.target.lo ∨ x.target.lo = y.target.lo ∧ x.trace ≤ y.trace

/-- Two GAP spans of one trace and reason neither abut nor overlap (R132). -/
def Span.Apart (x y : Span) : Prop :=
  ∀ g, x.kind = .gap g → y.kind = .gap g → x.trace = y.trace → x.target.hi < y.target.lo ∨ y.target.hi < x.target.lo

/-- A span that holds a position lies within an interval. -/
def Span.Within (v : Ival) (x : Span) : Prop := v.lo ≤ x.target.lo ∧ x.target.lo < x.target.hi ∧ x.target.hi ≤ v.hi

/-- A list of spans in order, its gaps joined, each span within `v`. -/
structure Spaced (v : Ival) (xs : List Span) : Prop where
  ordered : xs.Pairwise Span.Ordered
  apart   : xs.Pairwise Span.Apart
  within  : ∀ x ∈ xs, x.Within v

theorem Span.Apart.symm {x y : Span} (h : x.Apart y) : y.Apart x :=
  fun g hy hx ht => (h g hx hy ht.symm).symm

theorem spanBefore_iff {x y : Span} : spanBefore x y = true ↔ ¬ y.Ordered x := by
  simp only [spanBefore, Span.Ordered, Bool.or_eq_true, Bool.and_eq_true, decide_eq_true_eq, beq_iff_eq]
  omega

theorem Span.Ordered.of_not {x y : Span} (h : ¬ y.Ordered x) : x.Ordered y := by
  unfold Span.Ordered at *
  omega

theorem Span.Ordered.trans {x y z : Span} (h1 : x.Ordered y) (h2 : y.Ordered z) : x.Ordered z := by
  unfold Span.Ordered at *
  omega

/-! ## Inserting a span -/

theorem insertSpan_perm (x : Span) (ys : List Span) : (insertSpan x ys).Perm (x :: ys) := by
  induction ys with
  | nil => exact .refl _
  | cons y ys ih =>
    unfold insertSpan
    split
    · exact .refl _
    · exact (ih.cons y).trans (.swap x y ys)

theorem mem_insertSpan {x y : Span} {ys : List Span} : y ∈ insertSpan x ys ↔ y = x ∨ y ∈ ys := by
  rw [(insertSpan_perm x ys).mem_iff, List.mem_cons]

theorem insertSpan_ordered (x : Span) {ys : List Span} (h : ys.Pairwise Span.Ordered) : (insertSpan x ys).Pairwise Span.Ordered := by
  induction ys with
  | nil => exact List.pairwise_singleton ..
  | cons y ys ih =>
    obtain ⟨hy, hys⟩ := List.pairwise_cons.mp h
    unfold insertSpan
    split
    next hb =>
      have hxy : x.Ordered y := .of_not (spanBefore_iff.mp hb)
      refine List.pairwise_cons.mpr ⟨fun z hz => ?_, h⟩
      obtain rfl | hz := List.mem_cons.mp hz
      · exact hxy
      · exact hxy.trans (hy z hz)
    next hb =>
      have hyx : y.Ordered x := by simpa [spanBefore_iff] using hb
      refine List.pairwise_cons.mpr ⟨fun z hz => ?_, ih hys⟩
      obtain rfl | hz := mem_insertSpan.mp hz
      · exact hyx
      · exact hy z hz

theorem Spaced.insert {v : Ival} {x : Span} {ys : List Span} (h : Spaced v ys) (hx : x.Within v) (ha : ∀ y ∈ ys, x.Apart y) :
    Spaced v (insertSpan x ys) where
  ordered := insertSpan_ordered x h.ordered
  apart := ((insertSpan_perm x ys).pairwise_iff Span.Apart.symm).mpr (List.pairwise_cons.mpr ⟨ha, h.apart⟩)
  within := fun y hy => by
    obtain rfl | hy := mem_insertSpan.mp hy
    · exact hx
    · exact h.within y hy

theorem Spaced.sublist {v : Ival} {xs ys : List Span} (h : Spaced v ys) (hs : xs.Sublist ys) : Spaced v xs where
  ordered := h.ordered.sublist hs
  apart := h.apart.sublist hs
  within := fun x hx => h.within x (hs.subset hx)

theorem Spaced.apart_of_ne {v : Ival} {ys : List Span} (h : Spaced v ys) {x y : Span} (hx : x ∈ ys) (hy : y ∈ ys) (hne : x ≠ y) :
    x.Apart y :=
  have : Std.Symm Span.Apart := ⟨fun _ _ => Span.Apart.symm⟩
  h.apart.forall hx hy hne

/-! ## Joining gaps (R132) -/

theorem le_foldl_min {α : Type} (f : α → Nat) (k : Nat) (ys : List α) (b : Nat) :
    k ≤ ys.foldl (fun m y => min m (f y)) b ↔ k ≤ b ∧ ∀ y ∈ ys, k ≤ f y := by
  induction ys generalizing b with
  | nil => simp
  | cons y ys ih => simp [ih, and_assoc]

theorem foldl_max_le {α : Type} (f : α → Nat) (k : Nat) (ys : List α) (b : Nat) :
    ys.foldl (fun m y => max m (f y)) b ≤ k ↔ b ≤ k ∧ ∀ y ∈ ys, f y ≤ k := by
  induction ys generalizing b with
  | nil => simp
  | cons y ys ih => simp [ih, and_assoc]

theorem le_joinSpans_lo {x : Span} {ys : List Span} {k : Nat} :
    k ≤ (joinSpans x ys).target.lo ↔ k ≤ x.target.lo ∧ ∀ y ∈ ys, k ≤ y.target.lo :=
  le_foldl_min (fun y : Span => y.target.lo) k ys x.target.lo

theorem joinSpans_hi_le {x : Span} {ys : List Span} {k : Nat} :
    (joinSpans x ys).target.hi ≤ k ↔ x.target.hi ≤ k ∧ ∀ y ∈ ys, y.target.hi ≤ k :=
  foldl_max_le (fun y : Span => y.target.hi) k ys x.target.hi

theorem joinSpans_lo_le (x : Span) (ys : List Span) : (joinSpans x ys).target.lo ≤ x.target.lo :=
  (le_joinSpans_lo.mp le_rfl).1

theorem le_joinSpans_hi (x : Span) (ys : List Span) : x.target.hi ≤ (joinSpans x ys).target.hi :=
  (joinSpans_hi_le.mp le_rfl).1

theorem joins_iff {x y : Span} : joins x y = true ↔ ∃ g, x.kind = .gap g ∧ y.kind = .gap g ∧ x.trace = y.trace ∧
    x.target.lo ≤ y.target.hi ∧ y.target.lo ≤ x.target.hi := by
  unfold joins
  cases x.kind <;> cases y.kind <;> simp [and_assoc]
  · grind

theorem joinSpans_within {v : Ival} {x : Span} {ys : List Span} (hx : x.Within v) (hys : ∀ y ∈ ys, y.Within v) :
    (joinSpans x ys).Within v := by
  obtain ⟨hlo, hne, hhi⟩ := hx
  have h1 := joinSpans_lo_le x ys
  have h2 := le_joinSpans_hi x ys
  exact ⟨le_joinSpans_lo.mpr ⟨hlo, fun y hy => (hys y hy).1⟩, by omega, joinSpans_hi_le.mpr ⟨hhi, fun y hy => (hys y hy).2.2⟩⟩

/-- What is not joined with a span stays apart from the span that covers it and all that are. -/
theorem joinSpans_apart {v : Ival} {x : Span} {xs : List Span} (h : Spaced v xs) (hx : x.Within v) {y : Span} (hy : y ∈ xs)
    (hj : joins x y = false) : (joinSpans x (xs.filter (joins x))).Apart y := by
  intro g hxg hyg ht
  have hxk : x.kind = .gap g := hxg
  have hxt : x.trace = y.trace := ht
  have hfar : ¬ (x.target.lo ≤ y.target.hi ∧ y.target.lo ≤ x.target.hi) := fun hm =>
    Bool.false_ne_true (hj.symm.trans (joins_iff.mpr ⟨g, hxk, hyg, hxt, hm⟩))
  obtain ⟨-, hyne, -⟩ := h.within y hy
  obtain ⟨-, hxne, -⟩ := hx
  have hother : ∀ z ∈ xs.filter (joins x), z.Within v ∧ x.target.lo ≤ z.target.hi ∧ z.target.lo ≤ x.target.hi ∧
      (z.target.hi < y.target.lo ∨ y.target.hi < z.target.lo) := by
    intro z hz
    obtain ⟨hzx, hzj⟩ := List.mem_filter.mp hz
    obtain ⟨g', hg', hzk, hzt, hlo, hhi⟩ := joins_iff.mp hzj
    obtain rfl : g = g' := by rw [hxk] at hg'; exact SpanKind.gap.inj hg'
    refine ⟨h.within z hzx, hlo, hhi, ?_⟩
    have hne : z ≠ y := fun heq => by rw [heq, hj] at hzj; exact Bool.false_ne_true hzj
    exact h.apart_of_ne hzx hy hne g hzk hyg (hzt.symm.trans hxt)
  have hside : y.target.hi < x.target.lo ∨ x.target.hi < y.target.lo := by omega
  obtain hbelow | habove := hside
  · refine .inr (le_joinSpans_lo.mpr ⟨hbelow, fun z hz => ?_⟩)
    obtain ⟨⟨-, hzne, -⟩, hlo, hhi, hzy⟩ := hother z hz
    omega
  · have hle : (joinSpans x (xs.filter (joins x))).target.hi ≤ y.target.lo - 1 :=
      joinSpans_hi_le.mpr ⟨by omega, fun z hz => by
        obtain ⟨⟨-, hzne, -⟩, hlo, hhi, hzy⟩ := hother z hz
        omega⟩
    exact .inl (by omega)

/-! ## Cutting a span (R136) -/

theorem cutSpan_none {hi : Nat} {x : Span} (h : hi ≤ x.target.lo) : cutSpan hi x = none := by
  simp [cutSpan, h]

theorem cutSpan_some {hi : Nat} {x z : Span} (h : cutSpan hi x = some z) :
    x.target.lo < hi ∧ z.trace = x.trace ∧ z.target = { lo := x.target.lo, hi := min x.target.hi hi } ∧
      ∀ g, z.kind = .gap g → x.kind = .gap g := by
  unfold cutSpan at h
  split at h
  · cases h
  next hlo =>
    refine ⟨Nat.lt_of_not_le hlo, ?_⟩
    split at h
    next hle =>
      cases h
      exact ⟨rfl, by rw [Nat.min_eq_left hle], fun _ hg => hg⟩
    next hle =>
      have hmin : min x.target.hi hi = hi := Nat.min_eq_right (Nat.le_of_not_le hle)
      rw [hmin]
      split at h
      next g hk =>
        cases h
        exact ⟨rfl, rfl, fun _ hg => hk.trans hg⟩
      next hk =>
        dsimp only at h
        split at h
        · cases h
        · cases h
          exact ⟨rfl, rfl, fun _ hg => nomatch hg⟩

/-- A GAP span that starts below the cut is kept. -/
theorem cutSpan_gap {hi : Nat} {x : Span} {g : GapReason} (hk : x.kind = .gap g) (hlo : x.target.lo < hi) :
    cutSpan hi x = some { x with target := { lo := x.target.lo, hi := min x.target.hi hi }, kind := .gap g } := by
  unfold cutSpan
  rw [if_neg (Nat.not_le.mpr hlo)]
  split
  next hle => rw [Nat.min_eq_left hle, ← hk]
  next hle => simp only [hk, Nat.min_eq_right (Nat.le_of_not_le hle)]

theorem Spaced.cut {v : Ival} {xs : List Span} (h : Spaced v xs) (hi : Nat) :
    Spaced { v with hi := hi } (xs.filterMap (cutSpan hi)) where
  ordered := h.ordered.filterMap _ fun x y hxy x' hx' y' hy' => by
    obtain ⟨-, htx, hx, -⟩ := cutSpan_some hx'
    obtain ⟨-, hty, hy, -⟩ := cutSpan_some hy'
    simpa only [Span.Ordered, htx, hty, hx, hy] using hxy
  apart := h.apart.filterMap _ fun x y hxy x' hx' y' hy' g hgx hgy ht => by
    obtain ⟨hxlo, htx, hx, hgx'⟩ := cutSpan_some hx'
    obtain ⟨hylo, hty, hy, hgy'⟩ := cutSpan_some hy'
    have := hxy g (hgx' g hgx) (hgy' g hgy) (by rw [← htx, ← hty, ht])
    simp only [hx, hy]
    omega
  within := fun x hx => by
    obtain ⟨y, hy, hc⟩ := List.mem_filterMap.mp hx
    obtain ⟨hlo, -, ht, -⟩ := cutSpan_some hc
    obtain ⟨h1, h2, h3⟩ := h.within y hy
    simp only [Span.Within, ht]
    omega

/-- A list of one span too many has none too many once the span at the limit is cut away. -/
theorem length_filterMap_cut {hi n : Nat} {xs : List Span} {x : Span} (hlen : xs.length ≤ n + 1) (hx : xs[n]? = some x)
    (hcut : hi ≤ x.target.lo) : (xs.filterMap (cutSpan hi)).length ≤ n := by
  have hdrop : xs.drop n = [x] := by
    obtain ⟨hn, hxn⟩ := List.getElem?_eq_some_iff.mp hx
    rw [List.drop_eq_getElem_cons hn, hxn, List.drop_eq_nil_of_le (by omega)]
  calc (xs.filterMap (cutSpan hi)).length = ((xs.take n ++ [x]).filterMap (cutSpan hi)).length := by
          rw [← hdrop, List.take_append_drop]
    _ = ((xs.take n).filterMap (cutSpan hi)).length := by simp [cutSpan_none hcut]
    _ ≤ (xs.take n).length := List.length_filterMap_le ..
    _ ≤ n := List.length_take_le ..

/-! ## The limit of 64 spans (R136, R137) -/

/-- A window whose plan stands as R129 has it, but for the number of its spans. -/
structure Planned (r : Run) (p : Play) (w : Window) : Prop where
  span   : w.span = binSpan r p w.bin0 w.bin1
  bins   : w.bin0 < w.bin1
  spaced : Spaced w.span w.plan

theorem keepFragment_length (n : Nat) (w : Window) : (keepFragment n w).plan.length ≤ 64 - n := List.length_take_le ..

theorem Planned.keepFragment {r : Run} {p : Play} {w : Window} (h : Planned r p w) (n : Nat) : Planned r p (keepFragment n w) where
  span := h.span
  bins := h.bins
  spaced := h.spaced.sublist (List.take_sublist ..)

/-- The window shortened to end at a bin (R136). -/
def Window.cutTo (r : Run) (p : Play) (w : Window) (b1 : Nat) : Window :=
  { w with bin1 := b1, span := binSpan r p w.bin0 b1, plan := w.plan.filterMap (cutSpan (binSpan r p w.bin0 b1).hi) }

theorem Planned.cutTo {r : Run} {p : Play} {w : Window} (h : Planned r p w) {b1 : Nat} (hb : w.bin0 < b1) : Planned r p (w.cutTo r p b1) where
  span := rfl
  bins := hb
  spaced := by
    have hlo : w.span.lo = (binSpan r p w.bin0 b1).lo := by rw [h.span]; rfl
    have hcut := h.spaced.cut (binSpan r p w.bin0 b1).hi
    rw [hlo] at hcut
    exact hcut

theorem limitPlan_frag {r : Run} {p : Play} {w : Window} (h : w.frag = true) : limitPlan r p w = keepFragment p.traces.length w := by
  simp [limitPlan, h]

theorem limitPlan_fits {r : Run} {p : Play} {w : Window} (hf : w.frag = false) (h : w.plan[64]? = none) : limitPlan r p w = w := by
  simp [limitPlan, hf, h]

theorem limitPlan_shortened {r : Run} {p : Play} {w : Window} {x : Span} (hf : w.frag = false) (h : w.plan[64]? = some x)
    (hk : w.bin0 < binOf r p x.target.lo) : limitPlan r p w = w.cutTo r p (binOf r p x.target.lo) := by
  simp [limitPlan, hf, h, hk, Window.cutTo]

theorem limitPlan_fragmented {r : Run} {p : Play} {w : Window} {x : Span} (hf : w.frag = false) (h : w.plan[64]? = some x)
    (hk : binOf r p x.target.lo ≤ w.bin0) :
    limitPlan r p w = keepFragment p.traces.length { w.cutTo r p (w.bin0 + 1) with frag := true } := by
  simp [limitPlan, hf, h, Nat.not_lt.mpr hk, Window.cutTo]

/-- A span of a window starts in one of the window's bins. -/
theorem Planned.binOf_lt {r : Run} {p : Play} {w : Window} {x : Span} (h : Planned r p w) (hres : 0 < p.res) (hx : x ∈ w.plan) :
    binOf r p x.target.lo < w.bin1 := by
  obtain ⟨hlo, hne, hhi⟩ := h.spaced.within x hx
  rw [h.span] at hlo hhi
  simp only [binSpan] at hlo hhi
  exact (Nat.div_lt_iff_lt_mul hres).mpr (by omega)

/-- The cut to the bin a span starts in leaves nothing of that span. -/
theorem binSpan_hi_le {r : Run} {p : Play} {w : Window} {x : Span} (h : Planned r p w) (hx : x ∈ w.plan) {b : Nat}
    (hb : b ≤ binOf r p x.target.lo) : (binSpan r p w.bin0 b).hi ≤ x.target.lo := by
  obtain ⟨hlo, -, -⟩ := h.spaced.within x hx
  rw [h.span] at hlo
  simp only [binSpan] at hlo ⊢
  have h1 : b * p.res ≤ binOf r p x.target.lo * p.res := Nat.mul_le_mul_right _ hb
  have h2 : binOf r p x.target.lo * p.res ≤ x.target.lo - r.from_ := Nat.div_mul_le_self ..
  omega

/-- R136, R137: the plan a window is left with is within the limit, and the window no longer than before. -/
theorem Planned.limit {r : Run} {p : Play} {w : Window} (h : Planned r p w) (hres : 0 < p.res) (hlen : w.plan.length ≤ 65) :
    Planned r p (limitPlan r p w) ∧ (limitPlan r p w).plan.length ≤ 64 ∧ (limitPlan r p w).bin0 = w.bin0 ∧
      (limitPlan r p w).bin1 ≤ w.bin1 := by
  cases hf : w.frag with
  | true =>
    rw [limitPlan_frag hf]
    exact ⟨h.keepFragment _, (keepFragment_length _ w).trans (Nat.sub_le ..), rfl, le_rfl⟩
  | false =>
    cases hx : w.plan[64]? with
    | none =>
      rw [limitPlan_fits hf hx]
      exact ⟨h, List.getElem?_eq_none_iff.mp hx, rfl, le_rfl⟩
    | some x =>
      have hmem : x ∈ w.plan := List.mem_of_getElem? hx
      have hk := h.binOf_lt hres hmem
      by_cases hb : w.bin0 < binOf r p x.target.lo
      · rw [limitPlan_shortened hf hx hb]
        exact ⟨h.cutTo hb, length_filterMap_cut hlen hx (binSpan_hi_le h hmem le_rfl), rfl, hk.le⟩
      · rw [limitPlan_fragmented hf hx (Nat.le_of_not_lt hb)]
        have hcut := h.cutTo (b1 := w.bin0 + 1) (Nat.lt_succ_self _)
        have hmarked : Planned r p { w.cutTo r p (w.bin0 + 1) with frag := true } := ⟨hcut.span, hcut.bins, hcut.spaced⟩
        exact ⟨hmarked.keepFragment _, (keepFragment_length _ _).trans (Nat.sub_le ..), rfl, h.bins⟩

/-- A window neither shortened nor fragmented keeps its plan. -/
theorem Planned.limit_eq {r : Run} {p : Play} {w : Window} (h : Planned r p w) (hres : 0 < p.res)
    (hb : (limitPlan r p w).bin1 = w.bin1) (hf : (limitPlan r p w).frag = false) : limitPlan r p w = w := by
  cases hw : w.frag with
  | true =>
    rw [limitPlan_frag hw] at hf
    exact absurd (hw.symm.trans hf) (by decide)
  | false =>
    cases hx : w.plan[64]? with
    | none => exact limitPlan_fits hw hx
    | some x =>
      have hk := h.binOf_lt hres (List.mem_of_getElem? hx)
      by_cases hlt : w.bin0 < binOf r p x.target.lo
      · rw [limitPlan_shortened hw hx hlt] at hb
        exact absurd hb hk.ne
      · rw [limitPlan_fragmented hw hx (Nat.le_of_not_lt hlt)] at hf
        cases hf

/-! ## Recording a span (R129 to R137) -/

/-- The window with a span in its plan, the gaps it joins made one with it. -/
def Window.joined (w : Window) (z : Span) : Window :=
  { w with plan := insertSpan (joinSpans z (w.plan.filter (joins z))) (w.plan.filter (fun y => !joins z y)), nextId := w.nextId + 1 }

theorem Planned.joined {r : Run} {p : Play} {w : Window} {z : Span} (h : Planned r p w) (hz : z.Within w.span) :
    Planned r p (w.joined z) where
  span := h.span
  bins := h.bins
  spaced := by
    refine (h.spaced.sublist List.filter_sublist).insert
      (joinSpans_within hz fun y hy => h.spaced.within y (List.mem_of_mem_filter hy)) fun y hy => ?_
    obtain ⟨hy, hj⟩ := List.mem_filter.mp hy
    exact joinSpans_apart h.spaced hz hy (by simpa using hj)

theorem Window.joined_length (w : Window) (z : Span) : (w.joined z).plan.length ≤ w.plan.length + 1 := by
  have hlen := (insertSpan_perm (joinSpans z (w.plan.filter (joins z))) (w.plan.filter (fun y => !joins z y))).length_eq
  have hfilter := List.length_filter_le (fun y => !joins z y) w.plan
  simp only [Window.joined, hlen, List.length_cons]
  omega

theorem addSpan_none {r : Run} {p : Play} {w : Window} {i : Nat} {x : Ival} {kind : SpanKind}
    (h : cutSpan w.span.hi { id := w.nextId, trace := i, target := x, kind := kind } = none) : addSpan r p w i x kind = w := by
  simp [addSpan, h]

theorem addSpan_some {r : Run} {p : Play} {w : Window} {i : Nat} {x : Ival} {kind : SpanKind} {z : Span}
    (h : cutSpan w.span.hi { id := w.nextId, trace := i, target := x, kind := kind } = some z) :
    addSpan r p w i x kind = limitPlan r p (w.joined z) := by
  simp [addSpan, h, Window.joined]

section
variable {r : Run} {p : Play} {w : Window} {i : Nat} {x : Ival} {kind : SpanKind}

theorem cut_within {z : Span} (h : cutSpan w.span.hi { id := w.nextId, trace := i, target := x, kind := kind } = some z)
    (hlo : w.span.lo ≤ x.lo) (hne : x.lo < x.hi) : z.Within w.span := by
  obtain ⟨hlt, -, ht, -⟩ := cutSpan_some h
  simp only [Span.Within, ht]
  dsimp only at hlt
  omega

theorem Planned.addSpan (h : Planned r p w) (hres : 0 < p.res) (hlen : w.plan.length ≤ 64) (hlo : w.span.lo ≤ x.lo) (hne : x.lo < x.hi) :
    Planned r p (addSpan r p w i x kind) ∧ (Machine.addSpan r p w i x kind).plan.length ≤ 64 ∧
      (Machine.addSpan r p w i x kind).bin0 = w.bin0 ∧ (Machine.addSpan r p w i x kind).bin1 ≤ w.bin1 := by
  cases hc : cutSpan w.span.hi { id := w.nextId, trace := i, target := x, kind := kind } with
  | none =>
    rw [addSpan_none hc]
    exact ⟨h, hlen, rfl, le_rfl⟩
  | some z =>
    rw [addSpan_some hc]
    exact (h.joined (cut_within hc hlo hne)).limit hres ((w.joined_length z).trans (Nat.succ_le_succ hlen))

/-- A gap recorded in a window that keeps its length is in its plan, alone or within the gap it joined (R132). -/
theorem Planned.addSpan_gap {g : GapReason} (h : Planned r p w) (hres : 0 < p.res) (hlo : w.span.lo ≤ x.lo) (hne : x.lo < x.hi)
    (hend : x.lo < w.span.hi) (hb : (Machine.addSpan r p w i x (.gap g)).bin1 = w.bin1)
    (hf : (Machine.addSpan r p w i x (.gap g)).frag = false) :
    ∃ z ∈ (Machine.addSpan r p w i x (.gap g)).plan, z.trace = i ∧ z.kind = .gap g ∧ z.target.lo ≤ x.lo ∧
      min x.hi w.span.hi ≤ z.target.hi := by
  obtain ⟨z, hc, hzi, hzk, hzx⟩ : ∃ z, cutSpan w.span.hi { id := w.nextId, trace := i, target := x, kind := .gap g } = some z ∧
      z.trace = i ∧ z.kind = .gap g ∧ z.target = { lo := x.lo, hi := min x.hi w.span.hi } :=
    ⟨_, cutSpan_gap rfl hend, rfl, rfl, rfl⟩
  have hin := cut_within hc hlo hne
  rw [addSpan_some hc] at hb hf ⊢
  rw [(h.joined hin).limit_eq hres hb hf]
  have hlo' := joinSpans_lo_le z (w.plan.filter (joins z))
  have hhi' := le_joinSpans_hi z (w.plan.filter (joins z))
  rw [hzx] at hlo' hhi'
  exact ⟨_, mem_insertSpan.mpr (.inl rfl), hzi, hzk, hlo', hhi'⟩

end

/-! ## The plan made final (R137) -/

theorem mem_foldl_insertSpan {α : Type} (f : List Span → α → Span) {x : Span} (ls : List α) {xs : List Span} (hx : x ∈ xs) :
    x ∈ ls.foldl (fun acc q => insertSpan (f acc q) acc) xs := by
  induction ls generalizing xs with
  | nil => exact hx
  | cons q ls ih => exact ih (mem_insertSpan.mpr (.inr hx))

theorem exists_mem_foldl_insertSpan {α : Type} (f : List Span → α → Span) {q : α} {ls : List α} (hq : q ∈ ls) (xs : List Span) :
    ∃ acc, f acc q ∈ ls.foldl (fun acc q => insertSpan (f acc q) acc) xs := by
  induction ls generalizing xs with
  | nil => cases hq
  | cons q' ls ih =>
    obtain rfl | hq := List.mem_cons.mp hq
    · exact ⟨xs, mem_foldl_insertSpan f ls (mem_insertSpan.mpr (.inl rfl))⟩
    · exact ih hq _

/-- The FRAGMENTED gap of a trace in a plan made final. -/
def Window.lossGap (w : Window) (acc : List Span) (q : Nat × Nat) : Span :=
  { id := w.nextId + acc.length, trace := q.1, target := { lo := q.2, hi := w.span.hi }, kind := .gap .fragmented }

theorem finishPlan_lost {w : Window} {q : Nat × Nat} (hq : q ∈ w.lost) :
    ∃ x ∈ (finishPlan w).plan, x.trace = q.1 ∧ x.target = { lo := q.2, hi := w.span.hi } ∧ x.kind = .gap .fragmented :=
  have ⟨_, hmem⟩ := exists_mem_foldl_insertSpan w.lossGap hq w.plan
  ⟨_, hmem, rfl, rfl, rfl⟩

/-! ## The plan of a LINE window (R134) -/

/-- The identity span of a LINE window for trace `i`. -/
def lineSpan (w : Window) (i : Nat) : Span :=
  { id := w.nextId + i, trace := i, target := w.span, kind := .data w.span [identityStage w.span] none false }

theorem foldl_lineSpan (w : Window) (n : Nat) :
    (List.range n).foldl (fun w t => { w with
      plan := w.plan ++ [{ id := w.nextId, trace := t, target := w.span, kind := .data w.span [identityStage w.span] none false }],
      nextId := w.nextId + 1 }) w = { w with plan := w.plan ++ (List.range n).map (lineSpan w), nextId := w.nextId + n } := by
  induction n with
  | zero => simp
  | succ n ih => simp [List.range_succ, ih, lineSpan, Nat.add_assoc]

theorem linePlan_eq {p : Play} {w : Window} (hplan : w.plan = []) (hlost : w.lost = []) :
    (linePlan p w).stage = .fetching ∧ (linePlan p w).plan = (List.range p.traces.length).map (lineSpan w) := by
  unfold linePlan
  rw [foldl_lineSpan]
  simp [finishPlan, hlost, hplan]

end Sys2Proof.Machine
end

section
/-! # What the work of a run changes: its own channel's run, and of a stopped playback run nothing its planner holds -/

namespace Sys2Proof.Machine

/-! ## The channels -/

/-- Of the channels, at most the run of one has changed. -/
structure RunOnly (ch : Fin 4) (s t : State) : Prop where
  others : OtherChannels ch s t
  state  : (t.channels[ch]).state = (s.channels[ch]).state
  staged : (t.channels[ch]).staged = (s.channels[ch]).staged

theorem State.updRun_run (s : State) (ch : Fin 4) (f : Run → Run) :
    ((s.updRun ch f).channels[ch]).run = (s.channels[ch]).run.map f := by
  simp

namespace RunOnly
variable {ch : Fin 4} {s t u : State}

theorem trans (h1 : RunOnly ch s t) (h2 : RunOnly ch t u) : RunOnly ch s u where
  others k hk := (h2.others k hk).trans (h1.others k hk)
  state := h2.state.trans h1.state
  staged := h2.staged.trans h1.staged

theorem of_channels (h : t.channels = s.channels) : RunOnly ch s t where
  others k _ := by rw [h]
  state := by rw [h]
  staged := by rw [h]

theorem refl : RunOnly ch s s := of_channels rfl

theorem updRun (f : Run → Run) : RunOnly ch s (s.updRun ch f) where
  others k hk := by
    rw [State.updRun_channels]
    exact updAt_other _ _ _ _ hk.symm
  state := by simp
  staged := by simp

theorem updPlay (f : Play → Play) : RunOnly ch s (s.updPlay ch f) := updRun _

theorem fault (pos win : Nat) : RunOnly ch s (s.fault ch pos win) := by
  unfold State.fault
  split
  next => exact refl
  next =>
    split
    next => exact refl
    next =>
      dsimp only
      split
      next => exact updRun _
      next =>
        split
        next =>
          split
          next => exact (updRun _).trans (of_channels rfl)
          next => exact updRun _
        next => exact refl

theorem planDone (w : Window) : RunOnly ch s (s.planDone ch w) := by
  unfold State.planDone
  dsimp only
  split
  next => exact updPlay _
  next => exact (updPlay _).trans (fault _ _)

theorem beginWindow {r : Run} {p : Play} (h : s.beginWindow ch r p = some t) : RunOnly ch s t := by
  unfold State.beginWindow at h
  dsimp only at h
  split at h
  next => cases h
  next =>
    split at h
    next => cases h; exact (updPlay _).trans (planDone _)
    next => cases h; exact ((updPlay _).trans (updPlay _)).trans (updRun _)

theorem planOn (r : Run) (p : Play) (a : PlanAnswer) : RunOnly ch s (s.planOn ch r p a) := by
  unfold State.planOn
  split
  next =>
    split
    next => exact updRun _
    next =>
      dsimp only
      split
      next => exact planDone _
      next => exact (updPlay _).trans (updRun _)
  next => exact refl

theorem deliver (a : PlanAnswer) : RunOnly ch s (s.deliver ch a) := by
  unfold State.deliver
  split
  next => exact refl
  next =>
    split
    next => exact planOn ..
    next => exact updRun _

end RunOnly

/-! ## What fetching and emitting keep of a run -/

/-- What a playback run holds of its planning is kept, and no window of it is put back in planning. -/
structure PlayKept (p p' : Play) : Prop where
  planner  : p'.planner = p.planner
  stopped  : p'.stopped = p.stopped
  nextBin  : p'.nextBin = p.nextBin
  nextWin  : p'.nextWin = p.nextWin
  planning : ∀ x ∈ p'.wins, x.stage = .planning → ∃ y ∈ p.wins, y.stage = .planning

/-- A run's result, its PLAN STEP and its planning are kept. -/
structure RunKept (r r' : Run) : Prop where
  result : r'.result = r.result
  planOp : r'.planOp = r.planOp
  body   : ∀ p, r.body = .play p → ∃ p', r'.body = .play p' ∧ PlayKept p p'

theorem PlayKept.of_wins {p p' : Play} (hp : p'.planner = p.planner) (hs : p'.stopped = p.stopped) (hb : p'.nextBin = p.nextBin)
    (hn : p'.nextWin = p.nextWin) (hw : p'.wins = p.wins) : PlayKept p p' :=
  ⟨hp, hs, hb, hn, fun x hx hst => ⟨x, hw ▸ hx, hst⟩⟩

theorem PlayKept.refl (p : Play) : PlayKept p p := .of_wins rfl rfl rfl rfl rfl

theorem PlayKept.trans {p q u : Play} (h1 : PlayKept p q) (h2 : PlayKept q u) : PlayKept p u where
  planner := h2.planner.trans h1.planner
  stopped := h2.stopped.trans h1.stopped
  nextBin := h2.nextBin.trans h1.nextBin
  nextWin := h2.nextWin.trans h1.nextWin
  planning x hx hst :=
    have ⟨y, hy, hsy⟩ := h2.planning x hx hst
    h1.planning y hy hsy

theorem PlayKept.of_updWin {p p' : Play} {no : Nat} {f : Window → Window} (hp : p'.planner = p.planner) (hs : p'.stopped = p.stopped)
    (hb : p'.nextBin = p.nextBin) (hn : p'.nextWin = p.nextWin) (hw : p'.wins = (p.updWin no f).wins)
    (hf : ∀ w, (f w).stage = .planning → w.stage = .planning) : PlayKept p p' where
  planner := hp
  stopped := hs
  nextBin := hb
  nextWin := hn
  planning x hx hst := by
    rw [hw] at hx
    obtain ⟨y, hy, rfl⟩ := List.mem_map.mp hx
    refine ⟨y, hy, ?_⟩
    split at hst
    next => exact hf y hst
    next => exact hst

theorem PlayKept.fetch (p : Play) (f : Option Fetch) : PlayKept p { p with fetch := f } := .of_wins rfl rfl rfl rfl rfl

theorem PlayKept.binBlock (r : Run) (p : Play) (win : Nat) (x : Span) (b : ReadBlock) : PlayKept p (p.binBlock r win x b) := by
  unfold Play.binBlock
  split
  next => exact .refl p
  next => exact .of_updWin rfl rfl rfl rfl rfl fun _ h => h

theorem RunKept.refl (r : Run) : RunKept r r := ⟨rfl, rfl, fun p hp => ⟨p, hp, .refl p⟩⟩

theorem RunKept.trans {q r u : Run} (h1 : RunKept q r) (h2 : RunKept r u) : RunKept q u where
  result := h2.result.trans h1.result
  planOp := h2.planOp.trans h1.planOp
  body p hp :=
    have ⟨_, hp', h⟩ := h1.body p hp
    have ⟨p'', hp'', h'⟩ := h2.body _ hp'
    ⟨p'', hp'', h.trans h'⟩

theorem RunKept.of_body {r r' : Run} (hr : r'.result = r.result) (ho : r'.planOp = r.planOp) (hb : r'.body = r.body) : RunKept r r' :=
  ⟨hr, ho, fun p hp => ⟨p, hb.trans hp, .refl p⟩⟩

/-- The run of one channel has gone on with its planning kept, and nothing else of the channels has changed. -/
structure Onward (ch : Fin 4) (s t : State) : Prop extends RunOnly ch s t where
  run : ∀ r, (s.channels[ch]).run = some r → ∃ r', (t.channels[ch]).run = some r' ∧ RunKept r r'

namespace Onward
variable {ch : Fin 4} {s t u : State}

theorem of_channels (h : t.channels = s.channels) : Onward ch s t where
  toRunOnly := .of_channels h
  run r hr := ⟨r, by rw [h, hr], .refl r⟩

theorem refl : Onward ch s s := of_channels rfl

theorem trans (h1 : Onward ch s t) (h2 : Onward ch t u) : Onward ch s u where
  toRunOnly := h1.toRunOnly.trans h2.toRunOnly
  run r hr :=
    have ⟨_, hr', h⟩ := h1.run r hr
    have ⟨r'', hr'', h'⟩ := h2.run _ hr'
    ⟨r'', hr'', h.trans h'⟩

theorem updRun {f : Run → Run} (hf : ∀ r, RunKept r (f r)) : Onward ch s (s.updRun ch f) where
  toRunOnly := .updRun f
  run r hr := ⟨f r, by rw [State.updRun_run, hr]; rfl, hf r⟩

theorem updPlay {f : Play → Play} (hf : ∀ p, PlayKept p (f p)) : Onward ch s (s.updPlay ch f) :=
  updRun fun r => by
    split
    next p hp =>
      refine ⟨rfl, rfl, fun q hq => ⟨f p, rfl, ?_⟩⟩
      obtain rfl : p = q := RunBody.play.inj (hp.symm.trans hq)
      exact hf p
    next => exact .refl r

theorem fetched (g : Play → Option Fetch) : Onward ch s (s.updPlay ch (fun p => { p with fetch := g p })) :=
  updPlay fun p => .fetch p _

theorem ask {f : Fetch} {t' : Trace} {e : Entry} {es : List Entry} (h : State.fetchStep.ask s ch f t' e es = some u) : Onward ch s u := by
  unfold State.fetchStep.ask at h
  split at h
  next => cases h
  next => cases h; exact (fetched _).trans (of_channels rfl)

theorem spanRead {f : Fetch} (h : State.fetchStep.spanRead s ch f = some u) : Onward ch s u := by
  unfold State.fetchStep.spanRead at h
  split at h
  next => cases h
  next => cases h; exact fetched _

/-- The fetcher takes up a window or the next span of one (R138): no window comes back to planning. -/
theorem fetchStep {r : Run} {p : Play} (h : s.fetchStep ch r p = some u) : Onward ch s u := by
  unfold State.fetchStep at h
  split at h
  next =>
    split at h
    next => cases h
    next => cases h; exact fetched _
  next f _ =>
    split at h
    next =>
      split at h
      next =>
        have hready : Onward ch s (s.updPlay ch (fun p => { p.updWin f.win (fun w => { w with stage := .ready }) with fetch := none })) :=
          updPlay fun _ => .of_updWin rfl rfl rfl rfl rfl fun _ h => WinStage.noConfusion h
        dsimp only at h
        split at h
        next => cases h; exact hready.trans (updRun fun _ => .of_body rfl rfl rfl)
        next => cases h; exact hready
      next =>
        split at h
        next =>
          split at h
          next => cases h; exact updPlay fun _ => .of_updWin rfl rfl rfl rfl rfl fun _ h => h
          next => cases h; exact fetched _
        next => cases h; exact fetched _
    next x _ =>
      split at h
      next =>
        split at h
        next => cases h; exact fetched _
        next => exact spanRead h
      next =>
        split at h
        next b _ =>
          split at h
          next => cases h; exact updPlay fun p => (PlayKept.binBlock r p f.win x b).trans (.fetch _ _)
          next => exact ask h
        next => exact ask h
      next => exact spanRead h

end Onward

/-! ## The emitter -/

theorem formBin_kept {pr : Profile} {r r1 : Run} {p : Play} (hp : r.body = .play p) (h : formBin pr r p = some r1) : RunKept r r1 := by
  unfold formBin at h
  split at h
  next => cases h
  next =>
    split at h
    next => cases h
    next =>
      cases h
      refine ⟨rfl, rfl, fun q hq => ⟨_, rfl, ?_⟩⟩
      obtain rfl : p = q := RunBody.play.inj (hp.symm.trans hq)
      exact .of_wins rfl rfl rfl rfl rfl

theorem fillFrame_kept (pr : Profile) (n : Nat) (r : Run) : RunKept r (fillFrame pr n r) := by
  induction n generalizing r with
  | zero => exact .refl r
  | succ n ih =>
    unfold fillFrame
    split
    next => exact .refl r
    next =>
      split
      next => exact .of_body rfl rfl rfl
      next =>
        split
        next r1 h1 =>
          split at h1
          next p hp => exact (formBin_kept hp h1).trans (ih r1)
          next => cases h1
        next =>
          split
          next => exact .of_body rfl rfl rfl
          next => exact .refl r

theorem Onward.emitGo (s : State) (ch : Fin 4) : Onward ch s (s.emitGo ch) := .updRun fun _ => fillFrame_kept _ _ _

/-! ## A channel going on -/

namespace RunOnly
variable {ch : Fin 4} {s : State}

theorem playGo (n : Nat) : RunOnly ch s (State.playGo ch n s) := by
  induction n generalizing s with
  | zero => exact refl
  | succ n ih =>
    unfold State.playGo
    split
    next => exact refl
    next =>
      split
      next => exact refl
      next =>
        split
        next => exact refl
        next =>
          split
          next hb => exact (beginWindow hb).trans ih
          next =>
            split
            next hf => exact (Onward.fetchStep hf).toRunOnly.trans ih
            next => exact refl

theorem channelGo : RunOnly ch s (s.channelGo ch) := by
  unfold State.channelGo
  split
  next => exact refl
  next =>
    split
    next => exact refl
    next =>
      split
      next => exact (playGo _).trans (Onward.emitGo _ _).toRunOnly
      next => exact (updRun _).trans (Onward.emitGo _ _).toRunOnly

end RunOnly

/-- A stopped playback run plans no further window (R135, R146). -/
theorem State.beginWindow_stopped {s : State} {ch : Fin 4} {r : Run} {p : Play} (h : p.stopped = true) : s.beginWindow ch r p = none := by
  simp [State.beginWindow, h]

/-- A stopped playback run only fetches. -/
theorem Onward.playGo_stopped {ch : Fin 4} (n : Nat) {s : State} {r : Run} {p : Play} (hr : (s.channels[ch]).run = some r)
    (hp : r.body = .play p) (hs : p.stopped = true) : Onward ch s (State.playGo ch n s) := by
  induction n generalizing s r p with
  | zero => exact .refl
  | succ n ih =>
    unfold State.playGo
    split
    next => exact .refl
    next =>
      rw [hr]
      dsimp only
      rw [hp]
      dsimp only
      rw [State.beginWindow_stopped hs]
      dsimp only
      split
      next t hf =>
        have hon := Onward.fetchStep hf
        obtain ⟨r', hr', hk⟩ := hon.run r hr
        obtain ⟨p', hp', hpk⟩ := hk.body p hp
        exact hon.trans (ih hr' hp' (hpk.stopped.trans hs))
      next => exact .refl

end Sys2Proof.Machine
end

section
/-! # PLAN STEP (R13, R27): its answer, and what it does to the run of its channel -/

namespace Sys2Proof.Machine

/-! ## The answer (R27) -/

theorem Ival.meets_eq (x y : Ival) : x.meets y = decide (max x.lo y.lo < min x.hi y.hi) := by
  rw [Bool.eq_iff_iff, decide_eq_true_eq, ← Nat.not_le, ← Ival.not_meets_iff, Bool.not_eq_false]

/-- A FINAL link at or after a resume position within the FINAL links of a child-link list (R6, R27). -/
theorem not_finalBefore_iff {q : Ival} {x : Nat} {m n : Lane} :
    (!finalBefore q m { lo := x, hi := x } n) = true ↔ x < q.lo ∨ q.lo = x ∧ n.rank ≤ m.rank := by
  simp only [finalBefore, Bool.not_eq_true', Bool.or_eq_false_iff, decide_eq_false_iff_not, Bool.and_eq_false_iff, beq_eq_false_iff_ne]
  omega

/-- The parent links a step UP answers from (R27). -/
def Genealogy.upMet (g : Genealogy) (op : PlanOp) (c : Coil) : List Link :=
  (g.linksOf c.parents).filter (fun l => l.childSpan.meets op.span && atOrAfter op.from_ l)

/-- A FINAL link whose parent span meets an interval. -/
def Link.finalMeets (x : Ival) (l : Link) : Bool := match l.parentSpan with | none => false | some p => p.meets x

theorem Link.finalMeets_eq (x : Ival) (l : Link) : l.finalMeets x = l.parentSpan.any (fun p => p.meets x) := by
  unfold Link.finalMeets
  cases l.parentSpan <;> rfl

/-- The FINAL child links a step DOWN answers from. -/
def Genealogy.downMet (g : Genealogy) (op : PlanOp) (c : Coil) : List Link :=
  (g.linksOf c.children).filter (fun l => l.finalMeets op.span && atOrAfter op.from_ l)

/-- The pending links a continuation has been past. -/
def PlanOp.done (op : PlanOp) : Nat := match op.from_ with | .pendings n => n | _ => 0

/-- The pending child links a step DOWN answers from. -/
def Genealogy.downPending (g : Genealogy) (op : PlanOp) (c : Coil) : List Link :=
  ((g.linksOf c.children).filter (fun l => l.parentSpan.isNone)).drop op.done

theorem Genealogy.planStep_stale {g : Genealogy} {op : PlanOp} (h : ∀ c ∈ g.coils, c.handle = op.coil.handle → c.seq ≠ op.coil.seq) :
    g.planStep op = none := by
  simp [Genealogy.planStep, Genealogy.current_none h]

theorem Genealogy.copyLink_link (g : Genealogy) (up : Bool) (ls : List Link) : (ls.map (g.copyLink up)).map (·.link) = ls := by
  rw [List.map_map]
  exact List.map_id ls

section
variable {g : Genealogy} {op : PlanOp} {c : Coil}

theorem Genealogy.planStep_up (hc : g.current op.coil = some c) (hu : op.up = true) :
    g.planStep op = some { coil := c, hasParents := !c.parents.isEmpty, links := ((g.upMet op c).take 16).map (g.copyLink true),
                           next := ((g.upMet op c).drop 16).head?.map (fun l => .childStart l.childSpan.lo) } := by
  simp only [Genealogy.planStep, hc, hu, if_true, Genealogy.upMet]

/-- The answer of a step DOWN: the FINAL links that meet the interval, then the pending ones. -/
theorem Genealogy.planStep_down (hc : g.current op.coil = some c) (hu : op.up = false) :
    ∃ q, g.planStep op = some q ∧ q.coil = c ∧ q.hasParents = !c.parents.isEmpty ∧
      q.links = ((g.downMet op c).take 16 ++ (g.downPending op c).take (16 - (g.downMet op c).length)).map (g.copyLink false) ∧
      (∀ m p, (g.downMet op c)[16]? = some m → m.parentSpan = some p → q.next = some (.parentStart p.lo m.lane)) ∧
      ((g.downMet op c).length ≤ 16 → q.next =
        if (g.downPending op c).length ≤ 16 - (g.downMet op c).length then none
        else some (.pendings (op.done + (16 - (g.downMet op c).length)))) := by
  unfold Genealogy.planStep
  rw [hc, hu]
  refine ⟨_, rfl, rfl, rfl, rfl, fun m p hm hp => ?_, fun hle => ?_⟩
  · have hhead : ((g.downMet op c).drop 16).head? = some m := by rw [List.head?_drop, hm]
    change (match ((g.downMet op c).drop 16).head?.bind (fun l => l.parentSpan.map (fun p => (p, l.lane))) with
      | some (p, lane) => some (Resume.parentStart p.lo lane)
      | none => _) = _
    rw [hhead]
    simp only [Option.bind_some, hp, Option.map_some]
  · have hnil : (g.downMet op c).drop 16 = [] := List.drop_eq_nil_of_le hle
    change (match ((g.downMet op c).drop 16).head?.bind (fun l => l.parentSpan.map (fun p => (p, l.lane))) with
      | some (p, lane) => some (Resume.parentStart p.lo lane)
      | none => _) = _
    rw [hnil]
    rfl

end

/-! ## The step on the state -/

/-- The state in which a planner's step has been performed, its answer not yet delivered (R13). -/
def State.stepTaken (s : State) (ch : Fin 4) : State :=
  ({ s with table := { s.table with lastPlanner := ch } } : State).updRun ch (fun r => { r with planOp := none })

section
variable {ch : Fin 4} {s : State} {r : Run} {op : PlanOp}

theorem exec_planStep_held (hg : s.grant = some (.planner ch)) (hr : (s.channels[ch]).run = some r) (ho : r.planOp = some op)
    (hs : (s.channels[ch]).state = .held) :
    exec (.planStep ch) s = .next ((s.stepTaken ch).updRun ch (fun r => { r with kept := some (s.table.planStep op) })).kick := by
  have hx : exec (.planStep ch) s = execPlanStep ch s := rfl
  rw [hx]
  unfold execPlanStep
  rw [if_neg (not_not.mpr hg), hr]
  simp only [Option.bind_some, ho]
  rw [if_pos hs]
  rfl

theorem exec_planStep_not_held (hg : s.grant = some (.planner ch)) (hr : (s.channels[ch]).run = some r) (ho : r.planOp = some op)
    (hs : (s.channels[ch]).state ≠ .held) :
    exec (.planStep ch) s = .next ((((s.stepTaken ch).deliver ch (s.table.planStep op)).channelGo ch).flashKick).kick := by
  have hx : exec (.planStep ch) s = execPlanStep ch s := rfl
  rw [hx]
  unfold execPlanStep
  rw [if_neg (not_not.mpr hg), hr]
  simp only [Option.bind_some, ho]
  rw [if_neg hs]
  rfl

theorem State.stepTaken_run (hr : (s.channels[ch]).run = some r) : ((s.stepTaken ch).channels[ch]).run = some { r with planOp := none } := by
  unfold State.stepTaken
  rw [State.updRun_run]
  exact congrArg (Option.map _) hr

theorem RunOnly.stepTaken : RunOnly ch s (s.stepTaken ch) := by
  have htable : RunOnly ch s { s with table := { s.table with lastPlanner := ch } } := .of_channels rfl
  exact htable.trans (.updRun _)

theorem State.flashKick_kick_channels (s : State) : s.flashKick.kick.channels = s.channels :=
  (((Touches.refl [.archive, .slc] s).flashKick rfl rfl).kick rfl) .channels rfl

/-- PLAN STEP gives the table the arbiter's pointer, and changes of the channels at most its own run. -/
theorem exec_planStep (hg : s.grant = some (.planner ch)) (hr : (s.channels[ch]).run = some r) (ho : r.planOp = some op) :
    ∃ t, exec (.planStep ch) s = .next t ∧ Touches [.table, .archive, .channels, .slc] s t ∧ RunOnly ch s t ∧
      t.table = { s.table with lastPlanner := ch } ∧
      ((s.channels[ch]).state = .held →
        (t.channels[ch]).run = some { r with planOp := none, kept := some (s.table.planStep op) }) ∧
      ((s.channels[ch]).state ≠ .held →
        t.channels = (((s.stepTaken ch).deliver ch (s.table.planStep op)).channelGo ch).channels) := by
  obtain ⟨t, ht, htouch⟩ := everyCommandTouchesOnlyItsBlocks (.planStep ch) s
  refine ⟨t, ht, htouch, ?_⟩
  by_cases hs : (s.channels[ch]).state = .held
  · rw [exec_planStep_held hg hr ho hs] at ht
    cases ht
    refine ⟨(RunOnly.stepTaken.trans (.updRun _)).trans (.of_channels (State.kick_channels _)), ?_, fun _ => ?_, fun h => absurd hs h⟩
    · exact ((Touches.refl [.slc] _).kick rfl) .table rfl
    · rw [State.kick_channels, State.updRun_run, State.stepTaken_run hr]
      rfl
  · rw [exec_planStep_not_held hg hr ho hs] at ht
    cases ht
    have hon : RunOnly ch s (((s.stepTaken ch).deliver ch (s.table.planStep op)).channelGo ch) :=
      (RunOnly.stepTaken.trans (.deliver _)).trans .channelGo
    refine ⟨hon.trans (.of_channels (State.flashKick_kick_channels _)), ?_, fun h => absurd h hs,
      fun _ => State.flashKick_kick_channels _⟩
    have hrest := ((((Touches.refl [.archive, .channels, .slc] (s.stepTaken ch)).deliver (ch := ch) (a := s.table.planStep op) rfl
      rfl).channelGo (ch := ch) rfl rfl).flashKick rfl rfl).kick rfl
    exact hrest .table rfl

end

/-! ## A run whose target is found retired (R135, R166) -/

theorem Onward.updRun_of_run {ch : Fin 4} {s : State} {r r' : Run} (hr : (s.channels[ch]).run = some r) (hk : RunKept r r') :
    Onward ch s (s.updRun ch (fun _ => r')) where
  toRunOnly := .updRun _
  run q hq := by
    obtain rfl : r = q := Option.some.inj (hr.symm.trans hq)
    exact ⟨r', by rw [State.updRun_run, hr]; rfl, hk⟩

/-- A walk that has ended is left as it is. -/
theorem walkGo_of_result {k : Walking} (n : Nat) (h : k.1.result.isSome = true) : walkGo n k = k := by
  cases n with
  | zero => rfl
  | succ n => simp [walkGo, h]

section
variable {ch : Fin 4} {s : State} {r : Run}

/-- The channel of an ended walk only packs the records at hand. -/
theorem Onward.channelGo_ended {w : Walk} (hr : (s.channels[ch]).run = some r) (hb : r.body = .walk w) (hres : r.result.isSome = true) :
    Onward ch s (s.channelGo ch) := by
  unfold State.channelGo
  split
  next => exact .refl
  next =>
    rw [hr]
    dsimp only
    rw [hb]
    dsimp only
    rw [walkGo_of_result _ hres]
    have hsame : RunKept r { r with body := .walk w } := .of_body rfl rfl hb.symm
    exact (Onward.updRun_of_run hr hsame).trans (.emitGo _ _)

/-- The channel of a stopped playback run fetches and emits what is planned. -/
theorem Onward.channelGo_stopped {p : Play} (hr : (s.channels[ch]).run = some r) (hb : r.body = .play p) (hs : p.stopped = true) :
    Onward ch s (s.channelGo ch) := by
  unfold State.channelGo
  split
  next => exact .refl
  next =>
    rw [hr]
    dsimp only
    rw [hb]
    exact (Onward.playGo_stopped 1024 hr hb hs).trans (.emitGo _ _)

/-- R166: a walk whose target is found retired has ended. -/
theorem deliver_walk_retired {w : Walk} {lv : Level} (hr : (s.channels[ch]).run = some r) (hb : r.body = .walk w)
    (ha : w.await = some (.visit lv)) (hv : lv.via = none) :
    ((s.deliver ch none).channels[ch]).run =
      some { r with result := some .targetRetired, planOp := none, kept := none, body := .walk { w with await := none, stack := [] } } := by
  have hwalk : walkAnswer (r, w) none = endWalk (r, { w with await := none }) .targetRetired := by
    simp [walkAnswer, ha, Walk.retiredRecord, hv]
  unfold State.deliver
  rw [hr]
  dsimp only
  rw [hb]
  dsimp only
  rw [hwalk, State.updRun_run, hr]
  rfl

/-- R135: a playback run whose target is found retired plans nothing further. -/
theorem deliver_play_retired {p : Play} {pl : Planner} {w : Window} {lv : Level} {c : Ref} {n : Option Name}
    (hr : (s.channels[ch]).run = some r) (hb : r.body = .play p) (ht : r.target = .coil c n) (hpl : p.planner = some pl)
    (hw : w ∈ p.wins) (hst : w.stage = .planning) (ha : pl.await = some (.visit lv)) (hd : lv.depth = 0) :
    ∃ q, ((s.deliver ch none).channels[ch]).run = some q ∧ q.result = some .targetRetired ∧ q.planOp = r.planOp ∧
      q.body = .play { p with planner := none, stopped := true, wins := p.wins.filter (fun w => w.stage != .planning) } := by
  obtain ⟨w', hw'⟩ : ∃ w', p.wins.find? (fun w => w.stage == .planning) = some w' :=
    Option.isSome_iff_exists.mp (List.find?_isSome.mpr ⟨w, hw, by simp [hst]⟩)
  have hdeliver : s.deliver ch none = s.targetRetired ch r p := by
    unfold State.deliver
    rw [hr]
    dsimp only
    rw [hb]
    dsimp only
    unfold State.planOn
    rw [ht, hpl, hw']
    dsimp only
    rw [planAnswer_target_retired ha hd]
  rw [hdeliver, State.targetRetired, State.updRun_run, hr]
  exact ⟨_, rfl, rfl, rfl, rfl⟩

/-- R166: the step that finds a walk's target retired ends the walk. -/
theorem stepTaken_walk_retired {w : Walk} {lv : Level} (hr : (s.channels[ch]).run = some r) (hb : r.body = .walk w)
    (ha : w.await = some (.visit lv)) (hv : lv.via = none) :
    ∃ q, ((((s.stepTaken ch).deliver ch none).channelGo ch).channels[ch]).run = some q ∧
      q.result = some .targetRetired ∧ q.planOp = none := by
  have hrun := deliver_walk_retired (State.stepTaken_run hr) hb ha hv
  obtain ⟨q, hq, hkept⟩ := (Onward.channelGo_ended hrun rfl rfl).run _ hrun
  exact ⟨q, hq, hkept.result, hkept.planOp⟩

/-- R135: the step that finds a playback run's target retired leaves no window in planning, and no later one is planned. -/
theorem stepTaken_play_retired {p : Play} {pl : Planner} {w : Window} {lv : Level} {c : Ref} {n : Option Name}
    (hr : (s.channels[ch]).run = some r) (hb : r.body = .play p) (ht : r.target = .coil c n) (hpl : p.planner = some pl)
    (hw : w ∈ p.wins) (hst : w.stage = .planning) (ha : pl.await = some (.visit lv)) (hd : lv.depth = 0) :
    ∃ q p', ((((s.stepTaken ch).deliver ch none).channelGo ch).channels[ch]).run = some q ∧
      q.result = some .targetRetired ∧ q.planOp = none ∧ q.body = .play p' ∧ p'.planner = none ∧ p'.stopped = true ∧
      p'.nextBin = p.nextBin ∧ p'.nextWin = p.nextWin ∧ ∀ x ∈ p'.wins, x.stage ≠ .planning := by
  obtain ⟨q, hrun, hres, hop, hbody⟩ := deliver_play_retired (State.stepTaken_run hr) hb ht hpl hw hst ha hd
  obtain ⟨q', hq', hkept⟩ := (Onward.channelGo_stopped hrun hbody rfl).run _ hrun
  obtain ⟨p', hp', hplay⟩ := hkept.body _ hbody
  refine ⟨q', p', hq', hkept.result.trans hres, hkept.planOp.trans hop, hp', hplay.planner, hplay.stopped, hplay.nextBin,
    hplay.nextWin, fun x hx hxs => ?_⟩
  obtain ⟨y, hy, hys⟩ := hplay.planning x hx hxs
  simpa [hys] using (List.mem_filter.mp hy).2

end

end Sys2Proof.Machine
end

section
/-! # PLAN STEP and planning (R27, R129 to R137): the obligation -/

namespace Sys2Proof.Machine

/-! ## The links of an answer, by figures -/

section
variable {g : Genealogy} {op : PlanOp} {c : Coil} {f : Link → Bool}

theorem Genealogy.upMet_eq (hf : ∀ m, f m = atOrAfter op.from_ m) :
    (g.linksOf c.parents).filter (fun m => decide (max m.childSpan.lo op.span.lo < min m.childSpan.hi op.span.hi) && f m) =
      g.upMet op c :=
  List.filter_congr fun m _ => by rw [hf, Ival.meets_eq]

theorem Genealogy.downMet_eq (hf : ∀ m p, m.parentSpan = some p → f m = atOrAfter op.from_ m) :
    (g.linksOf c.children).filter (fun m => m.parentSpan.any (fun p => decide (max p.lo op.span.lo < min p.hi op.span.hi)) && f m) =
      g.downMet op c :=
  List.filter_congr fun m _ => by
    rw [Link.finalMeets_eq]
    cases hp : m.parentSpan with
    | none => rfl
    | some p => rw [hf m p hp, Option.any_some, Option.any_some, Ival.meets_eq]

end

/-- Every link copied for a planner names the coil at its other end, as the pool has it. -/
theorem Genealogy.copyLink_far (g : Genealogy) (up : Bool) {ls : List Link} {x : LinkCopy} (hx : x ∈ ls.map (g.copyLink up)) :
    x.far = ((if up then some x.link.parent else x.link.child).bind g.coilAt).map (fun d => (d.name, d.ref)) := by
  obtain ⟨l, -, rfl⟩ := List.mem_map.mp hx
  rfl

/-- Settles O46: the step on the state from the frame of a channel's work, the walk from the cases of `visited`, `takeLink` and
`planAnswer`, and the plan list from `Planned`, which every span recorded keeps. -/
theorem planStepAnswers : Obligations.PlanStepAnswers := by
  unfold Obligations.PlanStepAnswers
  refine ⟨?_, ?_, ?_, ?_, ?_, ?_⟩
  · intro ch s r op hg hr ho g stale linkOf rank onward resumes
    obtain ⟨t, ht, htouch, honly, htable, hheld, hgoes⟩ := exec_planStep hg hr ho
    refine ⟨t, ht, htouch, honly.others, htable, honly.state, honly.staged, fun hs => ⟨_, hheld hs, ?_, ?_⟩, ?_, ?_⟩
    · exact Genealogy.planStep_stale
    · intro c hp hc hh hq hres
      have hcur := hp.current_mem hc hh hq
      cases hu : op.up with
      | true =>
        refine ⟨_, Genealogy.planStep_up hcur hu, rfl, rfl, fun x hx => Genealogy.copyLink_far g true hx, fun _ => ?_,
          fun h => (nomatch h)⟩
        have honward (m : Link) : onward m = atOrAfter op.from_ m := by
          obtain h | ⟨-, x, h⟩ | ⟨h, -⟩ := hres
          · simp only [onward, h, atOrAfter]
          · simp only [onward, h, atOrAfter]
          · exact absurd (hu.symm.trans h) (by decide)
        have hmet := Genealogy.upMet_eq (g := g) (c := c) honward
        exact ⟨(Genealogy.copyLink_link ..).trans (congrArg _ hmet.symm), by rw [← hmet]; rfl⟩
      | false =>
        obtain ⟨q, hq, hcoil, hpar, hlinks, hfinal, hpend⟩ := Genealogy.planStep_down hcur hu
        refine ⟨q, hq, hcoil, hpar, fun x hx => Genealogy.copyLink_far g false (hlinks ▸ hx), fun h => (nomatch h), fun _ => ?_⟩
        have hrank (n : Lane) : rank n = n.rank := by cases n <;> rfl
        have honward (m : Link) (p : Ival) (hmp : m.parentSpan = some p) : onward m = atOrAfter op.from_ m := by
          obtain h | ⟨h, -⟩ | ⟨-, ⟨x, n, h⟩ | ⟨n, h⟩⟩ := hres
          · simp only [onward, h, atOrAfter]
          · exact absurd (hu.symm.trans h) (by decide)
          · simp only [onward, h, hmp, atOrAfter, hrank]
            rw [Bool.eq_iff_iff, not_finalBefore_iff, Bool.or_eq_true, decide_eq_true_eq, decide_eq_true_eq]
          · simp only [onward, h, hmp, atOrAfter, Option.isNone_some]
        have hmet := Genealogy.downMet_eq (g := g) (c := c) honward
        rw [← hmet] at hlinks hfinal hpend
        exact ⟨by rw [hlinks, Genealogy.copyLink_link]; rfl, hfinal, hpend⟩
    · intro w lv hs hb ha hv hstale
      have hchan := hgoes (by rw [hs]; decide)
      rw [Genealogy.planStep_stale hstale] at hchan
      rw [hchan]
      exact stepTaken_walk_retired hr hb ha hv
    · intro p pl w lv c n hs hb htg hpl hw hst ha hd hstale
      have hchan := hgoes (by rw [hs]; decide)
      rw [Genealogy.planStep_stale hstale] at hchan
      rw [hchan]
      exact stepTaken_play_retired hr hb htg hpl hw hst ha hd
  · intro r p w i tr lv a htr
    refine ⟨?_, ?_, ?_, ?_⟩
    · intro m len hst hrev hside hm hl hline hlane hne hle
      exact visited_made htr hst hrev (passageFor_made hside hm hl hline hlane) hne hle
    · intro q ft len hst hrev hside hc hline hft hl hlt hle hne
      exact visited_target htr hst hrev (passageFor_consumed hside hc hline hft hl hlt hle) hne
    · intro q hside hc hline hft
      exact visited_inProcess htr (passageFor_inProcess hside hc hline hft)
    · intro habs
      have hp : passageFor tr a.coil = .absent :=
        habs.elim (fun ⟨hside, h⟩ => passageFor_delivery_absent hside h) (fun ⟨hside, h⟩ => passageFor_feed_absent hside h)
      rw [visited_absent htr hp]
      refine ⟨fun hno => by simp [hno], fun hyes => ?_⟩
      rw [if_pos hyes, Level.fill_eq, hyes]
  · exact fun r p w i lv x g => ⟨gapAt_of_empty, fun t => gapAt_of_image⟩
  · intro r p w pl lv above
    refine ⟨?_, fun c n hst hb hn hl => planGo_of_no_links hst hb hn hl, ?_, fun ha hd => planAnswer_visit_none ha hd⟩
    · intro lc
      refine ⟨fun he => takeLink_of_empty rfl he, fun hne hp => takeLink_pending rfl hne hp, ?_⟩
      intro q c far hne hp hc hf
      obtain ⟨hdepth, hempty, hbelow⟩ := takeLink_final (r := r) (p := p) (w := w) (i := pl.trace) rfl hne hp hc hf
      rw [Level.below_eq] at hbelow
      exact ⟨hdepth, hempty, hbelow⟩
    · intro hst ha
      refine ⟨fun hd => planAnswer_more_none hst ha hd, fun a => ?_⟩
      rw [planAnswer_more_some hst ha, Level.fill_eq]
  · exact fun p w hplan hlost => linePlan_eq hplan hlost
  · intro r p hres
    refine ⟨?_, fun w y hf hy => ⟨fun hk => ?_, fun hk => ?_⟩, fun w q hq => finishPlan_lost hq⟩
    · rintro w i x kind ⟨hlen, hspan, hbins, hord, hap, hin⟩ hlo hne
      have hplan : Planned r p w := ⟨hspan, hbins, hord, hap, hin⟩
      obtain ⟨hv, hvlen, hb0, hb1⟩ := hplan.addSpan (i := i) (kind := kind) hres hlen hlo hne
      refine ⟨⟨hvlen, hv.span, hv.bins, hv.spaced.ordered, hv.spaced.apart, hv.spaced.within⟩, hb0, hb1, ?_⟩
      rintro g rfl hend hb hf
      exact hplan.addSpan_gap hres hlo hne hend hb hf
    · rw [limitPlan_shortened hf hy hk]
      exact ⟨rfl, hf⟩
    · rw [limitPlan_fragmented hf hy hk]
      exact ⟨rfl, rfl, keepFragment_length ..⟩

end Sys2Proof.Machine
end

section
/-! # Law L9 (R35): the point map and the boundary map of a stage agree. Both maps measure a parent cell by its offset from the end of the
parent span where the child span begins, so the two directions differ only in that offset. -/

namespace Sys2Proof.Machine

/-- The ceiling of R36 is Mathlib's. -/
theorem ceilDiv_eq (a b : Nat) : ceilDiv a b = a ⌈/⌉ b := (Nat.ceilDiv_eq_add_pred_div a b).symm

/-- The equivalence R35 rests on: a ceiling of the one map against a floor of the other. -/
theorem ceilDiv_le_iff_le_div {ps cs u v : Nat} (hc : 0 < cs) (hp : 0 < ps) : ceilDiv (u * ps) cs ≤ v ↔ u ≤ v * cs / ps := by
  rw [ceilDiv_eq, ceilDiv_le_iff_le_mul hc, Nat.le_div_iff_mul_le hp, Nat.mul_comm cs v]

theorem Ival.len_pos {x : Ival} (h : x.lo < x.hi) : 0 < x.len := Nat.sub_pos_of_lt h

namespace Stage

/-- How far a parent cell lies from the end of the parent span where the child span begins (v of R32). -/
def offset (st : Stage) (p : Nat) : Nat :=
  match st.dir with
  | .same => p - st.parent.lo
  | .reversed => st.parent.hi - 1 - p

/-- The parent offset at which a child offset begins (g of R34). -/
def ceilAt (st : Stage) (u : Nat) : Nat := ceilDiv (u * st.parent.len) st.child.len

section
variable {st : Stage} {x : Ival} {p : Nat}

theorem point_eq : st.point p = st.child.lo + st.offset p * st.child.len / st.parent.len := rfl

theorem offset_lt (hlo : st.parent.lo ≤ p) (hhi : p < st.parent.hi) : st.offset p < st.parent.len := by
  unfold offset Ival.len
  split <;> omega

theorem ceilAt_le_iff (hc : st.child.lo < st.child.hi) (hp : st.parent.lo < st.parent.hi) {u : Nat} :
    st.ceilAt u ≤ st.offset p ↔ st.child.lo + u ≤ st.point p := by
  rw [point_eq, Nat.add_le_add_iff_left]
  exact ceilDiv_le_iff_le_div (Ival.len_pos hc) (Ival.len_pos hp)

theorem lt_ceilAt_iff (hc : st.child.lo < st.child.hi) (hp : st.parent.lo < st.parent.hi) {u : Nat} :
    st.offset p < st.ceilAt u ↔ st.point p < st.child.lo + u := by
  simpa only [Nat.not_le] using (ceilAt_le_iff hc hp).not

/-- g(u) stays within the parent span, since g(cs) = ps and g is monotone. -/
theorem ceilAt_le_len (hc : st.child.lo < st.child.hi) {u : Nat} (hu : u ≤ st.child.len) : st.ceilAt u ≤ st.parent.len :=
  (ceilDiv_mono (Nat.mul_le_mul_right _ hu) _).trans_eq (ceilDiv_mul (Ival.len_pos hc) _)

/-- The range of the point map (R32). -/
theorem point_mem (hc : st.child.lo < st.child.hi) (hlo : st.parent.lo ≤ p) (hhi : p < st.parent.hi) :
    st.child.lo ≤ st.point p ∧ st.point p < st.child.hi := by
  have hlt : st.offset p * st.child.len / st.parent.len < st.child.len :=
    Nat.div_lt_of_lt_mul (Nat.mul_lt_mul_of_pos_right (offset_lt hlo hhi) (Ival.len_pos hc))
  exact ⟨Nat.le_add_right _ _, (Nat.add_lt_add_left hlt _).trans_eq (Nat.add_sub_cancel' hc.le)⟩

/-- The boundary map of an interval beside the child span holds no cell (R34). -/
theorem boundary_of_apart (h : (x.cut st.child).hi ≤ (x.cut st.child).lo) : (st.boundary x).lo = (st.boundary x).hi := by
  simp only [boundary, Ival.empty_iff.mpr h, if_true]
  split <;> rfl

/-- The boundary map of an interval that meets the child span, by the parent offsets of its ends (R34). -/
theorem boundary_of_meets (h : (x.cut st.child).lo < (x.cut st.child).hi) :
    st.boundary x =
      let g0 := st.ceilAt ((x.cut st.child).lo - st.child.lo)
      let g1 := st.ceilAt ((x.cut st.child).hi - st.child.lo)
      match st.dir with
      | .same => { lo := st.parent.lo + g0, hi := st.parent.lo + g1 }
      | .reversed => { lo := st.parent.hi - g1, hi := st.parent.hi - g0 } :=
  if_neg (Ival.not_empty_iff.mpr h)

/-- In either direction a parent cell lies in the boundary map when its offset lies between those of the interval's ends. -/
theorem mem_boundary_iff (h : (x.cut st.child).lo < (x.cut st.child).hi) (hlo : st.parent.lo ≤ p) (hhi : p < st.parent.hi) :
    ((st.boundary x).lo ≤ p ∧ p < (st.boundary x).hi) ↔
      st.ceilAt ((x.cut st.child).lo - st.child.lo) ≤ st.offset p ∧ st.offset p < st.ceilAt ((x.cut st.child).hi - st.child.lo) := by
  rw [boundary_of_meets h, offset]
  cases st.dir <;> dsimp only <;> omega

/-- A boundary map with cells lies within the parent span (R34). -/
theorem boundary_within (hc : st.child.lo < st.child.hi) (hne : (st.boundary x).lo < (st.boundary x).hi) :
    st.parent.lo ≤ (st.boundary x).lo ∧ (st.boundary x).hi ≤ st.parent.hi := by
  obtain h | h := Nat.lt_or_ge (x.cut st.child).lo (x.cut st.child).hi
  · have hg1 : st.ceilAt ((x.cut st.child).hi - st.child.lo) ≤ st.parent.len :=
      ceilAt_le_len hc (Nat.sub_le_sub_right (Nat.min_le_right _ _) _)
    rw [boundary_of_meets h] at hne ⊢
    unfold Ival.len at hg1
    cases hd : st.dir <;> simp only [hd] at hne ⊢ <;> omega
  · exact absurd (boundary_of_apart h) hne.ne

/-- The second half of law L9 (R35): the boundary map yields the cells that the point map carries into the interval. -/
theorem mem_boundary_iff_point_mem (hc : st.child.lo < st.child.hi) (hlo : st.parent.lo ≤ p) (hhi : p < st.parent.hi) :
    ((st.boundary x).lo ≤ p ∧ p < (st.boundary x).hi) ↔ x.lo ≤ st.point p ∧ st.point p < x.hi := by
  obtain ⟨hlow, hhigh⟩ := point_mem hc hlo hhi
  have hp : st.parent.lo < st.parent.hi := hlo.trans_lt hhi
  obtain h | h := Nat.lt_or_ge (x.cut st.child).lo (x.cut st.child).hi
  · rw [mem_boundary_iff h hlo hhi, ceilAt_le_iff hc hp, lt_ceilAt_iff hc hp]
    unfold Ival.cut at h ⊢
    dsimp only at h ⊢
    omega
  · have hends := boundary_of_apart h
    unfold Ival.cut at h
    dsimp only at h
    omega

end

end Stage

/-- Settles O55: R32's range, R35's equivalence of ceiling and floor, and R34's bound on the boundary map. -/
theorem stageMapsKeepL9 : Obligations.StageMapsKeepL9 := by
  intro st x p hc _ hlo hhi
  exact ⟨Stage.point_mem hc hlo hhi, Stage.mem_boundary_iff_point_mem hc hlo hhi, Stage.boundary_within hc⟩

end Sys2Proof.Machine
end

section
/-! # Line ports (R48 to R56, R60): one command changes one port, or ends its frame and hands it over -/

namespace Sys2Proof.Machine

/-! ## One port changed -/

/-- Two changes of a port are one. -/
theorem State.updPort_updPort (s : State) (l : Fin 4) (f g : Port → Port) : (s.updPort l f).updPort l g = s.updPort l (g ∘ f) := by
  have e : updAt (updAt s.ports l f) l g = updAt s.ports l (g ∘ f) := by
    refine Vector.ext fun k hk => ?_
    simp only [updAt_getElem]
    split <;> rfl
  unfold State.updPort
  rw [← e]

/-- The port an update changes. -/
theorem State.updPort_at (s : State) (l : Fin 4) (f : Port → Port) : (s.updPort l f).ports[l] = f s.ports[l] := by
  rw [State.updPort_ports, updAt_get, if_pos rfl]

/-- Every other port is left. -/
theorem State.updPort_other (s : State) {l k : Fin 4} (hk : k ≠ l) (f : Port → Port) : (s.updPort l f).ports[k] = s.ports[k] := by
  rw [State.updPort_ports, updAt_other _ _ _ _ hk.symm]

/-- The command makes the line's port `x` and leaves every other port and all trackers. -/
def PortBecomes (c : Instr) (l : Fin 4) (s : State) (x : Port) : Prop :=
  ∃ t, exec c s = .next t ∧ Touches [.ports, .slc] s t ∧ OtherLines l s t ∧ t.ports[l] = x

theorem PortBecomes.of_updPort {c : Instr} {l : Fin 4} {s : State} {f : Port → Port} {x : Port}
    (h : exec c s = settle (s.updPort l f)) (hx : f s.ports[l] = x) : PortBecomes c l s x := by
  refine ⟨_, h, ((Touches.refl _ s).updPort rfl).kick rfl, fun k hk => ⟨?_, ?_⟩, ?_⟩
  · rw [State.kick_trackers, State.updPort_trackers]
  · rw [State.kick_ports, State.updPort_other s hk]
  · rw [State.kick_ports, State.updPort_at, hx]

/-! ## A character completed at the receiver (R48 to R53, R60) -/

/-- A port at which a character has completed (R50, R60). -/
def Port.seen (p : Port) : Port := { p with idleArmed := true, cuts := [] }

theorem PortBecomes.of_completed {c : Instr} {l : Fin 4} {s : State} {f : Port → Port} {x : Port}
    (h : exec c s = settle ((s.updPort l f).completed l)) (hx : (f s.ports[l]).seen = x) : PortBecomes c l s x :=
  .of_updPort (h.trans (congrArg settle (State.updPort_updPort s l f Port.seen))) hx

/-- A character that the receiver only notices. -/
theorem PortBecomes.of_seen {c : Instr} {l : Fin 4} {s : State} (h : exec c s = settle (s.completed l)) :
    PortBecomes c l s (s.ports[l]).seen :=
  .of_updPort h rfl

section
variable {p : Parity} {data : Byte} {flag par stop : Bool}

/-- The line is low through all the bits of a character, the parity bit among them where the port has one (R48). -/
def BreakBits (p : Parity) (data : Byte) (flag par stop : Bool) : Prop :=
  data = 0#8 ∧ flag = false ∧ (p = .none ∨ par = false) ∧ stop = false

theorem classify_break (h : BreakBits p data flag par stop) : classify p data flag par stop = .break_ := by
  unfold BreakBits at h
  unfold classify
  rw [if_pos (by simpa using h)]

theorem classify_framing (h : ¬BreakBits p data flag par stop) (hs : stop = false) : classify p data flag par stop = .framing := by
  unfold BreakBits at h
  unfold classify
  rw [if_neg (by simpa using h), if_pos (by simpa using hs)]

theorem classify_parity (hs : stop = true) (hp : p = .odd) (ho : ¬onesOf data flag par % 2 = 1) : classify p data flag par stop = .parity := by
  subst hs
  unfold classify
  rw [if_neg (by simp), if_neg (by simp), if_pos ⟨hp, by omega⟩]

theorem classify_good (hs : stop = true) (ho : p = .odd → onesOf data flag par % 2 = 1) : classify p data flag par stop = .good := by
  subst hs
  unfold classify
  rw [if_neg (by simp), if_neg (by simp), if_neg (fun h => by have := ho h.1; omega)]

end

/-- A parity setting that is not ODD is NONE. -/
theorem Parity.ne_odd_iff {p : Parity} : p ≠ .odd ↔ p = .none := by cases p <;> decide

section
variable {s : State} {l : Fin 4} {data : Byte} {flag par stop : Bool}

/-- Fewer changes were made than the character is said to have met. -/
theorem exec_character_unmet {n : Nat} (hr : s.startUp.ready = true) (hn : (s.ports[l]).cuts.length ≤ n) :
    exec (.character l data flag par stop (n + 1)) s = .next s := by
  show execCharacter l data flag par stop (n + 1) s = _
  unfold execCharacter
  simp only [hr, Bool.not_true, Bool.false_eq_true, if_false, List.getElem?_eq_none hn]
  rfl

/-- A character cut where its port counted none. -/
theorem exec_character_cut_none {n : Nat} (hr : s.startUp.ready = true) (hn : (s.ports[l]).cuts[n]? = some none) :
    exec (.character l data flag par stop (n + 1)) s = settle (s.completed l) := by
  show execCharacter l data flag par stop (n + 1) s = _
  unfold execCharacter
  simp only [hr, Bool.not_true, Bool.false_eq_true, if_false, hn]

/-- A cut character completes under the parity it began under and is only counted (R60). -/
theorem exec_character_cut_some {n : Nat} {old : Parity} (hr : s.startUp.ready = true) (hn : (s.ports[l]).cuts[n]? = some (some old)) :
    exec (.character l data flag par stop (n + 1)) s =
      settle ((s.updPort l (fun p => { p with cnt := p.cnt.error (classify old data flag par stop) })).completed l) := by
  show execCharacter l data flag par stop (n + 1) s = _
  unfold execCharacter
  simp only [hr, Bool.not_true, Bool.false_eq_true, if_false, hn]

/-- A port that is OFF or settles takes no character. -/
theorem exec_character_closed (hr : s.startUp.ready = true) (hx : (s.ports[l]).rx = .off ∨ (s.ports[l]).rx = .settling) :
    exec (.character l data flag par stop 0) s = settle (s.completed l) := by
  have hw : s.wholeChar l data flag par stop = s := by
    unfold State.wholeChar
    rcases hx with hx | hx <;> rw [hx]
  show execCharacter l data flag par stop 0 s = _
  unfold execCharacter
  simp only [hr, Bool.not_true, Bool.false_eq_true, if_false, hw]

/-- An open receiver takes the character by its class. -/
theorem exec_character_open (hr : s.startUp.ready = true) (ho : (s.ports[l]).rx ≠ .off) (hs : (s.ports[l]).rx ≠ .settling) {k : CharClass}
    (hk : classify (s.trackers[l]).defn.parity data flag par stop = k) :
    exec (.character l data flag par stop 0) s = settle ((s.classed l k data flag).completed l) := by
  have hw : s.wholeChar l data flag par stop = s.classed l k data flag := by
    unfold State.wholeChar
    rw [hk]
    split
    · next hx => exact absurd hx ho
    · next hx => exact absurd hx hs
    · rfl
  show execCharacter l data flag par stop 0 s = _
  unfold execCharacter
  simp only [hr, Bool.not_true, Bool.false_eq_true, if_false, hw]

end

theorem placeMark_none {order : List Item} (h : .restart ∉ order) : placeMark order = order ++ [.restart] := by
  unfold placeMark
  rw [if_neg (by simpa using h)]

/-- Frames behind the restart mark are removed (R54). -/
theorem placeMark_some {a b : List Item} (h : .restart ∉ a) : placeMark (a ++ .restart :: b) = a ++ [.restart] := by
  have up : upToMark (a ++ .restart :: b) = a ++ [.restart] := by
    induction a with
    | nil => rfl
    | cons x xs ih =>
      obtain ⟨hx, hxs⟩ := not_or.mp (List.mem_cons.not.mp h)
      rw [List.cons_append, upToMark, if_neg (Ne.symm hx), ih hxs, List.cons_append]
  unfold placeMark
  rw [if_pos (by simp), up]

theorem Port.errored_outside {p : Port} (h : p.rx ≠ .take) (k : CharClass) (b : Byte) : p.errored k b = { p with cnt := p.cnt.error k } := by
  unfold Port.errored
  split
  · next hx _ => exact absurd hx h
  · rfl

theorem Port.errored_take {p : Port} {f : Filling} (h : p.rx = .take) (hc : p.cur = some f) (k : CharClass) (b : Byte) :
    p.errored k b = if f.buffered then { p with cur := some (f.push b true), cnt := p.cnt.error k } else p := by
  unfold Port.errored
  simp only [h, hc]

/-- The frame in progress ends truncated, a check failure where it has a buffer and is not corrupt (R49, R55). -/
theorem Port.truncate_eq (p : Port) : p.truncate = { p with
    cur := none
    cnt := if p.cur.any (fun f => f.buffered && !f.corrupt) then { p.cnt with checkFailures := bump p.cnt.checkFailures } else p.cnt } := by
  unfold Port.truncate
  cases hc : p.cur with
  | none =>
    obtain ⟨rx, cur, order, armed, cuts, cnt⟩ := p
    subst hc
    rfl
  | some f => cases hb : (f.buffered && !f.corrupt) <;> simp [hb]

/-- The buffers in use once the frame in progress has ended (R53). -/
theorem State.buffersUsed_truncate (s : State) (l : Fin 4) : (s.updPort l Port.truncate).buffersUsed l =
    ((s.ports[l]).order.filter Item.isFrame).length + (if (s.trackers[l]).work.any (·.fromPort) then 1 else 0) := by
  unfold State.buffersUsed
  rw [State.updPort_at, Port.truncate_eq]
  simp only [Nat.zero_add, State.updPort_trackers]
  cases (s.trackers[l]).work with
  | none => rfl
  | some w => cases hb : w.fromPort <;> simp [hb]

section
variable (s : State) (l : Fin 4) (a : Byte)

/-- An address character of another station. -/
theorem State.addressChar_other (h : ¬(a.toNat = (s.trackers[l]).defn.address ∨ a = 255#8)) :
    s.addressChar l a = s.updPort l ((fun p => { p with rx := .pass, cnt := { p.cnt with passed := bump p.cnt.passed } }) ∘ Port.truncate) := by
  unfold State.addressChar
  dsimp only
  rw [if_neg (by simpa using h), State.updPort_updPort]

/-- An own address character begins a frame, which claims a buffer or is an overrun. -/
theorem State.addressChar_own (h : a.toNat = (s.trackers[l]).defn.address ∨ a = 255#8) :
    s.addressChar l a = s.updPort l ((fun p =>
      let free := decide ((s.updPort l Port.truncate).buffersUsed l < 2)
      { p with rx := .take
               cur := some { buffered := free, body := [], count := 0, corrupt := false }
               cnt := if free then p.cnt else { p.cnt with overruns := bump p.cnt.overruns } }) ∘ Port.truncate) := by
  unfold State.addressChar
  dsimp only
  rw [if_pos (by simpa using h), State.updPort_updPort]

end

/-! ## The receiver by the class of the character -/

section
variable {s : State} {l : Fin 4} {data : Byte} {flag par stop : Bool}

/-- A break ends the frame in progress and leaves its mark (R52). -/
theorem character_break (hr : s.startUp.ready = true) (ho : (s.ports[l]).rx ≠ .off) (hs : (s.ports[l]).rx ≠ .settling)
    (hb : BreakBits (s.trackers[l]).defn.parity data flag par stop) {order : List Item} (hm : placeMark (s.ports[l]).order = order) :
    PortBecomes (.character l data flag par stop 0) l s { (s.ports[l]).seen with
      rx := .hunt, cur := none, order := order, cnt := { (s.ports[l]).cnt with breaks := bump (s.ports[l]).cnt.breaks } } :=
  .of_completed (exec_character_open hr ho hs (classify_break hb)) (by rw [← hm]; rfl)

/-- A character with an error (R51, R53), of a class that is counted so. -/
theorem character_errored (hr : s.startUp.ready = true) (ho : (s.ports[l]).rx ≠ .off) (hs : (s.ports[l]).rx ≠ .settling) {k : CharClass}
    (hk : classify (s.trackers[l]).defn.parity data flag par stop = k) (he : k = .framing ∨ k = .parity) :
    PortBecomes (.character l data flag par stop 0) l s ((s.ports[l]).errored k data).seen := by
  refine .of_completed (f := fun p => p.errored k data) (exec_character_open hr ho hs hk |>.trans ?_) rfl
  rcases he with rfl | rfl <;> rfl

/-- A good data character joins the frame in progress in TAKE (R51). -/
theorem character_data (hr : s.startUp.ready = true) (ho : (s.ports[l]).rx ≠ .off) (hs : (s.ports[l]).rx ≠ .settling)
    (hk : classify (s.trackers[l]).defn.parity data flag par stop = .good) (hf : flag = false) :
    ((s.ports[l]).rx ≠ .take → PortBecomes (.character l data flag par stop 0) l s (s.ports[l]).seen) ∧
    ∀ f, (s.ports[l]).rx = .take → (s.ports[l]).cur = some f →
      PortBecomes (.character l data flag par stop 0) l s { (s.ports[l]).seen with cur := some (f.push data false) } := by
  subst hf
  have he := exec_character_open hr ho hs hk
  refine ⟨fun hx => .of_completed he ?_, fun f hx hc => .of_completed he ?_⟩
  · split
    · next h => exact absurd h hx
    · rfl
  · simp only [hx, hc, Port.seen, Option.map_some]

/-- The port's counts once an address character has ended the frame in progress (R49, R55). -/
def Port.cutCounts (p : Port) : PortCounters :=
  if p.cur.any (fun f => f.buffered && !f.corrupt) then { p.cnt with checkFailures := bump p.cnt.checkFailures } else p.cnt

/-- A good address character (R49, R53). -/
theorem character_address (hr : s.startUp.ready = true) (ho : (s.ports[l]).rx ≠ .off) (hs : (s.ports[l]).rx ≠ .settling)
    (hk : classify (s.trackers[l]).defn.parity data flag par stop = .good) (hf : flag = true) :
    let p := s.ports[l]
    let used := (p.order.filter Item.isFrame).length + (if (s.trackers[l]).work.any (·.fromPort) then 1 else 0)
    let own : Prop := data.toNat = (s.trackers[l]).defn.address ∨ data = 255#8
    (¬own → PortBecomes (.character l data flag par stop 0) l s
      { p.seen with rx := .pass, cur := none, cnt := { p.cutCounts with passed := bump p.cutCounts.passed } }) ∧
    (own → used < 2 → PortBecomes (.character l data flag par stop 0) l s
      { p.seen with rx := .take, cur := some { buffered := true, body := [], count := 0, corrupt := false }, cnt := p.cutCounts }) ∧
    (own → 2 ≤ used → PortBecomes (.character l data flag par stop 0) l s
      { p.seen with rx := .take, cur := some { buffered := false, body := [], count := 0, corrupt := false },
                    cnt := { p.cutCounts with overruns := bump p.cutCounts.overruns } }) := by
  subst hf
  have he : exec (.character l data true par stop 0) s = settle ((s.addressChar l data).completed l) := exec_character_open hr ho hs hk
  have hu := s.buffersUsed_truncate l
  refine ⟨fun hn => ?_, fun hown hlt => ?_, fun hown hge => ?_⟩
  · rw [State.addressChar_other s l data hn] at he
    exact .of_completed he (by rw [Function.comp_apply, Port.truncate_eq]; rfl)
  · rw [State.addressChar_own s l data hown] at he
    refine .of_completed he ?_
    rw [Function.comp_apply, Port.truncate_eq, hu, decide_eq_true hlt]
    rfl
  · rw [State.addressChar_own s l data hown] at he
    refine .of_completed he ?_
    rw [Function.comp_apply, Port.truncate_eq, hu, decide_eq_false (Nat.not_lt.mpr hge)]
    rfl

/-- A character cut by a redefinition, by the class under which it completes (R60). -/
theorem character_cut {n : Nat} {old : Parity} (hr : s.startUp.ready = true) (hn : (s.ports[l]).cuts[n]? = some (some old)) {k : CharClass}
    (hk : classify old data flag par stop = k) :
    PortBecomes (.character l data flag par stop (n + 1)) l s { (s.ports[l]).seen with cnt := (s.ports[l]).cnt.error k } := by
  subst hk
  exact .of_completed (exec_character_cut_some hr hn) rfl

end

/-- Settles O32: a cut character by the class it completes under, and else the receiver by the class of the character. -/
theorem characterMovesReceiver : Obligations.CharacterMovesReceiver := by
  intro l data flag par stop s hr p q odd broken oddOnes good after becomes grown
  have hbits : broken ↔ BreakBits (s.trackers[l]).defn.parity data flag par stop := by
    unfold BreakBits
    rw [← Parity.ne_odd_iff]
  refine ⟨fun n => ⟨exec_character_unmet hr, fun h => ?_⟩, fun hx => PortBecomes.of_seen (exec_character_closed hr hx), fun ho hs => ⟨?_, ?_, ?_, ?_⟩⟩
  · have hget : p.cuts[n]? = some p.cuts[n] := List.getElem?_eq_getElem h
    refine ⟨fun hn => PortBecomes.of_seen (exec_character_cut_none hr (hget.trans (congrArg some hn))), fun old hold => ?_⟩
    have hcut := hget.trans (congrArg some hold)
    refine ⟨fun ⟨hb, hs⟩ => character_cut hr hcut (classify_framing hb hs),
      fun ⟨hs, hp, hone⟩ => character_cut hr hcut (classify_parity hs hp hone), fun hnf hnp => ?_⟩
    rcases Bool.eq_false_or_eq_true stop with hs | hs
    · exact character_cut hr hcut (classify_good hs fun hp => not_not.mp fun hone => hnp ⟨hs, hp, hone⟩)
    · exact character_cut hr hcut (classify_break (not_not.mp fun hb => hnf ⟨hb, hs⟩))
  · intro hb
    refine ⟨fun hm => character_break hr ho hs (hbits.mp hb) (placeMark_none hm), fun a b hab ha => ?_⟩
    exact character_break hr ho hs (hbits.mp hb) (by rw [show (s.ports[l]).order = _ from hab, placeMark_some ha])
  · intro cnt hcnt
    obtain ⟨k, hk, he, rfl⟩ : ∃ k, classify (s.trackers[l]).defn.parity data flag par stop = k ∧ (k = .framing ∨ k = .parity) ∧
        cnt = p.cnt.error k := by
      rcases hcnt with ⟨hb, hstop, rfl⟩ | ⟨hstop, hg, rfl⟩
      · exact ⟨.framing, classify_framing (hbits.not.mp hb) hstop, .inl rfl, rfl⟩
      · obtain ⟨hp, hone⟩ : odd ∧ ¬oddOnes := Classical.not_imp.mp fun h => hg ⟨hstop, h⟩
        exact ⟨.parity, classify_parity hstop hp hone, .inr rfl, rfl⟩
    have becomesErrored := character_errored hr ho hs hk he
    refine ⟨fun hx => ?_, fun f hx hc => ?_⟩
    · rw [Port.errored_outside hx] at becomesErrored
      exact becomesErrored
    · rw [Port.errored_take hx hc] at becomesErrored
      refine cast (congrArg (PortBecomes _ l s) ?_) becomesErrored
      split <;> rfl
  · exact fun hg hf => character_data hr ho hs (classify_good hg.1 hg.2) hf
  · exact fun hg hf => character_address hr ho hs (classify_good hg.1 hg.2) hf

end Sys2Proof.Machine
end

section
/-! # Line ports: a frame's end, its hand-over, and the end of SILENT (R50, R54 to R56, R71) -/

namespace Sys2Proof.Machine

/-! ## The condition instances of the lines (R185) -/

/-- The instances of UNCERTAIN and SILENT read as before. -/
def SameConditions (s t : State) : Prop := t.slc.uncertain = s.slc.uncertain ∧ t.slc.silent = s.slc.silent

namespace SameConditions

variable {s t u : State}

theorem of_slc (h : t.slc = s.slc) : SameConditions s t := by
  unfold SameConditions
  rw [h]
  exact ⟨rfl, rfl⟩

theorem trans (h : SameConditions s t) (k : SameConditions t u) : SameConditions s u := ⟨k.1.trans h.1, k.2.trans h.2⟩

theorem kick (h : SameConditions s t) : SameConditions s t.kick := ⟨t.kick_uncertain.trans h.1, t.kick_silent.trans h.2⟩

end SameConditions

/-- A notice that enters no condition of a line. -/
def Notice.LineFree (n : Notice) : Prop := n.condition = none ∨ n.condition = some .exhausted

theorem Notice.lineFree_of_cls {n : Notice} (h : n.cls ≠ .line) : n.LineFree := by
  unfold LineFree condition
  split
  · next hc _ _ => exact absurd hc h
  · next hc _ _ => exact absurd hc h
  · exact .inr rfl
  · exact .inl rfl

theorem State.raise_conditions (s : State) {n : Notice} (h : n.LineFree) : SameConditions s (s.raise n) := by
  rw [State.raise_eq]
  split
  · have entered : (s.slc.enterInst n).uncertain = s.slc.uncertain ∧ (s.slc.enterInst n).silent = s.slc.silent := by
      unfold Slc.enterInst
      rcases h with h | h <;> rw [h] <;> exact ⟨rfl, rfl⟩
    unfold SameConditions
    rw [State.updSlc_slc]
    rcases (s.slc.enterInst n).takeNotice_cases n.cls (noticeFrame (n.payload none)) with ⟨_, e⟩ | ⟨_, _, e⟩ | ⟨_, _, e⟩ <;> rw [e] <;>
      exact entered
  · exact ⟨rfl, rfl⟩

/-- The end of a condition raises nothing. -/
theorem State.endCondition_tells (s : State) (k : Condition) : Tells [] s (s.endCondition k) := by
  have kept : (s.slc.setInst k none).settings = s.slc.settings ∧ (s.slc.setInst k none).tx = s.slc.tx ∧
      (s.slc.setInst k none).masked = s.slc.masked ∧ (s.slc.setInst k none).dropped = s.slc.dropped ∧
      (s.slc.setInst k none).notices = s.slc.notices := by
    cases k <;> exact ⟨rfl, rfl, rfl, rfl, rfl⟩
  obtain ⟨hset, htx, hmask, hdrop, hnote⟩ := kept
  refine ⟨rfl, hset, htx, ?_⟩
  simp [State.endCondition, hmask, hdrop, hnote]

/-- One notice told is taken as R183 says. -/
theorem Tells.noticeTaken {s t : State} {n : Notice} (h : Tells [n] s t) (hr : s.startUp.ready = true) :
    NoticeTaken s t.kick n.cls (noticeFrame (noticeBytes n none)) := by
  obtain ⟨hm, hd, ha⟩ := h.kick
  simp only [hr, if_true, List.foldl_cons, List.foldl_nil, noticeTake, List.length_nil, Nat.add_zero, List.nil_append] at hm hd ha
  refine ⟨fun hc => ?_, fun hc hlt => ?_, fun hc hge => ?_⟩
  · simp only [hc, if_true, List.append_nil] at hm hd ha
    exact ⟨hm, hd, ha⟩
  · simp only [hc, Bool.true_eq_false, if_false, hlt, if_true] at hm hd ha
    exact ⟨hm, hd, ha⟩
  · simp only [hc, Bool.true_eq_false, if_false, Nat.not_lt.mpr hge, List.append_nil] at hm hd ha
    exact ⟨hm, hd, ha⟩

theorem Tells.announced {s t : State} (h : Tells [] s t) : t.kick.announced = s.announced := by
  obtain ⟨_, _, ha⟩ := h.kick
  simpa using ha

/-! ## An item that joins the hand-over order (R54, R71) -/

/-- The item is a malformed frame. -/
def Item.isMalformed : Item → Bool
  | .malformed _ _ => true
  | _ => false

/-- The port an item has joined. -/
def Port.joined (p : Port) (it : Item) : Port := { p with
  order := p.order ++ [it]
  cnt := { p.cnt with
    taken := bump p.cnt.taken
    malformed := if it.isMalformed then bump p.cnt.malformed else p.cnt.malformed } }

/-- What an item that joins its port's hand-over order leaves: the silence timer runs, and SILENT ends with its notice. -/
structure Joined (l : Fin 4) (it : Item) (s t : State) : Prop where
  touches : Touches [.ports, .trackers, .slc] s t
  lines : OtherLines l s t
  port : t.ports[l] = (s.ports[l]).joined it
  line : t.trackers[l] = { s.trackers[l] with silent := false, timer := true }
  tells : Tells (if (s.trackers[l]).silent = true then [lineNotice l 5 none] else []) s t
  uncertain : t.slc.uncertain = s.slc.uncertain
  silenceEnds : (s.trackers[l]).silent = true → t.slc.silent[l] = none
  silence : (s.trackers[l]).silent = false → t.slc.silent = s.slc.silent

/-- An item joins, its line's notice aside. -/
def State.queued (s : State) (l : Fin 4) (it : Item) : State :=
  (s.updPort l (fun p => p.joined it)).updTracker l (fun t => { t with silent := false, timer := true })

theorem State.join_eq (s : State) (l : Fin 4) (it : Item) : s.join l it =
    if (s.trackers[l]).silent = true then ((s.queued l it).endCondition (.silent l)).raise (lineNotice l 5 none) else s.queued l it := by
  unfold State.join State.queued
  cases it <;> rfl

theorem State.join_joined (s : State) (l : Fin 4) (it : Item) : Joined l it s (s.join l it) := by
  have touch : Touches [.ports, .trackers, .slc] s (s.queued l it) := ((Touches.refl _ s).updPort rfl).updTracker rfl
  have lines : OtherLines l s (s.queued l it) := fun k hk =>
    ⟨OtherTrackers.updTracker (s.updPort l _) l _ k hk, State.updPort_other s hk _⟩
  have port : (s.queued l it).ports[l] = (s.ports[l]).joined it := State.updPort_at s l _
  have line : (s.queued l it).trackers[l] = { s.trackers[l] with silent := false, timer := true } := State.updTracker_at ..
  have told : Tells [] s (s.queued l it) := .of_slc rfl rfl
  rw [State.join_eq]
  by_cases hs : (s.trackers[l]).silent = true
  · have kept := ((s.queued l it).endCondition (.silent l)).raise_conditions (n := lineNotice l 5 none) (.inl rfl)
    rw [if_pos hs]
    refine ⟨(touch.endCondition rfl).raise rfl, ?_, ?_, ?_, ?_, kept.1, fun _ => ?_, fun h => absurd (hs.symm.trans h) (by decide)⟩
    · intro k hk
      rw [State.raise_trackers, State.raise_ports]
      exact lines k hk
    · rw [State.raise_ports]
      exact port
    · rw [State.raise_trackers]
      exact line
    · rw [if_pos hs]
      exact (told.trans (State.endCondition_tells _ _)).trans (State.raise_tells _ _)
    · rw [kept.2]
      show (updAt s.slc.silent l (fun _ => none))[l] = none
      rw [updAt_get, if_pos rfl]
  · rw [if_neg hs]
    exact ⟨touch, lines, port, line, by rw [if_neg hs]; exact told, rfl, fun h => absurd h hs, fun _ => rfl⟩

/-! ## The end of a frame (R50, R55, R56) -/

/-- A port whose idle period is counted (R50, R60). -/
def Port.idled (p : Port) : Port := { p with idleArmed := false, cuts := [] }

section
variable {s : State} {l : Fin 4}

/-- An idle event that finds nothing to do. -/
theorem exec_idleEvent_still (h : (s.ports[l]).idleArmed = false ∨ (s.ports[l]).rx = .off) : exec (.idleEvent l) s = .next s := by
  show execIdleEvent l s = _
  unfold execIdleEvent
  exact if_pos (by rcases h with h | h <;> simp [-Fin.getElem_fin, h])

/-- An idle event outside TAKE, at a receiver that is not OFF, leaves the port in HUNT. -/
theorem idleEvent_outside (hr : s.startUp.ready = true) (ha : (s.ports[l]).idleArmed = true) (ho : (s.ports[l]).rx ≠ .off)
    (ht : (s.ports[l]).rx ≠ .take) : PortBecomes (.idleEvent l) l s { (s.ports[l]).idled with rx := .hunt } := by
  have hpass : ¬((!s.startUp.ready || !(s.ports[l]).idleArmed || (s.ports[l]).rx = .off) = true) := by simp [-Fin.getElem_fin, hr, ha, ho]
  have hexec : exec (.idleEvent l) s = settle (match (s.ports[l]).rx with
      | .hunt => s.updPort l Port.idled
      | _ => (s.updPort l Port.idled).updPort l (fun p => { p with rx := .hunt })) := by
    show execIdleEvent l s = _
    unfold execIdleEvent
    rw [if_neg hpass]
    cases hx : (s.ports[l]).rx with
    | take => exact absurd hx ht
    | _ => rfl
  cases hx : (s.ports[l]).rx with
  | hunt => exact .of_updPort (hexec.trans (by rw [hx])) (by rw [← hx]; rfl)
  | _ => exact .of_updPort (hexec.trans (by rw [hx, State.updPort_updPort])) rfl

/-- An idle event in TAKE ends the frame in progress. -/
theorem exec_idleEvent_take (hr : s.startUp.ready = true) (ha : (s.ports[l]).idleArmed = true) (ht : (s.ports[l]).rx = .take) :
    exec (.idleEvent l) s = settle ((s.updPort l Port.idled).endFrame l) := by
  show execIdleEvent l s = _
  unfold execIdleEvent
  rw [if_neg (by simp [-Fin.getElem_fin, hr, ha, ht])]
  simp only [ht]
  rfl

/-- A port whose frame has ended by an idle event. -/
def Port.ended (p : Port) : Port := { p.idled with rx := .hunt, cur := none }

end

/-- The checks of R55. -/
theorem bodyOk_iff {body : List Byte} {count : Nat} : bodyOk body count = true ↔
    5 ≤ count ∧ count ≤ 255 ∧ field body 2 1 ≤ 250 ∧ count = field body 2 1 + 5 ∧
      (crc16 (body.take (3 + field body 2 1))).toNat = field body (3 + field body 2 1) 2 := by
  unfold bodyOk
  simp only [Bool.and_eq_true, decide_eq_true_eq, beq_iff_eq]
  tauto

section
variable {s : State} {l : Fin 4} {f : Filling}

/-- A frame without a buffer or corrupt is dropped. -/
theorem idleEvent_dropped (hr : s.startUp.ready = true) (ha : (s.ports[l]).idleArmed = true) (ht : (s.ports[l]).rx = .take)
    (hc : (s.ports[l]).cur = some f) (hf : f.buffered = false ∨ f.corrupt = true) :
    PortBecomes (.idleEvent l) l s (s.ports[l]).ended := by
  refine .of_updPort (f := Port.ended) ((exec_idleEvent_take hr ha ht).trans (congrArg settle ?_)) rfl
  have hcur : ((s.updPort l Port.idled).ports[l]).cur = some f := by rw [State.updPort_at]; exact hc
  unfold State.endFrame
  simp only [hcur]
  rw [if_pos (by rcases hf with hf | hf <;> simp [hf]), State.updPort_updPort]
  rfl

/-- A frame whose length or CRC-16 fails is a check failure. -/
theorem idleEvent_failed (hr : s.startUp.ready = true) (ha : (s.ports[l]).idleArmed = true) (ht : (s.ports[l]).rx = .take)
    (hc : (s.ports[l]).cur = some f) (hb : f.buffered = true) (hk : f.corrupt = false) (hw : bodyOk f.body f.count = false) :
    PortBecomes (.idleEvent l) l s { (s.ports[l]).ended with
      cnt := { (s.ports[l]).cnt with checkFailures := bump (s.ports[l]).cnt.checkFailures } } := by
  refine .of_updPort (f := fun p => { p.ended with cnt := { p.cnt with checkFailures := bump p.cnt.checkFailures } })
    ((exec_idleEvent_take hr ha ht).trans (congrArg settle ?_)) rfl
  have hcur : ((s.updPort l Port.idled).ports[l]).cur = some f := by rw [State.updPort_at]; exact hc
  unfold State.endFrame
  simp only [hcur]
  rw [if_neg (by simp [hb, hk]), if_neg (by simp [hw]), State.updPort_updPort]
  exact State.updPort_updPort ..

/-- A good frame is handed over. -/
theorem idleEvent_joined (hr : s.startUp.ready = true) (ha : (s.ports[l]).idleArmed = true) (ht : (s.ports[l]).rx = .take)
    (hc : (s.ports[l]).cur = some f) (hb : f.buffered = true) (hk : f.corrupt = false) (hw : bodyOk f.body f.count = true) :
    exec (.idleEvent l) s = settle ((s.updPort l Port.ended).join l (itemOf f.body)) := by
  refine (exec_idleEvent_take hr ha ht).trans (congrArg settle ?_)
  have hcur : ((s.updPort l Port.idled).ports[l]).cur = some f := by rw [State.updPort_at]; exact hc
  unfold State.endFrame
  simp only [hcur]
  rw [if_neg (by simp [hb, hk]), if_pos hw, State.updPort_updPort]
  rfl

end

/-- Settles O33: the frame in progress by the checks it passes, and the receiver outside TAKE. -/
theorem idleEventEndsFrame : Obligations.IdleEventEndsFrame := by
  intro l s hr p q becomes
  refine ⟨exec_idleEvent_still, fun ha => ⟨fun hx => ?_, fun hx => ?_, fun f hx hc => ?_⟩⟩
  · have h := idleEvent_outside hr ha (fun e => nomatch hx.symm.trans e) (fun e => nomatch hx.symm.trans e)
    exact cast (congrArg (PortBecomes _ l s) (by rw [← hx]; rfl)) h
  · rcases hx with hx | hx <;>
      exact idleEvent_outside hr ha (fun e => nomatch hx.symm.trans e) (fun e => nomatch hx.symm.trans e)
  · refine ⟨idleEvent_dropped hr ha hx hc,
      fun hb hk hw => idleEvent_failed hr ha hx hc hb hk (Bool.eq_false_iff.mpr fun h => hw (bodyOk_iff.mp h)), fun hb hk hw => ?_⟩
    have joined := (s.updPort l Port.ended).join_joined l (itemOf f.body)
    have port := joined.port
    rw [State.updPort_at] at port
    have told := (Tells.of_slc (s := s) (t := s.updPort l Port.ended) rfl rfl).trans joined.tells
    rw [State.updPort_trackers] at told
    refine ⟨_, idleEvent_joined hr ha hx hc hb hk (bodyOk_iff.mpr hw), ?_, ?_, ?_, ?_, ?_, ?_, ?_⟩
    · exact (((Touches.refl _ s).updPort rfl).join rfl rfl rfl).kick rfl
    · intro k hk'
      rw [State.kick_trackers, State.kick_ports]
      exact ⟨(joined.lines k hk').1, (joined.lines k hk').2.trans (State.updPort_other s hk' _)⟩
    · intro x hread
      rw [State.kick_ports, port]
      unfold itemOf
      simp only [show parseStation _ _ = some x from hread]
      rfl
    · intro hread
      rw [State.kick_ports, port]
      unfold itemOf
      simp only [show parseStation _ _ = none from hread]
      rfl
    · rw [State.kick_trackers]
      exact joined.line
    · intro hs
      rw [if_pos hs] at told
      exact ⟨(State.kick_silent _).symm ▸ joined.silenceEnds hs, told.noticeTaken hr⟩
    · intro hs
      rw [if_neg (by rw [hs]; decide)] at told
      exact ⟨told.announced, (State.kick_silent _).trans (joined.silence hs)⟩

end Sys2Proof.Machine
end

section
/-! # Discontinuities of an item (R66 to R68): what the causes met one after another leave of their line, and the notices they raise -/

namespace Sys2Proof.Machine

/-! ## The causes met one after another -/

/-- The state of a line once it has met the causes (R67, R68). -/
def lineAfter : LineState → List Nat → LineState
  | st, [] => st
  | .waiting, c :: cs => lineAfter (if c = 3 then .uncertain else .waiting) cs
  | .undefined, _ :: cs => lineAfter .undefined cs
  | _, _ :: cs => lineAfter .uncertain cs

section
variable (l : Fin 4) (st : LineState) (cs ds : List Nat)

theorem lineAfter_append : lineAfter st (cs ++ ds) = lineAfter (lineAfter st cs) ds := by
  induction cs generalizing st with
  | nil => rfl
  | cons c cs ih => cases st <;> exact ih _

theorem lineBreaks_append : lineBreaks l st (cs ++ ds) = lineBreaks l st cs ++ lineBreaks l (lineAfter st cs) ds := by
  induction cs generalizing st with
  | nil => rfl
  | cons c cs ih =>
    cases st with
    | waiting =>
      simp only [List.cons_append, lineBreaks, lineAfter]
      by_cases h0 : c = 0
      · simp [h0, ih]
      · by_cases h3 : c = 3 <;> simp [h0, h3, ih]
    | undefined => exact ih _
    | tracking => exact congrArg (_ :: ·) (ih _)
    | uncertain => exact congrArg (_ :: ·) (ih _)

theorem lineAfter_uncertain : lineAfter .uncertain cs = .uncertain := by
  induction cs with
  | nil => rfl
  | cons c cs ih => exact ih

/-- A line that is UNCERTAIN does not become so. -/
theorem lineBreaks_uncertain : ∀ n ∈ lineBreaks l .uncertain cs, n.reason = 2 := by
  induction cs with
  | nil => simp [lineBreaks]
  | cons c cs ih => exact List.forall_mem_cons.mpr ⟨rfl, ih⟩

/-- Once the line has become UNCERTAIN it is so. -/
theorem lineAfter_of_entered {n : Notice} (hn : n ∈ lineBreaks l st cs) (hr : n.reason = 1) : lineAfter st cs = .uncertain := by
  induction cs generalizing st with
  | nil => cases hn
  | cons c cs ih =>
    cases st with
    | waiting =>
      rw [lineAfter]
      by_cases h3 : c = 3
      · rw [if_pos h3, lineAfter_uncertain]
      · rw [if_neg h3]
        by_cases h0 : c = 0
        · rw [lineBreaks, if_pos h0] at hn
          rcases List.mem_cons.mp hn with rfl | hn
          · cases hr
          · exact ih _ hn
        · rw [lineBreaks, if_neg h0, if_neg h3] at hn
          exact ih _ hn
    | undefined => exact ih _ hn
    | tracking => exact lineAfter_uncertain cs
    | uncertain => exact lineAfter_uncertain cs

end

section
variable (l : Fin 4) (a b : Tracker) (cs ds : List Nat)

theorem becomesUncertain_iff : becomesUncertain l a cs = true ↔ ∃ n ∈ lineBreaks l a.state cs, n.reason = 1 := by
  simp [becomesUncertain]

variable {a b cs} (h : b.state = lineAfter a.state cs)

include h

theorem breaksLine_append : breaksLine l a (cs ++ ds) = (breaksLine l a cs || breaksLine l b ds) := by
  unfold breaksLine
  rw [lineBreaks_append, h]
  cases lineBreaks l a.state cs <;> simp

theorem becomesUncertain_append : becomesUncertain l a (cs ++ ds) = (becomesUncertain l a cs || becomesUncertain l b ds) := by
  unfold becomesUncertain
  rw [lineBreaks_append, h, List.any_append]

/-- A line becomes UNCERTAIN once at most. -/
theorem becomesUncertain_once (hu : becomesUncertain l a cs = true) : becomesUncertain l b ds = false := by
  obtain ⟨n, hn, hr⟩ := (becomesUncertain_iff l a cs).mp hu
  rw [← Bool.not_eq_true, becomesUncertain_iff, h, lineAfter_of_entered l _ _ hn hr]
  rintro ⟨m, hm, hm1⟩
  rw [lineBreaks_uncertain l ds m hm] at hm1
  cases hm1

end

/-! ## The marks -/

theorem Segment.mark_mark (b c : Bool) (g : Segment) : (g.mark b).mark c = g.mark (b || c) := by
  simp [Segment.mark, Bool.or_assoc]

theorem Segment.mark_false (g : Segment) : g.mark false = g := by simp [Segment.mark]

theorem ExitRecord.mark_mark (b c : Bool) (x : ExitRecord) : (x.mark b).mark c = x.mark (b || c) := by
  simp [ExitRecord.mark, Bool.or_assoc, Bool.and_or_distrib_right]

theorem ExitRecord.mark_false (x : ExitRecord) : x.mark false = x := by simp [ExitRecord.mark]

/-! ## What a line has met -/

/-- The counters of a line that has met the causes, with the jumps and holds counted beside. -/
def Tracker.metCounts (a : Tracker) (l : Fin 4) (causes : List Nat) (jumps holds : Nat) : TrackCounters := { a.cnt with
  jumps := bumpTimes jumps a.cnt.jumps
  holds := bumpTimes holds a.cnt.holds
  uncertain := if becomesUncertain l a causes then bump a.cnt.uncertain else a.cnt.uncertain }

/-- From `s` to `t` line `l` has met the causes, `before` raised ahead of their notices: its marks and counters, and the
condition UNCERTAIN (R68, R185). -/
structure Met (l : Fin 4) (before : List Notice) (causes : List Nat) (jumps holds : Nat) (s t : State) : Prop where
  tells : Tells (before ++ lineBreaks l (s.trackers[l]).state causes) s t
  map : (t.trackers[l]).map = (s.trackers[l]).map.map (Segment.mark (breaksLine l s.trackers[l] causes))
  exit : (t.trackers[l]).exit = (s.trackers[l]).exit.mark (breaksLine l s.trackers[l] causes)
  cnt : (t.trackers[l]).cnt = (s.trackers[l]).metCounts l causes jumps holds
  kept : becomesUncertain l s.trackers[l] causes = false → t.slc.uncertain[l] = s.slc.uncertain[l]
  entered : ∀ n ∈ lineBreaks l (s.trackers[l]).state causes, n.reason = 1 →
    t.slc.uncertain[l] = some { notice := n, repeats := 0, timer := s.slc.settings.lineRepeat }

/-- The same, and the line is in the state the causes leave, so that it may meet more. -/
structure Meets (l : Fin 4) (before : List Notice) (causes : List Nat) (jumps holds : Nat) (s t : State) : Prop
    extends Met l before causes jumps holds s t where
  state : (t.trackers[l]).state = lineAfter (s.trackers[l]).state causes

section
variable {l : Fin 4} {before : List Notice} {cs ds : List Nat} {j k j' k' : Nat} {s t u : State}

theorem Meets.andThen (h : Meets l before cs j k s t) (g : Met l [] ds j' k' t u) : Met l before (cs ++ ds) (j + j') (k + k') s u where
  tells := by
    rw [lineBreaks_append, ← List.append_assoc, ← h.state]
    exact h.tells.trans g.tells
  map := by
    rw [g.map, h.map, List.map_map, breaksLine_append l ds h.state]
    exact List.map_congr_left fun x _ => Segment.mark_mark ..
  exit := by rw [g.exit, h.exit, ExitRecord.mark_mark, ← breaksLine_append l ds h.state]
  cnt := by
    have once := becomesUncertain_once l ds h.state
    rw [g.cnt, Tracker.metCounts, h.cnt, Tracker.metCounts, Tracker.metCounts, becomesUncertain_append l ds h.state, bumpTimes_add, bumpTimes_add]
    cases hc : becomesUncertain l s.trackers[l] cs with
    | false => rfl
    | true => rw [once hc]; rfl
  kept hn := by
    rw [becomesUncertain_append l ds h.state, Bool.or_eq_false_iff] at hn
    rw [g.kept hn.2, h.kept hn.1]
  entered n hn hr := by
    rw [lineBreaks_append, ← h.state, List.mem_append] at hn
    rcases hn with hn | hn
    · have hu := (becomesUncertain_iff l s.trackers[l] cs).mpr ⟨n, hn, hr⟩
      rw [g.kept (becomesUncertain_once l ds h.state hu), h.entered n hn hr]
    · rw [g.entered n hn hr, h.tells.settings]

theorem Meets.trans (h : Meets l before cs j k s t) (g : Meets l [] ds j' k' t u) : Meets l before (cs ++ ds) (j + j') (k + k') s u where
  toMet := h.andThen g.toMet
  state := by rw [g.state, h.state, lineAfter_append]

/-- A change of a line that meets nothing. -/
theorem Met.quiet (ht : Tells before s t) (hu : t.slc.uncertain = s.slc.uncertain) (hm : (t.trackers[l]).map = (s.trackers[l]).map)
    (hx : (t.trackers[l]).exit = (s.trackers[l]).exit) (hc : (t.trackers[l]).cnt = { (s.trackers[l]).cnt with
      jumps := bumpTimes j (s.trackers[l]).cnt.jumps, holds := bumpTimes k (s.trackers[l]).cnt.holds }) : Met l before [] j k s t where
  tells := by simpa [lineBreaks] using ht
  map := by
    rw [hm]
    exact (List.map_id'' Segment.mark_false _).symm
  exit := by rw [hx]; exact (ExitRecord.mark_false _).symm
  cnt := hc
  kept _ := by rw [hu]
  entered n hn := by cases hn

/-- An update of the line that meets nothing. -/
theorem Met.of_updTracker {f : Tracker → Tracker} (hm : (f s.trackers[l]).map = (s.trackers[l]).map)
    (hx : (f s.trackers[l]).exit = (s.trackers[l]).exit) (hc : (f s.trackers[l]).cnt = { (s.trackers[l]).cnt with
      jumps := bumpTimes j (s.trackers[l]).cnt.jumps, holds := bumpTimes k (s.trackers[l]).cnt.holds }) :
    Met l [] [] j k s (s.updTracker l f) := by
  have at_ := s.updTracker_at l f
  exact .quiet (.of_slc rfl rfl) rfl (at_ ▸ hm) (at_ ▸ hx) (at_ ▸ hc)

theorem Meets.of_updTracker {f : Tracker → Tracker} (hs : (f s.trackers[l]).state = (s.trackers[l]).state)
    (hm : (f s.trackers[l]).map = (s.trackers[l]).map) (hx : (f s.trackers[l]).exit = (s.trackers[l]).exit)
    (hc : (f s.trackers[l]).cnt = { (s.trackers[l]).cnt with
      jumps := bumpTimes j (s.trackers[l]).cnt.jumps, holds := bumpTimes k (s.trackers[l]).cnt.holds }) :
    Meets l [] [] j k s (s.updTracker l f) :=
  ⟨.of_updTracker hm hx hc, s.updTracker_at l f ▸ hs⟩

/-- A change outside the line, the link and the part state. -/
theorem Meets.frame (h : Meets l before cs j k s t) (hr : u.startUp = t.startUp) (hs : u.slc = t.slc) (ht : u.trackers[l] = t.trackers[l]) :
    Meets l before cs j k s u := by
  obtain ⟨⟨h1, h2, h3, h4, h5, h6⟩, h7⟩ := h
  rw [← ht] at h2 h3 h4 h7
  rw [← hs] at h5 h6
  exact ⟨⟨h1.frame hr hs, h2, h3, h4, h5, h6⟩, h7⟩

end

/-! ## One discontinuity -/

/-- The LINE notice UNCERTAIN enters its condition, its timer running under REPEAT (R185). -/
theorem State.raise_enters (s : State) (l : Fin 4) (c : Nat) (hr : s.startUp.ready = true) :
    (s.raise (breakNotice l 1 c)).slc.uncertain[l] =
      some { notice := breakNotice l 1 c, repeats := 0, timer := s.slc.settings.lineRepeat } := by
  have hl : finOf 3 l.1 = l := by revert l; decide
  have hcond : (breakNotice l 1 c).condition = some (.uncertain l) := by
    rw [← hl]
    simp [Notice.condition, breakNotice, hl]
  have entered : (s.slc.enterInst (breakNotice l 1 c)).uncertain[l] =
      some { notice := breakNotice l 1 c, repeats := 0, timer := s.slc.settings.lineRepeat } := by
    unfold Slc.enterInst
    rw [hcond]
    show (updAt s.slc.uncertain l _)[l] = _
    rw [updAt_get, if_pos rfl]
    rfl
  rw [State.raise_eq, if_pos hr, State.updSlc_slc]
  rcases (s.slc.enterInst (breakNotice l 1 c)).takeNotice_cases (breakNotice l 1 c).cls (noticeFrame ((breakNotice l 1 c).payload none))
    with ⟨_, e⟩ | ⟨_, _, e⟩ | ⟨_, _, e⟩ <;> rw [e] <;> exact entered

theorem Tracker.counting_iff {a : Tracker} : a.counting = true ↔ a.state = .tracking ∨ a.state = .uncertain := by simp [Tracker.counting]

theorem Tracker.not_counting_iff {a : Tracker} : ¬a.counting = true ↔ a.state = .waiting ∨ a.state = .undefined := by
  rw [Tracker.counting_iff]
  cases a.state <;> simp

section
variable {s : State} {l : Fin 4}

/-- The marks of a discontinuity are the marks of one that breaks the line (R68). -/
theorem Tracker.suspectAll_eq (a : Tracker) :
    a.suspectAll = { a with map := a.map.map (Segment.mark true), exit := a.exit.mark true } := by
  simp [Tracker.suspectAll, Segment.mark, ExitRecord.mark]

/-- With neither jump nor hold, the counts differ at most in the entries into UNCERTAIN. -/
theorem Tracker.metCounts_break (a : Tracker) (cs : List Nat) : a.metCounts l cs 0 0 =
    if becomesUncertain l a cs = true then { a.cnt with uncertain := bump a.cnt.uncertain } else a.cnt := by
  unfold Tracker.metCounts
  split <;> rfl

/-- A cause that raises a notice of reason `r`, with its marks, its count and the state it leaves. -/
theorem State.meets_break {c r : Nat} {f : Tracker → Tracker} (hr : s.startUp.ready = true)
    (hb : lineBreaks l (s.trackers[l]).state [c] = [breakNotice l r c]) (h12 : r = 1 ∨ r = 2)
    (hf : f s.trackers[l] = { (s.trackers[l]).suspectAll with
      state := lineAfter (s.trackers[l]).state [c]
      cnt := if r = 1 then { (s.trackers[l]).cnt with uncertain := bump (s.trackers[l]).cnt.uncertain } else (s.trackers[l]).cnt }) :
    Meets l [] [c] 0 0 s ((s.updTracker l f).raise (breakNotice l r c)) := by
  have hbroke : breaksLine l s.trackers[l] [c] = true := by unfold breaksLine; rw [hb]; rfl
  have hline : ((s.updTracker l f).raise (breakNotice l r c)).trackers[l] = f s.trackers[l] := by
    rw [State.raise_trackers, State.updTracker_at]
  have hbecomes : becomesUncertain l s.trackers[l] [c] = (r == 1) := by unfold becomesUncertain; rw [hb]; simp [breakNotice]
  refine ⟨⟨?_, ?_, ?_, ?_, ?_, ?_⟩, by rw [hline, hf]⟩
  · rw [hb]
    exact (Tells.of_slc (s := s) (t := s.updTracker l f) rfl rfl).trans (State.raise_tells _ (breakNotice l r c))
  · rw [hline, hf, hbroke, Tracker.suspectAll_eq]
  · rw [hline, hf, hbroke, Tracker.suspectAll_eq]
  · rw [hline, hf, Tracker.metCounts_break, hbecomes]
    simp only [beq_iff_eq]
  · intro hn
    rw [hbecomes] at hn
    rcases h12 with rfl | rfl
    · cases hn
    · exact congrArg (·[l]) ((s.updTracker l f).raise_conditions (n := breakNotice l 2 c) (.inl rfl)).1
  · intro n hn h1
    rw [hb, List.mem_singleton] at hn
    subst hn
    obtain rfl : r = 1 := h1
    exact (s.updTracker l f).raise_enters l c hr

/-- A discontinuity, wherever its cause is one (R68). -/
theorem State.discontinuity_meets {c : Nat} (hr : s.startUp.ready = true)
    (hc : (s.trackers[l]).counting = true ∨ (s.trackers[l]).state = .waiting ∧ c = 3) : Meets l [] [c] 0 0 s (s.discontinuity l c) := by
  unfold State.discontinuity
  dsimp only
  by_cases hu : (s.trackers[l]).state = .uncertain
  · rw [if_pos hu]
    exact State.meets_break (r := 2) hr (by rw [hu]; rfl) (.inr rfl) (by rw [hu]; rfl)
  · rw [if_neg hu, State.updTrackCnt, State.updTracker_updTracker]
    have first : lineBreaks l (s.trackers[l]).state [c] = [breakNotice l 1 c] ∧ lineAfter (s.trackers[l]).state [c] = .uncertain := by
      rcases hc with hc | ⟨hw, rfl⟩
      · rw [(Tracker.counting_iff.mp hc).resolve_right hu]
        exact ⟨rfl, rfl⟩
      · rw [hw]
        exact ⟨rfl, rfl⟩
    exact State.meets_break (r := 1) hr first.1 (.inl rfl) (by rw [first.2]; rfl)

/-- A cause that is none on this line. -/
theorem Meets.nothing {c : Nat} (hb : lineBreaks l (s.trackers[l]).state [c] = [])
    (ha : lineAfter (s.trackers[l]).state [c] = (s.trackers[l]).state) : Meets l [] [c] 0 0 s s := by
  have same : Met l [] [] 0 0 s s := .quiet (Tells.of_slc rfl rfl) rfl rfl rfl rfl
  have hbroke : breaksLine l s.trackers[l] [c] = breaksLine l s.trackers[l] [] := by unfold breaksLine; rw [hb]; rfl
  have hbecomes : becomesUncertain l s.trackers[l] [c] = becomesUncertain l s.trackers[l] [] := by unfold becomesUncertain; rw [hb]; rfl
  refine ⟨⟨by rw [hb]; exact same.tells, by rw [hbroke]; exact same.map, by rw [hbroke]; exact same.exit, ?_, fun _ => rfl, fun n hn => ?_⟩, ha.symm⟩
  · rw [Tracker.metCounts, hbecomes]
    exact same.cnt
  · rw [hb] at hn
    cases hn

/-- A jump or a malformed item is a discontinuity in TRACKING and UNCERTAIN only (R72). -/
theorem State.discontinuityIf_meets {c : Nat} (hr : s.startUp.ready = true) (h0 : c ≠ 0) (h3 : c ≠ 3) :
    Meets l [] [c] 0 0 s (s.discontinuityIf l c) := by
  unfold State.discontinuityIf
  by_cases hc : (s.trackers[l]).counting = true
  · rw [if_pos hc]
    exact State.discontinuity_meets hr (.inl hc)
  · rw [if_neg hc]
    rcases Tracker.not_counting_iff.mp hc with hst | hst
    · refine .nothing ?_ ?_ <;> rw [hst]
      · rw [lineBreaks, if_neg h0, if_neg h3]
        rfl
      · rw [lineAfter, if_neg h3]
        rfl
    · refine .nothing ?_ ?_ <;> rw [hst] <;> rfl

/-- A gap is a discontinuity also in WAITING, and leaves the line WAITING there (log entry 53). -/
theorem State.gapFound_meets (hr : s.startUp.ready = true) : Meets l [] [0] 0 0 s (s.gapFound l) := by
  unfold State.gapFound
  by_cases hw : (s.trackers[l]).state = .waiting
  · rw [if_pos hw]
    refine State.meets_break (r := 2) hr (by rw [hw]; rfl) (.inr rfl) ?_
    rw [hw]
    simp only [Tracker.suspectAll, hw]
    rfl
  · rw [if_neg hw]
    unfold State.discontinuityIf
    by_cases hc : (s.trackers[l]).counting = true
    · rw [if_pos hc]
      exact State.discontinuity_meets hr (.inl hc)
    · rw [if_neg hc]
      have hst : (s.trackers[l]).state = .undefined := (Tracker.not_counting_iff.mp hc).resolve_left hw
      exact .nothing (by rw [hst]; rfl) (by rw [hst]; rfl)

/-! ## The operations of an item -/

/-- The sequence check meets the gap it finds (R57). -/
theorem State.seqCheck_meets (hr : s.startUp.ready = true) (seq : Byte) :
    Meets l [] (gapCauses (s.trackers[l]).lastSeq seq.toNat) 0 0 s (s.seqCheck l seq) := by
  have seen : Meets l [] [] 0 0 s (s.updTracker l (fun t => { t with lastSeq := some seq.toNat })) := .of_updTracker rfl rfl rfl rfl
  unfold State.seqCheck gapCauses Missed
  dsimp only
  cases (s.trackers[l]).lastSeq with
  | none => exact seen
  | some n =>
    dsimp only
    by_cases hm : (seq.toNat + 512 - n - 1) % 256 = 0
    · rw [if_pos hm, if_pos hm]
      exact seen
    · rw [if_neg hm, if_neg hm]
      exact (seen.frame (u := (s.updTracker l _).updPortCnt l _) rfl rfl rfl).trans (State.gapFound_meets hr)

theorem jumpCount_iff {limit c : Nat} {base : Option Nat} :
    base.any (fun b => decide (limit < (c + 4294967296 - b) % 4294967296) && decide ((c + 4294967296 - b) % 4294967296 < 2147483648)) = true ↔
      JumpCount limit base c := by
  cases base with
  | none => exact iff_of_false nofun id
  | some b =>
    rw [Option.any_some, Bool.and_eq_true, decide_eq_true_eq, decide_eq_true_eq]
    exact Iff.rfl

/-- The cause of a count beyond the jump limit (R64). -/
theorem jumpCauses_jump {limit c : Nat} {base : Option Nat} (h : JumpCount limit base c) : jumpCauses limit base c = [1] := by
  unfold jumpCauses
  rw [if_pos (jumpCount_iff.mpr h)]

theorem jumpCauses_none {limit c : Nat} {base : Option Nat} (h : ¬JumpCount limit base c) : jumpCauses limit base c = [] := by
  unfold jumpCauses
  rw [if_neg (jumpCount_iff.not.mpr h)]

/-- The rule finds a hold exactly where the count lies behind its base (R64). -/
theorem applyCount_hold (o : Nat) (base : Option Nat) (limit c : Nat) :
    (applyCount o base limit c).2.2 = .hold ↔ ∃ b, base = some b ∧ 2147483648 ≤ (c + 4294967296 - b) % 4294967296 := by
  unfold applyCount
  cases base with
  | none => simp
  | some b =>
    simp only [Option.some.injEq, exists_eq_left']
    unfold countGap countMod
    generalize (c + 4294967296 - b) % 4294967296 = d
    by_cases h0 : d = 0
    · rw [if_pos h0]
      exact iff_of_false nofun (by omega)
    · rw [if_neg h0]
      by_cases h1 : d < 2147483648
      · rw [if_pos h1]
        refine iff_of_false ?_ (by omega)
        split <;> exact nofun
      · rw [if_neg h1]
        exact iff_of_true rfl (by omega)

/-- A count behind its base is held, and no other (R64). -/
theorem holdsOf_one (o : Nat) (base : Option Nat) (limit c : Nat) :
    holdsOf [(base, c)] = if (applyCount o base limit c).2.2 = .hold then 1 else 0 := by
  unfold holdsOf
  by_cases h : (applyCount o base limit c).2.2 = .hold
  · rw [if_pos h, List.filter_cons_of_pos]
    · rfl
    · simpa only [Option.any_eq_true, decide_eq_true_eq] using (applyCount_hold o base limit c).mp h
  · rw [if_neg h, List.filter_cons_of_neg]
    · rfl
    · simpa only [Option.any_eq_true, decide_eq_true_eq] using (applyCount_hold o base limit c).not.mp h

/-- A count applied meets the jump it makes, if any, and is counted (R64, R72). -/
theorem State.takeCount_meets (hr : s.startUp.ready = true) (sd : Side) (c : Nat) :
    let cs := jumpCauses (s.trackers[l]).defn.jump ((s.trackers[l]).base sd) c
    Meets l [] cs cs.length (holdsOf [((s.trackers[l]).base sd, c)]) s (s.takeCount l sd c) := by
  have hj := applyCount_jump ((s.trackers[l]).odo sd) ((s.trackers[l]).base sd) (s.trackers[l]).defn.jump c
  have hh := holdsOf_one ((s.trackers[l]).odo sd) ((s.trackers[l]).base sd) (s.trackers[l]).defn.jump c
  dsimp only
  unfold State.takeCount
  dsimp only
  generalize applyCount ((s.trackers[l]).odo sd) ((s.trackers[l]).base sd) (s.trackers[l]).defn.jump c = r at hj hh
  set u := s.updTracker l _ with hu
  have applied : Meets l [] [] 0 0 s u := by
    cases sd <;> exact .of_updTracker rfl rfl rfl rfl
  rw [hh]
  cases hr3 : r.2.2 with
  | jump =>
    rw [jumpCauses_jump (hj.mp hr3)]
    have counted : Meets l [] [] 1 0 u (u.updTrackCnt l (fun c => { c with jumps := bump c.jumps })) := .of_updTracker rfl rfl rfl rfl
    exact (applied.trans counted).trans (State.discontinuityIf_meets hr (by decide) (by decide))
  | hold =>
    rw [jumpCauses_none (fun h => nomatch hr3.symm.trans (hj.mpr h))]
    have counted : Meets l [] [] 0 1 u (u.updTrackCnt l (fun c => { c with holds := bump c.holds })) := .of_updTracker rfl rfl rfl rfl
    exact applied.trans counted
  | _ =>
    rw [jumpCauses_none (fun h => nomatch hr3.symm.trans (hj.mpr h))]
    exact applied

/-- The end of WAITING meets RESTART where map or winding is not empty (R66). -/
theorem State.leaveWaiting_met (hr : s.startUp.ready = true) : Met l [] (restartCauses s.trackers[l]) 0 0 s (s.leaveWaiting l) := by
  unfold State.leaveWaiting restartCauses
  dsimp only
  by_cases hw : (s.trackers[l]).state = .waiting
  · rw [if_pos hw]
    by_cases he : (s.trackers[l]).map = [] ∧ (s.trackers[l]).exit.names = []
    · have empty : ((s.trackers[l]).map.isEmpty && (s.trackers[l]).exit.names.isEmpty) = true := by rw [he.1, he.2]; rfl
      rw [if_pos empty, if_neg (by tauto)]
      exact .of_updTracker rfl rfl rfl
    · have filled : ¬((s.trackers[l]).map.isEmpty && (s.trackers[l]).exit.names.isEmpty) = true := by
        simpa [-Fin.getElem_fin, -not_and] using he
      rw [if_neg filled, if_pos (by tauto)]
      exact (State.discontinuity_meets hr (.inr ⟨hw, rfl⟩)).toMet
  · rw [if_neg hw, if_neg (fun h => hw h.1)]
    exact .quiet (.of_slc rfl rfl) rfl rfl rfl rfl

end
end Sys2Proof.Machine
end

section
/-! # Blocks closed by a line (R63, R70, R99 to R101): which slots change, and what of the link stays -/

namespace Sys2Proof.Machine

/-! ## Notices of capture and archive -/

theorem State.raiseAll_conditions (s : State) {ns : List Notice} (h : ∀ n ∈ ns, n.cls ≠ .line) : SameConditions s (s.raiseAll ns) := by
  induction ns generalizing s with
  | nil => exact .of_slc rfl
  | cons n ns ih =>
    obtain ⟨hn, hns⟩ := List.forall_mem_cons.mp h
    exact (s.raise_conditions (Notice.lineFree_of_cls hn)).trans (ih _ hns)

theorem Archive.testExhausted_notices (a : Archive) : ∀ n ∈ a.testExhausted.2, n.cls = .archive := by
  unfold testExhausted
  split <;> simp [archiveNotice]

theorem Archive.retireGroup_notices (a : Archive) (g : Nat) : ∀ n ∈ (a.retireGroup g).2, n.cls = .archive :=
  List.forall_mem_cons.mpr ⟨rfl, testExhausted_notices _⟩

/-- The ring walk raises ARCHIVE notices only (R105). -/
theorem Archive.ring_notices (n : Nat) (a : Archive) (g : Nat) : ∀ m ∈ (ring n a g).1.2, m.cls = .archive := by
  induction n generalizing a g with
  | zero => exact nofun
  | succ n ih =>
    unfold ring
    split
    · exact nofun
    · exact nofun
    · exact List.forall_mem_append.mpr ⟨retireGroup_notices a g, ih _ _⟩
    · exact ih _ _

theorem Archive.eraseAhead_notices (a : Archive) : ∀ n ∈ a.eraseAhead.2, n.cls = .archive := by
  unfold eraseAhead
  split
  · dsimp only
    split
    · exact ring_notices _ _ _
    · split <;> exact ring_notices _ _ _
  · exact nofun

/-- The choice of the flash operation raises ARCHIVE notices only (R110). -/
theorem Archive.choose_notices (a : Archive) : ∀ n ∈ a.choose.2, n.cls = .archive := by
  unfold choose
  dsimp only
  split
  · exact nofun
  · split
    · exact nofun
    · split
      · exact nofun
      · split
        · exact nofun
        · split
          · exact nofun
          · split
            · exact eraseAhead_notices a
            · exact nofun

/-! ## What the archive's work leaves of the link -/

/-- The Request Unit, the replies and the condition instances of the lines read as before. -/
def LinkStays (s t : State) : Prop := SameLink s t ∧ SameConditions s t

namespace LinkStays

variable {s t u : State}

theorem of_slc (h : t.slc = s.slc) : LinkStays s t := ⟨.of_slc h, .of_slc h⟩

theorem trans (h : LinkStays s t) (k : LinkStays t u) : LinkStays s u := ⟨h.1.trans k.1, h.2.trans k.2⟩

theorem raise {n : Notice} (h : LinkStays s t) (hn : n.cls ≠ .line) : LinkStays s (t.raise n) :=
  h.trans ⟨t.raise_link n, t.raise_conditions (Notice.lineFree_of_cls hn)⟩

end LinkStays

/-- The choice of the flash operation changes archive and link only. -/
theorem State.flashKick_touches (s : State) : Touches [.archive, .slc] s s.flashKick := (Touches.refl _ s).flashKick rfl rfl

theorem State.flashKick_link (s : State) : LinkStays s s.flashKick := by
  unfold State.flashKick State.withArch
  have notLine : ∀ n ∈ s.archive.choose.2, n.cls ≠ .line := fun n hn h => nomatch (Archive.choose_notices _ n hn).symm.trans h
  exact (LinkStays.of_slc (s := s) (t := { s with archive := s.archive.choose.1 }) rfl).trans
    ⟨State.raiseAll_link _ _, State.raiseAll_conditions _ notLine⟩

/-! ## A block closed (R99 to R101) -/

/-- A slot whose open block, if it has one, is closed: its mark is the last coordinate of the block. -/
def Slot.closed (g : Slot) : Slot :=
  { g with block := none, mark := match g.block with | some b => some b.last | none => g.mark }

theorem Slot.closed_none {g : Slot} (h : g.block = none) : g.closed = g := by
  obtain ⟨defined, dseq, line, gauge, side, offset, lane, quantity, unit, idle, block, mark⟩ := g
  subst h
  rfl

theorem Slot.closed_closed (g : Slot) : g.closed.closed = g.closed := closed_none rfl

section
variable (s : State) (i : Fin 64)

theorem State.handBlock_link (b : Block) : LinkStays s (s.handBlock b) := by
  unfold State.handBlock
  dsimp only
  split
  · exact .of_slc rfl
  · split
    · exact (LinkStays.of_slc rfl).raise (fun h => nomatch h)
    · exact .of_slc rfl

theorem State.handBlock_slots (b : Block) : (s.handBlock b).capture.slots = s.capture.slots := by
  unfold State.handBlock
  dsimp only
  split
  · rfl
  · split
    · rw [State.raise_capture]
    · rfl

theorem State.closeSlot_link : LinkStays s (s.closeSlot i) := by
  unfold State.closeSlot
  dsimp only
  split
  · exact .of_slc rfl
  · split
    · exact .of_slc rfl
    · exact (LinkStays.of_slc rfl).trans (State.handBlock_link _ _)

/-- The slots after an open block is closed. -/
theorem State.closeSlot_open {b : OpenBlock} (hb : (s.capture.slots[i]).block = some b) :
    (s.closeSlot i).capture.slots = updAt s.capture.slots i (fun sl => { sl with block := none, mark := some b.last }) := by
  unfold State.closeSlot
  dsimp only
  rw [hb]
  dsimp only
  split
  · rfl
  · rw [State.handBlock_slots]
    rfl

/-- Closing a slot closes its block and leaves every other slot. -/
theorem State.closeSlot_slots (j : Fin 64) : (s.closeSlot i).capture.slots[j] =
    if i = j then (s.capture.slots[j]).closed else s.capture.slots[j] := by
  cases hb : (s.capture.slots[i]).block with
  | none =>
    have same : s.closeSlot i = s := by
      unfold State.closeSlot
      dsimp only
      rw [hb]
    rw [same]
    split
    · next hij => subst hij; exact (Slot.closed_none hb).symm
    · rfl
  | some b =>
    rw [State.closeSlot_open s i hb, updAt_get]
    split
    · next hij => subst hij; unfold Slot.closed; rw [hb]
    · rfl

theorem State.closeSlots_link (is : List (Fin 64)) : LinkStays s (s.closeSlots is) := by
  unfold State.closeSlots
  induction is generalizing s with
  | nil => exact .of_slc rfl
  | cons i is ih => exact (s.closeSlot_link i).trans (ih _)

/-- Closing slots closes their blocks and leaves every other slot. -/
theorem State.closeSlots_slots (is : List (Fin 64)) : (s.closeSlots is).capture.slots[i] =
    if i ∈ is then (s.capture.slots[i]).closed else s.capture.slots[i] := by
  unfold State.closeSlots
  induction is generalizing s with
  | nil => rfl
  | cons k is ih =>
    rw [List.foldl_cons, ih, State.closeSlot_slots]
    by_cases hk : k = i
    · subst hk
      simp [Slot.closed_closed]
    · simp [hk, Ne.symm hk]

theorem State.mem_slotsOf (l : Fin 4) : i ∈ s.slotsOf l ↔ (s.capture.slots[i]).defined = true ∧ (s.capture.slots[i]).line = l.1 := by
  simp [State.slotsOf, slotNumbers]

/-- Closing slots changes capture, archive and link only. -/
theorem State.closeSlots_touches (is : List (Fin 64)) : Touches [.capture, .archive, .slc] s (s.closeSlots is) :=
  (Touches.refl _ s).closeSlots rfl rfl rfl

end
end Sys2Proof.Machine
end

section
/-! # An item of a line taken and checked (R54, R57, R58), and items that carry no count: malformed items and restart marks (R70, R72) -/

namespace Sys2Proof.Machine

/-! ## Lines and ports but one -/

theorem OtherLines.trans {l : Fin 4} {s t u : State} (h : OtherLines l s t) (k : OtherLines l t u) : OtherLines l s u :=
  fun j hj => ⟨(k j hj).1.trans (h j hj).1, (k j hj).2.trans (h j hj).2⟩

theorem OtherTrackers.lines {l : Fin 4} {s t : State} (h : OtherTrackers l s t) (hp : t.ports = s.ports) : OtherLines l s t :=
  fun j hj => ⟨h j hj, by rw [hp]⟩

theorem OtherLines.kick {l : Fin 4} {s t : State} (h : OtherLines l s t) : OtherLines l s t.kick :=
  fun j hj => by rw [State.kick_trackers, State.kick_ports]; exact h j hj

/-! ## The item taken -/

section
variable {s u : State} {l : Fin 4} {it : Item}

theorem ItemHanded.ready (h : ItemHanded s l it) : s.startUp.ready = true := by
  have hb := h.1
  unfold State.between at hb
  simp only [Bool.and_eq_true] at hb
  exact hb.1.1

/-- An item is taken from the front of the hand-over order, or arrives whole at a port whose order is empty (log entry 14). -/
theorem State.takeItem_cases (h : s.takeItem l it = some u) :
    (∃ rest, (s.ports[l]).order = it :: rest ∧ u = s.updPort l (fun p => { p with order := rest })) ∨
    (s.ports[l]).order = [] ∧ (it ≠ .restart → u = (s.join l it).updPort l (fun p => { p with order := [] })) := by
  unfold State.takeItem at h
  split at h
  · cases h
  · dsimp only at h
    split at h
    · next head rest ho =>
      by_cases he : head = it
      · rw [if_pos he] at h
        exact .inl ⟨rest, he ▸ ho, (Option.some.inj h).symm⟩
      · rw [if_neg he] at h
        cases h
    · next ho =>
      refine .inr ⟨ho, fun hn => ?_⟩
      rw [Option.ite_none_right_eq_some] at h
      have hu := (Option.some.inj h.2).symm
      cases it with
      | restart => exact absurd rfl hn
      | _ => exact hu

/-- The port once its item is taken; an item that arrives whole is counted and ends SILENT. -/
theorem State.takeItem_taken (h : s.takeItem l it = some u) (hn : it ≠ .restart) :
    Meets l (arrivalNotices l s) [] 0 0 s u ∧
    u.ports[l] = (s.ports[l]).afterItem 0 (it.isMalformed && (s.ports[l]).order.isEmpty) := by
  rcases State.takeItem_cases h with ⟨rest, ho, rfl⟩ | ⟨ho, hu⟩
  · have none_ : arrivalNotices l s = [] := if_neg (fun hc => by rw [ho] at hc; cases hc.1)
    rw [none_, ho]
    refine ⟨⟨.quiet (.of_slc rfl rfl) rfl rfl rfl rfl, rfl⟩, ?_⟩
    rw [State.updPort_at]
    simp [Port.afterItem, ho, -Fin.getElem_fin]
  · rw [hu hn]
    have joined := s.join_joined l it
    have told : Tells (arrivalNotices l s) s ((s.join l it).updPort l (fun p => { p with order := [] })) := by
      have e : arrivalNotices l s = if (s.trackers[l]).silent = true then [lineNotice l 5 none] else [] := by
        unfold arrivalNotices
        simp only [ho, true_and]
        rfl
      rw [e]
      exact joined.tells.frame rfl rfl
    refine ⟨⟨.quiet told joined.uncertain ?_ ?_ ?_, ?_⟩, ?_⟩
    · rw [State.updPort_trackers, joined.line]
    · rw [State.updPort_trackers, joined.line]
    · rw [State.updPort_trackers, joined.line]; rfl
    · rw [State.updPort_trackers, joined.line]; rfl
    · rw [State.updPort_at, joined.port, ho]
      simp [Port.afterItem, Port.joined, ho, -Fin.getElem_fin]

/-! ## The item checked -/

/-- What the taking of an item and its sequence check leave (R57, R58). -/
structure ItemChecked (l : Fin 4) (it : Item) (seq : Byte) (s u : State) : Prop where
  lines : OtherLines l s u
  port : u.ports[l] = (s.ports[l]).afterItem (Missed (s.trackers[l]).lastSeq seq.toNat) (it.isMalformed && (s.ports[l]).order.isEmpty)
  line : Marked { s.trackers[l] with silent := (u.trackers[l]).silent, timer := (u.trackers[l]).timer, lastSeq := some seq.toNat }
    u.trackers[l]
  meets : Meets l (arrivalNotices l s) (gapCauses (s.trackers[l]).lastSeq seq.toNat) 0 0 s u

theorem ItemHanded.checked (h : ItemHanded s l it) (hn : it ≠ .restart) (seq : Byte) :
    ∃ u, s.takeItem l it = some u ∧ ItemChecked l it seq s (u.seqCheck l seq) := by
  obtain ⟨u, hu, -, lines, line, -, -⟩ := h.takeItem
  obtain ⟨taken, port⟩ := State.takeItem_taken hu hn
  obtain ⟨marked, -, others, sport, sports⟩ := State.seqCheck_line u l seq
  have last : (u.trackers[l]).lastSeq = (s.trackers[l]).lastSeq := by rw [line]
  have ready : u.startUp.ready = true := taken.tells.ready.trans h.ready
  refine ⟨u, hu, ?_, ?_, ?_, ?_⟩
  · exact fun k hk => ⟨(others k hk).trans (lines k hk).1, (sports k hk).trans (lines k hk).2⟩
  · dsimp only at sport
    rw [sport, port, last]
    unfold Port.afterItem
    by_cases hm : Missed (s.trackers[l]).lastSeq seq.toNat = 0 <;> simp only [hm, if_true, if_false]
  · have hs : ((u.seqCheck l seq).trackers[l]).silent = (u.trackers[l]).silent := marked.silent
    have ht : ((u.seqCheck l seq).trackers[l]).timer = (u.trackers[l]).timer := marked.timer
    rw [hs, ht]
    rw [line] at marked
    exact marked
  · have met := State.seqCheck_meets (l := l) ready seq
    rw [last] at met
    exact taken.trans met

end

/-! ## The states causes lead to -/

theorem lineAfter_waiting {cs : List Nat} (h : 3 ∉ cs) : lineAfter .waiting cs = .waiting := by
  induction cs with
  | nil => rfl
  | cons c cs ih =>
    obtain ⟨hc, hcs⟩ := not_or.mp (List.mem_cons.not.mp h)
    rw [lineAfter, if_neg (Ne.symm hc), ih hcs]

theorem lineAfter_tracking {cs : List Nat} (h : cs ≠ []) : lineAfter .tracking cs = .uncertain := by
  cases cs with
  | nil => exact absurd rfl h
  | cons c cs => exact lineAfter_uncertain cs

theorem gapCauses_eq_nil {last : Option Nat} {seq : Nat} : gapCauses last seq = [] ↔ Missed last seq = 0 := by
  unfold gapCauses
  split <;> simp [*]

theorem not_mem_gapCauses {c : Nat} (h : c ≠ 0) (last : Option Nat) (seq : Nat) : c ∉ gapCauses last seq := by
  unfold gapCauses
  split <;> simp [h]

/-- The discontinuities of an item, and the steps after them. -/
theorem Met.discontinued {l : Fin 4} {before after : List Notice} {cs : List Nat} {j k : Nat} {s u t : State} (h : Met l before cs j k s u)
    (ht : Tells after u t) (hu : t.slc.uncertain = u.slc.uncertain) (hc : (t.trackers[l]).cnt.uncertain = (u.trackers[l]).cnt.uncertain) :
    Discontinued l before cs after s t.kick := by
  refine ⟨(h.tells.trans ht).kick, ?_, fun hn => ?_, fun n hn hr => ?_⟩
  · rw [State.kick_trackers, hc, h.cnt]
    rfl
  · rw [State.kick_uncertain, hu, h.kept hn]
  · rw [State.kick_uncertain, hu, h.entered n hn hr]

/-! ## The leaving check (R81) -/

theorem leaving_mark (hx : Nat) (b : Bool) (m : List Segment) : leaving hx (m.map (Segment.mark b)) = (leaving hx m).map (Segment.mark b) := by
  induction m with
  | nil => rfl
  | cons g gs ih =>
    have hd : (g.mark b).dt = g.dt := rfl
    simp only [List.map_cons, leaving, hd]
    cases g.dt with
    | none => rfl
    | some d =>
      dsimp only
      split
      · exact ih
      · rfl

/-- Marks make no segment leave or stay. -/
theorem Tracker.left_mark {a b : Tracker} {k : Bool} (hm : b.map = a.map.map (Segment.mark k)) (hh : b.exit.head = a.exit.head) :
    b.left.map = a.left.map.map (Segment.mark k) := by
  unfold Tracker.left
  rw [hh]
  cases a.exit.head with
  | none => exact hm
  | some hx => exact (congrArg (leaving hx) hm).trans (leaving_mark hx k a.map)

/-- An item of the port whose only step is the leaving check. -/
theorem State.runTasks_leave (s : State) (l : Fin 4) :
    s.runTasks l true [.leave] = s.updTracker l (fun t => { t.left with work := none }) := by
  have e : s.runTasks l true [.leave] = (s.updTracker l (fun _ => (s.trackers[l]).left)).updTracker l (fun t => { t with work := none }) := rfl
  exact e.trans (State.updTracker_updTracker ..)

end Sys2Proof.Machine
end

section
/-! # O38: malformed items and restart marks at a tracker (R57, R70, R72) -/

namespace Sys2Proof.Machine

/-! ## A malformed item -/

/-- The tracker's own part in a malformed item: another kind than POSITION and READINGS is a discontinuity (R72). -/
def State.malformedSeen (s : State) (l : Fin 4) (kind : Byte) : State := if kind = 1#8 ∨ kind = 2#8 then s else s.discontinuityIf l 2

/-- Its cause. -/
def malformedCauses (kind : Byte) : List Nat := if kind = 1#8 ∨ kind = 2#8 then [] else [2]

section
variable {s : State} {l : Fin 4} {kind seq : Byte}

theorem malformedCauses_eq_nil : malformedCauses kind = [] ↔ kind = 1#8 ∨ kind = 2#8 := by
  unfold malformedCauses
  split <;> simp [*]

theorem not_mem_malformedCauses {c : Nat} (h : c ≠ 2) : c ∉ malformedCauses kind := by
  unfold malformedCauses
  split <;> simp [h]

theorem State.malformedSeen_meets (hr : s.startUp.ready = true) : Meets l [] (malformedCauses kind) 0 0 s (s.malformedSeen l kind) := by
  unfold State.malformedSeen malformedCauses
  split
  · exact ⟨.quiet (.of_slc rfl rfl) rfl rfl rfl rfl, rfl⟩
  · exact State.discontinuityIf_meets hr (by decide) (by decide)

theorem State.malformedSeen_line : Marked s.trackers[l] (s.malformedSeen l kind).trackers[l] ∧ OtherTrackers l s (s.malformedSeen l kind) ∧
    (s.malformedSeen l kind).ports = s.ports := by
  unfold State.malformedSeen
  split
  · exact ⟨Marked.refl _, OtherTrackers.refl l s, rfl⟩
  · obtain ⟨marked, -, others, ports⟩ := s.discontinuityIf_line (l := l) 2
    exact ⟨marked, others, ports⟩

/-- The states a malformed item leaves (R57, R67, R72). -/
theorem lineAfter_malformed {st st' : LineState} {last : Option Nat} (h : st' = lineAfter st (gapCauses last seq.toNat ++ malformedCauses kind)) :
    let broken : Prop := Missed last seq.toNat ≠ 0 ∨ kind ≠ 1#8 ∧ kind ≠ 2#8
    (st = .waiting → st' = .waiting) ∧ (st = .uncertain → st' = .uncertain) ∧ (st = .tracking → broken → st' = .uncertain) ∧
      (st = .tracking → ¬broken → st' = .tracking) := by
  have broken_iff : gapCauses last seq.toNat ++ malformedCauses kind = [] ↔ ¬(Missed last seq.toNat ≠ 0 ∨ kind ≠ 1#8 ∧ kind ≠ 2#8) := by
    rw [List.append_eq_nil_iff, gapCauses_eq_nil, malformedCauses_eq_nil]
    tauto
  subst h
  refine ⟨?_, ?_, ?_, ?_⟩
  · rintro rfl
    exact lineAfter_waiting (by simp [not_mem_gapCauses, not_mem_malformedCauses])
  · rintro rfl
    exact lineAfter_uncertain _
  · rintro rfl hb
    exact lineAfter_tracking (fun h => broken_iff.mp h hb)
  · rintro rfl hb
    rw [broken_iff.mpr hb]
    rfl

/-- The line at the end of a malformed item (R70, R81). -/
theorem State.exec_malformedItem (h : ItemHanded s l (.malformed kind seq)) :
    ∃ u, ItemChecked l (.malformed kind seq) seq s u ∧
      exec (.malformedItem l kind seq) s = settle (((u.malformedSeen l kind).updTracker l (fun t => { t.left with work := none }))) := by
  obtain ⟨v, hv, checked⟩ := h.checked nofun seq
  refine ⟨_, checked, ?_⟩
  have e : exec (.malformedItem l kind seq) s = execMalformedItem l kind seq s := rfl
  rw [e, ← State.runTasks_leave, execMalformedItem, hv]
  rfl

end

/-! ## A restart mark -/

section
variable {s : State} {l : Fin 4}

theorem ItemHanded.exec_restartMark (h : ItemHanded s l .restart) :
    ∃ u, s.takeItem l .restart = some u ∧
      exec (.restartMark l) s = settle ((u.lineRestart l).updTracker l Tracker.left).flashKick := by
  obtain ⟨u, hu, -⟩ := h.takeItem
  have e : exec (.restartMark l) s = execRestartMark l s := rfl
  exact ⟨u, hu, by rw [e, execRestartMark, hu]⟩

/-- A line that restarts: its tracker, the end of UNCERTAIN, and its slots (R70). -/
theorem State.lineRestart_line (s : State) (l : Fin 4) :
    (s.lineRestart l).trackers[l] = { s.trackers[l] with
      feedBase := none, deliveryBase := none, pair := none, lastSeq := none, state := .waiting } ∧
    OtherLines l s (s.lineRestart l) ∧ (s.lineRestart l).slc.uncertain[l] = none := by
  unfold State.lineRestart
  set u := (s.updTracker l _).endCondition (.uncertain l) with hu
  have touch := State.closeSlots_touches u ((s.updTracker l (fun t => { t with
    feedBase := none, deliveryBase := none, pair := none, lastSeq := none, state := .waiting })).slotsOf l)
  refine ⟨?_, fun k hk => ⟨?_, ?_⟩, ?_⟩
  · rw [touch.trackers_eq]
    exact State.updTracker_at ..
  · rw [touch.trackers_eq]
    exact OtherTrackers.updTracker s l _ k hk
  · rw [touch.ports_eq]
    rfl
  · rw [(State.closeSlots_link u _).2.1]
    exact (updAt_get ..).trans (if_pos rfl)

theorem State.lineRestart_slots (s : State) (l : Fin 4) (i : Fin 64) : (s.lineRestart l).capture.slots[i] =
    if (s.capture.slots[i]).defined = true ∧ (s.capture.slots[i]).line = l.1 then (s.capture.slots[i]).closed else s.capture.slots[i] := by
  unfold State.lineRestart
  rw [State.closeSlots_slots]
  simp only [State.mem_slotsOf]
  rfl

end

/-- Settles O38: an item that carries no count is taken and checked, meets its discontinuities and makes the leaving check; a restart mark
clears what ties the line to its counts. -/
theorem malformedAndRestartItems : Obligations.MalformedAndRestartItems := by
  unfold Obligations.MalformedAndRestartItems
  refine ⟨fun l kind seq s h => ?_, fun l s h => ?_⟩
  · 
    obtain ⟨u, checked, ran⟩ := State.exec_malformedItem h
    obtain ⟨t, next, touches⟩ := exec_runs (s := s) (.malformedItem l kind seq)
    set v := u.malformedSeen l kind with hv
    obtain rfl : (v.updTracker l (fun t => { t.left with work := none })).kick = t := Host.Outcome.next.inj (ran.symm.trans next)
    obtain ⟨seen, seenOthers, seenPorts⟩ := State.malformedSeen_line (s := u) (l := l) (kind := kind)
    rw [← hv] at seen seenOthers seenPorts
    have ready : u.startUp.ready = true := checked.meets.tells.ready.trans h.ready
    have meets : Meets l (arrivalNotices l s) (gapCauses (s.trackers[l]).lastSeq seq.toNat ++ malformedCauses kind) 0 0 s v :=
      checked.meets.trans (State.malformedSeen_meets ready)
    have marked : Marked _ v.trackers[l] := checked.line.trans seen
    have line : (v.updTracker l (fun t => { t.left with work := none })).kick.trackers[l] =
        { v.trackers[l] with map := (v.trackers[l]).left.map, work := none } := by
      rw [State.kick_trackers, State.updTracker_at, Tracker.left_eq]
    have port : v.ports[l] = (s.ports[l]).afterItem (Missed (s.trackers[l]).lastSeq seq.toNat) (s.ports[l]).order.isEmpty := by
      rw [seenPorts, checked.port]
      rfl
    have cnt : (v.trackers[l]).cnt = { (s.trackers[l]).cnt with uncertain := (v.trackers[l]).cnt.uncertain } := by
      rw [meets.cnt]
      rfl
    have others : OtherLines l s (v.updTracker l (fun t => { t.left with work := none })).kick :=
      ((checked.lines.trans (seenOthers.lines seenPorts)).trans ((OtherTrackers.updTracker v l _).lines rfl)).kick
    refine ⟨_, next, touches, others, ?_⟩
    dsimp only
    rw [line]
    refine ⟨marked.lastSeq, marked.feed, marked.feedBase, marked.delivery, marked.deliveryBase, marked.pair, rfl, ?_, lineAfter_malformed meets.state⟩
    refine ⟨meets.exit, Tracker.left_mark meets.map marked.2.2.1, ?_, ?_, cnt⟩
    · rw [State.kick_ports]
      exact port
    · refine meets.discontinued (.of_slc rfl rfl) rfl ?_
      rw [State.updTracker_at, Tracker.left_eq]
  · obtain ⟨u, hu, ran⟩ := h.exec_restartMark
    obtain ⟨t, next, touches⟩ := exec_runs (s := s) (.restartMark l)
    obtain ⟨u', hu', taken, lines, -, -, same⟩ := h.takeItem
    obtain rfl : u = u' := Option.some.inj (hu.symm.trans hu')
    set w := (u.lineRestart l).updTracker l Tracker.left with hw
    obtain rfl : w.flashKick.kick = t := Host.Outcome.next.inj (ran.symm.trans next)
    obtain ⟨line, others, ended⟩ := State.lineRestart_line u l
    have kicked := State.flashKick_touches w
    have trackers : w.flashKick.kick.trackers = w.trackers := by rw [State.kick_trackers, kicked.trackers_eq]
    have ports : w.flashKick.kick.ports = w.ports := by rw [State.kick_ports, kicked.ports_eq]
    refine ⟨_, next, touches, fun k hk => ?_, ?_, ?_, fun i => ?_⟩
    · rw [trackers, ports]
      exact ((lines.trans others).trans ((OtherTrackers.updTracker _ l _).lines rfl)) k hk
    · rw [trackers, hw, State.updTracker_at, line, same rfl]
      unfold Tracker.left
      dsimp only
      cases (s.trackers[l]).exit.head <;> rfl
    · rw [State.kick_uncertain, (State.flashKick_link w).2.1]
      exact ended
    · have slot : w.flashKick.kick.capture.slots[i] = (u.lineRestart l).capture.slots[i] := by
        rw [State.kick_capture, kicked.capture_eq]
        rfl
      rw [slot, State.lineRestart_slots, taken.capture_eq]
      refine ⟨fun hn => if_neg (fun hc => ?_), fun hd hl => if_pos ⟨hd, hl⟩⟩
      rcases hn with hn | hn
      · rw [hc.1] at hn
        cases hn
      · exact hn hc.2

end Sys2Proof.Machine
end

section
/-! # O12: DEFINE LINE (R60, R62, R63) -/

namespace Sys2Proof.Machine

/-! ## The tracker and the port redefined -/

section
variable (t : Tracker) (p : Port) {old new : LineDef}

theorem Tracker.redefine_kept (new : LineDef) : (t.redefine new).defn = new ∧ (t.redefine new).map = t.map ∧ (t.redefine new).exit = t.exit ∧
    (t.redefine new).feed = t.feed ∧ (t.redefine new).delivery = t.delivery ∧ (t.redefine new).cnt = t.cnt := by
  unfold Tracker.redefine
  dsimp only
  split
  · exact ⟨rfl, rfl, rfl, rfl, rfl, rfl⟩
  · exact ⟨rfl, rfl, rfl, rfl, rfl, rfl⟩
  · split <;> exact ⟨rfl, rfl, rfl, rfl, rfl, rfl⟩
  · exact ⟨rfl, rfl, rfl, rfl, rfl, rfl⟩

theorem Tracker.redefine_enabled (ho : t.defn.enabled = false) (hn : new.enabled = true) :
    t.redefine new = { t with defn := new, state := .waiting, timer := true } := by
  unfold Tracker.redefine
  rw [ho, hn]

theorem Tracker.redefine_disabled (ho : t.defn.enabled = true) (hn : new.enabled = false) :
    t.redefine new = { t with defn := new, state := .undefined, feedBase := none, deliveryBase := none, pair := none, lastSeq := none,
                              silent := false, timer := false } := by
  unfold Tracker.redefine
  rw [ho, hn]

theorem Tracker.redefine_stays (ho : t.defn.enabled = true) (hn : new.enabled = true) :
    t.redefine new = { t with defn := new, timer := if t.defn.silence = new.silence then t.timer else true } := by
  unfold Tracker.redefine
  rw [ho, hn]
  dsimp only
  split <;> rfl

theorem Tracker.redefine_off (ho : t.defn.enabled = false) (hn : new.enabled = false) : t.redefine new = { t with defn := new } := by
  unfold Tracker.redefine
  rw [ho, hn]

theorem portChanges_iff (old new : LineDef) : portChanges old new = true ↔
    old.enabled ≠ new.enabled ∨ old.address ≠ new.address ∨ old.rate ≠ new.rate ∨ old.parity ≠ new.parity := by
  simp [portChanges, or_assoc]

theorem Port.redefine_cnt (old new : LineDef) : (p.redefine old new).cnt = p.cnt := by
  unfold Port.redefine
  split
  · rfl
  · split <;> rfl

/-- Nothing of the port changes. -/
theorem Port.redefine_same (h : ¬portChanges old new = true) : p.redefine old new = p := by
  unfold Port.redefine
  rw [Bool.not_eq_true] at h
  rw [h]
  rfl

theorem Port.redefine_off (ho : old.enabled = false) (hn : new.enabled = false) : p.redefine old new = p := by
  unfold Port.redefine
  rw [ho, hn]
  split <;> rfl

theorem Port.redefine_enabled (ho : old.enabled = false) (hn : new.enabled = true) :
    p.redefine old new = { p.cut old.parity with rx := .settling, idleArmed := true } := by
  have changes : portChanges old new = true := (portChanges_iff old new).mpr (.inl (by rw [ho, hn]; decide))
  unfold Port.redefine
  rw [changes, ho, hn]
  rfl

theorem Port.redefine_disabled (ho : old.enabled = true) (hn : new.enabled = false) :
    p.redefine old new = { p.cut old.parity with rx := .off, cur := none, order := [] } := by
  have changes : portChanges old new = true := (portChanges_iff old new).mpr (.inl (by rw [ho, hn]; decide))
  unfold Port.redefine
  rw [changes, ho, hn]
  rfl

theorem Port.redefine_stays (ho : old.enabled = true) (hn : new.enabled = true) (h : portChanges old new = true) :
    p.redefine old new = { p.cut old.parity with rx := .settling, cur := none, idleArmed := true } := by
  unfold Port.redefine
  rw [h, ho, hn]
  rfl

theorem Port.redefine_order (ho : old.enabled = true) (hn : new.enabled = true) : (p.redefine old new).order = p.order := by
  by_cases h : portChanges old new = true
  · rw [p.redefine_stays ho hn h]
    rfl
  · rw [p.redefine_same h]

end

/-! ## The definition taking effect -/

section
variable (s : State) (l : Fin 4) (d : LineDef)

/-- Port and tracker redefined, before the conditions and blocks of a disabled line end. -/
def State.redefined : State :=
  (s.updPort l (fun p => p.redefine (s.trackers[l]).defn d)).updTracker l (fun t => t.redefine d)

theorem State.defineLine_stays (h : (s.trackers[l]).defn.enabled = false ∨ d.enabled = true) : s.defineLine l d = s.redefined l d := by
  unfold State.defineLine
  dsimp only
  rw [if_neg (by rcases h with h | h <;> simp [h, -Fin.getElem_fin])]
  rfl

theorem State.defineLine_disables (ho : (s.trackers[l]).defn.enabled = true) (hn : d.enabled = false) : s.defineLine l d =
    (((s.redefined l d).endCondition (.uncertain l)).endCondition (.silent l)).closeSlots (s.slotsOf l) := by
  unfold State.defineLine
  dsimp only
  rw [ho, hn]
  rfl

/-- A definition that takes effect closes blocks and ends conditions, and otherwise changes its own port and tracker only. -/
theorem State.defineLine_line : (s.defineLine l d).trackers[l] = (s.trackers[l]).redefine d ∧
    (s.defineLine l d).ports[l] = (s.ports[l]).redefine (s.trackers[l]).defn d ∧ OtherLines l s (s.defineLine l d) ∧
    SameLink s (s.defineLine l d) := by
  have others : OtherLines l s (s.redefined l d) := fun k hk =>
    ⟨OtherTrackers.updTracker (s.updPort l _) l _ k hk, State.updPort_other s hk _⟩
  have tracker : (s.redefined l d).trackers[l] = (s.trackers[l]).redefine d := State.updTracker_at ..
  have port : (s.redefined l d).ports[l] = (s.ports[l]).redefine (s.trackers[l]).defn d := State.updPort_at ..
  by_cases h : (s.trackers[l]).defn.enabled = false ∨ d.enabled = true
  · rw [s.defineLine_stays l d h]
    exact ⟨tracker, port, others, .of_slc rfl⟩
  · simp only [not_or, Bool.not_eq_false, Bool.not_eq_true] at h
    rw [s.defineLine_disables l d h.1 h.2]
    have touch := State.closeSlots_touches (((s.redefined l d).endCondition (.uncertain l)).endCondition (.silent l)) (s.slotsOf l)
    refine ⟨?_, ?_, ?_, ?_⟩
    · rw [touch.trackers_eq]
      exact tracker
    · rw [touch.ports_eq]
      exact port
    · intro k hk
      rw [touch.trackers_eq, touch.ports_eq]
      exact others k hk
    · exact SameLink.trans ⟨rfl, rfl, rfl⟩ (State.closeSlots_link _ _).1

/-- A line that is disabled: its conditions end, and its slots' open blocks are closed (R63, R99). -/
theorem State.defineLine_ends (ho : (s.trackers[l]).defn.enabled = true) (hn : d.enabled = false) :
    (s.defineLine l d).slc.uncertain[l] = none ∧ (s.defineLine l d).slc.silent[l] = none ∧
    ∀ i : Fin 64, (s.defineLine l d).capture.slots[i] =
      if (s.capture.slots[i]).defined = true ∧ (s.capture.slots[i]).line = l.1 then (s.capture.slots[i]).closed else s.capture.slots[i] := by
  rw [s.defineLine_disables l d ho hn]
  obtain ⟨-, uncertain, silent⟩ :=
    State.closeSlots_link (((s.redefined l d).endCondition (.uncertain l)).endCondition (.silent l)) (s.slotsOf l)
  refine ⟨?_, ?_, fun i => ?_⟩
  · rw [uncertain]
    exact (updAt_get ..).trans (if_pos rfl)
  · rw [silent]
    exact (updAt_get ..).trans (if_pos rfl)
  · rw [State.closeSlots_slots]
    simp only [State.mem_slotsOf]
    rfl

end

/-- From `s` to `t` the definition of line `l` has become `d`: what is redefined, and what a disabled line gives up. -/
structure LineDefined (l : Fin 4) (d : LineDef) (s t : State) : Prop where
  tracker : t.trackers[l] = (s.trackers[l]).redefine d
  port : t.ports[l] = (s.ports[l]).redefine (s.trackers[l]).defn d
  lines : OtherLines l s t
  stays : (s.trackers[l]).defn.enabled = false ∨ d.enabled = true → t.capture = s.capture
  ends : (s.trackers[l]).defn.enabled = true → d.enabled = false → t.slc.uncertain[l] = none ∧ t.slc.silent[l] = none ∧
    ∀ i : Fin 64, t.capture.slots[i] =
      if (s.capture.slots[i]).defined = true ∧ (s.capture.slots[i]).line = l.1 then (s.capture.slots[i]).closed else s.capture.slots[i]

theorem State.defineLine_defined (s : State) (l : Fin 4) (d : LineDef) : LineDefined l d s (s.defineLine l d) := by
  obtain ⟨tracker, port, lines, -⟩ := s.defineLine_line l d
  refine ⟨tracker, port, lines, fun h => ?_, s.defineLine_ends l d⟩
  rw [s.defineLine_stays l d h]
  rfl

/-- A change of other blocks and of the rest of the link, before and after. -/
theorem LineDefined.frame {l : Fin 4} {d : LineDef} {s s' t t' : State} (h : LineDefined l d s t) (hs : Touches [.slc] s' s)
    (ht : Touches [.archive, .slc] t t') (hc : SameConditions t t') : LineDefined l d s' t' := by
  obtain ⟨tracker, port, lines, stays, ends⟩ := h
  unfold OtherLines at lines
  rw [hs.trackers_eq] at tracker port lines stays ends
  rw [hs.ports_eq] at port lines
  rw [hs.capture_eq] at stays ends
  rw [← ht.trackers_eq] at tracker lines
  rw [← ht.ports_eq] at port lines
  rw [← ht.capture_eq] at stays ends
  rw [← hc.1, ← hc.2] at ends
  exact ⟨tracker, port, lines, stays, ends⟩

/-! ## The request -/

/-- The change of P_f, P_d or the lane count is locked (R62). -/
theorem Tracker.definitionHeld_iff (t : Tracker) (d : LineDef) : t.definitionHeld d = true ↔
    (t.map ≠ [] ∨ t.exit.names ≠ []) ∧ (d.pf ≠ t.defn.pf ∨ d.pd ≠ t.defn.pd ∨ d.lanes ≠ t.defn.lanes) := by
  have sides : t.definitionHeld d = true ↔
      (t.defn.pf ≠ d.pf ∨ t.defn.pd ≠ d.pd ∨ t.defn.lanes ≠ d.lanes) ∧ (t.map ≠ [] ∨ t.exit.names ≠ []) := by
    simp [definitionHeld, or_assoc]
  rw [sides, and_comm, ne_comm (a := d.pf), ne_comm (a := d.pd), ne_comm (a := d.lanes)]

section
variable {s : State} {r : Req} {l : Fin 4} {d : LineDef}

/-- A request for a line that is taken now. -/
theorem Admitted.lineRequest {kind : Byte} (h : Admitted s kind r) (hk : kindKnown kind = true) (own : Frame → State → State) :
    s.lineRequest kind r own = settle (own (reqFrame kind r) s.taken) := by
  unfold State.lineRequest
  rw [h.1.2.1]
  exact h.request hk own

theorem Admitted.exec_defineLine (h : Admitted s 0x02#8 r) : exec (.defineLine r) s = settle
    (withValue (lineOf r.payload) (reqFrame 0x02#8 r) s.taken (fun q =>
      if (s.taken.trackers[q.1]).definitionHeld q.2 then s.taken.refuse (reqFrame 0x02#8 r) .inUse
      else (s.taken.handLine (reqFrame 0x02#8 r) q.1 (.define q.2)).lineGo q.1)) :=
  h.lineRequest rfl _

/-- The request in hand at its line's tracker. -/
def State.defining (s : State) (r : Req) (l : Fin 4) (d : LineDef) : State := s.taken.handLine (reqFrame 0x02#8 r) l (.define d)

theorem State.defining_touches (s : State) (r : Req) (l : Fin 4) (d : LineDef) : Touches [.slc] s (s.defining r l d) :=
  s.taken_touches.updSlc rfl

theorem State.defining_between (s : State) (r : Req) (l : Fin 4) (d : LineDef) : (s.defining r l d).between l = s.between l := by
  have touch := s.defining_touches r l d
  unfold State.between
  rw [touch.startUp_eq, touch.trackers_eq]

theorem State.defining_outgoing (s : State) (r : Req) (l : Fin 4) (d : LineDef) : (s.defining r l d).outgoing = s.outgoing :=
  s.taken_outgoing

theorem Admitted.exec_defineLine_open (h : Admitted s 0x02#8 r) (hv : lineOf r.payload = some (l, d))
    (hl : ¬(s.trackers[l]).definitionHeld d = true) : exec (.defineLine r) s = settle ((s.defining r l d).lineGo l) := by
  rw [h.exec_defineLine, hv, withValue]
  dsimp only
  rw [State.taken_trackers, if_neg hl]
  rfl

theorem State.defining_goes (hb : s.between l = true) : (s.defining r l d).lineGo l =
    (((s.defining r l d).defineLine l d).accept (reqFrame 0x02#8 r)).flashKick := by
  unfold State.lineGo
  rw [State.defining_between, hb, Bool.not_true, if_neg Bool.false_ne_true]
  exact if_neg (fun h => h rfl)

theorem State.defining_defined :
    LineDefined l d s (((s.defining r l d).defineLine l d).accept (reqFrame 0x02#8 r)).flashKick.kick := by
  have accepting := (Touches.refl [.archive, .slc] ((s.defining r l d).defineLine l d)).accept (f := reqFrame 0x02#8 r) rfl
  refine (State.defineLine_defined (s.defining r l d) l d).frame (s.defining_touches r l d) ((accepting.flashKick rfl rfl).kick rfl) ?_
  have same : SameConditions ((s.defining r l d).defineLine l d) (((s.defining r l d).defineLine l d).accept (reqFrame 0x02#8 r)) :=
    ⟨State.finish_uncertain .., State.finish_silent ..⟩
  exact (same.trans (State.flashKick_link _).2).kick

theorem State.defining_answered :
    Answered s (((s.defining r l d).defineLine l d).accept (reqFrame 0x02#8 r)).flashKick.kick (acceptance r) none := by
  set u := (s.defining r l d).defineLine l d with hu
  have link : SameLink (s.defining r l d) u := (State.defineLine_line _ l d).2.2.2
  have kicked := (u.accept (reqFrame 0x02#8 r)).flashKick_link.1
  refine (State.finish_answered u (acceptance r) none).of_eq ?_ ?_ ?_ ?_
  · rw [link.2.1]
    exact congrArg List.length s.taken_replies.symm
  · rw [link.outgoing, State.defining_outgoing]
  · rw [State.kick_unit, kicked.1]
    rfl
  · rw [State.kick_outgoing, kicked.outgoing]
    rfl

theorem State.defining_waits (hb : s.between l = false) : (s.defining r l d).lineGo l = s.defining r l d := by
  unfold State.lineGo
  rw [State.defining_between, hb]
  rfl

end

/-- The slots of a disabled line, spelt out (R63, R99). -/
theorem Slot.closed_mine (mine : Prop) [Decidable mine] (g : Slot) :
    (¬mine ∨ g.block = none → (if mine then g.closed else g) = g) ∧
    ∀ b, mine → g.block = some b → (if mine then g.closed else g) = { g with block := none, mark := some b.last } := by
  refine ⟨fun h => ?_, fun b hm hb => ?_⟩
  · by_cases hm : mine
    · rw [if_pos hm]
      exact Slot.closed_none (h.resolve_left (not_not_intro hm))
    · exact if_neg hm
  · rw [if_pos hm, Slot.closed, hb]

/-- Settles O12: the request is refused for its value or its lock; else it takes effect where its tracker is between two items, and waits
where it is not. -/
theorem defineLineTakesEffect : Obligations.DefineLineTakesEffect := by
  unfold Obligations.DefineLineTakesEffect
  refine ⟨fun r s h hv => .of_finish ?_, fun r s l d h hv => ?_⟩
  · rw [h.exec_defineLine, hv]
    rfl
  intro old locked
  have locked_iff : (s.trackers[l]).definitionHeld d = true ↔ locked := Tracker.definitionHeld_iff _ _
  refine ⟨fun hl => .of_finish ?_, fun hl => ⟨fun hb => ?_, fun hb => ?_⟩⟩
  · rw [h.exec_defineLine, hv, withValue]
    dsimp only
    rw [State.taken_trackers, if_pos (locked_iff.mpr hl)]
    rfl
  · have ran := h.exec_defineLine_open hv (mt locked_iff.mp hl)
    obtain ⟨t, next, touches⟩ := exec_runs (s := s) (.defineLine r)
    rw [State.defining_goes hb] at ran
    obtain rfl := Host.Outcome.next.inj (ran.symm.trans next)
    have defined := State.defining_defined (s := s) (r := r) (l := l) (d := d)
    obtain ⟨defn, map, exit, feed, delivery, cnt⟩ := (s.trackers[l]).redefine_kept d
    refine ⟨_, next, defined.lines, touches, State.defining_answered, ?_⟩
    generalize (((s.defining r l d).defineLine l d).accept (reqFrame 0x02#8 r)).flashKick.kick = t at defined
    obtain ⟨tracker, port, -, stays, ends⟩ := defined
    rw [tracker, port]
    refine ⟨defn, map, exit, feed, delivery, cnt, Port.redefine_cnt .., fun ho hn => ?_, fun ho hn => ?_, stays, fun ho hn => ?_, fun he hn => ?_⟩
    · rw [Tracker.redefine_enabled _ ho hn, Port.redefine_enabled _ ho hn]
      exact ⟨rfl, rfl, rfl⟩
    · obtain ⟨uncertain, silent, slots⟩ := ends ho hn
      rw [Tracker.redefine_disabled _ ho hn, Port.redefine_disabled _ ho hn]
      refine ⟨rfl, rfl, rfl, rfl, rfl, rfl, rfl, rfl, rfl, uncertain, silent, fun i => ?_⟩
      rw [slots i]
      exact Slot.closed_mine _ _
    · rw [Tracker.redefine_stays _ ho hn, Port.redefine_order _ ho hn]
      refine ⟨rfl, rfl, rfl, rfl, fun hc => ?_, fun ha hr hp => ?_⟩
      · rw [Port.redefine_stays _ ho hn ((portChanges_iff _ _).mpr (.inr hc))]
        exact ⟨rfl, rfl⟩
      · refine Port.redefine_same _ (mt (portChanges_iff _ _).mp ?_)
        have same : (s.trackers[l]).defn.enabled = d.enabled := ho.trans hn.symm
        rintro (hc | hc | hc | hc)
        · exact hc same
        · exact hc ha
        · exact hc hr
        · exact hc hp
    · have ho : (s.trackers[l]).defn.enabled = false := he.trans hn
      rw [Tracker.redefine_off _ ho hn, Port.redefine_off _ ho hn]
      exact ⟨rfl, rfl⟩
  · have ran := h.exec_defineLine_open hv (mt locked_iff.mp hl)
    rw [State.defining_waits hb] at ran
    refine ⟨_, ran, (s.defining_touches r l d).kick rfl, ?_, ?_⟩
    · rw [State.kick_unit]
      rfl
    · rw [State.kick_outgoing, State.defining_outgoing]

end Sys2Proof.Machine
end

section
/-! # The last steps of an item (R75 to R81): the work they leave, the faults they raise, and the pair they keep -/

namespace Sys2Proof.Machine

/-! ## The work presented -/

/-- The tracker with its work, if it has one, presented (R74). -/
def Tracker.presenting (a : Tracker) : Tracker := { a with work := a.work.map (fun x => { x with presented := true }) }

theorem Tracker.presenting_idle {a : Tracker} (h : a.work = none) : a.presenting = a := by
  obtain ⟨defn, state, feed, feedBase, delivery, deliveryBase, pair, lastSeq, map, exit, silent, timer, work, clear, cnt⟩ := a
  subst h
  rfl

theorem Tracker.presenting_work (a : Tracker) : a.presenting.work = none ↔ a.work = none := by
  unfold presenting
  exact Option.map_eq_none_iff

section
variable (s : State) (l : Fin 4) (p : Bool) (ks : List Task)

/-- The steps of an item run on the tracker alone, but for the notices of its faults. -/
theorem State.runTasks_presenting : (s.runTasks l p ks).trackers[l] = (Tracker.goOn p ks s.trackers[l]).presenting := by
  induction ks generalizing s with
  | nil => exact State.itemDone_at ..
  | cons k ks ih =>
    have hop : (s.task l k).2 = ((s.trackers[l]).task k).op := rfl
    unfold State.runTasks Tracker.goOn
    dsimp only
    rw [hop]
    cases ((s.trackers[l]).task k).op with
    | none =>
      dsimp only
      rw [ih, State.task_at]
    | some q =>
      dsimp only
      rw [State.updTracker_at, State.task_at]
      rfl

/-! ## The faults of the steps -/

/-- The coils whose track faults the steps raise, in order (R79). -/
def Tracker.runFaults : List Task → Tracker → List (Option Ref)
  | [], _ => []
  | k :: ks, a => (a.task k).fault.toList ++ if (a.task k).op = none then Tracker.runFaults ks (a.task k).tracker else []

theorem State.task_faults (k : Task) : Tells (((s.trackers[l]).task k).fault.toList.map (faultNotice l s.table)) s (s.task l k).1 := by
  unfold State.task
  dsimp only
  cases ((s.trackers[l]).task k).fault with
  | none => exact .of_slc rfl rfl
  | some r =>
    have updated : Tells [] s (s.updTracker l fun _ => ((s.trackers[l]).task k).tracker) := .of_slc rfl rfl
    exact updated.trans (State.raise_tells _ (s.trackFaultNotice l r))

theorem State.runTasks_faults : Tells ((Tracker.runFaults ks s.trackers[l]).map (faultNotice l s.table)) s (s.runTasks l true ks) := by
  induction ks generalizing s with
  | nil => exact .of_slc rfl rfl
  | cons k ks ih =>
    have hop : (s.task l k).2 = ((s.trackers[l]).task k).op := rfl
    have table : (s.task l k).1.table = s.table := ((Touches.refl [.trackers, .slc] s).task rfl rfl).table_eq
    have first := s.task_faults l k
    unfold State.runTasks Tracker.runFaults
    dsimp only
    rw [hop]
    cases ((s.trackers[l]).task k).op with
    | none =>
      have rest := ih (s.task l k).1
      rw [State.task_at, table] at rest
      rw [if_pos rfl, List.map_append]
      exact first.trans rest
    | some q =>
      rw [if_neg nofun, List.append_nil]
      exact first.frame rfl rfl

/-- A track fault enters no condition of a line (R185). -/
theorem State.task_conditions (k : Task) : SameConditions s (s.task l k).1 := by
  unfold State.task
  dsimp only
  cases ((s.trackers[l]).task k).fault with
  | none => exact .of_slc rfl
  | some r => exact State.raise_conditions _ (.inl rfl)

theorem State.runTasks_conditions : SameConditions s (s.runTasks l true ks) := by
  induction ks generalizing s with
  | nil => exact .of_slc rfl
  | cons k ks ih =>
    have first := s.task_conditions l k
    unfold State.runTasks
    dsimp only
    split
    · exact first.trans (ih _)
    · exact first

end

/-! ## Where nothing is due -/

section
variable {a : Tracker} {p : Bool} {ks : List Task}

theorem NoneDue.task_crossHead (h : NoneDue a) (i : Nat) : a.task (.crossHead i) = a.plain := by
  unfold Tracker.task
  dsimp only
  cases hx : a.map[i]? with
  | none => rfl
  | some g =>
    have notDue : ¬a.headDue g = true := by
      simp only [Tracker.headDue, Bool.and_eq_true, Option.isNone_iff_eq_none, decide_eq_true_eq, not_and, not_le]
      exact (h g (List.mem_of_getElem? hx)).1
    dsimp only
    rw [if_neg notDue]

theorem NoneDue.task_crossTail (h : NoneDue a) (i : Nat) : a.task (.crossTail i) = a.plain := by
  unfold Tracker.task
  dsimp only
  cases hx : a.map[i]? with
  | none => rfl
  | some g =>
    dsimp only
    cases hf : g.ft with
    | none => rfl
    | some f =>
      have notDue : ¬a.tailDue g = true := by
        simp only [Tracker.tailDue, hf, Bool.and_eq_true, Option.isNone_iff_eq_none, decide_eq_true_eq, not_and, not_le]
        exact (h g (List.mem_of_getElem? hx)).2 f hf
      dsimp only
      rw [if_neg notDue]

theorem NoneDue.runFaults (h : NoneDue a) (hk : LastSteps ks) : Tracker.runFaults ks a = [] := by
  induction ks generalizing a with
  | nil => rfl
  | cons k ks ih =>
    unfold Tracker.runFaults
    rcases hk k (List.mem_cons_self ..) with ⟨i, rfl | rfl⟩ | rfl | rfl
    · rw [h.task_crossHead i]
      exact ih h hk.tail
    · rw [h.task_crossTail i]
      exact ih h hk.tail
    · exact ih (a := { a with pair := some (a.feed, a.delivery) }) h hk.tail
    · exact ih h.left hk.tail

/-- The steps behind the crossings keep the pair and make the leaving check. -/
theorem Tracker.goOn_counts (a : Tracker) : Tracker.goOn p [.keepPair, .leave] a =
    ({ a with pair := some (a.feed, a.delivery), work := none } : Tracker).left :=
  Tracker.goOn_settled p (fun k hk => .inr (by simpa using hk)) a (.inl (fun k hk => by simpa using hk))

/-- Where steps before the pair leave work, the pair stays (R74). -/
theorem Tracker.goOn_pair {ks : List Task} (hk : ∀ k ∈ ks, k ≠ .keepPair) (a : Tracker)
    (hw : (Tracker.goOn p (ks ++ [.keepPair, .leave]) a).work ≠ none) : (Tracker.goOn p (ks ++ [.keepPair, .leave]) a).pair = a.pair := by
  induction ks generalizing a with
  | nil => exact absurd rfl hw
  | cons k ks ih =>
    obtain ⟨first, rest⟩ := List.forall_mem_cons.mp hk
    rw [List.cons_append, Tracker.goOn] at hw ⊢
    cases ho : (a.task k).op with
    | none =>
      rw [ho] at hw
      exact (ih rest _ hw).trans (Tracker.task_pair a k first)
    | some q => exact Tracker.task_pair a k first

/-! ## One step, and the steps behind it -/

theorem Tracker.goOn_quiet {k : Task} {b : Tracker} (h : a.task k = b.plain) : Tracker.goOn p (k :: ks) a = Tracker.goOn p ks b := by
  rw [Tracker.goOn, h]
  rfl

theorem Tracker.runFaults_quiet {k : Task} {b : Tracker} (h : a.task k = b.plain) : Tracker.runFaults (k :: ks) a = Tracker.runFaults ks b := by
  rw [Tracker.runFaults, h]
  rfl

/-- The steps of an item that carries counts and has moved the feed odometer. -/
theorem lastTasks_counts : lastTasks true true = .crossHead 0 :: .crossTail 0 :: (crossingsFrom 1 ++ [.keepPair, .leave]) := by decide

theorem lastSteps_counts : LastSteps (crossingsFrom 1 ++ [.keepPair, .leave]) := by
  intro k hk
  rcases List.mem_append.mp hk with hk | hk
  · obtain ⟨i, -, hi⟩ := List.mem_flatMap.mp hk
    exact .inl ⟨i, by simpa using hi⟩
  · exact .inr (by simpa using hk)

/-- Where nothing is due any more, the steps left keep the pair and make the leaving check. -/
theorem NoneDue.goOn_rest (h : NoneDue a) : Tracker.goOn p (crossingsFrom 1 ++ [.keepPair, .leave]) a =
    ({ a with pair := some (a.feed, a.delivery), work := none } : Tracker).left := by
  rw [Tracker.goOn_settled p lastSteps_counts a (.inr h)]
  dsimp only
  rw [if_pos (by simp), if_pos (by simp)]

/-! ## A map of one segment -/

theorem NoneDue.of_crossed {g : Segment} (hm : a.map = [g]) (hh : g.dh = none → a.feed < g.fh + a.defn.pf) (ht : g.ft = none ∨ g.dt ≠ none) :
    NoneDue a := by
  intro x hx
  rw [hm, List.mem_singleton] at hx
  subst hx
  exact ⟨hh, fun f hf hd => (ht.elim (fun h => nomatch hf.symm.trans h) (fun h => absurd hd h))⟩

/-- The segment whose head has been looked at (R79). -/
def Tracker.headed (a : Tracker) (g : Segment) : Segment := if a.headDue g then { g with dh := some (a.crossAt g.fh) } else g

theorem Tracker.task_crossHead_one {g : Segment} (hm : a.map = [g]) : a.task (.crossHead 0) = ({ a with map := [a.headed g] } : Tracker).plain := by
  unfold Tracker.task Tracker.headed
  dsimp only
  rw [hm]
  dsimp only [List.getElem?_cons_zero]
  split
  · unfold Tracker.modSeg
    rw [hm]
    rfl
  · rw [← hm]

theorem Tracker.left_stays {g : Segment} (hm : a.map = [g]) (h : ∀ e d, a.exit.head = some e → g.dt = some d → e < d) : a.left = a := by
  rw [Tracker.left_eq]
  have same : a.left.map = a.map := by
    unfold Tracker.left
    cases he : a.exit.head with
    | none => rfl
    | some e =>
      show leaving e a.map = a.map
      rw [hm, leaving]
      cases hd : g.dt with
      | none => rfl
      | some d => exact if_neg (Nat.not_le.mpr (h e d he hd))
  rw [same]

theorem Tracker.left_leaves {g : Segment} {e d : Nat} (hm : a.map = [g]) (he : a.exit.head = some e) (hd : g.dt = some d) (hle : d ≤ e) :
    a.left.map = [] := by
  unfold Tracker.left
  rw [he]
  show leaving e a.map = []
  rw [hm, leaving, hd]
  exact if_pos hle

/-- A single open segment: its head may cross, and it stays (R79, R81). -/
theorem Tracker.goOn_open {g : Segment} (moved : Bool) (hm : a.map = [g]) (hf : g.ft = none) (hd : g.dt = none) :
    Tracker.goOn p (lastTasks moved true) a = { a with
      map := [if moved then a.headed g else g], pair := some (a.feed, a.delivery), work := none } ∧
    Tracker.runFaults (lastTasks moved true) a = [] := by
  cases moved with
  | false =>
    have stays : ({ a with pair := some (a.feed, a.delivery), work := none } : Tracker).left = _ :=
      Tracker.left_stays (g := g) hm (fun _ _ _ h => nomatch hd.symm.trans h)
    refine ⟨?_, rfl⟩
    rw [if_neg Bool.false_ne_true, ← hm]
    exact a.goOn_counts.trans stays
  | true =>
    have crossed : (a.headed g).ft = none ∧ (a.headed g).dt = none ∧ ((a.headed g).dh = none → a.feed < g.fh + a.defn.pf) := by
      unfold Tracker.headed Tracker.headDue
      split
      · exact ⟨hf, hd, nofun⟩
      · next hn =>
        refine ⟨hf, hd, fun hh => ?_⟩
        simpa [hh] using hn
    obtain ⟨hf', hd', hh'⟩ := crossed
    have fh : (a.headed g).fh = g.fh := by
      unfold Tracker.headed
      split <;> rfl
    have quiet : NoneDue { a with map := [a.headed g] } := .of_crossed rfl (fh ▸ hh') (.inl hf')
    rw [lastTasks_counts]
    constructor
    · rw [Tracker.goOn_quiet (a.task_crossHead_one hm), Tracker.goOn_quiet (quiet.task_crossTail 0), quiet.goOn_rest]
      exact Tracker.left_stays rfl (fun _ _ _ h => nomatch hd'.symm.trans h)
    · rw [Tracker.runFaults_quiet (a.task_crossHead_one hm), Tracker.runFaults_quiet (quiet.task_crossTail 0)]
      exact quiet.runFaults lastSteps_counts

end

/-! ## The tail of a single segment (R79, R80) -/

section
variable {a : Tracker} {p : Bool} {g : Segment} {ft h : Nat}

/-- The map is a single segment whose head has crossed and whose tail falls due. -/
structure TailDue (a : Tracker) (g : Segment) (ft h : Nat) : Prop where
  map : a.map = [g]
  tail : g.ft = some ft
  head : g.dh = some h
  ahead : g.dt = none
  due : ft + a.defn.pf ≤ a.feed

/-- The crossing is outside its bounds (R80). -/
def Segment.Outside (g : Segment) (ft h x : Nat) : Prop := x = h ∨ 200000000 < x - h ∨ 200000000 < ft - g.fh

/-- The tracker whose single segment has a track fault (R80). -/
def Tracker.faulted (a : Tracker) (g : Segment) (ft : Nat) : Tracker := { a with
  map := [{ g with dt := some (a.crossAt ft), fault := .trackFault }]
  cnt := { a.cnt with trackFaults := bump a.cnt.trackFaults } }

namespace TailDue

theorem task_head (d : TailDue a g ft h) : a.task (.crossHead 0) = a.plain := by
  have same : a.headed g = g := by
    unfold Tracker.headed Tracker.headDue
    rw [d.head]
    rfl
  rw [a.task_crossHead_one d.map, same, ← d.map]

theorem task_tail (d : TailDue a g ft h) : a.task (.crossTail 0) = a.crossTail 0 g ft := by
  have due : a.tailDue g = true := by
    unfold Tracker.tailDue
    rw [d.ahead, d.tail]
    exact decide_eq_true d.due
  unfold Tracker.task
  dsimp only
  rw [d.map]
  dsimp only [List.getElem?_cons_zero]
  rw [d.tail]
  exact if_pos due

theorem task_finalize (d : TailDue a g ft h) {q : Ref} {len : Nat} (hc : g.coil = some q) (hz : g.fault = .none) (hl : g.length = some len)
    (ho : ¬g.Outside ft h (a.crossAt ft)) : a.task (.crossTail 0) =
      { a.plain with op := some (.finalize q g.orient g.fh ft h (a.crossAt ft) len g.suspect, 0) } := by
  rw [d.task_tail]
  unfold Tracker.crossTail
  rw [hz, hc, hl, d.head]
  exact if_neg ho

theorem modSeg_modSeg (d : TailDue a g ft h) : ((a.modSeg 0 (fun g => { g with dt := some (a.crossAt ft) })).trackFault 0 g.coil) =
    { tracker := a.faulted g ft, op := g.coil.map (fun q => (.dropPending q, 0)), fault := some g.coil } := by
  unfold Tracker.trackFault Tracker.modSeg Tracker.faulted
  rw [d.map]
  rfl

theorem task_fault (d : TailDue a g ft h) (hz : g.fault = .none)
    (hb : g.coil = none ∨ g.length = none ∨ g.Outside ft h (a.crossAt ft)) : a.task (.crossTail 0) =
      { tracker := a.faulted g ft, op := g.coil.map (fun q => (.dropPending q, 0)), fault := some g.coil } := by
  rw [d.task_tail, ← d.modSeg_modSeg]
  unfold Tracker.crossTail
  rw [hz, d.head]
  dsimp only
  cases hc : g.coil with
  | none => rfl
  | some q =>
    cases hl : g.length with
    | none => rfl
    | some len =>
      refine if_pos ?_
      rcases hb with hb | hb | hb
      · exact nomatch hc.symm.trans hb
      · exact nomatch hl.symm.trans hb
      · exact hb

theorem task_crossed (d : TailDue a g ft h) (hz : g.fault ≠ .none) : a.task (.crossTail 0) =
    ({ a with map := [{ g with dt := some (a.crossAt ft) }] } : Tracker).plain := by
  rw [d.task_tail]
  unfold Tracker.crossTail Tracker.modSeg
  rw [d.map]
  dsimp only
  split
  · next hf => exact absurd hf hz
  · rfl

/-- The steps behind the crossing of the tail. -/
theorem goOn_eq (d : TailDue a g ft h) : Tracker.goOn p (lastTasks true true) a =
    Tracker.goOn p (.crossTail 0 :: (crossingsFrom 1 ++ [.keepPair, .leave])) a := by
  rw [lastTasks_counts, Tracker.goOn_quiet d.task_head]

theorem runFaults_eq (d : TailDue a g ft h) : Tracker.runFaults (lastTasks true true) a =
    Tracker.runFaults (.crossTail 0 :: (crossingsFrom 1 ++ [.keepPair, .leave])) a := by
  rw [lastTasks_counts, Tracker.runFaults_quiet d.task_head]

/-- The work a crossing leaves. -/
def tailWork (op : TrackOp) (p : Bool) : Work :=
  { op := op, presented := false, seg := 0, todo := crossingsFrom 1 ++ [.keepPair, .leave], fromPort := p }

theorem finalizes (d : TailDue a g ft h) {q : Ref} {len : Nat} (hc : g.coil = some q) (hz : g.fault = .none) (hl : g.length = some len)
    (ho : ¬g.Outside ft h (a.crossAt ft)) : Tracker.goOn p (lastTasks true true) a =
      { a with work := some (tailWork (.finalize q g.orient g.fh ft h (a.crossAt ft) len g.suspect) p) } ∧
    Tracker.runFaults (lastTasks true true) a = [] := by
  rw [d.goOn_eq, d.runFaults_eq, Tracker.goOn, Tracker.runFaults, d.task_finalize hc hz hl ho]
  exact ⟨rfl, rfl⟩

theorem drops (d : TailDue a g ft h) {q : Ref} (hc : g.coil = some q) (hz : g.fault = .none)
    (hb : g.length = none ∨ g.Outside ft h (a.crossAt ft)) : Tracker.goOn p (lastTasks true true) a =
      { a.faulted g ft with work := some (tailWork (.dropPending q) p) } ∧ Tracker.runFaults (lastTasks true true) a = [some q] := by
  rw [d.goOn_eq, d.runFaults_eq, Tracker.goOn, Tracker.runFaults, d.task_fault hz (.inr hb), hc]
  exact ⟨rfl, rfl⟩

/-- Nothing is due of a segment that has crossed. -/
theorem crossed_noneDue (d : TailDue a g ft h) {b : Tracker} {m : Segment} {x : Nat} (hm : b.map = [m]) (hh : m.dh = g.dh)
    (hx : m.dt = some x) : NoneDue b :=
  .of_crossed hm (fun hn => nomatch (hn.symm.trans hh).trans d.head) (.inr (by rw [hx]; exact nofun))

theorem lost (d : TailDue a g ft h) (hc : g.coil = none) (hz : g.fault = .none) : Tracker.goOn p (lastTasks true true) a =
      ({ a.faulted g ft with pair := some (a.feed, a.delivery), work := none } : Tracker).left ∧
    Tracker.runFaults (lastTasks true true) a = [none] := by
  have quiet : NoneDue (a.faulted g ft) := d.crossed_noneDue rfl rfl rfl
  rw [d.goOn_eq, d.runFaults_eq, Tracker.goOn, Tracker.runFaults, d.task_fault hz (.inl hc), hc]
  exact ⟨quiet.goOn_rest, congrArg ([none] ++ ·) (quiet.runFaults lastSteps_counts)⟩

theorem crosses (d : TailDue a g ft h) (hz : g.fault ≠ .none) : Tracker.goOn p (lastTasks true true) a =
      ({ a with map := [{ g with dt := some (a.crossAt ft) }], pair := some (a.feed, a.delivery), work := none } : Tracker).left ∧
    Tracker.runFaults (lastTasks true true) a = [] := by
  have quiet : NoneDue { a with map := [{ g with dt := some (a.crossAt ft) }] } := d.crossed_noneDue rfl rfl rfl
  rw [d.goOn_eq, d.runFaults_eq, Tracker.goOn_quiet (d.task_crossed hz), Tracker.runFaults_quiet (d.task_crossed hz)]
  exact ⟨quiet.goOn_rest, quiet.runFaults lastSteps_counts⟩

end TailDue

/-- A crossed segment leaves once the exit record's head has reached it (R81). -/
theorem Tracker.left_crossed {m : Segment} {x : Nat} (hm : a.map = [m]) (hx : m.dt = some x) :
    ((∀ e, a.exit.head = some e → e < x) → a.left.map = [m]) ∧ (∀ e, a.exit.head = some e → x ≤ e → a.left.map = []) := by
  refine ⟨fun he => ?_, fun e he hle => Tracker.left_leaves hm he hx hle⟩
  rw [Tracker.left_stays hm (fun e d h hd => Option.some.inj (hx.symm.trans hd) ▸ he e h), hm]

end
end Sys2Proof.Machine
end

section
/-! # The counts of an item taken (R64, R66, R67): both odometers, the discontinuities, and the end of WAITING -/

namespace Sys2Proof.Machine

/-- Both counts applied, and WAITING left (R64, R66). -/
def State.countsTaken (s : State) (l : Fin 4) (feed delivery : Nat) : State :=
  ((s.takeCount l .feed feed).takeCount l .delivery delivery).leaveWaiting l

/-- Both counts on a tracker. -/
def Tracker.countedBoth (a : Tracker) (feed delivery : Nat) : Tracker := (a.counted .feed feed).counted .delivery delivery

/-- The causes the counts meet (R64, R66). -/
def Tracker.countCauses (a : Tracker) (feed delivery : Nat) : List Nat :=
  jumpCauses a.defn.jump a.feedBase feed ++ jumpCauses a.defn.jump a.deliveryBase delivery

theorem not_mem_jumpCauses {c : Nat} (h : c ≠ 1) (limit : Nat) (base : Option Nat) (n : Nat) : c ∉ jumpCauses limit base n := by
  unfold jumpCauses
  split <;> simp [h]

theorem jumpCauses_eq_nil {limit n : Nat} {base : Option Nat} : jumpCauses limit base n = [] ↔ ¬JumpCount limit base n := by
  by_cases h : JumpCount limit base n
  · rw [jumpCauses_jump h]
    exact iff_of_false nofun (not_not_intro h)
  · rw [jumpCauses_none h]
    exact iff_of_true rfl h

theorem lineAfter_eq_waiting {st : LineState} {cs : List Nat} (h : 3 ∉ cs) : lineAfter st cs = .waiting ↔ st = .waiting := by
  cases st with
  | waiting => exact iff_of_true (lineAfter_waiting h) rfl
  | uncertain => rw [lineAfter_uncertain]
  | tracking =>
    cases cs with
    | nil => exact Iff.rfl
    | cons c cs =>
      rw [lineAfter_tracking (List.cons_ne_nil c cs)]
      exact iff_of_false nofun nofun
  | undefined =>
    have stays : lineAfter .undefined cs = .undefined := by
      induction cs with
      | nil => rfl
      | cons c cs ih => exact ih (fun hm => h (List.mem_cons_of_mem _ hm))
    rw [stays]

theorem restartCauses_congr {a b : Tracker} (hs : b.state = .waiting ↔ a.state = .waiting) (hm : b.map = [] ↔ a.map = [])
    (hx : b.exit.names = a.exit.names) : restartCauses b = restartCauses a := by
  unfold restartCauses
  rw [hx]
  simp only [hs, ne_eq, hm]

section
variable {s : State} {l : Fin 4}

theorem Marked.map_nil {a b : Tracker} (h : Marked a b) : b.map = [] ↔ a.map = [] := by
  rw [← List.length_eq_zero_iff, ← List.length_eq_zero_iff, h.length]

theorem Marked.counted {a b : Tracker} (h : Marked a b) (sd : Side) (c : Nat) : Marked (a.counted sd c) (b.counted sd c) :=
  h.upd (fun t => t.counted sd c) (fun _ => by cases sd <;> rfl) (fun _ => by cases sd <;> exact ⟨rfl, rfl⟩)

/-- What the counts leave of their line, its discontinuities aside. -/
theorem State.bothCounts_line (s : State) (l : Fin 4) (feed delivery : Nat) :
    let t := (s.takeCount l .feed feed).takeCount l .delivery delivery
    Marked ((s.trackers[l]).countedBoth feed delivery) t.trackers[l] ∧ OtherLines l s t ∧ t.ports = s.ports := by
  obtain ⟨mf, -, -, of, pf⟩ := s.takeCount_line (l := l) .feed feed
  obtain ⟨md, -, -, od, pd⟩ := (s.takeCount l .feed feed).takeCount_line (l := l) .delivery delivery
  exact ⟨(mf.counted .delivery delivery).trans md, (of.lines pf).trans (od.lines pd), pd.trans pf⟩

theorem State.countsTaken_lines (s : State) (l : Fin 4) (feed delivery : Nat) :
    OtherLines l s (s.countsTaken l feed delivery) ∧ (s.countsTaken l feed delivery).ports = s.ports := by
  obtain ⟨-, others, ports⟩ := s.bothCounts_line l feed delivery
  obtain ⟨-, -, -, -, ow, pw⟩ := ((s.takeCount l .feed feed).takeCount l .delivery delivery).leaveWaiting_line (l := l)
  exact ⟨others.trans (ow.lines pw), pw.trans ports⟩

/-- The counts met, before WAITING is left (R64, R72). -/
theorem State.bothCounts_meets (hr : s.startUp.ready = true) (feed delivery : Nat) :
    let a := s.trackers[l]
    Meets l [] (a.countCauses feed delivery) (a.countCauses feed delivery).length
      (holdsOf [(a.feedBase, feed), (a.deliveryBase, delivery)]) s ((s.takeCount l .feed feed).takeCount l .delivery delivery) := by
  have feedMeets := State.takeCount_meets (l := l) hr .feed feed
  have marked := (s.takeCount_line (l := l) .feed feed).1
  have deliveryMeets := State.takeCount_meets (l := l) (feedMeets.tells.ready.trans hr) .delivery delivery
  have base : ((s.takeCount l .feed feed).trackers[l]).base .delivery = (s.trackers[l]).deliveryBase := marked.deliveryBase
  rw [marked.defn, base] at deliveryMeets
  have both := feedMeets.trans deliveryMeets
  have holds : holdsOf [((s.trackers[l]).feedBase, feed), ((s.trackers[l]).deliveryBase, delivery)] =
      holdsOf [((s.trackers[l]).feedBase, feed)] + holdsOf [((s.trackers[l]).deliveryBase, delivery)] := by
    unfold holdsOf
    rw [← List.length_append, ← List.filter_append]
    rfl
  dsimp only
  rw [holds, Tracker.countCauses, List.length_append]
  exact both

/-! ## An item that carries both counts -/

/-- The causes of an item that carries both counts (R64, R66, R67). -/
def Tracker.itemCauses (a : Tracker) (seq feed delivery : Nat) : List Nat :=
  gapCauses a.lastSeq seq ++ jumpCauses a.defn.jump a.feedBase feed ++ jumpCauses a.defn.jump a.deliveryBase delivery ++ restartCauses a

theorem Tracker.jumps_itemCauses (a : Tracker) (seq feed delivery : Nat) :
    ((a.itemCauses seq feed delivery).filter (· == 1)).length = (a.countCauses feed delivery).length := by
  have gap : (gapCauses a.lastSeq seq).filter (· == 1) = [] := by
    unfold gapCauses
    split <;> rfl
  have restart : (restartCauses a).filter (· == 1) = [] := by
    unfold restartCauses
    split <;> rfl
  have jump (limit : Nat) (base : Option Nat) (n : Nat) : (jumpCauses limit base n).filter (· == 1) = jumpCauses limit base n := by
    unfold jumpCauses
    split <;> rfl
  simp [itemCauses, countCauses, gap, restart, jump]

/-- No frame was missed and neither count jumps. -/
theorem Tracker.unbroken_iff (a : Tracker) (seq feed delivery : Nat) : gapCauses a.lastSeq seq ++ a.countCauses feed delivery = [] ↔
    ¬(Missed a.lastSeq seq ≠ 0 ∨ JumpCount a.defn.jump a.feedBase feed ∨ JumpCount a.defn.jump a.deliveryBase delivery) := by
  rw [Tracker.countCauses, List.append_eq_nil_iff, List.append_eq_nil_iff, gapCauses_eq_nil, jumpCauses_eq_nil, jumpCauses_eq_nil, not_or,
    not_or, not_ne_iff]

/-- The line's state once the item's counts are taken (R66, R67). -/
structure CountedState (a : Tracker) (seq feed delivery : Nat) (st : LineState) : Prop where
  breaks : a.state = .tracking → Missed a.lastSeq seq ≠ 0 ∨ JumpCount a.defn.jump a.feedBase feed ∨ JumpCount a.defn.jump a.deliveryBase delivery →
    st = .uncertain
  keeps : a.state = .tracking →
    ¬(Missed a.lastSeq seq ≠ 0 ∨ JumpCount a.defn.jump a.feedBase feed ∨ JumpCount a.defn.jump a.deliveryBase delivery) → st = .tracking
  uncertain : a.state = .uncertain → st = .uncertain
  resumes : a.state = .waiting → a.map = [] ∧ a.exit.names = [] → st = .tracking
  restarts : a.state = .waiting → ¬(a.map = [] ∧ a.exit.names = []) → st = .uncertain

/-- What an item that carries both counts leaves before its crossings. -/
structure CountsMet (l : Fin 4) (seq : Byte) (feed delivery : Nat) (s v : State) : Prop where
  line : ∃ silent timer, Marked (({ s.trackers[l] with silent := silent, timer := timer, lastSeq := some seq.toNat } : Tracker).countedBoth
    feed delivery) v.trackers[l]
  met : Met l (arrivalNotices l s) ((s.trackers[l]).itemCauses seq.toNat feed delivery) ((s.trackers[l]).countCauses feed delivery).length
    (holdsOf [((s.trackers[l]).feedBase, feed), ((s.trackers[l]).deliveryBase, delivery)]) s v
  state : CountedState s.trackers[l] seq.toNat feed delivery (v.trackers[l]).state

/-- The item checked, its counts met, and WAITING left. -/
theorem Meets.item {before : List Notice} {cs ds es : List Nat} {j k : Nat} {t u v : State} (h : Meets l before cs 0 0 s t)
    (g : Meets l [] ds j k t u) (f : Met l [] es 0 0 u v) : Met l before (cs ++ ds ++ es) j k s v := by
  have met := (h.trans g).andThen f
  rwa [Nat.zero_add, Nat.zero_add] at met

theorem ItemChecked.counts {it : Item} {seq : Byte} {u : State} (h : ItemChecked l it seq s u) (hr : s.startUp.ready = true)
    (feed delivery : Nat) : CountsMet l seq feed delivery s (u.countsTaken l feed delivery) := by
  have counts := State.bothCounts_meets (l := l) (h.meets.tells.ready.trans hr) feed delivery
  have causes : (u.trackers[l]).countCauses feed delivery = (s.trackers[l]).countCauses feed delivery := by
    unfold Tracker.countCauses
    rw [h.line.defn, h.line.feedBase, h.line.deliveryBase]
  dsimp only at counts
  rw [causes, h.line.feedBase, h.line.deliveryBase] at counts
  have both := h.meets.trans counts
  have line := ((h.line.counted .feed feed).counted .delivery delivery).trans (u.bothCounts_line l feed delivery).1
  obtain ⟨marked, stays, resumes, restarts, -, -⟩ := ((u.takeCount l .feed feed).takeCount l .delivery delivery).leaveWaiting_line (l := l)
  unfold State.countsTaken
  set w := (u.takeCount l .feed feed).takeCount l .delivery delivery with hw
  have no3 : 3 ∉ gapCauses (s.trackers[l]).lastSeq seq.toNat ++ (s.trackers[l]).countCauses feed delivery := by
    simp [Tracker.countCauses, not_mem_gapCauses, not_mem_jumpCauses]
  have waits : (w.trackers[l]).state = .waiting ↔ (s.trackers[l]).state = .waiting := by
    rw [both.state]
    exact lineAfter_eq_waiting no3
  have map_nil : (w.trackers[l]).map = [] ↔ (s.trackers[l]).map = [] := line.map_nil
  have names : (w.trackers[l]).exit.names = (s.trackers[l]).exit.names := line.2.2.2
  have restart := restartCauses_congr waits map_nil names
  have met := h.meets.item counts (State.leaveWaiting_met (both.tells.ready.trans hr))
  rw [restart] at met
  have broken_iff := (s.trackers[l]).unbroken_iff seq.toNat feed delivery
  refine ⟨⟨_, _, line.trans marked⟩, ?_, ⟨fun ht hb => ?_, fun ht hb => ?_, fun hu => ?_, fun hw he => ?_, fun hw he => ?_⟩⟩
  · rw [Tracker.countCauses, ← List.append_assoc] at met
    exact met
  · have st : (w.trackers[l]).state = .uncertain := by
      rw [both.state, ht]
      exact lineAfter_tracking (fun hn => broken_iff.mp hn hb)
    exact (stays (by rw [st]; exact nofun)).trans st
  · have st : (w.trackers[l]).state = .tracking := by
      rw [both.state, ht, broken_iff.mpr hb]
      rfl
    exact (stays (by rw [st]; exact nofun)).trans st
  · have st : (w.trackers[l]).state = .uncertain := by
      rw [both.state, hu]
      exact lineAfter_uncertain _
    exact (stays (by rw [st]; exact nofun)).trans st
  · exact resumes (waits.mpr hw) (map_nil.mpr he.1) (names.trans he.2)
  · rw [← map_nil, ← names] at he
    exact restarts (waits.mpr hw) he

end
end Sys2Proof.Machine
end

section
/-! # O34: a POSITION frame (R64, R66, R74, R78 to R80) -/

namespace Sys2Proof.Machine

theorem lastSteps_position (moved : Bool) : LastSteps (lastTasks moved true) := by
  cases moved with
  | false => exact fun k hk => .inr (by simpa [lastTasks] using hk)
  | true =>
    rw [lastTasks_counts]
    exact List.forall_mem_cons.mpr ⟨.inl ⟨0, .inl rfl⟩, List.forall_mem_cons.mpr ⟨.inl ⟨0, .inr rfl⟩, lastSteps_counts⟩⟩

theorem keepPair_mem_lastTasks (moved : Bool) : Task.keepPair ∈ lastTasks moved true := by cases moved <;> decide

/-- Work left by the steps of an item that carries counts leaves the pair as it stands (R74). -/
theorem Tracker.goOn_lastTasks_pair {p moved : Bool} {a : Tracker} (hw : (Tracker.goOn p (lastTasks moved true) a).work ≠ none) :
    (Tracker.goOn p (lastTasks moved true) a).pair = a.pair := by
  have split_ : ∃ ks : List Task, (∀ k ∈ ks, k ≠ .keepPair) ∧ lastTasks moved true = ks ++ [.keepPair, .leave] := by
    cases moved with
    | false => exact ⟨[], nofun, rfl⟩
    | true => exact ⟨crossTasks, by decide, rfl⟩
  obtain ⟨ks, hk, e⟩ := split_
  rw [e] at hw ⊢
  exact Tracker.goOn_pair hk a hw

/-- A segment that is still in the map has at most crossed (R78 to R81). -/
theorem MapRan.origin {hx : Option Nat} {m m' : List Segment} (h : MapRan hx m m') {y : Segment} (hy : y ∈ m') : ∃ x ∈ m, Crossed x y := by
  obtain ⟨n, hlen, -, stays⟩ := h
  obtain ⟨k, hk, e⟩ := List.mem_iff_getElem.mp hy
  have hkn : k + n < m.length := by omega
  obtain ⟨z, hz, crossed⟩ := stays k m[k + n] (List.getElem?_eq_getElem hkn)
  rw [List.getElem?_eq_getElem hk, e, Option.some.injEq] at hz
  exact ⟨m[k + n], List.getElem_mem hkn, hz ▸ crossed⟩

/-- The head of a marked segment, where the odometer has moved or not. -/
theorem Tracker.headed_mark (a : Tracker) (g : Segment) (k : Bool) (moved : Prop) [Decidable moved] :
    (if decide moved = true then a.headed (g.mark k) else g.mark k) =
    { g with suspect := g.suspect || k
             dh := if g.dh = none ∧ moved ∧ g.fh + a.defn.pf ≤ a.feed then some (a.crossAt g.fh) else g.dh } := by
  have due : a.headDue (g.mark k) = true ↔ g.dh = none ∧ g.fh + a.defn.pf ≤ a.feed := by
    unfold Tracker.headDue
    rw [Bool.and_eq_true, Option.isNone_iff_eq_none, decide_eq_true_eq]
    exact Iff.rfl
  by_cases hm : moved
  · rw [if_pos (decide_eq_true hm), Tracker.headed]
    by_cases hd : g.dh = none ∧ g.fh + a.defn.pf ≤ a.feed
    · rw [if_pos (due.mpr hd), if_pos ⟨hd.1, hm, hd.2⟩]
      rfl
    · rw [if_neg (due.not.mpr hd), if_neg (fun h => hd ⟨h.1, h.2.2⟩)]
      rfl
  · rw [if_neg (by rwa [decide_eq_true_eq]), if_neg (fun h => hm h.2.1)]
    rfl

/-- What a POSITION frame leaves: `c` is its line's tracker once the counts are taken, before the steps. -/
structure PositionRan (l : Fin 4) (seq : Byte) (feed delivery : Nat) (s t : State) (c : Tracker) : Prop where
  line : ∃ silent timer, Marked (({ s.trackers[l] with silent := silent, timer := timer, lastSeq := some seq.toNat } : Tracker).countedBoth
    feed delivery) c
  state : CountedState s.trackers[l] seq.toNat feed delivery c.state
  map : c.map = (s.trackers[l]).map.map (Segment.mark (breaksLine l s.trackers[l] ((s.trackers[l]).itemCauses seq.toNat feed delivery)))
  exit : c.exit = (s.trackers[l]).exit.mark (breaksLine l s.trackers[l] ((s.trackers[l]).itemCauses seq.toNat feed delivery))
  cnt : c.cnt = (s.trackers[l]).metCounts l ((s.trackers[l]).itemCauses seq.toNat feed delivery)
    ((s.trackers[l]).countCauses feed delivery).length (holdsOf [((s.trackers[l]).feedBase, feed), ((s.trackers[l]).deliveryBase, delivery)])
  ran : t.trackers[l] = (Tracker.goOn true (lastTasks (decide ((s.trackers[l]).feed < c.feed)) true) c).presenting
  raises : Discontinued l (arrivalNotices l s) ((s.trackers[l]).itemCauses seq.toNat feed delivery)
    ((Tracker.runFaults (lastTasks (decide ((s.trackers[l]).feed < c.feed)) true) c).map (faultNotice l s.table)) s t
  faults : ∃ faults : List (Option Ref),
    Discontinued l (arrivalNotices l s) ((s.trackers[l]).itemCauses seq.toNat feed delivery) (faults.map (faultNotice l s.table)) s t ∧
      (t.trackers[l]).cnt.trackFaults = bumpTimes faults.length c.cnt.trackFaults

section
variable {l : Fin 4} {seq : Byte} {feed delivery time : BitVec 32} {s : State}

/-- The steps of an item that has none of its own (R74). -/
theorem State.runItem_nil (s : State) (l : Fin 4) (before : Nat) :
    s.runItem l before false [] = s.runTasks l true (lastTasks (decide (before < (s.trackers[l]).feed)) true) := by
  rw [State.runItem, List.nil_append, Bool.false_or]

theorem State.exec_position {u : State} (hu : s.takeItem l (.frame seq (.position feed delivery time)) = some u) :
    exec (.position l seq feed delivery time) s =
      settle (((u.seqCheck l seq).countsTaken l feed.toNat delivery.toNat).runItem l (s.trackers[l]).feed false []) := by
  have arm : exec (.position l seq feed delivery time) s = execPosition l seq feed delivery time s := rfl
  rw [arm, execPosition, hu]
  rfl

theorem ItemHanded.position (h : ItemHanded s l (.frame seq (.position feed delivery time))) :
    ∃ t c, exec (.position l seq feed delivery time) s = .next t ∧ OtherLines l s t ∧
      t.ports[l] = (s.ports[l]).afterItem (Missed (s.trackers[l]).lastSeq seq.toNat) false ∧
      PositionRan l seq feed.toNat delivery.toNat s t c := by
  obtain ⟨u, hu, checked⟩ := h.checked nofun seq
  have ran := State.exec_position hu
  have counts := checked.counts h.ready feed.toNat delivery.toNat
  obtain ⟨lines, ports⟩ := (u.seqCheck l seq).countsTaken_lines l feed.toNat delivery.toNat
  have table : ((u.seqCheck l seq).countsTaken l feed.toNat delivery.toNat).table = s.table := by
    have taken := (Touches.refl [.ports, .trackers, .slc] s).takeItem hu rfl rfl rfl
    exact ((((taken.seqCheck rfl rfl rfl).takeCount rfl rfl).takeCount rfl rfl).leaveWaiting rfl rfl).table_eq
  rw [State.runItem_nil] at ran
  generalize (u.seqCheck l seq).countsTaken l feed.toNat delivery.toNat = v at ran counts lines ports table
  generalize hks : lastTasks (decide ((s.trackers[l]).feed < (v.trackers[l]).feed)) true = ks at ran
  obtain ⟨same, -⟩ := Tracker.goOn_ranLast true (hks ▸ lastSteps_position _) v.trackers[l]
  have presented := v.runTasks_presenting l true ks
  have uncertain : ((v.runTasks l true ks).trackers[l]).cnt.uncertain = (v.trackers[l]).cnt.uncertain := by
    rw [presented, Tracker.presenting, same]
  have raises {after : List Notice} (ht : Tells after v (v.runTasks l true ks)) :=
    counts.met.discontinued ht (v.runTasks_conditions l ks).1 uncertain
  refine ⟨_, v.trackers[l], ran, ?_, ?_, counts.line, counts.state, counts.met.map, counts.met.exit, counts.met.cnt, ?_, ?_, ?_⟩
  · have steps : OtherLines l v (v.runTasks l true ks) :=
      (v.runTasks_line l true ks).2.lines ((Touches.refl [.trackers, .slc] v).runTasks rfl rfl).ports_eq
    exact ((checked.lines.trans lines).trans steps).kick
  · rw [State.kick_ports, ((Touches.refl [.trackers, .slc] v).runTasks rfl rfl).ports_eq, ports]
    exact checked.port
  · rw [State.kick_trackers, presented, hks]
  · rw [hks, ← table]
    exact raises (v.runTasks_faults l ks)
  · obtain ⟨faults, told, counted⟩ := v.runTasks_tells l true ks
    rw [← table, State.kick_trackers]
    exact ⟨faults, raises told, counted⟩

end

/-! ## What the frame leaves -/

namespace PositionRan

section
variable {l : Fin 4} {seq : Byte} {feed delivery : Nat} {s t : State} {c : Tracker} (h : PositionRan l seq feed delivery s t c)

include h

/-- The steps change the pair, the map, the count of track faults and the work. -/
theorem same : t.trackers[l] = { c with
    pair := (t.trackers[l]).pair, map := (t.trackers[l]).map, work := (t.trackers[l]).work
    cnt := { c.cnt with trackFaults := (t.trackers[l]).cnt.trackFaults } } := by
  obtain ⟨same, -⟩ := Tracker.goOn_ranLast true (lastSteps_position (decide ((s.trackers[l]).feed < c.feed))) c
  rw [h.ran, Tracker.presenting, same]

theorem defn : c.defn = (s.trackers[l]).defn := by
  obtain ⟨silent, timer, line⟩ := h.line
  exact line.defn

theorem feed_eq : (t.trackers[l]).feed = c.feed := by rw [h.same]
theorem delivery_eq : (t.trackers[l]).delivery = c.delivery := by rw [h.same]

theorem pair : c.pair = (s.trackers[l]).pair := by
  obtain ⟨silent, timer, line⟩ := h.line
  exact line.pair

theorem lastSeq : (t.trackers[l]).lastSeq = some seq.toNat := by
  obtain ⟨silent, timer, line⟩ := h.line
  rw [h.same]
  exact line.lastSeq

theorem feedTaken : CountTaken (s.trackers[l]).defn.jump (s.trackers[l]).feed (s.trackers[l]).feedBase feed
    (t.trackers[l]).feed (t.trackers[l]).feedBase := by
  obtain ⟨silent, timer, line⟩ := h.line
  rw [h.same]
  dsimp only
  rw [line.feed, line.feedBase]
  exact applyCount_taken ..

theorem deliveryTaken : CountTaken (s.trackers[l]).defn.jump (s.trackers[l]).delivery (s.trackers[l]).deliveryBase delivery
    (t.trackers[l]).delivery (t.trackers[l]).deliveryBase := by
  obtain ⟨silent, timer, line⟩ := h.line
  rw [h.same]
  dsimp only
  rw [line.delivery, line.deliveryBase]
  exact applyCount_taken ..

theorem pairTaken (hw : (t.trackers[l]).work = none) : (t.trackers[l]).pair = some ((t.trackers[l]).feed, (t.trackers[l]).delivery) := by
  obtain ⟨-, -, kept, -⟩ := Tracker.goOn_ranLast true (lastSteps_position (decide ((s.trackers[l]).feed < c.feed))) c
  rw [h.ran, Tracker.presenting_work] at hw
  have pair := kept hw
  rw [if_pos (keepPair_mem_lastTasks _)] at pair
  rw [h.feed_eq, h.delivery_eq, h.ran]
  exact pair

theorem pairKept (hw : (t.trackers[l]).work ≠ none) : (t.trackers[l]).pair = (s.trackers[l]).pair := by
  rw [h.ran, ne_eq, Tracker.presenting_work] at hw
  rw [← h.pair, h.ran]
  exact Tracker.goOn_lastTasks_pair hw

theorem segments {g : Segment} (hg : g ∈ (t.trackers[l]).map) : ∃ x ∈ (s.trackers[l]).map,
    g.coil = x.coil ∧ g.orient = x.orient ∧ g.length = x.length ∧ g.fh = x.fh ∧ g.ft = x.ft ∧
      g.suspect = (x.suspect || breaksLine l s.trackers[l] ((s.trackers[l]).itemCauses seq.toNat feed delivery)) := by
  obtain ⟨-, ran, -⟩ := Tracker.goOn_ranLast true (lastSteps_position (decide ((s.trackers[l]).feed < c.feed))) c
  rw [h.ran] at hg
  obtain ⟨y, hy, crossed, -⟩ := MapRan.origin ran hg
  rw [h.map] at hy
  obtain ⟨x, hx, rfl⟩ := List.mem_map.mp hy
  rw [crossed]
  exact ⟨x, hx, rfl, rfl, rfl, rfl, rfl, rfl⟩

/-- The crossing coordinate of R42 and R43, from the pair as it stood. -/
theorem crossAt (f : Nat) : c.crossAt f = crossing (s.trackers[l]).pair (t.trackers[l]).feed (t.trackers[l]).delivery
    (f + (s.trackers[l]).defn.pf) + (s.trackers[l]).defn.pd := by
  rw [Tracker.crossAt, h.pair, h.feed_eq, h.delivery_eq, h.defn]

/-- The map of one segment, its mark set. -/
theorem map_one {g : Segment} (hm : (s.trackers[l]).map = [g]) :
    c.map = [g.mark (breaksLine l s.trackers[l] ((s.trackers[l]).itemCauses seq.toNat feed delivery))] := by
  rw [h.map, hm]
  rfl

/-- The frame's notices where its steps raise the faults `fs`. -/
theorem raises_of {fs : List (Option Ref)} (hf : Tracker.runFaults (lastTasks (decide ((s.trackers[l]).feed < c.feed)) true) c = fs) :
    Discontinued l (arrivalNotices l s) ((s.trackers[l]).itemCauses seq.toNat feed delivery) (fs.map (faultNotice l s.table)) s t :=
  hf ▸ h.raises

/-- A single open segment: its head crosses where it falls due (R79). -/
theorem openSegment {g : Segment} (hm : (s.trackers[l]).map = [g]) (hf : g.ft = none) (hd : g.dt = none) :
    (t.trackers[l]).work = none ∧
    Discontinued l (arrivalNotices l s) ((s.trackers[l]).itemCauses seq.toNat feed delivery) [] s t ∧
    (t.trackers[l]).map = [{ g with
      suspect := g.suspect || breaksLine l s.trackers[l] ((s.trackers[l]).itemCauses seq.toNat feed delivery)
      dh := if g.dh = none ∧ (s.trackers[l]).feed < (t.trackers[l]).feed ∧ g.fh + (s.trackers[l]).defn.pf ≤ (t.trackers[l]).feed then
        some (c.crossAt g.fh) else g.dh }] := by
  obtain ⟨ran, faults⟩ := Tracker.goOn_open (p := true) (decide ((s.trackers[l]).feed < c.feed)) (h.map_one hm) hf hd
  have line := h.ran
  rw [ran] at line
  refine ⟨?_, h.raises_of faults, ?_⟩
  · rw [line]
    rfl
  · have map : (t.trackers[l]).map = [_] := congrArg Tracker.map line
    rw [map, Tracker.headed_mark, h.feed_eq, h.defn]

/-- A single segment whose tail falls due (R79, R80). -/
theorem tailDue {g : Segment} {ft x : Nat} (hm : (s.trackers[l]).map = [g]) (hf : g.ft = some ft) (hh : g.dh = some x) (hd : g.dt = none)
    (hdue : ft + (s.trackers[l]).defn.pf ≤ (t.trackers[l]).feed) :
    TailDue c (g.mark (breaksLine l s.trackers[l] ((s.trackers[l]).itemCauses seq.toNat feed delivery))) ft x := by
  rw [h.feed_eq, ← h.defn] at hdue
  exact ⟨h.map_one hm, hf, hh, hd, hdue⟩

theorem moved (hmv : (s.trackers[l]).feed < (t.trackers[l]).feed) : decide ((s.trackers[l]).feed < c.feed) = true := by
  rw [h.feed_eq] at hmv
  exact decide_eq_true hmv

/-- The line and its notices where the steps of an item that moved the feed odometer are known. -/
theorem moved_ran (hmv : (s.trackers[l]).feed < (t.trackers[l]).feed) {b : Tracker} {fs : List (Option Ref)}
    (hr : Tracker.goOn true (lastTasks true true) c = b ∧ Tracker.runFaults (lastTasks true true) c = fs) : t.trackers[l] = b.presenting ∧
    Discontinued l (arrivalNotices l s) ((s.trackers[l]).itemCauses seq.toNat feed delivery) (fs.map (faultNotice l s.table)) s t := by
  have line := h.ran
  rw [h.moved hmv, hr.1] at line
  exact ⟨line, h.raises_of (by rw [h.moved hmv]; exact hr.2)⟩

theorem trackFaults : c.cnt.trackFaults = (s.trackers[l]).cnt.trackFaults := by
  rw [h.cnt]
  rfl

theorem head : c.exit.head = (s.trackers[l]).exit.head := by
  rw [h.exit]
  rfl

/-- The counters of the frame, with the track faults of its steps. -/
theorem counters {n : Nat} (hn : (t.trackers[l]).cnt.trackFaults = bumpTimes n c.cnt.trackFaults) : (t.trackers[l]).cnt = { (s.trackers[l]).cnt with
    jumps := bumpTimes (((s.trackers[l]).itemCauses seq.toNat feed delivery).filter (· == 1)).length (s.trackers[l]).cnt.jumps
    holds := bumpTimes (holdsOf [((s.trackers[l]).feedBase, feed), ((s.trackers[l]).deliveryBase, delivery)]) (s.trackers[l]).cnt.holds
    uncertain := (t.trackers[l]).cnt.uncertain
    trackFaults := bumpTimes n (s.trackers[l]).cnt.trackFaults } := by
  have counted : (t.trackers[l]).cnt = { c.cnt with trackFaults := (t.trackers[l]).cnt.trackFaults } := congrArg Tracker.cnt h.same
  rw [hn, h.trackFaults] at counted
  rw [counted, h.cnt, Tracker.jumps_itemCauses]
  rfl

/-- The end of a frame whose one segment's tail has crossed (R81). -/
theorem leaves {b : Tracker} {m : Segment} {x : Nat} (hr : t.trackers[l] = b.left.presenting) (hw : b.work = none)
    (hx : b.exit = c.exit) (hm : b.map = [m]) (hd : m.dt = some x) :
    (t.trackers[l]).work = none ∧ (t.trackers[l]).cnt = b.cnt ∧
    ((∀ e, (s.trackers[l]).exit.head = some e → e < x) → (t.trackers[l]).map = [m]) ∧
    (∀ e, (s.trackers[l]).exit.head = some e → x ≤ e → (t.trackers[l]).map = []) := by
  have idle : b.left.work = none := by rw [Tracker.left_eq]; exact hw
  have line : t.trackers[l] = { b with map := b.left.map } := by rw [hr, Tracker.presenting_idle idle, ← Tracker.left_eq]
  have ends := Tracker.left_crossed hm hd
  rw [hx, h.head] at ends
  rw [line]
  exact ⟨hw, rfl, ends⟩

end
end PositionRan

/-- Settles O34: the item is taken and checked, its counts are taken, and its steps cross what is due. -/
theorem positionAppliesCounts : Obligations.PositionAppliesCounts := by
  intro l seq feed delivery time s handed a causes broke raises
  obtain ⟨t, c, next, lines, port, h⟩ := handed.position
  obtain ⟨t', next', touches⟩ := exec_runs (s := s) (.position l seq feed delivery time)
  obtain rfl : t = t' := Host.Outcome.next.inj (next.symm.trans next')
  have state : (t.trackers[l]).state = c.state := by rw [h.same]
  have exit : (t.trackers[l]).exit = c.exit := by rw [h.same]
  obtain ⟨breaks, keeps, uncertain, resumes, restarts⟩ := h.state
  refine ⟨t, next, touches, lines, ⟨h.lastSeq, ?_, exit.trans h.exit, port, ?_, h.feedTaken, h.deliveryTaken, ?_⟩, ?_⟩
  · rw [h.same]
    exact h.defn
  · obtain ⟨faults, raised, counted⟩ := h.faults
    exact ⟨faults, raised, h.counters counted⟩
  · rw [state]
    refine ⟨breaks, keeps, uncertain, resumes, restarts, h.pairTaken, h.pairKept, fun g hg => h.segments hg, fun g hm hf hd => ?_⟩
    intro target point
    have at_ : c.crossAt g.fh = point + a.defn.pd := h.crossAt g.fh
    rw [← at_]
    exact h.openSegment hm hf hd
  · intro b g ft e hm hf hh hd hmv hdue target point x mark presents out
    have due := h.tailDue hm hf hh hd hdue
    have at_ : c.crossAt ft = x := h.crossAt ft
    refine ⟨fun q len hc hz hlen ho => ?_, fun q hc hz hb => ?_, fun hz => ?_, fun hz hc hlen => ?_⟩
    · obtain ⟨line, raised⟩ := h.moved_ran hmv (due.finalizes (p := true) hc hz hlen (at_ ▸ ho))
      rw [at_] at line
      refine ⟨?_, ?_, raised, ?_⟩
      · exact (congrArg Tracker.map line).trans (h.map_one hm)
      · exact congrArg Tracker.work line
      · exact (congrArg (·.cnt.trackFaults) line).trans h.trackFaults
    · obtain ⟨line, raised⟩ := h.moved_ran hmv (due.drops (p := true) hc hz (at_ ▸ hb))
      rw [Tracker.faulted, at_] at line
      refine ⟨congrArg Tracker.map line, congrArg Tracker.work line, raised, ?_⟩
      exact (congrArg (·.cnt.trackFaults) line).trans (congrArg bump h.trackFaults)
    · obtain ⟨line, raised⟩ := h.moved_ran hmv (due.crosses (p := true) hz)
      rw [at_] at line
      obtain ⟨idle, cnt, stays, goes⟩ := h.leaves line rfl rfl rfl rfl
      exact ⟨idle, (congrArg TrackCounters.trackFaults cnt).trans h.trackFaults, raised, stays, goes⟩
    · obtain ⟨line, raised⟩ := h.moved_ran hmv (due.lost (p := true) hc hz)
      rw [Tracker.faulted, at_] at line
      obtain ⟨idle, cnt, stays, goes⟩ := h.leaves line rfl rfl rfl rfl
      exact ⟨idle, (congrArg TrackCounters.trackFaults cnt).trans (congrArg bump h.trackFaults), raised, stays, goes⟩

end Sys2Proof.Machine
end

section
/-! # Requests handed to a tracker (R88 to R90): what the Request Unit hands over, and what waits -/

namespace Sys2Proof.Machine

/-- A line number in range is that line. -/
theorem finAt_line (l : Fin 4) : finAt 3 l.1 = some l := by
  revert l
  decide

theorem finAt_none {n k : Nat} (h : n < k) : finAt n k = none := if_neg (Nat.not_le.mpr h)

/-- What touches the link alone touches no other block of a longer list. -/
theorem Touches.of_slc {ps : List Part} {s t : State} (h : Touches [.slc] s t) (hs : ps.contains .slc = true) : Touches ps s t :=
  h.mono (fun p hp => by
    have e : p = .slc := by simpa using hp
    exact e ▸ hs)

/-- A change of the link that raises nothing. -/
theorem Tells.quiet {s t : State} (hr : t.startUp = s.startUp) (hset : t.slc.settings = s.slc.settings) (htx : t.slc.tx = s.slc.tx)
    (hm : t.slc.masked = s.slc.masked) (hd : t.slc.dropped = s.slc.dropped) (hn : t.slc.notices = s.slc.notices) : Tells [] s t := by
  refine ⟨by rw [hr], hset, htx, ?_⟩
  rw [hm, hd, hn]
  simp

section
variable (s : State) (kind : Byte) (r : Req) (l : Fin 4) (j : LineJob)

/-- A request taken and handed to its line's tracker. -/
def State.handedOver : State := s.taken.handLine (reqFrame kind r) l j

theorem State.handedOver_touches : Touches [.slc] s (s.handedOver kind r l j) := s.taken_touches.updSlc rfl

theorem State.handedOver_trackers : (s.handedOver kind r l j).trackers = s.trackers := (s.handedOver_touches kind r l j).trackers_eq

theorem State.handedOver_between : (s.handedOver kind r l j).between l = s.between l := by
  unfold State.between
  rw [(s.handedOver_touches kind r l j).startUp_eq, s.handedOver_trackers]

theorem State.handedOver_replies : (s.handedOver kind r l j).slc.replies = s.slc.replies := s.taken_replies

theorem State.handedOver_outgoing : (s.handedOver kind r l j).outgoing = s.outgoing := s.taken_outgoing

theorem State.handedOver_tells : Tells [] s (s.handedOver kind r l j) :=
  .quiet (s.handedOver_touches kind r l j).startUp_eq s.taken_settings s.taken_tx s.taken_masked s.taken_dropped s.taken_notices

theorem State.handedOver_kept : LinkKept s (s.handedOver kind r l j).kick := .of_slc rfl

theorem State.between_iff : s.between l = true ↔
    s.startUp.ready = true ∧ (s.trackers[l]).work = none ∧ (s.trackers[l]).clear = false := by
  simp [State.between, -Fin.getElem_fin, and_assoc]

/-- A request that waits for its tracker leaves the rest as it is (R88). -/
theorem State.lineGo_waits (h : s.between l = false) : s.lineGo l = s := by
  unfold State.lineGo
  rw [h]
  rfl

theorem State.lineGo_resync {f : Frame} (hb : s.between l = true) (hu : s.slc.unit = .line f l .resync) : s.lineGo l = s.resync f l := by
  unfold State.lineGo
  rw [hb, hu, Bool.not_true, if_neg Bool.false_ne_true]
  exact if_neg (fun h => h rfl)

theorem State.lineGo_empty {f : Frame} (hb : s.between l = true) (hu : s.slc.unit = .line f l .empty) : s.lineGo l =
    (s.updSlc (fun c => { c with unit := .event f l })).runTasks l false ((s.trackers[l]).emptyTasks) := by
  unfold State.lineGo
  rw [hb, hu, Bool.not_true, if_neg Bool.false_ne_true]
  exact if_neg (fun h => h rfl)

end

/-! ## The return to TRACKING (R69) -/

/-- The LINE notice RESTORED, where the line returns. -/
def restoredNotices (l : Fin 4) (st : LineState) : List Notice :=
  if st = .uncertain then [{ cls := .line, reason := 3, line := some l.1 }] else []

section
variable (s : State) (l : Fin 4)

/-- The line in TRACKING again, its condition over. -/
def State.returned : State := (s.updTracker l (fun t => { t with state := .tracking })).endCondition (.uncertain l)

theorem State.restore_uncertain (h : (s.trackers[l]).state = .uncertain) : s.restore l = (s.returned l).raise (lineNotice l 3 none) :=
  if_pos h

theorem State.restore_other (h : (s.trackers[l]).state ≠ .uncertain) : s.restore l = s := if_neg h

theorem State.restore_tells : Tells (restoredNotices l (s.trackers[l]).state) s (s.restore l) := by
  unfold restoredNotices
  by_cases h : (s.trackers[l]).state = .uncertain
  · rw [s.restore_uncertain l h, if_pos h]
    have ended : Tells [] s (s.returned l) :=
      (Tells.of_slc (s := s) (t := s.updTracker l _) rfl rfl).trans (State.endCondition_tells _ _)
    exact ended.trans (State.raise_tells _ (lineNotice l 3 none))
  · rw [s.restore_other l h, if_neg h]
    exact .of_slc rfl rfl

theorem State.restore_link : SameLink s (s.restore l) := by
  by_cases h : (s.trackers[l]).state = .uncertain
  · rw [s.restore_uncertain l h]
    exact SameLink.trans (t := s.returned l) ⟨rfl, rfl, rfl⟩ (State.raise_link _ _)
  · rw [s.restore_other l h]
    exact .of_slc rfl

theorem State.restore_condition : (s.restore l).slc.uncertain[l] =
    if (s.trackers[l]).state = .uncertain then none else s.slc.uncertain[l] := by
  by_cases h : (s.trackers[l]).state = .uncertain
  · rw [s.restore_uncertain l h, if_pos h, ((s.returned l).raise_conditions (n := lineNotice l 3 none) (.inl rfl)).1]
    exact (updAt_get ..).trans (if_pos rfl)
  · rw [s.restore_other l h, if_neg h]

end
end Sys2Proof.Machine
end

section
/-! # O13: RESYNC LINE (R69, R89) -/

namespace Sys2Proof.Machine

section
variable {s : State} {r : Req} {l : Fin 4}

theorem Admitted.exec_resyncLine (h : Admitted s 0x0A#8 r) : exec (.resyncLine r) s = settle
    (withValue (finAt 3 (field r.payload 0 1)) (reqFrame 0x0A#8 r) s.taken
      (fun l => (s.taken.handLine (reqFrame 0x0A#8 r) l .resync).lineGo l)) :=
  h.lineRequest rfl _

theorem Admitted.exec_resyncLine_line (h : Admitted s 0x0A#8 r) (hl : field r.payload 0 1 = l.1) :
    exec (.resyncLine r) s = settle ((s.handedOver 0x0A#8 r l .resync).lineGo l) := by
  rw [h.exec_resyncLine, hl, finAt_line]
  rfl

/-- The request at a tracker between two items. -/
theorem Admitted.exec_resyncLine_between (h : Admitted s 0x0A#8 r) (hl : field r.payload 0 1 = l.1) (hb : s.between l = true) :
    exec (.resyncLine r) s = settle ((s.handedOver 0x0A#8 r l .resync).resync (reqFrame 0x0A#8 r) l) := by
  rw [h.exec_resyncLine_line hl, State.lineGo_resync _ l (by rw [State.handedOver_between, hb]) rfl]

end

/-- Settles O13: the request by the state of its line, and its wait for a tracker in the middle of an item. -/
theorem resyncLineRestoresTracking : Obligations.ResyncLineRestoresTracking := by
  intro r s h
  refine ⟨fun hl => .of_finish ?_, fun l hl => ⟨fun hb => ⟨fun hu => ?_, fun ht => .of_finish ?_, fun hw => .of_finish ?_⟩, fun hb => ?_⟩⟩
  · rw [h.exec_resyncLine, finAt_none hl]
    rfl
  · have ran := h.exec_resyncLine_between hl hb
    set u := s.handedOver 0x0A#8 r l .resync with hu'
    have touch : Touches [.slc] s u := s.handedOver_touches _ _ _ _
    have state : (u.trackers[l]).state = .uncertain := by rw [touch.trackers_eq]; exact hu
    have resync : u.resync (reqFrame 0x0A#8 r) l = (u.restore l).accept (reqFrame 0x0A#8 r) := by
      unfold State.resync
      rw [state]
    rw [resync] at ran
    obtain ⟨line, others, ports⟩ := u.restore_line l
    have link := u.restore_link l
    have told : Tells [lineNotice l 3 none] s ((u.restore l).accept (reqFrame 0x0A#8 r)) := by
      have restored := u.restore_tells l
      rw [restoredNotices, if_pos state] at restored
      exact ((s.handedOver_tells ..).trans restored).trans (State.finish_tells ..)
    rw [if_pos state] at line
    have restoring := ((touch.of_slc (ps := [.trackers, .slc]) rfl).restore (l := l) rfl rfl).accept (f := reqFrame 0x0A#8 r) rfl
    refine ⟨_, ran, ?_, restoring.kick rfl, ?_, ?_, ?_, told.noticeTaken ?_⟩
    · refine (State.finish_answered (u.restore l) (acceptance r) none).of_eq ?_ ?_ (State.kick_unit _) (State.kick_outgoing _)
      · rw [link.2.1]
        exact congrArg List.length (s.handedOver_replies ..).symm
      · exact ((link.outgoing).trans (s.handedOver_outgoing ..)).symm
    · have lines : OtherLines l s (u.restore l) :=
        OtherLines.trans (t := u) (fun k _ => by rw [touch.trackers_eq, touch.ports_eq]; exact ⟨rfl, rfl⟩) (others.lines ports)
      exact OtherLines.kick lines
    · rw [State.kick_trackers, State.accept, State.finish_trackers, line, touch.trackers_eq]
    · rw [State.kick_uncertain, State.accept, State.finish_uncertain, u.restore_condition l, if_pos state]
    · exact ((s.between_iff l).mp hb).1
  · rw [h.exec_resyncLine_between hl hb]
    unfold State.resync
    rw [State.handedOver_trackers, ht]
    rfl
  · rw [h.exec_resyncLine_between hl hb]
    unfold State.resync
    rw [State.handedOver_trackers]
    rcases hw with hw | hw <;> rw [hw] <;> rfl
  · have ran := h.exec_resyncLine_line hl
    rw [State.lineGo_waits _ l (by rw [State.handedOver_between, hb])] at ran
    refine ⟨_, ran, (s.handedOver_touches _ _ _ _).kick rfl, ?_, State.kick_unit _⟩
    rw [State.kick_outgoing, State.handedOver_outgoing]

end Sys2Proof.Machine
end

section
/-! # O15: INJECT requests (R88) -/

namespace Sys2Proof.Machine

/-- The next head of a CUT lies before the cut or too far beyond it, NOW standing for the delivery odometer (R88, log entry 22). -/
theorem Tracker.cutOutside_iff (t : Tracker) (e : HostEvent) : t.cutOutside e = true ↔ ∃ pos next names, e = .cut pos next names ∧
    (next.getD t.delivery < pos.getD t.delivery ∨ pos.getD t.delivery + 200000000 < next.getD t.delivery) := by
  cases e with
  | cut pos next names =>
    simp only [cutOutside, Bool.or_eq_true, decide_eq_true_eq, HostEvent.cut.injEq]
    constructor
    · exact fun h => ⟨pos, next, names, ⟨rfl, rfl, rfl⟩, by omega⟩
    · rintro ⟨_, _, _, ⟨rfl, rfl, rfl⟩, h⟩
      omega
  | _ => exact iff_of_false Bool.false_ne_true (fun ⟨_, _, _, h, _⟩ => nomatch h)

theorem injectEntryOf_inside {p : List Byte} {l : Fin 4} {e : HostEvent} (h : injectEntryOf p = some (l, e)) (t : Tracker) :
    t.cutOutside e = false := by
  unfold injectEntryOf at h
  split at h
  · rw [Option.ite_none_right_eq_some, Option.some.injEq, Prod.mk.injEq] at h
    rw [← h.2.2]
    rfl
  · cases h

theorem injectTailOf_inside {p : List Byte} {l : Fin 4} {e : HostEvent} (h : injectTailOf p = some (l, e)) (t : Tracker) :
    t.cutOutside e = false := by
  unfold injectTailOf at h
  split at h
  · cases h
    rfl
  · cases h

/-- The command of an INJECT request, its kind and the form its payload has. -/
def InjectCommand (c : Instr) (kind : Byte) (r : Req) (form : Option (Fin 4 × HostEvent)) : Prop :=
  c = .injectEntry r ∧ kind = 0x07#8 ∧ form = injectEntryOf r.payload ∨
  c = .injectTail r ∧ kind = 0x08#8 ∧ form = injectTailOf r.payload ∨
  c = .injectCut r ∧ kind = 0x09#8 ∧ form = injectCutOf r.payload

section
variable {c : Instr} {kind : Byte} {r : Req} {s : State} {form : Option (Fin 4 × HostEvent)} {l : Fin 4} {e : HostEvent}

/-- What the Request Unit does with the event read: a CUT out of its bounds is BAD VALUE, any other is handed to its tracker (R88). -/
def State.injected (s : State) (f : Frame) (q : Fin 4 × HostEvent) : State :=
  if (s.trackers[q.1]).cutOutside q.2 then s.refuse f .badValue else s.handLine f q.1 (.event q.2)

/-- A form that is never outside its bounds needs no test. -/
theorem withValue_injected {f : Frame} (s : State) (hf : ∀ l e, form = some (l, e) → ∀ t : Tracker, t.cutOutside e = false) :
    withValue form f s (fun q => s.handLine f q.1 (.event q.2)) = withValue form f s (s.injected f) := by
  cases form with
  | none => rfl
  | some q => exact (if_neg (by rw [hf q.1 q.2 rfl]; exact Bool.false_ne_true)).symm

theorem InjectCommand.exec_eq (hc : InjectCommand c kind r form) (h : Admitted s kind r) :
    exec c s = settle (withValue form (reqFrame kind r) s.taken (s.taken.injected (reqFrame kind r))) := by
  rcases hc with ⟨rfl, rfl, rfl⟩ | ⟨rfl, rfl, rfl⟩ | ⟨rfl, rfl, rfl⟩
  · rw [← withValue_injected _ (fun l e hf => injectEntryOf_inside hf)]
    show execInjectEntry r s = _
    exact h.request rfl _
  · rw [← withValue_injected _ (fun l e hf => injectTailOf_inside hf)]
    show execInjectTail r s = _
    exact h.request rfl _
  · show execInjectCut r s = _
    exact h.request rfl _

end

/-- Settles O15: the event handed over, or refused for its form or its bounds. -/
theorem injectRequestsReachTracker : Obligations.InjectRequestsReachTracker := by
  intro c kind r s form h hc
  have command : InjectCommand c kind r form := hc
  have ran := command.exec_eq h
  refine ⟨fun hf => .of_finish ?_, fun l e hf => ?_⟩
  · rw [ran, hf]
    rfl
  rw [hf, withValue, State.injected, State.taken_trackers] at ran
  have outside_iff := (s.trackers[l]).cutOutside_iff e
  refine ⟨fun ho => .of_finish ?_, fun ho => ?_⟩
  · rw [ran, if_pos (outside_iff.mpr ho)]
    rfl
  · rw [if_neg (mt outside_iff.mp ho)] at ran
    exact ⟨_, ran, s.handedOver_kept .., (s.handedOver_touches _ _ _ _).kick rfl, (State.kick_outgoing _).trans (s.handedOver_outgoing ..),
      State.kick_unit _⟩

end Sys2Proof.Machine
end

section
/-! # O40: CLEAR ALL DATA at a tracker and at the Genealogy Table (R29, R93, R190) -/

namespace Sys2Proof.Machine

/-! ## The answer when every part is applied (R190) -/

section
variable {s : State} {f : Frame}

theorem State.trackers_any_clear : s.trackers.toList.any (·.clear) = true ↔ ∃ l : Fin 4, (s.trackers[l]).clear = true := by
  rw [List.any_eq_true]
  constructor
  · rintro ⟨t, ht, hc⟩
    obtain ⟨l, hl, rfl⟩ := Vector.getElem_of_mem (Vector.mem_toList_iff.mp ht)
    exact ⟨⟨l, hl⟩, hc⟩
  · rintro ⟨l, hc⟩
    exact ⟨_, Vector.mem_toList_iff.mpr (Vector.getElem_mem l.2), hc⟩

theorem State.clearAnswer_done (hu : s.slc.unit = .clearing f true) (ha : s.archive.clear = false)
    (ht : ∀ l : Fin 4, (s.trackers[l]).clear = false) : s.clearAnswer = s.accept f := by
  have none_ : ¬s.trackers.toList.any (·.clear) = true := by
    rw [State.trackers_any_clear]
    rintro ⟨l, hl⟩
    exact Bool.false_ne_true ((ht l).symm.trans hl)
  unfold State.clearAnswer
  rw [hu]
  exact if_neg (by rw [ha]; exact none_)

theorem State.clearAnswer_waits (hu : s.slc.unit = .clearing f true)
    (h : s.archive.clear = true ∨ ∃ l : Fin 4, (s.trackers[l]).clear = true) : s.clearAnswer = s := by
  unfold State.clearAnswer
  rw [hu]
  exact if_pos (by rwa [Bool.or_eq_true, State.trackers_any_clear])

/-- A part has been applied in `t`: the request is answered if it was the last, and else waits on. -/
theorem State.clearAnswer_answered {t : State} (hr : t.slc.replies = s.slc.replies) (ho : t.outgoing = s.outgoing)
    (hu : t.slc.unit = .clearing f true) :
    (t.archive.clear = false → (∀ l : Fin 4, (t.trackers[l]).clear = false) → Answered s t.clearAnswer.kick (accepted f) none) ∧
    (t.archive.clear = true ∨ (∃ l : Fin 4, (t.trackers[l]).clear = true) →
      t.clearAnswer.kick.slc.unit = .clearing f true ∧ t.clearAnswer.kick.outgoing = s.outgoing) := by
  refine ⟨fun ha ht => ?_, fun h => ?_⟩
  · rw [State.clearAnswer_done hu ha ht]
    exact (State.finish_answered t (accepted f) none).of_eq (by rw [hr]) ho.symm (State.kick_unit _) (State.kick_outgoing _)
  · rw [State.clearAnswer_waits hu h]
    exact ⟨(State.kick_unit _).trans hu, (State.kick_outgoing _).trans ho⟩

theorem State.clearAnswer_conditions (s : State) : SameConditions s s.clearAnswer := by
  unfold State.clearAnswer
  split
  · split
    · exact .of_slc rfl
    · exact ⟨State.finish_uncertain .., State.finish_silent ..⟩
  · exact .of_slc rfl

end

/-! ## A tracker's part (R93) -/

/-- A tracker at its starting values, its definition and counters kept. -/
def Tracker.cleared (a : Tracker) : Tracker :=
  { a with
    state := if a.defn.enabled then .waiting else .undefined
    feed := 0, delivery := 0, feedBase := none, deliveryBase := none, pair := none, lastSeq := none, map := [],
    exit := ExitRecord.initial, silent := false, timer := a.defn.enabled, clear := false }

section
variable (s : State) (l : Fin 4)

/-- The tracker cleared, its conditions over. -/
def State.trackerCleared : State :=
  ((s.updTracker l Tracker.cleared).endCondition (.uncertain l)).endCondition (.silent l)

theorem State.trackerCleared_at : (s.trackerCleared l).trackers[l] = (s.trackers[l]).cleared := s.updTracker_at l _

theorem State.trackerCleared_others : OtherLines l s (s.trackerCleared l) := (OtherTrackers.updTracker s l _).lines rfl

theorem exec_trackerClear {s : State} {l : Fin 4} (hc : (s.trackers[l]).clear = true) (hw : (s.trackers[l]).work = none)
    (hr : s.startUp.ready = true) : exec (.trackerClear l) s = settle (s.trackerCleared l).clearAnswer := by
  show execTrackerClear l s = _
  unfold execTrackerClear
  exact if_pos (by rw [hc, hw, hr]; rfl)

end

/-! ## The table's part (R29) -/

/-- The table's part applied. -/
def State.tableCleared (s : State) (f : Frame) : State :=
  State.updSlc { s with table := { s.table with coils := [], links := [], nextSeq := 1, session := none } }
    (fun c => { c with unit := .clearing f true })

theorem exec_gtClear {s : State} {f : Frame} (hu : s.slc.unit = .clearing f false) (hq : TrackersQuiet s) :
    exec .gtClear s = settle (s.tableCleared f).clearAnswer := by
  have turn : s.grant = some .unit := by
    rw [State.grant_quiet (by rw [hu]; rfl) hq.waits, hu]
    rfl
  show execGtClear s = _
  unfold execGtClear
  rw [hu]
  exact if_neg (not_not_intro turn)

/-- Settles O40: the part of a tracker and that of the table, each with the answer when it is the last. -/
theorem clearReachesTrackersAndTable : Obligations.ClearReachesTrackersAndTable := by
  refine ⟨fun l s hc hw hr => ?_, fun f s hu hq => ?_⟩
  · have ran := exec_trackerClear hc hw hr
    obtain ⟨t, next, touches⟩ := exec_runs (s := s) (.trackerClear l)
    obtain rfl := Host.Outcome.next.inj (ran.symm.trans next)
    have answering : Touches [.slc] (s.trackerCleared l) (s.trackerCleared l).clearAnswer := (Touches.refl _ _).clearAnswer rfl
    obtain ⟨uncertain, silent⟩ := (s.trackerCleared l).clearAnswer_conditions.kick
    refine ⟨_, next, touches, fun k hk => ?_, ?_, ?_, ?_, fun f hu => ?_⟩
    · rw [State.kick_trackers, State.kick_ports, answering.trackers_eq, answering.ports_eq]
      exact s.trackerCleared_others l k hk
    · rw [State.kick_trackers, answering.trackers_eq, State.trackerCleared_at, Tracker.cleared, hw]
      rfl
    · rw [uncertain]
      exact (updAt_get ..).trans (if_pos rfl)
    · rw [silent]
      exact (updAt_get ..).trans (if_pos rfl)
    · have mine : ((s.trackerCleared l).trackers[l]).clear = false := by rw [State.trackerCleared_at]; rfl
      have others (k : Fin 4) (hk : k ≠ l) : (s.trackerCleared l).trackers[k] = s.trackers[k] := (s.trackerCleared_others l k hk).1
      obtain ⟨answered, waits⟩ := State.clearAnswer_answered (s := s) (t := s.trackerCleared l) rfl rfl hu
      refine ⟨fun ha ht => answered ha (fun k => ?_), fun h => ?_⟩
      · by_cases hk : k = l
        · rw [hk]
          exact mine
        · rw [others k hk]
          exact ht k hk
      · rw [hu]
        exact waits (h.imp_right fun ⟨k, hk, hc⟩ => ⟨k, by rw [others k hk]; exact hc⟩)
  · have ran := exec_gtClear hu hq
    obtain ⟨t, next, touches⟩ := exec_runs (s := s) .gtClear
    obtain rfl := Host.Outcome.next.inj (ran.symm.trans next)
    have answering : Touches [.slc] (s.tableCleared f) (s.tableCleared f).clearAnswer := (Touches.refl _ _).clearAnswer rfl
    refine ⟨_, next, touches, ?_, State.clearAnswer_answered (s := s) (t := s.tableCleared f) rfl rfl rfl⟩
    rw [State.kick_table, answering.table_eq]
    rfl

end Sys2Proof.Machine
end

section
/-! # O6: definitions read back as they were sent (R182, R200): each field of a payload formed again is the field's own bytes -/

namespace Sys2Proof.Machine

/-! ## Numbers and their bytes -/

theorem beNat_cons (b : Byte) (l : List Byte) : beNat (b :: l) = b.toNat * 256 ^ l.length + beNat l := by
  have shift (a : Nat) : l.foldl (fun a b => a * 256 + b.toNat) a = a * 256 ^ l.length + beNat l := by
    unfold beNat
    induction l generalizing a with
    | nil => simp
    | cons c l ih =>
      rw [List.foldl_cons, List.foldl_cons, ih, ih (0 * 256 + c.toNat), List.length_cons]
      ring
  unfold beNat
  rw [List.foldl_cons, shift]
  ring_nf
  rfl

theorem beNat_lt (l : List Byte) : beNat l < 256 ^ l.length := by
  induction l with
  | nil => exact Nat.one_pos
  | cons b l ih =>
    have hb : b.toNat < 256 := b.isLt
    rw [beNat_cons, List.length_cons, pow_succ]
    nlinarith

/-- Bytes above the field are not written. -/
theorem beBytes_add_mul (n a v : Nat) : beBytes n (a * 256 ^ n + v) = beBytes n v := by
  induction n generalizing a with
  | zero => rfl
  | succ n ih =>
    have e : a * 256 ^ (n + 1) + v = (a * 256) * 256 ^ n + v := by ring
    rw [beBytes, beBytes, e, ih, Nat.mul_comm (a * 256), Nat.mul_add_div (by positivity)]
    congr 1
    apply BitVec.eq_of_toNat_eq
    simp

theorem beBytes_beNat (l : List Byte) : beBytes l.length (beNat l) = l := by
  induction l with
  | nil => rfl
  | cons b l ih =>
    rw [List.length_cons, beBytes, beNat_cons, beBytes_add_mul, ih, Nat.mul_comm, Nat.mul_add_div (by positivity),
      Nat.div_eq_of_lt (beNat_lt l), Nat.add_zero, BitVec.ofNat_toNat, BitVec.setWidth_eq]

/-! ## Fields one after another -/

/-- The bytes of the fields of a payload, each of the length listed, one after another. -/
def fieldsFrom (p : List Byte) : (off : Nat) → List Nat → List Byte
  | _, [] => []
  | off, n :: ns => beBytes n (field p off n) ++ fieldsFrom p (off + n) ns

theorem fieldsFrom_eq_drop {p : List Byte} {off : Nat} {ns : List Nat} (h : p.length = off + ns.sum) : fieldsFrom p off ns = p.drop off := by
  induction ns generalizing off with
  | nil => exact (List.drop_of_length_le (by simpa using h.le)).symm
  | cons n ns ih =>
    rw [List.sum_cons] at h
    have len : ((p.drop off).take n).length = n := by
      rw [List.length_take, List.length_drop]
      omega
    have own : beBytes n (field p off n) = (p.drop off).take n := by
      have whole := beBytes_beNat ((p.drop off).take n)
      rwa [len] at whole
    rw [fieldsFrom, ih (by omega), own, ← List.drop_drop, List.take_append_drop]

/-! ## Values read and formed again -/

section
variable {p : List Byte} {off : Nat}

theorem boolByte_of_flagAt {b : Bool} (h : flagAt p off = some b) : boolByte b = byteOf (field p off 1) := by
  unfold flagAt at h
  split at h
  · next e => cases h; rw [e]; rfl
  · next e => cases h; rw [e]; rfl
  · cases h

theorem Lane.code_of_ofCode {n : Nat} {lane : Lane} (h : Lane.ofCode n = some lane) : lane.code = n := by
  unfold Lane.ofCode at h
  split at h
  · next e => cases h; exact e.symm
  · rw [Option.ite_none_right_eq_some] at h
    cases h.2
    rfl

theorem val_of_finAt {n k : Nat} {m : Fin (n + 1)} (h : finAt n k = some m) : m.1 = k := by
  unfold finAt at h
  rw [Option.ite_none_right_eq_some] at h
  rw [← Option.some.inj h.2]
  exact Nat.mod_eq_of_lt (Nat.lt_succ_of_le h.1)

theorem field_lt (n : Nat) : field p off n < 256 ^ n :=
  (beNat_lt _).trans_le (Nat.pow_le_pow_right (by decide) (by rw [List.length_take]; exact Nat.min_le_left ..))

/-- A signed field formed again (two's complement, R200). -/
theorem beInt_fieldInt (n : Nat) : beInt n (fieldInt p off n) = beBytes n (field p off n) := by
  have lt := field_lt (p := p) (off := off) n
  have same : (fieldInt p off n % (256 ^ n : Nat)).toNat = field p off n := by
    unfold fieldInt
    dsimp only
    split
    · rw [← Int.natCast_mod, Int.toNat_natCast, Nat.mod_eq_of_lt lt]
    · rw [Int.sub_emod_right, ← Int.natCast_mod, Int.toNat_natCast, Nat.mod_eq_of_lt lt]
  rw [beInt, same]

end

theorem Parity.code_eq (odd : Bool) : byteOf (if odd then Parity.odd else .none).code = boolByte odd := by cases odd <;> rfl
theorem Side.code_eq (delivery : Bool) : byteOf (if delivery then Side.delivery else .feed).code = boolByte delivery := by cases delivery <;> rfl
theorem Encoding.code_eq (u8 : Bool) : byteOf (if u8 then Encoding.u8 else .s16).code = boolByte u8 := by cases u8 <;> rfl
theorem Markers.code_eq (m : Fin 3) : (match m with | 0 => Markers.all | 1 => .gapsOnly | _ => .none).code = m.1 := by
  revert m
  decide

/-! ## The four forms (section 11.3) -/

section
variable {p : List Byte}

theorem lineOf_bytes {l : Fin 4} {d : LineDef} (h : lineOf p = some (l, d)) : d.bytes = fieldsFrom p 1 [1, 1, 1, 1, 4, 4, 1, 4, 1] := by
  unfold lineOf at h
  split at h
  · next en odd _ hen hodd =>
    simp only [Option.ite_none_right_eq_some, Option.some.injEq, Prod.mk.injEq] at h
    rw [← h.2.2]
    simp [LineDef.bytes, fieldsFrom, beBytes_one, Parity.code_eq, boolByte_of_flagAt hen, boolByte_of_flagAt hodd]
  · cases h

theorem gaugeOf_bytes {g : GaugeForm} {d : Slot} (h : gaugeOf p = some g) (hd : g.fields = some d) :
    d.bytes = fieldsFrom p 3 [1, 1, 1, 4, 1, 1, 4, 1] := by
  unfold gaugeOf at h
  split at h
  · cases h
  · dsimp only at h
    split at h
    · cases h
      cases hd
    · split at h
      · next dl lane hdl hlane =>
        simp only [Option.ite_none_right_eq_some, Option.some.injEq] at h
        rw [← h.2] at hd
        rw [← Option.some.inj hd]
        simp [Slot.bytes, fieldsFrom, beBytes_one, beInt_fieldInt, Side.code_eq, boolByte_of_flagAt hdl, Lane.code_of_ofCode hlane]
      · cases h

theorem profileOf_bytes {n : Fin 16} {d : Profile} (h : profileOf p = some (n, d)) : d.bytes = fieldsFrom p 1 [1, 2, 4, 1, 1, 1, 1] := by
  unfold profileOf at h
  split at h
  · next n' u8 halt m _ hu8 hhalt hm =>
    simp only [Option.ite_none_right_eq_some, Option.some.injEq, Prod.mk.injEq] at h
    rw [← h.2.2]
    simp [Profile.bytes, fieldsFrom, beBytes_one, beInt_fieldInt, Encoding.code_eq, boolByte_of_flagAt hu8, boolByte_of_flagAt hhalt]
    exact congrArg byteOf ((Markers.code_eq m).trans (val_of_finAt hm))
  · cases h

theorem noticesOf_bytes {n : NoticeSettings} (h : noticesOf p = some n) : n.bytes = fieldsFrom p 0 [1, 1, 1, 1, 1, 1, 1] := by
  unfold noticesOf at h
  split at h
  · next ha hb hc hd he hf hg =>
    rw [← Option.some.inj h]
    simp [NoticeSettings.bytes, fieldsFrom, beBytes_one, boolByte_of_flagAt ha, boolByte_of_flagAt hb, boolByte_of_flagAt hc,
      boolByte_of_flagAt hd, boolByte_of_flagAt he, boolByte_of_flagAt hf, boolByte_of_flagAt hg]
  · cases h

end

/-- Settles O6: the contents formed are the request's fields one after another, which are its bytes. -/
theorem definitionsReadBackAsSent : Obligations.DefinitionsReadBackAsSent :=
  ⟨fun _ _ _ hp h => (lineOf_bytes h).trans (fieldsFrom_eq_drop hp),
    fun _ _ _ hp h hd => (gaugeOf_bytes h hd).trans (fieldsFrom_eq_drop hp),
    fun _ _ _ hp h => (profileOf_bytes h).trans (fieldsFrom_eq_drop hp),
    fun _ _ hp h => (noticesOf_bytes h).trans (fieldsFrom_eq_drop hp)⟩

end Sys2Proof.Machine
end

section
/-! # Events of the host at a tracker (R74, R88, R90): the steps run, the answer, and the notices -/

namespace Sys2Proof.Machine

/-! ## The last segment closed (R76, R77) -/

/-- The work an operation of an item leaves, before it comes to the arbiter (R74). -/
def Work.pending (op : TrackOp) (i : Nat) (ks : List Task) (p : Bool) : Work :=
  { op := op, presented := false, seg := i, todo := ks, fromPort := p }

theorem modify_concat_length {α : Type} (f : α → α) (x : α) (xs : List α) : (xs ++ [x]).modify xs.length f = xs ++ [f x] := by
  induction xs with
  | nil => rfl
  | cons y ys ih => exact congrArg (y :: ·) ih

section
variable {a : Tracker} {gs : List Segment} {g : Segment} (p : Bool) (ks : List Task)

/-- The last segment changed. -/
theorem Tracker.modSeg_last (hm : a.map = gs ++ [g]) (f : Segment → Segment) : a.modSeg a.lastIx f = { a with map := gs ++ [f g] } := by
  have ix : a.lastIx = gs.length := by simp [Tracker.lastIx, hm]
  unfold Tracker.modSeg
  rw [ix, hm, modify_concat_length]

theorem Tracker.task_closeLast_coil (hm : a.map = gs ++ [g]) {q : Ref} (hc : g.coil = some q) (ft : Nat) : a.task (.closeLast ft) =
    { ({ a with map := gs ++ [{ g with ft := some ft }] } : Tracker).plain with op := some (.closeEntry q ft, gs.length) } := by
  have ix : a.lastIx = gs.length := by simp [Tracker.lastIx, hm]
  have last : a.map[a.lastIx]? = some g := by simp [ix, hm]
  unfold Tracker.task
  dsimp only
  rw [last]
  dsimp only
  rw [Tracker.modSeg_last hm, ix, hc]

/-- A last segment without a coil is closed with no operation, and removed when it ends at its head (R76). -/
theorem Tracker.task_closeLast_none (hm : a.map = gs ++ [g]) (hc : g.coil = none) (ft : Nat) : a.task (.closeLast ft) =
    ({ a with map := if ft = g.fh then gs else gs ++ [{ g with ft := some ft }] } : Tracker).plain := by
  have ix : a.lastIx = gs.length := by simp [Tracker.lastIx, hm]
  have last : a.map[a.lastIx]? = some g := by simp [ix, hm]
  unfold Tracker.task
  dsimp only
  rw [last]
  dsimp only
  rw [Tracker.modSeg_last hm, hc]
  dsimp only
  split
  · rw [List.dropLast_concat]
  · rfl

theorem Tracker.goOn_closeLast_coil (hm : a.map = gs ++ [g]) {q : Ref} (hc : g.coil = some q) (ft : Nat) :
    Tracker.goOn p (.closeLast ft :: ks) a = { a with
      map := gs ++ [{ g with ft := some ft }], work := some (.pending (.closeEntry q ft) gs.length ks p) } ∧
    Tracker.runFaults (.closeLast ft :: ks) a = [] := by
  rw [Tracker.goOn, Tracker.runFaults, Tracker.task_closeLast_coil hm hc]
  exact ⟨rfl, rfl⟩

theorem Tracker.goOn_closeLast_none (hm : a.map = gs ++ [g]) (hc : g.coil = none) (ft : Nat) :
    Tracker.goOn p (.closeLast ft :: ks) a =
      Tracker.goOn p ks { a with map := if ft = g.fh then gs else gs ++ [{ g with ft := some ft }] } ∧
    Tracker.runFaults (.closeLast ft :: ks) a =
      Tracker.runFaults ks { a with map := if ft = g.fh then gs else gs ++ [{ g with ft := some ft }] } := by
  have task := Tracker.task_closeLast_none hm hc ft
  exact ⟨Tracker.goOn_quiet task, Tracker.runFaults_quiet task⟩

end

/-! ## The steps of an event -/

section
variable (s : State) (l : Fin 4) (p : Bool) (ks : List Task)

theorem State.itemDone_tells : Tells [] s (s.itemDone l p) ∧ SameConditions s (s.itemDone l p) := by
  have idle : Tells [] s (s.updTracker l (fun t => { t with work := none })) := .of_slc rfl rfl
  have same : SameConditions s (s.updTracker l (fun t => { t with work := none })) := .of_slc rfl
  unfold State.itemDone
  dsimp only
  split
  · exact ⟨idle, same⟩
  · split
    · split
      · exact ⟨idle.trans (State.finish_tells _ _ _), same.trans ⟨State.finish_uncertain .., State.finish_silent ..⟩⟩
      · exact ⟨idle, same⟩
    · exact ⟨idle, same⟩

/-- The steps of an item, from the port or from the host, raise the track faults they find and enter no condition. -/
theorem State.runTasks_raises : Tells ((Tracker.runFaults ks s.trackers[l]).map (faultNotice l s.table)) s (s.runTasks l p ks) ∧
    SameConditions s (s.runTasks l p ks) := by
  induction ks generalizing s with
  | nil => exact s.itemDone_tells l p
  | cons k ks ih =>
    have hop : (s.task l k).2 = ((s.trackers[l]).task k).op := rfl
    have table : (s.task l k).1.table = s.table := ((Touches.refl [.trackers, .slc] s).task rfl rfl).table_eq
    have first := s.task_faults l k
    have same := s.task_conditions l k
    unfold State.runTasks Tracker.runFaults
    dsimp only
    rw [hop]
    cases ((s.trackers[l]).task k).op with
    | none =>
      obtain ⟨rest, conditions⟩ := ih (s.task l k).1
      rw [State.task_at, table] at rest
      rw [if_pos rfl, List.map_append]
      exact ⟨first.trans rest, same.trans conditions⟩
    | some q =>
      rw [if_neg nofun, List.append_nil]
      exact ⟨first.frame rfl rfl, same.trans (.of_slc rfl)⟩

end

/-- From `s` to `t` the tracker of line `l` has run the steps `ks` of a host's event of frame `f`, from the line `a`: the line, the others,
and the answer when the event is over (R88, R90). -/
structure EventRan (l : Fin 4) (f : Frame) (ks : List Task) (a : Tracker) (s t : State) : Prop where
  touches : Touches [.trackers, .slc] s t
  lines : OtherLines l s t
  line : t.trackers[l] = (Tracker.goOn false ks a).presenting
  ends : (Tracker.goOn false ks a).work = none → Answered s t (accepted f) none
  waits : (Tracker.goOn false ks a).work ≠ none → t.slc.unit = .event f l ∧ t.outgoing = s.outgoing

theorem State.runTasks_event {s w : State} {l : Fin 4} {f : Frame} (ks : List Task) (touches : Touches [.trackers, .slc] s w)
    (others : OtherTrackers l s w) (hr : w.slc.replies = s.slc.replies) (ho : w.outgoing = s.outgoing) (hu : w.slc.unit = .event f l) :
    EventRan l f ks w.trackers[l] s (w.runTasks l false ks).kick := by
  have line := w.runTasks_presenting l false ks
  have idle : ((w.runTasks l false ks).trackers[l]).work = none ↔ (Tracker.goOn false ks w.trackers[l]).work = none := by
    rw [line, Tracker.presenting_work]
  obtain ⟨ends, waits⟩ := w.runTasks_answered l false ks
  have running := touches.runTasks (l := l) (b := false) (ks := ks) rfl rfl
  refine ⟨running.kick rfl, ?_, by rw [State.kick_trackers, line], fun h => ?_, fun h => ?_⟩
  · exact OtherLines.kick ((others.trans (w.runTasks_line l false ks).2).lines running.ports_eq)
  · exact (ends f rfl hu (idle.mpr h)).of_eq (by rw [hr]) ho.symm (State.kick_unit _) (State.kick_outgoing _)
  · obtain ⟨unit, outgoing⟩ := waits (.inr (mt idle.mp h))
    exact ⟨(State.kick_unit _).trans (unit.trans hu), (State.kick_outgoing _).trans (outgoing.trans ho)⟩

/-- An event that waits at the arbiter for the operation its steps present. -/
theorem EventRan.work {l : Fin 4} {f : Frame} {ks : List Task} {a b : Tracker} {w : Work} {s t : State} (h : EventRan l f ks a s t)
    (hb : Tracker.goOn false ks a = b) (hw : b.work = some w) :
    t.trackers[l] = { b with work := some { w with presented := true } } ∧ t.slc.unit = .event f l ∧ t.outgoing = s.outgoing := by
  refine ⟨by rw [h.line, hb, Tracker.presenting, hw]; rfl, h.waits (by rw [hb, hw]; exact nofun)⟩

/-- An event that is over. -/
theorem EventRan.done {l : Fin 4} {f : Frame} {ks : List Task} {a b : Tracker} {s t : State} (h : EventRan l f ks a s t)
    (hb : Tracker.goOn false ks a = b) (hw : b.work = none) : t.trackers[l] = b ∧ Answered s t (accepted f) none :=
  ⟨by rw [h.line, hb, Tracker.presenting_idle hw], h.ends (by rw [hb]; exact hw)⟩

end Sys2Proof.Machine
end

section
/-! # O14: EMPTY LINE (R20, R74, R88, R90) -/

namespace Sys2Proof.Machine

/-! ## The drops (R90) -/

/-- The segment's head has crossed and its tail has not, so that its pending links are dropped (R20, R90). -/
def Segment.Droppable (g : Segment) : Prop := g.coil ≠ none ∧ g.fault = .none ∧ g.dh ≠ none ∧ g.dt = none

section
variable {a : Tracker} {i : Nat} {p : Bool} {ks : List Task}

theorem Tracker.task_drop_quiet (h : ∀ x, a.map[i]? = some x → ¬x.Droppable) : a.task (.drop i) = a.plain := by
  unfold Tracker.task
  dsimp only
  split
  · rfl
  · next g hg =>
    split
    · next hc hf hh ht => exact absurd ⟨by rw [hc]; exact nofun, hf, by rw [hh]; exact nofun, ht⟩ (h g hg)
    · rfl

theorem Tracker.task_drop {x : Segment} {q : Ref} (hx : a.map[i]? = some x) (hd : x.Droppable) (hc : x.coil = some q) :
    a.task (.drop i) = { a.plain with op := some (.dropPending q, i) } := by
  obtain ⟨-, hf, hh, ht⟩ := hd
  obtain ⟨d, hh⟩ := Option.ne_none_iff_exists'.mp hh
  unfold Tracker.task
  dsimp only
  rw [hx]
  dsimp only
  rw [hc, hf, hh, ht]

/-- Drops of segments with nothing to drop. -/
theorem Tracker.goOn_drops {is : List Nat} (h : ∀ i ∈ is, ∀ x, a.map[i]? = some x → ¬x.Droppable) :
    Tracker.goOn p (is.map .drop ++ ks) a = Tracker.goOn p ks a := by
  induction is with
  | nil => rfl
  | cons i is ih =>
    obtain ⟨first, rest⟩ := List.forall_mem_cons.mp h
    rw [List.map_cons, List.cons_append, Tracker.goOn_quiet (Tracker.task_drop_quiet first), ih rest]

/-- The first segment with something to drop, the drops of those behind it left. -/
theorem Tracker.goOn_drops_first {n : Nat} {x : Segment} {q : Ref} (hn : n < 8) (hq : ∀ i < n, ∀ y, a.map[i]? = some y → ¬y.Droppable)
    (hx : a.map[n]? = some x) (hd : x.Droppable) (hc : x.coil = some q) :
    Tracker.goOn p ((List.range 8).map .drop ++ ks) a = 
      { a with work := some (.pending (.dropPending q) n (((List.range 8).drop (n + 1)).map .drop ++ ks) p) } := by
  have here : List.range 8 = List.range n ++ n :: (List.range 8).drop (n + 1) := by
    have at_ : (List.range 8)[n]'(by simpa using hn) = n := List.getElem_range _
    have cut := (List.take_append_drop n (List.range 8)).symm
    rwa [List.take_range, Nat.min_eq_left (Nat.le_of_lt hn), List.drop_eq_getElem_cons (by simpa using hn), at_] at cut
  rw [here, List.map_append, List.append_assoc, Tracker.goOn_drops (fun i hi => hq i (List.mem_range.mp hi)), List.map_cons, List.cons_append,
    Tracker.goOn, Tracker.task_drop hx hd hc, ← here]
  rfl

end

/-! ## The steps of EMPTY LINE -/

/-- The last segment is open and has a coil, so that it is closed with CLOSE ENTRY first (R90). -/
def Tracker.Closing (a : Tracker) : Prop := ∃ gs g, a.map = gs ++ [g] ∧ g.ft = none ∧ g.coil ≠ none

/-- The drops of all segments and the emptying of the map. -/
def emptyingTasks : List Task := (List.range 8).map .drop ++ [.emptyMap]

section
variable {a : Tracker} {p : Bool}

theorem Tracker.emptyTasks_open {gs : List Segment} {g : Segment} (hm : a.map = gs ++ [g]) (hf : g.ft = none) :
    a.emptyTasks = .closeLast (max g.fh a.feed) :: emptyingTasks := by
  unfold Tracker.emptyTasks
  rw [hm, List.getLast?_concat]
  dsimp only
  rw [hf]
  rfl

theorem Tracker.emptyTasks_closed (h : ∀ gs g, a.map = gs ++ [g] → g.ft ≠ none) : a.emptyTasks = emptyingTasks := by
  unfold Tracker.emptyTasks
  rcases List.eq_nil_or_concat' a.map with hm | ⟨gs, g, hm⟩
  · rw [hm]
    rfl
  · obtain ⟨ft, hf⟩ := Option.ne_none_iff_exists'.mp (h gs g hm)
    rw [hm, List.getLast?_concat]
    dsimp only
    rw [hf]
    rfl

/-- Two maps agree place by place in their segments that can be dropped. -/
def SameDrops (m m' : List Segment) : Prop :=
  ∀ (i : Nat) (x : Segment), (m'[i]? = some x → x.Droppable → m[i]? = some x) ∧ (m[i]? = some x → x.Droppable → m'[i]? = some x)

theorem SameDrops.closeLast {gs : List Segment} {g : Segment} (hc : g.coil = none) (ft : Nat) :
    SameDrops (gs ++ [g]) (if ft = g.fh then gs else gs ++ [{ g with ft := some ft }]) := by
  have not_last (h : Segment) (hh : h.coil = none) (i : Nat) (x : Segment) (hx : (gs ++ [h])[i]? = some x) (hd : x.Droppable) :
      gs[i]? = some x := by
    rw [List.getElem?_append] at hx
    split at hx
    · exact hx
    · rw [List.getElem?_singleton, Option.ite_none_right_eq_some] at hx
      rw [← Option.some.inj hx.2] at hd
      exact absurd hh hd.1
  have front (h : Segment) (i : Nat) (x : Segment) (hx : gs[i]? = some x) : (gs ++ [h])[i]? = some x := by
    rw [List.getElem?_append_left (List.getElem?_eq_some_iff.mp hx).1, hx]
  intro i x
  split
  · exact ⟨fun hx _ => front g i x hx, not_last g hc i x⟩
  · exact ⟨fun hx hd => front g i x (not_last { g with ft := some ft } hc i x hx hd), fun hx hd => front _ i x (not_last g hc i x hx hd)⟩

/-- A map whose last segment needs no CLOSE ENTRY: the drops and the emptying are left of a map with the same drops. -/
theorem Tracker.goOn_emptyTasks (h : ¬a.Closing) :
    ∃ m, SameDrops a.map m ∧ Tracker.goOn p a.emptyTasks a = Tracker.goOn p emptyingTasks { a with map := m } := by
  by_cases ho : ∃ gs g, a.map = gs ++ [g] ∧ g.ft = none
  · obtain ⟨gs, g, hm, hf⟩ := ho
    have hc : g.coil = none := by_contra fun hc => h ⟨gs, g, hm, hf, hc⟩
    rw [Tracker.emptyTasks_open hm hf, hm]
    exact ⟨_, .closeLast hc _, (Tracker.goOn_closeLast_none p emptyingTasks hm hc _).1⟩
  · rw [Tracker.emptyTasks_closed (fun gs g hm hf => ho ⟨gs, g, hm, hf⟩)]
    exact ⟨a.map, fun _ _ => ⟨fun hx _ => hx, fun hx _ => hx⟩, rfl⟩

/-- The tracker once its map is emptied (R90). -/
def Tracker.emptied (a : Tracker) : Tracker :=
  { a with map := [], exit := { head := some a.delivery, names := [], suspect := false }, work := none }

theorem Tracker.goOn_emptied (h : ¬a.Closing) (hn : ∀ g ∈ a.map, ¬g.Droppable) : Tracker.goOn p a.emptyTasks a = a.emptied := by
  obtain ⟨m, same, ran⟩ := Tracker.goOn_emptyTasks (p := p) h
  rw [ran, emptyingTasks, Tracker.goOn_drops (a := { a with map := m }) fun i _ x hx hd =>
    hn x (List.mem_of_getElem? ((same i x).1 hx hd)) hd]
  rfl

theorem Tracker.goOn_dropping {gs hs : List Segment} {g : Segment} {q : Ref} (h : ¬a.Closing) (hm : a.map = gs ++ g :: hs)
    (h8 : gs.length < 8) (hn : ∀ x ∈ gs, ¬x.Droppable) (hd : g.Droppable) (hc : g.coil = some q) :
    ∃ m, Tracker.goOn p a.emptyTasks a = { a with
      map := m, work := some (.pending (.dropPending q) gs.length (((List.range 8).drop (gs.length + 1)).map .drop ++ [.emptyMap]) p) } := by
  obtain ⟨m, same, ran⟩ := Tracker.goOn_emptyTasks (p := p) h
  refine ⟨m, ran.trans (Tracker.goOn_drops_first (a := { a with map := m }) h8 (fun i hi y hy hy' => ?_) ?_ hd hc)⟩
  · have old := (same i y).1 hy hy'
    rw [hm, List.getElem?_append_left hi] at old
    exact hn y (List.mem_of_getElem? old) hy'
  · refine (same _ g).2 ?_ hd
    rw [hm]
    simp

end

/-! ## The request -/

section
variable {s : State} {r : Req} {l : Fin 4}

/-- The request in hand at its tracker: taken and handed over in this step, or it waited there and is given again (log entry 12). -/
theorem exec_emptyLine (h : Admitted s 0x0B#8 r ∧ field r.payload 0 1 = l.1 ∨ s.slc.unit = .line (reqFrame 0x0B#8 r) l .empty) :
    ∃ v, exec (.emptyLine r) s = settle (v.lineGo l) ∧ Touches [.slc] s v ∧ v.slc.unit = .line (reqFrame 0x0B#8 r) l .empty ∧
      v.slc.replies = s.slc.replies ∧ v.outgoing = s.outgoing := by
  rcases h with ⟨h, hl⟩ | hu
  · refine ⟨s.handedOver 0x0B#8 r l .empty, ?_, s.handedOver_touches _ _ _ _, rfl, s.handedOver_replies .., s.handedOver_outgoing ..⟩
    have ran : exec (.emptyLine r) s = _ := h.lineRequest rfl _
    rw [ran, show field (reqFrame 0x0B#8 r).payload 0 1 = l.1 from hl, finAt_line]
    rfl
  · refine ⟨s, ?_, Touches.refl _ s, hu, rfl, rfl⟩
    show execEmptyLine r s = _
    unfold execEmptyLine State.lineRequest
    rw [hu]
    exact if_pos rfl

/-- The request at a tracker between two items runs its steps. -/
theorem exec_emptyLine_between (h : Admitted s 0x0B#8 r ∧ field r.payload 0 1 = l.1 ∨ s.slc.unit = .line (reqFrame 0x0B#8 r) l .empty)
    (hb : s.between l = true) : ∃ t, exec (.emptyLine r) s = .next t ∧
      EventRan l (reqFrame 0x0B#8 r) (s.trackers[l]).emptyTasks s.trackers[l] s t := by
  obtain ⟨v, ran, touches, unit, replies, outgoing⟩ := exec_emptyLine h
  have between : v.between l = true := by
    unfold State.between at hb ⊢
    rw [touches.startUp_eq, touches.trackers_eq, hb]
  rw [State.lineGo_empty v l between unit] at ran
  have event := State.runTasks_event (s := s) (w := v.updSlc (fun c => { c with unit := .event (reqFrame 0x0B#8 r) l }))
    (l := l) (v.trackers[l]).emptyTasks ((touches.updSlc rfl).of_slc rfl) (fun k _ => congrArg (·[k]) touches.trackers_eq) replies outgoing rfl
  have line : (v.updSlc (fun c => { c with unit := .event (reqFrame 0x0B#8 r) l })).trackers[l] = s.trackers[l] :=
    congrArg (·[l]) touches.trackers_eq
  rw [line] at event
  refine ⟨_, ran, ?_⟩
  rwa [← congrArg (·[l]) touches.trackers_eq] at *

end

/-- Settles O14: the steps of EMPTY LINE by what the map calls for, and the request's wait for its tracker. -/
theorem emptyLineEmptiesMap : Obligations.EmptyLineEmptiesMap := by
  intro r s
  refine ⟨fun h hl => .of_finish ?_, fun l h => ⟨fun hb => ?_, fun hb => ?_⟩⟩
  · have ran : exec (.emptyLine r) s = _ := h.lineRequest rfl _
    rw [ran, show finAt 3 (field (reqFrame 0x0B#8 r).payload 0 1) = none from finAt_none hl]
    rfl
  · obtain ⟨t, ran, event⟩ := exec_emptyLine_between h hb
    have idle : (s.trackers[l]).work = none := ((s.between_iff l).mp hb).2.1
    refine ⟨fun hc hd => ?_, fun gs g q hm hf hq => ?_, fun gs hs g q hc hm h8 hn hd hq => ?_⟩
    · obtain ⟨line, answered⟩ := event.done (Tracker.goOn_emptied hc hd) rfl
      refine ⟨t, ran, answered, event.touches, event.lines, line.trans ?_⟩
      rw [Tracker.emptied, ← idle]
    · have steps := event
      rw [Tracker.emptyTasks_open hm hf] at steps
      obtain ⟨line, unit, outgoing⟩ := steps.work (Tracker.goOn_closeLast_coil false _ hm hq _).1 rfl
      exact ⟨t, ran, ⟨unit, outgoing, by rw [line], by rw [line], event.touches, event.lines⟩, by rw [line], by rw [line]; rfl⟩
    · obtain ⟨m, dropping⟩ := Tracker.goOn_dropping (p := false) hc hm h8 hn hd hq
      obtain ⟨line, unit, outgoing⟩ := event.work dropping rfl
      exact ⟨t, ran, ⟨unit, outgoing, by rw [line], by rw [line], event.touches, event.lines⟩, by rw [line]; rfl⟩
  · obtain ⟨v, ran, touches, unit, -, outgoing⟩ := exec_emptyLine h
    have waits : v.between l = false := by
      unfold State.between at hb ⊢
      rw [touches.startUp_eq, touches.trackers_eq, hb]
    rw [State.lineGo_waits v l waits] at ran
    exact ⟨_, ran, touches.kick rfl, (State.kick_unit v).trans unit, (State.kick_outgoing v).trans outgoing⟩

end Sys2Proof.Machine
end

section
/-! # Items that carry one count (R64 to R69, R72): the count taken, WAITING left, the steps run, and the item found malformed -/

namespace Sys2Proof.Machine

/-! ## States and causes -/

/-- The line's state once WAITING is left (R66). -/
def LineState.settled : LineState → LineState
  | .waiting => .tracking
  | st => st

theorem LineState.settled_uncertain {st : LineState} : st.settled = .uncertain ↔ st = .uncertain := by cases st <;> decide

theorem LineState.settled_cases {st : LineState} (h : st ≠ .undefined) : st.settled = .tracking ∨ st.settled = .uncertain := by
  cases st with
  | undefined => exact absurd rfl h
  | uncertain => exact .inr rfl
  | _ => exact .inl rfl

theorem lineAfter_undefined {st : LineState} {cs : List Nat} (h : st ≠ .undefined) : lineAfter st cs ≠ .undefined := by
  induction cs generalizing st with
  | nil => exact h
  | cons c cs ih =>
    cases st with
    | undefined => exact absurd rfl h
    | waiting =>
      refine ih ?_
      split <;> exact nofun
    | _ => exact ih nofun

/-- A line ends UNCERTAIN where it was so or becomes so by one of the causes (R67). -/
theorem lineAfter_uncertain_iff (l : Fin 4) (a : Tracker) (cs : List Nat) :
    lineAfter a.state cs = .uncertain ↔ a.state = .uncertain ∨ becomesUncertain l a cs = true := by
  rw [becomesUncertain_iff]
  generalize a.state = st
  induction cs generalizing st with
  | nil => simp [lineAfter, lineBreaks]
  | cons c cs ih =>
    cases st with
    | undefined =>
      rw [lineAfter, lineBreaks]
      exact ih _
    | tracking =>
      refine iff_of_true (lineAfter_uncertain _) (.inr ⟨breakNotice l 1 c, ?_, rfl⟩)
      exact List.mem_cons_self ..
    | uncertain => exact iff_of_true (lineAfter_uncertain _) (.inl rfl)
    | waiting =>
      rw [lineAfter, lineBreaks]
      by_cases h3 : c = 3
      · subst h3
        refine iff_of_true (lineAfter_uncertain _) (.inr ⟨breakNotice l 1 3, ?_, rfl⟩)
        exact List.mem_cons_self ..
      · have later := ih .waiting
        by_cases h0 : c = 0
        · simpa [h0, h3, breakNotice] using later
        · simpa [h0, h3] using later

/-- The causes of an item that carries one count (R57, R64, R66). -/
def Tracker.oneCauses (a : Tracker) (seq : Nat) (sd : Side) (c : Nat) : List Nat :=
  gapCauses a.lastSeq seq ++ jumpCauses a.defn.jump (a.base sd) c ++ restartCauses a

theorem Tracker.jumps_oneCauses (a : Tracker) (seq : Nat) (sd : Side) (c : Nat) :
    ((a.oneCauses seq sd c).filter (· == 1)).length = (jumpCauses a.defn.jump (a.base sd) c).length := by
  unfold oneCauses gapCauses jumpCauses restartCauses
  split <;> split <;> split <;> rfl

/-! ## The count taken -/

/-- One count applied, and WAITING left (R64, R66). -/
def State.countTaken (s : State) (l : Fin 4) (sd : Side) (c : Nat) : State := (s.takeCount l sd c).leaveWaiting l

/-- What an item that carries one count leaves before its steps. -/
structure CountMet (l : Fin 4) (seq : Byte) (sd : Side) (c : Nat) (s v : State) : Prop where
  line : ∃ silent timer, Marked
    (({ s.trackers[l] with silent := silent, timer := timer, lastSeq := some seq.toNat } : Tracker).counted sd c) v.trackers[l]
  met : Met l (arrivalNotices l s) ((s.trackers[l]).oneCauses seq.toNat sd c)
    (jumpCauses (s.trackers[l]).defn.jump ((s.trackers[l]).base sd) c).length (holdsOf [((s.trackers[l]).base sd, c)]) s v
  state : (v.trackers[l]).state = (lineAfter (s.trackers[l]).state ((s.trackers[l]).oneCauses seq.toNat sd c)).settled
  lines : OtherLines l s v
  port : v.ports[l] = (s.ports[l]).afterItem (Missed (s.trackers[l]).lastSeq seq.toNat) false

theorem State.leaveWaiting_state (s : State) (l : Fin 4) :
    ((s.leaveWaiting l).trackers[l]).state = (lineAfter (s.trackers[l]).state (restartCauses s.trackers[l])).settled := by
  obtain ⟨-, stays, resumes, restarts, -, -⟩ := s.leaveWaiting_line (l := l)
  by_cases hw : (s.trackers[l]).state = .waiting
  · by_cases he : (s.trackers[l]).map = [] ∧ (s.trackers[l]).exit.names = []
    · have none_ : restartCauses s.trackers[l] = [] := if_neg (fun h => h.2.elim (· he.1) (· he.2))
      rw [resumes hw he.1 he.2, none_, hw]
      rfl
    · have one : restartCauses s.trackers[l] = [3] := if_pos ⟨hw, by tauto⟩
      rw [restarts hw he, one, hw]
      rfl
  · have none_ : restartCauses s.trackers[l] = [] := if_neg (fun h => hw h.1)
    rw [stays hw, none_]
    unfold lineAfter LineState.settled
    split
    · next h => exact absurd h hw
    · rfl

section
variable {s u : State} {l : Fin 4} {it : Item} {seq : Byte}

theorem Tracker.counted_base {a b : Tracker} (h : Marked a b) (sd : Side) : b.base sd = a.base sd := by
  cases sd with
  | feed => exact h.feedBase
  | delivery => exact h.deliveryBase

theorem Tracker.counted_odo {a b : Tracker} (h : Marked a b) (sd : Side) : b.odo sd = a.odo sd := by
  cases sd with
  | feed => exact h.feed
  | delivery => exact h.delivery

/-- A check before any count is applied sees the line's own odometer and base (R72). -/
theorem ItemChecked.preview (h : ItemChecked l it seq s u) (sd : Side) (c : Nat) :
    (u.trackers[l]).preview sd c = (s.trackers[l]).preview sd c := by
  unfold Tracker.preview
  rw [Tracker.counted_base h.line, Tracker.counted_odo h.line, h.line.defn]
  cases sd <;> rfl

theorem ItemChecked.countTaken {fr : StationFrame} (h : ItemChecked l (.frame seq fr) seq s u) (hr : s.startUp.ready = true) (sd : Side)
    (c : Nat) : CountMet l seq sd c s (u.countTaken l sd c) := by
  have base : (u.trackers[l]).base sd = (s.trackers[l]).base sd := by
    rw [Tracker.counted_base h.line]
    cases sd <;> rfl
  have count := State.takeCount_meets (l := l) (h.meets.tells.ready.trans hr) sd c
  dsimp only at count
  rw [base, h.line.defn] at count
  have both := h.meets.trans count
  obtain ⟨counted, -, -, others, ports⟩ := u.takeCount_line (l := l) sd c
  have line := (h.line.counted sd c).trans counted
  obtain ⟨marked, -, -, -, waitOthers, waitPorts⟩ := (u.takeCount l sd c).leaveWaiting_line (l := l)
  have state := (u.takeCount l sd c).leaveWaiting_state l
  have no3 : 3 ∉ gapCauses (s.trackers[l]).lastSeq seq.toNat ++ jumpCauses (s.trackers[l]).defn.jump ((s.trackers[l]).base sd) c := by
    simp [not_mem_gapCauses, not_mem_jumpCauses]
  have restart : restartCauses (u.takeCount l sd c).trackers[l] = restartCauses s.trackers[l] := by
    refine restartCauses_congr ?_ ?_ ?_
    · rw [both.state]
      exact lineAfter_eq_waiting no3
    · rw [line.map_nil]
      cases sd <;> rfl
    · rw [line.2.2.2]
      cases sd <;> rfl
  have met := h.meets.item count (State.leaveWaiting_met (both.tells.ready.trans hr))
  rw [restart] at met state
  refine ⟨⟨_, _, line.trans marked⟩, met, ?_, ?_, ?_⟩
  · rw [State.countTaken, state, both.state, ← lineAfter_append]
    rfl
  · exact (h.lines.trans (others.lines ports)).trans (waitOthers.lines waitPorts)
  · rw [State.countTaken, waitPorts, ports, h.port]
    rfl

end

namespace CountMet

section
variable {l : Fin 4} {seq : Byte} {sd : Side} {c : Nat} {s v : State} (h : CountMet l seq sd c s v)

include h

theorem defn : (v.trackers[l]).defn = (s.trackers[l]).defn := by
  obtain ⟨silent, timer, line⟩ := h.line
  rw [line.defn]
  cases sd <;> rfl

theorem lastSeq : (v.trackers[l]).lastSeq = some seq.toNat := by
  obtain ⟨silent, timer, line⟩ := h.line
  rw [line.lastSeq]
  cases sd <;> rfl

theorem pair : (v.trackers[l]).pair = (s.trackers[l]).pair := by
  obtain ⟨silent, timer, line⟩ := h.line
  rw [line.pair]
  cases sd <;> rfl

/-- The counters of the item, its causes listed. -/
theorem cnt : (v.trackers[l]).cnt = { (s.trackers[l]).cnt with
    jumps := bumpTimes (((s.trackers[l]).oneCauses seq.toNat sd c).filter (· == 1)).length (s.trackers[l]).cnt.jumps
    holds := bumpTimes (holdsOf [((s.trackers[l]).base sd, c)]) (s.trackers[l]).cnt.holds
    uncertain := if becomesUncertain l s.trackers[l] ((s.trackers[l]).oneCauses seq.toNat sd c) then bump (s.trackers[l]).cnt.uncertain
      else (s.trackers[l]).cnt.uncertain } := by
  rw [h.met.cnt, Tracker.jumps_oneCauses]
  rfl

/-- The item leaves the line UNCERTAIN where it was so or becomes so. -/
theorem uncertain_iff : (v.trackers[l]).state = .uncertain ↔
    (s.trackers[l]).state = .uncertain ∨ becomesUncertain l s.trackers[l] ((s.trackers[l]).oneCauses seq.toNat sd c) = true := by
  rw [h.state, LineState.settled_uncertain]
  exact lineAfter_uncertain_iff ..

theorem state_cases (hu : (s.trackers[l]).state ≠ .undefined) : (v.trackers[l]).state = .tracking ∨ (v.trackers[l]).state = .uncertain := by
  rw [h.state]
  exact LineState.settled_cases (lineAfter_undefined hu)

end

section
variable {l : Fin 4} {seq : Byte} {c : Nat} {s v : State}

/-- A feed count moves the feed odometer alone (R64). -/
theorem feed (h : CountMet l seq .feed c s v) : CountTaken (s.trackers[l]).defn.jump (s.trackers[l]).feed (s.trackers[l]).feedBase c
      (v.trackers[l]).feed (v.trackers[l]).feedBase ∧
    (v.trackers[l]).delivery = (s.trackers[l]).delivery ∧ (v.trackers[l]).deliveryBase = (s.trackers[l]).deliveryBase := by
  obtain ⟨silent, timer, line⟩ := h.line
  rw [line.feed, line.feedBase, line.delivery, line.deliveryBase]
  exact ⟨applyCount_taken .., rfl, rfl⟩

/-- A delivery count moves the delivery odometer alone (R64). -/
theorem delivery (h : CountMet l seq .delivery c s v) : CountTaken (s.trackers[l]).defn.jump (s.trackers[l]).delivery
      (s.trackers[l]).deliveryBase c (v.trackers[l]).delivery (v.trackers[l]).deliveryBase ∧
    (v.trackers[l]).feed = (s.trackers[l]).feed ∧ (v.trackers[l]).feedBase = (s.trackers[l]).feedBase := by
  obtain ⟨silent, timer, line⟩ := h.line
  rw [line.feed, line.feedBase, line.delivery, line.deliveryBase]
  exact ⟨applyCount_taken .., rfl, rfl⟩

end
end CountMet

/-! ## The steps run -/

theorem Tracker.trackFault_cnt (a : Tracker) (i : Nat) (q : Option Ref) :
    (a.trackFault i q).tracker.cnt = { a.cnt with trackFaults := bumpTimes (a.trackFault i q).fault.toList.length a.cnt.trackFaults } := rfl

theorem Tracker.crossTail_cnt (a : Tracker) (i : Nat) (g : Segment) (ft : Nat) : (a.crossTail i g ft).tracker.cnt =
    { a.cnt with trackFaults := bumpTimes (a.crossTail i g ft).fault.toList.length a.cnt.trackFaults } := by
  unfold Tracker.crossTail
  dsimp only
  split
  · split
    · split
      · exact Tracker.trackFault_cnt ..
      · rfl
    · exact Tracker.trackFault_cnt ..
  · rfl

/-- A step counts the track faults it finds and nothing else (R188). -/
theorem Tracker.task_cnt (a : Tracker) (k : Task) : (a.task k).tracker.cnt =
    { a.cnt with trackFaults := bumpTimes (a.task k).fault.toList.length a.cnt.trackFaults } := by
  cases k with
  | closeLast ft =>
    unfold Tracker.task
    dsimp only
    split
    · rfl
    · split
      · rfl
      · dsimp only [Tracker.plain]
        split <;> rfl
  | crossHead i =>
    unfold Tracker.task
    dsimp only
    split
    · rfl
    · dsimp only [Tracker.plain]
      split <;> rfl
  | crossTail i =>
    unfold Tracker.task
    dsimp only
    split
    · rfl
    · split
      · rfl
      · split
        · exact Tracker.crossTail_cnt ..
        · rfl
  | drop i =>
    unfold Tracker.task
    dsimp only
    split
    · rfl
    · split <;> rfl
  | leave =>
    show a.left.cnt = _
    rw [Tracker.left_eq]
    rfl
  | _ => rfl

theorem Tracker.goOn_cnt (p : Bool) (ks : List Task) (a : Tracker) : (Tracker.goOn p ks a).cnt =
    { a.cnt with trackFaults := bumpTimes (Tracker.runFaults ks a).length a.cnt.trackFaults } := by
  induction ks generalizing a with
  | nil => rfl
  | cons k ks ih =>
    have first := a.task_cnt k
    unfold Tracker.goOn Tracker.runFaults
    cases (a.task k).op with
    | none =>
      dsimp only
      rw [ih, first, if_pos rfl, List.length_append, bumpTimes_add]
    | some q =>
      rw [if_neg nofun, List.append_nil]
      exact first

/-- From `v` to `t` the tracker of line `l` has run the steps `ks` of an item of its port. -/
structure StepsRan (l : Fin 4) (ks : List Task) (v t : State) : Prop where
  line : t.trackers[l] = (Tracker.goOn true ks v.trackers[l]).presenting
  kept : LineKept v.trackers[l] t.trackers[l]
  lines : OtherLines l v t
  ports : t.ports = v.ports
  raises : Tells ((Tracker.runFaults ks v.trackers[l]).map (faultNotice l v.table)) v t
  conditions : SameConditions v t
  cnt : (t.trackers[l]).cnt =
    { (v.trackers[l]).cnt with trackFaults := bumpTimes (Tracker.runFaults ks v.trackers[l]).length (v.trackers[l]).cnt.trackFaults }

theorem State.runTasks_ran (v : State) (l : Fin 4) (ks : List Task) : StepsRan l ks v (v.runTasks l true ks) where
  line := v.runTasks_presenting l true ks
  kept := (v.runTasks_line l true ks).1
  lines := (v.runTasks_line l true ks).2.lines ((Touches.refl [.trackers, .slc] v).runTasks rfl rfl).ports_eq
  ports := ((Touches.refl [.trackers, .slc] v).runTasks rfl rfl).ports_eq
  raises := v.runTasks_faults l ks
  conditions := v.runTasks_conditions l ks
  cnt := by
    rw [v.runTasks_presenting]
    exact Tracker.goOn_cnt ..

/-- The notices and counters of an item whose steps find no track fault. -/
theorem Met.steps {l : Fin 4} {before : List Notice} {cs : List Nat} {j k : Nat} {s v t : State} {ks : List Task}
    (h : Met l before cs j k s v) (g : StepsRan l ks v t) (hf : Tracker.runFaults ks v.trackers[l] = []) :
    Discontinued l before cs [] s t.kick ∧ (t.trackers[l]).cnt = (v.trackers[l]).cnt := by
  have told := g.raises
  have cnt : (t.trackers[l]).cnt = (v.trackers[l]).cnt := by
    rw [g.cnt, hf]
    rfl
  rw [hf] at told
  exact ⟨h.discontinued told g.conditions.1 (congrArg TrackCounters.uncertain cnt), cnt⟩

/-! ## The item found malformed (R72) -/


section
variable {s : State} {l : Fin 4} {c : Instr} {seq : Byte} {fr : StationFrame}

/-- The state before the leaving check of a malformed item. -/
def State.malformedMet (u : State) (l : Fin 4) : State :=
  (u.updPortCnt l (fun c => { c with malformed := bump c.malformed })).discontinuityIf l 2

theorem State.malformedHere_eq (u : State) (l : Fin 4) :
    u.malformedHere l = (u.malformedMet l).updTracker l (fun t => { t.left with work := none }) :=
  State.runTasks_leave _ l

theorem ItemHanded.rejected (h : ItemHanded s l (.frame seq fr))
    (hc : ∀ u, s.takeItem l (.frame seq fr) = some u → exec c s = settle ((u.seqCheck l seq).malformedHere l)) : ItemRejected c l seq s := by
  obtain ⟨w, hw, checked⟩ := h.checked nofun seq
  have ran := hc w hw
  have taken := (Touches.refl [.ports, .trackers, .slc] s).takeItem hw rfl rfl rfl
  set u := w.seqCheck l seq with hu
  rw [State.malformedHere_eq] at ran
  set v := u.malformedMet l with hv
  have touches : Touches [.ports, .trackers, .slc] s v := ((taken.seqCheck rfl rfl rfl).updPortCnt rfl).discontinuityIf rfl rfl
  obtain ⟨seen, -, seenOthers, seenPorts⟩ :=
    (u.updPortCnt l (fun c => { c with malformed := bump c.malformed })).discontinuityIf_line (l := l) 2
  have ready : u.startUp.ready = true := checked.meets.tells.ready.trans h.ready
  have counted : Meets l (arrivalNotices l s) (gapCauses (s.trackers[l]).lastSeq seq.toNat) 0 0 s
      (u.updPortCnt l (fun c => { c with malformed := bump c.malformed })) := checked.meets.frame rfl rfl rfl
  have meets : Meets l (arrivalNotices l s) (gapCauses (s.trackers[l]).lastSeq seq.toNat ++ [2]) 0 0 s v :=
    counted.trans (State.discontinuityIf_meets ready (by decide) (by decide))
  have marked : Marked _ v.trackers[l] := checked.line.trans seen
  have line : (v.updTracker l (fun t => { t.left with work := none })).kick.trackers[l] =
      { v.trackers[l] with map := (v.trackers[l]).left.map, work := none } := by
    rw [State.kick_trackers, State.updTracker_at, Tracker.left_eq]
  have cnt : (v.trackers[l]).cnt = { (s.trackers[l]).cnt with uncertain := (v.trackers[l]).cnt.uncertain } := by
    rw [meets.cnt]
    rfl
  have otherPorts : OtherLines l u (u.updPortCnt l (fun c => { c with malformed := bump c.malformed })) :=
    fun k hk => ⟨rfl, updAt_other _ _ _ _ (Ne.symm hk)⟩
  have others : OtherLines l s (v.updTracker l (fun t => { t.left with work := none })).kick :=
    (((checked.lines.trans otherPorts).trans (seenOthers.lines seenPorts)).trans ((OtherTrackers.updTracker v l _).lines rfl)).kick
  refine ⟨_, ran, (touches.updTracker rfl).kick rfl, others, ?_⟩
  rw [line]
  refine ⟨marked.feed, marked.feedBase, marked.delivery, marked.deliveryBase, marked.pair, meets.exit, Tracker.left_mark meets.map marked.2.2.1,
    rfl, marked.lastSeq, ?_, ?_, cnt, fun ht => ?_, fun ht => ?_⟩
  · rw [State.kick_ports, State.updTracker_ports, hv, State.malformedMet, seenPorts, State.updPortCnt_ports, updAt_get, if_pos rfl,
      checked.port]
    rfl
  · refine meets.discontinued (.of_slc rfl rfl) rfl ?_
    rw [State.updTracker_at, Tracker.left_eq]
  · show (v.trackers[l]).state = _
    rw [meets.state]
    rcases ht with ht | ht <;> rw [ht]
    · exact lineAfter_tracking (List.append_ne_nil_of_right_ne_nil _ (List.cons_ne_nil 2 []))
    · exact lineAfter_uncertain _
  · show (v.trackers[l]).state = _
    rw [meets.state, ht]
    exact lineAfter_waiting (by simp [not_mem_gapCauses])

end
end Sys2Proof.Machine
end

section
/-! # ENTRY and TAIL (R72, R75, R77): what they do to the map -/

namespace Sys2Proof.Machine

/-! ## The checks -/

section
variable {m gs : List Segment} {g : Segment} {f ft : Nat}

theorem entryCheck_empty (f : Nat) : entryCheck [] f = .ok [] := rfl

theorem entryCheck_closed (hm : m = gs ++ [g]) (hg : g.ft = some ft) :
    entryCheck m f = if f < ft then .error .order else if m.length < 8 then .ok [] else .error .noRoom := by
  unfold entryCheck
  rw [hm, List.getLast?_concat]
  dsimp only
  rw [hg]

theorem entryCheck_open (hm : m = gs ++ [g]) (hg : g.ft = none) : entryCheck m f =
    if f = g.fh then .ok [.closeLast f] else if f < g.fh then .error .order else if m.length < 8 then .ok [.closeLast f] else .error .noRoom := by
  unfold entryCheck
  rw [hm, List.getLast?_concat]
  dsimp only
  rw [hg]

/-- A map that is empty, or whose last segment is closed at or before the entry, takes the new segment as it is (R75). -/
theorem entryCheck_free (hn : m.length < 8) (h : ∀ gs g, m = gs ++ [g] → ∃ ft, g.ft = some ft ∧ ft ≤ f) : entryCheck m f = .ok [] := by
  rcases List.eq_nil_or_concat' m with rfl | ⟨gs, g, hm⟩
  · exact entryCheck_empty f
  · obtain ⟨ft, hg, hle⟩ := h gs g hm
    rw [entryCheck_closed hm hg, if_neg (Nat.not_lt.mpr hle), if_pos hn]

/-- The open last segment is closed first (R75). -/
theorem entryCheck_closes (hm : m = gs ++ [g]) (hg : g.ft = none) (hle : g.fh ≤ f) (hn : m.length < 8 ∨ f = g.fh) :
    entryCheck m f = .ok [.closeLast f] := by
  rw [entryCheck_open hm hg]
  by_cases he : f = g.fh
  · rw [if_pos he]
  · rw [if_neg he, if_neg (Nat.not_lt.mpr hle), if_pos (hn.resolve_right he)]

/-- An entry behind the last feed mark (R75). -/
theorem entryCheck_order (hm : m = gs ++ [g]) (h : (∃ ft, g.ft = some ft ∧ f < ft) ∨ g.ft = none ∧ f < g.fh) :
    entryCheck m f = .error .order := by
  rcases h with ⟨ft, hg, hlt⟩ | ⟨hg, hlt⟩
  · rw [entryCheck_closed hm hg, if_pos hlt]
  · rw [entryCheck_open hm hg, if_neg (Nat.ne_of_lt hlt), if_pos hlt]

/-- An entry that needs a place in a full map (R75, log entry 21). -/
theorem entryCheck_noRoom (hm : m = gs ++ [g]) (hn : 8 ≤ m.length) (h : (∃ ft, g.ft = some ft ∧ ft ≤ f) ∨ g.ft = none ∧ g.fh < f) :
    entryCheck m f = .error .noRoom := by
  rcases h with ⟨ft, hg, hle⟩ | ⟨hg, hlt⟩
  · rw [entryCheck_closed hm hg, if_neg (Nat.not_lt.mpr hle), if_neg (Nat.not_lt.mpr hn)]
  · rw [entryCheck_open hm hg, if_neg (Nat.ne_of_gt hlt), if_neg (Nat.lt_asymm hlt), if_neg (Nat.not_lt.mpr hn)]

theorem tailCheck_closes (hm : m = gs ++ [g]) (hg : g.ft = none) (hle : g.fh ≤ f) : tailCheck m f = .ok [.closeLast f] := by
  unfold tailCheck
  rw [hm, List.getLast?_concat]
  dsimp only
  rw [hg]
  exact if_neg (fun h => h.elim Bool.false_ne_true (Nat.not_lt.mpr hle))

theorem tailCheck_order (h : ∀ gs g, m = gs ++ [g] → g.ft ≠ none ∨ f < g.fh) : tailCheck m f = .error .order := by
  unfold tailCheck
  rcases List.eq_nil_or_concat' m with rfl | ⟨gs, g, hm⟩
  · rfl
  · rw [hm, List.getLast?_concat]
    exact if_pos ((h gs g hm).imp_left Option.isSome_iff_ne_none.mpr)

/-- Marks change no check. -/
theorem entryCheck_mark (m : List Segment) (k : Bool) (f : Nat) : entryCheck (m.map (Segment.mark k)) f = entryCheck m f := by
  rcases List.eq_nil_or_concat' m with rfl | ⟨gs, g, hm⟩
  · rfl
  · have marked : m.map (Segment.mark k) = gs.map (Segment.mark k) ++ [g.mark k] := by
      rw [hm, List.map_append]
      rfl
    have len : (m.map (Segment.mark k)).length = m.length := List.length_map _
    cases hg : g.ft with
    | none => rw [entryCheck_open marked hg, entryCheck_open hm hg, len]; rfl
    | some ft => rw [entryCheck_closed marked hg, entryCheck_closed hm hg, len]

theorem tailCheck_mark (m : List Segment) (k : Bool) (f : Nat) : tailCheck (m.map (Segment.mark k)) f = tailCheck m f := by
  unfold tailCheck
  rw [List.getLast?_map]
  cases m.getLast? <;> rfl

end

/-! ## The steps -/

theorem lastTasks_marked (b : Bool) : lastTasks (true || b) true = crossingsFrom 0 ++ [.keepPair, .leave] := by
  rw [Bool.true_or]
  decide

theorem lastSteps_crossings : LastSteps (crossingsFrom 0 ++ [.keepPair, .leave]) := by
  rw [← lastTasks_marked false]
  exact lastSteps_position true

/-- The segment an ENTRY places (R75). -/
def Segment.placed (o : Orientation) (fh : Nat) : Segment :=
  { coil := none, orient := o, length := none, fh := fh, ft := none, dh := none, dt := none, suspect := false, fault := .none }

section
variable {a : Tracker} {p : Bool} {ks : List Task} (o : Orientation) (fh declared : Nat) (name : Name)

theorem Tracker.goOn_place : Tracker.goOn p (.place o fh declared name :: ks) a = { a with
      map := a.map ++ [.placed o fh], work := some (.pending (.enterCoil name o fh declared) a.map.length ks p) } ∧
    Tracker.runFaults (.place o fh declared name :: ks) a = [] := ⟨rfl, rfl⟩

/-- A last segment without a coil is closed or removed, and the new one placed (R76). -/
theorem Tracker.goOn_replace {gs : List Segment} {g : Segment} (hm : a.map = gs ++ [g]) (hc : g.coil = none) (ft : Nat) :
    let before := if ft = g.fh then gs else gs ++ [{ g with ft := some ft }]
    Tracker.goOn p (.closeLast ft :: .place o fh declared name :: ks) a = { a with
      map := before ++ [.placed o fh], work := some (.pending (.enterCoil name o fh declared) before.length ks p) } ∧
    Tracker.runFaults (.closeLast ft :: .place o fh declared name :: ks) a = [] := by
  obtain ⟨ran, faults⟩ := Tracker.goOn_closeLast_none p (.place o fh declared name :: ks) hm hc ft
  rw [ran, faults]
  exact ⟨rfl, rfl⟩

end

/-! ## Maps of DETACHED segments (R76) -/

/-- Every segment is DETACHED. -/
def Tracker.Detached (a : Tracker) : Prop := ∀ x ∈ a.map, x.fault = .detached

section
variable {a : Tracker} {p : Bool} {ks : List Task}

/-- A DETACHED segment stays so. -/
theorem Tracker.Detached.task (h : a.Detached) {k : Task} (hk : (∃ i, k = .crossHead i ∨ k = .crossTail i) ∨ k = .keepPair ∨ k = .leave) :
    (a.task k).tracker.Detached ∧ (a.task k).op = none ∧ (a.task k).fault = none := by
  obtain ⟨-, ran, ops⟩ := a.task_last k hk
  have stays : (a.task k).tracker.Detached := by
    intro y hy
    obtain ⟨x, hx, -, -, -, -, faults⟩ := ran.origin hy
    rcases faults with hf | ⟨hf, -⟩
    · rw [hf, h x hx]
    · rw [h x hx] at hf
      cases hf
  refine ⟨stays, ?_, ?_⟩
  · cases ho : (a.task k).op with
    | none => rfl
    | some q =>
      obtain ⟨x, r, hx, -, bad⟩ := ops q.1 q.2 ho
      have detached := stays x (List.mem_of_getElem? hx)
      rcases bad with ⟨-, bad⟩ | ⟨-, -, -, -, -, -, -, -, bad⟩ <;> rw [bad] at detached <;> cases detached
  · rcases hk with ⟨i, rfl | rfl⟩ | rfl | rfl
    · unfold Tracker.task
      dsimp only
      split <;> rfl
    · unfold Tracker.task
      dsimp only
      split
      · rfl
      · next g hg =>
        split
        · rfl
        · split
          · unfold Tracker.crossTail
            rw [h g (List.mem_of_getElem? hg)]
            rfl
          · rfl
    · rfl
    · rfl

/-- DETACHED segments cross with no operation and no track fault (R80). -/
theorem Tracker.Detached.goOn (h : a.Detached) (hk : LastSteps ks) : (Tracker.goOn p ks a).work = none ∧ Tracker.runFaults ks a = [] := by
  induction ks generalizing a with
  | nil => exact ⟨rfl, rfl⟩
  | cons k ks ih =>
    obtain ⟨stays, ops, faults⟩ := h.task (hk k (List.mem_cons_self ..))
    obtain ⟨work, rest⟩ := ih stays hk.tail
    unfold Tracker.goOn Tracker.runFaults
    rw [ops, faults, if_pos rfl]
    exact ⟨work, rest⟩

/-- The closing of a single DETACHED segment, and the steps behind it (R76, R77). -/
theorem Tracker.goOn_detached {g : Segment} (hm : a.map = [g]) (hc : g.coil = none) (hz : g.fault = .detached) (ft : Nat) (hk : LastSteps ks) :
    let b := Tracker.goOn p (.closeLast ft :: ks) a
    b.work = none ∧ Tracker.runFaults (.closeLast ft :: ks) a = [] ∧ LineKept a b ∧ b.exit = a.exit ∧ (ft = g.fh → b.map = []) ∧
      ∀ x ∈ b.map, x.coil = none ∧ x.fault = .detached ∧ x.fh = g.fh ∧ x.ft = some ft ∧ x.suspect = g.suspect := by
  obtain ⟨ran, faults⟩ := Tracker.goOn_closeLast_none p ks (gs := []) hm hc ft
  have detached : ({ a with map := if ft = g.fh then [] else [] ++ [{ g with ft := some ft }] } : Tracker).Detached := by
    intro x hx
    dsimp only at hx
    split at hx
    · cases hx
    · rw [List.mem_singleton.mp hx]
      exact hz
  obtain ⟨work, none_⟩ := detached.goOn (p := p) hk
  obtain ⟨same, left, -⟩ := Tracker.goOn_ranLast p hk { a with map := if ft = g.fh then [] else [] ++ [{ g with ft := some ft }] }
  rw [ran, faults]
  refine ⟨work, none_, ?_, by rw [same], fun he => ?_, fun x hx => ?_⟩
  · unfold LineKept
    rw [same]
  · obtain ⟨n, hlen, -⟩ := left
    rw [if_pos he] at hlen ⊢
    exact List.length_eq_zero_iff.mp (Nat.eq_zero_of_add_eq_zero_right hlen)
  · obtain ⟨y, hy, crossed, -, -, -, fault⟩ := MapRan.origin left hx
    dsimp only at hy
    split at hy
    · cases hy
    · rw [List.mem_singleton.mp hy] at crossed fault
      rcases fault with fault | ⟨fault, -⟩
      · rw [fault, crossed]
        exact ⟨hc, hz, rfl, rfl, rfl⟩
      · exact nomatch hz.symm.trans fault

end
end Sys2Proof.Machine
end

section
/-! # O36: ENTRY and TAIL frames (R65, R68, R69, R74, R75, R77) -/

namespace Sys2Proof.Machine

section
variable {l : Fin 4} {seq : Byte} {feed declared : BitVec 32} {o : Orientation} {name : Name} {s : State}

theorem ItemChecked.entryCheck {it : Item} {u : State} (h : ItemChecked l it seq s u) (f : Nat) :
    entryCheck (u.trackers[l]).map f = entryCheck (s.trackers[l]).map f := by
  rw [h.meets.map, entryCheck_mark]

theorem ItemChecked.tailCheck {it : Item} {u : State} (h : ItemChecked l it seq s u) (f : Nat) :
    tailCheck (u.trackers[l]).map f = tailCheck (s.trackers[l]).map f := by
  rw [h.meets.map, tailCheck_mark]

/-! ## ENTRY -/

theorem State.exec_entry {u : State} (hu : s.takeItem l (.frame seq (.entry feed o declared name)) = some u) :
    exec (.entry l seq feed o declared name) s = settle ((u.seqCheck l seq).entryItem l (s.trackers[l]).feed feed.toNat
      (((u.seqCheck l seq).trackers[l]).preview .feed feed.toNat) o declared.toNat name) := by
  have arm : exec (.entry l seq feed o declared name) s = execEntry l seq feed o declared name s := rfl
  rw [arm, execEntry, hu]

theorem ItemHanded.entry_rejected (h : ItemHanded s l (.frame seq (.entry feed o declared name))) {k : Code}
    (hk : entryCheck (s.trackers[l]).map ((s.trackers[l]).preview .feed feed.toNat) = .error k) :
    ItemRejected (.entry l seq feed o declared name) l seq s := by
  refine h.rejected (fun u hu => ?_)
  obtain ⟨u', hu', checked⟩ := h.checked nofun seq
  obtain rfl := Option.some.inj (hu.symm.trans hu')
  rw [State.exec_entry hu, State.entryItem, checked.entryCheck, checked.preview, hk]

/-- An ENTRY in order: its count is taken, its line restored, and its steps run. -/
theorem ItemHanded.entry_ok (h : ItemHanded s l (.frame seq (.entry feed o declared name))) {ks : List Task}
    (hk : entryCheck (s.trackers[l]).map ((s.trackers[l]).preview .feed feed.toNat) = .ok ks) :
    ∃ v t, CountMet l seq .feed feed.toNat s v ∧ exec (.entry l seq feed o declared name) s = .next t.kick ∧
      StepsRan l (ks ++ .place o ((s.trackers[l]).preview .feed feed.toNat) declared.toNat name :: (crossingsFrom 0 ++ [.keepPair, .leave]))
        (v.restore l) t := by
  obtain ⟨u, hu, checked⟩ := h.checked nofun seq
  have counted := checked.countTaken h.ready .feed feed.toNat
  have ran := State.exec_entry hu
  rw [State.entryItem, checked.entryCheck, checked.preview, hk] at ran
  dsimp only at ran
  rw [State.runItem, lastTasks_marked, List.append_assoc, List.singleton_append] at ran
  exact ⟨_, _, counted, ran, State.runTasks_ran ..⟩

/-- The line whose counts are trusted again (R69). -/
theorem CountMet.restored {c : Nat} {sd : Side} {v : State} (h : CountMet l seq sd c s v) (hu : (s.trackers[l]).state ≠ .undefined) :
    (v.restore l).trackers[l] = { v.trackers[l] with state := .tracking } := by
  rw [(v.restore_line (l := l)).1]
  rcases h.state_cases hu with hst | hst <;> rw [hst] <;> rfl

/-- What an ENTRY in order leaves, whose steps present an operation with the map `m`. -/
structure EntryApplied (l : Fin 4) (seq : Byte) (feed : Nat) (m : List Segment) (w : Work) (s t : State) : Prop where
  lines : OtherLines l s t
  counted : CountTaken (s.trackers[l]).defn.jump (s.trackers[l]).feed (s.trackers[l]).feedBase feed (t.trackers[l]).feed (t.trackers[l]).feedBase
  delivery : (t.trackers[l]).delivery = (s.trackers[l]).delivery
  deliveryBase : (t.trackers[l]).deliveryBase = (s.trackers[l]).deliveryBase
  state : (t.trackers[l]).state = .tracking
  exit : (t.trackers[l]).exit = (s.trackers[l]).exit.mark (breaksLine l s.trackers[l] ((s.trackers[l]).oneCauses seq.toNat .feed feed))
  port : t.ports[l] = (s.ports[l]).afterItem (Missed (s.trackers[l]).lastSeq seq.toNat) false
  notices : NoticesTaken (arrivalNotices l s ++ lineBreaks l (s.trackers[l]).state ((s.trackers[l]).oneCauses seq.toNat .feed feed) ++
    if (s.trackers[l]).state == .uncertain || becomesUncertain l s.trackers[l] ((s.trackers[l]).oneCauses seq.toNat .feed feed) then
      [{ cls := .line, reason := 3, line := some l.1 }] else []) s t
  condition : t.slc.uncertain[l] =
    if (s.trackers[l]).state == .uncertain || becomesUncertain l s.trackers[l] ((s.trackers[l]).oneCauses seq.toNat .feed feed) then none
    else s.slc.uncertain[l]
  cnt : (t.trackers[l]).cnt = { (s.trackers[l]).cnt with
    jumps := bumpTimes (((s.trackers[l]).oneCauses seq.toNat .feed feed).filter (· == 1)).length (s.trackers[l]).cnt.jumps
    holds := bumpTimes (holdsOf [((s.trackers[l]).feedBase, feed)]) (s.trackers[l]).cnt.holds
    uncertain := if becomesUncertain l s.trackers[l] ((s.trackers[l]).oneCauses seq.toNat .feed feed) then bump (s.trackers[l]).cnt.uncertain
      else (s.trackers[l]).cnt.uncertain }
  map : (t.trackers[l]).map = m
  work : (t.trackers[l]).work = some { w with presented := true }

theorem CountMet.entryApplied {c : Nat} {v t : State} {ks : List Task} {m : List Segment} {w : Work} (h : CountMet l seq .feed c s v)
    (hu : (s.trackers[l]).state ≠ .undefined) (g : StepsRan l ks (v.restore l) t)
    (hb : Tracker.goOn true ks { v.trackers[l] with state := .tracking } = { v.trackers[l] with state := .tracking, map := m, work := some w } ∧
      Tracker.runFaults ks { v.trackers[l] with state := .tracking } = []) : EntryApplied l seq c m w s t.kick := by
  have restored := h.restored hu
  obtain ⟨-, others, ports⟩ := v.restore_line (l := l)
  have told := g.raises
  have line := g.line
  have condition := v.restore_condition l
  rw [restored] at told line
  rw [hb.2] at told
  rw [hb.1] at line
  have restored_iff : (v.trackers[l]).state = .uncertain ↔ ((s.trackers[l]).state == .uncertain ||
      becomesUncertain l s.trackers[l] ((s.trackers[l]).oneCauses seq.toNat .feed c)) = true := by
    rw [h.uncertain_iff, Bool.or_eq_true, beq_iff_eq]
  obtain ⟨counted, delivery, deliveryBase⟩ := h.feed
  have raised := ((h.met.tells.trans (v.restore_tells l)).trans told).kick
  have all : OtherLines l s t := (h.lines.trans (others.lines ports)).trans g.lines
  constructor
  case lines => exact all.kick
  case port => rw [State.kick_ports, g.ports, ports, h.port]
  case notices =>
    rw [restoredNotices, List.map_nil, List.append_nil] at raised
    simp only [restored_iff] at raised
    exact raised
  case condition =>
    rw [State.kick_uncertain, g.conditions.1, condition]
    simp only [restored_iff]
    split
    · rfl
    · next hn => exact h.met.kept (Bool.or_eq_false_iff.mp (Bool.eq_false_iff.mpr hn)).2
  all_goals rw [State.kick_trackers, line]
  case counted => exact counted
  case delivery => exact delivery
  case deliveryBase => exact deliveryBase
  case state => rfl
  case exit => exact h.met.exit
  case cnt => exact h.cnt
  case map => rfl
  case work => rfl

/-! ## TAIL -/

theorem State.exec_tail {u : State} (hu : s.takeItem l (.frame seq (.tail feed)) = some u) :
    exec (.tail l seq feed) s = settle ((u.seqCheck l seq).tailItem l (s.trackers[l]).feed feed.toNat
      (((u.seqCheck l seq).trackers[l]).preview .feed feed.toNat)) := by
  have arm : exec (.tail l seq feed) s = execTail l seq feed s := rfl
  rw [arm, execTail, hu]

theorem ItemHanded.tail_rejected (h : ItemHanded s l (.frame seq (.tail feed))) {k : Code}
    (hk : tailCheck (s.trackers[l]).map ((s.trackers[l]).preview .feed feed.toNat) = .error k) :
    ItemRejected (.tail l seq feed) l seq s := by
  refine h.rejected (fun u hu => ?_)
  obtain ⟨u', hu', checked⟩ := h.checked nofun seq
  obtain rfl := Option.some.inj (hu.symm.trans hu')
  rw [State.exec_tail hu, State.tailItem, checked.tailCheck, checked.preview, hk]

/-- A TAIL in order: its count is taken, and its steps run. -/
theorem ItemHanded.tail_ok (h : ItemHanded s l (.frame seq (.tail feed))) {ks : List Task}
    (hk : tailCheck (s.trackers[l]).map ((s.trackers[l]).preview .feed feed.toNat) = .ok ks) :
    ∃ v t, CountMet l seq .feed feed.toNat s v ∧ exec (.tail l seq feed) s = .next t.kick ∧
      StepsRan l (ks ++ (crossingsFrom 0 ++ [.keepPair, .leave])) v t := by
  obtain ⟨u, hu, checked⟩ := h.checked nofun seq
  have counted := checked.countTaken h.ready .feed feed.toNat
  have ran := State.exec_tail hu
  rw [State.tailItem, checked.tailCheck, checked.preview, hk] at ran
  dsimp only at ran
  rw [State.runItem, lastTasks_marked] at ran
  exact ⟨_, _, counted, ran, State.runTasks_ran ..⟩

/-- What an item of one count leaves whose steps find no track fault. -/
structure ItemApplied (l : Fin 4) (seq : Byte) (sd : Side) (c : Nat) (s t : State) : Prop where
  lines : OtherLines l s t
  port : t.ports[l] = (s.ports[l]).afterItem (Missed (s.trackers[l]).lastSeq seq.toNat) false
  raises : Discontinued l (arrivalNotices l s) ((s.trackers[l]).oneCauses seq.toNat sd c) [] s t
  cnt : (t.trackers[l]).cnt = { (s.trackers[l]).cnt with
    jumps := bumpTimes (((s.trackers[l]).oneCauses seq.toNat sd c).filter (· == 1)).length (s.trackers[l]).cnt.jumps
    holds := bumpTimes (holdsOf [((s.trackers[l]).base sd, c)]) (s.trackers[l]).cnt.holds
    uncertain := (t.trackers[l]).cnt.uncertain }

theorem CountMet.applied {sd : Side} {c : Nat} {v t : State} {ks : List Task} (h : CountMet l seq sd c s v) (g : StepsRan l ks v t)
    (hf : Tracker.runFaults ks v.trackers[l] = []) : ItemApplied l seq sd c s t.kick := by
  obtain ⟨raises, cnt⟩ := h.met.steps g hf
  refine ⟨(h.lines.trans g.lines).kick, by rw [State.kick_ports, g.ports, h.port], raises, ?_⟩
  rw [State.kick_trackers, cnt, h.cnt]

end

/-- Settles O36: the item is checked before its count is taken; its steps close, replace and place segments. -/
theorem entryAndTailMarkMap : Obligations.EntryAndTailMarkMap := by
  refine ⟨fun l seq feed o declared name s h => ?_, fun l seq feed s h => ?_⟩
  · intro c a f causes broke restored applied rest presents new
    have placing {ks : List Task} {m : List Segment} {op : TrackOp} {i : Nat} {todo : List Task} (hk : entryCheck a.map f = .ok ks)
        (hb : ∀ v : State, (v.trackers[l]).map = a.map.map (Segment.mark broke) →
          Tracker.goOn true (ks ++ .place o f declared.toNat name :: rest) { v.trackers[l] with state := .tracking } =
            { v.trackers[l] with state := .tracking, map := m, work := some (.pending op i todo true) } ∧
          Tracker.runFaults (ks ++ .place o f declared.toNat name :: rest) { v.trackers[l] with state := .tracking } = []) :
        ∃ t, applied t ∧ (t.trackers[l]).map = m ∧ presents t op i todo := by
      obtain ⟨v, t, counted, next, ran⟩ := h.entry_ok hk
      obtain ⟨t', next', touches⟩ := exec_runs (s := s) c
      obtain rfl : t.kick = t' := Host.Outcome.next.inj (next.symm.trans next')
      have done := counted.entryApplied h.2.2.1 ran (hb v counted.met.map)
      exact ⟨_, ⟨next, touches, done.lines, done.counted, done.delivery, done.deliveryBase, done.state, done.exit, done.port, done.notices,
        done.condition, done.cnt⟩, done.map, done.work⟩
    have split_ {gs : List Segment} {g : Segment} (hm : a.map = gs ++ [g]) {v : State}
        (hv : (v.trackers[l]).map = a.map.map (Segment.mark broke)) :
        ({ v.trackers[l] with state := .tracking } : Tracker).map = gs.map (Segment.mark broke) ++ [g.mark broke] := by
      rw [hm, List.map_append] at hv
      exact hv
    refine ⟨fun hn hg => ?_, fun gs g q hn hm hf hc hle => ?_, fun gs g hn hm hf hc hle => ?_, fun gs g hm hr => ?_⟩
    · refine placing (entryCheck_free hn hg) (fun v hv => ?_)
      rw [← hv, ← List.length_map (f := Segment.mark broke), ← hv]
      exact Tracker.goOn_place ..
    · refine placing (entryCheck_closes hm hf hle hn) (fun v hv => ?_)
      rw [List.map_append, ← List.length_map (f := Segment.mark broke)]
      exact Tracker.goOn_closeLast_coil true _ (split_ hm hv) hc f
    · intro before
      refine placing (entryCheck_closes hm hf hle hn) (fun v hv => ?_)
      have marked : before.map (Segment.mark broke) = if f = g.fh then gs.map (Segment.mark broke) else
          gs.map (Segment.mark broke) ++ [{ g.mark broke with ft := some f }] := by
        dsimp only [before]
        split
        · rfl
        · rw [List.map_append]
          rfl
      rw [← List.length_map (f := Segment.mark broke), marked]
      exact Tracker.goOn_replace o f declared.toNat name (split_ hm hv) hc f
    · by_cases ho : (∃ ft, g.ft = some ft ∧ f < ft) ∨ g.ft = none ∧ f < g.fh
      · exact h.entry_rejected (entryCheck_order hm ho)
      · have full : 8 ≤ a.map.length ∧ ((∃ ft, g.ft = some ft ∧ ft ≤ f) ∨ g.ft = none ∧ g.fh < f) := by
          rcases hr with ⟨ft, hg, hb⟩ | ⟨hg, hb⟩
          · have hle : ft ≤ f := Nat.not_lt.mp (fun hlt => ho (.inl ⟨ft, hg, hlt⟩))
            exact ⟨hb.resolve_left (Nat.not_lt.mpr hle), .inl ⟨ft, hg, hle⟩⟩
          · obtain ⟨hlt, hn⟩ := hb.resolve_left (fun hlt => ho (.inr ⟨hg, hlt⟩))
            exact ⟨hn, .inr ⟨hg, hlt⟩⟩
        exact h.entry_rejected (entryCheck_noRoom hm full.1 full.2)
  · intro c a f causes broke applied
    have closing {gs : List Segment} {g : Segment} (hm : a.map = gs ++ [g]) (hf : g.ft = none) (hle : g.fh ≤ f) {P : Tracker → Prop}
        (hb : ∀ v : Tracker, v.map = gs.map (Segment.mark broke) ++ [g.mark broke] →
          let b := Tracker.goOn true (.closeLast f :: (crossingsFrom 0 ++ [.keepPair, .leave])) v
          Tracker.runFaults (.closeLast f :: (crossingsFrom 0 ++ [.keepPair, .leave])) v = [] ∧ b.exit = v.exit ∧ P b.presenting) :
        ∃ t, applied t ∧ P t.trackers[l] := by
      obtain ⟨v, t, counted, next, ran⟩ := h.tail_ok (tailCheck_closes hm hf hle)
      obtain ⟨t', next', touches⟩ := exec_runs (s := s) c
      obtain rfl : t.kick = t' := Host.Outcome.next.inj (next.symm.trans next')
      have map := counted.met.map
      rw [show (s.trackers[l]).map = gs ++ [g] from hm, List.map_append] at map
      obtain ⟨faults, exit, post⟩ := hb _ map
      have done := counted.applied ran faults
      obtain ⟨taken, delivery, deliveryBase⟩ := counted.feed
      have kept := ran.kept
      refine ⟨_, ⟨next, touches, done.lines, ?_, ?_, ?_, ?_, done.port, done.raises, done.cnt⟩, ?_⟩
      all_goals rw [State.kick_trackers]
      · rw [kept]
        exact taken
      · rw [kept]
        exact delivery
      · rw [kept]
        exact deliveryBase
      · rw [ran.line]
        exact exit.trans counted.met.exit
      · rw [ran.line]
        exact post
    refine ⟨fun gs g q hm hf hc hle => ?_, fun g hm hf hc hz hle => ?_, fun hr => h.tail_rejected (tailCheck_order hr)⟩
    · refine closing hm hf hle (P := fun b => b.map = _ ∧ b.work = some _) (fun v hv => ?_)
      obtain ⟨ran, faults⟩ := Tracker.goOn_closeLast_coil true (crossingsFrom 0 ++ [.keepPair, .leave]) hv hc f
      rw [ran, faults, List.map_append, List.length_map]
      exact ⟨rfl, rfl, rfl, rfl⟩
    · refine closing (gs := []) hm hf hle (P := fun b => b.work = none ∧ (f = g.fh → b.map = []) ∧
        ∀ x ∈ b.map, x.coil = none ∧ x.fault = .detached ∧ x.fh = g.fh ∧ x.ft = some f ∧ x.suspect = (g.suspect || broke)) (fun v hv => ?_)
      obtain ⟨idle, faults, -, exit, empty, segments⟩ := Tracker.goOn_detached (p := true) hv hc hz f lastSteps_crossings
      dsimp only
      rw [Tracker.presenting_idle idle]
      exact ⟨faults, exit, idle, empty, segments⟩

end Sys2Proof.Machine
end

section
/-! # CUT (R72, R83 to R87): the check, the children with their links, and the steps -/

namespace Sys2Proof.Machine

/-! ## The check -/

/-- The bounds of a CUT, and its order (R83). -/
def Tracker.CutInOrder (a : Tracker) (c : Nat) : Prop := ∀ h, a.exit.head = some h → h ≤ c

/-- The shape of a CUT: its next head in reach, and its names none or one for each lane (R83). -/
def Tracker.CutShaped (a : Tracker) (ahead : Nat) (names : List Name) : Prop :=
  ahead ≤ 200000000 ∧ (names = [] ∨ names.length = a.defn.lanes)

section
variable {a : Tracker} {c ahead : Nat} {names : List Name}

theorem Tracker.cutShaped_iff : a.CutShaped ahead names ↔
    ¬200000000 < ahead ∧ ¬(names.length ≠ 0 ∧ names.length ≠ a.defn.lanes) := by
  unfold Tracker.CutShaped
  rw [Nat.not_lt, not_and_not_right, ← List.length_eq_zero_iff]
  tauto

theorem cutCheck_badValue (h : ¬a.CutShaped ahead names) : cutCheck a c ahead names = .error .badValue := by
  unfold cutCheck
  by_cases hf : 200000000 < ahead
  · rw [if_pos hf]
  · rw [if_neg hf, if_pos (by_contra fun hn => h (Tracker.cutShaped_iff.mpr ⟨hf, hn⟩))]

theorem cutCheck_order (h : a.CutShaped ahead names) {e : Nat} (he : a.exit.head = some e) (hlt : c < e) :
    cutCheck a c ahead names = .error .order := by
  obtain ⟨far, count⟩ := Tracker.cutShaped_iff.mp h
  unfold cutCheck
  rw [if_neg far, if_neg count, he]
  exact if_pos hlt

theorem cutCheck_ok (h : a.CutShaped ahead names) (ho : a.CutInOrder c) : cutCheck a c ahead names = .ok () := by
  obtain ⟨far, count⟩ := Tracker.cutShaped_iff.mp h
  unfold cutCheck
  rw [if_neg far, if_neg count]
  cases he : a.exit.head with
  | none => rfl
  | some e => exact if_neg (Nat.not_lt.mpr (ho e he))

theorem cutCheck_bad (h : ¬(a.CutShaped ahead names ∧ a.CutInOrder c)) : ∃ k, cutCheck a c ahead names = .error k := by
  by_cases hs : a.CutShaped ahead names
  · have late : ¬a.CutInOrder c := fun ho => h ⟨hs, ho⟩
    simp only [Tracker.CutInOrder, not_forall, Nat.not_le] at late
    obtain ⟨e, he, hlt⟩ := late
    exact ⟨_, cutCheck_order hs he hlt⟩
  · exact ⟨_, cutCheck_badValue hs⟩

theorem cutCheck_congr {b : Tracker} (hd : b.defn = a.defn) (hx : b.exit.head = a.exit.head) :
    cutCheck b c ahead names = cutCheck a c ahead names := by
  unfold cutCheck
  rw [hd, hx]

end

/-! ## The children (R84, R85) -/

/-- A link of a child's material lies within the child (R85). -/
theorem segmentLink_inside {g : Segment} {lo hi : Nat} {lane : Lane} {winding : Bool} {k : NewLink}
    (h : segmentLink g lo hi lane winding false = some k) : k.childSpan.lo < k.childSpan.hi ∧ k.childSpan.hi ≤ hi - lo := by
  unfold segmentLink at h
  split at h
  · next dh _ _ _ =>
    dsimp only at h
    have start : lo ≤ max lo dh := Nat.le_max_left ..
    generalize max lo dh = o at h start
    split at h
    · rw [if_neg Bool.false_ne_true] at h
      split at h
      · cases h
      · cases h
        dsimp only
        omega
    · next dt _ =>
      have stop : min hi dt ≤ hi := Nat.min_le_left ..
      generalize min hi dt = o1 at h stop
      split at h
      · cases h
      · split at h
        · split at h
          · cases h
          · cases h
            dsimp only
            omega
        · cases h
  · cases h

/-- The child at place `i` of the winding's names, cut at `c` from the head `hx` (R84, R85). -/
structure CutChild (t : Tracker) (hx c i : Nat) (q : ChildPart) : Prop where
  head : q.head = hx
  length : q.length = min (c - hx) 8000000
  lane : q.lane = if t.defn.lanes = 1 then .whole else .num i
  clamped : q.clamped = decide (8000000 < c - hx)
  suspect : q.suspect = (q.clamped || t.exit.suspect)
  links : ∀ k ∈ q.links, k.childSpan.lo < k.childSpan.hi ∧ k.childSpan.hi ≤ q.length

section
variable (t : Tracker) (hx c : Nat)

theorem cutChildren_names (i : Nat) (ns : List Name) : (cutChildren t hx c i ns).map (·.name) = ns := by
  induction ns generalizing i with
  | nil => rfl
  | cons n ns ih => exact congrArg (n :: ·) (ih (i + 1))

theorem cutChildren_child (i : Nat) (ns : List Name) (j : Nat) (q : ChildPart) (h : (cutChildren t hx c i ns)[j]? = some q) :
    CutChild t hx c (i + j) q := by
  induction ns generalizing i j with
  | nil => cases h
  | cons n ns ih =>
    cases j with
    | succ j =>
      have later := ih (i + 1) j h
      rwa [Nat.add_assoc, Nat.add_comm 1 j] at later
    | zero =>
      cases h
      refine ⟨rfl, ?_, rfl, ?_, rfl, fun k hk => ?_⟩
      · show min c (hx + 8000000) - hx = _
        omega
      · show decide (hx + 8000000 < c) = _
        exact decide_eq_decide.mpr (by omega)
      · obtain ⟨g, -, hg⟩ := List.mem_filterMap.mp hk
        exact segmentLink_inside hg

end

/-! ## The steps (R86, R87) -/

/-- The links of a cut's scrap (R86). -/
def Tracker.scrapLinks (a : Tracker) (c n : Nat) : List NewLink :=
  a.map.filterMap (fun g => segmentLink g (scrapStart a.exit c) n .whole a.exit.suspect true)

/-- The children of a cut: those of a winding whose head lies before it (R84). -/
def Tracker.cutParts (a : Tracker) (c : Nat) : List ChildPart :=
  match a.exit.head with
  | none => []
  | some hx => if hx < c then cutChildren a hx c 0 a.exit.names else []

section
variable {a : Tracker} {c n : Nat}

theorem cutTasks_eq (a : Tracker) (c n : Nat) : cutTasks a c n =
    match a.cutParts c with
    | [] => if (a.scrapLinks c n).isEmpty then [] else [.make none (a.scrapLinks c n)]
    | p :: ps => .make (some p) (a.scrapLinks c n) :: ps.map (fun q => .make (some q) []) := rfl

theorem Tracker.cutParts_none (h : a.exit.head = none ∨ a.exit.names = [] ∨ a.exit.head = some c) : a.cutParts c = [] := by
  unfold Tracker.cutParts
  cases he : a.exit.head with
  | none => rfl
  | some e =>
    dsimp only
    split
    · next hlt =>
      rcases h with h | h | h
      · exact nomatch he.symm.trans h
      · rw [h]
        rfl
      · exact absurd (Option.some.inj (he.symm.trans h)) (Nat.ne_of_lt hlt)
    · rfl

/-- With no finished coil and no scrap at the shear a cut has nothing to make. -/
theorem cutTasks_none (hm : a.map = []) (h : a.exit.head = none ∨ a.exit.names = [] ∨ a.exit.head = some c) : cutTasks a c n = [] := by
  have scraps : a.scrapLinks c n = [] := by
    unfold Tracker.scrapLinks
    rw [hm]
    rfl
  rw [cutTasks_eq, Tracker.cutParts_none h, scraps]
  rfl

/-- With names at the shear a cut makes a child for each, the first with the scrap links (R86, R87). -/
theorem cutTasks_names {e : Nat} {m : Name} {ms : List Name} (he : a.exit.head = some e) (hlt : e < c) (hn : a.exit.names = m :: ms) :
    ∃ (p : ChildPart) (ps : List ChildPart), cutChildren a e c 0 (m :: ms) = p :: ps ∧
      cutTasks a c n = .make (some p) (a.scrapLinks c n) :: ps.map (fun q => .make (some q) []) := by
  refine ⟨_, _, rfl, ?_⟩
  have parts : a.cutParts c = cutChildren a e c 0 (m :: ms) := by
    unfold Tracker.cutParts
    rw [he, hn]
    exact if_pos hlt
  rw [cutTasks_eq, parts]
  rfl

/-- What the first step of a cut carries where names are at the shear. -/
theorem cutChildren_cons {e : Nat} {m : Name} {ms : List Name} {p : ChildPart} {ps : List ChildPart}
    (h : cutChildren a e c 0 (m :: ms) = p :: ps) :
    (p :: ps).map (·.name) = m :: ms ∧ ∀ (i : Nat) (q : ChildPart), (p :: ps)[i]? = some q → CutChild a e c i q := by
  rw [← h]
  refine ⟨cutChildren_names a e c 0 (m :: ms), fun i q hq => ?_⟩
  have child := cutChildren_child a e c 0 (m :: ms) i q hq
  rwa [Nat.zero_add] at child

theorem Tracker.goOn_make (p : Bool) (child : Option ChildPart) (scraps : List NewLink) (ks : List Task) :
    Tracker.goOn p (.make child scraps :: ks) a = { a with work := some (.pending (.makeChild child scraps) 0 ks p) } ∧
    Tracker.runFaults (.make child scraps :: ks) a = [] := ⟨rfl, rfl⟩

end
end Sys2Proof.Machine
end

section
/-! # O37: CUT frames (R65, R68, R72, R83 to R87) -/

namespace Sys2Proof.Machine

section
variable {l : Fin 4} {seq : Byte} {cut next : BitVec 32} {names : List Name} {s : State}

theorem State.exec_cut {u : State} (hu : s.takeItem l (.frame seq (.cut cut next names)) = some u) :
    exec (.cut l seq cut next names) s = settle ((u.seqCheck l seq).cutItem l (s.trackers[l]).feed cut.toNat
      (((u.seqCheck l seq).trackers[l]).preview .delivery cut.toNat) (countGap cut.toNat next.toNat) names) := by
  have arm : exec (.cut l seq cut next names) s = execCut l seq cut next names s := rfl
  rw [arm, execCut, hu]

theorem ItemChecked.cutCheck {it : Item} {u : State} (h : ItemChecked l it seq s u) (c ahead : Nat) :
    cutCheck u.trackers[l] c ahead names = cutCheck s.trackers[l] c ahead names :=
  cutCheck_congr h.line.defn h.line.2.2.1

theorem State.cutItem_error {u : State} {before count c ahead : Nat} {k : Code} (hk : cutCheck u.trackers[l] c ahead names = .error k) :
    u.cutItem l before count c ahead names = u.malformedHere l := by
  unfold State.cutItem
  rw [hk]

/-- The feed odometer has not moved, so that no crossing is looked for (R78). -/
theorem State.cutItem_ok {u : State} {before count c ahead : Nat} (hk : cutCheck u.trackers[l] c ahead names = .ok ())
    (hf : ((u.countTaken l .delivery count).trackers[l]).feed = before) : u.cutItem l before count c ahead names =
      (u.countTaken l .delivery count).runTasks l true (cutTasks (u.countTaken l .delivery count).trackers[l] c (c + ahead) ++
        [.setExit (c + ahead) names, .keepPair, .leave]) := by
  have stays : (false || decide (before < ((u.countTaken l .delivery count).trackers[l]).feed)) = false := by
    rw [hf]
    simp
  unfold State.cutItem
  rw [hk]
  dsimp only
  rw [State.runItem, ← State.countTaken, stays, List.append_assoc]
  rfl

theorem ItemHanded.cut_rejected (h : ItemHanded s l (.frame seq (.cut cut next names))) {k : Code}
    (hk : cutCheck s.trackers[l] ((s.trackers[l]).preview .delivery cut.toNat) (countGap cut.toNat next.toNat) names = .error k) :
    ItemRejected (.cut l seq cut next names) l seq s := by
  refine h.rejected (fun u hu => ?_)
  obtain ⟨u', hu', checked⟩ := h.checked nofun seq
  obtain rfl := Option.some.inj (hu.symm.trans hu')
  rw [← checked.preview, ← checked.cutCheck] at hk
  rw [State.exec_cut hu, State.cutItem_error hk]

/-- A CUT in order: its count is taken on the delivery side, and its steps run; the feed odometer has not moved. -/
theorem ItemHanded.cut_ok (h : ItemHanded s l (.frame seq (.cut cut next names)))
    (hk : cutCheck s.trackers[l] ((s.trackers[l]).preview .delivery cut.toNat) (countGap cut.toNat next.toNat) names = .ok ()) :
    ∃ v t, CountMet l seq .delivery cut.toNat s v ∧ exec (.cut l seq cut next names) s = .next t.kick ∧
      StepsRan l (cutTasks v.trackers[l] ((s.trackers[l]).preview .delivery cut.toNat)
          ((s.trackers[l]).preview .delivery cut.toNat + countGap cut.toNat next.toNat) ++
        [.setExit ((s.trackers[l]).preview .delivery cut.toNat + countGap cut.toNat next.toNat) names, .keepPair, .leave]) v t := by
  obtain ⟨u, hu, checked⟩ := h.checked nofun seq
  have counted := checked.countTaken h.ready .delivery cut.toNat
  have ran := State.exec_cut hu
  rw [← checked.cutCheck] at hk
  rw [checked.preview, State.cutItem_ok hk counted.delivery.2.1] at ran
  exact ⟨_, _, counted, ran, State.runTasks_ran ..⟩

end

/-- The exit record moved, the pair kept and the leaving check made, where no segment is on the map. -/
theorem Tracker.goOn_setExit (p : Bool) {a : Tracker} (hm : a.map = []) (n : Nat) (names : List Name) :
    Tracker.goOn p [.setExit n names, .keepPair, .leave] a = { a with
      exit := { head := some n, names := names, suspect := a.state == .uncertain }, pair := some (a.feed, a.delivery), work := none } ∧
    Tracker.runFaults [.setExit n names, .keepPair, .leave] a = [] := by
  refine ⟨?_, rfl⟩
  have ran : Tracker.goOn p [.setExit n names, .keepPair, .leave] a = _ := Tracker.goOn_counts (p := p)
    { a with exit := { head := some n, names := names, suspect := a.state == .uncertain } }
  rw [ran, Tracker.left]
  dsimp only
  rw [hm]
  rfl

/-- Settles O37: the item is checked before its count is taken; its steps make the children and move the exit record. -/
theorem cutMovesExitRecord : Obligations.CutMovesExitRecord := by
  intro l seq cut next names s h c a x ahead good causes broke applied
  have good_iff : good ↔ a.CutShaped ahead names ∧ a.CutInOrder x := and_assoc.symm
  have cutting (hg : good) {P : Tracker → Prop} (hb : ∀ v : Tracker, v.defn = a.defn → v.map = a.map.map (Segment.mark broke) →
        v.exit = a.exit.mark broke → let ks := cutTasks v x (x + ahead) ++ [.setExit (x + ahead) names, .keepPair, .leave]
          Tracker.runFaults ks v = [] ∧ P (Tracker.goOn true ks v).presenting) : ∃ t, applied t ∧ P t.trackers[l] := by
    obtain ⟨hs, ho⟩ := good_iff.mp hg
    obtain ⟨v, t, counted, next, ran⟩ := h.cut_ok (cutCheck_ok hs ho)
    obtain ⟨t', next', touches⟩ := exec_runs (s := s) c
    obtain rfl : t.kick = t' := Host.Outcome.next.inj (next.symm.trans next')
    obtain ⟨faults, post⟩ := hb _ counted.defn counted.met.map counted.met.exit
    have done := counted.applied ran faults
    obtain ⟨taken, feed, feedBase⟩ := counted.delivery
    have kept := ran.kept
    refine ⟨_, ⟨next, touches, done.lines, ?_, ?_, ?_, done.port, done.raises, done.cnt⟩, ?_⟩
    all_goals rw [State.kick_trackers]
    · rw [kept]
      exact taken
    · rw [kept]
      exact feed
    · rw [kept]
      exact feedBase
    · rw [ran.line]
      exact post
  refine ⟨fun hg => ?_, fun hg hm he => ?_, fun e n ns hg he hlt hle hn => ?_⟩
  · obtain ⟨k, hk⟩ := cutCheck_bad (mt good_iff.mpr hg)
    exact h.cut_rejected hk
  · refine cutting hg (P := fun b => b.work = none ∧ b.map = [] ∧ b.pair = some (b.feed, b.delivery) ∧
      b.exit = { head := some (x + ahead), names := names, suspect := b.state == .uncertain }) (fun v _ hv hx => ?_)
    have empty : v.map = [] := by rw [hv, hm]; rfl
    have nothing : v.exit.head = none ∨ v.exit.names = [] ∨ v.exit.head = some x := by rw [hx]; exact he
    obtain ⟨ran, faults⟩ := Tracker.goOn_setExit true empty (x + ahead) names
    dsimp only
    rw [cutTasks_none empty nothing, List.nil_append, ran, faults]
    exact ⟨rfl, rfl, empty, rfl, rfl⟩
  · refine cutting hg (P := fun b => b.exit = a.exit.mark broke ∧ b.map = a.map.map (Segment.mark broke) ∧
      ∃ (p : ChildPart) (ps : List ChildPart) (scraps : List NewLink), (p :: ps).map (·.name) = n :: ns ∧
        b.work = some { op := .makeChild (some p) scraps, presented := true, seg := 0
                        todo := ps.map (fun q => .make (some q) []) ++ [.setExit (x + ahead) names, .keepPair, .leave], fromPort := true } ∧
        ∀ (i : Nat) (q : ChildPart), (p :: ps)[i]? = some q → q.head = e ∧ q.length = x - e ∧
          q.lane = (if a.defn.lanes = 1 then .whole else .num i) ∧ q.clamped = false ∧ q.suspect = b.exit.suspect ∧
          ∀ k ∈ q.links, k.childSpan.lo < k.childSpan.hi ∧ k.childSpan.hi ≤ q.length) (fun v hd hv hx => ?_)
    obtain ⟨p, ps, children, tasks⟩ := cutTasks_names (a := v) (c := x) (n := x + ahead) (by rw [hx]; exact he) hlt (by rw [hx]; exact hn)
    obtain ⟨made, child⟩ := cutChildren_cons children
    dsimp only
    rw [tasks, List.cons_append]
    obtain ⟨ran, faults⟩ := Tracker.goOn_make (a := v) true (some p) (v.scrapLinks x (x + ahead))
      (ps.map (fun q => .make (some q) []) ++ [.setExit (x + ahead) names, .keepPair, .leave])
    rw [ran]
    refine ⟨faults, hx, hv, p, ps, _, made, rfl, fun i q hq => ?_⟩
    obtain ⟨head, length, lane, clamped, suspect, links⟩ := child i q hq
    have clamped' : q.clamped = false := by
      rw [clamped]
      exact decide_eq_false (by omega)
    refine ⟨head, ?_, by rw [lane, hd], clamped', ?_, links⟩
    · rw [length]
      omega
    · rw [suspect, clamped']
      rfl

end Sys2Proof.Machine
end

section
/-! # O39: injected events (R68, R69, R72, R74 to R77, R83 to R88) -/

namespace Sys2Proof.Machine

/-! ## The line through the steps -/

theorem Tracker.goOn_kept (p : Bool) (ks : List Task) (a : Tracker) : LineKept a (Tracker.goOn p ks a) := by
  induction ks generalizing a with
  | nil => rfl
  | cons k ks ih =>
    have first := (a.task_kept k).1
    unfold Tracker.goOn
    split
    · exact first.trans (ih _)
    · exact first.trans rfl

/-- What a host's event leaves of its line: no count, base or sequence number changes, and the state stays. -/
theorem EventRan.kept {l : Fin 4} {f : Frame} {ks : List Task} {a : Tracker} {s t : State} (h : EventRan l f ks a s t) :
    LineKept a t.trackers[l] := by
  rw [h.line]
  exact (Tracker.goOn_kept false ks a).trans rfl

/-- Steps that do not keep the pair leave it. -/
theorem Tracker.goOn_noPair {p : Bool} {ks : List Task} (hk : ∀ k ∈ ks, k ≠ .keepPair) (a : Tracker) : (Tracker.goOn p ks a).pair = a.pair := by
  induction ks generalizing a with
  | nil => rfl
  | cons k ks ih =>
    obtain ⟨first, rest⟩ := List.forall_mem_cons.mp hk
    unfold Tracker.goOn
    split
    · exact (ih rest _).trans (a.task_pair k first)
    · exact a.task_pair k first

/-- The crossings and the leaving check that follow an event of the host (R74). -/
def eventSteps : List Task := crossingsFrom 0 ++ [.leave]

theorem lastTasks_event : lastTasks true false = eventSteps := by decide

theorem lastSteps_event : LastSteps eventSteps := by
  intro k hk
  refine lastSteps_crossings k ?_
  rcases List.mem_append.mp hk with hk | hk
  · exact List.mem_append_left _ hk
  · exact List.mem_append_right _ (List.mem_cons_of_mem _ hk)

theorem eventSteps_noPair : ∀ k ∈ eventSteps, k ≠ .keepPair := by decide

/-! ## The event at its tracker -/

section
variable {s : State} {l : Fin 4} {f : Frame} {e : HostEvent}

/-- The event in hand at the tracker (R88). -/
def State.injecting (s : State) (f : Frame) (l : Fin 4) : State := s.updSlc (fun c => { c with unit := .event f l })

theorem State.injecting_touches (s : State) (f : Frame) (l : Fin 4) : Touches [.trackers, .slc] s (s.injecting f l) :=
  (Touches.refl _ s).updSlc rfl

theorem State.injecting_tells (s : State) (f : Frame) (l : Fin 4) : Tells [] s (s.injecting f l) := .quiet rfl rfl rfl rfl rfl rfl

/-- What the steps `ks` of an event of the line `a` leave, `ns` raised before them. -/
structure EventApplied (l : Fin 4) (f : Frame) (ks : List Task) (a : Tracker) (ns : List Notice) (s t : State) : Prop extends
    EventRan l f ks a s t where
  notices : Tracker.runFaults ks a = [] → NoticesTaken ns s t

theorem State.injecting_applied (s : State) (l : Fin 4) (f : Frame) (ks : List Task) :
    EventApplied l f ks s.trackers[l] [] s ((s.injecting f l).runTasks l false ks).kick where
  toEventRan := State.runTasks_event (w := s.injecting f l) ks (s.injecting_touches f l) (OtherTrackers.refl l s) rfl rfl rfl
  notices hf := by
    obtain ⟨told, -⟩ := (s.injecting f l).runTasks_raises l false ks
    rw [show (s.injecting f l).trackers[l] = s.trackers[l] from rfl, hf] at told
    exact ((s.injecting_tells f l).trans told).kick

/-- A line that returns to TRACKING (R69). -/
def Tracker.restored (a : Tracker) : Tracker := { a with state := if a.state = .uncertain then .tracking else a.state }

/-- The steps of an ENTRY, its line restored before them. -/
theorem State.restoring_applied (s : State) (l : Fin 4) (f : Frame) (ks : List Task) :
    let t := (((s.injecting f l).restore l).runTasks l false ks).kick
    EventApplied l f ks (s.trackers[l]).restored (restoredNotices l (s.trackers[l]).state) s t ∧
      ((s.trackers[l]).state = .uncertain → t.slc.uncertain[l] = none) := by
  obtain ⟨-, others, ports⟩ := (s.injecting f l).restore_line (l := l)
  have line : ((s.injecting f l).restore l).trackers[l] = (s.trackers[l]).restored := ((s.injecting f l).restore_line (l := l)).1
  obtain ⟨unit, replies, -⟩ := (s.injecting f l).restore_link l
  have outgoing := ((s.injecting f l).restore_link l).outgoing
  have condition := (s.injecting f l).restore_condition l
  have told := (s.injecting f l).restore_tells l
  have touches := (s.injecting_touches f l).restore (l := l) rfl rfl
  obtain ⟨raised, same⟩ := ((s.injecting f l).restore l).runTasks_raises l false ks
  have event := State.runTasks_event (s := s) (w := (s.injecting f l).restore l) (f := f) ks touches others replies outgoing unit
  rw [line] at event raised
  refine ⟨⟨event, fun hf => ?_⟩, fun hu => ?_⟩
  · rw [hf] at raised
    have all := (((s.injecting_tells f l).trans told).trans raised).kick
    rwa [List.map_nil, List.append_nil, List.nil_append] at all
  · rw [State.kick_uncertain, same.1, condition]
    exact if_pos hu

/-! ## The commands -/

section
variable (hb : s.between l = true)

include hb

theorem exec_injectedTail {pos : Option Nat} (hu : s.slc.unit = .line f l (.event (.tail pos))) : exec (.injectedEvent l) s =
    match tailCheck (s.trackers[l]).map (pos.getD (s.trackers[l]).feed) with
    | .error c => settle ((s.injecting f l).refuseEvent l f c)
    | .ok tasks => settle ((s.injecting f l).runTasks l false (tasks ++ lastTasks true false)) := by
  show execInjectedEvent l s = _
  unfold execInjectedEvent
  rw [hb, hu, Bool.not_true, if_neg Bool.false_ne_true]
  exact if_neg (fun h => h rfl)

theorem exec_injectedEntry {pos : Option Nat} {o : Orientation} {declared : Nat} {name : Name}
    (hu : s.slc.unit = .line f l (.event (.entry pos o declared name))) : exec (.injectedEvent l) s =
    match entryCheck (s.trackers[l]).map (pos.getD (s.trackers[l]).feed) with
    | .error c => settle ((s.injecting f l).refuseEvent l f c)
    | .ok tasks => settle (((s.injecting f l).restore l).runTasks l false
        (tasks ++ [.place o (pos.getD (s.trackers[l]).feed) declared name] ++ lastTasks true false)) := by
  show execInjectedEvent l s = _
  unfold execInjectedEvent
  rw [hb, hu, Bool.not_true, if_neg Bool.false_ne_true]
  exact if_neg (fun h => h rfl)

/-- The check of an injected CUT (R83, log entry 22). -/
def Tracker.injectedCheck (a : Tracker) (c n : Nat) (names : List Name) : Except Code Unit :=
  if n < c then .error .badValue else cutCheck a c (n - c) names

theorem exec_injectedCut {pos next : Option Nat} {names : List Name} (hu : s.slc.unit = .line f l (.event (.cut pos next names))) :
    exec (.injectedEvent l) s =
    match (s.trackers[l]).injectedCheck (pos.getD (s.trackers[l]).delivery) (next.getD (s.trackers[l]).delivery) names with
    | .error k => settle ((s.injecting f l).refuseEvent l f k)
    | .ok _ => settle ((s.injecting f l).runTasks l false
        (cutTasks s.trackers[l] (pos.getD (s.trackers[l]).delivery) (next.getD (s.trackers[l]).delivery) ++
          [.setExit (next.getD (s.trackers[l]).delivery) names] ++ lastTasks false false)) := by
  show execInjectedEvent l s = _
  unfold execInjectedEvent
  rw [hb, hu, Bool.not_true, if_neg Bool.false_ne_true]
  exact if_neg (fun h => h rfl)

end

/-! ## The event refused (R72, R88) -/

theorem State.discontinuityIf_link (s : State) (l : Fin 4) (c : Nat) : SameLink s (s.discontinuityIf l c) := by
  have raised (u : State) (n : Notice) (hu : u.slc = s.slc) : SameLink s (u.raise n) := (SameLink.of_slc hu).trans (u.raise_link n)
  unfold State.discontinuityIf State.discontinuity
  dsimp only
  split
  · split <;> exact raised _ _ rfl
  · exact .of_slc rfl

/-- What a malformed event leaves (R72, R88). -/
structure EventRefused (l : Fin 4) (f : Frame) (k : Code) (s t : State) : Prop where
  touches : Touches [.trackers, .slc] s t
  lines : OtherLines l s t
  answered : Answered s t (refusedWith f k) none
  line : LineKept { s.trackers[l] with state := (t.trackers[l]).state } t.trackers[l]
  pair : (t.trackers[l]).pair = (s.trackers[l]).pair
  exit : (t.trackers[l]).exit = (s.trackers[l]).exit.mark (breaksLine l s.trackers[l] [2])
  map : (t.trackers[l]).map = (s.trackers[l]).left.map.map (Segment.mark (breaksLine l s.trackers[l] [2]))
  work : (t.trackers[l]).work = (s.trackers[l]).work
  raises : Discontinued l [] [2] [] s t
  cnt : (t.trackers[l]).cnt = { (s.trackers[l]).cnt with uncertain := (t.trackers[l]).cnt.uncertain }
  breaks : (s.trackers[l]).state = .tracking ∨ (s.trackers[l]).state = .uncertain → (t.trackers[l]).state = .uncertain

theorem State.refuseEvent_refused (hr : s.startUp.ready = true) (k : Code) :
    EventRefused l f k s ((s.injecting f l).refuseEvent l f k).kick := by
  have here : Meets l [] [] 0 0 s (s.injecting f l) := ⟨.quiet (s.injecting_tells f l) rfl rfl rfl rfl, rfl⟩
  have meets := here.trans (State.discontinuityIf_meets (c := 2) hr (by decide) (by decide))
  obtain ⟨marked, -, others, ports⟩ := (s.injecting f l).discontinuityIf_line (l := l) 2
  have link := (s.injecting f l).discontinuityIf_link l 2
  have touches := (s.injecting_touches f l).discontinuityIf (l := l) (c := 2) rfl rfl
  unfold State.refuseEvent
  set v := (s.injecting f l).discontinuityIf l 2 with hv
  have line : ((v.updTracker l Tracker.left).refuse f k).kick.trackers[l] = { v.trackers[l] with map := (v.trackers[l]).left.map } := by
    rw [State.kick_trackers, State.refuse, State.finish_trackers, State.updTracker_at, Tracker.left_eq]
  have told := State.finish_tells (v.updTracker l Tracker.left) (refusedWith f k) none
  have quiet : Tells [] v (v.updTracker l Tracker.left) := .of_slc rfl rfl
  constructor
  case touches => exact ((touches.updTracker rfl).refuse rfl).kick rfl
  case lines =>
    have all : OtherLines l s ((v.updTracker l Tracker.left).refuse f k) := (others.trans (OtherTrackers.updTracker v l _)).lines ports
    exact all.kick
  case answered =>
    exact ((v.updTracker l Tracker.left).finish_answered (refusedWith f k) none).of_eq (congrArg List.length link.2.1.symm)
      link.outgoing.symm (State.kick_unit _) (State.kick_outgoing _)
  case raises =>
    refine meets.discontinued (quiet.trans told) (State.finish_uncertain ..) ?_
    rw [State.refuse, State.finish_trackers, State.updTracker_at, Tracker.left_eq]
  case line =>
    rw [line]
    unfold LineKept
    rw [marked.1]
    rfl
  all_goals rw [line]
  case pair => exact marked.pair
  case exit => exact meets.exit
  case map => exact Tracker.left_mark meets.map marked.2.2.1
  case work => exact marked.work
  case cnt =>
    show (v.trackers[l]).cnt = _
    rw [meets.cnt]
    rfl
  case breaks =>
    intro hst
    show (v.trackers[l]).state = _
    rw [meets.state]
    rcases hst with hst | hst <;> rw [hst] <;> rfl

/-! ## The outcomes of an event -/

/-- Odometers, bases, pair and last sequence number are as they were. -/
def CountsKept (a b : Tracker) : Prop :=
  b.feed = a.feed ∧ b.feedBase = a.feedBase ∧ b.delivery = a.delivery ∧ b.deliveryBase = a.deliveryBase ∧ b.pair = a.pair ∧
    b.lastSeq = a.lastSeq

theorem LineKept.counts {a b : Tracker} (h : LineKept a b) (hp : b.pair = a.pair) : CountsKept a b := by
  unfold CountsKept
  rw [hp, h]
  exact ⟨rfl, rfl, rfl, rfl, rfl, rfl⟩

/-- An event that waits for the first operation of its steps. -/
theorem EventApplied.presented {a : Tracker} {ks todo : List Task} {ns : List Notice} {t : State} {m : List Segment} {op : TrackOp} {i : Nat}
    (h : EventApplied l f ks a ns s t)
    (hg : Tracker.goOn false ks a = { a with map := m, work := some (.pending op i todo false) } ∧ Tracker.runFaults ks a = []) :
    t.trackers[l] = { a with map := m, work := some { op := op, presented := true, seg := i, todo := todo, fromPort := false } } ∧
    t.slc.unit = .event f l ∧ t.outgoing = s.outgoing ∧ NoticesTaken ns s t := by
  obtain ⟨line, unit, outgoing⟩ := h.work hg.1 rfl
  exact ⟨line, unit, outgoing, h.notices hg.2⟩

/-! ## The steps of an injected CUT -/

theorem Tracker.injectedCheck_badValue {a : Tracker} {c n : Nat} {names : List Name}
    (h : ¬(c ≤ n ∧ n ≤ c + 200000000 ∧ (names = [] ∨ names.length = a.defn.lanes))) : a.injectedCheck c n names = .error .badValue := by
  unfold Tracker.injectedCheck
  by_cases hlt : n < c
  · rw [if_pos hlt]
  · rw [if_neg hlt]
    refine cutCheck_badValue (fun hs => h ⟨by omega, ?_, hs.2⟩)
    have reach := hs.1
    omega

theorem Tracker.injectedCheck_shaped {a : Tracker} {c n : Nat} {names : List Name}
    (h : c ≤ n ∧ n ≤ c + 200000000 ∧ (names = [] ∨ names.length = a.defn.lanes)) :
    a.injectedCheck c n names = cutCheck a c (n - c) names ∧ a.CutShaped (n - c) names := by
  obtain ⟨le, reach, count⟩ := h
  exact ⟨if_neg (Nat.not_lt.mpr le), by omega, count⟩

/-- The exit record moved and the leaving check made, where no segment is on the map. -/
theorem Tracker.goOn_moveExit (p : Bool) {a : Tracker} (hm : a.map = []) (n : Nat) (names : List Name) :
    Tracker.goOn p [.setExit n names, .leave] a =
      { a with exit := { head := some n, names := names, suspect := a.state == .uncertain }, work := none } := by
  have stays : ({ a with exit := { head := some n, names := names, suspect := a.state == .uncertain } } : Tracker).left =
      { a with exit := { head := some n, names := names, suspect := a.state == .uncertain } } := by
    unfold Tracker.left
    dsimp only
    rw [hm]
    rfl
  exact congrArg (fun b : Tracker => { b with work := none }) stays

/-- The scrap link of a strip that starts at `x`, of the material of one segment from `lo` to `hi` (R86). -/
def Segment.scrapLink (g : Segment) (q : Ref) (winding : Bool) (x lo hi : Nat) : NewLink :=
  { childSpan := { lo := lo - x, hi := hi - x }, scrap := hi - lo, parent := q, lane := .whole, dir := orientDir g.orient,
    suspect := g.suspect || winding, parentSpan := none, source := { lo := lo, hi := hi } }

/-- A strip under one segment that goes wholly to scrap (R86). -/
theorem cutTasks_scrap {a : Tracker} {g : Segment} {q : Ref} {c d n : Nat} (hm : a.map = [g]) (hc : g.coil = some q) (hz : g.fault = .none)
    (hd : g.dh = some d) (ht : g.dt = none) (hn : a.exit.names = []) (hlt : max (a.exit.head.getD c) d < n) :
    cutTasks a c n = [.make none [g.scrapLink q a.exit.suspect (a.exit.head.getD c) (max (a.exit.head.getD c) d)
      (min n (max (a.exit.head.getD c) d + 200000000))]] := by
  have start : scrapStart a.exit c = a.exit.head.getD c := by
    unfold scrapStart
    cases a.exit.head with
    | none => rfl
    | some e => exact if_pos (by rw [hn]; rfl)
  have link : segmentLink g (a.exit.head.getD c) n .whole a.exit.suspect true = some (g.scrapLink q a.exit.suspect (a.exit.head.getD c)
      (max (a.exit.head.getD c) d) (min n (max (a.exit.head.getD c) d + 200000000))) := by
    unfold segmentLink
    rw [hz, hc, hd]
    dsimp only
    rw [ht]
    dsimp only
    rw [if_pos rfl, if_neg (by omega)]
    rfl
  have scraps : a.scrapLinks c n = [g.scrapLink q a.exit.suspect (a.exit.head.getD c) (max (a.exit.head.getD c) d)
      (min n (max (a.exit.head.getD c) d + 200000000))] := by
    unfold Tracker.scrapLinks
    rw [hm, start, List.filterMap_cons, link]
    rfl
  rw [cutTasks_eq, Tracker.cutParts_none (.inr (.inl hn)), scraps]
  rfl

end

/-- Settles O39: the event is checked against the line; its steps run as an item's, or it is refused. -/
theorem injectedEventApplied : Obligations.InjectedEventApplied := by
  intro l f s hb a here kept rest waits refused restored
  obtain ⟨ready, idle, -⟩ := (s.between_iff l).mp hb
  have refusing {k : Code} (ran : exec (.injectedEvent l) s = settle ((s.injecting f l).refuseEvent l f k)) : refused k := by
    have done := State.refuseEvent_refused (s := s) (l := l) (f := f) ready k
    exact ⟨_, ⟨ran, done.touches, done.lines, done.line.counts done.pair⟩, done.answered, done.exit, done.map, done.work.trans idle, done.raises,
      done.cnt, done.breaks⟩
  have waiting {b : Tracker} {ks todo : List Task} {ns : List Notice} {t : State} {m : List Segment} {op : TrackOp} {i : Nat}
      (ran : exec (.injectedEvent l) s = .next t) (done : EventApplied l f ks b ns s t) (counts : CountsKept a b) (exit : b.exit = a.exit)
      (hg : Tracker.goOn false ks b = { b with map := m, work := some (.pending op i todo false) } ∧ Tracker.runFaults ks b = []) :
      kept t ∧ waits t op i todo ∧ (t.trackers[l]).state = b.state ∧ NoticesTaken ns s t ∧ (t.trackers[l]).map = m := by
    obtain ⟨line, unit, outgoing, notices⟩ := done.presented hg
    refine ⟨⟨ran, done.touches, done.lines, ?_⟩, ⟨unit, outgoing, ?_, ?_⟩, ?_, notices, ?_⟩
    all_goals rw [line]
    · exact counts
    · exact exit
  have ending {ks : List Task} {b : Tracker} (ran : exec (.injectedEvent l) s = settle ((s.injecting f l).runTasks l false ks))
      (hg : Tracker.goOn false ks a = b) (hw : b.work = none) (counts : CountsKept a b) :
      ∃ t, kept t ∧ Answered s t (accepted f) none ∧ t.trackers[l] = b := by
    have done := s.injecting_applied l f ks
    obtain ⟨line, answered⟩ := done.done hg hw
    refine ⟨_, ⟨ran, done.touches, done.lines, ?_⟩, answered, line⟩
    rw [line]
    exact counts
  have same : CountsKept a a := ⟨rfl, rfl, rfl, rfl, rfl, rfl⟩
  refine ⟨fun pos hu => ?_, fun pos o declared name hu => ?_, fun pos next names hu => ?_⟩
  · intro x
    have ran := exec_injectedTail hb hu
    rw [lastTasks_event] at ran
    refine ⟨fun gs g q hm hf hq hle => ?_, fun g hm hf hq hz hle => ?_, fun hr => ?_⟩
    · rw [tailCheck_closes hm hf hle] at ran
      obtain ⟨k, w, st, notices, map⟩ := waiting ran (s.injecting_applied l f _) same rfl (Tracker.goOn_closeLast_coil false eventSteps hm hq x)
      exact ⟨_, k, w, st, notices, map⟩
    · rw [tailCheck_closes (gs := []) hm hf hle] at ran
      obtain ⟨idle', -, line, -, empty, segments⟩ := Tracker.goOn_detached (p := false) hm hq hz x lastSteps_event
      have pair := Tracker.goOn_noPair (p := false) (ks := .closeLast x :: eventSteps)
        (List.forall_mem_cons.mpr ⟨nofun, eventSteps_noPair⟩) a
      obtain ⟨t, k, answered, at_⟩ := ending (ks := .closeLast x :: eventSteps) ran rfl idle' (line.counts pair)
      refine ⟨t, k, answered, ?_, ?_, ?_, ?_⟩
      all_goals rw [at_]
      · exact idle'
      · rw [line]
      · exact empty
      · intro y hy
        obtain ⟨coil, fault, fh, ft, -⟩ := segments y hy
        exact ⟨coil, fault, fh, ft⟩
    · rw [tailCheck_order hr] at ran
      exact refusing ran
  · intro x placed
    have ran := exec_injectedEntry hb hu
    rw [lastTasks_event] at ran
    have restoring {ks todo : List Task} {m : List Segment} {op : TrackOp} {i : Nat}
        (ok : entryCheck a.map x = .ok ks)
        (hg : Tracker.goOn false (ks ++ [.place o x declared name] ++ eventSteps) a.restored = { a.restored with
            map := m, work := some (.pending op i todo false) } ∧
          Tracker.runFaults (ks ++ [.place o x declared name] ++ eventSteps) a.restored = []) :
        ∃ t, kept t ∧ waits t op i todo ∧ restored t ∧ (t.trackers[l]).map = m := by
      rw [ok] at ran
      obtain ⟨done, condition⟩ := s.restoring_applied l f (ks ++ [.place o x declared name] ++ eventSteps)
      obtain ⟨k, w, st, notices, map⟩ := waiting ran done same rfl hg
      exact ⟨_, k, w, ⟨st, condition, notices⟩, map⟩
    refine ⟨fun hn hg => restoring (entryCheck_free hn hg) (Tracker.goOn_place ..), fun gs g hm => ⟨fun hf hle hn => ⟨fun q hq => ?_, fun hq => ?_⟩, ?_, ?_⟩⟩
    · exact restoring (entryCheck_closes hm hf hle hn) (Tracker.goOn_closeLast_coil (a := a.restored) false _ hm hq x)
    · exact restoring (entryCheck_closes hm hf hle hn) (Tracker.goOn_replace (a := a.restored) o x declared name hm hq x)
    · intro ho
      rw [entryCheck_order hm ho] at ran
      exact refusing ran
    · intro hn hr
      rw [entryCheck_noRoom hm hn hr] at ran
      exact refusing ran
  · intro x n shaped
    have ran := exec_injectedCut hb hu
    refine ⟨fun hs => ?_, fun hs e he hlt => ?_, fun hs ho => ?_⟩
    · rw [Tracker.injectedCheck_badValue hs] at ran
      exact refusing ran
    · obtain ⟨check, cutShaped⟩ := Tracker.injectedCheck_shaped hs
      rw [check, cutCheck_order cutShaped he hlt] at ran
      exact refusing ran
    obtain ⟨check, cutShaped⟩ := Tracker.injectedCheck_shaped hs
    rw [check, cutCheck_ok cutShaped ho] at ran
    refine ⟨fun hm he => ?_, fun e m ms he hlt hn => ?_, fun g q d hm hq hz hd ht hn => ?_⟩
    · rw [cutTasks_none hm he] at ran
      obtain ⟨t, k, answered, line⟩ := ending (ks := [.setExit n names, .leave]) ran (Tracker.goOn_moveExit false hm n names) rfl same
      refine ⟨t, k, answered, ?_⟩
      rw [line, ← idle]
    · obtain ⟨p, ps, children, tasks⟩ := cutTasks_names (a := a) (n := n) he hlt hn
      obtain ⟨made, child⟩ := cutChildren_cons children
      rw [tasks] at ran
      have steps := Tracker.goOn_make (a := a) false (some p) (a.scrapLinks x n)
        (ps.map (fun q => .make (some q) []) ++ [.setExit n names, .leave])
      rw [List.append_assoc, List.cons_append] at ran
      obtain ⟨k, w, st, -, map⟩ := waiting ran (s.injecting_applied l f _) same rfl steps
      refine ⟨_, p, ps, _, k, made, w, map, st, fun i q hq => ?_⟩
      obtain ⟨head, length, lane, clamped, suspect, links⟩ := child i q hq
      exact ⟨head, length, lane, clamped, suspect, links⟩
    · intro from_ lo hi hlt
      rw [cutTasks_scrap hm hq hz hd ht hn hlt] at ran
      obtain ⟨k, w, st, -, map⟩ := waiting ran (s.injecting_applied l f _) same rfl (Tracker.goOn_make (a := a) false none _ [.setExit n names, .leave])
      refine ⟨_, k, map, st, ?_⟩
      unfold Segment.scrapLink orientDir at w
      exact w

end Sys2Proof.Machine
end

section
/-! # Readings at a gauge slot (R65, R96 to R101): each reading's place, and the counts -/

namespace Sys2Proof.Machine

/-! ## Counts one after another -/

theorem bumpTimes_eq_bump {k : Nat} (h : k ≤ 4294967295) (n : Nat) : bumpTimes n k = bump k n := by
  induction n generalizing k with
  | zero => exact (Nat.min_eq_left h).symm
  | succ n ih =>
    have small : bump k ≤ 4294967295 := Nat.min_le_right ..
    rw [bumpTimes, ih small]
    unfold bump
    omega

/-! ## The places of readings -/

/-- The counts of one fill after those of another. -/
def SlotFilled.add (q r : SlotFilled) : SlotFilled where
  slot := r.slot
  captured := q.captured + r.captured
  belowZero := q.belowZero + r.belowZero
  outOfOrder := q.outOfOrder + r.outOfOrder
  closed := q.closed + r.closed

theorem SlotFilled.add_add (p q r : SlotFilled) : (p.add q).add r = p.add (q.add r) := by
  simp [SlotFilled.add, Nat.add_assoc]

/-- The last coordinate the slot has seen (R97). -/
def Slot.last (g : Slot) : Option Nat :=
  match g.block with
  | some b => some b.last
  | none => g.mark

/-! ### One reading, case by case (R97 to R99) -/

section
variable {q : SlotFilled} {x : Int} {raw : BitVec 16} {b : Bool}

theorem SlotFilled.take_below (hx : x < 0) : q.take x raw b = q.add { slot := q.slot, belowZero := 1 } := by
  unfold SlotFilled.take
  exact if_pos hx

variable (hx : ¬x < 0)

include hx

theorem SlotFilled.take_late (hl : q.slot.last.any (fun m => decide (x.toNat < m)) = true) :
    q.take x raw b = q.add { slot := q.slot, outOfOrder := 1 } := by
  unfold SlotFilled.take
  dsimp only
  rw [if_neg hx]
  exact if_pos hl

variable (hl : ¬q.slot.last.any (fun m => decide (x.toNat < m)) = true)

include hl

theorem SlotFilled.take_first (hb : q.slot.block = none) :
    q.take x raw b = q.add { slot := { q.slot with block := some (openBlock x.toNat raw b) }, captured := 1 } := by
  unfold SlotFilled.take
  dsimp only
  rw [if_neg hx]
  refine (if_neg hl).trans ?_
  rw [hb]
  rfl

theorem SlotFilled.take_far {o : OpenBlock} (hb : q.slot.block = some o) (far : 65535 < x.toNat - o.first) : q.take x raw b =
    q.add { slot := { q.slot with block := some (openBlock x.toNat raw b), mark := some o.last }, captured := 1, closed := 1 } := by
  unfold SlotFilled.take
  dsimp only
  rw [if_neg hx]
  refine (if_neg hl).trans ?_
  rw [hb]
  exact if_pos far

theorem SlotFilled.take_full {o : OpenBlock} (hb : q.slot.block = some o) (far : ¬65535 < x.toNat - o.first)
    (full : o.entries.length = 119) : q.take x raw b =
    q.add { slot := { q.slot with block := none, mark := some x.toNat }, captured := 1, closed := 1 } := by
  unfold SlotFilled.take
  dsimp only
  rw [if_neg hx]
  refine (if_neg hl).trans ?_
  rw [hb]
  exact (if_neg far).trans (if_pos full)

theorem SlotFilled.take_joins {o : OpenBlock} (hb : q.slot.block = some o) (far : ¬65535 < x.toNat - o.first)
    (full : ¬o.entries.length = 119) : q.take x raw b =
    q.add { slot := { q.slot with block := some (o.append x.toNat raw b) }, captured := 1 } := by
  unfold SlotFilled.take
  dsimp only
  rw [if_neg hx]
  refine (if_neg hl).trans ?_
  rw [hb]
  exact (if_neg far).trans (if_neg full)

end

/-- A reading leaves the slot's definition and adds what its place in the slot says. -/
theorem SlotFilled.take_place (q : SlotFilled) (x : Int) (raw : BitVec 16) (b : Bool) : ∃ r : SlotFilled,
    q.take x raw b = q.add r ∧ ({ slot := q.slot } : SlotFilled).take x raw b = r ∧ r.slot.dseq = q.slot.dseq := by
  have alone (r : SlotFilled) : ({ slot := q.slot } : SlotFilled).add r = r := by simp [SlotFilled.add]
  by_cases hx : x < 0
  · exact ⟨_, take_below hx, (take_below (q := { slot := q.slot }) hx).trans (alone _), rfl⟩
  by_cases hl : q.slot.last.any (fun m => decide (x.toNat < m)) = true
  · exact ⟨_, take_late hx hl, (take_late (q := { slot := q.slot }) hx hl).trans (alone _), rfl⟩
  cases hb : q.slot.block with
  | none => exact ⟨_, take_first hx hl hb, (take_first (q := { slot := q.slot }) hx hl hb).trans (alone _), rfl⟩
  | some o =>
    by_cases far : 65535 < x.toNat - o.first
    · exact ⟨_, take_far hx hl hb far, (take_far (q := { slot := q.slot }) hx hl hb far).trans (alone _), rfl⟩
    by_cases full : o.entries.length = 119
    · exact ⟨_, take_full hx hl hb far full, (take_full (q := { slot := q.slot }) hx hl hb far full).trans (alone _), rfl⟩
    · exact ⟨_, take_joins hx hl hb far full, (take_joins (q := { slot := q.slot }) hx hl hb far full).trans (alone _), rfl⟩

/-- The place of a reading depends on the slot alone. -/
theorem SlotFilled.take_eq (q : SlotFilled) (x : Int) (raw : BitVec 16) (b : Bool) :
    q.take x raw b = q.add (({ slot := q.slot } : SlotFilled).take x raw b) := by
  obtain ⟨r, added, alone, -⟩ := q.take_place x raw b
  rw [added, alone]

theorem SlotFilled.take_dseq (q : SlotFilled) (x : Int) (raw : BitVec 16) (b : Bool) : (q.take x raw b).slot.dseq = q.slot.dseq := by
  obtain ⟨r, added, -, kept⟩ := q.take_place x raw b
  rw [added]
  exact kept

theorem fillSlot_eq (b : Bool) (stride x : Nat) (rs : List (BitVec 16)) (q : SlotFilled) :
    fillSlot b stride x rs q = q.add (fillSlot b stride x rs { slot := q.slot }) := by
  induction rs generalizing x q with
  | nil => rfl
  | cons r rs ih =>
    rw [fillSlot, fillSlot, ih, ih (x + stride) (({ slot := q.slot } : SlotFilled).take _ r b), q.take_eq, SlotFilled.add_add]
    rfl

/-! ## Readings handed over -/

/-- From `s` to `t` readings were handed to slot `i`, which they filled as `q` says. -/
structure SlotHanded (i : Fin 64) (s t : State) (q : SlotFilled) : Prop where
  slot : t.capture.slots[i] = q.slot
  others : ∀ j, j ≠ i → t.capture.slots[j] = s.capture.slots[j]
  cnt : t.capture.cnt = { s.capture.cnt with
    captured := bumpTimes q.captured s.capture.cnt.captured
    belowZero := bumpTimes q.belowZero s.capture.cnt.belowZero
    outOfOrder := bumpTimes q.outOfOrder s.capture.cnt.outOfOrder
    closed := bumpTimes q.closed s.capture.cnt.closed
    queueFull := t.capture.cnt.queueFull }

section
variable {i : Fin 64} {s t u : State}

theorem SlotHanded.refl (i : Fin 64) (s : State) : SlotHanded i s s { slot := s.capture.slots[i] } := ⟨rfl, fun _ _ => rfl, rfl⟩

theorem SlotHanded.trans {q r : SlotFilled} (h : SlotHanded i s t q) (g : SlotHanded i t u r) : SlotHanded i s u (q.add r) where
  slot := g.slot
  others j hj := (g.others j hj).trans (h.others j hj)
  cnt := by
    rw [g.cnt, h.cnt]
    simp only [SlotFilled.add, bumpTimes_add]

/-- A reading that is counted and not kept. -/
theorem SlotHanded.of_cnt {f : CaptureCounters → CaptureCounters} {q : SlotFilled} (hq : q.slot = s.capture.slots[i])
    (hf : f s.capture.cnt = { s.capture.cnt with
      captured := bumpTimes q.captured s.capture.cnt.captured
      belowZero := bumpTimes q.belowZero s.capture.cnt.belowZero
      outOfOrder := bumpTimes q.outOfOrder s.capture.cnt.outOfOrder
      closed := bumpTimes q.closed s.capture.cnt.closed }) : SlotHanded i s (s.updCaptureCnt f) q := by
  refine ⟨hq.symm, fun _ _ => rfl, ?_⟩
  dsimp only [State.updCaptureCnt]
  rw [hf]

/-- A change of the slot that counts nothing. -/
theorem SlotHanded.of_slot (f : Slot → Slot) : SlotHanded i s (s.updSlot i f) { slot := f s.capture.slots[i] } := by
  refine ⟨?_, fun j hj => updAt_other _ _ _ _ (Ne.symm hj), rfl⟩
  exact (updAt_get ..).trans (if_pos rfl)

theorem State.handBlock_cnt (s : State) (b : Block) : (s.handBlock b).capture.cnt =
    { s.capture.cnt with queueFull := (s.handBlock b).capture.cnt.queueFull } := by
  unfold State.handBlock
  dsimp only
  split
  · rfl
  · split
    · rw [State.raise_capture]
    · rfl

theorem State.closeSlot_cnt (s : State) (i : Fin 64) {b : OpenBlock} (hb : (s.capture.slots[i]).block = some b) :
    (s.closeSlot i).capture.cnt = { s.capture.cnt with
      closed := bump s.capture.cnt.closed, queueFull := (s.closeSlot i).capture.cnt.queueFull } := by
  unfold State.closeSlot
  dsimp only
  rw [hb]
  dsimp only
  split
  · rfl
  · exact State.handBlock_cnt ..

/-- A block closed (R99). -/
theorem SlotHanded.of_close {b : OpenBlock} (hb : (s.capture.slots[i]).block = some b) :
    SlotHanded i s (s.closeSlot i) { slot := { s.capture.slots[i] with block := none, mark := some b.last }, closed := 1 } := by
  refine ⟨?_, fun j hj => ?_, ?_⟩
  · rw [s.closeSlot_open i hb]
    exact (updAt_get ..).trans (if_pos rfl)
  · rw [s.closeSlot_open i hb]
    exact updAt_other _ _ _ _ (Ne.symm hj)
  · rw [s.closeSlot_cnt i hb]
    rfl

/-! ## One reading -/

section
variable {x : Nat} {raw : BitVec 16} {b : Bool} (hl : ¬(s.capture.slots[i]).last.any (fun m => decide (x < m)) = true)

theorem State.takeReading_late (hl : (s.capture.slots[i]).last.any (fun m => decide (x < m)) = true) :
    s.takeReading i x raw b = s.updCaptureCnt (fun c => { c with outOfOrder := bump c.outOfOrder }) := by
  unfold State.takeReading
  exact if_pos hl

include hl

theorem State.takeReading_first (hb : (s.capture.slots[i]).block = none) : s.takeReading i x raw b =
    (s.updCaptureCnt (fun c => { c with captured := bump c.captured })).updSlot i
      (fun sl => { sl with block := some (openBlock x raw b) }) := by
  unfold State.takeReading
  refine (if_neg hl).trans ?_
  rw [hb]

theorem State.takeReading_block {o : OpenBlock} (hb : (s.capture.slots[i]).block = some o) : s.takeReading i x raw b =
    if 65535 < x - o.first then
      ((s.updCaptureCnt (fun c => { c with captured := bump c.captured })).closeSlot i).updSlot i
        (fun sl => { sl with block := some (openBlock x raw b) })
    else if (o.append x raw b).entries.length = 120 then
      ((s.updCaptureCnt (fun c => { c with captured := bump c.captured })).updSlot i
        (fun sl => { sl with block := some (o.append x raw b) })).closeSlot i
    else (s.updCaptureCnt (fun c => { c with captured := bump c.captured })).updSlot i
      (fun sl => { sl with block := some (o.append x raw b) }) := by
  unfold State.takeReading
  refine (if_neg hl).trans ?_
  rw [hb]

end

/-- A reading taken into its slot (R98, R99). -/
theorem SlotHanded.takeReading {x : Int} (hx : ¬x < 0) (raw : BitVec 16) (b : Bool) :
    SlotHanded i s (s.takeReading i x.toNat raw b) (({ slot := s.capture.slots[i] } : SlotFilled).take x raw b) := by
  have whole {v : State} {r : SlotFilled} (h : SlotHanded i s v r) : SlotHanded i s v (({ slot := s.capture.slots[i] } : SlotFilled).add r) :=
    (SlotHanded.refl i s).trans h
  by_cases hl : (s.capture.slots[i]).last.any (fun m => decide (x.toNat < m)) = true
  · rw [State.takeReading_late hl, SlotFilled.take_late hx hl]
    exact whole (.of_cnt rfl rfl)
  have counted : SlotHanded i s (s.updCaptureCnt (fun c => { c with captured := bump c.captured }))
      { slot := s.capture.slots[i], captured := 1 } := .of_cnt rfl rfl
  cases hb : (s.capture.slots[i]).block with
  | none =>
    rw [State.takeReading_first hl hb, SlotFilled.take_first hx hl hb]
    exact whole (counted.trans (.of_slot _))
  | some o =>
    rw [State.takeReading_block hl hb]
    by_cases far : 65535 < x.toNat - o.first
    · rw [if_pos far, SlotFilled.take_far hx hl hb far]
      have shut := counted.trans (.of_close (s := s.updCaptureCnt _) hb)
      have opened := shut.trans (.of_slot (fun sl => { sl with block := some (openBlock x.toNat raw b) }))
      rw [shut.slot] at opened
      exact whole opened
    rw [if_neg far]
    have joined := counted.trans (.of_slot (fun sl => { sl with block := some (o.append x.toNat raw b) }))
    have count : (o.append x.toNat raw b).entries.length = 120 ↔ o.entries.length = 119 := by simp [OpenBlock.append]
    by_cases full : o.entries.length = 119
    · rw [if_pos (count.mpr full), SlotFilled.take_full hx hl hb far full]
      have shut := joined.trans (.of_close (congrArg Slot.block joined.slot))
      rw [joined.slot] at shut
      exact whole shut
    · rw [if_neg (count.not.mpr full), SlotFilled.take_joins hx hl hb far full]
      exact whole joined

/-- A reading of the slot's own definition (R97). -/
theorem SlotHanded.handReading {dseq : Nat} (hd : (s.capture.slots[i]).dseq = dseq) (coord : Nat) (raw : BitVec 16) (b : Bool) :
    SlotHanded i s (s.handReading i dseq coord raw b)
      (({ slot := s.capture.slots[i] } : SlotFilled).take ((coord : Int) - (s.capture.slots[i]).offset) raw b) := by
  unfold State.handReading
  dsimp only
  rw [if_neg (not_not_intro hd)]
  by_cases hx : (coord : Int) - (s.capture.slots[i]).offset < 0
  · have below : ({ slot := s.capture.slots[i] } : SlotFilled).take ((coord : Int) - (s.capture.slots[i]).offset) raw b =
        { slot := s.capture.slots[i], belowZero := 1 } := SlotFilled.take_below hx
    rw [if_pos hx, below]
    exact .of_cnt rfl rfl
  · rw [if_neg hx]
    exact .takeReading hx raw b

/-- The readings of a frame at a slot that keeps its definition (R65, R96). -/
theorem SlotHanded.handReadings {dseq : Nat} (hd : (s.capture.slots[i]).dseq = dseq) (b : Bool) (stride coord : Nat)
    (rs : List (BitVec 16)) : SlotHanded i s (s.handReadings i dseq b stride coord rs)
      (fillSlot b stride coord rs { slot := s.capture.slots[i] }) := by
  induction rs generalizing s coord with
  | nil => exact .refl i s
  | cons r rs ih =>
    have first := SlotHanded.handReading (i := i) hd coord r b
    have kept : ((s.handReading i dseq coord r b).capture.slots[i]).dseq = dseq := by
      rw [first.slot, SlotFilled.take_dseq]
      exact hd
    have rest := ih kept (coord + stride)
    rw [first.slot] at rest
    rw [State.handReadings, fillSlot, fillSlot_eq]
    exact first.trans rest

/-- Readings of a definition the slot has no more are counted and dropped (R96). -/
theorem State.handReadings_lost {dseq : Nat} (hd : (s.capture.slots[i]).dseq ≠ dseq) (b : Bool) (stride coord : Nat) (rs : List (BitVec 16)) :
    s.handReadings i dseq b stride coord rs =
      s.updCaptureCnt (fun c => { c with undefinedGauge := bumpTimes rs.length c.undefinedGauge }) := by
  induction rs generalizing s coord with
  | nil => rfl
  | cons r rs ih =>
    have first : s.handReading i dseq coord r b = s.updCaptureCnt (fun c => { c with undefinedGauge := bump c.undefinedGauge }) := by
      unfold State.handReading
      exact if_pos hd
    rw [State.handReadings, first, ih (s := s.updCaptureCnt _) hd]
    rfl

end
end Sys2Proof.Machine
end

section
/-! # O35: READINGS frames (R65, R68, R96 to R99) -/

namespace Sys2Proof.Machine

/-! ## The slot of a gauge (R96) -/

/-- The slot is the one of the line's gauge. -/
def Slot.Of (g : Slot) (l : Fin 4) (gauge : Nat) : Prop := g.defined = true ∧ g.line = l.1 ∧ g.gauge = gauge

section
variable {s : State} {l : Fin 4} {gauge : Nat}

theorem Slot.of_iff {g : Slot} : (g.defined && g.line == l.1 && g.gauge == gauge) = true ↔ g.Of l gauge := by
  simp [Slot.Of, and_assoc]

theorem State.slotFor_none (h : ∀ i : Fin 64, ¬(s.capture.slots[i]).Of l gauge) : s.slotFor l gauge = none :=
  List.find?_eq_none.mpr (fun i _ => mt Slot.of_iff.mp (h i))

/-- The first slot defined for the gauge takes its readings (R96). -/
theorem State.slotFor_first {i : Fin 64} (hi : (s.capture.slots[i]).Of l gauge) (h : ∀ j, j < i → ¬(s.capture.slots[j]).Of l gauge) :
    s.slotFor l gauge = some i := by
  have here : i.1 < slotNumbers.length := by simp [slotNumbers]
  have split_ : slotNumbers = slotNumbers.take i.1 ++ i :: slotNumbers.drop (i.1 + 1) := by
    have cut := (List.take_append_drop i.1 slotNumbers).symm
    rwa [List.drop_eq_getElem_cons here, show slotNumbers[i.1] = i from by simp [slotNumbers]] at cut
  refine List.find?_eq_some_iff_append.mpr ⟨Slot.of_iff.mpr hi, _, _, split_, fun j hj => ?_⟩
  obtain ⟨k, hk, e⟩ := List.mem_take_iff_getElem.mp hj
  have before : j < i := by
    rw [← e]
    simp [slotNumbers, Fin.lt_def]
    omega
  rw [Bool.not_eq_true', ← Bool.not_eq_true]
  exact mt Slot.of_iff.mp (h j before)

end

/-! ## What follows the hand-over -/

/-- The line has run its last steps, or waits with readings left. -/
structure RanOn (c b : Tracker) : Prop where
  same : b = { c with pair := b.pair, map := b.map, cnt := { c.cnt with trackFaults := b.cnt.trackFaults }, work := b.work }
  origin : ∀ y ∈ b.map, ∃ x ∈ c.map, Crossed x y

theorem Tracker.goOn_ranOn {ks : List Task} (p : Bool) (c : Tracker) (hk : LastSteps ks) : RanOn c (Tracker.goOn p ks c).presenting := by
  obtain ⟨same, ran, -⟩ := Tracker.goOn_ranLast p hk c
  refine ⟨?_, fun y hy => MapRan.origin ran hy⟩
  rw [Tracker.presenting, same]

theorem RanOn.waiting (c : Tracker) (w : Option Work) : RanOn c { c with work := w } :=
  ⟨rfl, fun y hy => ⟨y, hy, rfl, fun _ => rfl, fun _ => rfl, fun _ => ⟨rfl, rfl⟩, .inl rfl⟩⟩

/-- The marks and counters of an item that met the causes and ran its steps (R68). -/
theorem Met.marked {l : Fin 4} {before : List Notice} {cs : List Nat} {j k : Nat} {s v : State} {b : Tracker}
    (h : Met l before cs j k s v) (g : RanOn v.trackers[l] b) :
    b.exit = (s.trackers[l]).exit.mark (breaksLine l s.trackers[l] cs) ∧
    (∀ y ∈ b.map, ∃ x ∈ (s.trackers[l]).map, y.coil = x.coil ∧ y.fh = x.fh ∧ y.suspect = (x.suspect || breaksLine l s.trackers[l] cs)) ∧
    b.cnt = { (s.trackers[l]).cnt with
      jumps := bumpTimes j (s.trackers[l]).cnt.jumps
      holds := bumpTimes k (s.trackers[l]).cnt.holds
      uncertain := if becomesUncertain l s.trackers[l] cs then bump (s.trackers[l]).cnt.uncertain else (s.trackers[l]).cnt.uncertain
      trackFaults := b.cnt.trackFaults } := by
  refine ⟨?_, fun y hy => ?_, ?_⟩
  · rw [g.same]
    exact h.exit
  · obtain ⟨z, hz, crossed, -⟩ := g.origin y hy
    rw [h.map] at hz
    obtain ⟨x, hx, rfl⟩ := List.mem_map.mp hz
    rw [crossed]
    exact ⟨x, hx, rfl, rfl, rfl⟩
  · have cnt : b.cnt = { (v.trackers[l]).cnt with trackFaults := b.cnt.trackFaults } := congrArg Tracker.cnt g.same
    rw [h.cnt] at cnt
    exact cnt

/-! ## The hand-over (R96) -/

section
variable (s : State) (l : Fin 4) (h : Handing) (ks : List Task) (handed : Option Nat)

/-- The state once the readings of this step are handed over. -/
def State.handedReadings : State :=
  s.handReadings h.slot h.dseq h.suspect h.stride h.coord (h.raws.take (handed.getD h.raws.length))

theorem State.handedReadings_touches : Touches [.archive, .capture, .slc] s (s.handedReadings h handed) :=
  (Touches.refl _ s).handReadings rfl rfl rfl

/-- The readings left, where the hand-over is cut (log entry 12). -/
def Handing.left (h : Handing) (n : Nat) : Handing := { h with coord := h.coord + n * h.stride, raws := h.raws.drop n }

theorem State.handOn_whole (hn : h.raws.length ≤ handed.getD h.raws.length) :
    s.handOn l h ks handed = (s.handedReadings h handed).runTasks l true ks := by
  unfold State.handOn
  dsimp only
  rw [List.drop_eq_nil_of_le hn]
  rfl

theorem State.handOn_cut (hn : handed.getD h.raws.length < h.raws.length) : s.handOn l h ks handed =
    (s.handedReadings h handed).updTracker l (fun t => { t with work := some (.pending (.hand (h.left (handed.getD h.raws.length))) 0 ks true) }) := by
  obtain ⟨r, rs, left⟩ := List.exists_cons_of_ne_nil (List.drop_eq_nil_iff.not.mpr (Nat.not_le.mpr hn))
  unfold State.handOn Handing.left
  dsimp only
  rw [left]
  rfl

/-- What a hand-over leaves, its first readings at their slot. -/
structure HandedOn (l : Fin 4) (h : Handing) (handed : Option Nat) (s t : State) : Prop where
  capture : t.capture = (s.handedReadings h handed).capture
  lines : OtherLines l s t
  ports : t.ports = s.ports
  line : LineKept s.trackers[l] t.trackers[l]
  cut : handed.getD h.raws.length < h.raws.length → ∃ ks, (t.trackers[l]).work = some (.pending (.hand (h.left (handed.getD h.raws.length))) 0 ks true)

theorem State.handOn_handed : HandedOn l h handed s (s.handOn l h ks handed).flashKick.kick ∧
    (LastSteps ks → RanOn s.trackers[l] (s.handOn l h ks handed).flashKick.kick.trackers[l]) := by
  have readings := s.handedReadings_touches h handed
  have trackers (u : State) : u.flashKick.kick.trackers = u.trackers := by rw [State.kick_trackers, (State.flashKick_touches u).trackers_eq]
  have ports (u : State) : u.flashKick.kick.ports = u.ports := by rw [State.kick_ports, (State.flashKick_touches u).ports_eq]
  have capture (u : State) : u.flashKick.kick.capture = u.capture := by rw [State.kick_capture, (State.flashKick_touches u).capture_eq]
  have line : (s.handedReadings h handed).trackers[l] = s.trackers[l] := congrArg (·[l]) readings.trackers_eq
  have lines : OtherLines l s (s.handedReadings h handed) := fun k _ => by rw [readings.trackers_eq, readings.ports_eq]; exact ⟨rfl, rfl⟩
  by_cases hn : handed.getD h.raws.length < h.raws.length
  · rw [s.handOn_cut l h ks handed hn]
    set u := (s.handedReadings h handed).updTracker l _ with hu
    have at_ : u.flashKick.kick.trackers[l] = { s.trackers[l] with work := some (.pending (.hand (h.left (handed.getD h.raws.length))) 0 ks true) } := by
      rw [trackers, hu, State.updTracker_at, line]
    refine ⟨⟨capture u, ?_, (ports u).trans readings.ports_eq, ?_, fun _ => ⟨ks, ?_⟩⟩, fun _ => ?_⟩
    · intro k hk
      rw [trackers, ports]
      exact (lines.trans ((OtherTrackers.updTracker _ l _).lines rfl)) k hk
    · rw [at_]
      rfl
    · rw [at_]
    · rw [at_]
      exact .waiting ..
  · rw [s.handOn_whole l h ks handed (Nat.not_lt.mp hn)]
    have ran := (s.handedReadings h handed).runTasks_ran l ks
    set u := (s.handedReadings h handed).runTasks l true ks with hu
    have steps : Touches [.trackers, .slc] (s.handedReadings h handed) u := (Touches.refl _ _).runTasks rfl rfl
    refine ⟨⟨(capture u).trans steps.capture_eq, ?_, (ports u).trans (ran.ports.trans readings.ports_eq), ?_, fun hc => absurd hc hn⟩, fun hk => ?_⟩
    · intro k hk
      rw [trackers, ports]
      exact (lines.trans ran.lines) k hk
    · rw [trackers, ← line]
      exact ran.kept
    · rw [trackers, ran.line, line]
      exact Tracker.goOn_ranOn true _ hk

end
/-- The counters of capture are 32-bit counts (R188). -/
def CaptureCounters.Bounded (k : CaptureCounters) : Prop :=
  k.captured ≤ 4294967295 ∧ k.belowZero ≤ 4294967295 ∧ k.outOfOrder ≤ 4294967295 ∧ k.closed ≤ 4294967295 ∧ k.undefinedGauge ≤ 4294967295

theorem LineKept.counts_state {a b : Tracker} (h : LineKept a b) (sd : Side) : b.odo sd = a.odo sd ∧ b.base sd = a.base sd ∧
    b.state = a.state := by
  rw [h]
  cases sd <;> exact ⟨rfl, rfl, rfl⟩

section
variable {s t : State} {l : Fin 4} {h : Handing} {handed : Option Nat}

/-- Readings handed over from a state with the same capture. -/
theorem SlotHanded.from_ {u : State} {i : Fin 64} {q : SlotFilled} (g : SlotHanded i s t q) (hc : s.capture = u.capture) :
    SlotHanded i u t q := by
  obtain ⟨slot, others, cnt⟩ := g
  rw [hc] at others cnt
  exact ⟨slot, others, cnt⟩

theorem HandedOn.fills (g : HandedOn l h handed s t) (hd : (s.capture.slots[h.slot]).dseq = h.dseq) :
    SlotHanded h.slot s t (fillSlot h.suspect h.stride h.coord (h.raws.take (handed.getD h.raws.length))
      { slot := s.capture.slots[h.slot] }) := by
  obtain ⟨slot, others, cnt⟩ := SlotHanded.handReadings hd h.suspect h.stride h.coord (h.raws.take (handed.getD h.raws.length))
  have capture : (s.handReadings h.slot h.dseq h.suspect h.stride h.coord (h.raws.take (handed.getD h.raws.length))).capture = t.capture :=
    g.capture.symm
  rw [capture] at slot others cnt
  exact ⟨slot, others, cnt⟩

theorem HandedOn.lost (g : HandedOn l h handed s t) (hb : s.capture.cnt.Bounded) (hd : (s.capture.slots[h.slot]).dseq ≠ h.dseq) :
    t.capture = { s.capture with cnt := { s.capture.cnt with
      undefinedGauge := bump s.capture.cnt.undefinedGauge (h.raws.take (handed.getD h.raws.length)).length } } := by
  rw [g.capture, State.handedReadings, State.handReadings_lost hd]
  dsimp only [State.updCaptureCnt]
  rw [bumpTimes_eq_bump hb.2.2.2.2]

theorem SlotHanded.counted {i : Fin 64} {q : SlotFilled} (g : SlotHanded i s t q) (hb : s.capture.cnt.Bounded) :
    t.capture.cnt = { s.capture.cnt with
      captured := bump s.capture.cnt.captured q.captured
      belowZero := bump s.capture.cnt.belowZero q.belowZero
      outOfOrder := bump s.capture.cnt.outOfOrder q.outOfOrder
      closed := bump s.capture.cnt.closed q.closed
      queueFull := t.capture.cnt.queueFull } := by
  obtain ⟨captured, below, late, closed, -⟩ := hb
  rw [← bumpTimes_eq_bump captured, ← bumpTimes_eq_bump below, ← bumpTimes_eq_bump late, ← bumpTimes_eq_bump closed]
  exact g.cnt

end

/-! ## The command -/

section
variable {s : State} {l : Fin 4} {seq gauge : Byte} {first : BitVec 32} {stride : BitVec 16} {raws : List (BitVec 16)} {time : BitVec 32}
  {handed : Option Nat}

theorem ItemHanded.not_handing {it : Item} (h : ItemHanded s l it) (seq : Byte) (fr : StationFrame) :
    (s.trackers[l]).handing seq fr = none := by
  unfold Tracker.handing
  rw [((s.between_iff l).mp h.1).2.1]

section
variable {u : State} (hw : (s.trackers[l]).handing seq (.readings gauge first stride raws time) = none)
  (hu : s.takeItem l (.frame seq (.readings gauge first stride raws time)) = some u)

include hw hu

theorem State.exec_readings_none (hi : (u.seqCheck l seq).slotFor l gauge.toNat = none) :
    exec (.readings l seq gauge first stride { values := raws, handed := handed } time) s =
      settle (((u.seqCheck l seq).updCaptureCnt (fun c => { c with undefinedGauge := bump c.undefinedGauge raws.length })).runTasks l true
        [.leave]) := by
  have arm : exec (.readings l seq gauge first stride { values := raws, handed := handed } time) s =
    execReadings l seq gauge first stride { values := raws, handed := handed } time s := rfl
  rw [arm]
  unfold execReadings
  dsimp only
  rw [hw]
  dsimp only
  rw [hu]
  dsimp only
  rw [hi]

/-- The readings a READINGS frame hands to the slot `g`, at place `i`, its count taken (R65). -/
def State.readingsAt (v : State) (l : Fin 4) (i : Fin 64) (g : Slot) (seq : Byte) (f : StationFrame) (first stride : Nat)
    (raws : List (BitVec 16)) : Handing :=
  { seq := seq, frame := f, slot := i, dseq := g.dseq, suspect := (v.trackers[l]).state == .uncertain, stride := stride,
    coord := coordOf ((v.trackers[l]).odo g.side) (((v.trackers[l]).base g.side).getD 0) first, raws := raws }

theorem State.exec_readings_slot {i : Fin 64} (hi : (u.seqCheck l seq).slotFor l gauge.toNat = some i) :
    let g := (u.seqCheck l seq).capture.slots[i]
    let v := (u.seqCheck l seq).countTaken l g.side first.toNat
    exec (.readings l seq gauge first stride { values := raws, handed := handed } time) s =
      settle (v.handOn l (v.readingsAt l i g seq (.readings gauge first stride raws time) first.toNat stride.toNat raws)
        (lastTasks (decide ((s.trackers[l]).feed < (v.trackers[l]).feed)) true) handed).flashKick := by
  have arm : exec (.readings l seq gauge first stride { values := raws, handed := handed } time) s =
    execReadings l seq gauge first stride { values := raws, handed := handed } time s := rfl
  rw [arm]
  unfold execReadings
  dsimp only
  rw [hw]
  dsimp only
  rw [hu]
  dsimp only
  rw [hi]
  rfl

end

/-- What a READINGS frame leaves at the slot `i` of its gauge, whose side is `sd`. -/
structure ReadingsRan (l : Fin 4) (i : Fin 64) (seq : Byte) (sd : Side) (frame : StationFrame) (first stride : Nat)
    (raws : List (BitVec 16)) (handed : Option Nat) (s t : State) : Prop where
  line : ∃ v, CountMet l seq sd first s v ∧ RanOn v.trackers[l] t.trackers[l]
  lines : OtherLines l s t
  port : t.ports[l] = (s.ports[l]).afterItem (Missed (s.trackers[l]).lastSeq seq.toNat) false
  readings : ∃ base, (t.trackers[l]).base sd = some base ∧
    SlotHanded i s t (fillSlot ((t.trackers[l]).state == .uncertain) stride (coordOf ((t.trackers[l]).odo sd) base first)
      (raws.take (handed.getD raws.length)) { slot := s.capture.slots[i] }) ∧
    (handed.getD raws.length < raws.length → ∃ ks, (t.trackers[l]).work = some (.pending (.hand
      { seq := seq, frame := frame, slot := i, dseq := (s.capture.slots[i]).dseq, suspect := (t.trackers[l]).state == .uncertain,
        stride := stride, coord := coordOf ((t.trackers[l]).odo sd) base first + handed.getD raws.length * stride,
        raws := raws.drop (handed.getD raws.length) }) 0 ks true))

theorem CountMet.based {sd : Side} {c : Nat} {v : State} (h : CountMet l seq sd c s v) : ∃ base, (v.trackers[l]).base sd = some base := by
  obtain ⟨silent, timer, line⟩ := h.line
  rw [Tracker.counted_base line]
  cases sd <;> exact ⟨_, rfl⟩

theorem ItemHanded.readings {i : Fin 64} (h : ItemHanded s l (.frame seq (.readings gauge first stride raws time)))
    (hi : (s.capture.slots[i]).Of l gauge.toNat) (hj : ∀ j, j < i → ¬(s.capture.slots[j]).Of l gauge.toNat) :
    ∃ t, exec (.readings l seq gauge first stride { values := raws, handed := handed } time) s = .next t ∧
      ReadingsRan l i seq (s.capture.slots[i]).side (.readings gauge first stride raws time) first.toNat stride.toNat raws handed s t := by
  obtain ⟨u, hu, checked⟩ := h.checked nofun seq
  have taken := ((Touches.refl [.ports, .trackers, .slc] s).takeItem hu rfl rfl rfl).seqCheck (l := l) (q := seq) rfl rfl rfl
  have capture := taken.capture_eq
  have found : (u.seqCheck l seq).slotFor l gauge.toNat = some i := by
    refine State.slotFor_first ?_ ?_ <;> rw [capture] <;> assumption
  have ran := State.exec_readings_slot (handed := handed) (h.not_handing ..) hu found
  dsimp only at ran
  rw [capture] at ran
  have counted := checked.countTaken h.ready (s.capture.slots[i]).side first.toNat
  have vCapture : ((u.seqCheck l seq).countTaken l (s.capture.slots[i]).side first.toNat).capture = s.capture :=
    ((taken.takeCount rfl rfl).leaveWaiting rfl rfl).capture_eq
  generalize (u.seqCheck l seq).countTaken l (s.capture.slots[i]).side first.toNat = v at ran counted vCapture
  obtain ⟨t, next, onward, steps⟩ : ∃ t, exec (.readings l seq gauge first stride { values := raws, handed := handed } time) s = .next t ∧
      HandedOn l (v.readingsAt l i (s.capture.slots[i]) seq (.readings gauge first stride raws time) first.toNat stride.toNat raws) handed v t ∧
      (LastSteps (lastTasks (decide ((s.trackers[l]).feed < (v.trackers[l]).feed)) true) → RanOn v.trackers[l] t.trackers[l]) :=
    ⟨_, ran, State.handOn_handed ..⟩
  refine ⟨t, next, ⟨v, counted, steps (lastSteps_position _)⟩, counted.lines.trans onward.lines, ?_, ?_⟩
  · rw [onward.ports, counted.port]
  obtain ⟨base, hbase⟩ := counted.based
  obtain ⟨odo, base_, state⟩ := onward.line.counts_state (s.capture.slots[i]).side
  have fills := onward.fills (congrArg (fun c : Capture => (c.slots[i]).dseq) vCapture)
  have cut := onward.cut
  unfold State.readingsAt Handing.left at cut
  unfold State.readingsAt at fills
  dsimp only at fills cut
  rw [vCapture, hbase, Option.getD_some] at fills
  rw [hbase, Option.getD_some] at cut
  rw [odo, base_, state]
  exact ⟨base, hbase, fills.from_ vCapture, cut⟩

/-- A READINGS frame of a gauge no slot is defined for. -/
structure ReadingsDropped (l : Fin 4) (seq : Byte) (n : Nat) (s t : State) : Prop where
  line : ∃ v, Met l (arrivalNotices l s) (gapCauses (s.trackers[l]).lastSeq seq.toNat) 0 0 s v ∧ RanOn v.trackers[l] t.trackers[l] ∧
    Marked { s.trackers[l] with silent := (v.trackers[l]).silent, timer := (v.trackers[l]).timer, lastSeq := some seq.toNat } v.trackers[l]
  touches : Touches [.ports, .trackers, .capture, .slc] s t
  lines : OtherLines l s t
  port : t.ports[l] = (s.ports[l]).afterItem (Missed (s.trackers[l]).lastSeq seq.toNat) false
  lost : t.capture = { s.capture with cnt := { s.capture.cnt with undefinedGauge := bump s.capture.cnt.undefinedGauge n } }
  raises : Discontinued l (arrivalNotices l s) (gapCauses (s.trackers[l]).lastSeq seq.toNat) [] s t

theorem ItemHanded.readings_dropped (h : ItemHanded s l (.frame seq (.readings gauge first stride raws time)))
    (hn : ∀ i : Fin 64, ¬(s.capture.slots[i]).Of l gauge.toNat) :
    ∃ t, exec (.readings l seq gauge first stride { values := raws, handed := handed } time) s = .next t ∧
      ReadingsDropped l seq raws.length s t := by
  obtain ⟨u, hu, checked⟩ := h.checked nofun seq
  have taken := ((Touches.refl [.ports, .trackers, .slc] s).takeItem hu rfl rfl rfl).seqCheck (l := l) (q := seq) rfl rfl rfl
  have taken' := ((Touches.refl [.ports, .trackers, .capture, .slc] s).takeItem hu rfl rfl rfl).seqCheck (l := l) (q := seq) rfl rfl rfl
  have capture := taken.capture_eq
  have none_ : (u.seqCheck l seq).slotFor l gauge.toNat = none := State.slotFor_none (by rw [capture]; exact hn)
  have ran := State.exec_readings_none (handed := handed) (h.not_handing ..) hu none_
  set v := (u.seqCheck l seq).updCaptureCnt (fun c => { c with undefinedGauge := bump c.undefinedGauge raws.length }) with hv
  have met : Met l (arrivalNotices l s) (gapCauses (s.trackers[l]).lastSeq seq.toNat) 0 0 s v := (checked.meets.frame (u := v) rfl rfl rfl).toMet
  have steps := v.runTasks_ran l [.leave]
  obtain ⟨raises, -⟩ := met.steps steps rfl
  refine ⟨_, ran, ⟨v, met, ?_, checked.line⟩, ?_, (checked.lines.trans steps.lines).kick, ?_, ?_, raises⟩
  · rw [State.kick_trackers, steps.line]
    exact Tracker.goOn_ranOn true _ (fun k hk => .inr (.inr (List.mem_singleton.mp hk)))
  · exact ((taken'.updCaptureCnt rfl).runTasks rfl rfl).kick rfl
  · rw [State.kick_ports, steps.ports]
    exact checked.port
  · rw [State.kick_capture, ((Touches.refl [.trackers, .slc] v).runTasks (l := l) (b := true) (ks := [.leave]) rfl rfl).capture_eq, ← capture]
    rfl

/-! ## The frame given again (log entry 12) -/

theorem State.exec_readings_again {w : Work} {h : Handing} (hw : (s.trackers[l]).work = some w) (ho : w.op = .hand h) (hs : h.seq = seq)
    (hf : h.frame = .readings gauge first stride raws time) :
    exec (.readings l seq gauge first stride { values := raws, handed := none } time) s = settle (s.handOn l h w.todo none).flashKick := by
  have arm : exec (.readings l seq gauge first stride { values := raws, handed := none } time) s =
    execReadings l seq gauge first stride { values := raws, handed := none } time s := rfl
  have handing : (s.trackers[l]).handing seq (.readings gauge first stride raws time) = some (h, w.todo) := by
    unfold Tracker.handing
    rw [hw]
    dsimp only
    rw [ho]
    exact if_pos ⟨hs, hf⟩
  rw [arm]
  unfold execReadings
  dsimp only
  rw [handing]

end

/-- Settles O35: the slot is found before any count is applied; the readings are handed over at the coordinates the first count gives. -/
theorem readingsReachSlot : Obligations.ReadingsReachSlot := by
  intro l seq gauge first stride raws time handed s frame a k filled lost counters marked
  have fill {t : State} {i : Fin 64} {q : SlotFilled} (g : SlotHanded i s t q) (hb : counters) : filled t i q :=
    ⟨g.slot, g.others, g.counted hb⟩
  have jumps_gap : ((gapCauses a.lastSeq seq.toNat).filter (· == 1)).length = 0 := by
    unfold gapCauses
    split <;> rfl
  refine ⟨?_, fun w h hw ho hs hf => ?_⟩
  · intro h c belongs
    refine ⟨fun hn => ?_, fun i hi hj => ?_⟩
    · obtain ⟨t, next, dropped⟩ := h.readings_dropped (handed := handed) hn
      obtain ⟨v, met, ran, line⟩ := dropped.line
      obtain ⟨exit, map, cnt⟩ := met.marked ran
      have kept : LineKept v.trackers[l] t.trackers[l] := by
        unfold LineKept
        rw [ran.same]
      refine ⟨t, next, dropped.touches, dropped.lines, ?_, ?_, ?_, ?_, ?_, dropped.lost, ⟨exit, map, dropped.port, ?_⟩, dropped.raises⟩
      · rw [kept]
        exact line.feed
      · rw [kept]
        exact line.feedBase
      · rw [kept]
        exact line.delivery
      · rw [kept]
        exact line.deliveryBase
      · rw [kept]
        exact line.lastSeq
      · rw [jumps_gap]
        exact cnt
    · obtain ⟨t, next, ran⟩ := h.readings (handed := handed) hi hj
      obtain ⟨sd, hsd⟩ : ∃ sd, (s.capture.slots[i]).side = sd := ⟨_, rfl⟩
      rw [hsd] at ran
      obtain ⟨t', next', touches⟩ := exec_runs (s := s) c
      obtain rfl : t = t' := Host.Outcome.next.inj (next.symm.trans next')
      obtain ⟨v, counted, steps⟩ := ran.line
      obtain ⟨base, hbase, fills, cut⟩ := ran.readings
      obtain ⟨exit, map, cnt⟩ := counted.met.marked steps
      have kept : LineKept v.trackers[l] t.trackers[l] := by
        unfold LineKept
        rw [steps.same]
      rw [← Tracker.jumps_oneCauses] at cnt
      have lastSeq : (t.trackers[l]).lastSeq = some seq.toNat := by
        rw [kept]
        exact counted.lastSeq
      refine ⟨t, next, touches, ran.lines, ?_⟩
      dsimp only
      rw [hsd]
      cases sd with
      | feed =>
        have taken := counted.feed
        rw [← kept.feed, ← kept.feedBase, ← kept.delivery, ← kept.deliveryBase] at taken
        exact ⟨lastSeq, ⟨exit, map, ran.port, cnt⟩, fun _ => taken, nofun, base, hbase, fun hb => fill fills hb, fun hn =>
          let ⟨ks, left⟩ := cut hn
          ⟨_, _, left, rfl, rfl, rfl, rfl, rfl, rfl, rfl, rfl, rfl, rfl, rfl⟩⟩
      | delivery =>
        have taken := counted.delivery
        rw [← kept.feed, ← kept.feedBase, ← kept.delivery, ← kept.deliveryBase] at taken
        exact ⟨lastSeq, ⟨exit, map, ran.port, cnt⟩, nofun, fun _ => taken, base, hbase, fun hb => fill fills hb, fun hn =>
          let ⟨ks, left⟩ := cut hn
          ⟨_, _, left, rfl, rfl, rfl, rfl, rfl, rfl, rfl, rfl, rfl, rfl, rfl⟩⟩
  · have ran := State.exec_readings_again hw ho hs hf
    obtain ⟨onward, -⟩ := State.handOn_handed s l h w.todo none
    have touches : Touches [.trackers, .capture, .archive, .slc] s (s.handOn l h w.todo none).flashKick.kick :=
      (((Touches.refl _ s).handOn rfl rfl rfl rfl).flashKick rfl rfl).kick rfl
    have whole : h.raws.take ((none : Option Nat).getD h.raws.length) = h.raws := List.take_length
    have line := onward.line
    refine ⟨_, ran, touches, onward.lines, ?_, ?_, ?_, fun hb hd => ?_, fun hb hd => ?_⟩
    · rw [line]
    · rw [line]
    · rw [line]
    · have fills := onward.fills hd
      rw [whole] at fills
      exact fill fills hb
    · have gone := onward.lost hb hd
      rw [whole] at gone
      exact gone

end Sys2Proof.Machine
end

section
/-! # O56: law L1, that no odometer decreases (R64) -/

namespace Sys2Proof.Machine

/-- No odometer of a line lies lower in `t` than in `s` (law L1). -/
def OdosGrow (s t : State) : Prop :=
  ∀ l : Fin 4, (s.trackers[l]).feed ≤ (t.trackers[l]).feed ∧ (s.trackers[l]).delivery ≤ (t.trackers[l]).delivery

/-- A count moves an odometer forward or not at all (R64). -/
theorem applyCount_grows (o : Nat) (base : Option Nat) (limit c : Nat) : o ≤ (applyCount o base limit c).1 := by
  unfold applyCount
  cases base with
  | none => exact Nat.le_refl o
  | some b =>
    dsimp only
    split
    · exact Nat.le_refl o
    · split
      · split
        · unfold advance
          split <;> exact Nat.le_add_right ..
        · exact Nat.le_refl o
      · exact Nat.le_refl o

theorem Tracker.counted_grows (a : Tracker) (sd : Side) (c : Nat) :
    a.feed ≤ (a.counted sd c).feed ∧ a.delivery ≤ (a.counted sd c).delivery := by
  cases sd with
  | feed => exact ⟨applyCount_grows .., Nat.le_refl _⟩
  | delivery => exact ⟨Nat.le_refl _, applyCount_grows ..⟩

namespace OdosGrow

/-! ## The relation -/

theorem refl (s : State) : OdosGrow s s := fun _ => ⟨Nat.le_refl _, Nat.le_refl _⟩

variable {s t u : State} (h : OdosGrow s t)

include h

theorem trans (k : OdosGrow t u) : OdosGrow s u := fun l => ⟨(h l).1.trans (k l).1, (h l).2.trans (k l).2⟩

/-- What leaves the trackers leaves the odometers. -/
theorem frame {ps : List Part} (k : Touches ps t u) (hp : ps.contains .trackers = false := by decide) : OdosGrow s u := by
  intro l
  rw [k.trackers_eq hp]
  exact h l

/-- A change of one line. -/
theorem line {l : Fin 4} (others : OtherTrackers l t u) (hf : (t.trackers[l]).feed ≤ (u.trackers[l]).feed)
    (hd : (t.trackers[l]).delivery ≤ (u.trackers[l]).delivery) : OdosGrow s u := by
  refine h.trans (fun k => ?_)
  by_cases hk : k = l
  · subst hk
    exact ⟨hf, hd⟩
  · rw [others k hk]
    exact ⟨Nat.le_refl _, Nat.le_refl _⟩

theorem updTracker {l : Fin 4} {f : Tracker → Tracker} (hf : ∀ a : Tracker, (f a).feed = a.feed ∧ (f a).delivery = a.delivery) :
    OdosGrow s (t.updTracker l f) := by
  obtain ⟨feed, delivery⟩ := hf t.trackers[l]
  refine h.line (OtherTrackers.updTracker t l f) ?_ ?_
  · rw [State.updTracker_at, feed]
  · rw [State.updTracker_at, delivery]

theorem marked {l : Fin 4} (others : OtherTrackers l t u) (k : Marked t.trackers[l] u.trackers[l]) : OdosGrow s u :=
  h.line others k.feed.ge k.delivery.ge

/-! ## The operations of an item -/

theorem runTasks {l : Fin 4} {b : Bool} {ks : List Task} : OdosGrow s (t.runTasks l b ks) := by
  obtain ⟨kept, others⟩ := t.runTasks_line l b ks
  exact h.line others kept.feed.ge kept.delivery.ge

theorem discontinuityIf {l : Fin 4} {c : Nat} : OdosGrow s (t.discontinuityIf l c) := by
  obtain ⟨marked, -, others, -⟩ := t.discontinuityIf_line (l := l) c
  exact h.marked others marked

theorem seqCheck {l : Fin 4} {q : Byte} : OdosGrow s (t.seqCheck l q) := by
  obtain ⟨marked, -, others, -⟩ := State.seqCheck_line t l q
  exact h.line others marked.feed.ge marked.delivery.ge

theorem takeCount {l : Fin 4} {sd : Side} {c : Nat} : OdosGrow s (t.takeCount l sd c) := by
  obtain ⟨marked, -, -, others, -⟩ := t.takeCount_line (l := l) sd c
  obtain ⟨feed, delivery⟩ := (t.trackers[l]).counted_grows sd c
  exact h.line others (marked.feed ▸ feed) (marked.delivery ▸ delivery)

theorem leaveWaiting {l : Fin 4} : OdosGrow s (t.leaveWaiting l) := by
  obtain ⟨marked, -, -, -, others, -⟩ := t.leaveWaiting_line (l := l)
  exact h.marked others marked

theorem restore {l : Fin 4} : OdosGrow s (t.restore l) := by
  obtain ⟨line, others, -⟩ := t.restore_line (l := l)
  exact h.line others (by rw [line]) (by rw [line])

theorem lineRestart {l : Fin 4} : OdosGrow s (t.lineRestart l) := by
  obtain ⟨line, others, -⟩ := t.lineRestart_line l
  exact h.line (fun k hk => (others k hk).1) (by rw [line]) (by rw [line])

theorem join {l : Fin 4} {it : Item} : OdosGrow s (t.join l it) := by
  have joined := t.join_joined l it
  exact h.line (fun k hk => (joined.lines k hk).1) (by rw [joined.line]) (by rw [joined.line])

theorem handOn {l : Fin 4} {g : Handing} {ks : List Task} {n : Option Nat} : OdosGrow s (t.handOn l g ks n) := by
  have readings := h.frame (t.handedReadings_touches g n)
  by_cases hn : n.getD g.raws.length < g.raws.length
  · rw [t.handOn_cut l g ks n hn]
    exact readings.updTracker (fun _ => ⟨rfl, rfl⟩)
  · rw [t.handOn_whole l g ks n (Nat.not_lt.mp hn)]
    exact readings.runTasks

theorem malformedHere {l : Fin 4} : OdosGrow s (t.malformedHere l) := by
  have counted : OdosGrow s (t.updPortCnt l (fun c => { c with malformed := bump c.malformed })) := h
  exact counted.discontinuityIf.runTasks

theorem endFrame {l : Fin 4} : OdosGrow s (t.endFrame l) := by
  unfold State.endFrame
  dsimp only
  split
  · exact h
  · split
    · exact h
    · split
      · exact OdosGrow.join (t := t.updPort l _) h
      · exact h

theorem takeItem {l : Fin 4} {it : Item} (hu : t.takeItem l it = some u) : OdosGrow s u := by
  unfold State.takeItem at hu
  dsimp only at hu
  split at hu
  · cases hu
  · split at hu
    · rw [Option.ite_none_right_eq_some, Option.some.injEq] at hu
      rw [← hu.2]
      exact h
    · rw [Option.ite_none_right_eq_some, Option.some.injEq] at hu
      rw [← hu.2]
      cases it with
      | restart => exact h
      | _ => exact h.join

theorem entryItem {l : Fin 4} {before count f d : Nat} {o : Orientation} {n : Name} : OdosGrow s (t.entryItem l before count f o d n) := by
  unfold State.entryItem
  split
  · exact h.malformedHere
  · exact h.takeCount.leaveWaiting.restore.runTasks

theorem tailItem {l : Fin 4} {before count f : Nat} : OdosGrow s (t.tailItem l before count f) := by
  unfold State.tailItem
  split
  · exact h.malformedHere
  · exact h.takeCount.leaveWaiting.runTasks

theorem cutItem {l : Fin 4} {before count c ahead : Nat} {ns : List Name} : OdosGrow s (t.cutItem l before count c ahead ns) := by
  unfold State.cutItem
  split
  · exact h.malformedHere
  · exact h.takeCount.leaveWaiting.runTasks

/-! ## Results of genealogy operations -/

theorem served {l : Fin 4} {g : Genealogy} {ns : List Notice} : OdosGrow s (t.served l g ns) :=
  h.frame (ps := [.table, .slc]) ((Touches.refl _ t).served rfl rfl)

theorem resumeItem {l : Fin 4} {w : Work} {ks : List Task} : OdosGrow s (t.resumeItem l w ks) := by
  have idle : OdosGrow s (t.updTracker l (fun a => { a with work := none })) := h.updTracker (fun _ => ⟨rfl, rfl⟩)
  unfold State.resumeItem
  exact idle.runTasks.updTracker (fun _ => ⟨rfl, rfl⟩)

theorem updSeg {l : Fin 4} {i : Nat} {f : Segment → Segment} : OdosGrow s (t.updSeg l i f) := h.updTracker (fun _ => ⟨rfl, rfl⟩)

theorem detach {l : Fin 4} {i : Nat} : OdosGrow s (t.detach l i) := (h.updSeg).updTracker (fun _ => ⟨rfl, rfl⟩)

/-! ## Requests -/

theorem accept {f : Frame} : OdosGrow s (t.accept f) := h.frame (ps := [.slc]) ((Touches.refl _ t).accept rfl)

theorem refuse {f : Frame} {c : Code} : OdosGrow s (t.refuse f c) := h.frame (ps := [.slc]) ((Touches.refl _ t).refuse rfl)

theorem flashKick : OdosGrow s t.flashKick := h.frame t.flashKick_touches

theorem defineLine {l : Fin 4} {d : LineDef} : OdosGrow s (t.defineLine l d) := by
  obtain ⟨line, -, others, -⟩ := t.defineLine_line l d
  obtain ⟨-, -, -, feed, delivery, -⟩ := (t.trackers[l]).redefine_kept d
  exact h.line (fun k hk => (others k hk).1) (by rw [line, feed]) (by rw [line, delivery])

theorem lineGo {l : Fin 4} : OdosGrow s (t.lineGo l) := by
  unfold State.lineGo
  split
  · exact h
  · split
    · split
      · exact h
      · split
        · exact h.defineLine.accept.flashKick
        · unfold State.resync
          split
          · exact h.restore.accept
          · exact h.accept
          · exact h.refuse
        · exact OdosGrow.runTasks (t := t.updSlc _) h
        · exact h
    · exact h

theorem withValue {α : Type} {v : Option α} {f : Frame} {act : α → State} (ha : ∀ a, OdosGrow s (act a)) :
    OdosGrow s (Machine.withValue v f t act) := by
  cases v with
  | none => exact h.refuse
  | some a => exact ha a

theorem zeroGroup {g : CounterGroup} : OdosGrow s (t.zeroGroup g) := by
  cases g with
  | line l => exact OdosGrow.updTracker (t := t.updPort l _) h (fun _ => ⟨rfl, rfl⟩)
  | _ => exact h

/-- A change of every line that leaves the odometers. -/
theorem mapped {f : Tracker → Tracker} (hu : u.trackers = t.trackers.map f)
    (hf : ∀ a : Tracker, (f a).feed = a.feed ∧ (f a).delivery = a.delivery) : OdosGrow s u := by
  refine h.trans (fun l => ?_)
  have at_ : u.trackers[l] = f t.trackers[l] := by
    rw [hu]
    exact Vector.getElem_map ..
  rw [at_, (hf _).1, (hf _).2]
  exact ⟨Nat.le_refl _, Nat.le_refl _⟩

/-! ## Start-up -/

theorem enterStarting : OdosGrow s t.enterStarting := h.mapped rfl (fun _ => ⟨rfl, rfl⟩)

theorem openLine {l : Fin 4} : OdosGrow s (t.openLine l) := by
  unfold State.openLine
  split
  · exact OdosGrow.updTracker (t := t.updPort l _) h (fun _ => ⟨rfl, rfl⟩)
  · exact h

theorem becomeReady {k : StartKind} {c : Option ColdCause} {n : Nat} : OdosGrow s (t.becomeReady k c n) := by
  have opened {v : State} (hv : OdosGrow s v) : OdosGrow s (four.foldl State.openLine v).flashKick :=
    (((hv.openLine).openLine).openLine).openLine.flashKick
  unfold State.becomeReady
  extract_lets note startUp slc ready noticed
  have grown : OdosGrow s ready := h
  refine opened ?_
  unfold noticed
  split
  · exact grown.frame (ps := [.slc]) ((Touches.refl _ ready).raise rfl)
  · exact grown

theorem resumeUpdates {page : ReadBack} {bad : List (Fin 4096)} {us : List ResumeUpdate} :
    OdosGrow s (us.foldl (State.resumeUpdate page bad) t) := by
  induction us generalizing t with
  | nil => exact h
  | cons x us ih => exact ih (h.frame (ps := [.startUp, .archive, .flash]) ((Touches.refl _ t).resumeUpdate rfl rfl rfl))

end OdosGrow

/-! ## Commands -/

/-- Whatever state the command leaves, its odometers have not decreased. -/
def Grows (s : State) (o : Host.Outcome State Fault Refusal) : Prop := ∀ t, o = .next t → OdosGrow s t

namespace Grows

variable {s t : State}

theorem next (h : OdosGrow s t) : Grows s (.next t) := fun _ hu => Host.Outcome.next.inj hu ▸ h

theorem still : Grows s (Machine.still s) := .next (.refl s)

theorem settle (h : OdosGrow s t) : Grows s (Machine.settle t) := .next (h.frame (ps := [.slc]) ((Touches.refl _ t).kick rfl))

theorem ite {c : Prop} [Decidable c] {a b : Host.Outcome State Fault Refusal} (ha : Grows s a) (hb : Grows s b) :
    Grows s (if c then a else b) := by
  split
  · exact ha
  · exact hb

theorem request {kind : Byte} {r : Req} {own : Frame → State → State} (h : ∀ f u, OdosGrow s u → OdosGrow s (own f u)) :
    Grows s (s.request kind r own) := by
  unfold State.request
  dsimp only
  split
  · exact still
  · next u hu =>
    have taken : OdosGrow s u := (OdosGrow.refl s).frame (ps := [.slc]) ((Touches.refl _ s).takeRequest hu rfl)
    split
    · exact settle taken.refuse
    · exact settle (h _ _ taken)

theorem lineRequest {kind : Byte} {r : Req} {own : Frame → State → State} (h : ∀ f u, OdosGrow s u → OdosGrow s (own f u)) :
    Grows s (s.lineRequest kind r own) := by
  unfold State.lineRequest
  split
  · exact ite (settle (OdosGrow.refl s).lineGo) still
  · exact request h

theorem item {l : Fin 4} {it : Item} {act : State → Host.Outcome State Fault Refusal} (h : ∀ u, OdosGrow s u → Grows s (act u)) :
    Grows s (match s.takeItem l it with | none => Machine.still s | some u => act u) := by
  cases hu : s.takeItem l it with
  | none => exact still
  | some u => exact h u ((OdosGrow.refl s).takeItem hu)

/-- A command that touches no tracker. -/
theorem untouched {c : Instr} (hc : (touched c).contains .trackers = false) : Grows s (exec c s) := by
  intro t ht
  obtain ⟨t', next, touches⟩ := exec_runs (s := s) c
  obtain rfl := Host.Outcome.next.inj (ht.symm.trans next)
  exact (OdosGrow.refl s).frame touches hc

end Grows

section
variable (s : State)

theorem execDefineLine_grows (r : Req) : Grows s (execDefineLine r s) :=
  .lineRequest fun f u h => h.withValue fun q => by
    split
    · exact h.refuse
    · exact OdosGrow.lineGo (t := u.handLine f _ _) h

theorem execResyncLine_grows (r : Req) : Grows s (execResyncLine r s) :=
  .lineRequest fun f u h => h.withValue fun l => OdosGrow.lineGo (t := u.handLine f l _) h

theorem execEmptyLine_grows (r : Req) : Grows s (execEmptyLine r s) :=
  .lineRequest fun f u h => h.withValue fun l => OdosGrow.lineGo (t := u.handLine f l _) h

theorem execReadCounters_grows (r : Req) : Grows s (execReadCounters r s) :=
  .request fun f u h => h.withValue fun q => by
    dsimp only
    refine OdosGrow.frame (ps := [.slc]) ?_ ((Touches.refl _ _).finish rfl)
    split
    · exact h.zeroGroup
    · exact h

theorem execClearAllData_grows (r : Req) : Grows s (execClearAllData r s) :=
  .request fun f u h => by
    have ended : OdosGrow s u.endRuns := h.frame (ps := [.channels, .archive, .slc]) ((Touches.refl _ u).endRuns rfl rfl rfl)
    refine OdosGrow.flashKick (OdosGrow.frame (ps := [.archive, .capture, .slc]) ?_ ((Touches.refl _ _).storeClear rfl rfl rfl))
    exact ended.mapped rfl (fun _ => ⟨rfl, rfl⟩)

theorem execIdleEvent_grows (l : Fin 4) : Grows s (execIdleEvent l s) := by
  have h : OdosGrow s (s.updPort l (fun p => { p with idleArmed := false, cuts := [] })) := .refl s
  unfold execIdleEvent
  refine .ite .still ?_
  dsimp only
  split
  · exact .settle h.endFrame
  · exact .settle h
  · exact .settle (t := State.updPort _ l _) h

theorem execSilent_grows (l : Fin 4) : Grows s (execSilent l s) := by
  have h : OdosGrow s (s.updTracker l (fun t => { t with silent := true, timer := false })) := (OdosGrow.refl s).updTracker (fun _ => ⟨rfl, rfl⟩)
  unfold execSilent
  refine .ite (.settle ?_) .still
  split
  · exact h.frame (ps := [.slc]) ((Touches.refl _ _).raiseHeld rfl)
  · exact h.frame (ps := [.slc]) ((Touches.refl _ _).raise rfl)

/-! ## Items -/

theorem execPosition_grows (l : Fin 4) (q : Byte) (f d t : BitVec 32) : Grows s (execPosition l q f d t s) :=
  .item fun _ h => .settle h.seqCheck.takeCount.takeCount.leaveWaiting.runTasks

theorem execReadings_grows (l : Fin 4) (q g : Byte) (f : BitVec 32) (st : BitVec 16) (rs : Raws) (t : BitVec 32) :
    Grows s (execReadings l q g f st rs t s) := by
  unfold execReadings
  dsimp only
  split
  · exact .settle (OdosGrow.refl s).handOn.flashKick
  · refine .item fun u h => ?_
    split
    · exact .settle (OdosGrow.runTasks (t := State.updCaptureCnt _ _) h.seqCheck)
    · exact .settle h.seqCheck.takeCount.leaveWaiting.handOn.flashKick

theorem execEntry_grows (l : Fin 4) (q : Byte) (f : BitVec 32) (o : Orientation) (d : BitVec 32) (n : Name) : Grows s (execEntry l q f o d n s) :=
  .item fun _ h => .settle h.seqCheck.entryItem

theorem execTail_grows (l : Fin 4) (q : Byte) (f : BitVec 32) : Grows s (execTail l q f s) :=
  .item fun _ h => .settle h.seqCheck.tailItem

theorem execCut_grows (l : Fin 4) (q : Byte) (c n : BitVec 32) (ns : List Name) : Grows s (execCut l q c n ns s) :=
  .item fun _ h => .settle h.seqCheck.cutItem

theorem execMalformedItem_grows (l : Fin 4) (k q : Byte) : Grows s (execMalformedItem l k q s) := by
  refine .item fun u h => .settle (OdosGrow.runTasks ?_)
  split
  · exact h.seqCheck
  · exact h.seqCheck.discontinuityIf

theorem execRestartMark_grows (l : Fin 4) : Grows s (execRestartMark l s) :=
  .item fun _ h => .settle (h.lineRestart.updTracker (fun a => by rw [Tracker.left_eq]; exact ⟨rfl, rfl⟩)).flashKick

theorem refuseEvent_grows {t : State} (h : OdosGrow s t) {l : Fin 4} {f : Frame} {c : Code} : OdosGrow s (t.refuseEvent l f c) :=
  (h.discontinuityIf.updTracker (fun a => by rw [Tracker.left_eq]; exact ⟨rfl, rfl⟩)).refuse

theorem execInjectedEvent_grows (l : Fin 4) : Grows s (execInjectedEvent l s) := by
  have h (f : Frame) : OdosGrow s (s.updSlc (fun c => { c with unit := .event f l })) := .refl s
  unfold execInjectedEvent
  refine .ite .still ?_
  dsimp only
  split
  · refine .ite .still ?_
    split
    · split
      · exact .settle (refuseEvent_grows s (h _))
      · exact .settle (h _).restore.runTasks
    · split
      · exact .settle (refuseEvent_grows s (h _))
      · exact .settle (h _).runTasks
    · split
      · exact .settle (refuseEvent_grows s (h _))
      · exact .settle (h _).runTasks
  · exact .still

/-! ## Results of genealogy operations -/

theorem execEnterCoil_grows (l : Fin 4) : Grows s (execEnterCoil l s) := by
  have h := OdosGrow.refl s
  unfold execEnterCoil
  split
  · split
    · refine .settle (OdosGrow.resumeItem ?_)
      split
      · exact h.served.updSeg
      · exact h.served.detach
    · exact .still
  · exact .still

theorem execCloseEntry_grows (l : Fin 4) : Grows s (execCloseEntry l s) := by
  have h := OdosGrow.refl s
  unfold execCloseEntry
  split
  · split
    · dsimp only
      split
      · exact .settle h.served.resumeItem
      · exact .settle h.served.updSeg.resumeItem
      · exact .settle h.served.detach.resumeItem
    · exact .still
  · exact .still

theorem execMakeChild_grows (l : Fin 4) : Grows s (execMakeChild l s) := by
  have h := OdosGrow.refl s
  unfold execMakeChild
  split
  · split
    · refine .settle (OdosGrow.resumeItem ?_)
      split
      · exact h.served
      · exact h.served.updTracker (fun _ => ⟨rfl, rfl⟩)
    · exact .still
  · exact .still

theorem execFinalizeLinks_grows (l : Fin 4) : Grows s (execFinalizeLinks l s) := by
  have h := OdosGrow.refl s
  unfold execFinalizeLinks
  split
  · split
    · refine .settle (OdosGrow.resumeItem ?_)
      split
      · exact h.served.updSeg
      · exact h.served.updSeg.detach
    · exact .still
  · exact .still

theorem execDropPending_grows (l : Fin 4) : Grows s (execDropPending l s) := by
  have h := OdosGrow.refl s
  unfold execDropPending
  split
  · split
    · refine .settle (OdosGrow.resumeItem ?_)
      split
      · exact h.served
      · exact h.served.detach
    · exact .still
  · exact .still

/-! ## Start-up -/

theorem execResetAsserted_grows (n : Nat) : Grows s (execResetAsserted n s) := by
  have lost : OdosGrow s (State.enterStarting { s with table := s.cutOperation n }) :=
    OdosGrow.enterStarting (t := { s with table := s.cutOperation n }) (.refl s)
  exact .ite .still (.next lost)

theorem execPowerOn_grows (b : Bool) (p : Fin 4) : Grows s (execPowerOn b p s) := by
  have lost : OdosGrow s s.enterStarting := (OdosGrow.refl s).enterStarting
  exact .ite (.next lost) (.next lost)

theorem execResume_grows (p : ReadBack) (bad : List (Fin 4096)) (k : Option Nat) : Grows s (execResume p bad k s) := by
  have h := OdosGrow.refl s
  unfold execResume
  split
  · split
    · exact .settle h.resumeUpdates
    · exact .settle (h.resumeUpdates.frame (ps := [.capture]) ((Touches.refl _ _).marksFromIndex rfl)).becomeReady
  · exact .still

end

/-- CLEAR ALL DATA at a tracker leaves the other lines (R93). -/
theorem execTrackerClear_others {s t : State} {k : Fin 4} (h : exec (.trackerClear k) s = .next t) : OtherTrackers k s t := by
  have arm : exec (.trackerClear k) s = execTrackerClear k s := rfl
  rw [arm] at h
  unfold execTrackerClear at h
  dsimp only at h
  split at h
  · cases h
    intro j hj
    rw [State.kick_trackers, ((Touches.refl [.slc] _).clearAnswer rfl).trackers_eq]
    exact OtherTrackers.updTracker s k _ j hj
  · cases h
    exact OtherTrackers.refl k s

/-- A command other than a cold start and the clearing of a tracker. -/
theorem exec_grows (s : State) (c : Instr) (hc : ∀ bad, c ≠ .coldStart bad) (hk : ∀ k, c ≠ .trackerClear k) : Grows s (exec c s) := by
  cases c with
  | coldStart bad => exact absurd rfl (hc bad)
  | trackerClear k => exact absurd rfl (hk k)
  | defineLine r => exact execDefineLine_grows s r
  | resyncLine r => exact execResyncLine_grows s r
  | emptyLine r => exact execEmptyLine_grows s r
  | readCounters r => exact execReadCounters_grows s r
  | clearAllData r => exact execClearAllData_grows s r
  | idleEvent l => exact execIdleEvent_grows s l
  | silent l => exact execSilent_grows s l
  | position l q f d t => exact execPosition_grows s l q f d t
  | readings l q g f st rs t => exact execReadings_grows s l q g f st rs t
  | entry l q f o d n => exact execEntry_grows s l q f o d n
  | tail l q f => exact execTail_grows s l q f
  | cut l q c n ns => exact execCut_grows s l q c n ns
  | malformedItem l k q => exact execMalformedItem_grows s l k q
  | restartMark l => exact execRestartMark_grows s l
  | injectedEvent l => exact execInjectedEvent_grows s l
  | enterCoil l => exact execEnterCoil_grows s l
  | closeEntry l => exact execCloseEntry_grows s l
  | makeChild l => exact execMakeChild_grows s l
  | finalizeLinks l => exact execFinalizeLinks_grows s l
  | dropPending l => exact execDropPending_grows s l
  | resetAsserted n => exact execResetAsserted_grows s n
  | powerOn b p => exact execPowerOn_grows s b p
  | resume p bad k => exact execResume_grows s p bad k
  | _ => exact .untouched rfl

/-- Settles O56: each operation on a line keeps or raises its odometers, and every command but the two excepted is a chain of such. -/
theorem odometersNeverDecrease : Obligations.OdometersNeverDecrease := by
  intro c s t l ht hc hk
  by_cases clears : ∃ k, c = .trackerClear k
  · obtain ⟨k, rfl⟩ := clears
    have other : l ≠ k := fun e => hk (e ▸ rfl)
    rw [execTrackerClear_others ht l other]
    exact ⟨Nat.le_refl _, Nat.le_refl _⟩
  · exact exec_grows s c hc (fun k e => clears ⟨k, e⟩) t ht l

end Sys2Proof.Machine
end

section
/-! # What the other blocks do to the archive: capture feeds its write queue, a run's work asks for reads and withdraws them -/

namespace Sys2Proof.Machine

/-! ## One field of the state after a shared operation -/

theorem State.raiseAll_archive (s : State) (ns : List Notice) : (s.raiseAll ns).archive = s.archive :=
  ((Touches.refl [.slc] s).raiseAll rfl).archive_eq

@[simp] theorem State.withArch_archive (s : State) (r : Arch) : (s.withArch r).archive = r.1 := State.raiseAll_archive _ _

@[simp] theorem State.flashKick_archive (s : State) : s.flashKick.archive = s.archive.choose.1 := s.withArch_archive _

@[simp] theorem State.clearAnswer_archive (s : State) : s.clearAnswer.archive = s.archive :=
  ((Touches.refl [.slc] s).clearAnswer rfl).archive_eq

theorem Touches.widen {ps qs : List Part} {s t : State} (h : Touches ps s t) (hs : ps.all qs.contains = true := by decide) : Touches qs s t :=
  h.mono fun p hp => List.all_eq_true.mp hs p (List.contains_iff_mem.mp hp)

/-! ## Capture (R99 to R101) -/

/-- Capture changes nothing of the archive but the block sequence, the write queue with its occupancy, and the count of blocks dropped. -/
def Fed (a b : Archive) : Prop :=
  b = { a with nextBlock := b.nextBlock, queue := b.queue, occupancy := b.occupancy, cnt := { a.cnt with dropped := b.cnt.dropped } }

namespace Fed

theorem refl (a : Archive) : Fed a a := rfl

theorem trans {a b c : Archive} (h : Fed a b) (k : Fed b c) : Fed a c := by
  unfold Fed at *
  rw [k, h]

variable (s : State)

theorem handBlock (b : Block) : Fed s.archive (s.handBlock b).archive := by
  unfold State.handBlock
  dsimp only
  split
  · rfl
  · split
    · rw [State.raise_archive]
      rfl
    · rfl

theorem closeSlot (i : Fin 64) : Fed s.archive (s.closeSlot i).archive := by
  unfold State.closeSlot
  dsimp only
  split
  · rfl
  · split
    · rfl
    · exact trans (b := { s.archive with nextBlock := s.archive.nextBlock + 1 }) rfl (handBlock _ _)

theorem closeSlots (is : List (Fin 64)) : Fed s.archive (s.closeSlots is).archive := by
  unfold State.closeSlots
  induction is generalizing s with
  | nil => rfl
  | cons i is ih => exact (closeSlot s i).trans (ih _)

theorem takeReading (i : Fin 64) (x : Nat) (raw : BitVec 16) (suspect : Bool) : Fed s.archive (s.takeReading i x raw suspect).archive := by
  unfold State.takeReading
  extract_lets sl mark
  split
  · rfl
  · dsimp only
    split
    · rfl
    · split
      · exact closeSlot (s.updCaptureCnt _) i
      · split
        · exact closeSlot ((s.updCaptureCnt _).updSlot i _) i
        · rfl

theorem handReadings (i : Fin 64) (dseq : Nat) (suspect : Bool) (stride x : Nat) (raws : List (BitVec 16)) :
    Fed s.archive (s.handReadings i dseq suspect stride x raws).archive := by
  induction raws generalizing s x with
  | nil => rfl
  | cons r rs ih =>
    refine trans (b := (s.handReading i dseq x r suspect).archive) ?_ (ih _ _)
    unfold State.handReading
    dsimp only
    split
    · rfl
    · split
      · rfl
      · exact takeReading ..

end Fed

/-! ## Runs (R114, R138, R139, R146) -/

/-- The work of a run changes nothing of the archive but the read requests and whether a READ in progress is wanted; the flash stays idle. -/
structure Asked (a b : Archive) : Prop where
  same : b = { a with requests := b.requests, op := b.op }
  idle : a.op = none → b.op = none

namespace Asked

theorem refl (a : Archive) : Asked a a := ⟨rfl, id⟩

theorem trans {a b c : Archive} (h : Asked a b) (k : Asked b c) : Asked a c where
  same := by
    rw [k.same, h.same]
  idle := k.idle ∘ h.idle

/-- A part of the archive other than the requests and the operation in progress. -/
theorem kept {α : Type} {a b : Archive} (h : Asked a b) (f : Archive → α) (hf : ∀ q o, f { a with requests := q, op := o } = f a := by intros; rfl) :
    f b = f a := by
  rw [h.same, hf]

theorem withdraw (a : Archive) (ch : Fin 4) (unwant : Bool) : Asked a (a.withdraw ch unwant) where
  same := rfl
  idle h := by
    unfold Archive.withdraw
    rw [h]

theorem requests (a : Archive) (q : List ReadReq) : Asked a { a with requests := q } := ⟨rfl, id⟩

variable {s u : State} {ch : Fin 4} {r : Run} {p : Play}

theorem fault (s : State) (ch : Fin 4) (pos win : Nat) : Asked s.archive (s.fault ch pos win).archive := by
  unfold State.fault
  split
  · exact refl _
  · split
    · exact refl _
    · dsimp only
      split
      · exact refl _
      · split
        · split
          · exact withdraw ..
          · exact refl _
        · exact refl _

theorem onOutcome (s : State) (ch : Fin 4) (e : Entry) (o : ReadOutcome) : Asked s.archive (s.onOutcome ch e o).archive := by
  unfold State.onOutcome
  split
  · exact refl _
  · split
    · exact refl _
    · split
      · exact refl _
      · split
        · exact refl _
        · split
          · exact refl _
          · split
            · exact refl _
            · exact fault (s.updPlay ch _) ..
          · split
            · exact refl _
            · exact refl _

theorem planDone (s : State) (ch : Fin 4) (w : Window) : Asked s.archive (s.planDone ch w).archive := by
  unfold State.planDone
  dsimp only
  split
  · exact refl _
  · exact fault (s.updPlay ch _) ..

theorem beginWindow (h : s.beginWindow ch r p = some u) : Asked s.archive u.archive := by
  unfold State.beginWindow at h
  dsimp only at h
  split at h
  · cases h
  · split at h
    · cases h
      exact planDone (s.updPlay ch _) ..
    · cases h
      exact refl _

theorem ask {f : Fetch} {t : Trace} {e : Entry} {es : List Entry} (h : State.fetchStep.ask s ch f t e es = some u) :
    Asked s.archive u.archive := by
  unfold State.fetchStep.ask at h
  split at h
  · cases h
  · cases h
    exact requests ..

theorem spanRead {f : Fetch} (h : State.fetchStep.spanRead s ch f = some u) : Asked s.archive u.archive := by
  unfold State.fetchStep.spanRead at h
  split at h
  · cases h
  · cases h
    exact refl _

theorem fetchStep (h : s.fetchStep ch r p = some u) : Asked s.archive u.archive := by
  unfold State.fetchStep at h
  split at h
  · split at h
    · cases h
    · cases h
      exact refl _
  · split at h
    · split at h
      · dsimp only at h
        split at h <;> cases h <;> exact refl _
      · split at h
        · split at h <;> cases h <;> exact refl _
        · cases h
          exact refl _
    · split at h
      · split at h
        · cases h
          exact refl _
        · exact spanRead h
      · split at h
        · split at h
          · cases h
            exact refl _
          · exact ask h
        · exact ask h
      · exact spanRead h

theorem playGo (n : Nat) (s : State) : Asked s.archive (State.playGo ch n s).archive := by
  induction n generalizing s with
  | zero => exact refl _
  | succ n ih =>
    unfold State.playGo
    split
    · exact refl _
    · split
      · exact refl _
      · split
        · exact refl _
        · split
          · next hb => exact (beginWindow hb).trans (ih _)
          · split
            · next hf => exact (fetchStep hf).trans (ih _)
            · exact refl _

theorem channelGo (s : State) (ch : Fin 4) : Asked s.archive (s.channelGo ch).archive := by
  unfold State.channelGo
  split
  · exact refl _
  · split
    · exact refl _
    · split
      · exact playGo 1024 s
      · exact refl _

theorem deliver (s : State) (ch : Fin 4) (a : PlanAnswer) : Asked s.archive (s.deliver ch a).archive := by
  unfold State.deliver
  split
  · exact refl _
  · split
    · unfold State.planOn
      split
      · split
        · exact refl _
        · dsimp only
          split
          · exact planDone ..
          · exact refl _
      · exact refl _
    · exact refl _

theorem deliverKept (s : State) (ch : Fin 4) : Asked s.archive (s.deliverKept ch).archive := by
  unfold State.deliverKept
  split
  · exact refl _
  · exact deliver (s.updRun ch _) ..

theorem endRuns (s : State) : Asked s.archive s.endRuns.archive :=
  (withdraw s.archive 0 true).trans ((withdraw _ 1 true).trans ((withdraw _ 2 true).trans (withdraw _ 3 true)))

end Asked

/-! ## Failed flash operations (R106, R108) -/

/-- The archive when a PROGRAM has failed: the group at the write point is FAILING, and the failure is counted (R108). -/
def Archive.pageLost (a : Archive) : Archive :=
  { a.setGroup a.group .failing with cnt := { a.cnt with programFailures := bump a.cnt.programFailures } }

/-- A PROGRAM that failed: the write point advances, and the block stays at the front, is lost, or is dropped (R108, R109). -/
theorem Archive.programFailed_archive (a : Archive) (b : Block) : (a.programFailed b).1 =
    let c : Archive := { a.pageLost.advance.1 with op := none }
    if a.headFailed then { c.popHead with cnt := { c.cnt with lost := bump c.cnt.lost } }
    else if c.exhausted then { c.popHead with cnt := { c.cnt with dropped := bump c.cnt.dropped } }
    else { c with headFailed := true } := by
  unfold programFailed
  dsimp only
  rw [apply_ite Prod.fst, apply_ite Prod.fst]
  rfl

/-- The archive when the ERASE of a group has failed: the group is BAD and no longer marked, and the failure is counted (R106). -/
def Archive.groupLost (a : Archive) (g : Nat) : Archive :=
  { ({ a with op := none, marks := a.marks.filter (· != g) } : Archive).setGroup g .bad with
    cnt := { a.cnt with eraseFailures := bump a.cnt.eraseFailures } }

/-- An ERASE that failed: the write point leaves the group, and EXHAUSTED is tested (R105, R106, R109). -/
theorem Archive.erased_failed (a : Archive) (g : Nat) : (a.erased g .failed).1 =
    ((if a.group = g then (a.groupLost g).advance else (a.groupLost g, [])).1).testExhausted.1 := rfl

/-! ## The write-point check (R120) -/

/-- The page at the write point as a resume reads it (R120). -/
def State.pointImage (s : State) (page : ReadBack) : List Byte :=
  match page with
  | .asStored => readPage s.flash (groupPages * s.archive.group + s.archive.page)
  | .bytes b => b

/-- The write-point check by its two outcomes (R120). -/
theorem State.checkPoint_eq (s : State) (page : ReadBack) : s.checkPoint page =
    if s.archive.pageReady && !(s.pointImage page).all (· == erasedByte) then
      { s with archive := s.archive.stepPoint.1, startUp := { s.startUp with checked := true, passed := s.startUp.passed + 1 } }
    else { s with startUp := { s.startUp with checked := true } } := by
  cases page <;> rfl

end Sys2Proof.Machine
end

section
/-! # O57: every step keeps the flash array in canonical form and the group table in order (R104, R106, R107) -/

namespace Sys2Proof.Machine

/-! ## The group table under the archive's operations -/

namespace Archive
variable {a : Archive} (h : GroupsInv a)
include h

theorem advance_groupsInv : GroupsInv a.advance.1 := (place_worn h _).1

theorem stepPoint_groupsInv : GroupsInv a.stepPoint.1 := by
  unfold stepPoint
  split
  · exact advance_groupsInv (setGroup_groupsInv h a.group .full)
  · exact setGroup_groupsInv h a.group .filling

theorem writeStep_groupsInv : GroupsInv a.writeStep := by
  unfold writeStep
  split
  · exact h
  · split
    · exact h
    · exact h

theorem startRead_groupsInv : GroupsInv a.startRead := by
  unfold startRead
  split
  · exact h
  · exact h

theorem eraseAhead_groupsInv : GroupsInv a.eraseAhead.1 := by
  have walked := (ring_worn groupCount h ((a.group + 1) % groupCount)).1
  unfold eraseAhead
  split
  · dsimp only
    split
    · exact walked
    · split
      · exact walked
      · exact walked
  · exact h

/-- The choice of the flash operation (R110) keeps the group table. -/
theorem choose_groupsInv : GroupsInv a.choose.1 := by
  unfold choose
  dsimp only
  split
  · exact h
  · split
    · exact writeStep_groupsInv h
    · split
      · exact writeStep_groupsInv h
      · split
        · exact startRead_groupsInv h
        · split
          · exact writeStep_groupsInv h
          · split
            · exact eraseAhead_groupsInv h
            · exact h

theorem programmed_groupsInv (b : Block) (indexed : Bool) : GroupsInv (a.programmed b indexed).1 := by
  unfold programmed
  exact stepPoint_groupsInv h

theorem programFailed_groupsInv (b : Block) : GroupsInv (a.programFailed b).1 := by
  have failing : GroupsInv a.pageLost := setGroup_groupsInv h a.group .failing
  have moved : GroupsInv a.pageLost.advance.1 := advance_groupsInv failing
  rw [programFailed_archive]
  dsimp only
  split
  · exact moved
  · split
    · exact moved
    · exact moved

/-- The completion of an ERASE (R106) keeps the group table. -/
theorem erased_groupsInv (g : Nat) (r : FlashEnd) : GroupsInv (a.erased g r).1 := by
  cases r with
  | good => exact setGroup_groupsInv (a := { a with op := none, marks := _ }) h g .erased
  | failed =>
    have bad : GroupsInv (a.groupLost g) := setGroup_groupsInv (a := { a with op := none, marks := _ }) h g .bad
    rw [erased_failed]
    refine (testExhausted_worn ?_).1
    split
    · exact advance_groupsInv bad
    · exact bad

theorem cleared_groupsInv : GroupsInv a.cleared.1 := by
  refine (place_worn ?_ 0).1
  exact List.Pairwise.filter _ h

end Archive

/-- The group table a cold start builds names each group once (R196). -/
theorem Archive.rebuilt_groupsInv (bad : List (Fin 4096)) : GroupsInv (Archive.rebuilt bad) := by
  refine (place_worn ?_ 0).1
  unfold GroupsInv
  dsimp only
  split
  · exact List.Pairwise.nil
  · refine List.Pairwise.filterMap _ ?_ List.pairwise_lt_range
    intro g k hgk p hp q hq
    rw [Option.ite_none_right_eq_some, Option.some.injEq] at hp hq
    rw [← hp.2, ← hq.2]
    exact hgk

/-! ## The group table of the state -/

/-- The archive's group table names each group once, by rising number. -/
def GroupsSound (s : State) : Prop := GroupsInv s.archive

namespace GroupsSound
variable {s t : State} (h : GroupsSound s)
include h

/-- What leaves the group table leaves it sound. -/
theorem of_groups (e : t.archive.groups = s.archive.groups) : GroupsSound t := by
  unfold GroupsSound GroupsInv
  rw [e]
  exact h

theorem frame {ps : List Part} (k : Touches ps s t) (hp : ps.contains .archive = false := by decide) : GroupsSound t :=
  h.of_groups (by rw [k.archive_eq hp])

theorem fed (k : Fed s.archive t.archive) : GroupsSound t := h.of_groups (by rw [k])

theorem asked (k : Asked s.archive t.archive) : GroupsSound t := h.of_groups (by rw [k.same])

theorem flashKick : GroupsSound s.flashKick := by
  unfold GroupsSound
  rw [State.flashKick_archive]
  exact Archive.choose_groupsInv h

theorem accept {f : Frame} : GroupsSound (s.accept f) := h

theorem storeClear : GroupsSound s.storeClear := by
  unfold State.storeClear
  split
  · unfold GroupsSound
    rw [State.withArch_archive]
    exact Archive.cleared_groupsInv h
  · exact h

/-- What follows the end of a flash operation (R121, R110). -/
theorem flashOver : GroupsSound s.storeClear.clearAnswer.flashKick :=
  (h.storeClear.of_groups (by rw [State.clearAnswer_archive])).flashKick

theorem withValue {α : Type} {v : Option α} {f : Frame} {act : α → State} (ha : ∀ a, GroupsSound (act a)) :
    GroupsSound (Machine.withValue v f s act) := by
  cases v with
  | none => exact h
  | some a => exact ha a

theorem closeSlots {is : List (Fin 64)} : GroupsSound (s.closeSlots is) := h.fed (.closeSlots s is)

theorem defineGauge {g : GaugeForm} : GroupsSound (s.defineGauge g) := by
  have closed : GroupsSound (s.closeSlot g.slot) := h.fed (.closeSlot s g.slot)
  unfold State.defineGauge
  dsimp only
  split
  · exact closed
  · exact closed

theorem defineLine {l : Fin 4} {d : LineDef} : GroupsSound (s.defineLine l d) := by
  unfold State.defineLine
  extract_lets old redefined
  have sound : GroupsSound redefined := h
  split
  · exact closeSlots (s := (redefined.endCondition _).endCondition _) sound
  · exact sound

theorem runTasks {l : Fin 4} {b : Bool} {ks : List Task} : GroupsSound (s.runTasks l b ks) :=
  h.frame (ps := [.trackers, .slc]) ((Touches.refl _ s).runTasks rfl rfl)

theorem lineGo {l : Fin 4} : GroupsSound (s.lineGo l) := by
  unfold State.lineGo
  split
  · exact h
  · split
    · split
      · exact h
      · split
        · exact h.defineLine.accept.flashKick
        · exact h.frame (ps := [.trackers, .slc]) ((Touches.refl _ s).resync rfl rfl)
        · exact runTasks (s := s.updSlc _) h
        · exact h
    · exact h

theorem handOn {l : Fin 4} {g : Handing} {ks : List Task} {n : Option Nat} : GroupsSound (s.handOn l g ks n) := by
  have fed := h.fed (Fed.handReadings s g.slot g.dseq g.suspect g.stride g.coord (g.raws.take (n.getD g.raws.length)))
  unfold State.handOn
  dsimp only
  split
  · exact fed.runTasks
  · exact fed

theorem takeItem {l : Fin 4} {it : Item} (hu : s.takeItem l it = some t) : GroupsSound t :=
  h.frame (ps := [.ports, .trackers, .slc]) ((Touches.refl _ s).takeItem hu rfl rfl rfl)

theorem seqCheck {l : Fin 4} {q : Byte} : GroupsSound (s.seqCheck l q) :=
  h.frame (ps := [.ports, .trackers, .slc]) ((Touches.refl _ s).seqCheck rfl rfl rfl)

theorem readingsItem {l : Fin 4} {before : Nat} {i : Fin 64} {q : Byte} {f : StationFrame} {first stride : Nat} {raws : List (BitVec 16)}
    {n : Option Nat} : GroupsSound (s.readingsItem l before i q f first stride raws n) :=
  (h.frame (ps := [.trackers, .slc]) (((Touches.refl _ s).takeCount rfl rfl).leaveWaiting rfl rfl)).handOn

theorem launch {f : Frame} {r : Run} : GroupsSound (s.launch f r) :=
  (h.asked (t := State.channelGo _ _) (.channelGo (State.finish (s.updChannel _ _) _ _) _)).flashKick

theorem runGo {start : State → Frame → RunTarget → Clamp → State} (hs : ∀ f g c, GroupsSound (start s f g c)) :
    GroupsSound (State.runGo start s) := by
  unfold State.runGo
  split
  · dsimp only
    split
    · exact h
    · exact hs ..
  · exact h

theorem ownPlayback {f : Frame} : GroupsSound (s.ownPlayback f) := by
  unfold State.ownPlayback
  dsimp only
  split
  · exact h
  · split
    · exact h
    · split
      · exact h
      · split
        · exact h.launch
        · split
          · exact h
          · exact h

theorem enterStarting : GroupsSound s.enterStarting := h

theorem openLines : GroupsSound (four.foldl State.openLine s) :=
  h.frame (ps := [.ports, .trackers])
    (((((Touches.refl _ s).openLine rfl rfl).openLine rfl rfl).openLine rfl rfl).openLine rfl rfl)

theorem becomeReady {k : StartKind} {c : Option ColdCause} {n : Nat} : GroupsSound (s.becomeReady k c n) := by
  unfold State.becomeReady
  extract_lets note startUp slc ready noticed
  have sound : GroupsSound ready := h
  refine GroupsSound.flashKick (GroupsSound.openLines ?_)
  unfold noticed
  split
  · exact sound.frame (ps := [.slc]) ((Touches.refl _ ready).raise rfl)
  · exact sound

theorem resumeUpdate {page : ReadBack} {failing : List (Fin 4096)} (u : ResumeUpdate) : GroupsSound (State.resumeUpdate page failing s u) := by
  cases u with
  | check =>
    show GroupsSound (s.checkPoint page)
    rw [State.checkPoint_eq]
    split
    · exact Archive.stepPoint_groupsInv h
    · exact h
  | again g => exact h
  | erased g => exact Archive.erased_groupsInv h g _
  | occupancy => exact h

theorem resumeUpdates {page : ReadBack} {failing : List (Fin 4096)} {us : List ResumeUpdate} :
    GroupsSound (us.foldl (State.resumeUpdate page failing) s) := by
  induction us generalizing s with
  | nil => exact h
  | cons u us ih => exact ih (h.resumeUpdate u)

end GroupsSound

/-! ## Commands and the group table -/

/-- Whatever state the command leaves, its group table is sound. -/
def LeavesGroups (o : Host.Outcome State Fault Refusal) : Prop := ∀ t, o = .next t → GroupsSound t

namespace LeavesGroups

theorem next {t : State} (h : GroupsSound t) : LeavesGroups (.next t) := fun _ hu => Host.Outcome.next.inj hu ▸ h

theorem settle {t : State} (h : GroupsSound t) : LeavesGroups (Machine.settle t) := .next (h.of_groups (by rw [State.kick_archive]))

theorem ite {c : Prop} [Decidable c] {a b : Host.Outcome State Fault Refusal} (ha : LeavesGroups a) (hb : LeavesGroups b) :
    LeavesGroups (if c then a else b) := by
  split
  · exact ha
  · exact hb

variable {s : State} (h : GroupsSound s)
include h

theorem still : LeavesGroups (Machine.still s) := .next h

theorem request {kind : Byte} {r : Req} {own : Frame → State → State} (ho : ∀ f u, GroupsSound u → GroupsSound (own f u)) :
    LeavesGroups (s.request kind r own) := by
  unfold State.request
  dsimp only
  split
  · exact still h
  · next u hu =>
    have taken : GroupsSound u := h.frame (ps := [.slc]) ((Touches.refl _ s).takeRequest hu rfl)
    split
    · exact settle taken
    · exact settle (ho _ _ taken)

theorem lineRequest {kind : Byte} {r : Req} {own : Frame → State → State} (ho : ∀ f u, GroupsSound u → GroupsSound (own f u)) :
    LeavesGroups (s.lineRequest kind r own) := by
  unfold State.lineRequest
  split
  · exact ite (settle h.lineGo) (still h)
  · exact request h ho

theorem tableRequest {kind : Byte} {r : Req} {go : State → State} {own : Frame → State → State}
    (hg : ∀ u, GroupsSound u → GroupsSound (go u)) (ho : ∀ f u, GroupsSound u → GroupsSound (own f u)) :
    LeavesGroups (s.tableRequest kind r go own) := by
  unfold State.tableRequest
  split
  · exact ite (settle (hg _ h)) (still h)
  · exact request h (fun f u hu => hg _ (ho f u hu))

/-- A command that does not touch the archive. -/
theorem untouched {c : Instr} (hc : (touched c).contains .archive = false) : LeavesGroups (exec c s) := by
  obtain ⟨t, next, touches⟩ := exec_runs (s := s) c
  rw [next]
  exact .next (h.frame touches hc)

/-! ### Requests -/

theorem defineLine (r : Req) : LeavesGroups (execDefineLine r s) :=
  .lineRequest h fun f u hu => hu.withValue fun q => by
    split
    · exact hu
    · exact GroupsSound.lineGo (s := u.handLine f _ _) hu

theorem resyncLine (r : Req) : LeavesGroups (execResyncLine r s) :=
  .lineRequest h fun f u hu => hu.withValue fun l => GroupsSound.lineGo (s := u.handLine f l _) hu

theorem emptyLine (r : Req) : LeavesGroups (execEmptyLine r s) :=
  .lineRequest h fun f u hu => hu.withValue fun l => GroupsSound.lineGo (s := u.handLine f l _) hu

theorem defineGauge (r : Req) : LeavesGroups (execDefineGauge r s) :=
  .request h fun f u hu => hu.withValue fun q => by
    split
    · exact hu
    · exact hu.defineGauge.accept.flashKick

theorem closeBlocks (r : Req) : LeavesGroups (execCloseBlocks r s) :=
  .request h fun f u hu => by
    split
    · exact hu.closeSlots.accept.flashKick
    · exact hu.withValue fun l => hu.closeSlots.accept.flashKick

theorem runPlayback (r : Req) : LeavesGroups (execRunPlayback r s) :=
  .tableRequest h (fun _ hu => hu.runGo fun _ _ _ => hu.launch) fun _ _ hu => hu.ownPlayback

theorem walkRequest {kind : Byte} {r : Req} (up : Bool) :
    LeavesGroups (s.tableRequest kind r (State.runGo (fun s f => s.startWalk f up)) State.ownWalk) :=
  .tableRequest h (fun _ hu => hu.runGo fun _ _ _ => hu.launch) fun _ u hu => hu.frame (ps := [.slc]) ((Touches.refl _ u).ownWalk rfl)

theorem hold (r : Req) : LeavesGroups (execHold r s) :=
  .request h fun f u hu => by
    split
    · exact hu
    · exact hu

theorem release (r : Req) : LeavesGroups (execRelease r s) :=
  .request h fun f u hu => by
    split
    · exact hu
    · exact (hu.asked (t := State.channelGo _ _)
        ((Asked.deliverKept ((u.updChannel _ _).accept f) f.chan).trans (.channelGo _ f.chan))).flashKick

theorem cancel (r : Req) : LeavesGroups (execCancel r s) :=
  .request h fun f u hu => by
    dsimp only
    split
    · exact hu
    · exact hu

theorem readCounters (r : Req) : LeavesGroups (execReadCounters r s) :=
  .request h fun f u hu => hu.withValue fun q => by
    dsimp only
    split
    · refine hu.of_groups ?_
      rw [State.finish_archive]
      cases q.1 <;> rfl
    · exact hu

theorem linkClear (r : Req) : LeavesGroups (execLinkClear r s) :=
  .request h fun _ u hu => hu.asked (.endRuns u)

theorem clearAllData (r : Req) : LeavesGroups (execClearAllData r s) :=
  .request h fun _ u hu => by
    have ended : GroupsSound u.endRuns := hu.asked (.endRuns u)
    dsimp only
    exact GroupsSound.flashKick (GroupsSound.storeClear ended)

/-! ### Lines, runs and the flash -/

theorem readings (l : Fin 4) (q g : Byte) (f : BitVec 32) (st : BitVec 16) (rs : Raws) (t : BitVec 32) :
    LeavesGroups (execReadings l q g f st rs t s) := by
  unfold execReadings
  dsimp only
  split
  · exact .settle h.handOn.flashKick
  · split
    · exact .still h
    · next u hu =>
      have checked := (h.takeItem hu).seqCheck (l := l) (q := q)
      split
      · exact .settle (GroupsSound.runTasks (s := State.updCaptureCnt _ _) checked)
      · exact .settle checked.readingsItem.flashKick

theorem restartMark (l : Fin 4) : LeavesGroups (execRestartMark l s) := by
  unfold execRestartMark
  split
  · exact .still h
  · next u hu =>
    have sound := h.takeItem hu
    have closed : GroupsSound (u.lineRestart l) := GroupsSound.closeSlots (s := State.endCondition (u.updTracker l _) _) sound
    exact .settle (GroupsSound.flashKick (s := State.updTracker _ l _) closed)

theorem planStep (ch : Fin 4) : LeavesGroups (execPlanStep ch s) := by
  unfold execPlanStep
  refine .ite (.still h) ?_
  split
  · exact .still h
  · dsimp only
    refine .ite (.settle h) (.settle (GroupsSound.flashKick (GroupsSound.asked ?_ (.channelGo _ ch))))
    exact GroupsSound.asked (s := State.updRun { s with table := { s.table with lastPlanner := ch } } ch _) h (.deliver _ ch _)

theorem gaugeIdleExpiry (i : Fin 64) : LeavesGroups (execGaugeIdleExpiry i s) :=
  .ite (.still h) (.settle (h.fed (.closeSlot s i)).flashKick)

theorem program (e : FlashEnd) : LeavesGroups (execProgram e s) := by
  unfold execProgram
  split
  · split
    · refine .settle (GroupsSound.flashOver ?_)
      unfold GroupsSound
      rw [State.withArch_archive]
      exact Archive.programmed_groupsInv h _ _
    · refine .settle (GroupsSound.flashOver ?_)
      unfold GroupsSound
      rw [State.withArch_archive]
      exact Archive.programFailed_groupsInv h _
  · exact .still h

theorem erase (e : FlashEnd) : LeavesGroups (execErase e s) := by
  unfold execErase
  split
  · refine .settle (GroupsSound.flashOver ?_)
    unfold GroupsSound
    rw [State.withArch_archive]
    exact Archive.erased_groupsInv h _ e
  · exact .still h

theorem read (b : ReadBack) : LeavesGroups (execRead b s) := by
  unfold execRead
  split
  · refine .settle (GroupsSound.flashOver (GroupsSound.asked ?_ (.channelGo _ _)))
    split
    · exact GroupsSound.asked (s := { s with archive := { s.archive with op := none, cnt := _ } }) h (.onOutcome _ _ _ _)
    · exact h
  · exact .still h

theorem streamFramePlaced (ch : Fin 4) : LeavesGroups (execStreamFramePlaced ch s) := by
  unfold execStreamFramePlaced
  refine .ite (.still h) ?_
  split
  · exact .still h
  · split
    · exact .still h
    · exact .settle (h.asked (t := State.channelGo _ _) (.channelGo (s.placeFrame ch _ _ _) ch)).flashKick

/-! ### Start-up -/

theorem resetAsserted (n : Nat) : LeavesGroups (execResetAsserted n s) := .ite (.still h) (.next h)

theorem powerOn (b : Bool) (p : Fin 4) : LeavesGroups (execPowerOn b p s) := .ite (.next h) (.next h)

theorem coldStart (bad : List (Fin 4096)) : LeavesGroups (execColdStart bad s) := by
  unfold execColdStart
  split
  · refine .settle (GroupsSound.becomeReady ?_)
    exact Archive.rebuilt_groupsInv bad
  · exact .still h

theorem resume (p : ReadBack) (bad : List (Fin 4096)) (k : Option Nat) : LeavesGroups (execResume p bad k s) := by
  unfold execResume
  split
  · split
    · exact .settle h.resumeUpdates
    · exact .settle (h.resumeUpdates.frame (ps := [.capture]) ((Touches.refl _ _).marksFromIndex rfl)).becomeReady
  · exact .still h

theorem exec (c : Instr) : LeavesGroups (exec c s) := by
  cases c with
  | defineLine r => exact defineLine h r
  | resyncLine r => exact resyncLine h r
  | emptyLine r => exact emptyLine h r
  | defineGauge r => exact defineGauge h r
  | closeBlocks r => exact closeBlocks h r
  | runPlayback r => exact runPlayback h r
  | runAncestry r => exact walkRequest h true
  | runDescent r => exact walkRequest h false
  | hold r => exact hold h r
  | release r => exact release h r
  | cancel r => exact cancel h r
  | readCounters r => exact readCounters h r
  | linkClear r => exact linkClear h r
  | clearAllData r => exact clearAllData h r
  | readings l q g f st rs t => exact readings h l q g f st rs t
  | restartMark l => exact restartMark h l
  | planStep ch => exact planStep h ch
  | gaugeIdleExpiry i => exact gaugeIdleExpiry h i
  | program e => exact program h e
  | erase e => exact erase h e
  | read b => exact read h b
  | streamFramePlaced ch => exact streamFramePlaced h ch
  | resetAsserted n => exact resetAsserted h n
  | powerOn b p => exact powerOn h b p
  | coldStart bad => exact coldStart h bad
  | resume p bad k => exact resume h p bad k
  | _ => exact untouched h rfl

end LeavesGroups

/-! ## The flash array -/

/-- Whatever state the command leaves, its flash array is in canonical form. -/
def LeavesFlash (o : Host.Outcome State Fault Refusal) : Prop := ∀ t, o = .next t → FlashInv t

section
variable {s t : State} (h : FlashInv s)
include h

theorem FlashInv.frame {ps : List Part} (k : Touches ps s t) (hp : ps.contains .flash = false := by decide) : FlashInv t := by
  unfold FlashInv
  rw [k.flash_eq hp]
  exact h

theorem LeavesFlash.next : LeavesFlash (.next s) := fun _ hu => Host.Outcome.next.inj hu ▸ h

theorem LeavesFlash.settle : LeavesFlash (Machine.settle s) := .next (h.frame (ps := [.slc]) ((Touches.refl _ s).kick rfl))

/-- What follows the end of a flash operation (R121, R110) leaves the array. -/
theorem FlashInv.flashOver (r : Arch) : FlashInv (s.withArch r).storeClear.clearAnswer.flashKick :=
  h.frame (ps := [.archive, .capture, .slc])
    (((((Touches.refl _ s).withArch rfl rfl).storeClear rfl rfl rfl).clearAnswer rfl).flashKick rfl rfl)

theorem FlashInv.resumeUpdate (page : ReadBack) (failing : List (Fin 4096)) (u : ResumeUpdate) : FlashInv (State.resumeUpdate page failing s u) := by
  cases u with
  | check =>
    show FlashInv (s.checkPoint page)
    rw [State.checkPoint_eq]
    split
    · exact h
    · exact h
  | again g => exact h
  | erased g =>
    show Memory.wf (if failing.any (fun b => b.1 == g) then s.flash else eraseGroup s.flash g) = true
    split
    · exact h
    · exact eraseGroup_wf h g
  | occupancy => exact h

theorem FlashInv.resumeUpdates (page : ReadBack) (failing : List (Fin 4096)) (us : List ResumeUpdate) :
    FlashInv (us.foldl (State.resumeUpdate page failing) s) := by
  induction us generalizing s with
  | nil => exact h
  | cons u us ih => exact ih (h.resumeUpdate page failing u)

theorem LeavesFlash.program (e : FlashEnd) : LeavesFlash (execProgram e s) := by
  unfold execProgram
  split
  · split
    · refine .settle (FlashInv.flashOver ?_ _)
      exact flashWrite_wf h _ _
    · exact .settle (h.flashOver _)
  · exact .next h

theorem LeavesFlash.erase (e : FlashEnd) : LeavesFlash (execErase e s) := by
  unfold execErase
  split
  · refine .settle (FlashInv.flashOver ?_ _)
    split
    · exact eraseGroup_wf h _
    · exact h
  · exact .next h

theorem LeavesFlash.resume (p : ReadBack) (bad : List (Fin 4096)) (k : Option Nat) : LeavesFlash (execResume p bad k s) := by
  unfold execResume
  split
  · split
    · exact .settle (h.resumeUpdates p bad _)
    · exact .settle ((h.resumeUpdates p bad _).frame (ps := [.startUp, .ports, .trackers, .capture, .archive, .slc])
        (((Touches.refl _ _).marksFromIndex rfl).becomeReady rfl rfl rfl rfl rfl))
  · exact .next h

/-- Only PROGRAM, ERASE and the re-erases of a resume write the flash array. -/
theorem LeavesFlash.exec (c : Instr) : LeavesFlash (exec c s) := by
  by_cases hc : (touched c).contains .flash = false
  · obtain ⟨u, next, touches⟩ := exec_runs s c
    rw [next]
    exact .next (h.frame touches hc)
  · cases c with
    | program e => exact .program h e
    | erase e => exact .erase h e
    | resume p bad k => exact .resume h p bad k
    | _ => exact absurd rfl hc

end

/-- Settles O57: the flash array and the group table are kept by every operation that changes them, and no other command touches them. -/
theorem stepKeepsFlashInv : Obligations.StepKeepsFlashInv := by
  constructor
  · intro s t hi hs
    unfold step at hs
    split at hs
    · cases hs
      exact hi
    · next c rest _ => exact LeavesFlash.exec (s := { s with pending := rest }) hi c t hs
  · intro s t hi hs
    unfold step at hs
    split at hs
    · cases hs
      exact hi
    · next c rest _ => exact LeavesGroups.exec (s := { s with pending := rest }) hi c t hs

end Sys2Proof.Machine
end

section
/-! # The ring walk and the choice of the flash operation: what of the archive they change (R105, R106, R109, R110) -/

namespace Sys2Proof.Machine

/-! ## The ring walk (R105) -/

section
variable {n g : Nat} {a : Archive}

/-- The walk ends at an ERASED or FULL group. -/
theorem Archive.ring_stops (h : a.groupState g = .erased ∨ a.groupState g = .full) : ring (n + 1) a g = ((a, []), some g) := by
  unfold ring
  rcases h with h | h <;> rw [h]

/-- The walk passes a BAD group, and a FILLING one. -/
theorem Archive.ring_passes (h : a.groupState g = .bad ∨ a.groupState g = .filling) : ring (n + 1) a g = ring n a ((g + 1) % groupCount) := by
  rw [ring]
  rcases h with h | h <;> rw [h]

/-- A FAILING group the walk meets becomes BAD. -/
theorem Archive.ring_retires (h : a.groupState g = .failing) : (ring (n + 1) a g).1.1 = (ring n (a.retireGroup g).1 ((g + 1) % groupCount)).1.1 ∧
    (ring (n + 1) a g).2 = (ring n (a.retireGroup g).1 ((g + 1) % groupCount)).2 := by
  rw [ring, h]
  exact ⟨rfl, rfl⟩

/-- The walk is a chain of retirements of FAILING groups: what each of them keeps, the walk keeps. -/
theorem Archive.ring_induction {R : Archive → Archive → Prop} (refl : ∀ a, R a a) (trans : ∀ {a b c}, R a b → R b c → R a c)
    (retire : ∀ a g, a.groupState g = .failing → R a (a.retireGroup g).1) (n : Nat) (a : Archive) (g : Nat) : R a (ring n a g).1.1 := by
  induction n generalizing a g with
  | zero => exact refl a
  | succ n ih =>
    cases h : a.groupState g with
    | erased => rw [ring_stops (.inl h)]; exact refl a
    | full => rw [ring_stops (.inr h)]; exact refl a
    | failing => rw [(ring_retires h).1]; exact trans (retire a g h) (ih _ _)
    | bad => rw [ring_passes (.inl h)]; exact ih a _
    | filling => rw [ring_passes (.inr h)]; exact ih a _

end

/-- The ring walk and the test of EXHAUSTED change nothing of the archive but the group table, the index, EXHAUSTED with the write queue it
drops, and the counts of groups retired and blocks dropped. -/
def Walked (a b : Archive) : Prop :=
  b = { a with groups := b.groups, index := b.index, exhausted := b.exhausted, queue := b.queue, occupancy := b.occupancy,
               headFailed := b.headFailed, cnt := { a.cnt with retired := b.cnt.retired, dropped := b.cnt.dropped } }

namespace Walked

theorem refl (a : Archive) : Walked a a := rfl

theorem trans {a b c : Archive} (h : Walked a b) (k : Walked b c) : Walked a c := by
  unfold Walked at *
  rw [k, h]

theorem testExhausted (a : Archive) : Walked a a.testExhausted.1 := by
  unfold Archive.testExhausted
  split
  · rfl
  · rfl

theorem retireGroup (a : Archive) (g : Nat) : Walked a (a.retireGroup g).1 :=
  trans (b := { (a.setGroup g .bad).unindex g with cnt := { a.cnt with retired := bump a.cnt.retired } }) rfl (testExhausted _)

theorem ring (n : Nat) (a : Archive) (g : Nat) : Walked a (Archive.ring n a g).1.1 := Archive.ring_induction refl trans (fun a g _ => retireGroup a g) n a g

end Walked

/-- The write point has been placed: what the ring walk changes, and the write point (R105). -/
def Placed (a b : Archive) : Prop := Walked { a with group := b.group, page := b.page } b

theorem Archive.place_placed (a : Archive) (g : Nat) : Placed a (a.place g).1 := by
  have walked := Walked.ring groupCount a g
  unfold Placed Walked
  unfold Walked at walked
  unfold place
  dsimp only
  split
  · dsimp only
    rw [walked]
  · rw [walked]

/-- The index never gains an entry on the ring walk (R113). -/
theorem Archive.unindex_mem (a : Archive) (g : Nat) (i : Fin 64) (e : Entry) :
    e ∈ (a.unindex g).index[i] ↔ e ∈ a.index[i] ∧ e.page / 64 ≠ g := by
  simp [unindex, groupPages]

theorem Archive.testExhausted_index (a : Archive) : a.testExhausted.1.index = a.index := by
  unfold testExhausted
  split
  · rfl
  · rfl

theorem Archive.retireGroup_index (a : Archive) (g : Nat) : (a.retireGroup g).1.index = (a.unindex g).index := testExhausted_index _

theorem Archive.ring_index (n : Nat) (a : Archive) (g : Nat) (i : Fin 64) (e : Entry) : e ∈ (ring n a g).1.1.index[i] → e ∈ a.index[i] := by
  refine ring_induction (R := fun a b => e ∈ b.index[i] → e ∈ a.index[i]) (fun _ => id) (fun h k => h ∘ k) (fun a g _ he => ?_) n a g
  rw [retireGroup_index] at he
  exact ((a.unindex_mem g i e).mp he).1

theorem Archive.place_index (a : Archive) (g : Nat) : (a.place g).1.index = (ring groupCount a g).1.1.index := by
  unfold place
  dsimp only
  split
  · rfl
  · rfl

/-! ## The choice by its cases (R106, R110) -/

section
variable (a : Archive)

/-- What an idle flash may be given: nothing, a write step with blocks waiting, a READ with a request waiting, or an erase ahead with neither. -/
theorem Archive.choose_cases :
    a.choose = (a, []) ∨
    (a.op = none ∧ a.clear = false ∧ a.exhausted = false ∧ a.queue ≠ [] ∧ a.choose = (a.writeStep, [])) ∨
    (a.op = none ∧ a.clear = false ∧ a.requests ≠ [] ∧ a.choose = (a.startRead, [])) ∨
    (a.op = none ∧ a.clear = false ∧ a.exhausted = false ∧ a.queue = [] ∧ a.requests = [] ∧ a.choose = a.eraseAhead) := by
  unfold choose
  extract_lets writes
  have writing : writes = true ↔ a.exhausted = false ∧ a.queue ≠ [] := by simp [writes]
  split
  · exact .inl rfl
  · next idle =>
    obtain ⟨hop, hclear⟩ : a.op = none ∧ a.clear = false := by simpa using idle
    split
    · next h => exact .inr (.inl ⟨hop, hclear, (writing.mp (Bool.and_eq_true_iff.mp h).1).1, (writing.mp (Bool.and_eq_true_iff.mp h).1).2, rfl⟩)
    · split
      · next h => exact .inr (.inl ⟨hop, hclear, (writing.mp (Bool.and_eq_true_iff.mp h).1).1, (writing.mp (Bool.and_eq_true_iff.mp h).1).2, rfl⟩)
      · split
        · next h => exact .inr (.inr (.inl ⟨hop, hclear, by simpa using h, rfl⟩))
        · next hq =>
          split
          · next h => exact .inr (.inl ⟨hop, hclear, (writing.mp h).1, (writing.mp h).2, rfl⟩)
          · next hw =>
            split
            · next hx =>
              have fresh : a.exhausted = false := by simpa using hx
              refine .inr (.inr (.inr ⟨hop, hclear, fresh, ?_, by simpa using hq, rfl⟩))
              by_contra queue
              exact hw (writing.mpr ⟨fresh, queue⟩)
            · exact .inl rfl

/-- With an operation in progress, or a clear waiting, nothing is chosen. -/
theorem Archive.choose_of_op {a : Archive} (h : a.op ≠ none) : a.choose = (a, []) := by
  unfold choose
  rw [if_pos (by simp [Option.isSome_iff_ne_none.mpr h])]

theorem Archive.choose_of_clear {a : Archive} (h : a.clear = true) : a.choose = (a, []) := by
  unfold choose
  rw [if_pos (by simp [h])]

/-- A write step programs a page that is ready, and else erases the FULL group at the write point (R110). -/
theorem Archive.writeStep_cases :
    ((a.groupState a.group = .erased ∨ a.groupState a.group = .filling) ∧ a.writeStep = { a with op := some .program, lastOp := some .program }) ∨
    (a.groupState a.group = .full ∧ a.writeStep = a.startErase a.group) ∨
    ((a.groupState a.group = .failing ∨ a.groupState a.group = .bad) ∧ a.writeStep = a) := by
  unfold writeStep pageReady
  cases a.groupState a.group <;> simp

/-- A READ that begins changes requests and operations only (R110). -/
theorem Archive.startRead_kept :
    a.startRead = { a with requests := a.startRead.requests, lastChan := a.startRead.lastChan, op := a.startRead.op, lastOp := a.startRead.lastOp } := by
  unfold startRead
  split
  · rfl
  · rfl

/-- Where the erase-ahead walks the ring (R106). -/
def Archive.nearlyFull : Prop := a.groupState a.group = .filling ∧ 56 ≤ a.page

/-- The archive after the erase-ahead's walk from the group after the write point. -/
def Archive.lookedAhead : Archive := (Archive.ring groupCount a ((a.group + 1) % groupCount)).1.1

/-- The erase-ahead walks the ring when the group at the write point is nearly full, and may begin the ERASE of a FULL group it finds (R106). -/
theorem Archive.eraseAhead_cases :
    (¬a.nearlyFull ∧ a.eraseAhead = (a, [])) ∨
    (a.nearlyFull ∧ a.eraseAhead.1 = a.lookedAhead) ∨
    (a.nearlyFull ∧ ∃ g, (Archive.ring groupCount a ((a.group + 1) % groupCount)).2 = some g ∧ a.lookedAhead.groupState g = .full ∧
      a.lookedAhead.exhausted = false ∧ a.eraseAhead.1 = a.lookedAhead.startErase g) := by
  unfold eraseAhead
  split
  · next h =>
    refine .inr ?_
    dsimp only
    split
    · exact .inl ⟨h, rfl⟩
    · next g hg =>
      split
      · next k => exact .inr ⟨h, g, hg, k.1, by simpa [lookedAhead] using k.2, rfl⟩
      · exact .inl ⟨h, rfl⟩
  · next h => exact .inl ⟨h, rfl⟩

end

/-! ## What the choice changes -/

/-- The choice changes nothing of the archive but what the ring walk does, the index, the erase marks, the requests, the operations with the
channel last served, and the count of erases. -/
def Chosen (a b : Archive) : Prop :=
  Walked { a with marks := b.marks, op := b.op, lastOp := b.lastOp, lastChan := b.lastChan, requests := b.requests,
                  cnt := { a.cnt with erases := b.cnt.erases } } b

namespace Chosen

theorem refl (a : Archive) : Chosen a a := rfl

theorem startErase {a b : Archive} (h : Walked a b) (g : Nat) : Chosen a (b.startErase g) := by
  unfold Chosen Walked
  unfold Walked at h
  unfold Archive.startErase Archive.unindex
  dsimp only
  rw [h]

theorem walked {a b : Archive} (h : Walked a b) : Chosen a b := by
  unfold Chosen Walked
  unfold Walked at h
  rw [h]

theorem writeStep (a : Archive) : Chosen a a.writeStep := by
  rcases a.writeStep_cases with ⟨_, h⟩ | ⟨_, h⟩ | ⟨_, h⟩ <;> rw [h]
  · rfl
  · exact startErase (.refl a) _
  · exact refl a

theorem startRead (a : Archive) : Chosen a a.startRead := by
  rw [a.startRead_kept]
  rfl

theorem eraseAhead (a : Archive) : Chosen a a.eraseAhead.1 := by
  have ring : Walked a a.lookedAhead := .ring ..
  rcases a.eraseAhead_cases with ⟨_, h⟩ | ⟨_, h⟩ | ⟨_, g, _, _, _, h⟩ <;> rw [h]
  · exact refl a
  · exact walked ring
  · exact startErase ring g

theorem choose (a : Archive) : Chosen a a.choose.1 := by
  rcases a.choose_cases with h | ⟨_, _, _, _, h⟩ | ⟨_, _, _, h⟩ | ⟨_, _, _, _, _, h⟩ <;> rw [h]
  · exact refl a
  · exact writeStep a
  · exact startRead a
  · exact eraseAhead a

end Chosen

section
variable {a : Archive}

/-- In an EXHAUSTED archive only READs are chosen (R109, R110). -/
theorem Archive.choose_exhausted (h : a.exhausted = true) : a.choose.1 =
    { a with requests := a.choose.1.requests, lastChan := a.choose.1.lastChan, op := a.choose.1.op, lastOp := a.choose.1.lastOp } := by
  rcases a.choose_cases with k | ⟨_, _, fresh, _⟩ | ⟨_, _, _, k⟩ | ⟨_, _, fresh, _⟩
  · rw [k]
  · exact absurd (h.symm.trans fresh) (by decide)
  · rw [k]
    exact a.startRead_kept
  · exact absurd (h.symm.trans fresh) (by decide)

theorem Archive.startErase_index {g : Nat} {i : Fin 64} {e : Entry} :
    e ∈ (a.startErase g).index[i] ↔ e ∈ a.index[i] ∧ e.page / 64 ≠ g := a.unindex_mem g i e

/-- The choice gives no index list an entry (R113). -/
theorem Archive.choose_index (i : Fin 64) (e : Entry) (he : e ∈ a.choose.1.index[i]) : e ∈ a.index[i] := by
  have ring : e ∈ a.lookedAhead.index[i] → e ∈ a.index[i] := a.ring_index groupCount _ i e
  rcases a.choose_cases with h | ⟨_, _, _, _, h⟩ | ⟨_, _, _, h⟩ | ⟨_, _, _, _, _, h⟩ <;> rw [h] at he
  · exact he
  · rcases a.writeStep_cases with ⟨_, k⟩ | ⟨_, k⟩ | ⟨_, k⟩ <;> rw [k] at he
    · exact he
    · exact (startErase_index.mp he).1
    · exact he
  · rw [startRead_kept] at he
    exact he
  · rcases a.eraseAhead_cases with ⟨_, k⟩ | ⟨_, k⟩ | ⟨_, g, _, _, _, k⟩ <;> rw [k] at he
    · exact he
    · exact ring he
    · exact ring (startErase_index.mp he).1

end

end Sys2Proof.Machine
end

section
/-! # Gauge slots: DEFINE GAUGE, CLOSE BLOCKS and the idle timer (R94, R95, R99 to R102) -/

namespace Sys2Proof.Machine

/-! ## A request of capture answered -/

section
variable {s u : State}

/-- Where the work of capture and archive leaves Request Unit and replies, the request is answered ACCEPTED. -/
theorem State.accept_flashKick_answered (kind : Byte) (r : Req) (h : SameLink s.taken u) :
    Answered s (u.accept (reqFrame kind r)).flashKick.kick (acceptance r) none := by
  have kicked := (u.accept (reqFrame kind r)).flashKick_link.1
  refine (State.finish_answered u (acceptance r) none).of_eq ?_ ?_ ?_ ?_
  · rw [h.2.1, State.taken_replies]
  · rw [h.outgoing, State.taken_outgoing]
  · rw [State.kick_unit, kicked.1]
    rfl
  · rw [State.kick_outgoing, kicked.outgoing]
    rfl

theorem State.accept_flashKick_capture (f : Frame) : (u.accept f).flashKick.kick.capture = u.capture := by
  rw [State.kick_capture, (State.flashKick_touches _).capture_eq]
  rfl

theorem State.accept_flashKick_index (f : Frame) (i : Fin 64) (e : Entry) (he : e ∈ (u.accept f).flashKick.kick.archive.index[i]) :
    e ∈ u.archive.index[i] := by
  rw [State.kick_archive, State.flashKick_archive] at he
  exact Archive.choose_index i e he

end

/-! ## CLOSE BLOCKS (R102) -/

section
variable {s : State} {r : Req}

/-- The slots CLOSE BLOCKS addresses by the number it carries. -/
def State.addressed (s : State) (n : Nat) (i : Fin 64) : Prop :=
  n = 255 ∨ (s.capture.slots[i]).defined = true ∧ (s.capture.slots[i]).line = n

theorem State.closeSlots_taken (is : List (Fin 64)) (i : Fin 64) :
    ((s.taken.closeSlots is).capture.slots[i]) = if i ∈ is then (s.capture.slots[i]).closed else s.capture.slots[i] := by
  rw [State.closeSlots_slots, State.taken_capture]

/-- A CLOSE BLOCKS that closes a list of slots: exactly the slots addressed. -/
theorem Admitted.closeBlocks_closes {n : Nat} {is : List (Fin 64)} (hi : ∀ i, i ∈ is ↔ s.addressed n i)
    (ran : exec (.closeBlocks r) s = settle ((s.taken.closeSlots is).accept (reqFrame 0x0F#8 r)).flashKick) :
    ∃ t, exec (.closeBlocks r) s = .next t ∧ Touches [.capture, .archive, .slc] s t ∧ Answered s t (acceptance r) none ∧
      ∀ i : Fin 64, ((¬s.addressed n i ∨ (s.capture.slots[i]).block = none) → t.capture.slots[i] = s.capture.slots[i]) ∧
        ∀ b, s.addressed n i → (s.capture.slots[i]).block = some b →
          t.capture.slots[i] = { s.capture.slots[i] with block := none, mark := some b.last } := by
  obtain ⟨t, next, touches⟩ := exec_runs (s := s) (.closeBlocks r)
  obtain rfl := Host.Outcome.next.inj (ran.symm.trans next)
  refine ⟨_, next, touches, State.accept_flashKick_answered _ r (State.closeSlots_link _ is).1, fun i => ?_⟩
  rw [State.accept_flashKick_capture, State.closeSlots_taken, ← hi i]
  exact Slot.closed_mine (i ∈ is) _

end

/-- Settles O16: the slots closed are those of the line, or all, and each is closed as one block is. -/
theorem closeBlocksClosesSlots : Obligations.CloseBlocksClosesSlots := by
  intro r s h n addressed
  have arm : exec (.closeBlocks r) s = execCloseBlocks r s := rfl
  unfold execCloseBlocks at arm
  rw [h.request rfl, show field (reqFrame 0x0F#8 r).payload 0 1 = n from rfl] at arm
  refine ⟨fun hn => ?_, fun ⟨h3, h255⟩ => .of_finish ?_⟩
  · by_cases all : n = 255
    · rw [if_pos all] at arm
      exact Admitted.closeBlocks_closes (fun i => ⟨fun _ => .inl all, fun _ => List.mem_finRange i⟩) arm
    · have line : n ≤ 3 := hn.resolve_right all
      have at_ : finAt 3 n = some (finOf 3 n) := if_pos line
      have number : (finOf 3 n).1 = n := Nat.mod_eq_of_lt (by omega)
      rw [if_neg all, at_] at arm
      refine Admitted.closeBlocks_closes (fun i => ?_) arm
      rw [State.mem_slotsOf, State.taken_capture, number]
      exact ⟨.inr, fun ha => ha.resolve_left all⟩
  · rw [if_neg h255, show finAt 3 n = none from if_neg (by omega)] at arm
    exact arm

/-! ## DEFINE GAUGE (R94, R95) -/

section
variable {s : State} {r : Req}

theorem laneFits_iff (lanes : Nat) (l : Lane) : laneFits lanes l = false ↔ ∃ n, l = .num n ∧ (lanes ≤ 1 ∨ lanes ≤ n) := by
  cases l with
  | whole => simp [laneFits]
  | num n =>
    simp only [laneFits, Bool.and_eq_false_iff, decide_eq_false_iff_not, not_lt, Lane.num.injEq]
    exact ⟨fun h => ⟨n, rfl, h⟩, fun ⟨m, e, h⟩ => e ▸ h⟩

/-- The lane of the form does not fit its line (R94 test 1). -/
def State.laneBad (s : State) (g : GaugeForm) : Prop :=
  ∃ d n, g.fields = some d ∧ d.lane = .num n ∧
    ((s.trackers[finOf 3 d.line]).defn.lanes ≤ 1 ∨ (s.trackers[finOf 3 d.line]).defn.lanes ≤ n)

/-- Another defined slot has the line and gauge number of the form (R94 test 2). -/
def State.pairTaken (s : State) (g : GaugeForm) : Prop :=
  ∃ d, g.fields = some d ∧ ∃ i : Fin 64, i ≠ g.slot ∧ (s.capture.slots[i]).defined = true ∧ (s.capture.slots[i]).line = d.line ∧
    (s.capture.slots[i]).gauge = d.gauge

/-- Blocks of the slot are stored and not to be discarded (R94 test 3). -/
def State.blocksStored (s : State) (g : GaugeForm) : Prop := g.discard = false ∧ s.archive.index[g.slot] ≠ []

theorem State.blocksStored_iff (g : GaugeForm) : (!g.discard && !(s.archive.index[g.slot]).isEmpty) = true ↔ s.blocksStored g := by
  simp [State.blocksStored]

/-- The tests of DEFINE GAUGE in their order (R94). -/
theorem State.gaugeCheck_cases (g : GaugeForm) :
    (s.laneBad g → s.gaugeCheck g = some .badValue) ∧
    (¬s.laneBad g → s.pairTaken g ∨ s.blocksStored g → s.gaugeCheck g = some .inUse) ∧
    (¬s.laneBad g → ¬s.pairTaken g → ¬s.blocksStored g → s.gaugeCheck g = none) := by
  cases hf : g.fields with
  | none =>
    have check : s.gaugeCheck g = if !g.discard && !(s.archive.index[g.slot]).isEmpty then some .inUse else none := by
      unfold State.gaugeCheck
      rw [hf]
    have noPair : ¬s.pairTaken g := fun ⟨d, hd, _⟩ => by cases hf.symm.trans hd
    rw [check]
    refine ⟨fun ⟨d, n, hd, _⟩ => (by cases hf.symm.trans hd), fun _ h => ?_, fun _ _ h => ?_⟩
    · exact if_pos (State.blocksStored_iff g |>.mpr (h.resolve_left noPair))
    · exact if_neg (mt (State.blocksStored_iff g).mp h)
  | some d =>
    have lane : s.laneBad g ↔ laneFits (s.trackers[finOf 3 d.line]).defn.lanes d.lane = false := by
      rw [laneFits_iff]
      exact ⟨fun ⟨e, n, he, h⟩ => by cases hf.symm.trans he; exact ⟨n, h⟩, fun ⟨n, h⟩ => ⟨d, n, hf, h⟩⟩
    have pair : s.pairTaken g ↔ slotNumbers.any (fun i => i != g.slot && (s.capture.slots[i]).defined && (s.capture.slots[i]).line == d.line
        && (s.capture.slots[i]).gauge == d.gauge) = true := by
      simp only [State.pairTaken, hf, Option.some.injEq, exists_eq_left', List.any_eq_true, slotNumbers, List.mem_finRange, true_and,
        Bool.and_eq_true, bne_iff_ne, beq_iff_eq, and_assoc]
    unfold State.gaugeCheck
    rw [hf]
    dsimp only
    rw [lane, pair, ← State.blocksStored_iff g]
    refine ⟨fun h => ?_, fun h k => ?_, fun h k m => ?_⟩
    · rw [h]
      rfl
    · rw [Bool.not_eq_false] at h
      rw [h, Bool.not_true, if_neg Bool.false_ne_true]
      split
      · rfl
      · next hp => rw [if_pos (k.resolve_left hp)]
    · rw [Bool.not_eq_false] at h
      rw [h, Bool.not_true, if_neg Bool.false_ne_true, if_neg k, if_neg m]

/-- An accepted form (R95): the slot's block closed, its index list emptied under DISCARD, and the slot replaced. -/
theorem State.defineGauge_slots (g : GaugeForm) (i : Fin 64) : (s.defineGauge g).capture.slots[i] =
    if g.slot = i then { g.fields.getD Slot.initial with
      dseq := nextDefinition (s.capture.slots[i]).dseq, block := none, mark := none } else s.capture.slots[i] := by
  have closed := s.closeSlot_slots g.slot i
  have slots : (s.defineGauge g).capture.slots = updAt (s.closeSlot g.slot).capture.slots g.slot
      (fun old => { g.fields.getD Slot.initial with dseq := nextDefinition old.dseq, block := none, mark := none }) := by
    unfold State.defineGauge
    dsimp only
    split
    · rfl
    · rfl
  rw [slots, updAt_get, closed]
  split
  · rfl
  · rfl

theorem State.defineGauge_closed (g : GaugeForm) : (s.defineGauge g).capture.cnt = (s.closeSlot g.slot).capture.cnt := by
  unfold State.defineGauge
  dsimp only
  split
  · rfl
  · rfl

theorem State.defineGauge_index (g : GaugeForm) : (s.defineGauge g).archive.index =
    if g.discard then updAt s.archive.index g.slot (fun _ => []) else s.archive.index := by
  have kept : (s.closeSlot g.slot).archive.index = s.archive.index := by rw [Fed.closeSlot s g.slot]
  unfold State.defineGauge
  dsimp only
  split
  · exact congrArg (fun x => updAt x g.slot (fun _ => [])) kept
  · exact kept

theorem State.defineGauge_link (g : GaugeForm) : SameLink s (s.defineGauge g) := by
  refine (s.closeSlot_link g.slot).1.trans (.of_slc ?_)
  unfold State.defineGauge
  dsimp only
  split
  · rfl
  · rfl

theorem State.closeSlot_counts {i : Fin 64} {b : OpenBlock} (hb : (s.capture.slots[i]).block = some b) :
    (s.closeSlot i).capture.cnt.closed = bump s.capture.cnt.closed := by
  rw [s.closeSlot_cnt i hb]

end

/-- Settles O11: the tests of the form are those of the model in their order; an accepted one closes the slot, empties its list and replaces it. -/
theorem defineGaugeRedefinesSlot : Obligations.DefineGaugeRedefinesSlot := by
  intro r s h
  have arm : exec (.defineGauge r) s = execDefineGauge r s := rfl
  unfold execDefineGauge at arm
  rw [h.request rfl] at arm
  refine ⟨fun hv => .of_finish ?_, fun g hv => ?_⟩
  · rw [arm, show gaugeOf (reqFrame 0x03#8 r).payload = none from hv]
    rfl
  have check : s.taken.gaugeCheck g = s.gaugeCheck g := by
    unfold State.gaugeCheck
    rw [State.taken_trackers, State.taken_capture, State.taken_archive]
  obtain ⟨lane, held, free⟩ := s.gaugeCheck_cases g
  rw [show gaugeOf (reqFrame 0x03#8 r).payload = some g from hv, withValue] at arm
  rw [check] at arm
  intro laneBad pairTaken stored
  refine ⟨fun hl => .of_finish ?_, fun hl hp => .of_finish ?_, fun hl _ hs => .of_finish ?_, fun hl hp hs => ?_⟩
  · rw [arm, lane hl]
    rfl
  · rw [arm, held hl (.inl hp)]
    rfl
  · rw [arm, held hl (.inr hs)]
    rfl
  obtain ⟨t, next, touches⟩ := exec_runs (s := s) (.defineGauge r)
  rw [free hl hp hs] at arm
  obtain rfl := Host.Outcome.next.inj (arm.symm.trans next)
  have slots (i : Fin 64) := s.taken.defineGauge_slots g i
  rw [State.taken_capture] at slots
  have index := s.taken.defineGauge_index g
  rw [State.taken_archive] at index
  refine ⟨_, next, touches, ?_⟩
  rw [State.accept_flashKick_capture]
  refine ⟨⟨fun d hd => ?_, fun hd => ?_⟩, fun i hi => ?_, fun hb => ?_, fun hd => ?_, fun i e he => ?_,
    State.accept_flashKick_answered _ r (State.defineGauge_link g)⟩
  · rw [slots, if_pos rfl, hd]
    rfl
  · rw [slots, if_pos rfl, hd]
    exact ⟨rfl, rfl, rfl, rfl⟩
  · rw [slots, if_neg hi.symm]
  · obtain ⟨b, hb⟩ := Option.isSome_iff_exists.mp hb
    rw [State.defineGauge_closed, State.closeSlot_counts (s := s.taken) (b := b) (by rw [State.taken_capture]; exact hb), State.taken_capture]
  · refine List.eq_nil_iff_forall_not_mem.mpr fun e he => ?_
    have kept := State.accept_flashKick_index _ _ e he
    rw [index, if_pos hd, updAt_get, if_pos rfl] at kept
    cases kept
  · have kept := State.accept_flashKick_index _ i e he
    rw [index] at kept
    split at kept
    · rw [updAt_get] at kept
      split at kept
      · cases kept
      · exact kept
    · exact kept

/-! ## The idle timer (R99, R100, R101) -/

section
variable {s : State} {i : Fin 64} {b : OpenBlock}

/-- The block handed over: the header of R100 and the readings. -/
def Slot.handed (g : Slot) (i : Fin 64) (n : Nat) (b : OpenBlock) : Block :=
  { slot := i, dseq := g.dseq, line := g.line, side := g.side, lane := g.lane, bseq := n, first := b.first, last := b.last,
    entries := b.entries, suspect := b.suspect }

/-- A slot closed while the block sequence lasts hands its block over with the next number (R100, R101). -/
theorem State.closeSlot_hands (hb : (s.capture.slots[i]).block = some b) (hn : s.archive.nextBlock ≤ 281474976710655) :
    ∃ u : State, s.closeSlot i = u.handBlock ((s.capture.slots[i]).handed i s.archive.nextBlock b) ∧
      u.archive = { s.archive with nextBlock := s.archive.nextBlock + 1 } ∧ u.capture.cnt.queueFull = s.capture.cnt.queueFull := by
  unfold State.closeSlot
  dsimp only
  rw [hb]
  dsimp only
  rw [if_neg (by simpa [lastBlock] using hn)]
  exact ⟨_, rfl, rfl, rfl⟩

/-- What becomes of a block handed over (R101, R109). -/
theorem State.handBlock_archive (b : Block) :
    (s.archive.exhausted = true → (s.handBlock b).archive = { s.archive with cnt := { s.archive.cnt with dropped := bump s.archive.cnt.dropped } }) ∧
    (s.archive.exhausted = false → 16 ≤ s.archive.queue.length →
      (s.handBlock b).archive = s.archive ∧ (s.handBlock b).capture.cnt.queueFull = bump s.capture.cnt.queueFull) ∧
    (s.archive.exhausted = false → s.archive.queue.length < 16 →
      (s.handBlock b).archive = { s.archive with queue := s.archive.queue ++ [b], occupancy := s.archive.occupancy + 1 }) := by
  unfold State.handBlock
  refine ⟨fun h => ?_, fun h hq => ?_, fun h hq => ?_⟩
  · rw [if_pos h]
  · rw [if_neg (by simp [h]), if_pos hq, State.raise_archive, State.raise_capture]
    exact ⟨rfl, rfl⟩
  · rw [if_neg (by simp [h]), if_neg (Nat.not_le.mpr hq)]

end

/-- Settles O47: the slot's block is closed and handed over, and the flash operation chosen then changes none of what is stated. -/
theorem closedBlockIsHandedOn : Obligations.ClosedBlockIsHandedOn := by
  intro i s g
  have arm : exec (.gaugeIdleExpiry i) s = execGaugeIdleExpiry i s := rfl
  unfold execGaugeIdleExpiry at arm
  refine ⟨fun hb => ?_, fun b hb hn => ?_⟩
  · rw [arm, if_pos (Option.isNone_iff_eq_none.mpr hb)]
    rfl
  have isOpen : ¬(s.capture.slots[i]).block.isNone = true := by
    rw [show (s.capture.slots[i]).block = some b from hb]
    exact Bool.false_ne_true
  rw [if_neg isOpen] at arm
  obtain ⟨t, next, touches⟩ := exec_runs (s := s) (.gaugeIdleExpiry i)
  obtain rfl := Host.Outcome.next.inj (arm.symm.trans next)
  have capture : (s.closeSlot i).flashKick.kick.capture = (s.closeSlot i).capture := by
    rw [State.kick_capture, (State.flashKick_touches _).capture_eq]
  have archive : (s.closeSlot i).flashKick.kick.archive = (s.closeSlot i).archive.choose.1 := by
    rw [State.kick_archive, State.flashKick_archive]
  have slots := State.closeSlot_open s i hb
  obtain ⟨u, closed, ua, uq⟩ := State.closeSlot_hands hb hn
  obtain ⟨worn, full, room⟩ := u.handBlock_archive (g.handed i s.archive.nextBlock b)
  rw [← closed, ua] at worn full room
  have fed := Fed.handBlock u (g.handed i s.archive.nextBlock b)
  rw [← closed, ua] at fed
  have numbered : (s.closeSlot i).archive.nextBlock = s.archive.nextBlock + 1 := by
    by_cases hx : s.archive.exhausted = true
    · rw [worn hx]
    · rw [Bool.not_eq_true] at hx
      by_cases hq : 16 ≤ s.archive.queue.length
      · rw [(full hx hq).1]
      · rw [room hx (Nat.not_le.mp hq)]
  have busy (ho : s.archive.op ≠ none) : (s.closeSlot i).archive.choose.1 = (s.closeSlot i).archive :=
    congrArg Prod.fst (Archive.choose_of_op (by rw [fed]; exact ho))
  refine ⟨_, next, touches, ?_⟩
  rw [capture, archive, slots]
  refine ⟨?_, fun j hj => updAt_other _ _ _ _ hj.symm, State.closeSlot_counts hb, ?_, fun hx hq ho => ?_, fun hx hq => ?_, fun hx => ?_⟩
  · rw [updAt_get, if_pos rfl]
  · rw [Chosen.choose]
    exact numbered
  · rw [busy ho, room hx hq]
    exact ⟨rfl, rfl⟩
  · obtain ⟨kept, counted⟩ := full hx hq
    refine ⟨counted.trans (by rw [uq]), fun ho => ?_⟩
    rw [busy ho, kept]
  · have still : (s.closeSlot i).archive.exhausted = true := by rw [fed]; exact hx
    rw [Archive.choose_exhausted still, worn hx]

end Sys2Proof.Machine
end

section
/-! # The group table and the ring walk by group states (R104, R105, R109): which groups change, when EXHAUSTED is entered, and what is dropped -/

namespace Sys2Proof.Machine

/-! ## Group states (R104) -/

section
variable (a : Archive) {g h : Nat}

theorem insertBy_find {key : Nat × GroupState → Nat} {x : Nat × GroupState} {p : Nat × GroupState → Bool} (l : List (Nat × GroupState))
    (hx : p x = false) : (insertBy key x l).find? p = l.find? p := by
  induction l with
  | nil => simp [insertBy, hx]
  | cons z zs ih =>
    unfold insertBy
    split
    · rw [List.find?_cons, hx]
    · rw [List.find?_cons, List.find?_cons, ih]

theorem insertBy_find_self {key : Nat × GroupState → Nat} {x : Nat × GroupState} {p : Nat × GroupState → Bool} (l : List (Nat × GroupState))
    (hx : p x = true) (hl : ∀ y ∈ l, p y = false) : (insertBy key x l).find? p = some x := by
  induction l with
  | nil => simp [insertBy, hx]
  | cons z zs ih =>
    obtain ⟨hz, hzs⟩ := List.forall_mem_cons.mp hl
    unfold insertBy
    split
    · rw [List.find?_cons, hx]
    · rw [List.find?_cons, hz, ih hzs]

/-- A group not listed is FULL. -/
theorem Archive.groupState_eq (g : Nat) : a.groupState g = ((a.groups.find? (fun p => p.1 == g)).map (·.2)).getD .full := by
  unfold groupState
  cases a.groups.find? (fun p => p.1 == g) <;> rfl

/-- A group set to a state has it. -/
theorem Archive.setGroup_same (g : Nat) (st : GroupState) : (a.setGroup g st).groupState g = st := by
  have gone : ∀ y ∈ a.groups.filter (fun p => p.1 != g), (y.1 == g) = false := fun y hy => by simpa using (List.mem_filter.mp hy).2
  rw [groupState_eq]
  unfold setGroup
  dsimp only
  by_cases full : st = .full
  · rw [if_pos full, List.find?_eq_none.mpr (fun y hy => by simp [gone y hy])]
    exact full.symm
  · rw [if_neg full, insertBy_find_self _ (by simp) gone]
    rfl

/-- Every other group keeps its state. -/
theorem Archive.setGroup_other (hg : h ≠ g) (st : GroupState) : (a.setGroup g st).groupState h = a.groupState h := by
  have kept : (a.groups.filter (fun p => p.1 != g)).find? (fun p => p.1 == h) = a.groups.find? (fun p => p.1 == h) := by
    rw [List.find?_filter]
    congr 1
    funext p
    by_cases hp : p.1 = h
    · simp [hp, hg]
    · simp [hp]
  rw [groupState_eq, groupState_eq]
  unfold setGroup
  dsimp only
  by_cases full : st = .full
  · rw [if_pos full, kept]
  · rw [if_neg full, insertBy_find _ (by simpa using Ne.symm hg), kept]

theorem Archive.groupState_congr {a b : Archive} (e : b.groups = a.groups) (g : Nat) : b.groupState g = a.groupState g := by
  unfold groupState
  rw [e]

theorem Archive.usable_congr {a b : Archive} (e : b.groups = a.groups) : b.usable = a.usable := by
  unfold usable
  rw [e]

theorem Archive.testExhausted_groups : a.testExhausted.1.groups = a.groups := by
  unfold testExhausted
  split
  · rfl
  · rfl

theorem Archive.retireGroup_groups (g : Nat) : (a.retireGroup g).1.groups = (a.setGroup g .bad).groups := testExhausted_groups _

/-- The group after another is another. -/
theorem next_ne (g : Nat) : (g + 1) % 4096 ≠ g := by omega

end

/-! ## The walk and group states (R105) -/

/-- Only FAILING groups change, and they become BAD. -/
def Aged (a b : Archive) : Prop := ∀ g, b.groupState g = a.groupState g ∨ a.groupState g = .failing ∧ b.groupState g = .bad

namespace Aged
variable {a b c : Archive}

theorem refl (a : Archive) : Aged a a := fun _ => .inl rfl

theorem of_groups (e : b.groups = a.groups) : Aged a b := fun g => .inl (Archive.groupState_congr e g)

theorem trans (h : Aged a b) (k : Aged b c) : Aged a c := fun g => by
  rcases h g with h | ⟨h, h'⟩
  · rw [← h]
    exact k g
  · rcases k g with k | ⟨k, _⟩
    · exact .inr ⟨h, k.trans h'⟩
    · exact absurd (h'.symm.trans k) (by decide)

/-- A group that is not FAILING keeps its state. -/
theorem kept (h : Aged a b) {g : Nat} (hg : a.groupState g ≠ .failing) : b.groupState g = a.groupState g :=
  (h g).resolve_right (fun k => hg k.1)

/-- A group found in a state other than BAD was in it before. -/
theorem back (h : Aged a b) {g : Nat} {st : GroupState} (hg : b.groupState g = st) (hb : st ≠ .bad) : a.groupState g = st := by
  rcases h g with h | ⟨_, h⟩
  · exact h.symm.trans hg
  · exact absurd (hg.symm.trans h) hb

theorem retireGroup {g : Nat} (hg : a.groupState g = .failing) : Aged a (a.retireGroup g).1 := fun h => by
  rw [Archive.groupState_congr (a.retireGroup_groups g)]
  by_cases e : h = g
  · subst e
    exact .inr ⟨hg, a.setGroup_same h .bad⟩
  · exact .inl (a.setGroup_other e .bad)

theorem ring (n : Nat) (a : Archive) (g : Nat) : Aged a (Archive.ring n a g).1.1 :=
  Archive.ring_induction refl trans (fun _ _ h => retireGroup h) n a g

end Aged

section
variable {a : Archive} {g h : Nat}

/-- What the walk finds is ERASED or FULL. -/
theorem Archive.ring_found {n : Nat} (hf : (ring n a g).2 = some h) :
    (ring n a g).1.1.groupState h = .erased ∨ (ring n a g).1.1.groupState h = .full := by
  induction n generalizing a g with
  | zero => cases hf
  | succ n ih =>
    cases hg : a.groupState g with
    | erased =>
      rw [ring_stops (.inl hg)] at hf ⊢
      cases hf
      exact .inl hg
    | full =>
      rw [ring_stops (.inr hg)] at hf ⊢
      cases hf
      exact .inr hg
    | failing =>
      rw [(ring_retires hg).2] at hf
      rw [(ring_retires hg).1]
      exact ih hf
    | bad =>
      rw [ring_passes (.inl hg)] at hf ⊢
      exact ih hf
    | filling =>
      rw [ring_passes (.inr hg)] at hf ⊢
      exact ih hf

/-- The write point goes to the group where the walk begins, if that is ERASED or FULL. -/
theorem Archive.place_stops (hg : a.groupState g = .erased ∨ a.groupState g = .full) : a.place g = ({ a with group := g, page := 0 }, []) := by
  unfold place
  rw [show groupCount = 4095 + 1 from rfl, ring_stops hg]

theorem Archive.place_groups (a : Archive) (g : Nat) : (a.place g).1.groups = (ring groupCount a g).1.1.groups := by
  unfold place
  dsimp only
  split
  · rfl
  · rfl

theorem Aged.place (a : Archive) (g : Nat) : Aged a (a.place g).1 := (Aged.ring groupCount a g).trans (.of_groups (a.place_groups g))

/-- In a table with no FAILING group the walk changes nothing. -/
theorem Archive.ring_idle (h : ∀ g < 4096, a.groupState g ≠ .failing) (n : Nat) (hg : g < 4096) : (ring n a g).1.1 = a := by
  have next (g : Nat) : (g + 1) % groupCount < 4096 := Nat.mod_lt _ (by decide)
  induction n generalizing g with
  | zero => rfl
  | succ n ih =>
    cases hs : a.groupState g with
    | erased => rw [ring_stops (.inl hs)]
    | full => rw [ring_stops (.inr hs)]
    | failing => exact absurd hs (h g hg)
    | bad => rw [ring_passes (.inl hs), ih (next g)]
    | filling => rw [ring_passes (.inr hs), ih (next g)]

theorem Archive.place_idle (h : ∀ g < 4096, a.groupState g ≠ .failing) (hg : g < 4096) :
    (a.place g).1 = { a with group := (a.place g).1.group, page := (a.place g).1.page } := by
  have idle := ring_idle h groupCount hg
  unfold place
  dsimp only
  split
  · dsimp only
    rw [idle]
  · rw [idle]

end

/-! ## EXHAUSTED (R109) -/

/-- The blocks that stay in the write queue when EXHAUSTED is entered: the one whose PROGRAM is in progress. -/
def Archive.keptBlocks (a : Archive) : List Block := if a.op = some .program then a.queue.take 1 else []

/-- Either nothing of the queue changed, or EXHAUSTED was entered and the queue dropped, counted and subtracted from the occupancy. -/
def Spent (a b : Archive) : Prop :=
  (b.exhausted = a.exhausted ∧ b.queue = a.queue ∧ b.occupancy = a.occupancy ∧ b.headFailed = a.headFailed ∧ b.cnt.dropped = a.cnt.dropped) ∨
  (a.exhausted = false ∧ b.exhausted = true ∧ b.queue = a.keptBlocks ∧ b.occupancy = a.occupancy - (a.queue.length - a.keptBlocks.length) ∧
    b.headFailed = (a.headFailed && !a.keptBlocks.isEmpty) ∧ b.cnt.dropped = bump a.cnt.dropped (a.queue.length - a.keptBlocks.length))

namespace Spent
variable {a b c : Archive}

theorem refl (a : Archive) : Spent a a := .inl ⟨rfl, rfl, rfl, rfl, rfl⟩

/-- The blocks that stay depend on the operation in progress and the queue only. -/
theorem keptBlocks_congr (ho : b.op = a.op) (hq : b.queue = a.queue) : b.keptBlocks = a.keptBlocks := by
  unfold Archive.keptBlocks
  rw [ho, hq]

theorem trans (h : Spent a b) (k : Spent b c) (ho : b.op = a.op) : Spent a c := by
  rcases h with ⟨h1, h2, h3, h4, h5⟩ | ⟨h0, h1, h2, h3, h4, h5⟩
  · rcases k with ⟨k1, k2, k3, k4, k5⟩ | ⟨k0, k1, k2, k3, k4, k5⟩
    · exact .inl ⟨k1.trans h1, k2.trans h2, k3.trans h3, k4.trans h4, k5.trans h5⟩
    · rw [keptBlocks_congr ho h2] at k2 k3 k4 k5
      rw [h2, h3] at k3
      rw [h4] at k4
      rw [h2, h5] at k5
      exact .inr ⟨h1.symm.trans k0, k1, k2, k3, k4, k5⟩
  · rcases k with ⟨k1, k2, k3, k4, k5⟩ | ⟨k0, _⟩
    · exact .inr ⟨h0, k1.trans h1, k2.trans h2, k3.trans h3, k4.trans h4, k5.trans h5⟩
    · exact absurd (h1.symm.trans k0) (by decide)

theorem testExhausted (a : Archive) : Spent a a.testExhausted.1 := by
  unfold Archive.testExhausted
  split
  · next h =>
    obtain ⟨fresh, -⟩ := Bool.and_eq_true_iff.mp h
    exact .inr ⟨by simpa using fresh, rfl, rfl, rfl, rfl, rfl⟩
  · exact refl a

theorem retireGroup (a : Archive) (g : Nat) : Spent a (a.retireGroup g).1 :=
  trans (b := { (a.setGroup g .bad).unindex g with cnt := { a.cnt with retired := bump a.cnt.retired } }) (refl a) (testExhausted _) rfl

theorem ring (n : Nat) (a : Archive) (g : Nat) : Spent a (Archive.ring n a g).1.1 :=
  (Archive.ring_induction (R := fun a b => Spent a b ∧ b.op = a.op) (fun a => ⟨refl a, rfl⟩)
    (fun h k => ⟨h.1.trans k.1 h.2, k.2.trans h.2⟩) (fun a g _ => ⟨retireGroup a g, by rw [Walked.retireGroup a g]⟩) n a g).1

theorem place (a : Archive) (g : Nat) : Spent a (a.place g).1 := by
  have walked := ring groupCount a g
  unfold Archive.place
  dsimp only
  split
  · exact walked
  · exact walked

/-- With the flash idle the queue is empty where EXHAUSTED was entered. -/
theorem keptBlocks_idle (h : a.op ≠ some .program) : a.keptBlocks = [] := if_neg h

/-- An empty queue stays empty. -/
theorem queue_nil (h : Spent a b) (hq : a.queue = []) : b.queue = [] ∧ b.occupancy = a.occupancy := by
  have none : a.keptBlocks = [] := by
    unfold Archive.keptBlocks
    rw [hq]
    simp
  rcases h with ⟨_, h2, h3, _⟩ | ⟨_, _, h2, h3, _⟩
  · exact ⟨h2.trans hq, h3⟩
  · rw [none, hq] at h3
    exact ⟨h2.trans none, h3⟩

end Spent

/-- With fewer than 64 usable groups the archive is EXHAUSTED: so it is once a group has become BAD (R109). -/
def Tested (a : Archive) : Prop := a.usable < 64 → a.exhausted = true

namespace Tested
variable {a b : Archive}

theorem testExhausted (a : Archive) : Tested a.testExhausted.1 := by
  intro h
  rw [Archive.usable_congr a.testExhausted_groups] at h
  unfold Archive.testExhausted
  split
  · rfl
  · next k => simpa [h] using k

theorem retireGroup (a : Archive) (g : Nat) : Tested (a.retireGroup g).1 := testExhausted _

theorem ring (h : Tested a) (n : Nat) (g : Nat) : Tested (Archive.ring n a g).1.1 :=
  Archive.ring_induction (R := fun a b => Tested a → Tested b) (fun _ => id) (fun h k => k ∘ h) (fun a g _ _ => retireGroup a g) n a g h

theorem of_groups (h : Tested a) (e : b.groups = a.groups) (hx : b.exhausted = a.exhausted) : Tested b := by
  unfold Tested
  rw [Archive.usable_congr e, hx]
  exact h

end Tested

/-! ## The choice and group states -/

section
variable (a : Archive)

theorem Archive.startRead_groups : a.startRead.groups = a.groups := by rw [startRead_kept]

theorem Aged.lookedAhead : Aged a a.lookedAhead := ring groupCount a _

/-- The choice changes FAILING groups only, which become BAD. -/
theorem Aged.choose : Aged a a.choose.1 := by
  rcases a.choose_cases with h | ⟨_, _, _, _, h⟩ | ⟨_, _, _, h⟩ | ⟨_, _, _, _, _, h⟩ <;> rw [h]
  · exact .refl a
  · rcases a.writeStep_cases with ⟨_, k⟩ | ⟨_, k⟩ | ⟨_, k⟩ <;> rw [k] <;> exact .of_groups rfl
  · exact .of_groups a.startRead_groups
  · rcases a.eraseAhead_cases with ⟨_, k⟩ | ⟨_, k⟩ | ⟨_, g, _, _, _, k⟩ <;> rw [k]
    · exact .refl a
    · exact .lookedAhead a
    · exact (Aged.lookedAhead a).trans (.of_groups rfl)

theorem Archive.startErase_marks {g h : Nat} : h ∈ (a.startErase g).marks ↔ h = g ∨ h ∈ a.marks := by
  unfold startErase
  dsimp only
  rw [insertBy_mem, List.mem_filter]
  by_cases e : h = g
  · simp [e]
  · simp [e, unindex]

theorem Archive.lookedAhead_marks : a.lookedAhead.marks = a.marks := by rw [lookedAhead, Walked.ring]

/-- Only a FULL group is marked by the choice (R106). -/
theorem Archive.choose_marks {h : Nat} (hm : h ∈ a.choose.1.marks) : h ∈ a.marks ∨ a.groupState h = .full := by
  rcases a.choose_cases with c | ⟨_, _, _, _, c⟩ | ⟨_, _, _, c⟩ | ⟨_, _, _, _, _, c⟩ <;> rw [c] at hm
  · exact .inl hm
  · rcases a.writeStep_cases with ⟨_, k⟩ | ⟨full, k⟩ | ⟨_, k⟩ <;> rw [k] at hm
    · exact .inl hm
    · rcases a.startErase_marks.mp hm with e | e
      · rw [e]
        exact .inr full
      · exact .inl e
    · exact .inl hm
  · rw [startRead_kept] at hm
    exact .inl hm
  · rcases a.eraseAhead_cases with ⟨_, k⟩ | ⟨_, k⟩ | ⟨_, g, _, full, _, k⟩ <;> rw [k] at hm
    · exact .inl hm
    · exact .inl (a.lookedAhead_marks ▸ hm)
    · rcases a.lookedAhead.startErase_marks.mp hm with e | e
      · rw [e]
        exact .inr ((Aged.lookedAhead a).back full (by decide))
      · exact .inl (a.lookedAhead_marks ▸ e)

/-- The choice drops the write queue only where it enters EXHAUSTED, the queue being empty then. -/
theorem Spent.choose : Spent a a.choose.1 := by
  rcases a.choose_cases with h | ⟨_, _, _, _, h⟩ | ⟨_, _, _, h⟩ | ⟨_, _, _, _, _, h⟩ <;> rw [h]
  · exact .refl a
  · rcases a.writeStep_cases with ⟨_, k⟩ | ⟨_, k⟩ | ⟨_, k⟩ <;> rw [k] <;> exact .refl a
  · rw [a.startRead_kept]
    exact .refl a
  · rcases a.eraseAhead_cases with ⟨_, k⟩ | ⟨_, k⟩ | ⟨_, g, _, _, _, k⟩ <;> rw [k]
    · exact .refl a
    · exact .ring ..
    · exact Spent.ring ..

theorem Archive.choose_queue : a.choose.1.queue = a.queue ∧ a.choose.1.occupancy = a.occupancy := by
  rcases a.choose_cases with h | ⟨_, _, _, _, h⟩ | ⟨_, _, _, h⟩ | ⟨_, _, _, hq, _, _⟩
  · rw [h]
    exact ⟨rfl, rfl⟩
  · rw [h]
    rcases a.writeStep_cases with ⟨_, k⟩ | ⟨_, k⟩ | ⟨_, k⟩ <;> rw [k] <;> exact ⟨rfl, rfl⟩
  · rw [h, a.startRead_kept]
    exact ⟨rfl, rfl⟩
  · obtain ⟨queue, occupancy⟩ := (Spent.choose a).queue_nil hq
    exact ⟨queue.trans hq.symm, occupancy⟩

theorem Tested.choose {a : Archive} (t : Tested a) : Tested a.choose.1 := by
  rcases a.choose_cases with h | ⟨_, _, _, _, h⟩ | ⟨_, _, _, h⟩ | ⟨_, _, _, _, _, h⟩ <;> rw [h]
  · exact t
  · rcases a.writeStep_cases with ⟨_, k⟩ | ⟨_, k⟩ | ⟨_, k⟩ <;> rw [k] <;> exact t.of_groups rfl rfl
  · exact t.of_groups a.startRead_groups (by rw [a.startRead_kept])
  · have walked : Tested a.lookedAhead := ring t groupCount _
    rcases a.eraseAhead_cases with ⟨_, k⟩ | ⟨_, k⟩ | ⟨_, g, _, _, _, k⟩ <;> rw [k]
    · exact t
    · exact walked
    · exact walked.of_groups rfl rfl

theorem Worn.choose {a : Archive} (h : GroupsInv a) : Worn a a.choose.1 := by
  have same {b : Archive} (eg : b.groups = a.groups) (ex : b.exhausted = a.exhausted) (eq : b.queue = a.queue) : Worn a b := by
    refine ⟨?_, (Archive.usable_congr eg).le, .inl ⟨ex, eq⟩⟩
    unfold GroupsInv
    rw [eg]
    exact h
  rcases a.choose_cases with c | ⟨_, _, _, _, c⟩ | ⟨_, _, _, c⟩ | ⟨_, _, _, _, _, c⟩ <;> rw [c]
  · exact .refl h
  · rcases a.writeStep_cases with ⟨_, k⟩ | ⟨_, k⟩ | ⟨_, k⟩ <;> rw [k] <;> exact same rfl rfl rfl
  · exact same a.startRead_groups (by rw [a.startRead_kept]) (by rw [a.startRead_kept])
  · have walked : Worn a a.lookedAhead := Archive.ring_worn _ h _
    rcases a.eraseAhead_cases with ⟨_, k⟩ | ⟨_, k⟩ | ⟨_, g, _, _, _, k⟩ <;> rw [k]
    · exact .refl h
    · exact walked
    · exact walked

end

end Sys2Proof.Machine
end

section
/-! # CLEAR ALL DATA at capture and archive, as one step behind a flash operation (R104, R121, R190) -/

namespace Sys2Proof.Machine

/-! ## The archive emptied -/

theorem bump_bump (n k m : Nat) : bump (bump n k) m = bump n (k + m) := by
  unfold bump
  omega

/-- Neither ERASED, FILLING nor FULL. -/
def GroupState.unusable (g : GroupState) : Prop := g = .bad ∨ g = .failing

/-- The archive as the clear empties it, before the write point is placed (R121). -/
def Archive.emptied (a : Archive) : Archive :=
  { a with
    nextBlock := 1, queue := [], headFailed := false, occupancy := 0, clear := false, requests := [],
    groups := a.groups.filter (fun p => p.2 == .bad || p.2 == .failing)
    group := 0, page := 0, index := Vector.replicate 64 []
    cnt := { a.cnt with dropped := bump a.cnt.dropped a.queue.length } }

section
variable {a : Archive} {g : Nat}

theorem Archive.cleared_eq (a : Archive) : a.cleared = a.emptied.place 0 := rfl

/-- In a list with rising keys an entry of a key found under a condition is the entry of that key. -/
theorem find_rising {l : List (Nat × GroupState)} (h : l.Pairwise (fun p q => p.1 < q.1)) (g : Nat) (f : Nat × GroupState → Bool) :
    (l.filter f).find? (fun p => p.1 == g) = (l.find? (fun p => p.1 == g)).filter f := by
  induction l with
  | nil => rfl
  | cons z zs ih =>
    obtain ⟨hz, hzs⟩ := List.pairwise_cons.mp h
    have ih := ih hzs
    by_cases hg : z.1 = g
    · have absent : zs.find? (fun p => p.1 == g) = none := List.find?_eq_none.mpr fun y hy => by
        have := hz y hy
        simp
        omega
      rw [absent] at ih
      rw [List.find?_cons_of_pos (by simpa using hg)]
      cases hf : f z with
      | false => rw [List.filter_cons_of_neg (by simp [hf]), ih, Option.filter_some, if_neg (by simp [hf])]; rfl
      | true => rw [List.filter_cons_of_pos hf, List.find?_cons_of_pos (by simpa using hg), Option.filter_some, if_pos hf]
    · rw [List.find?_cons_of_neg (by simpa using hg)]
      cases hf : f z with
      | false => rw [List.filter_cons_of_neg (by simp [hf]), ih]
      | true => rw [List.filter_cons_of_pos hf, List.find?_cons_of_neg (by simpa using hg), ih]

/-- The clear makes every usable group FULL and leaves the others. -/
theorem Archive.emptied_groupState (h : GroupsInv a) (g : Nat) :
    (¬(a.groupState g).unusable → a.emptied.groupState g = .full) ∧
    ((a.groupState g).unusable → a.emptied.groupState g = a.groupState g) := by
  have found : a.emptied.groupState g =
      (((a.groups.find? (fun p => p.1 == g)).filter (fun p => p.2 == .bad || p.2 == .failing)).map (·.2)).getD .full := by
    rw [groupState_eq, ← find_rising h]
    rfl
  rw [found, groupState_eq]
  unfold GroupState.unusable
  cases a.groups.find? (fun p => p.1 == g) with
  | none => exact ⟨fun _ => rfl, fun _ => rfl⟩
  | some p =>
    obtain ⟨k, st⟩ := p
    cases st with
    | bad => exact ⟨fun h => absurd (.inl rfl) h, fun _ => rfl⟩
    | failing => exact ⟨fun h => absurd (.inr rfl) h, fun _ => rfl⟩
    | _ => exact ⟨fun _ => rfl, fun h => absurd h (by simp)⟩

/-- No group is FILLING once the clear has applied. -/
theorem Archive.emptied_not_filling (a : Archive) (g : Nat) : a.emptied.groupState g ≠ .filling := by
  rw [groupState_eq]
  cases hf : a.emptied.groups.find? (fun p => p.1 == g) with
  | none => decide
  | some p =>
    have worn := (List.mem_filter.mp (List.mem_of_find?_eq_some hf)).2
    intro filling
    have state : p.2 = .filling := filling
    simp [state] at worn

/-! ## The walk over unusable groups (R105, R113) -/

/-- The walk makes a run of unusable groups BAD and goes on behind it. -/
theorem Archive.ring_over (d : Nat) {n : Nat} (hn : d ≤ n) (hg : g + d ≤ 4096)
    (worn : ∀ j, g ≤ j → j < g + d → (a.groupState j).unusable) :
    ∃ b, (ring n a (g % 4096)).1.1 = (ring (n - d) b ((g + d) % 4096)).1.1 ∧ (ring n a (g % 4096)).2 = (ring (n - d) b ((g + d) % 4096)).2 ∧
      Aged a b ∧ ∀ j, g ≤ j → j < g + d → b.groupState j = .bad := by
  induction d generalizing a g n with
  | zero => exact ⟨a, rfl, rfl, .refl a, fun j h1 h2 => absurd h2 (Nat.not_lt.mpr h1)⟩
  | succ d ih =>
    obtain ⟨m, rfl⟩ : ∃ m, n = m + 1 := ⟨n - 1, by omega⟩
    have rest (c : Archive) (aged : Aged a c) (bad : c.groupState g = .bad) :
        ∃ b, (ring m c ((g + 1) % 4096)).1.1 = (ring (m + 1 - (d + 1)) b ((g + (d + 1)) % 4096)).1.1 ∧
          (ring m c ((g + 1) % 4096)).2 = (ring (m + 1 - (d + 1)) b ((g + (d + 1)) % 4096)).2 ∧
          Aged a b ∧ ∀ j, g ≤ j → j < g + (d + 1) → b.groupState j = .bad := by
      have still (j : Nat) (h1 : g + 1 ≤ j) (h2 : j < g + 1 + d) : (c.groupState j).unusable := by
        rcases aged j with same | ⟨_, now⟩
        · rw [same]
          exact worn j (by omega) (by omega)
        · exact .inl now
      obtain ⟨b, table, found, later, passed⟩ := ih (a := c) (g := g + 1) (n := m) (by omega) (by omega) still
      rw [show m + 1 - (d + 1) = m - d by omega, show g + (d + 1) = g + 1 + d by omega]
      refine ⟨b, table, found, aged.trans later, fun j h1 h2 => ?_⟩
      by_cases at_ : j = g
      · rw [at_, later.kept (by rw [bad]; decide), bad]
      · exact passed j (by omega) h2
    rw [Nat.mod_eq_of_lt (by omega : g < 4096)]
    rcases worn g (Nat.le_refl g) (by omega) with bad | failing
    · rw [ring_passes (.inl bad)]
      exact rest a (.refl a) bad
    · rw [(ring_retires failing).1, (ring_retires failing).2]
      refine rest _ (.retireGroup failing) ?_
      rw [groupState_congr (a.retireGroup_groups g), setGroup_same]

/-- Where the walk from the first group on ends at the first usable one, those before it BAD (R105). -/
theorem Archive.ring_first {h : Nat} (hh : h < 4096) (found : a.groupState h = .erased ∨ a.groupState h = .full)
    (worn : ∀ j < h, (a.groupState j).unusable) :
    (ring 4096 a 0).2 = some h ∧ ∀ j < h, (ring 4096 a 0).1.1.groupState j = .bad := by
  obtain ⟨b, table, ends, aged, bad⟩ := ring_over (a := a) (g := 0) h (n := 4096) (by omega) (by omega) (fun j _ hj => worn j (by omega))
  have kept : b.groupState h = a.groupState h := aged.kept (by rcases found with f | f <;> rw [f] <;> decide)
  rw [← kept] at found
  rw [Nat.zero_add, Nat.mod_eq_of_lt hh, Nat.zero_mod, show 4096 - h = (4095 - h) + 1 by omega, ring_stops (g := h) found] at table ends
  rw [table, ends]
  exact ⟨rfl, fun j hj => bad j (Nat.zero_le j) (by omega)⟩

/-- Without a usable group the walk finds none and makes every group BAD (R105). -/
theorem Archive.ring_none (worn : ∀ j < 4096, (a.groupState j).unusable) :
    (ring 4096 a 0).2 = none ∧ ∀ j < 4096, (ring 4096 a 0).1.1.groupState j = .bad := by
  obtain ⟨b, table, ends, _, bad⟩ := ring_over (a := a) (g := 0) 4096 (n := 4096) (by omega) (by omega) (fun j _ hj => worn j (by omega))
  rw [Nat.zero_mod, Nat.sub_self] at table ends
  rw [table, ends]
  exact ⟨rfl, fun j hj => bad j (Nat.zero_le j) (by omega)⟩

/-! ## The archive cleared (R121) -/

theorem Archive.place_found {h : Nat} (hf : (ring 4096 a g).2 = some h) : (a.place g).1 = { (ring 4096 a g).1.1 with group := h, page := 0 } := by
  unfold place
  dsimp only
  rw [show groupCount = 4096 from rfl, hf]

theorem Archive.place_none (hf : (ring 4096 a g).2 = none) : (a.place g).1 = (ring 4096 a g).1.1 := by
  unfold place
  dsimp only
  rw [show groupCount = 4096 from rfl, hf]

/-- The write point after a clear, and the groups the walk to it has met (R104, R121, log entry 45). -/
theorem Archive.cleared_groups (h : GroupsInv a) :
    (∀ g < 4096, ¬(a.groupState g).unusable → (∀ j < g, (a.groupState j).unusable) → a.cleared.1.group = g) ∧
    ((∀ g < 4096, (a.groupState g).unusable) → a.cleared.1.group = 0) ∧
    ∀ g < 4096, (¬(a.groupState g).unusable → a.cleared.1.groupState g = .full) ∧
      ((a.groupState g).unusable → (a.cleared.1.groupState g).unusable) ∧
      (a.groupState g = .bad ∨ (∀ j ≤ g, (a.groupState j).unusable) → a.cleared.1.groupState g = .bad) := by
  have emptied := emptied_groupState h
  have worn {j : Nat} (hj : (a.groupState j).unusable) : (a.emptied.groupState j).unusable := by rw [(emptied j).2 hj]; exact hj
  have aged : Aged a.emptied a.cleared.1 := Aged.place a.emptied 0
  rw [cleared_eq] at aged ⊢
  refine ⟨fun g hg ok first => ?_, fun none => ?_, fun g hg => ⟨fun ok => ?_, fun hw => ?_, fun bad => ?_⟩⟩
  · rw [place_found (ring_first hg (.inr ((emptied g).1 ok)) (fun j hj => worn (first j hj))).1]
  · have lost := (ring_none (a := a.emptied) (fun j hj => worn (none j hj))).1
    rw [place_none lost, Walked.ring]
    rfl
  · have full := (emptied g).1 ok
    rw [aged.kept (by rw [full]; decide), full]
  · rcases aged g with same | ⟨_, now⟩
    · rw [same]
      exact worn hw
    · exact .inl now
  · rcases bad with bad | first
    · have was : a.emptied.groupState g = .bad := ((emptied g).2 (.inl bad)).trans bad
      rw [aged.kept (by rw [was]; decide), was]
    · rw [groupState_congr (place_groups _ _)]
      by_cases none : ∀ j < 4096, (a.groupState j).unusable
      · exact (ring_none (fun j hj => worn (none j hj))).2 g hg
      · push Not at none
        classical
        let k := Nat.find none
        obtain ⟨hk, ok⟩ := Nat.find_spec none
        have before (j : Nat) (hj : j < k) : (a.groupState j).unusable := by
          by_contra bad
          exact Nat.find_min none hj ⟨hj.trans hk, bad⟩
        have later : g < k := Nat.lt_of_not_le fun hle => ok (first k hle)
        exact (ring_first hk (.inr ((emptied k).1 ok)) (fun j hj => worn (before j hj))).2 g later

theorem Archive.cleared_page (a : Archive) : a.cleared.1.page = 0 := by
  rw [cleared_eq]
  cases hf : (ring 4096 a.emptied 0).2 with
  | none =>
    rw [place_none hf, Walked.ring]
    rfl
  | some h => rw [place_found hf]

theorem Archive.cleared_index (a : Archive) : a.cleared.1.index = Vector.replicate 64 [] := by
  refine Vector.ext fun i hi => ?_
  rw [Vector.getElem_replicate]
  refine List.eq_nil_iff_forall_not_mem.mpr fun e he => ?_
  rw [cleared_eq, place_index] at he
  have kept := ring_index groupCount a.emptied 0 ⟨i, hi⟩ e he
  have none : a.emptied.index[(⟨i, hi⟩ : Fin 64)] = [] := Vector.getElem_replicate hi
  rw [none] at kept
  cases kept

/-- The queue and what counts with it after a clear. -/
theorem Archive.cleared_queue (a : Archive) : a.cleared.1.queue = [] ∧ a.cleared.1.occupancy = 0 ∧ a.cleared.1.headFailed = false ∧
    a.cleared.1.cnt.dropped = bump a.cnt.dropped a.queue.length := by
  have spent : Spent a.emptied a.cleared.1 := Spent.place a.emptied 0
  obtain ⟨queue, occupancy⟩ := spent.queue_nil rfl
  refine ⟨queue, occupancy, ?_, ?_⟩
  · rcases spent with ⟨_, _, _, same, _⟩ | ⟨_, _, _, _, now, _⟩
    · exact same
    · exact now.trans (Bool.false_and _)
  · rcases spent with ⟨_, _, _, _, same⟩ | ⟨_, _, _, _, _, now⟩
    · exact same
    · exact now.trans (bump_bump a.cnt.dropped a.queue.length _ |>.trans (by rw [show a.emptied.queue = [] from rfl]; simp))

/-- The archive after a clear but for the group table, the write point's group, EXHAUSTED, the marks and the counts. -/
theorem Archive.cleared_archive (a : Archive) : a.cleared.1 =
    { groups := a.cleared.1.groups, group := a.cleared.1.group, exhausted := a.cleared.1.exhausted, nextBlock := 1, queue := [],
      headFailed := false, occupancy := 0, marks := a.marks, page := 0, op := a.op, lastOp := a.lastOp, lastChan := a.lastChan,
      index := Vector.replicate 64 [], requests := [], clear := false,
      cnt := { a.cnt with dropped := bump a.cnt.dropped a.queue.length, retired := a.cleared.1.cnt.retired } } := by
  obtain ⟨queue, occupancy, headFailed, dropped⟩ := a.cleared_queue
  have placed : a.cleared.1 = _ := a.emptied.place_placed 0
  rw [← a.cleared_eq, a.cleared_page, a.cleared_index, queue, occupancy, headFailed, dropped] at placed
  exact placed

/-- With no FAILING group the clear makes no group BAD and does not enter EXHAUSTED. -/
theorem Archive.cleared_idle (h : GroupsInv a) (none : ∀ g < 4096, a.groupState g ≠ .failing) :
    a.cleared.1.exhausted = a.exhausted ∧ a.cleared.1.cnt.retired = a.cnt.retired ∧ a.cleared.1.usable = a.usable := by
  have still (g : Nat) (hg : g < 4096) : a.emptied.groupState g ≠ .failing := by
    by_cases hw : (a.groupState g).unusable
    · rw [(emptied_groupState h g).2 hw]
      exact none g hg
    · rw [(emptied_groupState h g).1 hw]
      decide
  rw [cleared_eq, place_idle still (by decide)]
  refine ⟨rfl, rfl, ?_⟩
  unfold usable
  show groupCount - ((a.groups.filter _).filter _).length = _
  rw [List.filter_filter]
  congr 2
  refine List.filter_congr fun p _ => ?_
  cases p.2 <;> rfl

/-- Nothing waits after a clear, so that no flash operation is chosen. -/
theorem Archive.cleared_choose (a : Archive) : a.cleared.1.choose = (a.cleared.1, []) := by
  have notFilling (g : Nat) : a.cleared.1.groupState g ≠ .filling := fun hf =>
    a.emptied_not_filling g ((Aged.place a.emptied 0).back hf (by decide))
  have queue : a.cleared.1.queue = [] := a.cleared_queue.1
  have requests : a.cleared.1.requests = [] := by rw [cleared_archive]
  rcases a.cleared.1.choose_cases with h | ⟨_, _, _, hq, _⟩ | ⟨_, _, hr, _⟩ | ⟨_, _, _, _, _, h⟩
  · exact h
  · exact absurd queue hq
  · exact absurd requests hr
  · rcases a.cleared.1.eraseAhead_cases with ⟨_, k⟩ | ⟨⟨filling, _⟩, _⟩ | ⟨⟨filling, _⟩, _⟩
    · exact h.trans k
    · exact absurd filling (notFilling _)
    · exact absurd filling (notFilling _)

end

/-! ## The step behind a flash operation (R121, R190) -/

/-- A choice of nothing leaves the state. -/
theorem State.flashKick_idle {s : State} (h : s.archive.choose = (s.archive, [])) : s.flashKick = s := by
  unfold State.flashKick
  rw [h]
  rfl

/-- The state behind a flash operation, the clear waiting and the flash idle: link, lines and capture are as before the operation, and `usable`
are its usable groups. -/
structure ClearDue (usable : Nat → Prop) (s u : State) : Prop where
  link     : SameLink s u
  trackers : u.trackers = s.trackers
  capture  : u.capture = s.capture
  clear    : u.archive.clear = true
  op       : u.archive.op = none
  lastOp   : u.archive.lastOp = s.archive.lastOp
  lastChan : u.archive.lastChan = s.archive.lastChan
  within   : ∀ g, usable g → g < 4096
  groups   : GroupsInv s.archive → GroupsInv u.archive ∧ ∀ g < 4096, (usable g ↔ ¬(u.archive.groupState g).unusable) ∧
    (¬usable g → s.archive.groupState g = .bad → (s.archive.op = some .program → g ≠ s.archive.group) → u.archive.groupState g = .bad)

section
variable {s u : State}

/-- The clear applied to capture and archive. -/
def State.emptiedStore (u : State) : State := State.withArch { u with capture := u.capture.cleared } u.archive.cleared

theorem State.storeClear_due (hc : u.archive.clear = true) (ho : u.archive.op = none) : u.storeClear = u.emptiedStore := by
  unfold State.storeClear
  rw [hc, ho]
  rfl

theorem State.storeClear_quiet (hc : u.archive.clear = false) : u.storeClear = u := by
  unfold State.storeClear
  rw [hc]
  rfl

theorem State.emptiedStore_archive (u : State) : u.emptiedStore.archive = u.archive.cleared.1 := State.withArch_archive _ _

theorem State.emptiedStore_touches (u : State) : Touches [.archive, .slc] { u with capture := u.capture.cleared } u.emptiedStore :=
  (Touches.refl _ _).withArch rfl rfl

theorem State.emptiedStore_link (u : State) : SameLink u u.emptiedStore :=
  (SameLink.of_slc (t := { u with capture := u.capture.cleared, archive := u.archive.cleared.1 }) rfl).trans (State.raiseAll_link _ _)

/-- CLEAR ALL DATA is answered where table and trackers have done their part (R190), and else it waits. -/
theorem State.clearAnswer_cases (v : State) :
    (∀ f, v.slc.unit = .clearing f true → v.archive.clear = false → (∀ l : Fin 4, (v.trackers[l]).clear = false) → v.clearAnswer = v.accept f) ∧
    ∀ f d, v.slc.unit = .clearing f d → d = false ∨ (∃ l : Fin 4, (v.trackers[l]).clear = true) → v.clearAnswer = v := by
  have some_clear : v.trackers.toList.any (·.clear) = true ↔ ∃ l : Fin 4, (v.trackers[l]).clear = true := by
    rw [List.any_eq_true]
    constructor
    · rintro ⟨t, ht, hc⟩
      obtain ⟨i, hi, rfl⟩ := Vector.mem_iff_getElem.mp (Vector.mem_toList_iff.mp ht)
      exact ⟨⟨i, hi⟩, hc⟩
    · rintro ⟨l, hc⟩
      exact ⟨_, Vector.mem_toList_iff.mpr (Vector.getElem_mem l.2), hc⟩
  refine ⟨fun f hu hc ht => ?_, fun f d hu hd => ?_⟩
  · unfold State.clearAnswer
    rw [hu]
    dsimp only
    rw [if_neg]
    rw [hc, Bool.false_or, some_clear]
    rintro ⟨l, hl⟩
    exact absurd (hl.symm.trans (ht l)) (by decide)
  · unfold State.clearAnswer
    rw [hu]
    cases d with
    | false => rfl
    | true =>
      dsimp only
      rw [if_pos]
      rw [some_clear.mpr (hd.resolve_left (by decide)), Bool.or_true]

theorem ClearDue.archive {usable : Nat → Prop} (h : ClearDue usable s u) :
    u.storeClear.clearAnswer.flashKick.kick.archive = u.archive.cleared.1 := by
  rw [State.kick_archive, State.flashKick_archive, State.clearAnswer_archive, State.storeClear_due h.clear h.op, State.emptiedStore_archive,
    Archive.cleared_choose]

/-- A clear due is applied to capture and archive as R121 says, and answered as R190 says. -/
theorem ClearDue.storeCleared {usable : Nat → Prop} (h : ClearDue usable s u) :
    StoreCleared usable s u.storeClear.clearAnswer.flashKick.kick := by
  have archive := h.archive
  set v := u.emptiedStore with hv
  have store : u.storeClear = v := State.storeClear_due h.clear h.op
  have cleared : v.archive = u.archive.cleared.1 := u.emptiedStore_archive
  have idle : v.clearAnswer.flashKick = v.clearAnswer :=
    State.flashKick_idle (by rw [State.clearAnswer_archive, cleared, Archive.cleared_choose])
  have trackers : v.trackers = s.trackers := u.emptiedStore_touches.trackers_eq.trans h.trackers
  have link : SameLink s v := h.link.trans u.emptiedStore_link
  have capture : u.storeClear.clearAnswer.flashKick.kick.capture = s.capture.cleared := by
    rw [State.kick_capture, (State.flashKick_touches _).capture_eq, ((Touches.refl [.slc] _).clearAnswer rfl).capture_eq, store,
      u.emptiedStore_touches.capture_eq, h.capture]
  have slots (i : Fin 64) : (s.capture.cleared.slots)[i] = { s.capture.slots[i] with block := none, mark := none } := Vector.getElem_map ..
  rw [store, idle] at archive capture ⊢
  refine ⟨?_, fun inv => ?_, ?_, fun i => ?_, fun f hu ht => ?_, fun f d hu hd => ?_⟩
  · rw [archive, Archive.cleared_archive, h.op, h.lastOp, h.lastChan]
  · obtain ⟨uinv, states⟩ := h.groups inv
    obtain ⟨first, none, each⟩ := Archive.cleared_groups uinv
    have worn {j : Nat} (hj : j < 4096) (hn : ¬usable j) : (u.archive.groupState j).unusable := by
      by_contra ok
      exact hn ((states j hj).1.mpr ok)
    rw [archive]
    refine ⟨fun g hg before => ?_, fun hn => none fun g hg => worn hg (hn g), fun g hg => ⟨fun ok => ?_, fun hn => ⟨?_, fun bad => ?_⟩⟩⟩
    · have top := h.within g hg
      exact first g top ((states g top).1.mp hg) fun j hj => worn (hj.trans top) (before j hj)
    · exact (each g hg).1 ((states g hg).1.mp ok)
    · exact (each g hg).2.1 (worn hg hn)
    · refine (each g hg).2.2 ?_
      rcases bad with ⟨bad, apart⟩ | before
      · exact .inl ((states g hg).2 hn bad apart)
      · refine .inr fun j hj => worn (hj.trans_lt hg) ?_
        rcases hj.lt_or_eq with lt | rfl
        · exact before j lt
        · exact hn
  · rw [capture]
    rfl
  · rw [capture]
    exact slots i
  · have free : v.archive.clear = false := by rw [cleared, Archive.cleared_archive]
    rw [v.clearAnswer_cases.1 f (link.1.trans hu) free (fun l => by rw [trackers]; exact ht l)]
    refine link.answered ?_
    exact (v.finish_answered _ none).of_eq rfl rfl (State.kick_unit _) (State.kick_outgoing _)
  · rw [v.clearAnswer_cases.2 f d (link.1.trans hu) (by rw [trackers]; exact hd), State.kick_unit, State.kick_outgoing]
    exact ⟨link.1, link.outgoing⟩

end

end Sys2Proof.Machine
end

section
/-! # O49: ERASE, EXHAUSTED and the choice of the next flash operation (R105, R106, R109, R110, R121) -/

namespace Sys2Proof.Machine

/-! ## The choice in the words of R110 -/

section
variable {a : Archive} (hop : a.op = none) (hclear : a.clear = false)
include hop hclear

/-- A write step comes first with 12 blocks waiting, after a READ, or with no request waiting. -/
theorem Archive.choose_writes (hx : a.exhausted = false) (hq : a.queue ≠ []) (first : 12 ≤ a.queue.length ∨ a.lastOp = some .read ∨ a.requests = []) :
    a.choose = (a.writeStep, []) := by
  have writing : (!a.exhausted && !a.queue.isEmpty) = true := by simp [hx, hq]
  unfold choose
  rw [if_neg (by simp [hop, hclear])]
  dsimp only
  rw [writing]
  by_cases h12 : 12 ≤ a.queue.length
  · rw [if_pos (by simpa using h12)]
  · rw [if_neg (by simpa using h12)]
    by_cases hr : a.lastOp = some .read
    · rw [if_pos (by simp [hr])]
    · have none : a.requests = [] := (first.resolve_left h12).resolve_left hr
      rw [if_neg (by simpa using hr), none]
      rfl

/-- Else a READ, with a request waiting. -/
theorem Archive.choose_reads (hr : a.requests ≠ [])
    (later : ¬(a.exhausted = false ∧ a.queue ≠ []) ∨ a.queue.length < 12 ∧ a.lastOp ≠ some .read) : a.choose = (a.startRead, []) := by
  have writing : (!a.exhausted && !a.queue.isEmpty) = true ↔ a.exhausted = false ∧ a.queue ≠ [] := by simp
  unfold choose
  rw [if_neg (by simp [hop, hclear])]
  dsimp only
  rw [if_neg, if_neg, if_pos (by simpa using hr)]
  · intro h
    obtain ⟨w, k⟩ := Bool.and_eq_true_iff.mp h
    rcases later with notWriting | ⟨_, notRead⟩
    · exact notWriting (writing.mp w)
    · exact notRead (by simpa using k)
  · intro h
    obtain ⟨w, k⟩ := Bool.and_eq_true_iff.mp h
    rcases later with notWriting | ⟨short, _⟩
    · exact notWriting (writing.mp w)
    · exact absurd (of_decide_eq_true k) (Nat.not_le.mpr short)

/-- With nothing waiting, the erase-ahead (R106). -/
theorem Archive.choose_ahead (hx : a.exhausted = false) (hq : a.queue = []) (hr : a.requests = []) : a.choose = a.eraseAhead := by
  unfold choose
  rw [if_neg (by simp [hop, hclear])]
  simp [hx, hq, hr]

end

/-- The places after a channel in ring order, up to another (R110): each is nearer. -/
theorem ringAfter_split : ∀ c ch : Fin 4, ringAfter c = (ringAfter c).takeWhile (· != ch) ++ ch :: ((ringAfter c).dropWhile (· != ch)).tail ∧
    ∀ j ∈ (ringAfter c).takeWhile (· != ch), j - c - 1 < ch - c - 1 := by decide

/-- The READ that begins: the oldest request of the next channel that has one (R110). -/
theorem Archive.startRead_next {a : Archive} {ch : Fin 4} (asks : ∃ q ∈ a.requests, q.ch = ch)
    (next : ∀ j : Fin 4, j - a.lastChan - 1 < ch - a.lastChan - 1 → ¬∃ q ∈ a.requests, q.ch = j) :
    ∃ x q y, a.requests = x ++ q :: y ∧ q.ch = ch ∧ (∀ z ∈ x, z.ch ≠ ch) ∧
      a.startRead = { a with op := some (.read q true), lastOp := some .read, lastChan := ch, requests := x ++ y } := by
  obtain ⟨split, nearer⟩ := ringAfter_split a.lastChan ch
  obtain ⟨q, found⟩ := Option.isSome_iff_exists.mp (List.find?_isSome (p := fun r : ReadReq => r.ch == ch) |>.mpr (by simpa using asks))
  obtain ⟨at_, x, y, parts, before⟩ := List.find?_eq_some_iff_append.mp found
  have channel : q.ch = ch := by simpa using at_
  have apart : ∀ z ∈ x, z.ch ≠ ch := fun z hz => by simpa using before z hz
  have taken : (ringAfter a.lastChan).findSome? (fun ch => a.requests.find? (fun r => r.ch == ch)) = some q := by
    rw [List.findSome?_eq_some_iff]
    refine ⟨_, ch, _, split, found, fun j hj => ?_⟩
    rw [List.find?_eq_none]
    intro r hr hc
    exact next j (nearer j hj) ⟨r, hr, by simpa using hc⟩
  have notBefore : q ∉ x := fun hq => apart q hq channel
  refine ⟨x, q, y, parts, channel, apart, ?_⟩
  unfold startRead
  rw [taken]
  dsimp only
  rw [parts, List.erase_append_right _ notBefore, List.erase_cons_head, channel]

/-- The ERASE of a group begun and the archive otherwise as it was, but for the index, which loses the group's entries (R106, R113). -/
structure Archive.Erases (a c : Archive) (g : Nat) : Prop where
  op     : c.op = some (.erase g)
  lastOp : c.lastOp = some .erase
  marked : g ∈ c.marks
  count  : c.cnt.erases = bump a.cnt.erases
  queue  : c.queue = a.queue
  group  : c.group = a.group
  page   : c.page = a.page
  index  : ∀ (i : Fin 64) (e : Entry), e ∈ c.index[i] ↔ e ∈ a.index[i] ∧ e.page / 64 ≠ g

theorem Archive.startErase_erases (a : Archive) (g : Nat) : a.Erases (a.startErase g) g :=
  ⟨rfl, rfl, a.startErase_marks.mpr (.inl rfl), rfl, rfl, rfl, rfl, fun _ _ => startErase_index⟩

/-- The erase-ahead takes the next group when it is FULL (R106). -/
theorem Archive.eraseAhead_next {a : Archive} (near : a.nearlyFull) (hx : a.exhausted = false) (full : a.groupState ((a.group + 1) % 4096) = .full) :
    a.eraseAhead.1 = a.startErase ((a.group + 1) % 4096) := by
  have stops : ring groupCount a ((a.group + 1) % groupCount) = ((a, []), some ((a.group + 1) % 4096)) := ring_stops (n := 4095) (.inr full)
  unfold eraseAhead
  rw [if_pos (show _ ∧ _ from near), stops]
  dsimp only
  rw [if_pos ⟨full, by rw [hx]; rfl⟩]

/-! ## The end of an ERASE (R106) -/

/-- The write point placed, and EXHAUSTED tested. -/
theorem Placed.tested {a b : Archive} (h : Placed a b) : Placed a b.testExhausted.1 := by
  have walked := Walked.testExhausted b
  unfold Placed Walked at h ⊢
  unfold Walked at walked
  rw [walked, h]

theorem Aged.unusable_iff {a b : Archive} (h : Aged a b) (g : Nat) : (b.groupState g).unusable ↔ (a.groupState g).unusable := by
  rcases h g with same | ⟨was, now⟩
  · rw [same]
  · rw [was, now]
    exact ⟨fun _ => .inr rfl, fun _ => .inl rfl⟩

/-- What is dropped with what is left to drop is the same before EXHAUSTED and after. -/
theorem Spent.total {a b : Archive} (h : Spent a b) : bump b.cnt.dropped b.queue.length = bump a.cnt.dropped a.queue.length := by
  have short : a.keptBlocks.length ≤ a.queue.length := by
    unfold Archive.keptBlocks
    split
    · rw [List.length_take]
      exact Nat.min_le_right ..
    · exact Nat.zero_le _
  rcases h with ⟨_, queue, _, _, dropped⟩ | ⟨_, _, queue, _, _, dropped⟩
  · rw [queue, dropped]
  · rw [queue, dropped, bump_bump, Nat.sub_add_cancel short]

section
variable (k : Archive) (g : Nat)

/-- The archive behind an ERASE that failed (R105, R106, R109). -/
theorem Archive.eraseFailed_facts : let c := (k.erased g .failed).1
    Placed (k.groupLost g) c ∧ Aged (k.groupLost g) c ∧ Spent (k.groupLost g) c ∧ Tested c ∧ (GroupsInv k → Worn k c) ∧
    (k.group ≠ g → c.group = k.group ∧ c.page = k.page) := by
  rw [erased_failed]
  have worn (inv : GroupsInv k) : Worn k (k.groupLost g) :=
    ⟨setGroup_groupsInv (a := { k with op := none, marks := _ }) inv g .bad, setGroup_bad_usable (a := { k with op := none, marks := _ }) inv g,
      .inl ⟨rfl, rfl⟩⟩
  have tested (b : Archive) (placed : Placed (k.groupLost g) b) (aged : Aged (k.groupLost g) b) (spent : Spent (k.groupLost g) b)
      (w : GroupsInv k → Worn (k.groupLost g) b) (stays : k.group ≠ g → b.group = k.group ∧ b.page = k.page) :
      Placed (k.groupLost g) b.testExhausted.1 ∧ Aged (k.groupLost g) b.testExhausted.1 ∧ Spent (k.groupLost g) b.testExhausted.1 ∧
      Tested b.testExhausted.1 ∧ (GroupsInv k → Worn k b.testExhausted.1) ∧
      (k.group ≠ g → b.testExhausted.1.group = k.group ∧ b.testExhausted.1.page = k.page) := by
    refine ⟨placed.tested, aged.trans (.of_groups b.testExhausted_groups), spent.trans (.testExhausted b) (by rw [placed]), .testExhausted b,
      fun inv => (worn inv).trans ((w inv).trans (testExhausted_worn (w inv).1)), fun h => ?_⟩
    rw [Walked.testExhausted b]
    exact stays h
  by_cases at_ : k.group = g
  · rw [if_pos at_]
    exact tested _ (place_placed _ _) (Aged.place _ _) (Spent.place _ _) (fun inv => place_worn (worn inv).1 _) (fun h => absurd at_ h)
  · rw [if_neg at_]
    exact tested _ (Walked.refl _) (.refl _) (.refl _) (fun inv => .refl (worn inv).1) (fun _ => ⟨rfl, rfl⟩)

theorem Archive.groupLost_same : (k.groupLost g).groupState g = .bad := ({ k with op := none, marks := _ } : Archive).setGroup_same g .bad

theorem Archive.groupLost_other {h : Nat} (hg : h ≠ g) : (k.groupLost g).groupState h = k.groupState h :=
  ({ k with op := none, marks := k.marks.filter (· != g) } : Archive).setGroup_other hg .bad

theorem Archive.erasedGood_same : (k.erased g .good).1.groupState g = .erased := ({ k with op := none, marks := _ } : Archive).setGroup_same g .erased

theorem Archive.erasedGood_other {h : Nat} (hg : h ≠ g) : (k.erased g .good).1.groupState h = k.groupState h :=
  ({ k with op := none, marks := k.marks.filter (· != g) } : Archive).setGroup_other hg .erased

/-- A failed ERASE at the write point moves it to the next group, when that is ERASED or FULL (R105). -/
theorem Archive.eraseFailed_moves (at_ : k.group = g)
    (usable : k.groupState ((g + 1) % 4096) = .erased ∨ k.groupState ((g + 1) % 4096) = .full) :
    (k.erased g .failed).1.group = (g + 1) % 4096 ∧ (k.erased g .failed).1.page = 0 := by
  have stops : (k.groupLost g).advance = ({ k.groupLost g with group := (g + 1) % 4096, page := 0 }, []) := by
    unfold advance
    rw [show (k.groupLost g).group = g from at_]
    refine place_stops ?_
    show (k.groupLost g).groupState ((g + 1) % 4096) = _ ∨ (k.groupLost g).groupState ((g + 1) % 4096) = _
    rw [k.groupLost_other g (next_ne g)]
    exact usable
  rw [erased_failed, if_pos at_, stops, Walked.testExhausted]
  exact ⟨rfl, rfl⟩

end

/-! ## The command -/

/-- What follows the end of a flash operation where no clear waits. -/
theorem State.flashOver_quiet {u : State} (hc : u.archive.clear = false) :
    u.storeClear.clearAnswer.flashKick.kick.archive = u.archive.choose.1 ∧
    Touches [.archive, .slc] u u.storeClear.clearAnswer.flashKick.kick := by
  rw [State.storeClear_quiet hc]
  refine ⟨?_, (((Touches.refl _ u).clearAnswer rfl).flashKick rfl rfl).kick rfl⟩
  rw [State.kick_archive, State.flashKick_archive, State.clearAnswer_archive]

/-- What follows the end of a flash operation touches capture, archive and link only. -/
theorem State.flashOver_touches (u : State) : Touches [.capture, .archive, .slc] u u.storeClear.clearAnswer.flashKick.kick :=
  (((((Touches.refl _ u).storeClear rfl rfl rfl).clearAnswer rfl).flashKick rfl rfl).kick rfl)

section
variable {s : State} {g : Nat}

/-- The state behind the end of an ERASE, before what follows. -/
def State.eraseEnded (s : State) (g : Nat) (r : FlashEnd) : State :=
  ({ s with flash := match r with | .good => eraseGroup s.flash g | .failed => s.flash } : State).withArch (s.archive.erased g r)

theorem exec_erase (h : s.archive.op = some (.erase g)) (r : FlashEnd) :
    exec (.erase r) s = .next (s.eraseEnded g r).storeClear.clearAnswer.flashKick.kick := by
  have arm : exec (.erase r) s = execErase r s := rfl
  rw [arm]
  unfold execErase
  rw [h]
  cases r <;> rfl

theorem State.eraseEnded_archive (r : FlashEnd) : (s.eraseEnded g r).archive = (s.archive.erased g r).1 := State.withArch_archive _ _

theorem State.eraseEnded_flash (r : FlashEnd) :
    (s.eraseEnded g r).flash = match r with | .good => eraseGroup s.flash g | .failed => s.flash :=
  ((Touches.refl [.archive, .slc] _).withArch rfl rfl).flash_eq

theorem State.eraseEnded_link (r : FlashEnd) : SameLink s (s.eraseEnded g r) :=
  (SameLink.of_slc (t := { s with flash := _, archive := (s.archive.erased g r).1 }) rfl).trans (State.raiseAll_link _ _)

theorem State.eraseEnded_touches : Touches [.flash, .archive, .slc] s (s.eraseEnded g .good) ∧
    Touches [.archive, .slc] s (s.eraseEnded g .failed) :=
  ⟨((Touches.refl _ s).set_flash rfl).withArch rfl rfl, (Touches.refl _ s).withArch rfl rfl⟩

/-- The array after an ERASE that ended well. -/
theorem eraseGroup_read (m : List Host.Cell) (g a : Nat) :
    flashRead (eraseGroup m g) a = if 516 * (64 * g) ≤ a ∧ a < 516 * (64 * (g + 1)) then 0xFF#8 else flashRead m a := by
  split
  · next h => exact flashErase_inside m _ _ a h.1 h.2
  · next h => exact flashErase_outside m _ _ a (by unfold pageSize groupPages; omega)

/-- An ERASE that ended well with no clear waiting. -/
theorem erase_good_quiet (h : s.archive.op = some (.erase g)) (hc : s.archive.clear = false) :
    ∃ t, exec (.erase .good) s = .next t ∧ Touches [.flash, .archive, .slc] s t ∧
      (∀ a, 516 * (64 * g) ≤ a → a < 516 * (64 * (g + 1)) → flashRead t.flash a = 0xFF#8) ∧
      (∀ a, a < 516 * (64 * g) ∨ 516 * (64 * (g + 1)) ≤ a → flashRead t.flash a = flashRead s.flash a) ∧
      t.archive.groupState g = .erased ∧ g ∉ t.archive.marks := by
  have quiet : (s.eraseEnded g .good).archive.clear = false := by rw [State.eraseEnded_archive]; exact hc
  obtain ⟨archive, touches⟩ := State.flashOver_quiet quiet
  have erased := s.archive.erasedGood_same g
  have flash := touches.flash_eq.trans (State.eraseEnded_flash .good)
  refine ⟨_, exec_erase h .good, (State.eraseEnded_touches.1).trans touches.widen, fun a h1 h2 => ?_, fun a ha => ?_, ?_, ?_⟩
  · rw [flash]
    exact (eraseGroup_read ..).trans (if_pos ⟨h1, h2⟩)
  · rw [flash]
    exact (eraseGroup_read ..).trans (if_neg (by omega))
  · rw [archive, State.eraseEnded_archive, (Aged.choose _).kept (by rw [erased]; decide), erased]
  · rw [archive, State.eraseEnded_archive]
    intro marked
    rcases Archive.choose_marks _ marked with m | full
    · exact absurd rfl (bne_iff_ne.mp (List.mem_filter.mp m).2)
    · exact absurd (erased.symm.trans full) (by decide)

/-- An ERASE that failed with no clear waiting. -/
theorem erase_failed_quiet (h : s.archive.op = some (.erase g)) (hc : s.archive.clear = false) :
    let k := s.archive
    let next := (g + 1) % 4096
    ∃ t, exec (.erase .failed) s = .next t ∧ Touches [.archive, .slc] s t ∧ t.archive.groupState g = .bad ∧ g ∉ t.archive.marks ∧
      t.archive.cnt.eraseFailures = bump k.cnt.eraseFailures ∧
      (k.group = g → k.groupState next = .erased ∨ k.groupState next = .full → t.archive.group = next ∧ t.archive.page = 0) ∧
      (k.group ≠ g → t.archive.group = k.group ∧ t.archive.page = k.page) ∧
      (k.exhausted = false → t.archive.usable < 64 → t.archive.exhausted = true ∧ t.archive.queue = [] ∧
        t.archive.cnt.dropped = bump k.cnt.dropped k.queue.length) ∧
      (GroupsInv k → 64 ≤ t.archive.usable → t.archive.exhausted = k.exhausted ∧ t.archive.queue = k.queue) := by
  intro k next
  obtain ⟨placed, aged, spent, tested, worn, stays⟩ := k.eraseFailed_facts g
  have moves := k.eraseFailed_moves g
  have quiet : (s.eraseEnded g .failed).archive.clear = false := by rw [State.eraseEnded_archive, placed]; exact hc
  obtain ⟨archive, touches⟩ := State.flashOver_quiet quiet
  rw [State.eraseEnded_archive] at archive
  refine ⟨_, exec_erase h .failed, State.eraseEnded_touches.2.trans touches, ?_⟩
  rw [archive]
  generalize hcc : (s.archive.erased g .failed).1 = c at placed aged spent tested worn stays moves
  have lost : c.groupState g = .bad := by rw [aged.kept (by rw [k.groupLost_same]; decide), k.groupLost_same]
  have point : c.choose.1.group = c.group ∧ c.choose.1.page = c.page := by
    constructor
    · rw [Chosen.choose c]
    · rw [Chosen.choose c]
  have all : Spent (k.groupLost g) c.choose.1 := spent.trans (Spent.choose c) (by rw [placed])
  refine ⟨?_, fun marked => ?_, ?_, fun at_ usable => ?_, fun away => ?_, fun fresh few => ?_, fun inv many => ?_⟩
  · rw [(Aged.choose c).kept (by rw [lost]; decide), lost]
  · rcases c.choose_marks marked with m | full
    · rw [placed] at m
      exact absurd rfl (bne_iff_ne.mp (List.mem_filter.mp m).2)
    · exact absurd (lost.symm.trans full) (by decide)
  · rw [Chosen.choose c, placed]
    rfl
  · rw [point.1, point.2]
    exact moves at_ usable
  · rw [point.1, point.2]
    exact stays away
  · have entered := tested.choose few
    rcases all with ⟨same, _⟩ | ⟨_, _, queue, _, _, dropped⟩
    · exact absurd (entered.symm.trans (same.trans fresh)) (by decide)
    · rw [Spent.keptBlocks_idle (a := k.groupLost g) nofun] at queue dropped
      exact ⟨entered, queue, dropped⟩
  · obtain ⟨_, _, wearing⟩ := (worn inv).trans (Worn.choose (worn inv).1)
    rcases wearing with same | ⟨_, few⟩
    · exact same
    · exact absurd few (Nat.not_lt.mpr many)

/-- The clear applies behind an ERASE that ended well. -/
theorem erase_good_clearDue (hc : s.archive.clear = true) :
    ClearDue (fun j => j < 4096 ∧ (j = g ∨ j ≠ g ∧ s.archive.groupState j ≠ .bad ∧ s.archive.groupState j ≠ .failing)) s (s.eraseEnded g .good) where
  link := State.eraseEnded_link .good
  trackers := State.eraseEnded_touches.1.trackers_eq
  capture := State.eraseEnded_touches.1.capture_eq
  clear := by rw [State.eraseEnded_archive]; exact hc
  op := by rw [State.eraseEnded_archive]; rfl
  lastOp := by rw [State.eraseEnded_archive]; rfl
  lastChan := by rw [State.eraseEnded_archive]; rfl
  within _ hj := hj.1
  groups inv := by
    rw [State.eraseEnded_archive]
    refine ⟨Archive.erased_groupsInv inv g .good, fun j hj => ?_⟩
    by_cases at_ : j = g
    · rw [at_, s.archive.erasedGood_same g]
      exact ⟨⟨fun _ => by unfold GroupState.unusable; decide, fun _ => ⟨at_ ▸ hj, .inl rfl⟩⟩, fun hn => absurd ⟨at_ ▸ hj, .inl rfl⟩ hn⟩
    · rw [s.archive.erasedGood_other g at_]
      refine ⟨?_, fun _ bad _ => bad⟩
      unfold GroupState.unusable
      rw [not_or]
      exact ⟨fun hu => (hu.2.resolve_left at_).2, fun hu => ⟨hj, .inr ⟨at_, hu⟩⟩⟩

/-- The clear applies behind an ERASE that failed. -/
theorem erase_failed_clearDue (hc : s.archive.clear = true) :
    ClearDue (fun j => j < 4096 ∧ j ≠ g ∧ s.archive.groupState j ≠ .bad ∧ s.archive.groupState j ≠ .failing) s (s.eraseEnded g .failed) := by
  obtain ⟨placed, aged, _, _, worn, _⟩ := s.archive.eraseFailed_facts g
  refine ⟨State.eraseEnded_link .failed, State.eraseEnded_touches.2.trackers_eq, State.eraseEnded_touches.2.capture_eq, ?_, ?_, ?_, ?_,
    fun _ hj => hj.1, fun inv => ?_⟩
  · rw [State.eraseEnded_archive, placed]
    exact hc
  · rw [State.eraseEnded_archive, placed]
    rfl
  · rw [State.eraseEnded_archive, placed]
    rfl
  · rw [State.eraseEnded_archive, placed]
    rfl
  · rw [State.eraseEnded_archive]
    refine ⟨(worn inv).1, fun j hj => ?_⟩
    rw [aged.unusable_iff]
    by_cases at_ : j = g
    · rw [at_, s.archive.groupLost_same g]
      refine ⟨⟨fun hu => absurd rfl hu.2.1, fun ok => absurd (.inl rfl) ok⟩, fun _ _ _ => ?_⟩
      rw [aged.kept (by rw [s.archive.groupLost_same]; decide), s.archive.groupLost_same]
    · rw [s.archive.groupLost_other g at_]
      refine ⟨?_, fun _ bad _ => ?_⟩
      · unfold GroupState.unusable
        rw [not_or]
        exact ⟨fun hu => hu.2.2, fun hu => ⟨hj, at_, hu⟩⟩
      · have was := (s.archive.groupLost_other g at_).trans bad
        rw [aged.kept (by rw [was]; decide), was]

/-- An ERASE that ended well with a clear waiting. -/
theorem erase_good_clears (h : s.archive.op = some (.erase g)) (hc : s.archive.clear = true) :
    ∃ t, exec (.erase .good) s = .next t ∧ Touches [.flash, .capture, .archive, .slc] s t ∧
      StoreCleared (fun j => j < 4096 ∧ (j = g ∨ j ≠ g ∧ s.archive.groupState j ≠ .bad ∧ s.archive.groupState j ≠ .failing)) s t ∧
      (t.archive.marks = s.archive.marks.filter (· != g) ∧
        t.archive.cnt = { s.archive.cnt with dropped := bump s.archive.cnt.dropped s.archive.queue.length,
                                             eraseFailures := t.archive.cnt.eraseFailures, retired := t.archive.cnt.retired }) ∧
      t.archive.cnt.eraseFailures = s.archive.cnt.eraseFailures ∧
      ∀ a, flashRead t.flash a = if 516 * (64 * g) ≤ a ∧ a < 516 * (64 * (g + 1)) then 0xFF#8 else flashRead s.flash a := by
  have due := erase_good_clearDue (g := g) hc
  have after := (s.eraseEnded g .good).flashOver_touches
  have flash := after.flash_eq.trans (State.eraseEnded_flash .good)
  have archive := due.archive
  rw [State.eraseEnded_archive, Archive.cleared_archive] at archive
  refine ⟨_, exec_erase h .good,
    (State.eraseEnded_touches.1.widen).trans
      (after.widen),
    due.storeCleared, ⟨?_, ?_⟩, ?_, fun a => ?_⟩
  · rw [archive]
    rfl
  · rw [archive]
    rfl
  · rw [archive]
    rfl
  · rw [flash]
    exact eraseGroup_read ..

/-- The failed ERASE of a group in a table with no FAILING group. -/
theorem Archive.eraseFailed_idle {k : Archive} (none : ∀ j, k.groupState j ≠ .failing) :
    let c := (k.erased g .failed).1
    (∀ j, c.groupState j ≠ .failing) ∧ c.cnt.retired = k.cnt.retired ∧ c.exhausted = (k.exhausted || decide (c.usable < 64)) := by
  have still (j : Nat) : (k.groupLost g).groupState j ≠ .failing := by
    by_cases at_ : j = g
    · rw [at_, k.groupLost_same g]
      decide
    · rw [k.groupLost_other g at_]
      exact none j
  have tested (b : Archive) (groups : b.groups = (k.groupLost g).groups) (retired : b.cnt.retired = k.cnt.retired)
      (exhausted : b.exhausted = k.exhausted) :
      (∀ j, b.testExhausted.1.groupState j ≠ .failing) ∧ b.testExhausted.1.cnt.retired = k.cnt.retired ∧
      b.testExhausted.1.exhausted = (k.exhausted || decide (b.testExhausted.1.usable < 64)) := by
    refine ⟨fun j => ?_, ?_, ?_⟩
    · rw [groupState_congr (b.testExhausted_groups.trans groups)]
      exact still j
    · rw [← retired]
      unfold testExhausted
      split <;> rfl
    · rw [usable_congr b.testExhausted_groups, ← exhausted]
      unfold testExhausted
      cases hx : b.exhausted <;> by_cases few : b.usable < 64 <;> simp [few, hx]
  rw [erased_failed]
  by_cases at_ : k.group = g
  · rw [if_pos at_]
    have idle := place_idle (a := k.groupLost g) (g := ((k.groupLost g).group + 1) % 4096) (fun j _ => still j) (Nat.mod_lt _ (by decide))
    refine tested _ ?_ ?_ ?_ <;> unfold advance <;> rw [show groupCount = 4096 from rfl, idle] <;> rfl
  · rw [if_neg at_]
    exact tested _ rfl rfl rfl

/-- An ERASE that failed with a clear waiting. -/
theorem erase_failed_clears (h : s.archive.op = some (.erase g)) (hc : s.archive.clear = true) :
    ∃ t, exec (.erase .failed) s = .next t ∧ Touches [.capture, .archive, .slc] s t ∧
      StoreCleared (fun j => j < 4096 ∧ j ≠ g ∧ s.archive.groupState j ≠ .bad ∧ s.archive.groupState j ≠ .failing) s t ∧
      (t.archive.marks = s.archive.marks.filter (· != g) ∧
        t.archive.cnt = { s.archive.cnt with dropped := bump s.archive.cnt.dropped s.archive.queue.length,
                                             eraseFailures := t.archive.cnt.eraseFailures, retired := t.archive.cnt.retired }) ∧
      t.archive.cnt.eraseFailures = bump s.archive.cnt.eraseFailures ∧
      (GroupsInv s.archive → g < 4096 → t.archive.groupState g = .bad) ∧
      (GroupsInv s.archive → (∀ j, s.archive.groupState j ≠ .failing) → t.archive.cnt.retired = s.archive.cnt.retired ∧
        t.archive.exhausted = (s.archive.exhausted || decide (t.archive.usable < 64))) := by
  have due := erase_failed_clearDue (g := g) hc
  obtain ⟨placed, aged, spent, _, worn, _⟩ := s.archive.eraseFailed_facts g
  have archive := due.archive
  rw [State.eraseEnded_archive] at archive
  have emptied := (s.archive.erased g .failed).1.cleared_archive
  have total := spent.total
  have idle := Archive.eraseFailed_idle (k := s.archive) (g := g)
  refine ⟨_, exec_erase h .failed, (State.eraseEnded_touches.2.widen).trans (s.eraseEnded g .failed).flashOver_touches,
    due.storeCleared, ?_⟩
  rw [archive]
  generalize (s.archive.erased g .failed).1 = c at *
  refine ⟨⟨?_, ?_⟩, ?_, fun inv hg => ?_, fun inv none => ?_⟩
  · rw [emptied, placed]
    rfl
  · rw [emptied]
    dsimp only
    rw [total, placed]
    rfl
  · rw [emptied, placed]
    rfl
  · have lost : c.groupState g = .bad := by rw [aged.kept (by rw [s.archive.groupLost_same]; decide), s.archive.groupLost_same]
    exact ((Archive.cleared_groups (worn inv).1).2.2 g hg).2.2 (.inl lost)
  · obtain ⟨still, retired, exhausted⟩ := idle none
    obtain ⟨e, r, u⟩ := Archive.cleared_idle (worn inv).1 (fun j _ => still j)
    rw [e, r, u]
    exact ⟨retired, exhausted⟩

end

/-- Settles O49: the archive's own functions say what an ERASE changes; where a clear waits, it is the step that applies any due clear. -/
theorem eraseEmptiesGroup : Obligations.EraseEmptiesGroup := by
  unfold Obligations.EraseEmptiesGroup
  refine ⟨fun s g h hc => ⟨erase_good_quiet h hc, erase_failed_quiet h hc⟩, fun s g h hc => ⟨erase_good_clears h hc, erase_failed_clears h hc⟩,
    fun k hop hclear => ⟨fun writes first => ?_, fun later ch asks next => ?_, fun fresh hq hr filling near full => ?_, fun ended hr => ?_⟩⟩
  · rw [Archive.choose_writes hop hclear writes.1 writes.2 first]
    refine ⟨fun ready => ?_, fun full => ?_⟩
    · rcases k.writeStep_cases with ⟨_, step⟩ | ⟨full, _⟩ | ⟨worn, _⟩
      · exact step
      · rcases ready with ready | ready <;> cases full.symm.trans ready
      · rcases ready with ready | ready <;> rcases worn with worn | worn <;> cases worn.symm.trans ready
    · rcases k.writeStep_cases with ⟨ready, _⟩ | ⟨_, step⟩ | ⟨worn, _⟩
      · rcases ready with ready | ready <;> cases full.symm.trans ready
      · obtain ⟨op, lastOp, marked, count, queue, group, page, index⟩ := k.startErase_erases k.group
        rw [step]
        exact ⟨op, lastOp, marked, count, queue, group, page, index⟩
      · rcases worn with worn | worn <;> cases full.symm.trans worn
  · have requested : k.requests ≠ [] := List.ne_nil_of_mem asks.choose_spec.1
    rw [Archive.choose_reads hop hclear requested later]
    exact Archive.startRead_next asks next
  · obtain ⟨op, lastOp, marked, count, queue, group, page, index⟩ := k.startErase_erases ((k.group + 1) % 4096)
    rw [Archive.choose_ahead hop hclear fresh hq hr, Archive.eraseAhead_next ⟨filling, near⟩ fresh full]
    exact ⟨op, lastOp, marked, count, queue, group, page, index⟩
  · rcases k.choose_cases with c | ⟨_, _, fresh, _⟩ | ⟨_, _, some, _⟩ | ⟨_, _, fresh, _⟩
    · rw [c]
    · cases ended.symm.trans fresh
    · exact absurd hr some
    · cases ended.symm.trans fresh

end Sys2Proof.Machine
end

section
/-! # The page of a block: its fields at their offsets (R100, section 11.5), and the page read back as stored (R115) -/

namespace Sys2Proof.Machine

/-! ## Fields laid out one after another -/

theorem beNat_append (l m : List Byte) : beNat (l ++ m) = beNat l * 256 ^ m.length + beNat m := by
  induction l with
  | nil => simp [beNat]
  | cons b l ih =>
    rw [List.cons_append, beNat_cons, beNat_cons, ih, List.length_append]
    ring

/-- A field holds its number kept to its width. -/
theorem beNat_beBytes (n v : Nat) : beNat (beBytes n v) = v % 256 ^ n := by
  induction n generalizing v with
  | zero =>
    rw [pow_zero, Nat.mod_one]
    rfl
  | succ n ih =>
    have byte : (BitVec.ofNat 8 (v / 256 ^ n)).toNat = v / 256 ^ n % 256 := BitVec.toNat_ofNat ..
    rw [beBytes, beNat_cons, ih, beBytes_length, byte, pow_succ, Nat.mod_mul]
    ring

/-- Numbers laid out one after another, each in the width it is listed with. -/
def layOut (fs : List (Nat × Nat)) : List Byte := fs.flatMap (fun f => beBytes f.1 f.2)

theorem layOut_length (fs : List (Nat × Nat)) : (layOut fs).length = (fs.map (·.1)).sum := by simp [layOut, List.length_flatMap]

theorem layOut_append (fs gs : List (Nat × Nat)) : layOut (fs ++ gs) = layOut fs ++ layOut gs := List.flatMap_append

/-- A field laid out behind others reads back kept to its width. -/
theorem field_layOut (fs gs : List (Nat × Nat)) (n v : Nat) (tail : List Byte) :
    field (layOut (fs ++ (n, v) :: gs) ++ tail) (fs.map (·.1)).sum n = v % 256 ^ n := by
  have parts : layOut (fs ++ (n, v) :: gs) ++ tail = layOut fs ++ (beBytes n v ++ (layOut gs ++ tail)) := by
    rw [layOut_append, List.append_assoc, ← List.append_assoc (beBytes n v)]
    rfl
  have width : (beBytes n v).length = n := beBytes_length n v
  unfold field
  rw [parts, ← layOut_length, List.drop_left, List.take_left' width, beNat_beBytes]

/-! ## The page image (section 11.5) -/

section
variable (b : Block)

/-- The fields of a page before its readings, each with its width. -/
def Block.header : List (Nat × Nat) :=
  [(1, b.slot.1), (4, b.dseq), (1, b.line), (1, b.side.code), (1, b.lane.code), (6, b.bseq), (6, b.first), (6, b.last), (4, 0),
   (1, b.entries.length), (1, if b.suspect then 1 else 0)]

/-- Readings as fields: delta and raw value of each. -/
def readingFields (es : List (Nat × BitVec 16)) : List (Nat × Nat) := es.flatMap (fun e => [(2, e.1), (2, e.2.toNat)])

/-- The unused entries. -/
def Block.unused : List Byte := List.replicate (4 * (120 - b.entries.length)) 0xFF#8

theorem layOut_readingFields (es : List (Nat × BitVec 16)) :
    layOut (readingFields es) = es.flatMap (fun e => beBytes 2 e.1 ++ beBytes 2 e.2.toNat) := by
  unfold layOut readingFields
  rw [List.flatMap_assoc]
  simp

theorem readingFields_width (es : List (Nat × BitVec 16)) : ((readingFields es).map (·.1)).sum = 4 * es.length := by
  induction es with
  | nil => rfl
  | cons e es ih =>
    unfold readingFields at ih ⊢
    rw [List.flatMap_cons, List.map_append, List.sum_append, ih, List.length_cons]
    show 2 + (2 + 0) + _ = _
    omega

theorem Block.header_width : (b.header.map (·.1)).sum = 32 := rfl

theorem Block.image_eq : b.image = layOut (b.header ++ readingFields b.entries) ++ b.unused := by
  have flag : boolByte b.suspect = byteOf (if b.suspect then 1 else 0) := by cases b.suspect <;> rfl
  rw [layOut_append, layOut_readingFields]
  unfold image layOut header unused
  simp only [List.flatMap_cons, List.flatMap_nil, beBytes_one, flag, List.append_assoc, List.cons_append, List.nil_append]

section
variable {b} (short : b.entries.length ≤ 120)
include short

theorem Block.image_length : b.image.length = 512 := by
  rw [b.image_eq, List.length_append, layOut_length, List.map_append, List.sum_append, readingFields_width, b.header_width, unused,
    List.length_replicate]
  omega

theorem Block.bytes_length : b.bytes.length = 516 := by
  unfold bytes
  rw [List.length_append, image_length short, beBytes_length]

theorem Block.bytes_image : b.bytes.take 512 = b.image := List.take_left' (image_length short)

/-- The CRC-32 stands behind the 512 bytes. -/
theorem Block.bytes_crc : field b.bytes 512 4 = (crc32 (b.bytes.take 512)).toNat := by
  have behind : b.bytes.drop 512 = beBytes 4 (crc32 b.image).toNat := List.drop_left' (image_length short)
  unfold field
  rw [bytes_image short, behind, List.take_of_length_le (beBytes_length 4 _).le, beNat_beBytes]
  exact Nat.mod_eq_of_lt (crc32 b.image).isLt

/-- An unused entry is 0xFF. -/
theorem Block.bytes_unused {j : Nat} (behind : 32 + 4 * b.entries.length ≤ j) (before : j < 512) : b.bytes[j]? = some 0xFF#8 := by
  have front : (layOut (b.header ++ readingFields b.entries)).length = 32 + 4 * b.entries.length := by
    rw [layOut_length, List.map_append, List.sum_append, readingFields_width, b.header_width]
  unfold bytes
  rw [List.getElem?_append_left (by rw [image_length short]; exact before), b.image_eq, List.getElem?_append_right (by rw [front]; exact behind)]
  unfold unused
  rw [List.getElem?_replicate, if_pos (by omega)]

end

/-- A field of the page: what stands before it in the layout gives its offset. -/
theorem Block.bytes_field {fs gs : List (Nat × Nat)} {n v : Nat} (parts : b.header ++ readingFields b.entries = fs ++ (n, v) :: gs) :
    field b.bytes (fs.map (·.1)).sum n = v % 256 ^ n := by
  unfold bytes
  rw [b.image_eq, parts, List.append_assoc]
  exact field_layOut ..

/-- The fields of a page at their offsets. -/
theorem Block.bytes_header :
    let p := b.bytes
    field p 0 1 = b.slot.1 % 256 ∧ field p 1 4 = b.dseq % 4294967296 ∧ field p 5 1 = b.line % 256 ∧ field p 6 1 = b.side.code % 256 ∧
    field p 7 1 = b.lane.code % 256 ∧ field p 8 6 = b.bseq % 281474976710656 ∧ field p 14 6 = b.first % 281474976710656 ∧
    field p 20 6 = b.last % 281474976710656 ∧ field p 26 4 = 0 ∧ field p 30 1 = b.entries.length % 256 ∧ field p 31 1 = (if b.suspect then 1 else 0) % 256 := by
  have at_ (i : Nat) (h : i < 11) (hi : i < b.header.length := h) :
      field b.bytes ((b.header.take i).map (·.1)).sum b.header[i].1 = b.header[i].2 % 256 ^ b.header[i].1 := by
    refine b.bytes_field (gs := b.header.drop (i + 1) ++ readingFields b.entries) ?_
    rw [← List.cons_append, ← List.append_assoc, List.cons_getElem_drop_succ, List.take_append_drop]
  exact ⟨at_ 0 (by decide), at_ 1 (by decide), at_ 2 (by decide), at_ 3 (by decide), at_ 4 (by decide), at_ 5 (by decide),
    at_ 6 (by decide), at_ 7 (by decide), at_ 8 (by decide), at_ 9 (by decide), at_ 10 (by decide)⟩

/-- A reading of the page: delta and raw value. -/
theorem Block.bytes_reading {i : Nat} {e : Nat × BitVec 16} (h : b.entries[i]? = some e) :
    field b.bytes (32 + 4 * i) 2 = e.1 % 65536 ∧ field b.bytes (34 + 4 * i) 2 = e.2.toNat := by
  obtain ⟨hi, rfl⟩ := List.getElem?_eq_some_iff.mp h
  have split : readingFields b.entries = readingFields (b.entries.take i) ++ (2, b.entries[i].1) :: (2, b.entries[i].2.toNat) ::
      readingFields (b.entries.drop (i + 1)) := by
    conv => lhs; rw [← List.take_append_drop i b.entries, List.drop_eq_getElem_cons hi]
    exact List.flatMap_append
  have delta := b.bytes_field (fs := b.header ++ readingFields (b.entries.take i)) (by rw [split, List.append_assoc])
  have raw := b.bytes_field (fs := b.header ++ readingFields (b.entries.take i) ++ [(2, b.entries[i].1)])
    (by rw [split, List.append_assoc, List.append_assoc]; rfl)
  have before : ((b.header ++ readingFields (b.entries.take i)).map (·.1)).sum = 32 + 4 * i := by
    rw [List.map_append, List.sum_append, readingFields_width, b.header_width, List.length_take, Nat.min_eq_left hi.le]
  rw [List.map_append, List.sum_append, before] at raw
  rw [before] at delta
  have between : 32 + 4 * i + ([((2 : Nat), b.entries[i].1)].map (·.1)).sum = 34 + 4 * i := by
    rw [List.map_singleton, List.sum_singleton]
    omega
  rw [between] at raw
  exact ⟨delta, raw.trans (Nat.mod_eq_of_lt b.entries[i].2.isLt)⟩

end

/-! ## The page read back (R115) -/

/-- A page not listed above an address begins with the erased byte. -/
theorem readRun_erased {n a : Nat} {cs : List Host.Cell} (h : ∀ c ∈ cs, a < c.1) :
    readRun (n + 1) a cs = erasedByte :: readRun n (a + 1) cs := by
  cases cs with
  | nil => rfl
  | cons c cs => rw [readRun, if_neg (Nat.ne_of_gt (h c List.mem_cons_self))]

theorem readRun_cellsFrom (a : Nat) (bs : List Byte) : readRun bs.length a (cellsFrom a bs) = bs := by
  induction bs generalizing a with
  | nil => rfl
  | cons b bs ih =>
    rw [cellsFrom, List.length_cons]
    split
    · next erased => rw [readRun_erased (fun c hc => (cellsFrom_mem hc).1), ih, erased]
    · rw [readRun, if_pos rfl, ih]

/-- A page written reads back. -/
theorem readPage_flashWrite (m : List Host.Cell) (page : Nat) {bs : List Byte} (h : bs.length = 516) :
    readPage (flashWrite m (516 * page) bs) page = bs := by
  have own : (flashWrite m (516 * page) bs).filter (fun c => decide (516 * page ≤ c.1) && decide (c.1 < 516 * page + 516)) =
      cellsFrom (516 * page) bs := by
    unfold flashWrite
    rw [List.filter_append, List.filter_append, List.filter_filter, List.filter_filter, List.filter_eq_nil_iff.mpr, List.filter_eq_self.mpr,
      List.filter_eq_nil_iff.mpr, List.nil_append, List.append_nil]
    · intro c _
      simp
      omega
    · intro c hc
      obtain ⟨lo, hi, _⟩ := cellsFrom_mem hc
      simp
      omega
    · intro c _
      simp
      omega
  unfold readPage
  dsimp only
  rw [show pageSize = 516 from rfl, own]
  have whole := readRun_cellsFrom (516 * page) bs
  rwa [h] at whole

/-- The entries of an image as they were laid out. -/
theorem imageEntries_layOut (es : List (Nat × BitVec 16)) (tail : List Byte) (h : ∀ e ∈ es, e.1 < 65536) :
    imageEntries es.length (layOut (readingFields es) ++ tail) = es := by
  induction es with
  | nil => rfl
  | cons e es ih =>
    obtain ⟨narrow, rest⟩ := List.forall_mem_cons.mp h
    have delta : field (layOut (readingFields (e :: es)) ++ tail) 0 2 = e.1 := (field_layOut [] ((2, e.2.toNat) :: readingFields es) 2 e.1 tail).trans
      (Nat.mod_eq_of_lt narrow)
    have raw : field (layOut (readingFields (e :: es)) ++ tail) 2 2 = e.2.toNat :=
      (field_layOut [(2, e.1)] (readingFields es) 2 e.2.toNat tail).trans (Nat.mod_eq_of_lt e.2.isLt)
    have next : (layOut (readingFields (e :: es)) ++ tail).drop 4 = layOut (readingFields es) ++ tail := rfl
    rw [List.length_cons, imageEntries, delta, raw, next, ih rest, BitVec.ofNat_toNat,
      BitVec.setWidth_eq]

/-- A page of 0xFF throughout has a reading count of 255. -/
theorem erased_count {p : List Byte} (h : p.all (· == erasedByte) = true) (hp : p.length = 516) : field p 30 1 = 255 := by
  have all : p = List.replicate 516 erasedByte := List.eq_replicate_iff.mpr ⟨hp, fun x hx => by simpa using List.all_eq_true.mp h x hx⟩
  rw [all]
  decide

section
variable {b : Block} (short : b.entries.length ≤ 120)
include short

theorem Block.bytes_entries (narrow : ∀ x ∈ b.entries, x.1 < 65536) : imageEntries (field b.bytes 30 1) (b.bytes.drop 32) = b.entries := by
  obtain ⟨_, _, _, _, _, _, _, _, _, count, _⟩ := b.bytes_header
  have width : (layOut b.header).length = 32 := (layOut_length _).trans b.header_width
  have behind : b.bytes.drop 32 = layOut (readingFields b.entries) ++ (b.unused ++ beBytes 4 (crc32 b.image).toNat) := by
    unfold bytes
    rw [b.image_eq, layOut_append, List.append_assoc, List.append_assoc, List.drop_left' width]
  rw [count, Nat.mod_eq_of_lt (by omega), behind]
  exact imageEntries_layOut _ _ narrow

/-- The page of a block is good for a request of its entry (R115). -/
theorem verifyPage_bytes {q : ReadReq} {page : Nat} (hdseq : b.dseq < 4294967296) (hline : b.line < 256) (hlane : ∀ n, b.lane = .num n → n < 256)
    (hbseq : b.bseq < 281474976710656) (hfirst : b.first < 281474976710656) (narrow : ∀ x ∈ b.entries, x.1 < 65536)
    (slot : q.slot = b.slot)
    (entry : q.entry = { page := page, bseq := b.bseq, dseq := b.dseq, first := b.first, last := b.last, suspect := b.suspect })
    (line : q.line = b.line) (side : q.side = b.side) (lane : q.lane = b.lane) :
    verifyPage q b.bytes =
      .good { page := page, bseq := b.bseq, dseq := b.dseq, first := b.first, suspect := b.suspect, entries := b.entries } := by
  obtain ⟨f0, f1, f5, f6, f7, f8, f14, _, _, f30, f31⟩ := b.bytes_header
  have hslot : b.slot.1 < 256 := b.slot.2.trans (by decide)
  have hside : b.side.code < 256 := by cases b.side <;> decide
  have hlane : b.lane.code < 256 := by
    cases h : b.lane with
    | whole => decide
    | num n => exact hlane n h
  rw [Nat.mod_eq_of_lt hslot] at f0
  rw [Nat.mod_eq_of_lt hdseq] at f1
  rw [Nat.mod_eq_of_lt hline] at f5
  rw [Nat.mod_eq_of_lt hside] at f6
  rw [Nat.mod_eq_of_lt hlane] at f7
  rw [Nat.mod_eq_of_lt hbseq] at f8
  rw [Nat.mod_eq_of_lt hfirst] at f14
  have written : ¬b.bytes.all (· == erasedByte) = true := fun erased => by
    have full := (erased_count erased (Block.bytes_length short)).symm.trans f30
    omega
  have flag : (field b.bytes 31 1 % 2 == 1) = b.suspect := by
    rw [f31]
    cases b.suspect <;> rfl
  unfold verifyPage
  rw [if_neg written, if_neg (not_not.mpr (Block.bytes_crc short).symm), if_neg, flag, f14, Block.bytes_entries short narrow, entry]
  rw [f0, f8, f1, f5, f6, f7, slot, entry, line, side, lane]
  simp

end

end Sys2Proof.Machine
end

section
/-! # O48: PROGRAM stores its page and moves the write point (R105, R107, R108, R121) -/

namespace Sys2Proof.Machine

/-! ## What the choice keeps of the index (R106, R113) -/

section
variable {a : Archive} {i : Fin 64} {e : Entry} (he : e ∈ a.index[i])
include he

/-- The walk removes only entries of FAILING groups. -/
theorem Archive.ring_keeps (n g : Nat) (hf : a.groupState (e.page / 64) ≠ .failing) : e ∈ (ring n a g).1.1.index[i] := by
  refine (ring_induction (R := fun a b => a.groupState (e.page / 64) ≠ .failing → e ∈ a.index[i] →
    b.groupState (e.page / 64) ≠ .failing ∧ e ∈ b.index[i]) (fun _ h k => ⟨h, k⟩) (fun h k h1 h2 => ?_) (fun a g hg h1 h2 => ?_) n a g hf he).2
  · obtain ⟨m1, m2⟩ := h h1 h2
    exact k m1 m2
  · have apart : e.page / 64 ≠ g := fun at_ => h1 (at_ ▸ hg)
    rw [groupState_congr (a.retireGroup_groups g), a.setGroup_other apart, retireGroup_index, unindex_mem]
    exact ⟨h1, h2, apart⟩

/-- The choice keeps the entries of a group neither FULL nor FAILING. -/
theorem Archive.choose_keeps (hf : a.groupState (e.page / 64) ≠ .failing) (full : a.groupState (e.page / 64) ≠ .full) : e ∈ a.choose.1.index[i] := by
  have ahead : e ∈ a.lookedAhead.index[i] := ring_keeps he _ _ hf
  rcases a.choose_cases with c | ⟨_, _, _, _, c⟩ | ⟨_, _, _, c⟩ | ⟨_, _, _, _, _, c⟩ <;> rw [c]
  · exact he
  · rcases a.writeStep_cases with ⟨_, k⟩ | ⟨here, k⟩ | ⟨_, k⟩ <;> rw [k]
    · exact he
    · exact startErase_index.mpr ⟨he, fun at_ => full (at_ ▸ here)⟩
    · exact he
  · rw [a.startRead_kept]
    exact he
  · rcases a.eraseAhead_cases with ⟨_, k⟩ | ⟨_, k⟩ | ⟨_, g, _, there, _, k⟩ <;> rw [k]
    · exact he
    · exact ahead
    · exact startErase_index.mpr ⟨ahead, fun at_ => full (at_ ▸ (Aged.lookedAhead a).back there (by decide))⟩

/-- Away from the end of a group the choice removes only entries of the group at the write point, which it erases. -/
theorem Archive.choose_keeps_others (near : ¬a.nearlyFull) (apart : e.page / 64 ≠ a.group) : e ∈ a.choose.1.index[i] := by
  rcases a.choose_cases with c | ⟨_, _, _, _, c⟩ | ⟨_, _, _, c⟩ | ⟨_, _, _, _, _, c⟩ <;> rw [c]
  · exact he
  · rcases a.writeStep_cases with ⟨_, k⟩ | ⟨_, k⟩ | ⟨_, k⟩ <;> rw [k]
    · exact he
    · exact startErase_index.mpr ⟨he, apart⟩
    · exact he
  · rw [a.startRead_kept]
    exact he
  · rcases a.eraseAhead_cases with ⟨_, k⟩ | ⟨now, _⟩ | ⟨now, _⟩
    · rw [k]
      exact he
    · exact absurd now near
    · exact absurd now near

end

/-- Away from the end of a group the choice changes the operations, the requests, the index and the erase marks only. -/
theorem Archive.choose_still {a : Archive} (near : ¬a.nearlyFull) : let c := a.choose.1
    c = { a with marks := c.marks, op := c.op, lastOp := c.lastOp, lastChan := c.lastChan, index := c.index, requests := c.requests,
                 cnt := { a.cnt with erases := c.cnt.erases } } := by
  intro c
  simp only [c]
  rcases a.choose_cases with k | ⟨_, _, _, _, k⟩ | ⟨_, _, _, k⟩ | ⟨_, _, _, _, _, k⟩ <;> rw [k]
  · rcases a.writeStep_cases with ⟨_, k⟩ | ⟨_, k⟩ | ⟨_, k⟩ <;> rw [k]
    rfl
  · rw [a.startRead_kept]
  · rcases a.eraseAhead_cases with ⟨_, k⟩ | ⟨now, _⟩ | ⟨now, _⟩
    · rw [k]
    · exact absurd now near
    · exact absurd now near

/-- Away from the end of a group that is not FULL the choice leaves the index. -/
theorem Archive.choose_index_same {a : Archive} (near : ¬a.nearlyFull) (full : a.groupState a.group ≠ .full) : a.choose.1.index = a.index := by
  rcases a.choose_cases with c | ⟨_, _, _, _, c⟩ | ⟨_, _, _, c⟩ | ⟨_, _, _, _, _, c⟩ <;> rw [c]
  · rcases a.writeStep_cases with ⟨_, k⟩ | ⟨here, _⟩ | ⟨_, k⟩
    · rw [k]
    · exact absurd here full
    · rw [k]
  · rw [a.startRead_kept]
  · rcases a.eraseAhead_cases with ⟨_, k⟩ | ⟨now, _⟩ | ⟨now, _⟩
    · rw [k]
    · exact absurd now near
    · exact absurd now near

/-! ## A PROGRAM that ended well: its page leaves the queue for the index, and the write point moves (R107) -/

/-- The index entry of a block at a page. -/
def Block.entryAt (b : Block) (page : Nat) : Entry :=
  { page := page, bseq := b.bseq, dseq := b.dseq, first := b.first, last := b.last, suspect := b.suspect }

section
variable (a : Archive) (b : Block) (indexed : Bool)

/-- The archive with the page of a block stored, before the write point moves. -/
def Archive.pageStored : Archive :=
  { a.popHead with
    op := none
    index := if indexed then updAt a.index b.slot (fun es => es ++ [b.entryAt (64 * a.group + a.page)]) else a.index
    cnt := { a.cnt with stored := bump a.cnt.stored, unindexed := if indexed then a.cnt.unindexed else bump a.cnt.unindexed } }

/-- The group at the write point as it is once its page is used. -/
def Archive.pageUsed : Archive := a.setGroup a.group (if a.page = 63 then .full else .filling)

theorem Archive.pageUsed_same : ¬(a.pageUsed.groupState a.group).unusable := by
  unfold pageUsed GroupState.unusable
  rw [setGroup_same]
  split <;> decide

theorem Archive.pageUsed_other {g : Nat} (h : g ≠ a.group) : a.pageUsed.groupState g = a.groupState g := a.setGroup_other h _

theorem Archive.programmed_archive : (a.programmed b indexed).1 = (a.pageStored b indexed).stepPoint.1 := rfl

variable {a b indexed}

theorem Archive.pageStored_index (i : Fin 64) : (a.pageStored b indexed).index[i] =
    if b.slot = i ∧ indexed = true then a.index[i] ++ [b.entryAt (64 * a.group + a.page)] else a.index[i] := by
  unfold pageStored
  dsimp only
  cases indexed with
  | false => simp
  | true =>
    rw [if_pos rfl, updAt_get]
    simp

/-- Within a group the write point moves one page on, and the group is FILLING. -/
theorem Archive.stepPoint_within (h : a.page ≠ 63) : a.stepPoint.1 = { a.setGroup a.group .filling with page := a.page + 1 } := by
  unfold stepPoint
  rw [if_neg h]

/-- After page 63 it moves to the next group, when that is ERASED or FULL. -/
theorem Archive.stepPoint_wraps (h : a.page = 63)
    (usable : a.groupState ((a.group + 1) % 4096) = .erased ∨ a.groupState ((a.group + 1) % 4096) = .full) :
    a.stepPoint.1 = { a.setGroup a.group .full with group := (a.group + 1) % 4096, page := 0 } := by
  unfold stepPoint
  rw [if_pos h]
  unfold advance
  rw [show (a.setGroup a.group .full).group = a.group from rfl, show groupCount = 4096 from rfl, place_stops]
  rw [a.setGroup_other (next_ne a.group)]
  exact usable

/-- What the move of the write point changes. -/
theorem Archive.stepPoint_facts (a : Archive) : Placed a.pageUsed a.stepPoint.1 ∧ Aged a.pageUsed a.stepPoint.1 ∧ Spent a.pageUsed a.stepPoint.1 := by
  unfold pageUsed stepPoint
  by_cases h : a.page = 63
  · rw [if_pos h, if_pos h]
    exact ⟨place_placed _ _, Aged.place _ _, Spent.place _ _⟩
  · rw [if_neg h, if_neg h]
    exact ⟨rfl, .of_groups rfl, .refl _⟩

/-- Where no other group is FAILING the move retires none. -/
theorem Archive.stepPoint_idle (none : ∀ g < 4096, g = a.group ∨ a.groupState g ≠ .failing) :
    (∀ g < 4096, a.stepPoint.1.groupState g ≠ .failing) ∧ a.stepPoint.1.cnt = a.cnt ∧ a.stepPoint.1.exhausted = a.exhausted := by
  have still (st : GroupState) (hst : st ≠ .failing) (g : Nat) (hg : g < 4096) : (a.setGroup a.group st).groupState g ≠ .failing := by
    by_cases at_ : g = a.group
    · rw [at_, setGroup_same]
      exact hst
    · rw [a.setGroup_other at_]
      exact (none g hg).resolve_left at_
  by_cases h : a.page = 63
  · unfold stepPoint advance
    rw [if_pos h, show groupCount = 4096 from rfl, place_idle (still .full (by decide)) (Nat.mod_lt _ (by decide))]
    exact ⟨fun g hg => still .full (by decide) g hg, rfl, rfl⟩
  · rw [stepPoint_within h]
    exact ⟨fun g hg => still .filling (by decide) g hg, rfl, rfl⟩

/-- The write point has a place to go to: within its group, or at the next one, which is ERASED or FULL. -/
def Archive.movesOn (a : Archive) : Prop :=
  a.page < 63 ∨ a.page = 63 ∧ (a.groupState ((a.group + 1) % 4096) = .erased ∨ a.groupState ((a.group + 1) % 4096) = .full)

theorem Archive.programmed_within (h : a.page < 63) : let c := (a.programmed b indexed).1
    c.page = a.page + 1 ∧ c.group = a.group ∧ c.groupState a.group = .filling := by
  have moved := stepPoint_within (a := a.pageStored b indexed) (Nat.ne_of_lt h)
  intro c
  simp only [c]
  rw [programmed_archive, moved]
  exact ⟨rfl, rfl, (a.pageStored b indexed).setGroup_same a.group .filling⟩

theorem Archive.programmed_wraps (h : a.page = 63)
    (usable : a.groupState ((a.group + 1) % 4096) = .erased ∨ a.groupState ((a.group + 1) % 4096) = .full) : let c := (a.programmed b indexed).1
    c.page = 0 ∧ c.group = (a.group + 1) % 4096 ∧ c.groupState a.group = .full := by
  have moved := stepPoint_wraps (a := a.pageStored b indexed) h usable
  intro c
  simp only [c]
  rw [programmed_archive, moved]
  exact ⟨rfl, rfl, (a.pageStored b indexed).setGroup_same a.group .full⟩

/-- Where the write point moves on, nothing else of the page stored changes. -/
theorem Archive.programmed_kept (move : a.movesOn) : let c := (a.programmed b indexed).1
    c.queue = a.queue.drop 1 ∧ c.occupancy = a.occupancy - 1 ∧ c.index = (a.pageStored b indexed).index ∧ c.cnt = (a.pageStored b indexed).cnt := by
  intro c
  simp only [c]
  rw [programmed_archive]
  rcases move with h | ⟨h, usable⟩
  · rw [stepPoint_within (a := a.pageStored b indexed) (Nat.ne_of_lt h)]
    exact ⟨rfl, rfl, rfl, rfl⟩
  · rw [stepPoint_wraps (a := a.pageStored b indexed) h usable]
    exact ⟨rfl, rfl, rfl, rfl⟩

/-- The choice leaves the write point and the counts of pages. -/
theorem Archive.choose_point (a : Archive) : let c := a.choose.1
    c.group = a.group ∧ c.page = a.page ∧ c.cnt.stored = a.cnt.stored ∧ c.cnt.unindexed = a.cnt.unindexed ∧
    c.cnt.programFailures = a.cnt.programFailures ∧ c.cnt.lost = a.cnt.lost := by
  intro c
  have chosen : c = _ := Chosen.choose a
  refine ⟨?_, ?_, ?_, ?_, ?_, ?_⟩ <;> rw [chosen]

/-- The entries of the index with a page stored. -/
theorem Archive.pageStored_mem {i : Fin 64} {x : Entry} (hx : x ∈ (a.pageStored b indexed).index[i]) :
    x ∈ a.index[i] ∨ i = b.slot ∧ indexed = true ∧ x = b.entryAt (64 * a.group + a.page) := by
  rw [pageStored_index] at hx
  split at hx
  · next h =>
    rcases List.mem_append.mp hx with old | new
    · exact .inl old
    · exact .inr ⟨h.1.symm, h.2, List.mem_singleton.mp new⟩
  · exact .inl hx

/-- The new entry stays in the index whatever operation is chosen next. -/
theorem Archive.programmed_files (move : a.movesOn) (hi : indexed = true) :
    b.entryAt (64 * a.group + a.page) ∈ (a.programmed b indexed).1.choose.1.index[b.slot] := by
  obtain ⟨_, _, index, _⟩ := programmed_kept (b := b) (indexed := indexed) move
  have filed (h : a.page ≤ 63) : (b.entryAt (64 * a.group + a.page)).page / 64 = a.group := by
    show (64 * a.group + a.page) / 64 = a.group
    omega
  have own : b.entryAt (64 * a.group + a.page) ∈ (a.programmed b indexed).1.index[b.slot] := by
    rw [index, pageStored_index, if_pos ⟨rfl, hi⟩]
    exact List.mem_append_right _ (List.mem_singleton_self _)
  rcases move with h | ⟨h, usable⟩
  · obtain ⟨_, _, filling⟩ := programmed_within (b := b) (indexed := indexed) h
    refine choose_keeps own ?_ ?_ <;> rw [filed h.le, filling] <;> decide
  · obtain ⟨page, group, _⟩ := programmed_wraps (b := b) (indexed := indexed) h usable
    refine choose_keeps_others own (fun near => ?_) ?_
    · have late := near.2
      rw [page] at late
      exact absurd late (by decide)
    · rw [filed h.le, group]
      exact (next_ne a.group).symm

/-- Before page 55 the index changes by the new entry only. -/
theorem Archive.programmed_early (h : a.page < 55) (i : Fin 64) : (a.programmed b indexed).1.choose.1.index[i] =
    if b.slot = i ∧ indexed = true then a.index[i] ++ [b.entryAt (64 * a.group + a.page)] else a.index[i] := by
  have within : a.page < 63 := h.trans (by decide)
  obtain ⟨page, group, filling⟩ := programmed_within (b := b) (indexed := indexed) within
  obtain ⟨_, _, index, _⟩ := programmed_kept (b := b) (indexed := indexed) (.inl within)
  have far : ¬(a.programmed b indexed).1.nearlyFull := fun near => by
    have late := near.2
    rw [page] at late
    omega
  rw [choose_index_same far (by rw [group, filling]; decide), index, pageStored_index]

/-- A page stored and the next operation chosen. -/
theorem Archive.programmed_quiet (move : a.movesOn) :
    let c := (a.programmed b indexed).1.choose.1
    c.queue = a.queue.drop 1 ∧ c.occupancy = a.occupancy - 1 ∧ c.cnt.unindexed = (if indexed then a.cnt.unindexed else bump a.cnt.unindexed) ∧
    (a.page < 63 → c.page = a.page + 1 ∧ c.group = a.group ∧ c.groupState a.group = .filling) ∧
    (a.page = 63 → c.page = 0 ∧ c.group = (a.group + 1) % 4096 ∧ c.groupState a.group = .full) := by
  have aged := Aged.choose (a.programmed b indexed).1
  obtain ⟨group, page, _, unindexed, _⟩ := (a.programmed b indexed).1.choose_point
  obtain ⟨queue, occupancy⟩ := (a.programmed b indexed).1.choose_queue
  obtain ⟨queue', occupancy', _, cnt⟩ := programmed_kept (b := b) (indexed := indexed) move
  refine ⟨queue.trans queue', occupancy.trans occupancy', unindexed.trans (by rw [cnt]; rfl), fun h => ?_, fun h => ?_⟩
  · obtain ⟨page', group', filling⟩ := programmed_within (b := b) (indexed := indexed) h
    exact ⟨page.trans page', group.trans group', (aged.kept (by rw [filling]; decide)).trans filling⟩
  · have usable := (move.resolve_left (by omega)).2
    obtain ⟨page', group', full⟩ := programmed_wraps (b := b) (indexed := indexed) h usable
    exact ⟨page.trans page', group.trans group', (aged.kept (by rw [full]; decide)).trans full⟩

end

/-! ## A PROGRAM that failed: the group is FAILING, and the block stays, is lost or is dropped (R108, R109) -/

section
variable (a : Archive) (b : Block)

/-- What a failed PROGRAM changes. -/
theorem Archive.programFailed_kept : let c := (a.programFailed b).1
    c = { a with groups := c.groups, index := c.index, exhausted := c.exhausted, queue := c.queue, occupancy := c.occupancy,
                 headFailed := c.headFailed, group := c.group, page := c.page, op := none,
                 cnt := { a.cnt with programFailures := bump a.cnt.programFailures,
                                     lost := if a.headFailed then bump a.cnt.lost else a.cnt.lost,
                                     retired := c.cnt.retired, dropped := c.cnt.dropped } } := by
  have placed : a.pageLost.advance.1 = _ := a.pageLost.place_placed _
  intro c
  simp only [c]
  rw [programFailed_archive]
  generalize a.pageLost.advance.1 = w at placed
  dsimp only
  split
  · rw [placed]
    rfl
  · split
    · rw [placed]
      rfl
    · rw [placed]
      rfl

theorem Archive.programFailed_groups : (a.programFailed b).1.groups = a.pageLost.advance.1.groups := by
  rw [programFailed_archive]
  dsimp only
  split
  · rfl
  · split <;> rfl

theorem Archive.pageLost_same : a.pageLost.groupState a.group = .failing := a.setGroup_same a.group .failing

theorem Archive.pageLost_other {g : Nat} (h : g ≠ a.group) : a.pageLost.groupState g = a.groupState g := a.setGroup_other h .failing

variable {a b}

/-- With the write point having a place to go to, the block stays at the front, is lost, or is dropped. -/
theorem Archive.programFailed_moves
    (usable : a.groupState ((a.group + 1) % 4096) = .erased ∨ a.groupState ((a.group + 1) % 4096) = .full) :
    (a.programFailed b).1 =
      let c : Archive := { a.pageLost with group := (a.group + 1) % 4096, page := 0, op := none }
      if a.headFailed then { c.popHead with cnt := { c.cnt with lost := bump c.cnt.lost } }
      else if a.exhausted then { c.popHead with cnt := { c.cnt with dropped := bump c.cnt.dropped } }
      else { c with headFailed := true } := by
  have stops : a.pageLost.advance = ({ a.pageLost with group := (a.group + 1) % 4096, page := 0 }, []) := by
    unfold advance
    rw [show a.pageLost.group = a.group from rfl, show groupCount = 4096 from rfl, place_stops]
    rw [a.pageLost_other (next_ne a.group)]
    exact usable
  rw [programFailed_archive, stops]
  rfl

/-- What is dropped with what is left to drop, after a failed PROGRAM. -/
theorem Archive.programFailed_total {rest : List Block} (hop : a.op = some .program) (hq : a.queue = b :: rest) :
    let c := (a.programFailed b).1
    bump c.cnt.dropped c.queue.length = bump a.cnt.dropped (if a.headFailed then rest.length else a.queue.length) := by
  have spent : Spent a.pageLost a.pageLost.advance.1 := Spent.place _ _
  have one : a.pageLost.keptBlocks = [b] := by
    unfold keptBlocks
    rw [if_pos (show a.pageLost.op = _ from hop), show a.pageLost.queue = b :: rest from hq]
    rfl
  have dropped : a.pageLost.cnt.dropped = a.cnt.dropped := rfl
  intro c
  simp only [c]
  rw [programFailed_archive]
  generalize a.pageLost.advance.1 = w at spent
  unfold Spent at spent
  rw [one, dropped, show a.pageLost.queue = b :: rest from hq] at spent
  rw [hq]
  dsimp only
  rcases spent with ⟨_, queue, _, _, same⟩ | ⟨_, ended, queue, _, _, now⟩
  · split
    · show bump w.cnt.dropped (w.queue.drop 1).length = _
      rw [queue, same]
      rfl
    · split
      · show bump (bump w.cnt.dropped) (w.queue.drop 1).length = _
        rw [queue, same, bump_bump, Nat.add_comm]
        rfl
      · show bump w.cnt.dropped w.queue.length = _
        rw [queue, same]
  · split
    · show bump w.cnt.dropped (w.queue.drop 1).length = _
      rw [queue, now, bump_bump]
      rfl
    · show bump (bump w.cnt.dropped) (w.queue.drop 1).length = _
      rw [queue, now, bump_bump, bump_bump]
      rfl

end

end Sys2Proof.Machine
end

section
/-! # O48: the command PROGRAM (R107, R108, R121) -/

namespace Sys2Proof.Machine

section
variable {s : State} {b : Block} {rest : List Block}

/-- The state behind a PROGRAM, before what follows. -/
def State.programEnded (s : State) (b : Block) : FlashEnd → State
  | .good => ({ s with flash := flashWrite s.flash (516 * (64 * s.archive.group + s.archive.page)) b.bytes } : State).withArch
      (s.archive.programmed b (s.indexes b))
  | .failed => s.withArch (s.archive.programFailed b)

theorem exec_program (hop : s.archive.op = some .program) (hq : s.archive.queue = b :: rest) (r : FlashEnd) :
    exec (.program r) s = .next (s.programEnded b r).storeClear.clearAnswer.flashKick.kick := by
  have arm : exec (.program r) s = execProgram r s := rfl
  rw [arm]
  unfold execProgram
  rw [hop, hq]
  cases r <;> rfl

namespace State

theorem programEnded_archive : (s.programEnded b .good).archive = (s.archive.programmed b (s.indexes b)).1 ∧
    (s.programEnded b .failed).archive = (s.archive.programFailed b).1 := ⟨withArch_archive _ _, withArch_archive _ _⟩

theorem programEnded_link (r : FlashEnd) : SameLink s (s.programEnded b r) := by
  cases r with
  | good => exact (SameLink.of_slc (t := { s with flash := _, archive := (s.archive.programmed b (s.indexes b)).1 }) rfl).trans (raiseAll_link _ _)
  | failed => exact (SameLink.of_slc (t := { s with archive := (s.archive.programFailed b).1 }) rfl).trans (raiseAll_link _ _)

theorem programEnded_touches : Touches [.flash, .archive, .slc] s (s.programEnded b .good) ∧
    Touches [.archive, .slc] s (s.programEnded b .failed) :=
  ⟨((Touches.refl _ s).set_flash rfl).withArch rfl rfl, (Touches.refl _ s).withArch rfl rfl⟩

theorem programEnded_flash : (s.programEnded b .good).flash = flashWrite s.flash (516 * (64 * s.archive.group + s.archive.page)) b.bytes :=
  ((Touches.refl [.archive, .slc] _).withArch rfl rfl).flash_eq

/-- A block gets an entry where its slot is still under its definition sequence and no clear waits. -/
theorem indexes_iff (hc : s.archive.clear = false) :
    s.indexes b = true ↔ (s.capture.slots[b.slot]).defined = true ∧ (s.capture.slots[b.slot]).dseq = b.dseq := by
  unfold indexes
  rw [hc]
  simp

theorem indexes_clear (hc : s.archive.clear = true) : s.indexes b = false := by
  unfold indexes
  rw [hc]
  simp

end State

/-! ## The clear behind a PROGRAM (R121) -/

/-- The clear applies behind a PROGRAM that ended well. -/
theorem program_good_clearDue (hc : s.archive.clear = true) :
    ClearDue (fun g => g < 4096 ∧ (g = s.archive.group ∨ s.archive.groupState g ≠ .bad ∧ s.archive.groupState g ≠ .failing)) s
      (s.programEnded b .good) := by
  obtain ⟨placed, aged, _⟩ := (s.archive.pageStored b (s.indexes b)).stepPoint_facts
  rw [← Archive.programmed_archive] at placed aged
  have touches := (State.programEnded_touches (s := s) (b := b)).1
  refine ⟨State.programEnded_link .good, touches.trackers_eq, touches.capture_eq, ?_, ?_, ?_, ?_, fun _ h => h.1, fun inv => ?_⟩
  · rw [State.programEnded_archive.1, placed]
    exact hc
  · rw [State.programEnded_archive.1, placed]
    rfl
  · rw [State.programEnded_archive.1, placed]
    rfl
  · rw [State.programEnded_archive.1, placed]
    rfl
  · rw [State.programEnded_archive.1]
    refine ⟨Archive.programmed_groupsInv inv b _, fun j hj => ?_⟩
    rw [aged.unusable_iff]
    by_cases here : j = s.archive.group
    · subst here
      exact ⟨⟨fun _ => (s.archive.pageStored b (s.indexes b)).pageUsed_same, fun _ => ⟨hj, .inl rfl⟩⟩, fun no => absurd ⟨hj, .inl rfl⟩ no⟩
    · have same : (s.archive.pageStored b (s.indexes b)).pageUsed.groupState j = s.archive.groupState j := Archive.pageUsed_other _ here
      rw [same]
      refine ⟨?_, fun _ bad _ => ?_⟩
      · unfold GroupState.unusable
        rw [not_or]
        exact ⟨fun h => h.2.resolve_left here, fun h => ⟨hj, .inr h⟩⟩
      · have was := same.trans bad
        exact (aged.kept (by rw [was]; decide)).trans was

/-- The clear applies behind a PROGRAM that failed. -/
theorem program_failed_clearDue (hop : s.archive.op = some .program) (hc : s.archive.clear = true) :
    ClearDue (fun g => g < 4096 ∧ g ≠ s.archive.group ∧ s.archive.groupState g ≠ .bad ∧ s.archive.groupState g ≠ .failing) s
      (s.programEnded b .failed) := by
  have kept := s.archive.programFailed_kept b
  have aged : Aged s.archive.pageLost (s.archive.programFailed b).1 := (Aged.place _ _).trans (.of_groups (s.archive.programFailed_groups b))
  have touches := (State.programEnded_touches (s := s) (b := b)).2
  refine ⟨State.programEnded_link .failed, touches.trackers_eq, touches.capture_eq, ?_, ?_, ?_, ?_, fun _ h => h.1, fun inv => ?_⟩
  · rw [State.programEnded_archive.2, kept]
    exact hc
  · rw [State.programEnded_archive.2, kept]
  · rw [State.programEnded_archive.2, kept]
  · rw [State.programEnded_archive.2, kept]
  · rw [State.programEnded_archive.2]
    refine ⟨Archive.programFailed_groupsInv inv b, fun j hj => ?_⟩
    rw [aged.unusable_iff]
    by_cases here : j = s.archive.group
    · subst here
      rw [s.archive.pageLost_same]
      exact ⟨⟨fun h => absurd rfl h.2.1, fun ok => absurd (.inr rfl) ok⟩, fun _ _ apart => absurd rfl (apart hop)⟩
    · rw [s.archive.pageLost_other here]
      refine ⟨?_, fun _ bad _ => ?_⟩
      · unfold GroupState.unusable
        rw [not_or]
        exact ⟨fun h => h.2.2, fun h => ⟨hj, here, h⟩⟩
      · have was := (s.archive.pageLost_other here).trans bad
        exact (aged.kept (by rw [was]; decide)).trans was

/-! ## The PROGRAM that ended well -/

/-- The archive behind a stored page and the clear. -/
theorem program_good_clears (hq : s.archive.queue = b :: rest) (hc : s.archive.clear = true) :
    let k := s.archive
    let t := (s.programEnded b .good).storeClear.clearAnswer.flashKick.kick
    StoreCleared (fun g => g < 4096 ∧ (g = k.group ∨ k.groupState g ≠ .bad ∧ k.groupState g ≠ .failing)) s t ∧ t.archive.marks = k.marks ∧
    t.archive.cnt = { k.cnt with stored := bump k.cnt.stored, unindexed := bump k.cnt.unindexed,
                                 dropped := bump k.cnt.dropped rest.length, retired := t.archive.cnt.retired } ∧
    (GroupsInv k → (∀ g < 4096, g = k.group ∨ k.groupState g ≠ .failing) →
      t.archive.exhausted = k.exhausted ∧ t.archive.cnt.retired = k.cnt.retired) := by
  have due := program_good_clearDue (b := b) hc
  obtain ⟨placed, _, spent⟩ := (s.archive.pageStored b (s.indexes b)).stepPoint_facts
  have total := spent.total
  have idle := (s.archive.pageStored b (s.indexes b)).stepPoint_idle
  have inv' := fun inv : GroupsInv s.archive => Archive.programmed_groupsInv inv b (s.indexes b)
  have archive := due.archive
  rw [State.programEnded_archive.1, Archive.programmed_archive] at archive
  rw [Archive.programmed_archive] at inv'
  have dropped : bump (s.archive.pageStored b (s.indexes b)).pageUsed.cnt.dropped (s.archive.pageStored b (s.indexes b)).pageUsed.queue.length =
      bump s.archive.cnt.dropped rest.length := by
    show bump s.archive.cnt.dropped (s.archive.queue.drop 1).length = _
    rw [hq]
    rfl
  rw [dropped] at total
  intro k t
  refine ⟨due.storeCleared, ?_⟩
  simp only [t]
  rw [archive]
  generalize (s.archive.pageStored b (s.indexes b)).stepPoint.1 = c at *
  refine ⟨?_, ?_, fun inv none => ?_⟩
  · rw [c.cleared_archive, placed]
    rfl
  · rw [c.cleared_archive]
    dsimp only
    rw [total, placed, Archive.pageUsed, Archive.pageStored, State.indexes_clear hc]
    rfl
  · obtain ⟨still, cnt, exhausted⟩ := idle none
    obtain ⟨e, r, _⟩ := Archive.cleared_idle (inv' inv) still
    exact ⟨e.trans exhausted, r.trans (by rw [cnt]; rfl)⟩

/-- The archive behind a stored page with no clear waiting. -/
theorem program_good_quiet (hq : s.archive.queue = b :: rest) (hc : s.archive.clear = false) (move : s.archive.movesOn) :
    let k := s.archive
    let t := (s.programEnded b .good).storeClear.clearAnswer.flashKick.kick
    let e := b.entryAt (64 * k.group + k.page)
    let live : Prop := (s.capture.slots[b.slot]).defined = true ∧ (s.capture.slots[b.slot]).dseq = b.dseq
    t.capture = s.capture ∧ t.archive.queue = rest ∧ t.archive.occupancy = k.occupancy - 1 ∧
    t.archive.cnt.unindexed = (if (s.capture.slots[b.slot]).defined = true ∧ (s.capture.slots[b.slot]).dseq = b.dseq
      then k.cnt.unindexed else bump k.cnt.unindexed) ∧
    (k.page < 63 → t.archive.page = k.page + 1 ∧ t.archive.group = k.group ∧ t.archive.groupState k.group = .filling) ∧
    (k.page = 63 → t.archive.page = 0 ∧ t.archive.group = (k.group + 1) % 4096 ∧ t.archive.groupState k.group = .full) ∧
    (live → e ∈ t.archive.index[b.slot]) ∧
    (∀ (i : Fin 64) (x : Entry), x ∈ t.archive.index[i] → x ∈ k.index[i] ∨ i = b.slot ∧ live ∧ x = e) ∧
    (k.page < 55 →
      (live → t.archive.index[b.slot] = k.index[b.slot] ++ [e]) ∧ (¬live → t.archive.index[b.slot] = k.index[b.slot]) ∧
      ∀ i : Fin 64, i ≠ b.slot → t.archive.index[i] = k.index[i]) := by
  intro k t e live
  have filed : s.indexes b = true ↔ live := State.indexes_iff hc
  obtain ⟨placed, _⟩ := (s.archive.pageStored b (s.indexes b)).stepPoint_facts
  have quiet : (s.programEnded b .good).archive.clear = false := by
    rw [State.programEnded_archive.1, Archive.programmed_archive, placed]
    exact hc
  obtain ⟨archive, touches⟩ := State.flashOver_quiet quiet
  rw [State.programEnded_archive.1] at archive
  obtain ⟨queue, occupancy, unindexed, within, wraps⟩ := Archive.programmed_quiet (b := b) (indexed := s.indexes b) move
  have early (h : k.page < 55) (i : Fin 64) := Archive.programmed_early (b := b) (indexed := s.indexes b) h i
  refine ⟨touches.capture_eq.trans State.programEnded_touches.1.capture_eq, ?_⟩
  simp only [t]
  rw [archive]
  refine ⟨queue.trans (by rw [hq]; rfl), occupancy, unindexed.trans (if_congr filed rfl rfl), within, wraps,
    fun hl => Archive.programmed_files move (filed.mpr hl), fun i x hx => ?_, fun h => ⟨fun hl => ?_, fun hn => ?_, fun i hi => ?_⟩⟩
  · obtain ⟨_, _, index, _⟩ := Archive.programmed_kept (b := b) (indexed := s.indexes b) move
    have stored := Archive.choose_index i x hx
    rw [index] at stored
    exact (Archive.pageStored_mem stored).imp_right fun ⟨slot, hi, same⟩ => ⟨slot, filed.mp hi, same⟩
  · exact (early h b.slot).trans (if_pos ⟨rfl, filed.mpr hl⟩)
  · exact (early h b.slot).trans (if_neg fun h => hn (filed.mp h.2))
  · exact (early h i).trans (if_neg fun h => hi h.1.symm)

/-- Every PROGRAM that ended well counts its block as stored. -/
theorem program_good_stored : (s.programEnded b .good).storeClear.clearAnswer.flashKick.kick.archive.cnt.stored = bump s.archive.cnt.stored := by
  obtain ⟨placed, _⟩ := (s.archive.pageStored b (s.indexes b)).stepPoint_facts
  have stored : (s.programEnded b .good).archive.cnt.stored = bump s.archive.cnt.stored := by
    rw [State.programEnded_archive.1, Archive.programmed_archive, placed]
    rfl
  cases hc : s.archive.clear with
  | true =>
    rw [(program_good_clearDue hc).archive, Archive.cleared_archive]
    exact stored
  | false =>
    have quiet : (s.programEnded b .good).archive.clear = false := by
      rw [State.programEnded_archive.1, Archive.programmed_archive, placed]
      exact hc
    rw [(State.flashOver_quiet quiet).1]
    exact (Archive.choose_point _).2.2.1.trans stored

/-! ## The PROGRAM that failed -/

/-- The counts of a failed PROGRAM. -/
theorem program_failed_counts (hop : s.archive.op = some .program) :
    let t := (s.programEnded b .failed).storeClear.clearAnswer.flashKick.kick
    t.archive.cnt.programFailures = bump s.archive.cnt.programFailures ∧
    t.archive.cnt.lost = if s.archive.headFailed then bump s.archive.cnt.lost else s.archive.cnt.lost := by
  have kept := s.archive.programFailed_kept b
  have failures : (s.programEnded b .failed).archive.cnt.programFailures = bump s.archive.cnt.programFailures := by
    rw [State.programEnded_archive.2, kept]
  have lost : (s.programEnded b .failed).archive.cnt.lost = if s.archive.headFailed then bump s.archive.cnt.lost else s.archive.cnt.lost := by
    rw [State.programEnded_archive.2, kept]
  intro t
  simp only [t]
  cases hc : s.archive.clear with
  | true =>
    rw [(program_failed_clearDue hop hc).archive, Archive.cleared_archive]
    exact ⟨failures, lost⟩
  | false =>
    have quiet : (s.programEnded b .failed).archive.clear = false := by
      rw [State.programEnded_archive.2, kept]
      exact hc
    obtain ⟨_, _, _, _, failures', lost'⟩ := (s.programEnded b .failed).archive.choose_point
    rw [(State.flashOver_quiet quiet).1]
    exact ⟨failures'.trans failures, lost'.trans lost⟩

/-- The archive behind a failed PROGRAM and the clear. -/
theorem program_failed_clears (hop : s.archive.op = some .program) (hq : s.archive.queue = b :: rest) (hc : s.archive.clear = true) :
    let k := s.archive
    let t := (s.programEnded b .failed).storeClear.clearAnswer.flashKick.kick
    StoreCleared (fun g => g < 4096 ∧ g ≠ k.group ∧ k.groupState g ≠ .bad ∧ k.groupState g ≠ .failing) s t ∧ t.archive.marks = k.marks ∧
    t.archive.cnt = { k.cnt with programFailures := bump k.cnt.programFailures, lost := t.archive.cnt.lost,
                                 dropped := bump k.cnt.dropped (if k.headFailed then rest.length else k.queue.length),
                                 retired := t.archive.cnt.retired } := by
  have due := program_failed_clearDue (b := b) hop hc
  have kept := s.archive.programFailed_kept b
  have total := Archive.programFailed_total hop hq
  have archive := due.archive
  rw [State.programEnded_archive.2] at archive
  intro k t
  refine ⟨due.storeCleared, ?_⟩
  simp only [t]
  rw [archive]
  generalize (s.archive.programFailed b).1 = c at *
  refine ⟨?_, ?_⟩
  · rw [c.cleared_archive, kept]
  · rw [c.cleared_archive]
    dsimp only
    rw [total, kept]

/-- The archive behind a failed PROGRAM with no clear waiting, the next group being ERASED or FULL. -/
theorem program_failed_quiet (hq : s.archive.queue = b :: rest) (hc : s.archive.clear = false)
    (usable : s.archive.groupState ((s.archive.group + 1) % 4096) = .erased ∨ s.archive.groupState ((s.archive.group + 1) % 4096) = .full) :
    let k := s.archive
    let next := (k.group + 1) % 4096
    let t := (s.programEnded b .failed).storeClear.clearAnswer.flashKick.kick
    t.capture = s.capture ∧ t.archive.group = next ∧ t.archive.page = 0 ∧ t.archive.groupState k.group = .failing ∧
    (k.headFailed = false → k.exhausted = false →
      t.archive.queue = b :: rest ∧ t.archive.headFailed = true ∧ t.archive.occupancy = k.occupancy) ∧
    (k.headFailed = true ∨ k.exhausted = true →
      t.archive.queue = rest ∧ t.archive.headFailed = false ∧ t.archive.occupancy = k.occupancy - 1) ∧
    (k.headFailed = false → k.exhausted = true → t.archive.cnt.dropped = bump k.cnt.dropped) ∧
    (∀ (i : Fin 64) (x : Entry), x ∈ t.archive.index[i] → x ∈ k.index[i]) ∧
    ∀ (i : Fin 64) (x : Entry), x ∈ k.index[i] → x.page / 64 ≠ next → x ∈ t.archive.index[i] := by
  intro k next t
  have kept := s.archive.programFailed_kept b
  have quiet : (s.programEnded b .failed).archive.clear = false := by
    rw [State.programEnded_archive.2, kept]
    exact hc
  obtain ⟨archive, touches⟩ := State.flashOver_quiet quiet
  rw [State.programEnded_archive.2] at archive
  have moves := Archive.programFailed_moves (b := b) usable
  have facts : let c := (k.programFailed b).1
      c.group = next ∧ c.page = 0 ∧ c.groups = k.pageLost.groups ∧ c.index = k.index ∧
      (k.headFailed = false → k.exhausted = false → c.queue = k.queue ∧ c.headFailed = true ∧ c.occupancy = k.occupancy) ∧
      (k.headFailed = true ∨ k.exhausted = true → c.queue = k.queue.drop 1 ∧ c.headFailed = false ∧ c.occupancy = k.occupancy - 1) ∧
      (k.headFailed = false → k.exhausted = true → c.cnt.dropped = bump k.cnt.dropped) := by
    intro c
    simp only [c, k]
    rw [moves]
    dsimp only
    cases hh : s.archive.headFailed with
    | true => exact ⟨rfl, rfl, rfl, rfl, nofun, fun _ => ⟨rfl, rfl, rfl⟩, nofun⟩
    | false =>
      cases hx : s.archive.exhausted with
      | true => exact ⟨rfl, rfl, rfl, rfl, nofun, fun _ => ⟨rfl, rfl, rfl⟩, fun _ _ => rfl⟩
      | false => exact ⟨rfl, rfl, rfl, rfl, fun _ _ => ⟨rfl, rfl, rfl⟩, fun h => by simp at h, nofun⟩
  refine ⟨touches.capture_eq.trans State.programEnded_touches.2.capture_eq, ?_⟩
  simp only [t]
  rw [archive]
  change let c := (s.archive.programFailed b).1; _ at facts
  generalize (s.archive.programFailed b).1 = c at facts ⊢
  obtain ⟨group, page, groups, index, stays, leaves, dropped⟩ := facts
  have far : ¬c.nearlyFull := fun near => by
    have late := near.2
    rw [page] at late
    exact absurd late (by decide)
  rw [hq] at stays leaves
  have chosen := Archive.choose_still far
  refine ⟨?_, ?_, ?_, fun hh hx => ?_, fun h => ?_, fun hh hx => ?_, fun i x hx => ?_, fun i x hx hn => ?_⟩
  · rw [chosen]
    exact group
  · rw [chosen]
    exact page
  · rw [Archive.groupState_congr (b := c.choose.1) (a := c) (by rw [chosen]), Archive.groupState_congr groups]
    exact k.pageLost_same
  · rw [chosen]
    exact stays hh hx
  · rw [chosen]
    exact leaves h
  · rw [chosen]
    exact dropped hh hx
  · rw [← index]
    exact Archive.choose_index i x hx
  · exact Archive.choose_keeps_others (by rw [index]; exact hx) far (by rw [group]; exact hn)

end

/-- Settles O48: the layout of the page is that of its fields, and the command is read off the archive's own functions. -/
theorem programStoresPage : Obligations.ProgramStoresPage := by
  unfold Obligations.ProgramStoresPage
  refine ⟨fun b short => ?_, Sys2Proof.Tests.test_crc32_digits, fun s b rest hop hq => ⟨?_, ?_⟩⟩
  · obtain ⟨f0, f1, f5, f6, f7, f8, f14, f20, f26, f30, f31⟩ := b.bytes_header
    have hslot : b.slot.1 < 256 := b.slot.2.trans (by decide)
    refine ⟨Block.bytes_length short, f0.trans (Nat.mod_eq_of_lt hslot), f1, f5, ?_, ?_, f8, f14, f20, f26,
      f30.trans (Nat.mod_eq_of_lt (by omega)), ?_, fun _ _ h => b.bytes_reading h, fun _ => Block.bytes_unused short, Block.bytes_crc short⟩
    · rw [f6]
      cases b.side <;> rfl
    · rw [f7]
      cases b.lane <;> rfl
    · rw [f31]
      cases b.suspect <;> rfl
  · have after := (s.programEnded b .good).flashOver_touches
    have flash := after.flash_eq.trans State.programEnded_flash
    refine ⟨_, exec_program hop hq .good, (State.programEnded_touches.1.widen).trans
      (after.widen), fun a ha => ?_, fun n hn => ?_, program_good_stored,
      fun short hdseq hline hlane hbseq hfirst narrow q slot entry line side lane => ?_, program_good_clears hq, fun hc move =>
        program_good_quiet hq hc move⟩
    · rw [flash]
      exact flashWrite_outside _ _ _ _ ha
    · rw [flash]
      exact flashWrite_inside _ _ _ _ hn
    · rw [flash, readPage_flashWrite _ _ (Block.bytes_length short)]
      exact verifyPage_bytes short hdseq hline hlane hbseq hfirst narrow slot entry line side lane
  · obtain ⟨failures, lost⟩ := program_failed_counts (b := b) hop
    refine ⟨_, exec_program hop hq .failed, (State.programEnded_touches.2.widen).trans
      (s.programEnded b .failed).flashOver_touches, failures, fun hh => lost.trans (if_pos hh), fun hh => lost.trans (if_neg (by rw [hh]; decide)),
      program_failed_clears hop hq, fun hc usable => program_failed_quiet hq hc usable⟩

end Sys2Proof.Machine
end

section
/-! # O54: a resume (R120, R197 to R199): its updates one by one, the lines opened, the marks formed, and the notices told -/

namespace Sys2Proof.Machine

/-! ## The choice where no group is FAILING -/

section
variable {a : Archive} (none : ∀ g < 4096, a.groupState g ≠ .failing)
include none

theorem Archive.ring_quiet (n : Nat) {g : Nat} (hg : g < 4096) : (ring n a g).1 = (a, []) := by
  have next (g : Nat) : (g + 1) % groupCount < 4096 := Nat.mod_lt _ (by decide)
  induction n generalizing g with
  | zero => rfl
  | succ n ih =>
    cases hs : a.groupState g with
    | erased => rw [ring_stops (.inl hs)]
    | full => rw [ring_stops (.inr hs)]
    | failing => exact absurd hs (none g hg)
    | bad => rw [ring_passes (.inl hs), ih (next g)]
    | filling => rw [ring_passes (.inr hs), ih (next g)]

theorem Archive.eraseAhead_quiet : a.eraseAhead.2 = [] := by
  have walk : (ring groupCount a ((a.group + 1) % groupCount)).1 = (a, []) := ring_quiet none groupCount (Nat.mod_lt _ (by decide))
  unfold eraseAhead
  dsimp only
  rw [walk]
  split
  · split
    · rfl
    · split <;> rfl
  · rfl

/-- No group becomes BAD, so that no notice is raised and group table and EXHAUSTED stay. -/
theorem Archive.choose_quiet : a.choose.2 = [] ∧ a.choose.1.groups = a.groups ∧ a.choose.1.exhausted = a.exhausted := by
  have ahead : a.lookedAhead = a := congrArg Prod.fst (ring_quiet none groupCount (Nat.mod_lt _ (by decide)))
  rcases a.choose_cases with c | ⟨_, _, _, _, c⟩ | ⟨_, _, _, c⟩ | ⟨_, _, _, _, _, c⟩ <;> rw [c]
  · exact ⟨rfl, rfl, rfl⟩
  · refine ⟨rfl, ?_⟩
    rcases a.writeStep_cases with ⟨_, k⟩ | ⟨_, k⟩ | ⟨_, k⟩ <;> rw [k] <;> exact ⟨rfl, rfl⟩
  · rw [a.startRead_kept]
    exact ⟨rfl, rfl, rfl⟩
  · refine ⟨eraseAhead_quiet none, ?_⟩
    rcases a.eraseAhead_cases with ⟨_, k⟩ | ⟨_, k⟩ | ⟨_, g, _, _, _, k⟩ <;> rw [k]
    · exact ⟨rfl, rfl⟩
    · rw [ahead]
      exact ⟨rfl, rfl⟩
    · rw [ahead]
      exact ⟨rfl, rfl⟩

end

/-! ## What an update may lose -/

/-- Behind a walk from an empty write queue the queue is empty, and the occupancy and the blocks dropped are as before. -/
theorem Spent.drained {a b : Archive} (h : Spent a b) (hq : a.queue = []) (hd : a.cnt.dropped ≤ 4294967295) :
    b.queue = [] ∧ b.occupancy = a.occupancy ∧ b.cnt.dropped = a.cnt.dropped := by
  obtain ⟨queue, occupancy⟩ := h.queue_nil hq
  refine ⟨queue, occupancy, ?_⟩
  rcases h with ⟨_, _, _, _, same⟩ | ⟨_, _, _, _, _, now⟩
  · exact same
  · rw [now, hq]
    unfold bump
    simp
    omega

theorem Archive.advance_index (a : Archive) {i : Fin 64} {e : Entry} (he : e ∈ a.advance.1.index[i]) : e ∈ a.index[i] := by
  unfold advance at he
  rw [place_index] at he
  exact ring_index _ _ _ i e he

theorem Archive.stepPoint_index (a : Archive) {i : Fin 64} {e : Entry} (he : e ∈ a.stepPoint.1.index[i]) : e ∈ a.index[i] := by
  by_cases h : a.page = 63
  · have step : a.stepPoint = (a.setGroup a.group .full).advance := if_pos h
    rw [step] at he
    exact (a.setGroup a.group .full).advance_index he
  · rw [stepPoint_within h] at he
    exact he

theorem Archive.erased_index (a : Archive) (g : Nat) (r : FlashEnd) {i : Fin 64} {e : Entry} (he : e ∈ (a.erased g r).1.index[i]) :
    e ∈ a.index[i] := by
  cases r with
  | good => exact he
  | failed =>
    rw [erased_failed, testExhausted_index] at he
    by_cases h : a.group = g
    · have moves : (if a.group = g then (a.groupLost g).advance else (a.groupLost g, [])) = (a.groupLost g).advance := if_pos h
      rw [moves] at he
      exact (a.groupLost g).advance_index he
    · have stays : (if a.group = g then (a.groupLost g).advance else (a.groupLost g, [])) = (a.groupLost g, []) := if_neg h
      rw [stays] at he
      exact he

/-- Where no group is FAILING the move of the write point leaves the index. -/
theorem Archive.advance_steady {a : Archive} (none : ∀ g, a.groupState g ≠ .failing) : a.advance.1.index = a.index := by
  unfold advance
  rw [show groupCount = 4096 from rfl, place_idle (fun g _ => none g) (Nat.mod_lt _ (by decide))]

theorem Archive.stepPoint_steady {a : Archive} (none : ∀ g, a.groupState g ≠ .failing) :
    (∀ g, a.stepPoint.1.groupState g ≠ .failing) ∧ a.stepPoint.1.index = a.index := by
  have used (g : Nat) : a.pageUsed.groupState g ≠ .failing := by
    by_cases here : g = a.group
    · exact fun failing => a.pageUsed_same (.inr (here ▸ failing))
    · rw [a.pageUsed_other here]
      exact none g
  refine ⟨fun g failing => used g (a.stepPoint_facts.2.1.back failing (by decide)), ?_⟩
  by_cases h : a.page = 63
  · have step : a.stepPoint = a.pageUsed.advance := by
      unfold stepPoint pageUsed
      rw [if_pos h, if_pos h]
    rw [step, advance_steady used]
    rfl
  · rw [stepPoint_within h]
    rfl

theorem Archive.erased_steady {a : Archive} (none : ∀ g, a.groupState g ≠ .failing) (g : Nat) (r : FlashEnd) :
    (∀ j, (a.erased g r).1.groupState j ≠ .failing) ∧ (a.erased g r).1.index = a.index := by
  cases r with
  | good =>
    refine ⟨fun j => ?_, rfl⟩
    by_cases at_ : j = g
    · rw [at_, a.erasedGood_same g]
      decide
    · rw [a.erasedGood_other g at_]
      exact none j
  | failed =>
    obtain ⟨still, _⟩ := eraseFailed_idle (g := g) none
    refine ⟨still, ?_⟩
    rw [erased_failed, testExhausted_index]
    split
    · refine (advance_steady fun j => ?_).trans rfl
      by_cases at_ : j = g
      · rw [at_, a.groupLost_same g]
        decide
      · rw [a.groupLost_other g at_]
        exact none j
    · rfl

/-! ## The updates of step 1 (R120, R197) -/

section
variable (page : ReadBack) (failing : List (Fin 4096)) (s : State)

/-- The outcome of the re-erase of a group. -/
def reeraseEnd (g : Nat) : FlashEnd := if failing.any (fun b => b.1 == g) then .failed else .good

theorem reeraseEnd_failed {g : Nat} (h : ∃ b ∈ failing, b.1 = g) : reeraseEnd failing g = .failed := by
  unfold reeraseEnd
  rw [if_pos (List.any_eq_true.mpr (by simpa using h))]

theorem reeraseEnd_good {g : Nat} (h : ¬∃ b ∈ failing, b.1 = g) : reeraseEnd failing g = .good := by
  unfold reeraseEnd
  rw [if_neg]
  rw [List.any_eq_true]
  simpa using h

/-- What an update makes of the archive. -/
theorem State.resumeUpdate_archive (x : ResumeUpdate) : (State.resumeUpdate page failing s x).archive =
    match x with
    | .check => if s.archive.pageReady && !(s.pointImage page).all (· == erasedByte) then s.archive.stepPoint.1 else s.archive
    | .again g => { s.archive.startErase g with op := none, lastOp := none }
    | .erased g => (s.archive.erased g (reeraseEnd failing g)).1
    | .occupancy => { s.archive with occupancy := 0, cnt := { s.archive.cnt with dropped := bump s.archive.cnt.dropped s.archive.occupancy } } := by
  cases x with
  | check =>
    show (s.checkPoint page).archive = _
    rw [checkPoint_eq]
    split <;> rfl
  | _ => rfl

/-- No update ends the start. -/
theorem State.resumeUpdate_startUp (x : ResumeUpdate) : (State.resumeUpdate page failing s x).startUp.ready = s.startUp.ready ∧
    (State.resumeUpdate page failing s x).startUp.start = s.startUp.start := by
  cases x with
  | check =>
    show (s.checkPoint page).startUp.ready = _ ∧ (s.checkPoint page).startUp.start = _
    rw [checkPoint_eq]
    split <;> exact ⟨rfl, rfl⟩
  | _ => exact ⟨rfl, rfl⟩

/-- No update gives the index an entry. -/
theorem State.resumeUpdate_index (x : ResumeUpdate) {i : Fin 64} {e : Entry} (he : e ∈ (State.resumeUpdate page failing s x).archive.index[i]) :
    e ∈ s.archive.index[i] := by
  rw [resumeUpdate_archive] at he
  cases x with
  | check =>
    dsimp only at he
    split at he
    · exact s.archive.stepPoint_index he
    · exact he
  | again g => exact (Archive.startErase_index.mp he).1
  | erased g => exact s.archive.erased_index g _ he
  | occupancy => exact he

/-- Whether an entry stays in the index through an update: the re-erase of its group, as it begins, removes it. -/
def ResumeUpdate.keeps (e : Entry) : ResumeUpdate → Bool
  | .again g => e.page / 64 != g
  | _ => true

/-- With no group FAILING an update leaves none FAILING, and the index but for the group whose re-erase begins. -/
theorem State.resumeUpdate_steady (x : ResumeUpdate) (none : ∀ g, s.archive.groupState g ≠ .failing) :
    let u := (State.resumeUpdate page failing s x).archive
    (∀ g, u.groupState g ≠ .failing) ∧ ∀ i : Fin 64, u.index[i] = (s.archive.index[i]).filter (fun e => x.keeps e) := by
  have all (l : List Entry) : l = l.filter (fun _ => true) := (List.filter_true l).symm
  intro u
  have archive : u = _ := State.resumeUpdate_archive page failing s x
  cases x with
  | check =>
    cases passes : s.archive.pageReady && !(s.pointImage page).all (· == erasedByte) with
    | true =>
      obtain ⟨still, index⟩ := Archive.stepPoint_steady none
      rw [archive.trans (if_pos passes)]
      exact ⟨still, fun i => by rw [index]; exact all _⟩
    | false =>
      rw [archive.trans (if_neg (by rw [passes]; decide))]
      exact ⟨none, fun i => all _⟩
  | again g =>
    rw [archive]
    refine ⟨none, fun i => ?_⟩
    show (s.archive.unindex g).index[i] = _
    simp [Archive.unindex, ResumeUpdate.keeps, groupPages]
  | erased g =>
    obtain ⟨still, index⟩ := Archive.erased_steady none g (reeraseEnd failing g)
    rw [archive]
    exact ⟨still, fun i => by rw [index]; exact all _⟩
  | occupancy =>
    rw [archive]
    exact ⟨none, fun i => all _⟩

end

/-! ## The state formed (R197, R199) -/

section
variable (s : State)

/-- An enabled line opens. -/
def Tracker.opened (t : Tracker) : Tracker := if t.defn.enabled then { t with state := .waiting, timer := true } else t

theorem State.openLine_trackers (l k : Fin 4) : (s.openLine l).trackers[k] = if l = k then (s.trackers[k]).opened else s.trackers[k] := by
  unfold openLine Tracker.opened
  by_cases he : (s.trackers[l]).defn.enabled = true
  · rw [if_pos he]
    show (updAt s.trackers l _)[k] = _
    rw [updAt_get]
    by_cases hk : l = k
    · subst hk
      rw [if_pos rfl, if_pos rfl, if_pos he]
    · rw [if_neg hk, if_neg hk]
  · rw [if_neg he]
    by_cases hk : l = k
    · subst hk
      rw [if_pos rfl, if_neg he]
    · rw [if_neg hk]

/-- The port of a line that opens, by its tracker. -/
def Port.opened (p : Port) (t : Tracker) : Port := if t.defn.enabled then { p with rx := .settling, idleArmed := true } else p

theorem State.openLine_ports (l k : Fin 4) :
    (s.openLine l).ports[k] = if l = k then (s.ports[k]).opened (s.trackers[k]) else s.ports[k] := by
  unfold openLine Port.opened
  by_cases he : (s.trackers[l]).defn.enabled = true
  · rw [if_pos he]
    show (updAt s.ports l _)[k] = _
    rw [updAt_get]
    by_cases hk : l = k
    · subst hk
      rw [if_pos rfl, if_pos rfl, if_pos he]
    · rw [if_neg hk, if_neg hk]
  · rw [if_neg he]
    by_cases hk : l = k
    · subst hk
      rw [if_pos rfl, if_neg he]
    · rw [if_neg hk]

theorem Tracker.opened_twice (t : Tracker) (p : Port) : t.opened.opened = t.opened ∧ (p.opened t).opened t.opened = p.opened t := by
  unfold Port.opened opened
  cases he : t.defn.enabled <;> simp [he]

/-- The lines opened one after another. -/
theorem State.openLines_at (ls : List (Fin 4)) (k : Fin 4) :
    (ls.foldl openLine s).trackers[k] = (if k ∈ ls then (s.trackers[k]).opened else s.trackers[k]) ∧
    (ls.foldl openLine s).ports[k] = (if k ∈ ls then (s.ports[k]).opened (s.trackers[k]) else s.ports[k]) := by
  induction ls generalizing s with
  | nil => exact ⟨rfl, rfl⟩
  | cons l ls ih =>
    obtain ⟨trackers, ports⟩ := ih (s.openLine l)
    obtain ⟨twice, twicePort⟩ := (s.trackers[k]).opened_twice s.ports[k]
    rw [List.foldl_cons, trackers, ports, openLine_trackers, openLine_ports]
    by_cases hl : l = k
    · simp only [hl, if_true, twice, twicePort, ite_self, List.mem_cons, true_or, and_self]
    · simp only [hl, if_false, List.mem_cons, Ne.symm hl, false_or, and_self]

/-- The closed marks formed from the index. -/
theorem State.marksFromIndex_slots (i : Fin 64) : s.marksFromIndex.capture.slots[i] =
    { s.capture.slots[i] with mark := markFromIndex s.capture.slots[i] s.archive.index[i] } := by
  have fold (is : List (Fin 64)) (u : State) (ha : u.archive = s.archive) :
      (is.foldl (fun s i => s.updSlot i (fun sl => { sl with mark := markFromIndex sl s.archive.index[i] })) u).capture.slots[i] =
        if i ∈ is then { u.capture.slots[i] with mark := markFromIndex u.capture.slots[i] s.archive.index[i] } else u.capture.slots[i] := by
    induction is generalizing u with
    | nil => rfl
    | cons j is ih =>
      have here : ((u.updSlot j (fun sl => { sl with mark := markFromIndex sl u.archive.index[j] })).capture.slots)[i] =
          if j = i then { u.capture.slots[i] with mark := markFromIndex u.capture.slots[i] u.archive.index[j] } else u.capture.slots[i] :=
        updAt_get ..
      refine (ih (u.updSlot j _) ha).trans ?_
      rw [here, ha]
      by_cases hj : j = i
      · subst hj
        simp only [if_true, markFromIndex, List.mem_cons, true_or, ite_self]
      · simp only [hj, if_false, List.mem_cons, Ne.symm hj, false_or]
  refine (fold slotNumbers s rfl).trans (if_pos ?_)
  simp [slotNumbers]

end

end Sys2Proof.Machine
end

section
/-! # O54: a resume keeps what is retained, checks the write point, erases again, and raises START (R113, R120, R197 to R199) -/

namespace Sys2Proof.Machine

/-! ## The updates one after another -/

section
variable (page : ReadBack) (failing : List (Fin 4096))

/-- The state after some of the updates of step 1. -/
def State.updated (us : List ResumeUpdate) (s : State) : State := us.foldl (State.resumeUpdate page failing) s

variable (us : List ResumeUpdate) (s : State)

theorem State.updated_touches : Touches [.startUp, .archive, .flash] s (s.updated page failing us) := by
  have all (t : State) (h : Touches [.startUp, .archive, .flash] s t) : Touches [.startUp, .archive, .flash] s (t.updated page failing us) := by
    induction us generalizing t with
    | nil => exact h
    | cons u us ih => exact ih _ (h.resumeUpdate rfl rfl rfl)
  exact all s (.refl _ s)

theorem State.updated_startUp : (s.updated page failing us).startUp.ready = s.startUp.ready ∧
    (s.updated page failing us).startUp.start = s.startUp.start := by
  induction us generalizing s with
  | nil => exact ⟨rfl, rfl⟩
  | cons x us ih =>
    obtain ⟨ready, start⟩ := ih (State.resumeUpdate page failing s x)
    obtain ⟨ready', start'⟩ := State.resumeUpdate_startUp page failing s x
    exact ⟨ready.trans ready', start.trans start'⟩

theorem State.updated_index {i : Fin 64} {e : Entry} (he : e ∈ (s.updated page failing us).archive.index[i]) : e ∈ s.archive.index[i] := by
  induction us generalizing s with
  | nil => exact he
  | cons x us ih => exact State.resumeUpdate_index page failing s x (ih _ he)

/-- With no group FAILING the updates remove from the index what the re-erases begun remove, and nothing else (R113). -/
theorem State.updated_steady (none : ∀ g, s.archive.groupState g ≠ .failing) :
    (∀ g, (s.updated page failing us).archive.groupState g ≠ .failing) ∧
    ∀ i : Fin 64, (s.updated page failing us).archive.index[i] = (s.archive.index[i]).filter (fun e => us.all (fun x => x.keeps e)) := by
  induction us generalizing s with
  | nil => exact ⟨none, fun i => (List.filter_true _).symm⟩
  | cons x us ih =>
    obtain ⟨still, index⟩ := State.resumeUpdate_steady page failing s x none
    obtain ⟨later, rest⟩ := ih _ still
    refine ⟨later, fun i => (rest i).trans ?_⟩
    rw [index i, List.filter_filter]
    refine List.filter_congr fun e _ => ?_
    rw [List.all_cons, Bool.and_comm]

/-- Before the occupancy is added, an empty write queue leaves occupancy and counts of blocks dropped as they are. -/
theorem State.updated_drained (hx : .occupancy ∉ us) (hq : s.archive.queue = []) (hd : s.archive.cnt.dropped ≤ 4294967295) :
    let u := s.updated page failing us
    u.archive.queue = [] ∧ u.archive.occupancy = s.archive.occupancy ∧ u.archive.cnt.dropped = s.archive.cnt.dropped ∧
    u.startUp.lost = s.startUp.lost := by
  induction us generalizing s with
  | nil => exact ⟨hq, rfl, rfl, rfl⟩
  | cons x us ih =>
    obtain ⟨here, later⟩ := not_or.mp (List.mem_cons.not.mp hx)
    have step : (State.resumeUpdate page failing s x).archive.queue = [] ∧
        (State.resumeUpdate page failing s x).archive.occupancy = s.archive.occupancy ∧
        (State.resumeUpdate page failing s x).archive.cnt.dropped = s.archive.cnt.dropped ∧
        (State.resumeUpdate page failing s x).startUp.lost = s.startUp.lost := by
      cases x with
      | check =>
        obtain ⟨queue, occupancy, dropped⟩ := s.archive.stepPoint_facts.2.2.drained (by exact hq) hd
        show (s.checkPoint page).archive.queue = _ ∧ (s.checkPoint page).archive.occupancy = _ ∧ (s.checkPoint page).archive.cnt.dropped = _ ∧
          (s.checkPoint page).startUp.lost = _
        rw [State.checkPoint_eq]
        split
        · exact ⟨queue, occupancy, dropped, rfl⟩
        · exact ⟨hq, rfl, rfl, rfl⟩
      | again g => exact ⟨hq, rfl, rfl, rfl⟩
      | erased g =>
        have archive : (State.resumeUpdate page failing s (.erased g)).archive = (s.archive.erased g (reeraseEnd failing g)).1 :=
          State.resumeUpdate_archive page failing s (.erased g)
        rw [archive]
        cases reeraseEnd failing g with
        | good => exact ⟨hq, rfl, rfl, rfl⟩
        | failed =>
          obtain ⟨_, _, spent, _⟩ := s.archive.eraseFailed_facts g
          obtain ⟨queue, occupancy, dropped⟩ := spent.drained (by exact hq) hd
          exact ⟨queue, occupancy, dropped, rfl⟩
      | occupancy => exact absurd rfl here
    obtain ⟨queue, occupancy, dropped, lost⟩ := step
    obtain ⟨queue', occupancy', dropped', lost'⟩ := ih _ later queue (dropped.le.trans hd)
    exact ⟨queue', occupancy'.trans occupancy, dropped'.trans dropped, lost'.trans lost⟩

/-- The updates of step 1 before the occupancy is added. -/
def State.repairs (s : State) : List ResumeUpdate :=
  (if s.startUp.checked then [] else [.check]) ++
    s.archive.marks.flatMap (fun g => if s.startUp.erasing = some g then [.erased g] else [.again g, .erased g])

theorem State.occupancy_not_repair : .occupancy ∉ s.repairs := by
  unfold repairs
  rw [List.mem_append, List.mem_flatMap]
  rintro (check | ⟨g, _, again⟩)
  · split at check <;> simp at check
  · split at again <;> simp at again

/-- The state with all updates of step 1 made. -/
def State.resumed : State := s.updated page failing s.resumeUpdates

theorem State.resumed_eq : s.resumed page failing =
    if s.startUp.added then s.updated page failing s.repairs else (s.updated page failing s.repairs).addOccupancy := by
  have parts : s.resumeUpdates = s.repairs ++ (if s.startUp.added then [] else [.occupancy]) := rfl
  unfold resumed updated
  rw [parts, List.foldl_append]
  cases s.startUp.added <;> rfl

/-- Adding the occupancy changes two figures of the archive and Start-up Control only. -/
theorem State.resumed_repaired : let u := s.updated page failing s.repairs
    (∃ n d, (s.resumed page failing).archive = { u.archive with occupancy := n, cnt := { u.archive.cnt with dropped := d } }) ∧
    (∃ n b, (s.resumed page failing).startUp = { u.startUp with lost := n, added := b }) ∧ (s.resumed page failing).flash = u.flash := by
  intro u
  rw [resumed_eq]
  split
  · exact ⟨⟨_, _, rfl⟩, ⟨_, _, rfl⟩, rfl⟩
  · exact ⟨⟨_, _, rfl⟩, ⟨_, _, rfl⟩, rfl⟩

end

/-! ## The part becomes READY (R199) -/

section
variable (u : State) (k : StartKind) (cause : Option ColdCause) (n : Nat)

/-- The state with START raised. -/
def State.started : State :=
  { u with
    startUp := { u.startUp with ready := true, start := none, valid := true, last := k }
    slc := { u.slc with notices := u.slc.notices ++ [noticeFrame (startPayload k cause u.startUp u.archive n)] } }

/-- The notice of an archive that is EXHAUSTED. -/
def Archive.entering (a : Archive) : Notice := archiveNotice 4 (some a.usable) none

/-- EXHAUSTED entered afresh where it holds. -/
def State.warned : State := if u.archive.exhausted then u.raise u.archive.entering else u

theorem State.becomeReady_eq : u.becomeReady k cause n = (four.foldl openLine (u.started k cause n).warned).flashKick := rfl

theorem State.warned_touches : Touches [.slc] u u.warned := by
  unfold warned
  split
  · exact (Touches.refl _ u).raise rfl
  · exact .refl _ u

theorem State.openLines_touches (ls : List (Fin 4)) : Touches [.ports, .trackers] u (ls.foldl openLine u) := by
  have all (v : State) (h : Touches [.ports, .trackers] u v) : Touches [.ports, .trackers] u (ls.foldl openLine v) := by
    induction ls generalizing v with
    | nil => exact h
    | cons l ls ih => exact ih _ (h.openLine rfl rfl)
  exact all u (.refl _ u)

/-- What becoming READY does to the blocks. -/
theorem State.becomeReady_blocks : let t := (u.becomeReady k cause n).kick
    t.startUp = { u.startUp with ready := true, start := none, valid := true, last := k } ∧ t.archive = u.archive.choose.1 ∧
    t.capture = u.capture ∧ t.flash = u.flash ∧
    ∀ l : Fin 4, t.trackers[l] = (u.trackers[l]).opened ∧ t.ports[l] = (u.ports[l]).opened (u.trackers[l]) := by
  have every : ∀ l : Fin 4, l ∈ four := by decide
  have warned := (u.started k cause n).warned_touches
  have lines := (u.started k cause n).warned.openLines_touches four
  have flash := (four.foldl openLine (u.started k cause n).warned).flashKick_touches
  intro t
  simp only [t]
  rw [becomeReady_eq, kick_startUp, kick_archive, kick_capture, kick_flash, kick_trackers, kick_ports, flashKick_archive, flash.startUp_eq,
    flash.capture_eq, flash.flash_eq, flash.trackers_eq, flash.ports_eq, lines.startUp_eq, lines.archive_eq, lines.capture_eq, lines.flash_eq,
    warned.startUp_eq, warned.archive_eq, warned.capture_eq, warned.flash_eq]
  refine ⟨rfl, rfl, rfl, rfl, fun l => ?_⟩
  obtain ⟨trackers, ports⟩ := (u.started k cause n).warned.openLines_at four l
  rw [if_pos (every l)] at trackers ports
  rw [trackers, ports, warned.trackers_eq, warned.ports_eq]
  exact ⟨rfl, rfl⟩

/-- The notices raised behind START. -/
theorem State.becomeReady_tells :
    Tells ((if u.archive.exhausted then [u.archive.entering] else []) ++ u.archive.choose.2) (u.started k cause n) (u.becomeReady k cause n) := by
  have warned : Tells (if u.archive.exhausted then [u.archive.entering] else []) (u.started k cause n) (u.started k cause n).warned := by
    unfold State.warned
    show Tells _ _ (if u.archive.exhausted then _ else _)
    split
    · exact State.raise_tells _ _
    · exact .of_slc rfl rfl
  have lines := (u.started k cause n).warned.openLines_touches four
  have archive : (four.foldl openLine (u.started k cause n).warned).archive = u.archive :=
    lines.archive_eq.trans (u.started k cause n).warned_touches.archive_eq
  rw [becomeReady_eq]
  unfold State.flashKick State.withArch
  rw [archive]
  exact (warned.frame (u := { four.foldl openLine (u.started k cause n).warned with archive := u.archive.choose.1 }) lines.startUp_eq
    lines.slc_eq).trans (State.raiseAll_tells _ _)

/-- The condition EXHAUSTED behind START, where the choice raises nothing. -/
theorem State.becomeReady_exhausted (quiet : u.archive.choose.2 = []) : (u.becomeReady k cause n).kick.slc.exhausted =
    if u.archive.exhausted then some { notice := u.archive.entering, repeats := 0, timer := u.slc.settings.archiveRepeat } else u.slc.exhausted := by
  have lines := (u.started k cause n).warned.openLines_touches four
  have archive : (four.foldl openLine (u.started k cause n).warned).archive = u.archive :=
    lines.archive_eq.trans (u.started k cause n).warned_touches.archive_eq
  have slc : (u.becomeReady k cause n).slc = (u.started k cause n).warned.slc := by
    rw [becomeReady_eq]
    unfold State.flashKick State.withArch
    rw [archive, quiet]
    exact lines.slc_eq
  rw [kick_exhausted, slc]
  unfold State.warned
  show (if u.archive.exhausted then _ else _ : State).slc.exhausted = _
  split
  · rw [raise_eq]
    show (Slc.takeNotice _ _ _).exhausted = _
    rcases Slc.takeNotice_cases ((u.started k cause n).slc.enterInst u.archive.entering) NoticeClass.archive
      (noticeFrame (u.archive.entering.payload none)) with ⟨_, e⟩ | ⟨_, _, e⟩ | ⟨_, _, e⟩ <;> exact (congrArg Slc.exhausted e).trans rfl
  · rfl

/-- What was queued stays queued. -/
theorem noticeTake_mono (c : NoticeSettings) (w : Nat) (ns : List Notice) (q : Nat × Nat × List Frame) {f : Frame} (hf : f ∈ q.2.2) :
    f ∈ (ns.foldl (noticeTake c w) q).2.2 := by
  obtain ⟨m, d, fs⟩ := q
  have shifted := noticeTake_shift c w fs ns m d []
  rw [List.append_nil] at shifted
  rw [shifted]
  exact List.mem_append_left _ hf

/-- The notices of a start: START first, then EXHAUSTED where it holds, then what the choice of a flash operation raises (R199). -/
theorem State.becomeReady_notices : let t := (u.becomeReady k cause n).kick
    let frame := noticeFrame (noticeBytes u.archive.entering none)
    ∃ more, t.announced = u.announced ++ noticeFrame (startPayload k cause u.startUp u.archive n) :: more ∧
      (u.archive.exhausted = true → u.slc.notices.length < 7 → u.slc.settings.archive = true → frame ∈ more) ∧
      (u.archive.choose.2 = [] →
        (u.archive.exhausted = false → more = [] ∧ t.slc.masked = u.slc.masked) ∧
        (u.archive.exhausted = true →
          (u.slc.settings.archive = false → more = [] ∧ t.slc.masked = bump u.slc.masked) ∧
          (u.slc.settings.archive = true → u.slc.notices.length < 7 → more = [frame] ∧ t.slc.masked = u.slc.masked))) := by
  intro t frame
  obtain ⟨masked, _, announced⟩ := (u.becomeReady_tells k cause n).kick
  rw [if_pos (show (u.started k cause n).startUp.ready = true from rfl)] at masked announced
  have waiting : (u.started k cause n).slc.notices.length = u.slc.notices.length + 1 := List.length_append
  have before : (u.started k cause n).announced = u.announced ++ [noticeFrame (startPayload k cause u.startUp u.archive n)] :=
    (List.append_assoc ..).symm
  rw [before, List.append_assoc] at announced
  rw [waiting, show (u.started k cause n).slc.settings = u.slc.settings from rfl] at masked announced
  have queued (room : u.slc.notices.length < 7) (on : u.slc.settings.archive = true) (m d : Nat) :
      noticeTake u.slc.settings (u.slc.notices.length + 1) (m, d, []) u.archive.entering = (m, d, [frame]) := by
    unfold noticeTake
    rw [if_neg (by rw [show u.slc.settings.enabled u.archive.entering.cls = _ from on]; decide), if_pos (by simpa using by omega)]
    rfl
  refine ⟨_, announced, fun worn room on => ?_, fun quiet => ⟨fun fresh => ?_, fun worn => ⟨fun off => ?_, fun on room => ?_⟩⟩⟩
  · rw [if_pos worn, List.cons_append, List.foldl_cons, queued room on]
    exact noticeTake_mono _ _ _ _ (List.mem_singleton_self _)
  · rw [quiet, if_neg (by rw [fresh]; decide)] at masked ⊢
    exact ⟨rfl, masked⟩
  · have skipped (m d : Nat) : noticeTake u.slc.settings (u.slc.notices.length + 1) (m, d, []) u.archive.entering = (bump m, d, []) :=
      if_pos off
    rw [quiet, if_pos worn, List.append_nil, List.foldl_cons, skipped] at masked ⊢
    exact ⟨rfl, masked⟩
  · rw [quiet, if_pos worn, List.append_nil, List.foldl_cons, queued room on] at masked ⊢
    exact ⟨rfl, masked⟩

end

end Sys2Proof.Machine
end

section
/-! # O54: the command RESUME -/

namespace Sys2Proof.Machine

/-- The write point and its group after a step within the group. -/
theorem Archive.stepPoint_filling {a : Archive} (h : a.page ≠ 63) :
    a.stepPoint.1.page = a.page + 1 ∧ a.stepPoint.1.group = a.group ∧ a.stepPoint.1.groupState a.group = .filling := by
  rw [stepPoint_within h]
  exact ⟨rfl, rfl, a.setGroup_same a.group .filling⟩

/-- The write point and the group it leaves after a step from page 63. -/
theorem Archive.stepPoint_full {a : Archive} (h : a.page = 63)
    (usable : a.groupState ((a.group + 1) % 4096) = .erased ∨ a.groupState ((a.group + 1) % 4096) = .full) :
    a.stepPoint.1.page = 0 ∧ a.stepPoint.1.group = (a.group + 1) % 4096 ∧ a.stepPoint.1.groupState a.group = .full := by
  rw [stepPoint_wraps h usable]
  exact ⟨rfl, rfl, a.setGroup_same a.group .full⟩

/-- The bytes of the START notice of a resume (section 11.3). -/
theorem startPayload_resume (u : StartUp) (a : Archive) (n : Nat) : startPayload .resume none u a n =
    [6#8, 1#8, 0#8, 0xFF#8] ++ beBytes 4 0 ++ [1#8, 0xFF#8] ++ beBytes 2 a.usable ++ beBytes 2 n ++ beBytes 2 u.reerased
      ++ [BitVec.ofNat 8 u.passed, if a.exhausted then 1#8 else 0#8] ++ beBytes 4 u.lost := rfl

section
variable {page : ReadBack} {failing : List (Fin 4096)} {s : State}

/-- The state a resume ends in, but for the link's next transmission. -/
def State.readied (s : State) (page : ReadBack) (failing : List (Fin 4096)) : State :=
  (s.resumed page failing).marksFromIndex.becomeReady .resume none (s.resumed page failing).startUp.madeBad

theorem exec_resume (h : s.startUp.start = some .resume) :
    exec (.resume page failing none) s = .next (s.readied page failing).kick ∧
    ∀ k, exec (.resume page failing (some k)) s = .next (s.updated page failing (s.resumeUpdates.take k)).kick := by
  have arm (k : Option Nat) : exec (.resume page failing k) s = execResume page failing k s := rfl
  refine ⟨?_, fun k => ?_⟩
  · rw [arm]
    unfold execResume
    rw [h]
    rfl
  · rw [arm]
    unfold execResume
    rw [h]
    rfl

namespace State

theorem resumed_touches : Touches [.startUp, .archive, .flash] s (s.resumed page failing) := s.updated_touches page failing _

theorem formed_touches : Touches [.capture] (s.resumed page failing) (s.resumed page failing).marksFromIndex :=
  (Touches.refl _ _).marksFromIndex rfl

/-- What a resume makes of the blocks, from the state with its updates made. -/
theorem readied_blocks : let t := (s.readied page failing).kick
    let u := s.resumed page failing
    t.startUp = { u.startUp with ready := true, start := none, valid := true, last := .resume } ∧ t.archive = u.archive.choose.1 ∧
    t.flash = u.flash ∧
    (∀ l : Fin 4, t.trackers[l] = (s.trackers[l]).opened ∧ t.ports[l] = (s.ports[l]).opened (s.trackers[l])) ∧
    ∀ i : Fin 64, t.capture.slots[i] = { s.capture.slots[i] with mark := markFromIndex s.capture.slots[i] u.archive.index[i] } := by
  intro t u
  obtain ⟨startUp, archive, capture, flash, lines⟩ := u.marksFromIndex.becomeReady_blocks .resume none u.startUp.madeBad
  have formed : Touches [.capture] u u.marksFromIndex := formed_touches
  have updated : Touches [.startUp, .archive, .flash] s u := resumed_touches
  rw [formed.startUp_eq] at startUp
  rw [formed.archive_eq] at archive
  refine ⟨startUp, archive, flash.trans formed.flash_eq, fun l => ?_, fun i => ?_⟩
  · obtain ⟨trackers, ports⟩ := lines l
    rw [formed.trackers_eq, updated.trackers_eq] at trackers
    rw [formed.trackers_eq, updated.trackers_eq, formed.ports_eq, updated.ports_eq] at ports
    exact ⟨trackers, ports⟩
  · have slots := u.marksFromIndex_slots i
    rw [updated.capture_eq] at slots
    show t.capture.slots[i] = _
    rw [show t.capture = u.marksFromIndex.capture from capture]
    exact slots

theorem readied_touches : Touches [.startUp, .ports, .trackers, .capture, .archive, .flash, .slc] s (s.readied page failing).kick :=
  ((((Touches.refl _ s).trans (resumed_touches.widen)).marksFromIndex rfl).becomeReady
    rfl rfl rfl rfl rfl).kick rfl

/-! ## The occupancy (R120) -/

theorem readied_occupancy (h : s.startUp.added = false) : (s.readied page failing).kick.archive.occupancy = 0 := by
  obtain ⟨_, archive, _⟩ := readied_blocks (s := s) (page := page) (failing := failing)
  rw [archive, Archive.choose_queue _ |>.2, resumed_eq, if_neg (by rw [h]; decide)]
  rfl

theorem readied_dropped (h : s.startUp.added = false) (hq : s.archive.queue = []) (hd : s.archive.cnt.dropped ≤ 4294967295) :
    let t := (s.readied page failing).kick
    t.startUp.lost = s.startUp.lost + s.archive.occupancy ∧ t.archive.cnt.dropped = bump s.archive.cnt.dropped s.archive.occupancy := by
  obtain ⟨queue, occupancy, dropped, lost⟩ := s.updated_drained page failing s.repairs s.occupancy_not_repair hq hd
  obtain ⟨startUp, archive, _⟩ := readied_blocks (s := s) (page := page) (failing := failing)
  intro t
  simp only [t]
  rw [startUp, archive, resumed_eq, if_neg (by rw [h]; decide)]
  generalize s.updated page failing s.repairs = u at *
  have counted : u.addOccupancy.archive.cnt.dropped = bump s.archive.cnt.dropped s.archive.occupancy := by
    rw [← occupancy, ← dropped]
    rfl
  have bound : u.addOccupancy.archive.cnt.dropped ≤ 4294967295 := counted.le.trans (Nat.min_le_right ..)
  obtain ⟨_, _, same⟩ := (Spent.choose u.addOccupancy.archive).drained queue bound
  refine ⟨?_, same.trans counted⟩
  rw [← lost, ← occupancy]
  rfl

/-! ## The write-point check (R120) -/

/-- The page at the write point does not read as erased, in a group that is ERASED or FILLING. -/
def passes (s : State) (page : ReadBack) : Prop :=
  (s.archive.groupState s.archive.group = .erased ∨ s.archive.groupState s.archive.group = .filling) ∧ ∃ b ∈ s.pointImage page, b ≠ 0xFF#8

theorem passes_iff : (s.archive.pageReady && !(s.pointImage page).all (· == erasedByte)) = true ↔ s.passes page := by
  have ready : s.archive.pageReady = true ↔
      s.archive.groupState s.archive.group = .erased ∨ s.archive.groupState s.archive.group = .filling := by
    unfold Archive.pageReady
    cases s.archive.groupState s.archive.group <;> simp
  rw [Bool.and_eq_true, ready, Bool.not_eq_true', List.all_eq_false]
  simp [passes, erasedByte]

/-- The check alone, where no group is marked. -/
theorem checked_facts (hp : s.startUp.checked = false) (hm : s.archive.marks = []) : let u := s.updated page failing s.repairs
    (s.passes page → u.archive = s.archive.stepPoint.1 ∧ u.startUp.passed = s.startUp.passed + 1) ∧
    (¬s.passes page → u.archive = s.archive ∧ u.startUp.passed = s.startUp.passed) := by
  have only : s.repairs = [.check] := by
    unfold repairs
    rw [hp, hm]
    rfl
  intro u
  have here : u = s.checkPoint page := by
    show s.updated page failing s.repairs = _
    rw [only]
    rfl
  rw [here, checkPoint_eq]
  refine ⟨fun yes => ?_, fun no => ?_⟩
  · rw [if_pos (passes_iff.mpr yes)]
    exact ⟨rfl, rfl⟩
  · rw [if_neg (passes_iff.not.mpr no)]
    exact ⟨rfl, rfl⟩

/-- The archive of the state a resume ends in: write point, groups, erase marks and index follow those behind the repairs. -/
theorem readied_archive : let t := (s.readied page failing).kick
    let u := s.updated page failing s.repairs
    t.archive.page = u.archive.page ∧ t.archive.group = u.archive.group ∧
    (∀ g, u.archive.groupState g ≠ .failing → t.archive.groupState g = u.archive.groupState g) ∧
    (∀ g, g ∈ t.archive.marks → g ∈ u.archive.marks ∨ u.archive.groupState g = .full) ∧
    ∀ (i : Fin 64) (e : Entry), e ∈ t.archive.index[i] → e ∈ u.archive.index[i] := by
  obtain ⟨_, archive, _⟩ := readied_blocks (s := s) (page := page) (failing := failing)
  obtain ⟨⟨n, d, counted⟩, _⟩ := resumed_repaired page failing s
  intro t u
  simp only [t]
  rw [archive]
  have groups : (s.resumed page failing).archive.groups = u.archive.groups := by rw [counted]
  have states (g : Nat) := Archive.groupState_congr groups g
  have aged := Aged.choose (s.resumed page failing).archive
  obtain ⟨group, page, _⟩ := (s.resumed page failing).archive.choose_point
  refine ⟨page.trans (by rw [counted]), group.trans (by rw [counted]), fun g hg => ?_, fun g hg => ?_, fun i e he => ?_⟩
  · rw [aged.kept (by rw [states]; exact hg), states]
  · have marked := Archive.choose_marks _ hg
    rw [states, show (s.resumed _ failing).archive.marks = u.archive.marks by rw [counted]] at marked
    exact marked
  · have kept := Archive.choose_index i e he
    rw [show (s.resumed _ failing).archive.index = u.archive.index by rw [counted]] at kept
    exact kept

theorem readied_point (hp : s.startUp.checked = false) (hm : s.archive.marks = []) :
    let t := (s.readied page failing).kick
    let k := s.archive
    let next := (k.group + 1) % 4096
    (s.passes page → k.page ≠ 63 → t.archive.page = k.page + 1 ∧ t.archive.group = k.group ∧ t.archive.groupState k.group = .filling) ∧
    (s.passes page → k.page = 63 → k.groupState next = .erased ∨ k.groupState next = .full →
      t.archive.page = 0 ∧ t.archive.group = next ∧ t.archive.groupState k.group = .full) ∧
    (s.passes page → t.startUp.passed = s.startUp.passed + 1) ∧
    (¬s.passes page → t.archive.page = k.page ∧ t.archive.group = k.group ∧ t.startUp.passed = s.startUp.passed) := by
  obtain ⟨yes, no⟩ := checked_facts (page := page) (failing := failing) hp hm
  obtain ⟨startUp, _⟩ := readied_blocks (s := s) (page := page) (failing := failing)
  obtain ⟨_, ⟨n, b, gathered⟩, _⟩ := resumed_repaired page failing s
  obtain ⟨page_, group, states, _⟩ := readied_archive (s := s) (page := page) (failing := failing)
  have passed : (s.readied page failing).kick.startUp.passed = (s.updated page failing s.repairs).startUp.passed := by rw [startUp, gathered]
  clear startUp gathered
  intro t k next
  simp only [t]
  generalize (s.readied page failing).kick = t at *
  generalize s.updated page failing s.repairs = u at *
  refine ⟨fun h away => ?_, fun h last usable => ?_, fun h => passed.trans (yes h).2, fun h => ?_⟩
  · obtain ⟨page', group', filling⟩ := Archive.stepPoint_filling away
    rw [(yes h).1] at page_ group states
    exact ⟨page_.trans page', group.trans group', (states _ (by rw [filling]; decide)).trans filling⟩
  · obtain ⟨page', group', full⟩ := Archive.stepPoint_full last usable
    rw [(yes h).1] at page_ group states
    exact ⟨page_.trans page', group.trans group', (states _ (by rw [full]; decide)).trans full⟩
  · obtain ⟨same, count⟩ := no h
    exact ⟨page_.trans (by rw [same]), group.trans (by rw [same]), passed.trans count⟩

theorem readied_flash (hm : s.archive.marks = []) : (s.readied page failing).kick.flash = s.flash := by
  obtain ⟨_, _, flash, _⟩ := readied_blocks (s := s) (page := page) (failing := failing)
  obtain ⟨_, _, same⟩ := resumed_repaired page failing s
  refine flash.trans (same.trans ?_)
  unfold repairs updated
  rw [hm]
  cases s.startUp.checked with
  | true => rfl
  | false =>
    show (s.checkPoint page).flash = s.flash
    rw [checkPoint_eq]
    split <;> rfl

/-! ## The re-erase of a marked group (R106, R120) -/

theorem endReerase_flash (u : State) (g : Nat) : (u.endReerase failing g).flash =
    match reeraseEnd failing g with | .failed => u.flash | .good => eraseGroup u.flash g := by
  unfold endReerase reeraseEnd
  dsimp only
  cases failing.any (fun b => b.1 == g) <;> rfl

theorem endReerase_madeBad (u : State) (g : Nat) : (u.endReerase failing g).startUp.madeBad =
    match reeraseEnd failing g with | .failed => u.startUp.madeBad + 1 | .good => u.startUp.madeBad := by
  unfold endReerase reeraseEnd
  dsimp only
  cases failing.any (fun b => b.1 == g) <;> rfl

end State

/-- A group erased loses its mark and no other does; the ERASEs counted stay. -/
theorem Archive.erased_kept (a : Archive) (g : Nat) (r : FlashEnd) :
    (a.erased g r).1.marks = a.marks.filter (· != g) ∧ (a.erased g r).1.cnt.erases = a.cnt.erases := by
  cases r with
  | good => exact ⟨rfl, rfl⟩
  | failed =>
    obtain ⟨placed, _⟩ := a.eraseFailed_facts g
    rw [placed]
    exact ⟨rfl, rfl⟩

/-- What an ERASE makes of its group. -/
theorem Archive.erased_state (a : Archive) (g : Nat) (r : FlashEnd) :
    (a.erased g r).1.groupState g = match r with | .good => .erased | .failed => .bad := by
  cases r with
  | good => exact a.erasedGood_same g
  | failed =>
    obtain ⟨_, aged, _⟩ := a.eraseFailed_facts g
    exact (aged.kept (by rw [a.groupLost_same]; decide)).trans (a.groupLost_same g)

namespace State

/-- The state before the re-erase of a marked group completes: it begins now, or had begun (R198). -/
def reerasing (s : State) (g : Nat) : State := if s.startUp.erasing = some g then s else s.beginReerase g

theorem repairs_marked (hc : s.startUp.checked = true) {g : Nat} (hm : s.archive.marks = [g]) :
    s.updated page failing s.repairs = (s.reerasing g).endReerase failing g := by
  unfold updated repairs reerasing
  rw [hc, hm]
  by_cases he : s.startUp.erasing = some g
  · simp only [if_true, List.flatMap_cons, List.flatMap_nil, he, List.append_nil, List.nil_append]
    rfl
  · simp only [if_true, List.flatMap_cons, List.flatMap_nil, he, if_false, List.append_nil, List.nil_append]
    rfl

theorem reerasing_kept (g : Nat) : (s.reerasing g).flash = s.flash ∧ (s.reerasing g).startUp.reerased = s.startUp.reerased ∧
    (s.reerasing g).startUp.madeBad = s.startUp.madeBad := by
  unfold reerasing
  split <;> exact ⟨rfl, rfl, rfl⟩

theorem readied_reerase (hc : s.startUp.checked = true) {g : Nat} (hm : s.archive.marks = [g]) :
    let t := (s.readied page failing).kick
    let fails : Prop := ∃ b ∈ failing, b.1 = g
    g ∉ t.archive.marks ∧
    (s.startUp.erasing ≠ some g → ∀ (i : Fin 64) (e : Entry), e ∈ t.archive.index[i] → e.page / 64 ≠ g) ∧
    t.startUp.reerased = s.startUp.reerased + 1 ∧
    (fails → t.archive.groupState g = .bad ∧ t.flash = s.flash ∧ t.startUp.madeBad = s.startUp.madeBad + 1) ∧
    (¬fails → t.archive.groupState g = .erased ∧ t.startUp.madeBad = s.startUp.madeBad ∧
      ∀ a, flashRead t.flash a = if 516 * (64 * g) ≤ a ∧ a < 516 * (64 * (g + 1)) then 0xFF#8 else flashRead s.flash a) := by
  obtain ⟨startUp, _, flash, _⟩ := readied_blocks (s := s) (page := page) (failing := failing)
  obtain ⟨_, ⟨n, b, gathered⟩, same⟩ := resumed_repaired page failing s
  obtain ⟨_, _, states, marks, index⟩ := readied_archive (s := s) (page := page) (failing := failing)
  rw [repairs_marked hc hm] at gathered same states marks index
  obtain ⟨flash', reerased, madeBad⟩ := s.reerasing_kept g
  have ended : ((s.reerasing g).endReerase failing g).archive = ((s.reerasing g).archive.erased g (reeraseEnd failing g)).1 := rfl
  obtain ⟨kept, _⟩ := (s.reerasing g).archive.erased_kept g (reeraseEnd failing g)
  have state := (s.reerasing g).archive.erased_state g (reeraseEnd failing g)
  have settled : (s.readied page failing).kick.archive.groupState g = _ :=
    (states g (by rw [ended, state]; split <;> decide)).trans ((congrArg (·.groupState g) ended).trans state)
  have bad : (s.readied page failing).kick.startUp.madeBad = _ :=
    (show _ = ((s.reerasing g).endReerase failing g).startUp.madeBad by rw [startUp, gathered]).trans (endReerase_madeBad _ g)
  have array : (s.readied page failing).kick.flash = _ := flash.trans (same.trans (endReerase_flash _ g))
  refine ⟨fun marked => ?_, fun fresh i e he => ?_, ?_, fun fails => ?_, fun holds => ?_⟩
  · rcases marks g marked with m | full
    · rw [ended, kept] at m
      exact absurd rfl (bne_iff_ne.mp (List.mem_filter.mp m).2)
    · rw [ended, state] at full
      cases hr : reeraseEnd failing g <;> rw [hr] at full <;> cases full
  · have before := (s.reerasing g).archive.erased_index g _ (index i e he)
    unfold reerasing at before
    rw [if_neg fresh] at before
    exact (Archive.startErase_index.mp before).2
  · rw [startUp, gathered, ← reerased]
    rfl
  · rw [reeraseEnd_failed failing fails] at settled bad array
    exact ⟨settled, array.trans flash', bad.trans (congrArg (· + 1) madeBad)⟩
  · rw [reeraseEnd_good failing holds] at settled bad array
    refine ⟨settled, bad.trans madeBad, fun a => ?_⟩
    rw [array, flash']
    exact eraseGroup_read ..

/-! ## Marks and notices (R113, R120, R199) -/

/-- The index after all updates, where no group is FAILING. -/
theorem resumed_index (none : ∀ g, s.archive.groupState g ≠ .failing) (i : Fin 64) : (s.resumed page failing).archive.index[i] =
    (s.archive.index[i]).filter (fun e => s.archive.marks.all (fun g => decide (s.startUp.erasing = some g) || e.page / 64 != g)) := by
  refine ((s.updated_steady page failing s.resumeUpdates none).2 i).trans (List.filter_congr fun e _ => ?_)
  have again (g : Nat) : (if s.startUp.erasing = some g then [ResumeUpdate.erased g] else [.again g, .erased g]).all (fun x => x.keeps e) =
      (decide (s.startUp.erasing = some g) || e.page / 64 != g) := by
    split
    · next h => simp [ResumeUpdate.keeps, h]
    · next h => simp [ResumeUpdate.keeps, h]
  unfold resumeUpdates
  rw [List.all_append, List.all_append, List.all_flatMap]
  simp only [again]
  cases s.startUp.checked <;> cases s.startUp.added <;> simp [ResumeUpdate.keeps]

theorem readied_slots (i : Fin 64) : let t := (s.readied page failing).kick
    (t.capture.slots[i]).dseq = (s.capture.slots[i]).dseq ∧ (t.capture.slots[i]).defined = (s.capture.slots[i]).defined ∧
    (s.archive.index[i] = [] → (t.capture.slots[i]).mark = none) ∧
    ((∀ g, s.archive.groupState g ≠ .failing) →
      let left := (s.archive.index[i]).filter (fun e =>
        s.archive.marks.all (fun g => decide (s.startUp.erasing = some g) || e.page / 64 != g))
      t.capture.slots[i] = { s.capture.slots[i] with
        mark := if (s.capture.slots[i]).defined then
            ((left.filter (fun e => e.dseq == (s.capture.slots[i]).dseq)).getLast?).map (·.last)
          else none }) := by
  obtain ⟨_, _, _, _, slots⟩ := readied_blocks (s := s) (page := page) (failing := failing)
  have slot := slots i
  intro t
  simp only [t]
  rw [slot]
  refine ⟨rfl, rfl, fun empty => ?_, fun none => ?_⟩
  · have still : (s.resumed page failing).archive.index[i] = [] := List.eq_nil_iff_forall_not_mem.mpr fun e he => by
      have old := s.updated_index page failing _ he
      rw [empty] at old
      cases old
    rw [still]
    unfold markFromIndex
    split <;> rfl
  · rw [resumed_index none]
    rfl

theorem readied_notices : let t := (s.readied page failing).kick
    ∃ (usable : Nat) (worn : Bool) (more : List Frame),
      let entering : Notice := { cls := .archive, reason := 4, figure := some usable }
      t.announced = s.announced ++ noticeFrame ([6#8, 1#8, 0#8, 0xFF#8] ++ beBytes 4 0 ++ [1#8, 0xFF#8] ++ beBytes 2 usable
        ++ beBytes 2 t.startUp.madeBad ++ beBytes 2 t.startUp.reerased ++ [BitVec.ofNat 8 t.startUp.passed, if worn then 1#8 else 0#8]
        ++ beBytes 4 t.startUp.lost) :: more ∧
      (worn = true → s.slc.notices.length < 7 → s.slc.settings.archive = true → noticeFrame (noticeBytes entering none) ∈ more) ∧
      ((∀ g, s.archive.groupState g ≠ .failing) → usable = t.archive.usable ∧ worn = t.archive.exhausted ∧
        (worn = false → more = [] ∧ t.slc.exhausted = s.slc.exhausted ∧ t.slc.masked = s.slc.masked) ∧
        (worn = true → t.slc.exhausted = some { notice := entering, repeats := 0, timer := s.slc.settings.archiveRepeat } ∧
          (s.slc.settings.archive = false → more = [] ∧ t.slc.masked = bump s.slc.masked) ∧
          (s.slc.settings.archive = true → s.slc.notices.length < 7 →
            more = [noticeFrame (noticeBytes entering none)] ∧ t.slc.masked = s.slc.masked))) := by
  obtain ⟨startUp, archive, _⟩ := readied_blocks (s := s) (page := page) (failing := failing)
  have whole : s.readied page failing = (s.resumed page failing).marksFromIndex.becomeReady .resume none (s.resumed page failing).startUp.madeBad := rfl
  have steady := fun none => (s.updated_steady page failing s.resumeUpdates none).1
  rw [show s.updated page failing s.resumeUpdates = s.resumed page failing from rfl] at steady
  have updated : Touches [.startUp, .archive, .flash] s (s.resumed page failing) := resumed_touches
  generalize s.resumed page failing = u at *
  have formed : Touches [.capture] u u.marksFromIndex := (Touches.refl _ u).marksFromIndex rfl
  have slc : u.marksFromIndex.slc = s.slc := formed.slc_eq.trans updated.slc_eq
  have told : u.marksFromIndex.announced = s.announced := by
    unfold announced
    rw [slc]
  obtain ⟨more, announced, joins, quiet⟩ := u.marksFromIndex.becomeReady_notices .resume none u.startUp.madeBad
  have condition := u.marksFromIndex.becomeReady_exhausted .resume none u.startUp.madeBad
  rw [formed.archive_eq, slc] at joins quiet condition
  rw [← whole] at announced quiet condition
  rw [told, formed.archive_eq, formed.startUp_eq, startPayload_resume] at announced
  intro t
  simp only [t]
  generalize (s.readied page failing).kick = t at *
  refine ⟨u.archive.usable, u.archive.exhausted, more, ?_, joins, fun none => ?_⟩
  · rw [startUp]
    exact announced
  · obtain ⟨nothing, groups, exhausted⟩ := Archive.choose_quiet (fun g _ => steady none g)
    have condition := condition nothing
    obtain ⟨fresh, worn⟩ := quiet nothing
    refine ⟨?_, ?_, fun h => ?_, fun h => ?_⟩
    · rw [archive]
      exact (Archive.usable_congr groups).symm
    · rw [archive]
      exact exhausted.symm
    · rw [if_neg (by rw [h]; decide)] at condition
      exact ⟨(fresh h).1, condition, (fresh h).2⟩
    · rw [if_pos h] at condition
      exact ⟨condition, worn h⟩

end State

/-! ## A resume cut (R198) -/

/-- Cut after its first update, with a group marked. -/
theorem resume_cut_first (hc : s.startUp.checked = true) {g : Nat} {gs : List Nat} (hm : s.archive.marks = g :: gs) (hg : g ∉ gs) :
    let t := (s.updated page failing (s.resumeUpdates.take 1)).kick
    (∀ h ∈ gs, h ∈ t.archive.marks) ∧
    (s.startUp.erasing ≠ some g → Touches [.startUp, .archive, .slc] s t ∧ g ∈ t.archive.marks ∧
      t.archive.cnt.erases = bump s.archive.cnt.erases ∧
      (∀ (i : Fin 64) (e : Entry), e ∈ t.archive.index[i] → e.page / 64 ≠ g) ∧ t.archive.groups = s.archive.groups ∧
      t.startUp.reerased = s.startUp.reerased ∧ t.startUp.madeBad = s.startUp.madeBad) ∧
    (s.startUp.erasing = some g → g ∉ t.archive.marks ∧ t.archive.cnt.erases = s.archive.cnt.erases ∧
      t.startUp.erasing = none ∧ t.startUp.reerased = s.startUp.reerased + 1) := by
  have first : s.updated page failing (s.resumeUpdates.take 1) =
      if s.startUp.erasing = some g then s.endReerase failing g else s.beginReerase g := by
    unfold State.resumeUpdates
    rw [hc, hm, List.flatMap_cons]
    by_cases he : s.startUp.erasing = some g
    · rw [if_pos he, if_pos he]
      rfl
    · rw [if_neg he, if_neg he]
      rfl
  intro t
  have others (h : Nat) (hh : h ∈ gs) : h ∈ s.archive.marks := hm ▸ List.mem_cons_of_mem g hh
  by_cases he : s.startUp.erasing = some g
  · rw [if_pos he] at first
    obtain ⟨marks, erases⟩ := s.archive.erased_kept g (reeraseEnd failing g)
    simp only [t]
    rw [first, State.kick_archive, State.kick_startUp, show (s.endReerase failing g).archive = (s.archive.erased g (reeraseEnd failing g)).1 from rfl,
      marks]
    refine ⟨fun h hh => List.mem_filter.mpr ⟨others h hh, ?_⟩, fun no => absurd he no, fun _ => ⟨fun marked => ?_, erases, rfl, rfl⟩⟩
    · exact bne_iff_ne.mpr fun same => hg (same ▸ hh)
    · exact absurd rfl (bne_iff_ne.mp (List.mem_filter.mp marked).2)
  · rw [if_neg he] at first
    have touches : Touches [.startUp, .archive, .slc] s t := by
      simp only [t]
      rw [first]
      have begun : Touches [.startUp, .archive, .slc] s (s.beginReerase g) := fun p hp => by
        cases p with
        | startUp | archive | slc => cases hp
        | _ => rfl
      exact begun.kick rfl
    simp only [t] at touches ⊢
    rw [first] at touches ⊢
    rw [State.kick_archive, State.kick_startUp]
    refine ⟨fun h hh => s.archive.startErase_marks.mpr (.inr (others h hh)), fun _ => ⟨touches, s.archive.startErase_marks.mpr (.inl rfl), rfl,
      fun i e hi => (Archive.startErase_index.mp hi).2, rfl, rfl, rfl⟩, fun yes => absurd yes he⟩

end

/-- Settles O54: the updates of a resume one by one, then the state formed from them. -/
theorem resumeKeepsRetainedState : Obligations.ResumeKeepsRetainedState := by
  unfold Obligations.ResumeKeepsRetainedState
  intro page failing s h
  obtain ⟨whole, cut⟩ := exec_resume (page := page) (failing := failing) h
  refine ⟨⟨_, whole, State.readied_touches, ?_⟩, fun k => ⟨_, cut k, ?_⟩, fun g gs hc hm hg => ⟨_, cut 1, resume_cut_first hc hm hg⟩⟩
  · obtain ⟨startUp, _, _, lines, _⟩ := State.readied_blocks (s := s) (page := page) (failing := failing)
    refine ⟨by rw [startUp], by rw [startUp], by rw [startUp], by rw [startUp], State.readied_occupancy, State.readied_flash,
      State.readied_dropped, State.readied_point, fun g hc hm => State.readied_reerase hc hm, State.readied_notices, fun l => ?_, State.readied_slots⟩
    obtain ⟨tracker, port⟩ := lines l
    rw [tracker, port]
    unfold Tracker.opened Port.opened
    refine ⟨fun on => ?_, fun off => ?_⟩
    · rw [if_pos on, if_pos on]
      exact ⟨rfl, rfl⟩
    · rw [if_neg (by rw [off]; decide), if_neg (by rw [off]; decide)]
      exact ⟨rfl, rfl⟩
  · obtain ⟨ready, start⟩ := s.updated_startUp page failing (s.resumeUpdates.take k)
    rw [State.kick_startUp]
    exact ⟨((s.updated_touches page failing _).widen).kick rfl, ready, start⟩

end Sys2Proof.Machine
end

section
/-! # O50: index lookups and the fetcher, an equation per case (R112, R138, R139) -/

namespace Sys2Proof.Machine

/-- An index lookup gives the first 8 hits, and the block sequence of the eighth where there are more (R112). -/
theorem indexLookup_eq (es : List Entry) (dseq after : Nat) (x : Ival) :
    let hits := es.filter (fun e => decide (after < e.bseq ∧ e.dseq = dseq ∧ e.first < x.hi ∧ x.lo ≤ e.last))
    indexLookup es dseq x after = (hits.take 8, if hits.length ≤ 8 then none else (hits[7]?).map (·.bseq)) := by
  have tests : (fun e : Entry => decide (after < e.bseq) && e.dseq == dseq && decide (e.first < x.hi) && decide (x.lo ≤ e.last)) =
      fun e => decide (after < e.bseq ∧ e.dseq = dseq ∧ e.first < x.hi ∧ x.lo ≤ e.last) := by
    funext e
    rw [Bool.eq_iff_iff]
    simp [and_assoc]
  intro hits
  unfold indexLookup
  rw [tests]
  show (hits.take 8, _) = _
  congr 1
  split
  · rfl
  · next more =>
    have more : ¬hits.length ≤ 8 := more
    have eight : (hits.take 8).getLast? = hits[7]? := by
      rw [List.getLast?_eq_getElem?, List.length_take, Nat.min_eq_left (by omega)]
      exact List.getElem?_take_of_lt (by decide)
    show ((hits.take 8).getLast?).map _ = _
    rw [eight]

/-! ## Changes of a playback run -/

section
variable {s : State} {ch : Fin 4} {r : Run} {p : Play}

/-- The step gives a state where the run has become another, and the requests are these; nothing else of archive and channels has changed. -/
def Becomes (ch : Fin 4) (s : State) (o : Option State) (q : Run) (p : Play) (requests : List ReadReq) : Prop :=
  ∃ t, o = some t ∧ Touches [.archive, .channels] s t ∧ OtherChannels ch s t ∧ t.archive = { s.archive with requests := requests } ∧
    t.channels[ch] = { s.channels[ch] with run := some { q with body := .play p } }

theorem State.updRun_at (s : State) (ch : Fin 4) (g : Run → Run) :
    (s.updRun ch g).channels[ch] = { s.channels[ch] with run := (s.channels[ch]).run.map g } := (updAt_get ..).trans (if_pos rfl)

variable (hr : (s.channels[ch]).run = some r) (hp : r.body = .play p)
include hr hp

theorem State.updPlay_at (g : Play → Play) :
    (s.updPlay ch g).channels[ch] = { s.channels[ch] with run := some { r with body := .play (g p) } } := by
  unfold State.updPlay
  rw [State.updRun_at, hr, Option.map_some]
  dsimp only
  rw [hp]

theorem Becomes.updPlay (g : Play → Play) : Becomes ch s (some (s.updPlay ch g)) r (g p) s.archive.requests :=
  ⟨_, rfl, (Touches.refl _ s).updPlay rfl, (RunOnly.updPlay g).others, rfl, State.updPlay_at hr hp g⟩

/-- A change of the run behind a change of its working part. -/
theorem Becomes.updPlay_updRun (g : Play → Play) (f : Run → Run) (hb : ∀ (q : Run) (b : RunBody), f { q with body := b } = { f q with body := b }) :
    Becomes ch s (some ((s.updPlay ch g).updRun ch f)) (f r) (g p) s.archive.requests := by
  refine ⟨_, rfl, ((Touches.refl _ s).updPlay rfl).updRun rfl, ((RunOnly.updPlay g).trans (.updRun f)).others, rfl, ?_⟩
  rw [State.updRun_at, State.updPlay_at hr hp]
  show _ = { s.channels[ch] with run := some { f r with body := .play (g p) } }
  rw [← hb]
  rfl

/-- A change of the working part with requests presented. -/
theorem Becomes.updPlay_ask (g : Play → Play) (qs : List ReadReq) :
    Becomes ch s (some { s.updPlay ch g with archive := { (s.updPlay ch g).archive with requests := qs } }) r (g p) qs :=
  ⟨_, rfl, ((Touches.refl _ s).updPlay rfl).set_archive rfl, ((RunOnly.updPlay g).trans (.of_channels rfl)).others, rfl, State.updPlay_at hr hp g⟩

end

/-! ## The fetcher (R138, R139) -/

section
variable {s : State} {ch : Fin 4} {r : Run} {p : Play}

/-- With no halt found every DATA span is fetched. -/
theorem fetchable_of_halt (h : p.halt = none) (win : Nat) (x : Span) : fetchable r p win x = true := by
  unfold fetchable
  rw [h]

theorem fetchStep_none (hf : p.fetch = none) (hw : ∀ w ∈ p.wins, w.stage ≠ .fetching) : s.fetchStep ch r p = none := by
  have none : p.wins.find? (fun w => w.stage == .fetching) = none := List.find?_eq_none.mpr fun w hm => by simpa using hw w hm
  unfold State.fetchStep
  rw [hf]
  dsimp only
  rw [none]

/-- The span says where to read. -/
def Span.isData (x : Span) : Bool := match x.kind with | .data _ _ _ _ => true | .gap _ => false

/-- The fetcher begins the oldest window to fetch, with its DATA spans. -/
theorem fetchStep_begins (hf : p.fetch = none) (hh : p.halt = none) {xs ys : List Window} {w : Window} (hw : p.wins = xs ++ w :: ys)
    (hx : ∀ x ∈ xs, x.stage ≠ .fetching) (stage : w.stage = .fetching) :
    s.fetchStep ch r p = some (s.updPlay ch (fun p => { p with
      fetch := some { win := w.no, span := none, toRead := [], more := none, rest := w.plan.filter Span.isData } })) := by
  have all : (fun x : Span => match x.kind with | .data _ _ _ _ => fetchable r p w.no x | .gap _ => false) = Span.isData := by
    funext x
    unfold Span.isData
    cases x.kind with
    | data => exact fetchable_of_halt hh w.no x
    | gap => rfl
  have found : p.wins.find? (fun w => w.stage == .fetching) = some w := by
    rw [List.find?_eq_some_iff_append]
    exact ⟨by simp [stage], xs, ys, hw, fun x hm => by simpa using hx x hm⟩
  unfold State.fetchStep
  rw [hf]
  dsimp only
  rw [found]
  exact congrArg (fun d => some (s.updPlay ch fun p => { p with
    fetch := some { win := w.no, span := none, toRead := [], more := none, rest := w.plan.filter d } })) all

variable {f : Fetch} (hf : p.fetch = some f)
include hf

/-- The fetcher ends its window. -/
theorem fetchStep_ends (span : f.span = none) (rest : f.rest = []) :
    s.fetchStep ch r p = some (if f.win = 0 then
      (s.updPlay ch (fun p => { p.updWin f.win (fun w => { w with stage := .ready }) with fetch := none })).updRun ch
        (fun q => { q with recs := q.recs ++ [runHeader ch q p (s.profileOf p)] })
      else s.updPlay ch (fun p => { p.updWin f.win (fun w => { w with stage := .ready }) with fetch := none })) := by
  unfold State.fetchStep
  rw [hf]
  dsimp only
  rw [span]
  dsimp only
  rw [rest]

/-- The fetcher takes the next span, or a gap in its place where the index has no entry for it. -/
theorem fetchStep_takes (span : f.span = none) {x : Span} {rest : List Span} (next : f.rest = x :: rest) {src : Ival} {chain : List Stage}
    {an : Option Ancestor} {mark : Bool} (kind : x.kind = .data src chain an mark) {t : Trace} (trace : p.traces[x.trace]? = some t) :
    s.fetchStep ch r p = some (if (s.lookUp t src 0).1 = [] then
      s.updPlay ch (fun p => { p.updWin f.win (fun w => { w with
        plan := w.plan.map (fun y => if y.id = x.id then { y with kind := .gap .noData } else y) }) with fetch := some { f with rest := rest } })
      else s.updPlay ch (fun p => { p with
        fetch := some { f with span := some x, toRead := (s.lookUp t src 0).1, more := (s.lookUp t src 0).2, rest := rest } })) := by
  unfold State.fetchStep
  rw [hf]
  dsimp only
  rw [span]
  dsimp only
  rw [next]
  dsimp only
  rw [kind, trace]
  dsimp only
  obtain ⟨es, k⟩ := s.lookUp t src 0
  cases es <;> rfl

variable {x : Span} (span : f.span = some x)
include span

/-- The entries asked for, the span's next lookup. -/
theorem fetchStep_looks {src : Ival} {chain : List Stage} {an : Option Ancestor} {mark : Bool} (kind : x.kind = .data src chain an mark) {t : Trace}
    (trace : p.traces[x.trace]? = some t) {k : Nat} (read : f.toRead = []) (more : f.more = some k) :
    s.fetchStep ch r p = some (s.updPlay ch (fun p => { p with
      fetch := some { f with toRead := (s.lookUp t src k).1, more := (s.lookUp t src k).2 } })) := by
  unfold State.fetchStep
  rw [hf]
  dsimp only
  rw [span]
  dsimp only
  rw [read, trace]
  dsimp only
  rw [more, kind]

/-- The span read out, unless an outcome is awaited. -/
theorem fetchStep_done {t : Trace} (trace : p.traces[x.trace]? = some t) (read : f.toRead = []) (more : f.more = none) :
    s.fetchStep ch r p = if s.archive.awaited ch then none
      else some (s.updPlay ch (fun p => { p with fetch := some { f with span := none, toRead := [], more := none } })) := by
  unfold State.fetchStep
  rw [hf]
  dsimp only
  rw [span]
  dsimp only
  rw [read, trace]
  dsimp only
  rw [more]
  rfl

/-- The next entry, from the reuse cache. -/
theorem fetchStep_reuses {t : Trace} (trace : p.traces[x.trace]? = some t) {e : Entry} {es : List Entry} (read : f.toRead = e :: es)
    {b : ReadBlock} (cache : p.cache = some b) (held : b.page = e.page ∧ b.bseq = e.bseq ∧ b.dseq = e.dseq) :
    s.fetchStep ch r p = some (s.updPlay ch (fun p => { p.binBlock r f.win x b with fetch := some { f with toRead := es } })) := by
  unfold State.fetchStep
  rw [hf]
  dsimp only
  rw [span]
  dsimp only
  rw [read, trace]
  dsimp only
  rw [cache]
  dsimp only
  rw [if_pos held]

/-- The next entry, by a request, two at most in hand. -/
theorem fetchStep_asks {t : Trace} (trace : p.traces[x.trace]? = some t) {e : Entry} {es : List Entry} (read : f.toRead = e :: es)
    (cache : ∀ b, p.cache = some b → ¬(b.page = e.page ∧ b.bseq = e.bseq ∧ b.dseq = e.dseq)) :
    s.fetchStep ch r p = if 2 ≤ s.archive.inFlight ch then none else
      let v := s.updPlay ch (fun p => { p with fetch := some { f with toRead := es } })
      some { v with archive := { v.archive with requests := v.archive.requests ++
        [{ ch := ch, slot := t.slot, entry := e, line := t.line, side := t.side, lane := t.lane }] } } := by
  show _ = State.fetchStep.ask s ch f t e es
  unfold State.fetchStep
  rw [hf]
  dsimp only
  rw [span]
  dsimp only
  rw [read, trace]
  dsimp only
  cases hc : p.cache with
  | none => rfl
  | some b =>
    dsimp only
    rw [if_neg (cache b hc)]

end

/-- No outcome is awaited for a channel that has no request waiting and no READ wanted. -/
theorem Archive.awaited_iff (a : Archive) (ch : Fin 4) :
    a.awaited ch = true ↔ (∃ q ∈ a.requests, q.ch = ch) ∨ ∃ q, a.op = some (.read q true) ∧ q.ch = ch := by
  unfold awaited
  rw [Bool.or_eq_true, List.any_eq_true]
  refine or_congr (by simp) ?_
  cases a.op with
  | none => simp
  | some o =>
    cases o with
    | program => simp
    | erase g => simp
    | read q w => cases w <;> simp

/-- What the fetcher does next, case by case. -/
theorem fetchStep_becomes {s : State} {ch : Fin 4} {r : Run} {p : Play} (hr : (s.channels[ch]).run = some r) (hp : r.body = .play p)
    (hh : p.halt = none) :
    let becomes := fun q p' requests => Becomes ch s (s.fetchStep ch r p) q p' requests
    let fetches := fun f => becomes r { p with fetch := some f } s.archive.requests
    let found := fun t src after => s.lookUp t src after
    let changed (no : Nat) (f : Window → Window) : List Window := p.wins.map (fun w => if w.no = no then f w else w)
    (∀ xs w ys, p.fetch = none → p.wins = xs ++ w :: ys → (∀ x ∈ xs, x.stage ≠ .fetching) → w.stage = .fetching →
      fetches { win := w.no, span := none, toRead := [], more := none, rest := w.plan.filter Span.isData }) ∧
    ∀ f, p.fetch = some f →
      (f.span = none → f.rest = [] → becomes
        (if f.win = 0 then { r with recs := r.recs ++ [runHeader ch r p s.profiles[p.profile]] } else r)
        { p with wins := changed f.win (fun w => { w with stage := .ready }), fetch := none } s.archive.requests) ∧
      (∀ x rest src chain an mark t, f.span = none → f.rest = x :: rest → x.kind = .data src chain an mark →
        p.traces[x.trace]? = some t →
        ((found t src 0).1 = [] → becomes r { p with
          wins := changed f.win (fun w => { w with plan := w.plan.map (fun y => if y.id = x.id then { y with kind := .gap .noData } else y) })
          fetch := some { f with rest := rest } } s.archive.requests) ∧
        ((found t src 0).1 ≠ [] →
          fetches { f with span := some x, toRead := (found t src 0).1, more := (found t src 0).2, rest := rest })) ∧
      ∀ x src chain an mark t, f.span = some x → x.kind = .data src chain an mark → p.traces[x.trace]? = some t →
        (∀ k, f.toRead = [] → f.more = some k → fetches { f with toRead := (found t src k).1, more := (found t src k).2 }) ∧
        (f.toRead = [] → f.more = none →
          ((∀ q ∈ s.archive.requests, q.ch ≠ ch) → (∀ q, s.archive.op = some (.read q true) → q.ch ≠ ch) →
            fetches { f with span := none, toRead := [], more := none }) ∧
          ((∃ q ∈ s.archive.requests, q.ch = ch) ∨ (∃ q, s.archive.op = some (.read q true) ∧ q.ch = ch) →
            s.fetchStep ch r p = none)) ∧
        ∀ e es, f.toRead = e :: es →
          let held (b : ReadBlock) : Prop := b.page = e.page ∧ b.bseq = e.bseq ∧ b.dseq = e.dseq
          (∀ b, p.cache = some b → held b →
            becomes r { p.binBlock r f.win x b with fetch := some { f with toRead := es } } s.archive.requests) ∧
          ((∀ b, p.cache = some b → ¬held b) →
            (2 ≤ s.archive.inFlight ch → s.fetchStep ch r p = none) ∧
            (s.archive.inFlight ch < 2 → becomes r { p with fetch := some { f with toRead := es } } (s.archive.requests ++
              [{ ch := ch, slot := t.slot, entry := e, line := t.line, side := t.side, lane := t.lane }]))) := by
  intro becomes fetches found changed
  refine ⟨fun xs w ys hf hw hx stage => ?_, fun f hf => ⟨fun span rest => ?_, fun x rest src chain an mark t span next kind trace =>
    ⟨fun none => ?_, fun some => ?_⟩, fun x src chain an mark t span kind trace => ⟨fun k read more => ?_, fun read more => ⟨fun waits reads => ?_,
      fun waits => ?_⟩, fun e es read => ⟨fun b cache held => ?_, fun fresh => ⟨fun busy => ?_, fun free => ?_⟩⟩⟩⟩⟩
  · simp only [fetches, becomes, fetchStep_begins hf hh hw hx stage]
    exact .updPlay hr hp _
  · simp only [becomes, fetchStep_ends hf span rest]
    by_cases first : f.win = 0
    · rw [if_pos first, if_pos first]
      exact .updPlay_updRun hr hp (fun p => { p.updWin f.win (fun w => { w with stage := .ready }) with fetch := Option.none })
        (fun q => { q with recs := q.recs ++ [runHeader ch q p (s.profileOf p)] }) (fun _ _ => rfl)
    · rw [if_neg first, if_neg first]
      exact .updPlay hr hp (fun p => { p.updWin f.win (fun w => { w with stage := .ready }) with fetch := Option.none })
  · simp only [becomes, fetchStep_takes hf span next kind trace]
    rw [if_pos none]
    exact .updPlay hr hp (fun p => { p.updWin f.win (fun w => { w with
      plan := w.plan.map (fun y => if y.id = x.id then { y with kind := .gap .noData } else y) }) with fetch := Option.some { f with rest := rest } })
  · simp only [fetches, becomes, fetchStep_takes hf span next kind trace]
    rw [if_neg some]
    exact .updPlay hr hp _
  · simp only [fetches, becomes, fetchStep_looks hf span kind trace read more]
    exact .updPlay hr hp _
  · have free : ¬s.archive.awaited ch = true := by
      rw [Archive.awaited_iff]
      rintro (⟨q, hq, same⟩ | ⟨q, hq, same⟩)
      · exact waits q hq same
      · exact reads q hq same
    simp only [fetches, becomes, fetchStep_done hf span trace read more]
    rw [if_neg free]
    exact .updPlay hr hp _
  · rw [fetchStep_done hf span trace read more, if_pos ((Archive.awaited_iff _ _).mpr waits)]
  · simp only [becomes, fetchStep_reuses hf span trace read cache held]
    exact .updPlay hr hp (fun p => { p.binBlock r f.win x b with fetch := some { f with toRead := es } })
  · rw [fetchStep_asks hf span trace read fresh, if_pos busy]
  · simp only [becomes, fetchStep_asks hf span trace read fresh]
    rw [if_neg (Nat.not_le.mpr free)]
    exact .updPlay_ask hr hp (fun p => { p with fetch := some { f with toRead := es } }) _

end Sys2Proof.Machine
end

section
/-! # O50: what a READ's outcome gives the run (R140, R141, R149), and what the run keeps of it as it goes on (R138, R139) -/

namespace Sys2Proof.Machine

/-! ## Accumulators (R141, R149, R150) -/

section
variable (k : Nat × Nat) (f : Acc → Acc) (as : List ((Nat × Nat) × Acc))

theorem accAt_cons (q : (Nat × Nat) × Acc) (j : Nat × Nat) : accAt (q :: as) j = if q.1 = j then q.2 else accAt as j := by
  unfold accAt
  by_cases h : q.1 = j
  · rw [List.find?_cons_of_pos (by simpa using h), if_pos h]
  · rw [List.find?_cons_of_neg (by simpa using h), if_neg h]

/-- Of the accumulators only the one addressed changes. -/
theorem accAt_updAcc (j : Nat × Nat) : accAt (updAcc k f as) j = if k = j then f (accAt as k) else accAt as j := by
  induction as with
  | nil => exact (accAt_cons [] (k, f {}) j).trans rfl
  | cons q as ih =>
    obtain ⟨i, a⟩ := q
    unfold updAcc
    by_cases here : i = k
    · subst here
      rw [if_pos rfl, accAt_cons, accAt_cons, accAt_cons, if_pos rfl]
      by_cases hj : i = j
      · rw [if_pos hj, if_pos hj]
      · rw [if_neg hj, if_neg hj, if_neg hj]
    · rw [if_neg here, accAt_cons, accAt_cons, accAt_cons, ih, if_neg here]
      by_cases hj : i = j
      · subst hj
        rw [if_pos rfl, if_neg (Ne.symm here), if_pos rfl]
      · rw [if_neg hj, if_neg hj]

end

/-- A reading never lowers the number of readings counted. -/
theorem Acc.add_count (a : Acc) (v : LastReading) (suspect : Bool) : a.count ≤ (a.add v suspect).count := by
  unfold Acc.add
  split
  · exact Nat.le_succ _
  · exact Nat.le_refl _

section
variable (r : Run) (p : Play) (trace : Nat) (src : Ival) (chain : List Stage) (suspect : Bool) (b : ReadBlock)

/-- The reading an entry of the block gives. -/
def readingAt (e : (Nat × BitVec 16) × Nat) : LastReading :=
  { raw := e.1.2.toInt, pos := pointUp chain (b.first + e.1.1), bseq := b.bseq, entry := e.2 }

/-- The reading an entry of the block gives a bin: its coordinate lies in the span's source, and it falls in the bin (R141). -/
def readingIn (bin : Nat) (e : (Nat × BitVec 16) × Nat) : Option LastReading :=
  if src.lo ≤ b.first + e.1.1 ∧ b.first + e.1.1 < src.hi ∧ binOf r p (pointUp chain (b.first + e.1.1)) = bin then some (readingAt chain b e) else none

/-- The readings a block gives a bin, from the entry of an index on. -/
def readingsOf (bin : Nat) (i : Nat) (es : List (Nat × BitVec 16)) : List LastReading := (es.zipIdx i).filterMap (readingIn r p src chain b bin)

section
variable {r p src chain b} {bin i : Nat} {e : Nat × BitVec 16} {es : List (Nat × BitVec 16)}

theorem readingsOf_cons (here : src.lo ≤ b.first + e.1 ∧ b.first + e.1 < src.hi ∧ binOf r p (pointUp chain (b.first + e.1)) = bin) :
    readingsOf r p src chain b bin i (e :: es) = readingAt chain b (e, i) :: readingsOf r p src chain b bin (i + 1) es := by
  have given : readingIn r p src chain b bin (e, i) = some (readingAt chain b (e, i)) := if_pos here
  unfold readingsOf
  rw [List.zipIdx_cons, List.filterMap_cons_some given]

theorem readingsOf_skip (away : ¬(src.lo ≤ b.first + e.1 ∧ b.first + e.1 < src.hi ∧ binOf r p (pointUp chain (b.first + e.1)) = bin)) :
    readingsOf r p src chain b bin i (e :: es) = readingsOf r p src chain b bin (i + 1) es := by
  have none : readingIn r p src chain b bin (e, i) = none := if_neg away
  unfold readingsOf
  rw [List.zipIdx_cons, List.filterMap_cons_none none]

end

/-- Binning adds each reading to its own bin's accumulator of the span's trace, in the order of the block (R141). -/
theorem accAt_binEntries (i : Nat) (es : List (Nat × BitVec 16)) (as : List ((Nat × Nat) × Acc)) (bin n : Nat) :
    accAt (binEntries r p trace src chain suspect b i es as) (bin, n) =
      if n = trace then (readingsOf r p src chain b bin i es).foldl (fun a v => a.add v (b.suspect || suspect)) (accAt as (bin, trace))
      else accAt as (bin, n) := by
  induction es generalizing i as with
  | nil =>
    show accAt as (bin, n) = if n = trace then accAt as (bin, trace) else accAt as (bin, n)
    split
    · next h => rw [h]
    · rfl
  | cons e es ih =>
    rw [binEntries]
    dsimp only
    rw [ih]
    by_cases inside : src.lo ≤ b.first + e.1 ∧ b.first + e.1 < src.hi
    · rw [if_pos inside, accAt_updAcc, accAt_updAcc]
      by_cases hb : binOf r p (pointUp chain (b.first + e.1)) = bin
      · rw [readingsOf_cons ⟨inside.1, inside.2, hb⟩, hb, if_pos rfl, List.foldl_cons]
        by_cases hn : n = trace
        · rw [if_pos hn, if_pos hn]
          rfl
        · rw [if_neg hn, if_neg hn, if_neg fun h => hn (congrArg Prod.snd h).symm]
      · rw [readingsOf_skip fun h => hb h.2.2, if_neg fun h => hb (congrArg Prod.fst h), if_neg fun h => hb (congrArg Prod.fst h)]
    · rw [if_neg inside, readingsOf_skip fun h => inside ⟨h.1, h.2.1⟩]

theorem foldl_add_count (vs : List LastReading) (s : Bool) (a : Acc) : a.count ≤ (vs.foldl (fun a v => a.add v s) a).count := by
  induction vs generalizing a with
  | nil => exact Nat.le_refl _
  | cons v vs ih => exact (a.add_count v s).trans (ih _)

/-- Binning lowers no count. -/
theorem binEntries_count (i : Nat) (es : List (Nat × BitVec 16)) (as : List ((Nat × Nat) × Acc)) (j : Nat × Nat) :
    (accAt as j).count ≤ (accAt (binEntries r p trace src chain suspect b i es as) j).count := by
  obtain ⟨bin, n⟩ := j
  rw [accAt_binEntries]
  split
  · next h =>
    subst h
    exact foldl_add_count ..
  · exact Nat.le_refl _

end

/-! ## What of a window lasts while the run goes on -/

/-- A property of a window that staging it, turning another span of its plan into a gap, and binning leave true. -/
structure Lasting (id : Nat) (Q : Window → Prop) : Prop where
  staged  : ∀ a st, Q a → Q { a with stage := st }
  emptied : ∀ a y, y ≠ id → Q a → Q { a with plan := a.plan.map (fun z => if z.id = y then { z with kind := .gap .noData } else z) }
  binned  : ∀ (a : Window) r p tr src chain sus b i es, Q a → Q { a with accs := binEntries r p tr src chain sus b i es a.accs }

/-- A gap in the plan lasts. -/
theorem Lasting.mem_plan (x : Span) : Lasting x.id (fun a => x ∈ a.plan) where
  staged _ _ h := h
  emptied _ _ hy h := List.mem_map.mpr ⟨x, h, if_neg (Ne.symm hy)⟩
  binned _ _ _ _ _ _ _ _ _ _ h := h

/-- Readings counted last. -/
theorem Lasting.counted (id tr : Nat) (c : Nat → Nat) : Lasting id (fun a => ∀ b, c b ≤ (accAt a.accs (b, tr)).count) where
  staged _ _ h := h
  emptied _ _ _ h := h
  binned _ _ _ _ _ _ _ _ _ _ h b := (h b).trans (binEntries_count ..)

/-- The windows of number `n` have the property, the reuse cache is `c`, and the fetcher turns no span `id` of theirs into a gap: of such a
window in hand it has none to take, and one it has left it does not take up again. -/
structure Stays (n id : Nat) (Q : Window → Prop) (c : Option ReadBlock) (p : Play) : Prop where
  born  : n < p.nextWin
  here  : ∃ a ∈ p.wins, a.no = n
  keeps : ∀ a ∈ p.wins, a.no = n → Q a
  cache : p.cache = c
  fetch : (∃ f, p.fetch = some f ∧ f.win = n ∧ ∀ y ∈ f.rest, y.id ≠ id) ∨
    (∀ a ∈ p.wins, a.no = n → a.stage ≠ .fetching) ∧ ∀ f, p.fetch = some f → f.win ≠ n

namespace Stays
variable {n id : Nat} {Q : Window → Prop} {c : Option ReadBlock} {p p' : Play}

theorem of_eq (h : Stays n id Q c p) (hw : p'.wins = p.wins) (hn : p'.nextWin = p.nextWin) (hc : p'.cache = p.cache) (hf : p'.fetch = p.fetch) :
    Stays n id Q c p' := by
  refine ⟨hn ▸ h.born, hw ▸ h.here, hw ▸ h.keeps, hc.trans h.cache, ?_⟩
  rw [hf, hw]
  exact h.fetch

/-- A window of another number changed. -/
theorem updWin_other (h : Stays n id Q c p) {no : Nat} (hno : no ≠ n) {f : Window → Window} (hf : ∀ a, a.no = no → (f a).no ≠ n)
    (hw : p'.wins = (p.updWin no f).wins) (hn : n < p'.nextWin) (hc : p'.cache = p.cache) (hfetch : p'.fetch = p.fetch) : Stays n id Q c p' := by
  have own (a : Window) : a ∈ p'.wins ∧ a.no = n ↔ a ∈ p.wins ∧ a.no = n := by
    rw [hw]
    show a ∈ p.wins.map _ ∧ _ ↔ _
    rw [List.mem_map]
    refine ⟨?_, fun ⟨ha, e⟩ => ⟨⟨a, ha, if_neg (e ▸ hno.symm)⟩, e⟩⟩
    rintro ⟨⟨b, hb, rfl⟩, e⟩
    split at e
    · next hbn => exact absurd e (hf b hbn)
    · next hbn =>
      rw [if_neg hbn]
      exact ⟨hb, e⟩
  refine ⟨hn, ?_, fun a ha e => ?_, hc.trans h.cache, ?_⟩
  · obtain ⟨a, ha, e⟩ := h.here
    exact ⟨a, ((own a).mpr ⟨ha, e⟩).1, e⟩
  · exact h.keeps a ((own a).mp ⟨ha, e⟩).1 e
  · rw [hfetch]
    exact h.fetch.imp_right fun ⟨stage, other⟩ => ⟨fun a ha e => stage a ((own a).mp ⟨ha, e⟩).1 e, other⟩

/-- A window of the number changed, the property kept. -/
theorem updWin_same (h : Stays n id Q c p) {f : Window → Window} (hf : ∀ a, Q a → (f a).no = a.no ∧ Q (f a))
    (hw : p'.wins = (p.updWin n f).wins) (hn : p'.nextWin = p.nextWin) (hc : p'.cache = p.cache)
    (hfetch : (∃ f, p'.fetch = some f ∧ f.win = n ∧ ∀ y ∈ f.rest, y.id ≠ id) ∨
      (∀ a ∈ p'.wins, a.no = n → a.stage ≠ .fetching) ∧ ∀ f, p'.fetch = some f → f.win ≠ n) : Stays n id Q c p' := by
  refine ⟨hn ▸ h.born, ?_, fun a ha e => ?_, hc.trans h.cache, hfetch⟩
  · obtain ⟨a, ha, e⟩ := h.here
    rw [hw]
    exact ⟨f a, List.mem_map.mpr ⟨a, ha, if_pos e⟩, (hf a (h.keeps a ha e)).1.trans e⟩
  · rw [hw] at ha
    obtain ⟨b, hb, rfl⟩ := List.mem_map.mp ha
    split at e
    · next hbn =>
      rw [if_pos hbn]
      exact (hf b (h.keeps b hb hbn)).2
    · next hbn => exact absurd e hbn

/-- The fetcher goes on in its window. -/
theorem fetched (h : Stays n id Q c p) {f g : Fetch} (hf : p.fetch = some f) (hwin : g.win = f.win) (hrest : ∀ y ∈ g.rest, y ∈ f.rest) :
    Stays n id Q c { p with fetch := some g } := by
  refine ⟨h.born, h.here, h.keeps, h.cache, ?_⟩
  rcases h.fetch with ⟨k, hk, hw, ids⟩ | ⟨stage, other⟩
  · obtain rfl : f = k := Option.some.inj (hf.symm.trans hk)
    exact .inl ⟨g, rfl, hwin.trans hw, fun y hy => ids y (hrest y hy)⟩
  · refine .inr ⟨stage, fun k hk => ?_⟩
    obtain rfl : g = k := Option.some.inj hk
    rw [hwin]
    exact other f hf

/-- A window joins whose number is not yet given. -/
theorem append (h : Stays n id Q c p) {w : Window} (hw : w.no = p.nextWin) : Stays n id Q c { p with wins := p.wins ++ [w] } := by
  have own {a : Window} (ha : a ∈ p.wins ++ [w]) (e : a.no = n) : a ∈ p.wins := by
    rcases List.mem_append.mp ha with old | new
    · exact old
    · have same := List.mem_singleton.mp new
      have born := h.born
      rw [← hw, ← same, e] at born
      exact absurd born (Nat.lt_irrefl n)
  refine ⟨h.born, ?_, fun a ha e => h.keeps a (own ha e) e, h.cache, h.fetch.imp_right fun ⟨stage, other⟩ =>
    ⟨fun a ha e => stage a (own ha e) e, other⟩⟩
  obtain ⟨a, ha, e⟩ := h.here
  exact ⟨a, List.mem_append_left _ ha, e⟩

section
variable (h : Stays n id Q c p) (lasts : Lasting id Q)
include h lasts

/-- The cached block binned again for the span in hand. -/
theorem reuses (r : Run) {f : Fetch} (hf : p.fetch = some f) (x : Span) {b : ReadBlock} (hb : p.cache = some b) (es : List Entry) :
    Stays n id Q c { p.binBlock r f.win x b with fetch := some { f with toRead := es } } := by
  unfold Play.binBlock
  split
  · exact h.fetched hf rfl fun _ hy => hy
  · next src chain an sus kind =>
    have cached : some b = p.cache := hb.symm
    have step := h.fetched hf (g := { f with toRead := es }) rfl fun _ hy => hy
    by_cases hw : f.win = n
    · exact step.updWin_same (p := { p with fetch := some { f with toRead := es } })
        (f := fun w => { w with accs := binEntries r p x.trace src chain sus b 0 b.entries w.accs })
        (fun a ha => ⟨rfl, lasts.binned a _ _ _ _ _ _ _ _ _ ha⟩) (by rw [← hw]; rfl) rfl cached (.inl (by
          rcases step.fetch with left | ⟨_, other⟩
          · exact left
          · exact absurd hw (other { f with toRead := es } rfl)))
    · exact step.updWin_other (p := { p with fetch := some { f with toRead := es } }) hw
        (f := fun w => { w with accs := binEntries r p x.trace src chain sus b 0 b.entries w.accs })
        (fun a ha => ha ▸ hw) rfl h.born cached rfl

/-- The fetcher ends its window. -/
theorem ends {f : Fetch} (hf : p.fetch = some f) :
    Stays n id Q c { p.updWin f.win (fun w => { w with stage := .ready }) with fetch := none } := by
  by_cases hw : f.win = n
  · refine h.updWin_same (f := fun w => { w with stage := .ready }) (fun a ha => ⟨rfl, lasts.staged a _ ha⟩) (by rw [← hw]) rfl rfl
      (.inr ⟨fun a ha e => ?_, nofun⟩)
    obtain ⟨b, _, rfl⟩ := List.mem_map.mp ha
    split at e
    · next hbw =>
      rw [if_pos hbw]
      nofun
    · next hbw => exact absurd (e.trans hw.symm) hbw
  · have other := h.updWin_other (p' := p.updWin f.win (fun w => { w with stage := .ready })) hw (fun a ha => ha ▸ hw) rfl h.born rfl rfl
    refine ⟨other.born, other.here, other.keeps, other.cache, .inr ⟨fun a ha e => ?_, nofun⟩⟩
    rcases other.fetch with ⟨k, hk, hkw, _⟩ | ⟨stage, _⟩
    · obtain rfl : f = k := Option.some.inj (hf.symm.trans hk)
      exact absurd hkw hw
    · exact stage a ha e

/-- The next span turned into a gap. -/
theorem empties {f : Fetch} (hf : p.fetch = some f) {x : Span} {rest : List Span} (next : f.rest = x :: rest) :
    Stays n id Q c { p.updWin f.win (fun w => { w with
      plan := w.plan.map (fun y => if y.id = x.id then { y with kind := .gap .noData } else y) }) with fetch := some { f with rest := rest } } := by
  have step := h.fetched hf (g := { f with rest := rest }) rfl fun y hy => next ▸ List.mem_cons_of_mem x hy
  by_cases hw : f.win = n
  · have apart : x.id ≠ id := by
      rcases h.fetch with ⟨k, hk, _, ids⟩ | ⟨_, other⟩
      · obtain rfl : f = k := Option.some.inj (hf.symm.trans hk)
        exact ids x (next ▸ List.mem_cons_self)
      · exact absurd hw (other f hf)
    exact step.updWin_same (p := { p with fetch := some { f with rest := rest } })
      (f := fun w => { w with plan := w.plan.map (fun y => if y.id = x.id then { y with kind := .gap .noData } else y) })
      (fun a ha => ⟨rfl, lasts.emptied a x.id apart ha⟩) (by rw [← hw]; rfl) rfl rfl (.inl (by
        rcases step.fetch with left | ⟨_, other⟩
        · exact left
        · exact absurd hw (other { f with rest := rest } rfl)))
  · exact step.updWin_other (p := { p with fetch := some { f with rest := rest } }) hw
      (f := fun w => { w with plan := w.plan.map (fun y => if y.id = x.id then { y with kind := .gap .noData } else y) })
      (fun a ha => ha ▸ hw) rfl h.born rfl rfl

omit lasts in
/-- The fetcher takes up a window. -/
theorem begins (hf : p.fetch = none) {w : Window} (found : p.wins.find? (fun w => w.stage == .fetching) = some w) (g : Fetch) (hg : g.win = w.no) :
    Stays n id Q c { p with fetch := some g } := by
  refine ⟨h.born, h.here, h.keeps, h.cache, ?_⟩
  rcases h.fetch with ⟨k, hk, _⟩ | ⟨stage, _⟩
  · cases hf.symm.trans hk
  · refine .inr ⟨stage, fun k hk => ?_⟩
    obtain rfl : g = k := Option.some.inj hk
    rw [hg]
    intro e
    exact stage w (List.mem_of_find?_eq_some found) e (by simpa using List.find?_some found)

end

end Stays

/-- A planned window with no gap of the spans left out. -/
theorem State.planDone_eq (s : State) (ch : Fin 4) {w : Window} (lost : w.lost = []) :
    s.planDone ch w = s.updPlay ch (fun p => { p.updWin w.no (fun _ => w) with planner := none, nextBin := w.bin1, nextWin := w.no + 1 }) := by
  unfold State.planDone
  rw [lost]
  rfl

/-- The run of a channel is a playback run for which so much lasts. -/
def RunStays (ch : Fin 4) (n id : Nat) (Q : Window → Prop) (c : Option ReadBlock) (s : State) : Prop :=
  ∃ r p, (s.channels[ch]).run = some r ∧ r.body = .play p ∧ Stays n id Q c p

namespace RunStays
variable {ch : Fin 4} {n id : Nat} {Q : Window → Prop} {c : Option ReadBlock} {s u : State} {r : Run} {p : Play}

theorem of_channels (h : RunStays ch n id Q c s) (e : u.channels = s.channels) : RunStays ch n id Q c u := by
  unfold RunStays
  rw [e]
  exact h

theorem updRun (h : RunStays ch n id Q c s) {g : Run → Run} (hg : ∀ r p, r.body = .play p → ∃ p', (g r).body = .play p' ∧
    p'.wins = p.wins ∧ p'.nextWin = p.nextWin ∧ p'.cache = p.cache ∧ p'.fetch = p.fetch) : RunStays ch n id Q c (s.updRun ch g) := by
  obtain ⟨r, p, hr, hp, stays⟩ := h
  obtain ⟨p', hp', wins, nextWin, cache, fetch⟩ := hg r p hp
  refine ⟨g r, p', ?_, hp', stays.of_eq wins nextWin cache fetch⟩
  rw [State.updRun_run, hr]
  rfl

/-- A change that leaves the working part. -/
theorem updRun_body (h : RunStays ch n id Q c s) {g : Run → Run} (hg : ∀ r, (g r).body = r.body) : RunStays ch n id Q c (s.updRun ch g) :=
  h.updRun fun r p hp => ⟨p, (hg r).trans hp, rfl, rfl, rfl, rfl⟩

section
variable (hr : (s.channels[ch]).run = some r) (hp : r.body = .play p)
include hr hp

theorem updPlay {g : Play → Play} (h : Stays n id Q c (g p)) : RunStays ch n id Q c (s.updPlay ch g) := by
  refine ⟨{ r with body := .play (g p) }, g p, ?_, rfl, h⟩
  rw [State.updPlay_at hr hp]

variable (h : Stays n id Q c p)
include h

theorem fetching {f g : Fetch} (hf : p.fetch = some f) (hwin : g.win = f.win) (hrest : ∀ y ∈ g.rest, y ∈ f.rest) :
    RunStays ch n id Q c (s.updPlay ch (fun p => { p with fetch := some g })) := updPlay hr hp (h.fetched hf hwin hrest)

theorem ask {f : Fetch} (hf : p.fetch = some f) {t : Trace} {e : Entry} {es : List Entry} (hu : State.fetchStep.ask s ch f t e es = some u) :
    RunStays ch n id Q c u := by
  unfold State.fetchStep.ask at hu
  split at hu
  · cases hu
  · cases hu
    exact (fetching hr hp h hf (g := { f with toRead := es }) rfl fun _ hy => hy).of_channels rfl

theorem spanRead {f : Fetch} (hf : p.fetch = some f) (hu : State.fetchStep.spanRead s ch f = some u) : RunStays ch n id Q c u := by
  unfold State.fetchStep.spanRead at hu
  split at hu
  · cases hu
  · cases hu
    exact fetching hr hp h hf rfl fun _ hy => hy

variable (lasts : Lasting id Q)
include lasts

/-- An action of the fetcher. -/
theorem fetchStep (hu : s.fetchStep ch r p = some u) : RunStays ch n id Q c u := by
  unfold State.fetchStep at hu
  split at hu
  next hf =>
    split at hu
    next => cases hu
    next w hw =>
      cases hu
      exact updPlay hr hp (h.begins hf hw _ rfl)
  next f hf =>
    split at hu
    next =>
      split at hu
      next =>
        have ended : RunStays ch n id Q c (s.updPlay ch (fun p => { p.updWin f.win (fun w => { w with stage := .ready }) with fetch := none })) :=
          updPlay hr hp (h.ends lasts hf)
        dsimp only at hu
        split at hu
        next =>
          cases hu
          exact ended.updRun_body fun _ => rfl
        next =>
          cases hu
          exact ended
      next x rest next =>
        have taken (y : Span) (hy : y ∈ rest) : y ∈ f.rest := next ▸ List.mem_cons_of_mem x hy
        split at hu
        next =>
          split at hu
          next =>
            cases hu
            exact updPlay hr hp (h.empties lasts hf next)
          next =>
            cases hu
            exact fetching hr hp h hf rfl taken
        next =>
          cases hu
          exact fetching hr hp h hf rfl taken
    next x _ =>
      split at hu
      next =>
        split at hu
        next =>
          cases hu
          exact fetching hr hp h hf rfl fun _ hy => hy
        next => exact spanRead hr hp h hf hu
      next =>
        split at hu
        next b hb =>
          split at hu
          next =>
            cases hu
            exact updPlay hr hp (h.reuses lasts r hf x hb _)
          next => exact ask hr hp h hf hu
        next => exact ask hr hp h hf hu
      next => exact spanRead hr hp h hf hu

omit lasts in
/-- A window begun. -/
theorem beginWindow (hu : s.beginWindow ch r p = some u) : RunStays ch n id Q c u := by
  have joined : Stays n id Q c { p with wins := p.wins ++ [p.newWindow r] } := h.append rfl
  have there : ((s.updPlay ch (fun q => { q with wins := q.wins ++ [p.newWindow r] })).channels[ch]).run =
      some { r with body := .play { p with wins := p.wins ++ [p.newWindow r] } } := by rw [State.updPlay_at hr hp]
  unfold State.beginWindow at hu
  dsimp only at hu
  split at hu
  · cases hu
  · split at hu
    · cases hu
      have plan : (linePlan p (p.newWindow r)).no = p.nextWin ∧ (linePlan p (p.newWindow r)).lost = [] := by
        unfold linePlan
        rw [foldl_lineSpan]
        exact ⟨rfl, rfl⟩
      obtain ⟨no, lost⟩ := plan
      have born : p.nextWin ≠ n := (Nat.ne_of_lt h.born).symm
      rw [State.planDone_eq _ _ lost]
      exact updPlay (g := fun q => { q.updWin (linePlan p (p.newWindow r)).no (fun _ => linePlan p (p.newWindow r)) with
        planner := none, nextBin := (linePlan p (p.newWindow r)).bin1, nextWin := (linePlan p (p.newWindow r)).no + 1 })
        there rfl (joined.updWin_other (no := (linePlan p (p.newWindow r)).no) (by rw [no]; exact born)
        (f := fun _ => linePlan p (p.newWindow r)) (fun _ _ => by rw [no]; exact born) rfl
        (by show n < (linePlan p (p.newWindow r)).no + 1; rw [no]; exact Nat.lt_succ_of_lt h.born) rfl rfl)
    · cases hu
      next coil _ _ =>
        have planned := updPlay (g := fun q => { q with
          planner := some { trace := 0, stack := [], await := some (.visit (targetLevel coil (p.newWindow r).span)) } })
          there rfl (joined.of_eq rfl rfl rfl rfl)
        exact planned.updRun_body (g := fun q => { q with planOp := some ((targetLevel coil (p.newWindow r).span).step true .start) }) fun _ => rfl

end

/-- Bins written. -/
theorem emitGo (h : RunStays ch n id Q c s) : RunStays ch n id Q c (s.emitGo ch) := h.updRun fun r p hp => by
  obtain ⟨_, _, _, body, same, wrote⟩ := fillFrame_wroteBins (s.packProfile r) frameFuel r
  rw [same]
  rcases wrote with rfl | ⟨q, m, held, prior, hq, _, rfl⟩
  · exact ⟨p, hp, rfl, rfl, rfl, rfl⟩
  · obtain rfl : p = q := RunBody.play.inj (hp.symm.trans hq)
    exact ⟨_, rfl, rfl, rfl, rfl, rfl⟩

section
variable (lasts : Lasting id Q) (h : RunStays ch n id Q c s)
include lasts h

/-- Windows begun and spans fetched until the run must wait. -/
theorem playGo (fuel : Nat) : RunStays ch n id Q c (State.playGo ch fuel s) := by
  induction fuel generalizing s with
  | zero => exact h
  | succ fuel ih =>
    obtain ⟨r, p, hr, hp, stays⟩ := h
    unfold State.playGo
    split
    · exact ⟨r, p, hr, hp, stays⟩
    · rw [hr]
      dsimp only
      rw [hp]
      dsimp only
      split
      · next hb => exact ih (beginWindow hr hp stays hb)
      · split
        · next hf => exact ih (fetchStep hr hp stays lasts hf)
        · exact ⟨r, p, hr, hp, stays⟩

/-- What lasts while the run's channel goes on. -/
theorem channelGo : RunStays ch n id Q c (s.channelGo ch) := by
  unfold State.channelGo
  split
  · exact h
  · obtain ⟨r, p, hr, hp, stays⟩ := h
    rw [hr]
    dsimp only
    rw [hp]
    exact (playGo lasts ⟨r, p, hr, hp, stays⟩ 1024).emitGo

end

end RunStays

end Sys2Proof.Machine
end

section
/-! # O50: READ (R115, R140, R141, R146) -/

namespace Sys2Proof.Machine

/-! ## The tests of a page (R115) -/

/-- The readings of a page image. -/
def pageReadings (p : List Byte) : List (Nat × BitVec 16) :=
  (List.range (field p 30 1)).map (fun i => (field p (32 + 4 * i) 2, BitVec.ofNat 16 (field p (34 + 4 * i) 2)))

theorem imageEntries_drop (n k : Nat) (p : List Byte) : imageEntries n (p.drop k) =
    (List.range n).map (fun i => (field p (k + 4 * i) 2, BitVec.ofNat 16 (field p (k + 2 + 4 * i) 2))) := by
  induction n generalizing k with
  | zero => rfl
  | succ n ih =>
    have shifted (j : Nat) : field (p.drop k) j 2 = field p (k + j) 2 := by
      unfold field
      rw [List.drop_drop]
    rw [imageEntries, List.drop_drop, ih, List.range_succ_eq_map, List.map_cons, List.map_map, shifted, shifted]
    refine congrArg (List.cons _) (List.map_congr_left fun i _ => ?_)
    show (field p (k + 4 + 4 * i) 2, BitVec.ofNat 16 (field p (k + 4 + 2 + 4 * i) 2)) =
      (field p (k + 4 * (i + 1)) 2, BitVec.ofNat 16 (field p (k + 2 + 4 * (i + 1)) 2))
    rw [show k + 4 + 4 * i = k + 4 * (i + 1) by omega, show k + 4 + 2 + 4 * i = k + 2 + 4 * (i + 1) by omega]

section
variable (q : ReadReq) (p : List Byte)

/-- The block of a good READ. -/
def blockRead : ReadBlock :=
  { page := q.entry.page, bseq := q.entry.bseq, dseq := q.entry.dseq, first := field p 14 6, suspect := field p 31 1 % 2 == 1,
    entries := pageReadings p }

/-- The page has the header asked for. -/
def headerOurs : Prop := field p 0 1 = q.slot.1 ∧ field p 8 6 = q.entry.bseq ∧ field p 1 4 = q.entry.dseq ∧ field p 5 1 = q.line ∧
  field p 6 1 = q.side.code ∧ field p 7 1 = q.lane.code

/-- The page's CRC-32 is right. -/
def pageSound : Prop := (crc32 (p.take 512)).toNat = field p 512 4

/-- The page is erased. -/
def pageBlank : Prop := ∀ b ∈ p, b = 0xFF#8

variable {q p}

theorem all_erased_iff : p.all (· == erasedByte) = true ↔ pageBlank p := by
  rw [List.all_eq_true]
  exact forall₂_congr fun _ _ => beq_iff_eq

theorem verifyPage_blank (h : pageBlank p) : verifyPage q p = .retired := if_pos (all_erased_iff.mpr h)

variable (written : ¬pageBlank p)
include written

theorem verifyPage_unsound (h : ¬pageSound p) : verifyPage q p = .readFault := by
  unfold verifyPage
  rw [if_neg (mt all_erased_iff.mp written)]
  exact if_pos h

variable (sound : pageSound p)
include sound

theorem verifyPage_foreign (h : ¬headerOurs q p) : verifyPage q p = .retired := by
  unfold verifyPage
  rw [if_neg (mt all_erased_iff.mp written), if_neg (not_not.mpr (show (crc32 (p.take 512)).toNat = field p 512 4 from sound)), if_pos]
  unfold headerOurs at h
  tauto

theorem verifyPage_good (h : headerOurs q p) : verifyPage q p = .good (blockRead q p) := by
  obtain ⟨slot, bseq, dseq, line, side, lane⟩ := h
  unfold verifyPage
  rw [if_neg (mt all_erased_iff.mp written), if_neg (not_not.mpr (show (crc32 (p.take 512)).toNat = field p 512 4 from sound)),
    if_neg (by simp [slot, bseq, dseq, line, side, lane]), imageEntries_drop]
  rfl

omit written sound in
/-- A page erased, or sound under another header, is RETIRED. -/
theorem verifyPage_retired (h : pageBlank p ∨ pageSound p ∧ ¬headerOurs q p) : verifyPage q p = .retired := by
  by_cases blank : pageBlank p
  · exact verifyPage_blank blank
  · obtain ⟨sound, foreign⟩ := h.resolve_left blank
    exact verifyPage_foreign blank sound foreign

end

/-! ## The outcome at its run (R140, R146) -/

section
variable {s : State} {ch : Fin 4} {r : Run} {p : Play} (hr : (s.channels[ch]).run = some r) (hp : r.body = .play p)

theorem RunOnly.onOutcome (s : State) (ch : Fin 4) (e : Entry) (o : ReadOutcome) : RunOnly ch s (s.onOutcome ch e o) := by
  unfold State.onOutcome
  split
  · exact .refl
  · split
    · exact .refl
    · split
      · exact .refl
      · split
        · exact .refl
        · split
          · exact .updPlay _
          · split
            · exact .refl
            · exact (RunOnly.updPlay _).trans (.fault _ _)
          · split
            · exact .refl
            · exact .updPlay _

include hr hp

section
variable {e : Entry} {f : Fetch} {x : Span} (hf : p.fetch = some f) (hx : f.span = some x)
include hf hx

theorem State.onOutcome_good (b : ReadBlock) : s.onOutcome ch e (.good b) = s.updPlay ch (fun p => p.binBlock r f.win x b) := by
  unfold State.onOutcome
  rw [hr]
  dsimp only
  rw [hp]
  dsimp only
  rw [hf]
  dsimp only
  rw [hx]

variable {t : Ival} (gap : addedGap x e = some t)
include gap

theorem State.onOutcome_retired : s.onOutcome ch e .retired = s.updPlay ch (fun p => p.addGap f.win x.trace t .noData) := by
  unfold State.onOutcome
  rw [hr]
  dsimp only
  rw [hp]
  dsimp only
  rw [hf]
  dsimp only
  rw [hx]
  dsimp only
  rw [gap]

theorem State.onOutcome_readFault : s.onOutcome ch e .readFault =
    (s.updPlay ch (fun p => p.addGap f.win x.trace t .readFault)).fault ch t.lo f.win := by
  unfold State.onOutcome
  rw [hr]
  dsimp only
  rw [hp]
  dsimp only
  rw [hf]
  dsimp only
  rw [hx]
  dsimp only
  rw [gap]

end

/-- Under CONTINUE a fault lowers the first fault position (R146). -/
theorem State.fault_continue (go : (s.profileOf p).halt = false) (pos win : Nat) :
    s.fault ch pos win = s.updRun ch (fun r => { r with firstFault := some (match r.firstFault with | none => pos | some q => min q pos) }) := by
  unfold State.fault
  rw [hr]
  dsimp only
  rw [hp]
  dsimp only
  rw [go]
  rfl

/-- Under HALT the first fault halts the run (R146). -/
theorem State.fault_halt (stop : (s.profileOf p).halt = true) (first : p.halt = none) (pos win : Nat) :
    ∃ q, ((s.fault ch pos win).channels[ch]).run = some q ∧ q.result = some .halted ∧ q.firstFault = some pos := by
  unfold State.fault
  rw [hr]
  dsimp only
  rw [hp]
  dsimp only
  rw [stop, first, if_neg (by decide), if_pos (show Halt.better _ none = true from rfl)]
  have halted (f : Run → Run) : ((s.updRun ch f).channels[ch]).run = some (f r) := by
    rw [State.updRun_run, hr]
    rfl
  split
  · exact ⟨_, halted _, rfl, rfl⟩
  · exact ⟨_, halted _, rfl, rfl⟩

end

/-! ## The window of the span that asked -/

section
variable {w : Play} {win : Window} (here : win ∈ w.wins)
include here

/-- The window of a number is changed. -/
theorem Play.mem_updWin {no : Nat} (hno : win.no = no) (g : Window → Window) : g win ∈ (w.updWin no g).wins :=
  List.mem_map.mpr ⟨win, here, if_pos hno⟩

/-- What has been done to the window in hand lasts: no other window has its number, and the fetcher has no span to take of the number the
window's next span gets. -/
theorem Stays.start {f : Fetch} (hno : win.no = f.win) (apart : w.wins.Pairwise (fun a b => a.no ≠ b.no))
    (born : ∀ a ∈ w.wins, a.no < w.nextWin) (ids : ∀ a ∈ f.rest, a.id ≠ win.nextId) {Q : Window → Prop} {g : Window → Window}
    (hg : (g win).no = win.no) (hQ : Q (g win)) {w' : Play} (wins : w'.wins = (w.updWin f.win g).wins) (nextWin : w'.nextWin = w.nextWin)
    (fetch : w'.fetch = some f) : Stays f.win win.nextId Q w'.cache w' := by
  have alone {a : Window} (ha : a ∈ w.wins) (e : a.no = f.win) : a = win :=
    List.inj_on_of_nodup_map (List.pairwise_map.mpr apart) ha here (e.trans hno.symm)
  refine ⟨?_, ⟨g win, ?_, hg.trans hno⟩, fun a ha e => ?_, rfl, .inl ⟨f, fetch, rfl, ids⟩⟩
  · rw [nextWin, ← hno]
    exact born win here
  · rw [wins]
    exact w.mem_updWin here hno g
  · rw [wins] at ha
    obtain ⟨b, hb, rfl⟩ := List.mem_map.mp ha
    split at e
    · next hbn =>
      rw [if_pos hbn, alone hb hbn]
      exact hQ
    · next hbn => exact absurd e hbn

end

/-! ## The command -/

section
variable (s : State) (q : ReadReq) (wanted : Bool) (o : ReadOutcome)

/-- The READ has ended and is counted. -/
def State.readEnded : State := { s with archive := { s.archive with op := none, cnt := s.archive.cnt.afterRead o } }

/-- The outcome has reached the run that still wants it. -/
def State.outcomeTaken : State := if wanted then (s.readEnded o).onOutcome q.ch q.entry o else s.readEnded o

/-- The page the flash gives. -/
def pageGiven (s : State) (q : ReadReq) (back : ReadBack) : List Byte :=
  match back with | .asStored => readPage s.flash q.entry.page | .bytes b => b

theorem exec_read {s : State} {q : ReadReq} {wanted : Bool} (h : s.archive.op = some (.read q wanted)) (back : ReadBack) :
    exec (.read back) s =
      .next ((s.outcomeTaken q wanted (verifyPage q (pageGiven s q back))).channelGo q.ch).storeClear.clearAnswer.flashKick.kick := by
  have arm : exec (.read back) s = execRead back s := rfl
  rw [arm]
  unfold execRead
  rw [h]
  rfl

theorem State.outcomeTaken_touches : Touches [.archive, .channels] s (s.outcomeTaken q wanted o) := by
  unfold State.outcomeTaken
  split
  · exact ((Touches.refl _ s).set_archive rfl).onOutcome rfl rfl
  · exact (Touches.refl _ s).set_archive rfl

theorem State.outcomeTaken_runOnly : RunOnly q.ch s (s.outcomeTaken q wanted o) := by
  have ended : RunOnly q.ch s (s.readEnded o) := .of_channels rfl
  unfold State.outcomeTaken
  split
  · exact ended.trans (.onOutcome ..)
  · exact ended

/-- The run's work behind a READ leaves the archive with the READ ended and counted, but for the requests. -/
theorem State.readOver_asked : Asked (s.readEnded o).archive ((s.outcomeTaken q wanted o).channelGo q.ch).archive := by
  refine Asked.trans ?_ (.channelGo ..)
  unfold State.outcomeTaken
  split
  · exact .onOutcome ..
  · exact .refl _

/-- The counts of READs stay through what follows a flash operation. -/
theorem State.flashOver_reads {u : State} (idle : u.archive.op = none) : let k := u.storeClear.clearAnswer.flashKick.kick.archive.cnt
    k.reads = u.archive.cnt.reads ∧ k.readFaults = u.archive.cnt.readFaults ∧ k.readsRetired = u.archive.cnt.readsRetired := by
  intro k
  have counts : k = u.storeClear.archive.choose.1.cnt := by
    show u.storeClear.clearAnswer.flashKick.kick.archive.cnt = _
    rw [State.kick_archive, State.flashKick_archive, State.clearAnswer_archive]
  rw [counts]
  cases hc : u.archive.clear with
  | false =>
    rw [State.storeClear_quiet hc]
    have chosen : u.archive.choose.1 = _ := Chosen.choose u.archive
    refine ⟨?_, ?_, ?_⟩ <;> rw [chosen]
  | true =>
    rw [State.storeClear_due hc idle, State.emptiedStore_archive, Archive.cleared_choose, Archive.cleared_archive]
    exact ⟨rfl, rfl, rfl⟩

theorem ArchiveCounters.afterRead_reads (k : ArchiveCounters) : (k.afterRead o).reads = bump k.reads := by cases o <;> rfl

/-- The clear applies behind a READ. -/
theorem read_clearDue (hc : s.archive.clear = true) :
    ClearDue (fun g => g < 4096 ∧ s.archive.groupState g ≠ .bad ∧ s.archive.groupState g ≠ .failing) s
      ((s.outcomeTaken q wanted o).channelGo q.ch) := by
  have touches : Touches [.archive, .channels] s ((s.outcomeTaken q wanted o).channelGo q.ch) :=
    (s.outcomeTaken_touches q wanted o).channelGo rfl rfl
  have asked := s.readOver_asked q wanted o
  have groups : ((s.outcomeTaken q wanted o).channelGo q.ch).archive.groups = s.archive.groups := asked.kept (·.groups)
  refine ⟨.of_slc (touches .slc rfl), touches.trackers_eq, touches.capture_eq, (asked.kept (·.clear)).trans hc, asked.idle rfl,
    asked.kept (·.lastOp), asked.kept (·.lastChan), fun _ hg => hg.1, fun inv => ⟨?_, fun g hg => ?_⟩⟩
  · unfold GroupsInv
    rw [groups]
    exact inv
  · rw [Archive.groupState_congr groups]
    refine ⟨?_, fun _ bad _ => bad⟩
    unfold GroupState.unusable
    rw [not_or]
    exact ⟨fun h => h.2, fun h => ⟨hg, h⟩⟩

/-- A READ with a clear waiting. -/
theorem read_clears (hc : s.archive.clear = true) :
    let t := ((s.outcomeTaken q wanted o).channelGo q.ch).storeClear.clearAnswer.flashKick.kick
    let k := s.archive.cnt
    t.archive.marks = s.archive.marks ∧
      StoreCleared (fun g => g < 4096 ∧ s.archive.groupState g ≠ .bad ∧ s.archive.groupState g ≠ .failing) s t ∧
      t.archive.cnt = { k with reads := bump k.reads, readFaults := t.archive.cnt.readFaults,
                               readsRetired := t.archive.cnt.readsRetired, dropped := bump k.dropped s.archive.queue.length,
                               retired := t.archive.cnt.retired } := by
  have due := read_clearDue s q wanted o hc
  have asked := s.readOver_asked q wanted o
  have archive := due.archive
  have cnt : ((s.outcomeTaken q wanted o).channelGo q.ch).archive.cnt = s.archive.cnt.afterRead o := asked.kept (·.cnt)
  have queue : ((s.outcomeTaken q wanted o).channelGo q.ch).archive.queue = s.archive.queue := asked.kept (·.queue)
  have marks : ((s.outcomeTaken q wanted o).channelGo q.ch).archive.marks = s.archive.marks := asked.kept (·.marks)
  have cleared := due.storeCleared
  intro t k
  rw [Archive.cleared_archive, cnt, queue, marks] at archive
  have same : t.archive = _ := archive
  refine ⟨?_, cleared, ?_⟩
  · rw [same]
  · rw [same]
    cases o <;> rfl

end

end Sys2Proof.Machine
end

section
/-! # O50: the run behind a READ, and the obligation -/

namespace Sys2Proof.Machine

/-- The run of a channel is a playback run with a window of the number, and so much holds of the three. -/
def RunAfter (ch : Fin 4) (n : Nat) (t : State) (ok : Run → Play → Window → Prop) : Prop :=
  ∃ r p, (t.channels[ch]).run = some r ∧ r.body = .play p ∧ ∃ a ∈ p.wins, a.no = n ∧ ok r p a

/-- The run of a channel is a playback run with this result and this working part. -/
def PlayAt (ch : Fin 4) (u : State) (result : Option RunResult) (p : Play) : Prop :=
  ∃ r, (u.channels[ch]).run = some r ∧ r.result = result ∧ r.body = .play p

section
variable {ch : Fin 4} {n id : Nat} {u t : State} {result : Option RunResult} {p : Play} {Q : Window → Prop} {c : Option ReadBlock}

theorem RunAfter.of_channels {ok : Run → Play → Window → Prop} (h : RunAfter ch n u ok) (e : t.channels = u.channels) : RunAfter ch n t ok := by
  unfold RunAfter
  rw [e]
  exact h

theorem RunAfter.imp {ok ok' : Run → Play → Window → Prop} (h : RunAfter ch n u ok) (k : ∀ r p a, ok r p a → ok' r p a) : RunAfter ch n u ok' := by
  obtain ⟨r, p, hr, hp, a, ha, hn, hok⟩ := h
  exact ⟨r, p, hr, hp, a, ha, hn, k r p a hok⟩

theorem PlayAt.after (h : PlayAt ch u result p) {a : Window} (ha : a ∈ p.wins) (hn : a.no = n) :
    RunAfter ch n u (fun r _ b => r.result = result ∧ b = a) := by
  obtain ⟨r, hr, hres, hp⟩ := h
  exact ⟨r, p, hr, hp, a, ha, hn, hres, rfl⟩

theorem PlayAt.stays (h : PlayAt ch u result p) (stays : Stays n id Q c p) : RunStays ch n id Q c u := by
  obtain ⟨r, hr, _, hp⟩ := h
  exact ⟨r, p, hr, hp, stays⟩

theorem RunStays.after (h : RunStays ch n id Q c u) : RunAfter ch n u (fun _ p a => p.cache = c ∧ Q a) := by
  obtain ⟨r, p, hr, hp, stays⟩ := h
  obtain ⟨a, ha, hn⟩ := stays.here
  exact ⟨r, p, hr, hp, a, ha, hn, stays.cache, stays.keeps a ha hn⟩

theorem State.channelGo_still (h : (u.channels[ch]).state ≠ .running) : u.channelGo ch = u := if_pos h

end

/-! ## The working part with the outcome (R140, R141) -/

/-- The window with a gap that joins its plan. -/
def Window.withGap (trace : Nat) (t : Ival) (g : GapReason) (a : Window) : Window :=
  { a with plan := insertSpan { id := a.nextId, trace := trace, target := t, kind := .gap g } a.plan, nextId := a.nextId + 1 }

/-- The window with a block binned. -/
def Window.withBlock (r : Run) (p : Play) (trace : Nat) (src : Ival) (chain : List Stage) (mark : Bool) (b : ReadBlock) (a : Window) : Window :=
  { a with accs := binEntries r p trace src chain mark b 0 b.entries a.accs }

section
variable {s : State} {ch : Fin 4} {r : Run} {p : Play} {e : Entry} {f : Fetch} {x : Span} {src : Ival} {chain : List Stage} {an : Option Ancestor}
variable {mark : Bool} (hr : (s.channels[ch]).run = some r) (hp : r.body = .play p) (hf : p.fetch = some f) (hx : f.span = some x)
variable (kind : x.kind = .data src chain an mark)

include kind in
theorem Play.binBlock_data (r : Run) (p : Play) (n : Nat) (b : ReadBlock) :
    p.binBlock r n x b = { p.updWin n (Window.withBlock r p x.trace src chain mark b) with cache := some b } := by
  unfold Play.binBlock
  rw [kind]
  rfl

include kind in
/-- The gap beside a DATA span covers the image of the entry's coordinates (R140). -/
theorem addedGap_data (e : Entry) : addedGap x e = imageUp chain { lo := max src.lo e.first, hi := min src.hi (e.last + 1) } := by
  unfold addedGap
  rw [kind]
  rfl

include hr hp hf hx

include kind in
theorem PlayAt.good (b : ReadBlock) : PlayAt ch (s.onOutcome ch e (.good b)) r.result
    { p.updWin f.win (Window.withBlock r p x.trace src chain mark b) with cache := some b } := by
  refine ⟨{ r with body := .play (p.binBlock r f.win x b) }, ?_, rfl, congrArg RunBody.play (p.binBlock_data kind r f.win b)⟩
  rw [State.onOutcome_good hr hp hf hx, State.updPlay_at hr hp]

variable {t : Ival} (gap : addedGap x e = some t)
include gap

theorem PlayAt.retired : PlayAt ch (s.onOutcome ch e .retired) r.result (p.updWin f.win (Window.withGap x.trace t .noData)) := by
  refine ⟨{ r with body := .play (p.addGap f.win x.trace t .noData) }, ?_, rfl, rfl⟩
  rw [State.onOutcome_retired hr hp hf hx gap, State.updPlay_at hr hp]

omit hf hx gap in
/-- The run with the gap of a READ FAULT, before the fault is noted. -/
theorem run_withFault : ((s.updPlay ch (fun p => p.addGap f.win x.trace t .readFault)).channels[ch]).run =
    some { r with body := .play (p.addGap f.win x.trace t .readFault) } := by
  rw [State.updPlay_at hr hp]

theorem run_readFault_continue (go : (s.profiles[p.profile]).halt = false) :
    ((s.onOutcome ch e .readFault).channels[ch]).run = some { r with
      body := .play (p.addGap f.win x.trace t .readFault)
      firstFault := some (match r.firstFault with | none => t.lo | some y => min y t.lo) } := by
  have there := run_withFault (f := f) (x := x) (t := t) hr hp
  rw [State.onOutcome_readFault hr hp hf hx gap, State.fault_continue there rfl go, State.updRun_run, there]
  rfl

theorem PlayAt.readFault (go : (s.profiles[p.profile]).halt = false) :
    PlayAt ch (s.onOutcome ch e .readFault) r.result (p.updWin f.win (Window.withGap x.trace t .readFault)) :=
  ⟨_, run_readFault_continue hr hp hf hx gap go, rfl, rfl⟩

theorem run_readFault_halt (stop : (s.profiles[p.profile]).halt = true) (first : p.halt = none) :
    ∃ q, ((s.onOutcome ch e .readFault).channels[ch]).run = some q ∧ q.result = some .halted ∧ q.firstFault = some t.lo := by
  rw [State.onOutcome_readFault hr hp hf hx gap]
  exact State.fault_halt (run_withFault hr hp) rfl stop first ..

end

/-! ## The run when the command is done -/

section
variable {s t : State} {q : ReadReq} {o : ReadOutcome} {run : Run} {w : Play} {f : Fetch} {win : Window} {trace : Nat}
variable (channels : t.channels = ((s.outcomeTaken q true o).channelGo q.ch).channels)

theorem outcomeTaken_held (wanted : Bool) (held : (s.channels[q.ch]).state = .held) :
    (s.outcomeTaken q wanted o).channelGo q.ch = s.outcomeTaken q wanted o := by
  refine State.channelGo_still ?_
  rw [(s.outcomeTaken_runOnly q wanted o).state, held]
  decide

variable (here : win ∈ w.wins) (hno : win.no = f.win)
include channels here hno

/-- A gap of the outcome is in the plan of the window in hand: of a HELD run with nothing else changed, and of a RUNNING one through what it
does next. -/
theorem gap_after (hf : w.fetch = some f) {span : Ival} {reason : GapReason}
    (given : PlayAt q.ch ((s.readEnded o).onOutcome q.ch q.entry o) run.result (w.updWin f.win (Window.withGap trace span reason))) :
    let new : Span := { id := win.nextId, trace := trace, target := span, kind := .gap reason }
    ((s.channels[q.ch]).state = .held → RunAfter q.ch f.win t (fun run' _ win' =>
      run'.result = run.result ∧ win'.plan.Perm (new :: win.plan) ∧ win'.accs = win.accs)) ∧
    (w.wins.Pairwise (fun a b => a.no ≠ b.no) → (∀ a ∈ w.wins, a.no < w.nextWin) → (∀ a ∈ f.rest, a.id ≠ win.nextId) →
      RunAfter q.ch f.win t (fun _ _ win' => new ∈ win'.plan)) := by
  intro new
  have plan : (win.withGap trace span reason).plan.Perm (new :: win.plan) := insertSpan_perm new win.plan
  refine ⟨fun held => ?_, fun apart born ids => ?_⟩
  · rw [outcomeTaken_held true held] at channels
    refine ((given.after (w.mem_updWin here hno _) hno).of_channels channels).imp fun _ _ _ ⟨result, same⟩ => ⟨result, ?_, ?_⟩
    · rw [same]
      exact plan
    · rw [same]
      rfl
  · have stays := Stays.start here hno apart born ids (Q := fun a => new ∈ a.plan) (g := Window.withGap trace span reason) rfl
      (plan.mem_iff.mpr List.mem_cons_self) (w' := w.updWin f.win (Window.withGap trace span reason)) rfl rfl hf
    exact ((RunStays.channelGo (Lasting.mem_plan new) (given.stays stays)).after.of_channels channels).imp fun _ _ _ h => h.2

/-- The readings of a good block are in their accumulators: of a HELD run with nothing else changed, and of a RUNNING one, with the block in
its reuse cache, through what it does next. -/
theorem good_after (hf : w.fetch = some f) {src : Ival} {chain : List Stage} {mark : Bool} {b : ReadBlock}
    (given : PlayAt q.ch ((s.readEnded o).onOutcome q.ch q.entry o) run.result
      { w.updWin f.win (Window.withBlock run w trace src chain mark b) with cache := some b }) :
    let binned (bin : Nat) := (readingsOf run w src chain b bin 0 b.entries).foldl (fun a v => a.add v (b.suspect || mark))
      (accAt win.accs (bin, trace))
    ((s.channels[q.ch]).state = .held → RunAfter q.ch f.win t (fun run' _ win' => run'.result = run.result ∧ win'.plan = win.plan ∧
      (∀ bin, accAt win'.accs (bin, trace) = binned bin) ∧ ∀ bin n, n ≠ trace → accAt win'.accs (bin, n) = accAt win.accs (bin, n))) ∧
    (w.wins.Pairwise (fun a b => a.no ≠ b.no) → (∀ a ∈ w.wins, a.no < w.nextWin) → (∀ a ∈ f.rest, a.id ≠ win.nextId) →
      RunAfter q.ch f.win t (fun _ w' win' => w'.cache = some b ∧ ∀ bin, (binned bin).count ≤ (accAt win'.accs (bin, trace)).count)) := by
  intro binned
  have binning (bin n : Nat) : accAt (win.withBlock run w trace src chain mark b).accs (bin, n) =
      if n = trace then binned bin else accAt win.accs (bin, n) := accAt_binEntries ..
  refine ⟨fun held => ?_, fun apart born ids => ?_⟩
  · rw [outcomeTaken_held true held] at channels
    refine ((given.after (w.mem_updWin here hno _) hno).of_channels channels).imp fun _ _ _ ⟨result, same⟩ => ⟨result, ?_, fun bin => ?_,
      fun bin n other => ?_⟩
    · rw [same]
      rfl
    · rw [same, binning, if_pos rfl]
    · rw [same, binning, if_neg other]
  · have stays := Stays.start here hno apart born ids (Q := fun a => ∀ bin, (binned bin).count ≤ (accAt a.accs (bin, trace)).count)
      (g := Window.withBlock run w trace src chain mark b) rfl (fun bin => by rw [binning, if_pos rfl])
      (w' := { w.updWin f.win (Window.withBlock run w trace src chain mark b) with cache := some b }) rfl rfl hf
    exact (RunStays.channelGo (Lasting.counted win.nextId trace fun bin => (binned bin).count) (given.stays stays)).after.of_channels channels

end

/-- READ: its counts, what a waiting clear does behind it, and the run that asked for it. -/
theorem exec_read_counts {s : State} {q : ReadReq} {wanted : Bool} (h : s.archive.op = some (.read q wanted)) (back : ReadBack) :
    let o := verifyPage q (pageGiven s q back)
    let k := s.archive.cnt
    ∃ t, exec (.read back) s = .next t ∧ Touches [.capture, .archive, .channels, .slc] s t ∧ OtherChannels q.ch s t ∧
      t.archive.cnt.reads = bump k.reads ∧ t.archive.cnt.readFaults = (k.afterRead o).readFaults ∧
      t.archive.cnt.readsRetired = (k.afterRead o).readsRetired ∧
      (s.archive.clear = true → t.archive.marks = s.archive.marks ∧
        StoreCleared (fun g => g < 4096 ∧ s.archive.groupState g ≠ .bad ∧ s.archive.groupState g ≠ .failing) s t ∧
        t.archive.cnt = { k with reads := bump k.reads, readFaults := t.archive.cnt.readFaults,
                                 readsRetired := t.archive.cnt.readsRetired, dropped := bump k.dropped s.archive.queue.length,
                                 retired := t.archive.cnt.retired }) ∧
      t.channels = ((s.outcomeTaken q wanted o).channelGo q.ch).channels := by
  intro o k
  obtain ⟨t, ht, touches⟩ := everyCommandTouchesOnlyItsBlocks (.read back) s
  have ends := Host.Outcome.next.inj (ht.symm.trans (exec_read h back))
  have asked := s.readOver_asked q wanted o
  have cnt : ((s.outcomeTaken q wanted o).channelGo q.ch).archive.cnt = k.afterRead o := asked.kept (·.cnt)
  obtain ⟨reads, faults, retired⟩ := State.flashOver_reads (asked.idle rfl)
  have clears := read_clears s q wanted o
  have channels := ((s.outcomeTaken q wanted o).channelGo q.ch).flashOver_touches.channels_eq
  have only := (s.outcomeTaken_runOnly q wanted o).trans .channelGo
  rw [cnt] at reads faults retired
  refine ⟨t, ht, touches, ?_⟩
  rw [ends]
  exact ⟨(only.trans (.of_channels channels)).others, reads.trans (k.afterRead_reads o), faults, retired, clears, channels⟩

/-- Settles O50: the fetcher by its cases; a READ by the tests of its page, the gap or the readings it gives the window in hand, and what of
that window lasts while the run goes on. -/
theorem readOutcomes : Obligations.ReadOutcomes := by
  unfold Obligations.ReadOutcomes
  refine ⟨indexLookup_eq, fun ch s r p hr hp hh => ⟨fetchStep_none, fetchStep_becomes hr hp hh⟩, fun s q wanted back h => ?_⟩
  intro p blank sound ours k
  obtain ⟨t, ht, touches, others, reads, faults, retired, clears, channels⟩ := exec_read_counts h back
  have retires : blank ∨ sound ∧ ¬ours → verifyPage q (pageGiven s q back) = .retired := verifyPage_retired
  have faulty : ¬blank → ¬sound → verifyPage q (pageGiven s q back) = .readFault := verifyPage_unsound
  have good : ¬blank → sound → ours → verifyPage q (pageGiven s q back) = .good (blockRead q p) := verifyPage_good
  generalize verifyPage q (pageGiven s q back) = o at *
  refine ⟨t, ht, touches, others, reads, clears, fun hn => ?_, fun hb hs => ?_, fun hb hs ho => ?_, fun held unwanted => ?_, ?_⟩
  · cases retires hn
    exact ⟨retired, faults⟩
  · cases faulty hb hs
    exact ⟨faults, retired⟩
  · cases good hb hs ho
    exact ⟨faults, retired⟩
  · rw [channels, outcomeTaken_held wanted held, unwanted]
    rfl
  · intro run w f x src chain anc mark win want hr hp hf hx kind here hno held running image after gap first entries binned
    subst want
    have imaged : addedGap x q.entry = image := addedGap_data kind q.entry
    refine ⟨fun hn span hi => ?_, fun hb hs go => ⟨fun span hi => ?_, fun span hi his => ?_⟩, fun hb hs stop new span hi his => ?_,
      fun hb hs ho => ?_⟩
    · cases retires hn
      obtain ⟨still, goes⟩ := gap_after channels here hno hf (PlayAt.retired (s := s.readEnded .retired) hr hp hf hx (imaged.trans hi))
      exact ⟨still, fun ⟨_, apart, born, ids⟩ => goes apart born ids⟩
    · cases faulty hb hs
      obtain ⟨still, goes⟩ := gap_after channels here hno hf (PlayAt.readFault (s := s.readEnded .readFault) hr hp hf hx (imaged.trans hi) go)
      exact ⟨still, fun ⟨_, apart, born, ids⟩ => goes apart born ids⟩
    · cases faulty hb hs
      rw [channels, outcomeTaken_held true his]
      exact ⟨_, run_readFault_continue (s := s.readEnded .readFault) hr hp hf hx (imaged.trans hi) go, rfl⟩
    · cases faulty hb hs
      rw [channels, outcomeTaken_held true his]
      exact run_readFault_halt (s := s.readEnded .readFault) hr hp hf hx (imaged.trans hi) stop new
    · cases good hb hs ho
      obtain ⟨still, goes⟩ := good_after channels here hno hf
        (PlayAt.good (s := s.readEnded (.good (blockRead q p))) hr hp hf hx kind (blockRead q p))
      exact ⟨still, fun ⟨_, apart, born, ids⟩ => goes apart born ids⟩

end Sys2Proof.Machine
end
